-- ==== Sys2Proof/Word.lean ====
section
/-! DEFINITION. The word types of the Rolnus 9800: bytes, 32-bit lane words, 64-bit scalars and code
words, and the 1,024-bit set images of R51. -/

namespace Sys2Proof

abbrev Byte := BitVec 8
abbrev Word := BitVec 32
abbrev DWord := BitVec 64

/-- A set of (group slot, lane) pairs: bit 32·g + l (R51). -/
abbrev LaneSet := BitVec 1024

end Sys2Proof
end

