-- ==== Sys2Proof/Config.lean ====
section
/-! DEFINITION. What an implementation fixes, and the free values: constants with no body, of which
nothing can be proved but that they exist. A claim about one holds whatever it is. -/

namespace Sys2Proof.Config

/-- The choice among several allowed values or orders, by a counter of State (R221, R252): the model
takes it modulo the number of candidates. -/
opaque freeChoice : Nat → Nat

/-- The rounded result of a transcendental instruction where the model's enclosure of the exact
value does not decide the rounding (R82): opcode, operand, rounding mode. -/
opaque transcendental : Nat → Word → BitVec 2 → Word

/-- The address-hash lane of a destination module and line that the fabric manager configures
(R349). -/
opaque hashLane : Nat → Nat → Nat

/-- Bytes that a request to read n bytes of another module sends, as mt.fab.tx counts them (R328). -/
opaque readRequestBytes : Nat → Nat

/-- What a race record of another module shows of the earlier party, by a counter of State (R276): stored group clock in [19:0], team clock in [39:20],
identity in [57:40], its view in [77:58], granules in [81:78], scope in [83:82], engine in [84], write in [85]. -/
opaque farParty : Nat → BitVec 86

/-- The ML-DSA-65 check of a signature over a SHAKE256 digest under Walhel's root key, which the spec does not give (R331): digest, signature. -/
opaque signatureGood : List Byte → List Byte → Bool

/-- The module identity key derived from the seed (R331). -/
opaque identityKey : BitVec 512 → BitVec 512

/-- The signature of an attestation report by the identity key (R331). -/
opaque signReport : BitVec 512 → List Byte → BitVec 512

/-- Core supply voltage in millivolts at a clock in MHz, which a trace record carries (R337). -/
opaque millivolts : Nat → BitVec 16

/-- The core number that a record of the device or of a system core shows (R337). -/
opaque systemCore : Nat

/-- The key slot under which the accesses of another module are performed, by module (R330, R351). -/
opaque remoteKeySlot : Nat → BitVec 7

end Sys2Proof.Config
end

