-- ==== Sys2Proof/Syntax.lean ====
section
/-! DEFINITION. The rows of the spec's opcode table as one inductive: the instructions an agent
issues, with every operand field of their encodings (02 R19 to R36 and the instruction pages), and
the events of the device's other agents, with the place they act on. -/

namespace Sys2Proof

abbrev VReg := BitVec 8
abbrev SReg := BitVec 6
abbrev KReg := BitVec 4
abbrev QReg := BitVec 3

/-- A lane source that may be a vector register, a broadcast scalar or an immediate (R74). -/
inductive LaneSrc where
  | v (r : VReg) | s (r : SReg) | imm (x : BitVec 28)
deriving DecidableEq, Repr

/-- A lane source of a V3-only operand: a vector register or a broadcast scalar. -/
inductive RegSrc where
  | v (r : VReg) | s (r : SReg)
deriving DecidableEq, Repr

/-- The source of a unary lane form: a vector register, or the immediate in VI (R74). -/
inductive UnSrc where
  | v (r : VReg) | imm (x : BitVec 28)
deriving DecidableEq, Repr

/-- The last source of a scalar form. -/
inductive ScalSrc where
  | s (r : SReg) | imm (x : BitVec 28)
deriving DecidableEq, Repr

/-- One-source integer forms (R79). -/
inductive Int1 where
  | lane (k : KReg) (d : VReg) (a : UnSrc)
  | scalar (d : SReg) (a : ScalSrc)
deriving DecidableEq, Repr

/-- Two-source integer forms (R79). -/
inductive Int2 where
  | lane (k : KReg) (d a : VReg) (b : LaneSrc)
  | scalar (d a : SReg) (b : ScalSrc)
deriving DecidableEq, Repr

/-- Three-source integer forms (R79). -/
inductive Int3 where
  | lane (k : KReg) (d a : VReg) (b c : RegSrc)
  | scalar (d a b c : SReg)
deriving DecidableEq, Repr

/-- The forms of prm, whose VI form has the selector as immediate and C = 0 (R23, R81). -/
inductive PrmForm where
  | lane (k : KReg) (d a : VReg) (b c : RegSrc)
  | laneImm (k : KReg) (d a : VReg) (x : BitVec 28)
  | scalar (d a b c : SReg)
  | scalarImm (d a : SReg) (x : BitVec 28)
deriving DecidableEq, Repr

/-- Rounding modes in the order of the rm field (R60). -/
abbrev Rm := BitVec 2

/-- Lane and scalar two-source F32 forms (R82). -/
inductive Flt2 where
  | lane (k : KReg) (d a : VReg) (b : LaneSrc) (rm : Rm)
  | scalar (d a : SReg) (b : ScalSrc) (rm : Rm)
deriving DecidableEq, Repr

/-- Lane and scalar forms of fmin and fmax, which have no rounding (R82). -/
inductive FltMM where
  | lane (k : KReg) (d a : VReg) (b : LaneSrc)
  | scalar (d a : SReg) (b : ScalSrc)
deriving DecidableEq, Repr

/-- Lane and scalar forms of ffma (R82). -/
inductive Flt3 where
  | lane (k : KReg) (d a : VReg) (b c : RegSrc) (rm : Rm)
  | scalar (d a b c : SReg) (rm : Rm)
deriving DecidableEq, Repr

/-- The long unary F32 instructions: k, lookahead, destination, source, rounding (R82). -/
structure FltUn where
  k : KReg
  la : BitVec 4
  d : VReg
  a : UnSrc
  rm : Rm
deriving DecidableEq, Repr

/-- V3 lane form with two register sources (doubles with lookahead, packed with la = 0). -/
structure Lane2 where
  k : KReg
  la : BitVec 4
  d : VReg
  a : VReg
  b : RegSrc
  rm : Rm
deriving DecidableEq, Repr

/-- V3 lane form with three register sources. -/
structure Lane3 where
  k : KReg
  la : BitVec 4
  d : VReg
  a : VReg
  b : RegSrc
  c : RegSrc
  rm : Rm
deriving DecidableEq, Repr

/-- Comparisons of test in code order (R33). -/
inductive Cmp where
  | eq | ne | lt | le | gt | ge
deriving DecidableEq, Repr

/-- Operand types of test in code order (R33). -/
inductive TestTy where
  | s32 | n32 | f32 | f64
deriving DecidableEq, Repr

/-- The element types in code order (R24). -/
inductive Ty where
  | f64 | f32 | h16 | b16 | s32 | n32 | s16 | n16 | s8 | n8 | s4 | n4 | f8e4 | f8e5 | f6e3m2 | f6e2m3 | f4e2m1
deriving DecidableEq, Repr

/-- Reduction operations in the order of the index j (R33). -/
inductive RedOp where
  | add | addF32 | minS32 | minN32 | minF32 | maxS32 | maxN32 | maxF32 | and | or | xor
deriving DecidableEq, Repr

/-- The operations of redx in opcode order (R94). -/
inductive RedxOp where
  | minS32 | minN32 | minF32 | maxS32 | maxN32 | maxF32
deriving DecidableEq, Repr

/-- A destination that is a vector or a scalar register (R93). -/
inductive RedDst where
  | v (r : VReg) | s (r : SReg)
deriving DecidableEq, Repr

/-- The two destinations of redx (R94). -/
inductive RedxDst where
  | v (d b : VReg) | s (d b : SReg)
deriving DecidableEq, Repr

/-- The source lane of bcast (R92). -/
inductive LaneSel where
  | lit (l : BitVec 5) | s (r : SReg)
deriving DecidableEq, Repr

/-- The layout field L of formats M and X (R25): a handle, or the scalar that holds one. -/
inductive LayoutRef where
  | handle (h : BitVec 7) | s (r : SReg)
deriving DecidableEq, Repr

/-- A coordinate slot of format M (R25). -/
inductive MSlot where
  | v (r : VReg) | s (r : SReg) | lit (n : BitVec 7)
deriving DecidableEq, Repr

/-- A coordinate slot of a memory descriptor (R28). -/
inductive DSlot where
  | lit (n : BitVec 5) | s (r : BitVec 5)
deriving DecidableEq, Repr

/-- A memory descriptor (R28). -/
structure Desc where
  l : LayoutRef
  c0 : DSlot
  c1 : DSlot
  c2 : DSlot
  c3 : DSlot
deriving DecidableEq, Repr

/-- The fields of format M but the data register (R25). -/
structure MArgs where
  la : BitVec 4
  l : LayoutRef
  os : BitVec 4
  c0 : MSlot
  c1 : MSlot
  c2 : MSlot
deriving DecidableEq, Repr

/-- Widths of ld in code order (R33). -/
inductive LdW where
  | s8 | n8 | s16 | n16 | w32 | w64
deriving DecidableEq, Repr

/-- Widths of st in opcode order (R158). -/
inductive StW where
  | w8 | w16 | w32 | w64
deriving DecidableEq, Repr

/-- Atomic operations in opcode order (R160). -/
inductive AtomOp where
  | add | addF32 | minS | minN | maxS | maxN | and | or | xor | xchg | cas
deriving DecidableEq, Repr

/-- The fields of an atomic: format M with the atomic control in slot c2 (R161). -/
structure AtomArgs where
  k : KReg
  la : BitVec 4
  d : VReg
  l : LayoutRef
  os : BitVec 4
  c0 : MSlot
  c1 : MSlot
  wide : Bool
  c : VReg
deriving DecidableEq, Repr

/-- The fields of a tile instruction with one descriptor (R162). -/
structure TileArgs where
  k : KReg
  la : BitVec 4
  d : VReg
  desc : Desc
  n : BitVec 9
deriving DecidableEq, Repr

/-- The fields of gather and scatter (R162). -/
structure GatherArgs where
  k : KReg
  la : BitVec 4
  d : VReg
  e : VReg
  desc : Desc
  n : BitVec 9
deriving DecidableEq, Repr

/-- The fields of ttr (R162). -/
structure TtrArgs where
  k : KReg
  la : BitVec 4
  n : BitVec 9
  dst : Desc
  src : Desc
deriving DecidableEq, Repr

/-- The fields of lld and lst (R232). -/
structure LayerArgs where
  la : BitVec 4
  d : VReg
  n : BitVec 9
  desc : Desc
deriving DecidableEq, Repr

/-- The fields of cpy and cpyx (R205). -/
structure CpyArgs where
  la : BitVec 4
  bm : LayoutRef
  slot : DSlot
  cls : BitVec 2
  dst : Desc
  src : Desc
deriving DecidableEq, Repr

/-- Matrix formats in the order of the index f (R33). -/
inductive MmaFmt where
  | f32 | b16 | h16 | f8e4 | f8e5 | f6e3m2 | f6e2m3 | f4e2m1 | s8 | n8 | s4 | n4
deriving DecidableEq, Repr

/-- What a read of A names: its command's ID, the position of the member whose array reads, the K-step group, and the piece (R185, R242). -/
structure ARead where
  id : BitVec 6
  p : Nat
  group : Nat
  k : Nat
deriving DecidableEq, Repr

/-- The fields of mma (R187). -/
structure MmaArgs where
  la : BitVec 4
  fmt : MmaFmt
  c : VReg
  b : VReg
  p0 : Option (BitVec 6)
  p1 : Option (BitVec 6)
  id : BitVec 6
  n : BitVec 9
  a : Desc
deriving DecidableEq, Repr

/-- The scopes in order (R246). -/
inductive Scope where
  | team | cluster | tower | module | domain
deriving DecidableEq, Repr

/-- Register kinds of push and pop (R164). -/
inductive RegKind where
  | vector | scalar | set
deriving DecidableEq, Repr

/-- The two forms of emit (R294). -/
inductive EmitForm where
  | lane (k : KReg) (a : VReg) (q : QReg)
  | scalar (a : SReg) (q : QReg)
deriving DecidableEq, Repr

/-- The two forms of rsr (R41); n is the register number. -/
inductive RsrForm where
  | lane (k : KReg) (d : VReg) (hi : Bool) (n : BitVec 4)
  | scalar (d : SReg) (n : BitVec 4)
deriving DecidableEq, Repr

/-- The gang field of gang (R175). -/
structure GangArgs where
  q : Option QReg
  shape : BitVec 2
  s0 : BitVec 5
  s1 : BitVec 5
  s2 : BitVec 5
  s3 : BitVec 5
deriving DecidableEq, Repr

/-- An agent of a team, by the model's numbers. -/
structure AgentRef where
  team : Nat
  agent : Nat
deriving DecidableEq, Repr

/-- A reader of layout records with a cache of its own (R259). -/
inductive Reader where
  | lane (agent : Nat) | layer (agent : Nat) | streamer | matrix
deriving DecidableEq, Repr

/-- A place of bytes (R240): shared memory, an overpass column, the module's main memory, or another module's. The lines of the
first three carry race metadata (R269). -/
inductive Place where
  | shared (team : Nat) | column (tower col : Nat) | main | peer (number : Nat)
deriving DecidableEq, Repr

/-- An array of banks under the code of R156 (R318). -/
inductive ArrayRef where
  | shared (core : Nat) | column (tower col : Nat) | registers (core quarter : Nat) | metadata (tower : Nat)
deriving DecidableEq, Repr

/-- A write to an interface or table register without an event row of its own (R226, R303, R327, R335,
R347). -/
inductive RegWrite where
  | vi (vi : Nat) (privileged : Bool) (offset : BitVec 12) (value : DWord)
  | columnTable (cluster position : Nat) (value : DWord)
  | remap (partition logical physical : Nat)
  | aperture (partition window : Nat) (value : DWord)
deriving DecidableEq, Repr

/-- The remote atomic operations of system cores (R352). -/
inductive RemoteOp where
  | add | or | xchg | cas
deriving DecidableEq, Repr

/-- The module whose system core issues a remote atomic, and the module it is performed at (R352). -/
structure RemotePath where
  source : Nat
  dest : Nat
deriving DecidableEq, Repr

/-- Every row of the opcode table. -/
inductive Instr where
  -- control flow (06, 18)
  | nop
  | br (hint : BitVec 2) (r : SReg) (off : BitVec 16)
  | bnz (hint : BitVec 2) (ka : KReg) (off : BitVec 16)
  | bz (hint : BitVec 2) (ka : KReg) (off : BitVec 16)
  | call (off : BitVec 16)
  | ret
  | apply (ka : KReg) (off : BitVec 16)
  | applyT (policy : BitVec 2) (ka : KReg) (off : BitVec 16)
  | apply2 (ka kb : KReg) (off0 : BitVec 16) (off1 : BitVec 15)
  | join
  | exit (k : KReg)
  | await (d : SReg) (ticks : BitVec 31)
  | awaitTimeout (a : AgentRef)
  | yield
  | trap (k : KReg) (code : BitVec 16)
  | bkpt (k : KReg) (code : BitVec 16)
  | tret
  | tretSkip
  | tretComplete
  | tkill
  | tpass
  | trapDelivery (a : AgentRef)
  -- sets (06)
  | test (cmp : Cmp) (ty : TestTy) (k d : KReg) (a : VReg) (b : LaneSrc)
  | kall (d : KReg)
  | kunion (d a b : KReg)
  | kinter (d a b : KReg)
  | kdiff (d a b : KReg)
  | kcount (d : SReg) (a : KReg)
  | kfirst (d a : KReg)
  | kmatch (k d : KReg) (a : VReg) (wide : Bool)
  | kgatherT (d a : KReg)
  | kmov (d a : KReg)
  | kld (d : KReg) (m : MArgs)
  | kst (a : KReg) (m : MArgs)
  -- integer (05)
  | iadd (f : Int2)
  | isub (f : Int2)
  | imul (f : Int2)
  | imulhiS (f : Int2)
  | imulhiN (f : Int2)
  | imad (f : Int3)
  | iminS (f : Int2)
  | iminN (f : Int2)
  | imaxS (f : Int2)
  | imaxN (f : Int2)
  | iabs (f : Int1)
  | ineg (f : Int1)
  | and (f : Int2)
  | or (f : Int2)
  | xor (f : Int2)
  | not (f : Int1)
  | shl (f : Int2)
  | shr (f : Int2)
  | sar (f : Int2)
  | rotl (f : Int2)
  | popc (f : Int1)
  | clz (f : Int1)
  | brev (f : Int1)
  | bfxS (f : Int2)
  | bfxN (f : Int2)
  | bfi (f : Int3)
  | prm (f : PrmForm)
  | sel (f : Int3)
  -- F32 (05)
  | fadd (f : Flt2)
  | fsub (f : Flt2)
  | fmul (f : Flt2)
  | ffma (f : Flt3)
  | fmin (f : FltMM)
  | fmax (f : FltMM)
  | frcp (f : FltUn)
  | frsq (f : FltUn)
  | fsqrt (f : FltUn)
  | fexp2 (f : FltUn)
  | flog2 (f : FltUn)
  | fsin (f : FltUn)
  | fcos (f : FltUn)
  | fscale (k : KReg) (d a : VReg) (b : LaneSrc) (rm : Rm)
  | fclass (k : KReg) (d : VReg) (a : UnSrc)
  -- F64 and packed (05)
  | dadd (f : Lane2)
  | dmul (f : Lane2)
  | dfma (f : Lane3)
  | dmin (f : Lane2)
  | dmax (f : Lane2)
  | hadd2 (f : Lane2)
  | hmul2 (f : Lane2)
  | hfma2 (f : Lane3)
  | badd2 (f : Lane2)
  | bfma2 (f : Lane3)
  -- conversions and random draws (05)
  | cvt (k : KReg) (dst src : Ty) (rm : Rm) (d a : VReg) (jd js : BitVec 3)
  | cvtSr (k : KReg) (dst : Ty) (wide : Bool) (d a : VReg) (b : RegSrc) (hi : Bool) (jd : BitVec 3)
  | rnd (k : KReg) (d a : VReg) (b : SReg)
  -- dot products (05)
  | dot2H16 (f : Lane3)
  | dot2B16 (f : Lane3)
  | dot4S8 (f : Lane3)
  | dot4N8 (f : Lane3)
  | dot4F8E4 (f : Lane3)
  | dot4F8E5 (f : Lane3)
  | dot8S4 (f : Lane3)
  | dot8N4 (f : Lane3)
  | dot8F4E2M1 (f : Lane3)
  -- cross-lane (05)
  | shflIdx (k : KReg) (d a : VReg) (b : LaneSrc)
  | shflUp (k : KReg) (d a : VReg) (b : LaneSrc)
  | shflDown (k : KReg) (d a : VReg) (b : LaneSrc)
  | shflXor (k : KReg) (d a : VReg) (b : LaneSrc)
  | shflNx (k : KReg) (d a : VReg)
  | shflPv (k : KReg) (d a : VReg)
  | bcast (k : KReg) (d a : VReg) (src : LaneSel)
  | bcastScalar (k : KReg) (d : SReg) (a : VReg) (src : LaneSel)
  | red (op : RedOp) (rm : Rm) (k : KReg) (d : RedDst) (a : VReg)
  | redx (op : RedxOp) (k : KReg) (d : RedxDst) (a : VReg)
  | scan (op : RedOp) (ex : Bool) (rm : Rm) (k : KReg) (d a : VReg)
  -- memory (09, 14)
  | ld (w : LdW) (k : KReg) (d : VReg) (m : MArgs)
  | ldFe (w : LdW) (k : KReg) (d : VReg) (m : MArgs)
  | ldTake (w : LdW) (k : KReg) (d : VReg) (m : MArgs)
  | st (w : StW) (k : KReg) (d : VReg) (m : MArgs)
  | atom (op : AtomOp) (f : AtomArgs)
  | tld (f : TileArgs)
  | tred (f : TileArgs)
  | ttr (f : TtrArgs)
  | gather (f : GatherArgs)
  | scatter (f : GatherArgs)
  | lld (f : LayerArgs)
  | lst (f : LayerArgs)
  | push (kind : RegKind) (a : VReg) (n : BitVec 5)
  | pop (kind : RegKind) (a : VReg) (n : BitVec 5)
  | lrec (a : SReg) (handle : BitVec 7)
  | lfence
  | layoutCacheFill (team : Nat) (r : Reader) (handle : BitVec 7)
  | fence (sc : Scope)
  | bar
  | cbar
  | clockChange (core : Nat)
  | pbarArrive (d : SReg) (m : MArgs)
  | pbarWait (d : SReg) (m : MArgs)
  -- streamer (11, 14)
  | bmwait (la : BitVec 4) (d : SReg) (bm : LayoutRef) (slot : DSlot) (mask : Word)
  | cpy (f : CpyArgs)
  | cpyx (f : CpyArgs)
  | cpym (f : CpyArgs) (mask : SReg)
  | copyAccept (a : AgentRef)
  | sliceStart (core : Nat)
  | chunkLand (team copy chunk : Nat)
  | deliveryLand (team copy chunk position : Nat)
  -- matrix engine (10)
  | gang (g : GangArgs)
  | mma (f : MmaArgs)
  | commandAccept (team leader : Nat) (id : BitVec 6)
  | commandStart (team leader : Nat) (id : BitVec 6)
  | matrixARead (team leader : Nat) (r : ARead)
  | commandComplete (team leader : Nat) (id : BitVec 6)
  | mfenceOpr
  | mwait (id : BitVec 6)
  | mwaitAll
  | mwaitPop (d : SReg) (q : QReg)
  -- launch and special registers (03, 16, 17, 22)
  | emit (f : EmitForm)
  | rolesw (row : BitVec 3)
  | rsr (f : RsrForm)
  | wsr (a : SReg) (n : BitVec 4)
  | rmode (mode : BitVec 2)
  | trec (a : SReg) (code : BitVec 16)
  -- events
  | priorityBoost (team group : Nat)
  | registerFill (team group line : Nat)
  | pageWalk (vi va : Nat)
  | doorbell (vi : Nat) (d : Word)
  | launchPacket (vi : Nat)
  | loadPacket (vi : Nat)
  | unloadPacket (vi : Nat)
  | entryRecordEnter (launch : Nat)
  | binTimerExpiry (launch node : Nat)
  | dispatchPlace (launch : Nat)
  | stallCountExpiry (core : Nat)
  | preemptionStop (team : Nat)
  | teamEvicted (team : Nat)
  | savePoolSave (team : Nat)
  | commit (launch : Nat)
  | launchComplete (launch : Nat)
  | ctlPreemptInterface (vi : Nat)
  | ctlPreemptLaunch (vi : Nat) (arg : DWord)
  | ctlPreemptTeam (vi : Nat) (arg : DWord)
  | ctlRelease (vi : Nat) (arg : DWord)
  | ctlInvalidate (vi : Nat) (arg : DWord)
  | ctlReleaseEscalated (vi : Nat) (arg : DWord)
  | ctlAbort (vi : Nat) (arg : DWord)
  | ctlWriteHistograms (vi : Nat)
  | ctlRequestComplete (vi : Nat)
  | mtCounterWrite (vi : Nat) (counter : BitVec 3)
  | registerWrite (w : RegWrite)
  | imageWrite (team offset : Nat) (bytes : List Byte)
  | moveStart (tower p q : Nat)
  | moveRowCopy (tower : Nat)
  | moveSwitch (tower : Nat)
  | agingSweep (place : Place) (line : Nat)
  | metadataEvict (line : Nat)
  | bankRebuildDone (array : ArrayRef)
  | powerThrottleStep (tower : Nat)
  | thermalThrottle (tower : Nat)
  | coolantLoss
  | clockModeChange (partition : Nat)
  | sleepEnter (core : Nat)
  | syscallStop (vi : Nat) (process thread : Word)
  | resetBoot
  | attest (partition : Nat) (nonce : BitVec 256)
  | keyLoad (slot : BitVec 7) (key : BitVec 512)
  | remoteRequest (request : Nat)
  | remoteAck (request : Nat)
  | requestAbandon (request : Nat)
  | remoteAtomic (op : RemoteOp) (path : RemotePath) (addr : Nat) (operand compare : DWord)
  | flowTableWrite (partition : Nat) (flow : BitVec 6) (value : DWord)
  | routeTableWrite (module : Nat) (table : List (Nat × Nat))
  | routeEpochSwitch
  | routeEpochFree
  | portRetire (port : Nat)
  | elevatorRetire (tower elevator : Nat)
  | unassignedOpcodeIssue (cause : BitVec 3) (word : DWord)
  | thermalThrottleRelease (tower : Nat)
  | sharedMemoryWriteBack (team : Nat)
  | linkReplay (peer : Nat)
deriving DecidableEq, Repr

end Sys2Proof
end

