-- ==== Sys2Proof/Decode.lean ====
section
/-! DEFINITION. Decoding of code words (02 R19 to R36, and the encodings of the instruction pages) and
the encoder written from the same tables. Decoding is total: it answers an instruction or the check
of R36 that fails. -/

namespace Sys2Proof

/-- Why a word is not an instruction: the checks of R36 that a word alone can fail, in order. -/
inductive Reject where
  /-- Cause 1: the opcode is unassigned (R35). -/
  | unassigned
  /-- Cause 2: a header word, or a format-X word whose extension lies beyond the block (R31). -/
  | blockStructure
  /-- Cause 3: a reserved bit is non-zero. -/
  | reserved
  /-- Cause 4: the k field is non-zero where R33 requires zero. -/
  | kNotZero
  /-- Cause 5: the LA field is non-zero on a short instruction. -/
  | laNotZero
  /-- Cause 6: a field value lies outside the range of its format or page. -/
  | range
deriving DecidableEq, Repr

/-- The cause code of R36. -/
def Reject.cause : Reject → BitVec 3
  | .unassigned => 1
  | .blockStructure => 2
  | .reserved => 3
  | .kNotZero => 4
  | .laNotZero => 5
  | .range => 6

/-- The bits [lo+n-1:lo] of a word. -/
def fld (w lo n : Nat) : Nat := w / 2 ^ lo % 2 ^ n

/-- One word judged against checks 3 to 6 of R36: whether no reserved bit is set, whether k must be
zero, whether LA must be zero, whether every value is in range, and the instruction read. -/
structure Judged where
  clean : Bool
  kZero : Bool
  short : Bool
  ok : Bool
  instr : Instr

/-- The first failing check of R36, or the instruction. -/
def Judged.verdict (j : Judged) (w : Nat) : Except Reject Instr :=
  if !j.clean then .error .reserved
  else if j.kZero && fld w 51 4 != 0 then .error .kNotZero
  else if j.short && fld w 47 4 != 0 then .error .laNotZero
  else if !j.ok then .error .range
  else .ok j.instr

-- The fields of the formats (R19, R22, R23, R25 to R28).
def fOp (w : Nat) : Nat := fld w 55 9
def fK (w : Nat) : KReg := BitVec.ofNat 4 (fld w 51 4)
def fLa (w : Nat) : BitVec 4 := BitVec.ofNat 4 (fld w 47 4)
def fI (w : Nat) : Nat := fld w 46 1
def fD (w : Nat) : Nat := fld w 38 8
def fA (w : Nat) : Nat := fld w 30 8
def fB (w : Nat) : Nat := fld w 22 8
def fC (w : Nat) : Nat := fld w 14 8
def fRm (w : Nat) : Nat := fld w 12 2
def fTy (w : Nat) : Nat := fld w 7 5
def fBs (w : Nat) : Nat := fld w 6 1
def fCs (w : Nat) : Nat := fld w 5 1
def fSub (w : Nat) : Nat := fld w 0 5
def fImRm (w : Nat) : Nat := fld w 28 2
def fIm (w : Nat) : BitVec 28 := BitVec.ofNat 28 (fld w 0 28)
/-- First register field of formats C, M and X. -/
def fCa (w : Nat) : Nat := fld w 39 8
/-- Second register field of formats C and X, and the layout field of M. -/
def fCb (w : Nat) : Nat := fld w 31 8
def fCi (w : Nat) : Nat := fld w 0 31

def vreg (n : Nat) : VReg := BitVec.ofNat 8 n
def sreg (n : Nat) : SReg := BitVec.ofNat 6 n
def kreg (n : Nat) : KReg := BitVec.ofNat 4 n

/-- An 8-bit field that names a 64-bit vector operand is even (R39). -/
def evenField (n : Nat) : Bool := n % 2 == 0

/-- Source b or c of format V3 with its broadcast bit: no reserved bit, and the source (R21, R22). -/
def v3Src (r bit : Nat) : Bool × RegSrc :=
  if bit == 1 then (decide (r < 64), .s (sreg r)) else (true, .v (vreg r))

def RegSrc.toLane : RegSrc → LaneSrc
  | .v r => .v r
  | .s r => .s r

/-- An even vector source, or any scalar (R39). -/
def RegSrc.pairOk : RegSrc → Bool
  | .v r => r.toNat % 2 == 0
  | .s _ => true

-- The code orders of the enumerations.
def Ty.ofCode (n : Nat) : Option Ty :=
  [Ty.f64, .f32, .h16, .b16, .s32, .n32, .s16, .n16, .s8, .n8, .s4, .n4, .f8e4, .f8e5, .f6e3m2, .f6e2m3, .f4e2m1][n]?
def Ty.code : Ty → Nat
  | .f64 => 0 | .f32 => 1 | .h16 => 2 | .b16 => 3 | .s32 => 4 | .n32 => 5 | .s16 => 6 | .n16 => 7 | .s8 => 8
  | .n8 => 9 | .s4 => 10 | .n4 => 11 | .f8e4 => 12 | .f8e5 => 13 | .f6e3m2 => 14 | .f6e2m3 => 15 | .f4e2m1 => 16
/-- The bits of one element of a type as registers hold it (R69); 6-bit types take their 6 bits. -/
def Ty.bits : Ty → Nat
  | .f64 => 64 | .f32 | .s32 | .n32 => 32 | .h16 | .b16 | .s16 | .n16 => 16
  | .s8 | .n8 | .f8e4 | .f8e5 => 8 | .f6e3m2 | .f6e2m3 => 6 | .s4 | .n4 | .f4e2m1 => 4
/-- Elements of a type in a 32-bit register (R69); 1 for 32-bit and 64-bit types. -/
def Ty.perReg : Ty → Nat
  | .f64 | .f32 | .s32 | .n32 => 1 | .h16 | .b16 | .s16 | .n16 => 2
  | .s8 | .n8 | .f8e4 | .f8e5 | .f6e3m2 | .f6e2m3 => 4 | .s4 | .n4 | .f4e2m1 => 8
def Cmp.ofCode (n : Nat) : Option Cmp := [Cmp.eq, .ne, .lt, .le, .gt, .ge][n]?
def Cmp.code : Cmp → Nat
  | .eq => 0 | .ne => 1 | .lt => 2 | .le => 3 | .gt => 4 | .ge => 5
def TestTy.code : TestTy → Nat
  | .s32 => 0 | .n32 => 1 | .f32 => 2 | .f64 => 3
def TestTy.ofCode (n : Nat) : TestTy :=
  if n == 0 then .s32 else if n == 1 then .n32 else if n == 2 then .f32 else .f64
def RedOp.ofCode (n : Nat) : Option RedOp :=
  [RedOp.add, .addF32, .minS32, .minN32, .minF32, .maxS32, .maxN32, .maxF32, .and, .or, .xor][n]?
def RedOp.code : RedOp → Nat
  | .add => 0 | .addF32 => 1 | .minS32 => 2 | .minN32 => 3 | .minF32 => 4 | .maxS32 => 5 | .maxN32 => 6 | .maxF32 => 7
  | .and => 8 | .or => 9 | .xor => 10
def RedxOp.ofCode (n : Nat) : Option RedxOp :=
  [RedxOp.minS32, .minN32, .minF32, .maxS32, .maxN32, .maxF32][n]?
def RedxOp.code : RedxOp → Nat
  | .minS32 => 0 | .minN32 => 1 | .minF32 => 2 | .maxS32 => 3 | .maxN32 => 4 | .maxF32 => 5
def LdW.ofCode (n : Nat) : Option LdW := [LdW.s8, .n8, .s16, .n16, .w32, .w64][n]?
def LdW.code : LdW → Nat
  | .s8 => 0 | .n8 => 1 | .s16 => 2 | .n16 => 3 | .w32 => 4 | .w64 => 5
def StW.ofCode (n : Nat) : Option StW := [StW.w8, .w16, .w32, .w64][n]?
def StW.code : StW → Nat
  | .w8 => 0 | .w16 => 1 | .w32 => 2 | .w64 => 3
def AtomOp.ofCode (n : Nat) : Option AtomOp :=
  [AtomOp.add, .addF32, .minS, .minN, .maxS, .maxN, .and, .or, .xor, .xchg, .cas][n]?
def AtomOp.code : AtomOp → Nat
  | .add => 0 | .addF32 => 1 | .minS => 2 | .minN => 3 | .maxS => 4 | .maxN => 5 | .and => 6 | .or => 7 | .xor => 8
  | .xchg => 9 | .cas => 10
def MmaFmt.ofCode (n : Nat) : Option MmaFmt :=
  [MmaFmt.f32, .b16, .h16, .f8e4, .f8e5, .f6e3m2, .f6e2m3, .f4e2m1, .s8, .n8, .s4, .n4][n]?
def MmaFmt.code : MmaFmt → Nat
  | .f32 => 0 | .b16 => 1 | .h16 => 2 | .f8e4 => 3 | .f8e5 => 4 | .f6e3m2 => 5 | .f6e2m3 => 6 | .f4e2m1 => 7 | .s8 => 8
  | .n8 => 9 | .s4 => 10 | .n4 => 11
def Scope.ofCode (n : Nat) : Option Scope := [Scope.team, .cluster, .tower, .module, .domain][n]?
def Scope.code : Scope → Nat
  | .team => 0 | .cluster => 1 | .tower => 2 | .module => 3 | .domain => 4
def RegKind.code : RegKind → Nat
  | .vector => 0 | .scalar => 1 | .set => 2

/-- The L field of formats M and X (R25): no reserved bit, and the layout named. -/
def layoutOf (n : Nat) : Bool × LayoutRef :=
  if n < 128 then (true, .handle (BitVec.ofNat 7 n))
  else (decide (n % 128 < 64), .s (BitVec.ofNat 6 (n % 64)))
def LayoutRef.code : LayoutRef → Nat
  | .handle h => h.toNat
  | .s r => 128 + r.toNat

/-- A format-M coordinate slot (R25). -/
def mslotOf (n : Nat) : Bool × MSlot :=
  if n < 256 then (true, .v (vreg n))
  else if n < 384 then (decide (n % 128 < 64), .s (BitVec.ofNat 6 (n % 64)))
  else (true, .lit (BitVec.ofNat 7 (n % 128)))
def MSlot.code : MSlot → Nat
  | .v r => r.toNat
  | .s r => 256 + r.toNat
  | .lit n => 384 + n.toNat

/-- A descriptor coordinate slot (R28). -/
def dslotOf (n : Nat) : DSlot :=
  if n < 32 then .lit (BitVec.ofNat 5 n) else .s (BitVec.ofNat 5 (n % 32))
def DSlot.code : DSlot → Nat
  | .lit n => n.toNat
  | .s r => 32 + r.toNat

/-- A memory descriptor (R28). -/
def descOf (w : Nat) : Bool × Desc :=
  let l := layoutOf (fld w 24 8)
  (l.1, ⟨l.2, dslotOf (fld w 18 6), dslotOf (fld w 12 6), dslotOf (fld w 6 6), dslotOf (fld w 0 6)⟩)
def Desc.code (x : Desc) : Nat :=
  x.l.code * 2 ^ 24 + x.c0.code * 2 ^ 18 + x.c1.code * 2 ^ 12 + x.c2.code * 2 ^ 6 + x.c3.code

/-- The common fields of format M (R25). -/
def mArgsOf (w : Nat) : Bool × MArgs :=
  let l := layoutOf (fCb w)
  let c0 := mslotOf (fld w 18 9)
  let c1 := mslotOf (fld w 9 9)
  let c2 := mslotOf (fld w 0 9)
  (l.1 && c0.1 && c1.1 && c2.1, ⟨fLa w, l.2, BitVec.ofNat 4 (fld w 27 4), c0.2, c1.2, c2.2⟩)

/-- No slot that certainly lies within the record's count names a vector register: c0 always does, and
a later slot that is not zero does (R104, R169). -/
def MArgs.perAgent (m : MArgs) : Bool :=
  let notVec (first : Bool) : MSlot → Bool
    | .v r => !first && r == 0
    | _ => true
  notVec true m.c0 && notVec false m.c1 && notVec false m.c2

/-- os values 0 and 1 to 5 (R25). -/
def osAcq (m : MArgs) : Bool := decide (m.os.toNat ≤ 5)
/-- os values 0 and 6 to 10 (R25). -/
def osRel (m : MArgs) : Bool := m.os == 0 || decide (6 ≤ m.os.toNat ∧ m.os.toNat ≤ 10)

-- Integer instructions (R79).
/-- Constructor of the two-source instruction with index i of R33. -/
def int2Of (i : Nat) (f : Int2) : Option Instr :=
  match i with
  | 0 => some (.iadd f) | 1 => some (.isub f) | 2 => some (.imul f) | 3 => some (.imulhiS f) | 4 => some (.imulhiN f)
  | 6 => some (.iminS f) | 7 => some (.iminN f) | 8 => some (.imaxS f) | 9 => some (.imaxN f)
  | 12 => some (.and f) | 13 => some (.or f) | 14 => some (.xor f)
  | 16 => some (.shl f) | 17 => some (.shr f) | 18 => some (.sar f) | 19 => some (.rotl f)
  | 23 => some (.bfxS f) | 24 => some (.bfxN f)
  | _ => none
def int1Of (i : Nat) (f : Int1) : Option Instr :=
  match i with
  | 10 => some (.iabs f) | 11 => some (.ineg f) | 15 => some (.not f) | 20 => some (.popc f) | 21 => some (.clz f)
  | 22 => some (.brev f)
  | _ => none
def int3Of (i : Nat) (f : Int3) : Option Instr :=
  match i with
  | 5 => some (.imad f) | 25 => some (.bfi f) | 27 => some (.sel f)
  | _ => none

/-- Every field after the sources is zero in the V3 form of an instruction that does not use it. -/
def v3Tail (w : Nat) (rm ty sub : Bool) : Bool :=
  (rm || fRm w == 0) && (ty || fTy w == 0) && (sub || fSub w == 0)

/-- Fields b and bs (c and cs) are zero. -/
def noB (w : Nat) : Bool := fB w == 0 && fBs w == 0
def noC (w : Nat) : Bool := fC w == 0 && fCs w == 0

/-- The two-source form of a lane instruction in V3 or VI: reserved bits and the source (R22, R23). -/
def laneSrc2 (w : Nat) (rm : Bool) : Bool × LaneSrc :=
  if fI w == 1 then (rm || fImRm w == 0, .imm (fIm w))
  else
    let b := v3Src (fB w) (fBs w)
    (b.1 && noC w && v3Tail w rm false false, b.2.toLane)
/-- The source of a unary lane instruction in V3 or VI (R74). -/
def laneSrc1 (w : Nat) (rm : Bool) : Bool × UnSrc :=
  if fI w == 1 then (fA w == 0 && (rm || fImRm w == 0), .imm (fIm w))
  else (noB w && noC w && v3Tail w rm false false, .v (vreg (fA w)))
/-- The last source of a two-source scalar form. -/
def scalSrc2 (w : Nat) (rm : Bool) : Bool × ScalSrc :=
  if fI w == 1 then (decide (fA w < 64) && decide (fD w < 64) && (rm || fImRm w == 0), .imm (fIm w))
  else (decide (fA w < 64) && decide (fD w < 64) && decide (fB w < 64) && fBs w == 0 && noC w && v3Tail w rm false false,
    .s (sreg (fB w)))
def scalSrc1 (w : Nat) : Bool × ScalSrc :=
  if fI w == 1 then (fA w == 0 && decide (fD w < 64) && fImRm w == 0, .imm (fIm w))
  else (decide (fA w < 64) && decide (fD w < 64) && noB w && noC w && v3Tail w false false false, .s (sreg (fA w)))
/-- The rounding field of either form. -/
def rmOf (w : Nat) : Rm := BitVec.ofNat 2 (if fI w == 1 then fImRm w else fRm w)

def judgeIntLane (w i : Nat) : Option Judged :=
  let two := laneSrc2 w false
  let one := laneSrc1 w false
  let b := v3Src (fB w) (fBs w)
  let c := v3Src (fC w) (fCs w)
  let v3 := fI w == 0
  if i == 26 then
    if v3 then some ⟨b.1 && c.1 && v3Tail w false false false, false, true, true,
      .prm (.lane (fK w) (vreg (fD w)) (vreg (fA w)) b.2 c.2)⟩
    else some ⟨fImRm w == 0, false, true, true, .prm (.laneImm (fK w) (vreg (fD w)) (vreg (fA w)) (fIm w))⟩
  else match int2Of i (.lane (fK w) (vreg (fD w)) (vreg (fA w)) two.2) with
    | some x => some ⟨two.1, false, true, true, x⟩
    | none => match int1Of i (.lane (fK w) (vreg (fD w)) one.2) with
      | some x => some ⟨one.1, false, true, true, x⟩
      | none => match int3Of i (.lane (fK w) (vreg (fD w)) (vreg (fA w)) b.2 c.2) with
        | some x => some ⟨b.1 && c.1 && v3Tail w false false false, false, true, v3, x⟩
        | none => none

def judgeIntScalar (w i : Nat) : Option Judged :=
  let two := scalSrc2 w false
  let one := scalSrc1 w
  let v3 := fI w == 0
  let regs := decide (fA w < 64) && decide (fD w < 64)
  let three := regs && decide (fB w < 64) && decide (fC w < 64) && fBs w == 0 && fCs w == 0 && v3Tail w false false false
  if i == 26 then
    if v3 then some ⟨three, true, true, true, .prm (.scalar (sreg (fD w)) (sreg (fA w)) (sreg (fB w)) (sreg (fC w)))⟩
    else some ⟨regs && fImRm w == 0, true, true, true, .prm (.scalarImm (sreg (fD w)) (sreg (fA w)) (fIm w))⟩
  else match int2Of i (.scalar (sreg (fD w)) (sreg (fA w)) two.2) with
    | some x => some ⟨two.1, true, true, true, x⟩
    | none => match int1Of i (.scalar (sreg (fD w)) one.2) with
      | some x => some ⟨one.1, true, true, true, x⟩
      | none => match int3Of i (.scalar (sreg (fD w)) (sreg (fA w)) (sreg (fB w)) (sreg (fC w))) with
        | some x => some ⟨three, true, true, v3, x⟩
        | none => none

-- Floating point (R82, R85, R86).
def judgeFloatLane (w i : Nat) : Option Judged :=
  let k := fK w; let d := vreg (fD w); let a := vreg (fA w)
  let two := laneSrc2 w true
  let mm := laneSrc2 w false
  let un := laneSrc1 w true
  let cl := laneSrc1 w false
  let b := v3Src (fB w) (fBs w)
  let c := v3Src (fC w) (fCs w)
  let rm := rmOf w
  let f2 : Flt2 := .lane k d a two.2 rm
  let fu : FltUn := ⟨k, fLa w, d, un.2, rm⟩
  match i with
  | 0 => some ⟨two.1, false, true, true, .fadd f2⟩
  | 1 => some ⟨two.1, false, true, true, .fsub f2⟩
  | 2 => some ⟨two.1, false, true, true, .fmul f2⟩
  | 3 => some ⟨b.1 && c.1 && v3Tail w true false false, false, true, fI w == 0,
      .ffma (.lane k d a b.2 c.2 (BitVec.ofNat 2 (fRm w)))⟩
  | 4 => some ⟨mm.1, false, true, true, .fmin (.lane k d a mm.2)⟩
  | 5 => some ⟨mm.1, false, true, true, .fmax (.lane k d a mm.2)⟩
  | 6 => some ⟨un.1, false, false, true, .frcp fu⟩
  | 7 => some ⟨un.1, false, false, true, .frsq fu⟩
  | 8 => some ⟨un.1, false, false, true, .fsqrt fu⟩
  | 9 => some ⟨un.1, false, false, true, .fexp2 fu⟩
  | 10 => some ⟨un.1, false, false, true, .flog2 fu⟩
  | 11 => some ⟨un.1, false, false, true, .fsin fu⟩
  | 12 => some ⟨un.1, false, false, true, .fcos fu⟩
  | 13 => some ⟨two.1, false, true, true, .fscale k d a two.2 rm⟩
  | 14 => some ⟨cl.1, false, true, true, .fclass k d cl.2⟩
  | _ => none

def judgeFloatScalar (w i : Nat) : Option Judged :=
  let d := sreg (fD w); let a := sreg (fA w)
  let two := scalSrc2 w true
  let mm := scalSrc2 w false
  let rm := rmOf w
  let f2 : Flt2 := .scalar d a two.2 rm
  match i with
  | 0 => some ⟨two.1, true, true, true, .fadd f2⟩
  | 1 => some ⟨two.1, true, true, true, .fsub f2⟩
  | 2 => some ⟨two.1, true, true, true, .fmul f2⟩
  | 3 => some ⟨decide (fA w < 64) && decide (fD w < 64) && decide (fB w < 64) && decide (fC w < 64) && fBs w == 0 &&
      fCs w == 0 && v3Tail w true false false, true, true, fI w == 0,
      .ffma (.scalar d a (sreg (fB w)) (sreg (fC w)) (BitVec.ofNat 2 (fRm w)))⟩
  | 4 => some ⟨mm.1, true, true, true, .fmin (.scalar d a mm.2)⟩
  | 5 => some ⟨mm.1, true, true, true, .fmax (.scalar d a mm.2)⟩
  | _ => none

def judgeWide (w i : Nat) : Option Judged :=
  let k := fK w; let d := vreg (fD w); let a := vreg (fA w)
  let b := v3Src (fB w) (fBs w)
  let c := v3Src (fC w) (fCs w)
  let rm := BitVec.ofNat 2 (fRm w)
  let two : Lane2 := ⟨k, fLa w, d, a, b.2, rm⟩
  let three : Lane3 := ⟨k, fLa w, d, a, b.2, c.2, rm⟩
  let r2 := b.1 && noC w && v3Tail w true false false
  let rmm := b.1 && noC w && v3Tail w false false false
  let r3 := b.1 && c.1 && v3Tail w true false false
  let v3 := fI w == 0
  let even := v3 && evenField (fD w) && evenField (fA w) && b.2.pairOk
  match i with
  | 0 => some ⟨r2, false, false, even, .dadd two⟩
  | 1 => some ⟨r2, false, false, even, .dmul two⟩
  | 2 => some ⟨r3, false, false, even && c.2.pairOk, .dfma three⟩
  | 3 => some ⟨rmm, false, false, even, .dmin two⟩
  | 4 => some ⟨rmm, false, false, even, .dmax two⟩
  | 5 => some ⟨r2, false, true, v3, .hadd2 two⟩
  | 6 => some ⟨r2, false, true, v3, .hmul2 two⟩
  | 7 => some ⟨r3, false, true, v3, .hfma2 three⟩
  | 8 => some ⟨r2, false, true, v3, .badd2 two⟩
  | 9 => some ⟨r3, false, true, v3, .bfma2 three⟩
  | _ => none

/-- The narrow destinations of cvt.sr in opcode order (R88). -/
def srDst (i : Nat) : Option Ty := [Ty.h16, .b16, .f8e4, .f8e5, .f6e3m2, .f6e2m3, .f4e2m1][i]?
def Ty.srIndex : Ty → Nat
  | .h16 => 0 | .b16 => 1 | .f8e4 => 2 | .f8e5 => 3 | .f6e3m2 => 4 | .f6e2m3 => 5 | _ => 6

/-- A type of 16 bits or fewer takes an element index (R87). -/
def Ty.narrow (t : Ty) : Bool := decide (t.bits ≤ 16)

def judgeCvt (w : Nat) (dst : Ty) : Judged :=
  let js := fB w; let jd := fSub w
  let src := Ty.ofCode (fTy w)
  let sIx := match src with | some t => t.narrow | none => true
  let clean := fBs w == 0 && noC w && decide (js < 8) && decide (jd < 8) && (sIx || js == 0) && (dst.narrow || jd == 0)
  let t := src.getD .f64
  let pair (x : Ty) (r : Nat) : Bool := x.bits != 64 || evenField r
  ⟨clean, false, true, fI w == 0 && src.isSome && (!t.narrow || decide (js < t.perReg)) && (!dst.narrow || decide (jd < dst.perReg)) &&
    pair t (fA w) && pair dst (fD w),
    .cvt (fK w) dst t (BitVec.ofNat 2 (fRm w)) (vreg (fD w)) (vreg (fA w)) (BitVec.ofNat 3 jd) (BitVec.ofNat 3 js)⟩

def judgeCvtSr (w : Nat) (dst : Ty) : Judged :=
  let b := v3Src (fB w) (fBs w)
  let jd := fSub w % 8
  ⟨b.1 && noC w && fRm w == 0 && decide (fSub w < 16), false, true,
    fI w == 0 && decide (fTy w < 2) && decide (jd < dst.perReg) && (fTy w == 1 || evenField (fA w)),
    .cvtSr (fK w) dst (fTy w == 0) (vreg (fD w)) (vreg (fA w)) b.2 (decide (8 ≤ fSub w)) (BitVec.ofNat 3 jd)⟩

/-- rnd takes b as a scalar alone: with bs = 0 the fault is cause 6, whatever b[7:6] holds (R89; DESIGN CHOICE, log 132). -/
def judgeRnd (w : Nat) : Judged :=
  ⟨noC w && v3Tail w false false false && (fBs w == 0 || decide (fB w < 64)), false, true, fI w == 0 && fBs w == 1,
    .rnd (fK w) (vreg (fD w)) (vreg (fA w)) (sreg (fB w))⟩

def judgeDot (w i : Nat) : Option Judged :=
  let b := v3Src (fB w) (fBs w)
  let c := v3Src (fC w) (fCs w)
  let f : Lane3 := ⟨fK w, 0, vreg (fD w), vreg (fA w), b.2, c.2, BitVec.ofNat 2 (fRm w)⟩
  let mk (flt : Bool) (x : Instr) : Option Judged := some ⟨b.1 && c.1 && v3Tail w flt false false, false, true, fI w == 0, x⟩
  match i with
  | 0 => mk true (.dot2H16 f) | 1 => mk true (.dot2B16 f) | 2 => mk false (.dot4S8 f) | 3 => mk false (.dot4N8 f)
  | 4 => mk true (.dot4F8E4 f) | 5 => mk true (.dot4F8E5 f) | 6 => mk false (.dot8S4 f) | 7 => mk false (.dot8N4 f)
  | 8 => mk true (.dot8F4E2M1 f)
  | _ => none

def judgeCross (w i : Nat) : Option Judged :=
  let k := fK w; let d := vreg (fD w); let a := vreg (fA w)
  let two := laneSrc2 w false
  let v3 := fI w == 0
  let none1 := noB w && noC w && v3Tail w false false false
  let sel : Bool × LaneSel :=
    if fBs w == 1 then (decide (fB w < 64) && fSub w == 0, .s (sreg (fB w)))
    else (fB w == 0, .lit (BitVec.ofNat 5 (fSub w)))
  let bc := sel.1 && noC w && fRm w == 0 && fTy w == 0
  match i with
  | 0 => some ⟨two.1, false, true, true, .shflIdx k d a two.2⟩
  | 1 => some ⟨two.1, false, true, true, .shflUp k d a two.2⟩
  | 2 => some ⟨two.1, false, true, true, .shflDown k d a two.2⟩
  | 3 => some ⟨two.1, false, true, true, .shflXor k d a two.2⟩
  | 4 => some ⟨none1, false, true, v3, .shflNx k d a⟩
  | 5 => some ⟨none1, false, true, v3, .shflPv k d a⟩
  | 6 => some ⟨bc, false, true, v3, .bcast k d a sel.2⟩
  | 7 => some ⟨bc && decide (fD w < 64), false, true, v3, .bcastScalar k (sreg (fD w)) a sel.2⟩
  | _ => none

def judgeRed (w : Nat) (op : RedOp) : Judged :=
  let sc := fSub w == 1
  let isAdd := op == .addF32
  ⟨noB w && noC w && fTy w == 0 && decide (fSub w < 2) && (isAdd || fRm w == 0) && (!sc || decide (fD w < 64)), false, true,
    fI w == 0, .red op (BitVec.ofNat 2 (fRm w)) (fK w) (if sc then .s (sreg (fD w)) else .v (vreg (fD w))) (vreg (fA w))⟩
def judgeRedx (w : Nat) (op : RedxOp) : Judged :=
  let sc := fSub w == 1
  ⟨noC w && fBs w == 0 && fTy w == 0 && fRm w == 0 && decide (fSub w < 2) && (!sc || (decide (fD w < 64) && decide (fB w < 64))),
    false, true, fI w == 0,
    .redx op (fK w) (if sc then .s (sreg (fD w)) (sreg (fB w)) else .v (vreg (fD w)) (vreg (fB w))) (vreg (fA w))⟩
def judgeScan (w : Nat) (op : RedOp) : Judged :=
  ⟨noB w && noC w && fTy w == 0 && decide (fSub w < 2) && (op == .addF32 || fRm w == 0), false, true, fI w == 0,
    .scan op (fSub w == 1) (BitVec.ofNat 2 (fRm w)) (fK w) (vreg (fD w)) (vreg (fA w))⟩

-- Sets (R99 to R104).
def judgeTest (w i : Nat) : Option Judged :=
  match Cmp.ofCode (i / 4) with
  | none => none
  | some c =>
    let ty := TestTy.ofCode (i % 4)
    let two := laneSrc2 w false
    let b := v3Src (fB w) (fBs w)
    let f64 := ty == .f64
    let clean := (if f64 then b.1 && noC w && v3Tail w false false false else two.1) && decide (fD w < 16)
    let ok := fD w != 0 && (!f64 || (fI w == 0 && evenField (fA w) && b.2.pairOk))
    some ⟨clean, false, true, ok, .test c ty (fK w) (kreg (fD w)) (vreg (fA w)) (if f64 then b.2.toLane else two.2)⟩

def judgeSet (w i : Nat) : Option Judged :=
  let d := kreg (fD w); let a := kreg (fA w); let b := kreg (fB w)
  let v3 := fI w == 0
  let tail := noC w && fBs w == 0 && fRm w == 0 && fTy w == 0
  let t0 := tail && fSub w == 0
  let d16 := decide (fD w < 16); let a16 := decide (fA w < 16); let b16 := decide (fB w < 16)
  let nz := fD w != 0
  match i with
  | 0 => some ⟨t0 && d16 && fA w == 0 && fB w == 0, true, true, v3 && nz, .kall d⟩
  | 1 => some ⟨t0 && d16 && a16 && b16, true, true, v3 && nz, .kunion d a b⟩
  | 2 => some ⟨t0 && d16 && a16 && b16, true, true, v3 && nz, .kinter d a b⟩
  | 3 => some ⟨t0 && d16 && a16 && b16, true, true, v3 && nz, .kdiff d a b⟩
  | 4 => some ⟨t0 && decide (fD w < 64) && a16 && fB w == 0, true, true, v3, .kcount (sreg (fD w)) a⟩
  | 5 => some ⟨t0 && d16 && a16 && fB w == 0, true, true, v3 && nz, .kfirst d a⟩
  | 6 => some ⟨tail && d16 && fB w == 0 && decide (fSub w < 2), false, true, v3 && nz && (fSub w == 0 || evenField (fA w)),
      .kmatch (fK w) d (vreg (fA w)) (fSub w == 1)⟩
  | 7 => some ⟨t0 && d16 && a16 && fB w == 0, true, true, v3 && nz, .kgatherT d a⟩
  | 8 => some ⟨t0 && d16 && a16 && fB w == 0, true, true, v3 && nz, .kmov d a⟩
  | _ => none

def judgeKMem (w : Nat) (load : Bool) : Judged :=
  let m := mArgsOf w
  let d := kreg (fCa w)
  if load then ⟨m.1 && decide (fCa w < 16), true, false, fCa w != 0 && osAcq m.2 && m.2.perAgent, .kld d m.2⟩
  else ⟨m.1 && decide (fCa w < 16), true, false, osRel m.2 && m.2.perAgent, .kst d m.2⟩

-- Memory (R158 to R166, R169).
def judgeLd (w i : Nat) : Option Judged :=
  match LdW.ofCode (i % 6) with
  | none => none
  | some x =>
    let m := mArgsOf w
    let d := vreg (fCa w)
    let ok := osAcq m.2 && (x != .w64 || evenField (fCa w))
    match i / 6 with
    | 0 => some ⟨m.1, false, false, ok, .ld x (fK w) d m.2⟩
    | 1 => some ⟨m.1, false, false, ok, .ldFe x (fK w) d m.2⟩
    | 2 => some ⟨m.1, false, false, ok, .ldTake x (fK w) d m.2⟩
    | _ => none

def judgeSt (w : Nat) (x : StW) : Judged :=
  let m := mArgsOf w
  ⟨m.1, false, false, osRel m.2 && (x != .w64 || evenField (fCa w)), .st x (fK w) (vreg (fCa w)) m.2⟩

def judgeAtom (w : Nat) (op : AtomOp) : Judged :=
  let l := layoutOf (fCb w)
  let c0 := mslotOf (fld w 18 9)
  let c1 := mslotOf (fld w 9 9)
  let wide := fld w 8 1 == 1
  let c := fld w 0 8
  let cas := op == .cas
  ⟨l.1 && c0.1 && c1.1 && (cas || c == 0), false, false,
    (!wide || (op != .addF32 && evenField (fCa w) && evenField c)),
    .atom op ⟨fK w, fLa w, vreg (fCa w), l.2, BitVec.ofNat 4 (fld w 27 4), c0.2, c1.2, wide, vreg c⟩⟩

-- Format X (R28): f, g, id, cls and n of the first word.
def xf (w : Nat) : Nat := fld w 24 7
def xg (w : Nat) : Nat := fld w 17 7
def xid (w : Nat) : Nat := fld w 11 6
def xcls (w : Nat) : Nat := fld w 9 2
def xn (w : Nat) : Nat := fld w 0 9
/-- The descriptors of the extension word. -/
def xD0 (e : Nat) : Nat := fld e 32 32
def xD1 (e : Nat) : Nat := fld e 0 32

def judgeTile (w e i : Nat) : Option Judged :=
  let n := xn w
  let nb := BitVec.ofNat 9 n
  let d0 := descOf (xD0 e)
  let d1 := descOf (xD1 e)
  let rest := xf w == 0 && xg w == 0 && xid w == 0 && xcls w == 0
  let noE := fCb w == 0
  let span (r : Nat) : Bool := n != 0 && decide (r + n ≤ 256)
  let la := fLa w; let k := fK w; let d := vreg (fCa w)
  match i with
  | 0 => some ⟨rest && noE && d0.1 && xD1 e == 0, true, false, span (fCa w), .lld ⟨la, d, nb, d0.2⟩⟩
  | 1 => some ⟨rest && noE && d0.1 && xD1 e == 0, true, false, span (fCa w), .lst ⟨la, d, nb, d0.2⟩⟩
  | 2 => some ⟨rest && d0.1 && xD1 e == 0, false, false, span (fCa w) && span (fCb w), .gather ⟨k, la, d, vreg (fCb w), d0.2, nb⟩⟩
  | 3 => some ⟨rest && d0.1 && xD1 e == 0, false, false, span (fCa w) && span (fCb w), .scatter ⟨k, la, d, vreg (fCb w), d0.2, nb⟩⟩
  | 4 => some ⟨rest && noE && d0.1 && xD1 e == 0, false, false, span (fCa w), .tld ⟨k, la, d, d0.2, nb⟩⟩
  | 5 => some ⟨rest && noE && fCa w == 0 && d0.1 && d1.1, false, false, n != 0, .ttr ⟨k, la, nb, d0.2, d1.2⟩⟩
  | 6 => some ⟨rest && noE && d0.1 && xD1 e == 0, false, false, n != 0, .tred ⟨k, la, d, d0.2, nb⟩⟩
  | _ => none

def judgeCpy (w e i : Nat) : Option Judged :=
  let bm := layoutOf (fCb w)
  let d0 := descOf (xD0 e)
  let d1 := descOf (xD1 e)
  let f : CpyArgs := ⟨fLa w, bm.2, dslotOf (xf w % 64), BitVec.ofNat 2 (xcls w), d0.2, d1.2⟩
  let base := fCa w == 0 && bm.1 && decide (xf w < 64) && xid w == 0 && xn w == 0 && d0.1 && d1.1
  match i with
  | 0 => some ⟨base && xg w == 0, true, false, true, .cpy f⟩
  | 1 => some ⟨base && decide (xg w < 64), true, false, true, .cpym f (sreg (xg w))⟩
  | 2 => some ⟨base && xg w == 0, true, false, true, .cpyx f⟩
  | _ => none

def judgeBmwait (w e : Nat) : Judged :=
  let bm := layoutOf (fCb w)
  ⟨decide (fCa w < 64) && bm.1 && decide (xf w < 64) && xg w == 0 && xid w == 0 && xcls w == 0 && xn w == 0 && xD1 e == 0, true, false,
    true, .bmwait (fLa w) (sreg (fCa w)) bm.2 (dslotOf (xf w % 64)) (BitVec.ofNat 32 (xD0 e))⟩

/-- A predecessor field of mma: f[6] valid, f[5:0] ID (R187). -/
def predOf (f : Nat) : Bool × Option (BitVec 6) :=
  if f < 64 then (f == 0, none) else (true, some (BitVec.ofNat 6 (f % 64)))
def predCode : Option (BitVec 6) → Nat
  | none => 0
  | some i => 64 + i.toNat

def judgeMma (w e : Nat) (fmt : MmaFmt) : Judged :=
  let p0 := predOf (xf w)
  let p1 := predOf (xg w)
  let d0 := descOf (xD0 e)
  let id := BitVec.ofNat 6 (xid w)
  ⟨p0.1 && p1.1 && xcls w == 0 && d0.1 && xD1 e == 0, true, false,
    xn w != 0 && p0.2 != some id && p1.2 != some id && decide (fCa w ≤ 224),
    .mma ⟨fLa w, fmt, vreg (fCa w), vreg (fCb w), p0.2, p1.2, id, BitVec.ofNat 9 (xn w), d0.2⟩⟩

-- Format B (R26).
def bHint (w : Nat) : BitVec 2 := BitVec.ofNat 2 (fld w 45 2)
def bS (w : Nat) : Nat := fld w 39 6
def bKa (w : Nat) : Nat := fld w 35 4
def bKb (w : Nat) : Nat := fld w 31 4
def bOff0 (w : Nat) : BitVec 16 := BitVec.ofNat 16 (fld w 15 16)
def bOff1 (w : Nat) : BitVec 15 := BitVec.ofNat 15 (fld w 0 15)

def judgeControl (w op : Nat) : Option Judged :=
  let bare := fCa w == 0 && fCb w == 0 && fCi w == 0
  let ka := kreg (bKa w)
  let tail := bKb w == 0 && fld w 0 15 == 0
  let noHint := fld w 45 2 == 0
  let code := BitVec.ofNat 16 (fCi w)
  let tr := fCa w == 0 && fCb w == 0 && decide (fCi w < 65536)
  match op with
  | 0x001 => some ⟨bare, true, true, true, .nop⟩
  | 0x002 => some ⟨bKa w == 0 && tail, true, true, true, .br (bHint w) (sreg (bS w)) (bOff0 w)⟩
  | 0x003 => some ⟨bS w == 0 && tail, true, true, true, .bnz (bHint w) ka (bOff0 w)⟩
  | 0x004 => some ⟨bS w == 0 && tail, true, true, true, .bz (bHint w) ka (bOff0 w)⟩
  | 0x005 => some ⟨noHint && bS w == 0 && bKa w == 0 && tail, true, true, true, .call (bOff0 w)⟩
  | 0x006 => some ⟨bare, true, true, true, .ret⟩
  | 0x007 => some ⟨noHint && bS w == 0 && tail, true, true, true, .apply ka (bOff0 w)⟩
  | 0x008 => some ⟨bS w == 0 && tail, true, true, fld w 45 2 != 3, .applyT (bHint w) ka (bOff0 w)⟩
  | 0x009 => some ⟨noHint && bS w == 0, true, true, true, .apply2 ka (kreg (bKb w)) (bOff0 w) (bOff1 w)⟩
  | 0x00A => some ⟨bare, true, true, true, .join⟩
  | 0x00B => some ⟨bare, false, true, true, .exit (fK w)⟩
  | 0x00C => some ⟨decide (fCa w < 64) && fCb w == 0, true, true, true, .await (sreg (fCa w)) (BitVec.ofNat 31 (fCi w))⟩
  | 0x00D => some ⟨bare, true, true, true, .yield⟩
  | 0x00E => some ⟨tr, false, true, true, .trap (fK w) code⟩
  | 0x00F => some ⟨fCa w == 0 && fCb w == 0 && decide (fCi w < 4), true, true, fCi w != 3,
      if fCi w == 0 then .tret else if fCi w == 1 then .tretSkip else .tretComplete⟩
  | 0x010 => some ⟨bare, true, true, true, .tkill⟩
  | 0x011 => some ⟨bare, true, true, true, .tpass⟩
  | 0x012 => some ⟨tr, false, true, true, .bkpt (fK w) code⟩
  | _ => none

-- Format C, the rest (R27 and the pages).
def judgePushPop (w : Nat) (isPush : Bool) : Judged :=
  let a := fCa w; let b := fCb w; let n := fCi w
  let kd := b % 4
  let lim := if kd == 0 then 256 else if kd == 1 then 64 else 16
  let kind := if kd == 0 then RegKind.vector else if kd == 1 then .scalar else .set
  let ok := kd != 3 && decide (1 ≤ n ∧ n ≤ 16) && decide (a + n ≤ lim) && (isPush || kd != 2 || a != 0)
  let nb := BitVec.ofNat 5 n
  ⟨decide (b < 4) && (kd == 3 || decide (a < lim)), true, true, ok,
    if isPush then .push kind (vreg a) nb else .pop kind (vreg a) nb⟩

def judgeGang (w : Nat) : Judged :=
  let a := fCa w; let im := fCi w
  let s0 := fld im 0 5; let s1 := fld im 5 5; let s2 := fld im 10 5; let s3 := fld im 15 5
  let sh := fld im 20 2
  let bind := decide (8 ≤ a)
  let lo := sh == 1 || sh == 2
  let hi := sh == 1 || sh == 3
  let clean := decide (a < 16) && (bind || a == 0) && fCb w == 0 && (lo || (s0 == 0 && s1 == 0)) && (hi || (s2 == 0 && s3 == 0))
  let ok := decide (im < 2 ^ 22) && (!lo || (s0 % 4 == 0 && s1 % 4 == 1)) && (!hi || (s2 % 4 == 2 && s3 % 4 == 3)) && (sh != 0 || !bind)
  ⟨clean, true, true, ok, .gang ⟨if bind then some (BitVec.ofNat 3 (a % 8)) else none, BitVec.ofNat 2 sh, BitVec.ofNat 5 s0,
    BitVec.ofNat 5 s1, BitVec.ofNat 5 s2, BitVec.ofNat 5 s3⟩⟩

def judgeMwait (w : Nat) : Judged :=
  let a := fCa w; let b := fCb w; let im := fCi w
  let form := fld im 6 2
  let id := im % 64
  let clean := if form == 0 then a == 0 && b == 0
    else if form == 1 then decide (a < 64) && decide (b < 8) && id == 0
    else if form == 2 then a == 0 && b == 0 && id == 0 else true
  ⟨clean, true, true, form != 3 && decide (im < 256),
    if form == 0 then .mwait (BitVec.ofNat 6 id) else if form == 1 then .mwaitPop (sreg a) (BitVec.ofNat 3 b) else .mwaitAll⟩

def judgeEmit (w : Nat) : Judged :=
  let a := fCa w; let b := fCb w
  let sc := fld b 3 1 == 1
  let q := BitVec.ofNat 3 (b % 8)
  ⟨decide (b < 16) && fCi w == 0 && (!sc || decide (a < 64)), sc, true, if sc then decide (a ≤ 56) else decide (a ≤ 240),
    if sc then .emit (.scalar (sreg a) q) else .emit (.lane (fK w) (vreg a) q)⟩

def judgeRsr (w : Nat) : Judged :=
  let a := fCa w; let b := fCb w; let n := fCi w
  let sc := b % 2 == 1
  ⟨decide (b < 4) && (!sc || (decide (b < 2) && decide (a < 64))), sc, true, decide (n ≤ 13) && (!sc || n != 0),
    if sc then .rsr (.scalar (sreg a) (BitVec.ofNat 4 n)) else .rsr (.lane (fK w) (vreg a) (decide (2 ≤ b)) (BitVec.ofNat 4 n))⟩

def judgeC (w op : Nat) : Option Judged :=
  let a := fCa w; let b := fCb w; let im := fCi w
  let bare := a == 0 && b == 0 && im == 0
  match op with
  | 0x148 => some (judgePushPop w true)
  | 0x149 => some (judgePushPop w false)
  | 0x150 => some ⟨decide (a < 64) && b == 0, true, true, decide (a ≤ 60) && decide (im ≤ 127), .lrec (sreg a) (BitVec.ofNat 7 im)⟩
  | 0x151 => some ⟨bare, true, true, true, .lfence⟩
  | 0x152 => some ⟨bare, true, true, true, .fence .team⟩
  | 0x153 => some ⟨bare, true, true, true, .fence .cluster⟩
  | 0x154 => some ⟨bare, true, true, true, .fence .tower⟩
  | 0x155 => some ⟨bare, true, true, true, .fence .module⟩
  | 0x156 => some ⟨bare, true, true, true, .fence .domain⟩
  | 0x157 => some ⟨bare, true, true, true, .bar⟩
  | 0x158 => some ⟨bare, true, true, true, .cbar⟩
  | 0x159 => let m := mArgsOf w
    some ⟨m.1 && decide (a < 64), true, false, osRel m.2 && m.2.perAgent, .pbarArrive (sreg a) m.2⟩
  | 0x15A => let m := mArgsOf w
    some ⟨m.1 && decide (a < 64), true, false, osAcq m.2 && m.2.perAgent, .pbarWait (sreg a) m.2⟩
  | 0x170 => some (judgeGang w)
  | 0x17D => some ⟨bare, true, true, true, .mfenceOpr⟩
  | 0x17E => some (judgeMwait w)
  | 0x180 => some (judgeEmit w)
  | 0x181 => some ⟨a == 0 && b == 0 && decide (im < 8), true, true, true, .rolesw (BitVec.ofNat 3 im)⟩
  | 0x182 => some (judgeRsr w)
  | 0x183 => some ⟨decide (a < 64) && b == 0, true, true, im == 8 || im == 12, .wsr (sreg a) (BitVec.ofNat 4 im)⟩
  | 0x184 => some ⟨true, true, true, a == 0 && b == 0 && decide (im < 4), .rmode (BitVec.ofNat 2 im)⟩
  | 0x185 => some ⟨true, true, true, decide (a < 64) && b == 0 && decide (im < 65536), .trec (sreg a) (BitVec.ofNat 16 im)⟩
  | _ => none

/-- The opcodes of format X: two words (R33). -/
def isX (op : Nat) : Bool :=
  decide (0x141 ≤ op ∧ op ≤ 0x147) || op == 0x15B || decide (0x160 ≤ op ∧ op ≤ 0x162) || decide (0x171 ≤ op ∧ op ≤ 0x17C)

/-- The opcode map (R33): the word judged, or none for an unassigned opcode (R35). -/
def judge (w e : Nat) : Option Judged :=
  let op := fOp w
  if op < 0x20 then judgeControl w op
  else if op < 0x38 then judgeTest w (op - 0x20)
  else if op < 0x41 then judgeSet w (op - 0x38)
  else if op == 0x41 then some (judgeKMem w true)
  else if op == 0x42 then some (judgeKMem w false)
  else if op < 0x50 then none
  else if op < 0x6C then judgeIntLane w (op - 0x50)
  else if op < 0x70 then none
  else if op < 0x8C then judgeIntScalar w (op - 0x70)
  else if op < 0x90 then none
  else if op < 0xA0 then judgeFloatLane w (op - 0x90)
  else if op < 0xB0 then judgeFloatScalar w (op - 0xA0)
  else if op < 0xC0 then judgeWide w (op - 0xB0)
  else if op < 0xD1 then (Ty.ofCode (op - 0xC0)).map (judgeCvt w)
  else if op < 0xD8 then (srDst (op - 0xD1)).map (judgeCvtSr w)
  else if op == 0xD8 then some (judgeRnd w)
  else if op < 0xE0 then none
  else if op < 0xF0 then judgeDot w (op - 0xE0)
  else if op < 0xF8 then judgeCross w (op - 0xF0)
  else if op < 0x103 then (RedOp.ofCode (op - 0xF8)).map (judgeRed w)
  else if op < 0x110 then (RedxOp.ofCode (op - 0x103)).map (judgeRedx w)
  else if op < 0x120 then (RedOp.ofCode (op - 0x110)).map (judgeScan w)
  else if op < 0x132 then judgeLd w (op - 0x120)
  else if op < 0x136 then (StW.ofCode (op - 0x132)).map (judgeSt w)
  else if op < 0x141 then (AtomOp.ofCode (op - 0x136)).map (judgeAtom w)
  else if op < 0x148 then judgeTile w e (op - 0x141)
  else if op == 0x15B then some (judgeBmwait w e)
  else if op < 0x160 then judgeC w op
  else if op < 0x170 then judgeCpy w e (op - 0x160)
  else if 0x171 ≤ op ∧ op ≤ 0x17C then (MmaFmt.ofCode (op - 0x171)).map (judgeMma w e)
  else judgeC w op

/-- Decoding of one instruction word with the word that follows it within the block's counted length,
if there is one (R31, R36). -/
def decode (w : DWord) (ext : Option DWord) : Except Reject Instr :=
  let op := fOp w.toNat
  if op == 0x1FF then .error .blockStructure
  else match judge w.toNat ((ext.getD 0).toNat) with
    | none => .error .unassigned
    | some j => if isX op && ext.isNone then .error .blockStructure else j.verdict w.toNat

/-- The words of a decodable instruction (R20): 2 in format X, else 1. -/
def Instr.words : Instr → Nat
  | .lld _ | .lst _ | .gather _ | .scatter _ | .tld _ | .ttr _ | .tred _ | .bmwait .. | .cpy _ | .cpyx _ | .cpym .. | .mma _ => 2
  | _ => 1

/-- Little-endian bytes of a 64-bit word, lowest address first (R19). -/
def wordBytes (w : Nat) (n : Nat) : List Byte := (List.range n).map fun i => BitVec.ofNat 8 (w / 2 ^ (8 * i))

/-- A word read from little-endian bytes. -/
def bytesWord : List Byte → Nat
  | [] => 0
  | b :: bs => b.toNat + 256 * bytesWord bs

/-- Decoding of the bytes of an instruction, first word first. -/
def decodeBytes (bs : List Byte) : Except Reject Instr :=
  decode (BitVec.ofNat 64 (bytesWord (bs.take 8)))
    (if 16 ≤ bs.length then some (BitVec.ofNat 64 (bytesWord ((bs.drop 8).take 8))) else none)

/-- The instruction read from bits numbered as the opcode table numbers them. -/
def decodeTableWord (_nbits w : Nat) : Option Instr :=
  match decodeBytes (wordBytes w 16) with
  | .ok i => some i
  | .error _ => none

-- The encoder.
def wHead (op k la : Nat) : Nat := op * 2 ^ 55 + k * 2 ^ 51 + la * 2 ^ 47
def wV3 (op k la d a b c rm ty bs cs sub : Nat) : Nat :=
  wHead op k la + d * 2 ^ 38 + a * 2 ^ 30 + b * 2 ^ 22 + c * 2 ^ 14 + rm * 2 ^ 12 + ty * 2 ^ 7 + bs * 2 ^ 6 + cs * 2 ^ 5 + sub
def wVI (op k la d a rm imm : Nat) : Nat :=
  wHead op k la + 2 ^ 46 + d * 2 ^ 38 + a * 2 ^ 30 + rm * 2 ^ 28 + imm
def wC (op k a b imm : Nat) : Nat := wHead op k 0 + a * 2 ^ 39 + b * 2 ^ 31 + imm
def wB (op hint s ka kb off0 off1 : Nat) : Nat :=
  wHead op 0 0 + hint * 2 ^ 45 + s * 2 ^ 39 + ka * 2 ^ 35 + kb * 2 ^ 31 + off0 * 2 ^ 15 + off1
def wM (op k la d l os c0 c1 c2 : Nat) : Nat :=
  wHead op k la + d * 2 ^ 39 + l * 2 ^ 31 + os * 2 ^ 27 + c0 * 2 ^ 18 + c1 * 2 ^ 9 + c2
def wX (op k la d e f g id cls n : Nat) : Nat :=
  wHead op k la + d * 2 ^ 39 + e * 2 ^ 31 + f * 2 ^ 24 + g * 2 ^ 17 + id * 2 ^ 11 + cls * 2 ^ 9 + n

def RegSrc.num : RegSrc → Nat
  | .v r => r.toNat
  | .s r => r.toNat
def RegSrc.bit : RegSrc → Nat
  | .v _ => 0
  | .s _ => 1

def encLane2 (op : Nat) (k : KReg) (d : Nat) (a : VReg) (b : LaneSrc) (rm : Nat) : Nat :=
  match b with
  | .v r => wV3 op k.toNat 0 d a.toNat r.toNat 0 rm 0 0 0 0
  | .s r => wV3 op k.toNat 0 d a.toNat r.toNat 0 rm 0 1 0 0
  | .imm x => wVI op k.toNat 0 d a.toNat rm x.toNat
def encUn (op : Nat) (k : KReg) (la : Nat) (d : VReg) (a : UnSrc) (rm : Nat) : Nat :=
  match a with
  | .v r => wV3 op k.toNat la d.toNat r.toNat 0 0 rm 0 0 0 0
  | .imm x => wVI op k.toNat la d.toNat 0 rm x.toNat
def encScal2 (op : Nat) (d a : SReg) (b : ScalSrc) (rm : Nat) : Nat :=
  match b with
  | .s r => wV3 op 0 0 d.toNat a.toNat r.toNat 0 rm 0 0 0 0
  | .imm x => wVI op 0 0 d.toNat a.toNat rm x.toNat
def encInt2 (i : Nat) : Int2 → Nat
  | .lane k d a b => encLane2 (0x50 + i) k d.toNat a b 0
  | .scalar d a b => encScal2 (0x70 + i) d a b 0
def encInt1 (i : Nat) : Int1 → Nat
  | .lane k d a => encUn (0x50 + i) k 0 d a 0
  | .scalar d (.s r) => wV3 (0x70 + i) 0 0 d.toNat r.toNat 0 0 0 0 0 0 0
  | .scalar d (.imm x) => wVI (0x70 + i) 0 0 d.toNat 0 0 x.toNat
def encV3 (op : Nat) (k : KReg) (la : Nat) (d a : VReg) (b c : RegSrc) (rm : Nat) : Nat :=
  wV3 op k.toNat la d.toNat a.toNat b.num c.num rm 0 b.bit c.bit 0
def encInt3 (i : Nat) : Int3 → Nat
  | .lane k d a b c => encV3 (0x50 + i) k 0 d a b c 0
  | .scalar d a b c => wV3 (0x70 + i) 0 0 d.toNat a.toNat b.toNat c.toNat 0 0 0 0 0
def encPrm : PrmForm → Nat
  | .lane k d a b c => encV3 0x6A k 0 d a b c 0
  | .laneImm k d a x => wVI 0x6A k.toNat 0 d.toNat a.toNat 0 x.toNat
  | .scalar d a b c => wV3 0x8A 0 0 d.toNat a.toNat b.toNat c.toNat 0 0 0 0 0
  | .scalarImm d a x => wVI 0x8A 0 0 d.toNat a.toNat 0 x.toNat
def encFlt2 (i : Nat) : Flt2 → Nat
  | .lane k d a b rm => encLane2 (0x90 + i) k d.toNat a b rm.toNat
  | .scalar d a b rm => encScal2 (0xA0 + i) d a b rm.toNat
def encFltMM (i : Nat) : FltMM → Nat
  | .lane k d a b => encLane2 (0x90 + i) k d.toNat a b 0
  | .scalar d a b => encScal2 (0xA0 + i) d a b 0
def encFlt3 : Flt3 → Nat
  | .lane k d a b c rm => encV3 0x93 k 0 d a b c rm.toNat
  | .scalar d a b c rm => wV3 0xA3 0 0 d.toNat a.toNat b.toNat c.toNat rm.toNat 0 0 0 0
def encFltUn (i : Nat) (f : FltUn) : Nat := encUn (0x90 + i) f.k f.la.toNat f.d f.a f.rm.toNat
def encW2 (i : Nat) (f : Lane2) : Nat :=
  wV3 (0xB0 + i) f.k.toNat f.la.toNat f.d.toNat f.a.toNat f.b.num 0 f.rm.toNat 0 f.b.bit 0 0
def encW3 (op : Nat) (f : Lane3) : Nat := encV3 op f.k f.la.toNat f.d f.a f.b f.c f.rm.toNat
def encM (op : Nat) (k : Nat) (d : Nat) (m : MArgs) : Nat :=
  wM op k m.la.toNat d m.l.code m.os.toNat m.c0.code m.c1.code m.c2.code
def encTile (op : Nat) (f : TileArgs) : List Nat :=
  [wX op f.k.toNat f.la.toNat f.d.toNat 0 0 0 0 0 f.n.toNat, f.desc.code * 2 ^ 32]
def encGather (op : Nat) (f : GatherArgs) : List Nat :=
  [wX op f.k.toNat f.la.toNat f.d.toNat f.e.toNat 0 0 0 0 f.n.toNat, f.desc.code * 2 ^ 32]
def encLayer (op : Nat) (f : LayerArgs) : List Nat :=
  [wX op 0 f.la.toNat f.d.toNat 0 0 0 0 0 f.n.toNat, f.desc.code * 2 ^ 32]
def encCpy (op g : Nat) (f : CpyArgs) : List Nat :=
  [wX op 0 f.la.toNat 0 f.bm.code f.slot.code g 0 f.cls.toNat 0, f.dst.code * 2 ^ 32 + f.src.code]

/-- The code words of an instruction; an event has none. -/
def encodeNat : Instr → List Nat
  | .nop => [wC 0x001 0 0 0 0]
  | .br h s o => [wB 0x002 h.toNat s.toNat 0 0 o.toNat 0]
  | .bnz h k o => [wB 0x003 h.toNat 0 k.toNat 0 o.toNat 0]
  | .bz h k o => [wB 0x004 h.toNat 0 k.toNat 0 o.toNat 0]
  | .call o => [wB 0x005 0 0 0 0 o.toNat 0]
  | .ret => [wC 0x006 0 0 0 0]
  | .apply k o => [wB 0x007 0 0 k.toNat 0 o.toNat 0]
  | .applyT p k o => [wB 0x008 p.toNat 0 k.toNat 0 o.toNat 0]
  | .apply2 a b o p => [wB 0x009 0 0 a.toNat b.toNat o.toNat p.toNat]
  | .join => [wC 0x00A 0 0 0 0]
  | .exit k => [wC 0x00B k.toNat 0 0 0]
  | .await d t => [wC 0x00C 0 d.toNat 0 t.toNat]
  | .yield => [wC 0x00D 0 0 0 0]
  | .trap k c => [wC 0x00E k.toNat 0 0 c.toNat]
  | .tret => [wC 0x00F 0 0 0 0]
  | .tretSkip => [wC 0x00F 0 0 0 1]
  | .tretComplete => [wC 0x00F 0 0 0 2]
  | .tkill => [wC 0x010 0 0 0 0]
  | .tpass => [wC 0x011 0 0 0 0]
  | .bkpt k c => [wC 0x012 k.toNat 0 0 c.toNat]
  | .test c t k d a b => [encLane2 (0x20 + 4 * c.code + t.code) k d.toNat a b 0]
  | .kall d => [wV3 0x38 0 0 d.toNat 0 0 0 0 0 0 0 0]
  | .kunion d a b => [wV3 0x39 0 0 d.toNat a.toNat b.toNat 0 0 0 0 0 0]
  | .kinter d a b => [wV3 0x3A 0 0 d.toNat a.toNat b.toNat 0 0 0 0 0 0]
  | .kdiff d a b => [wV3 0x3B 0 0 d.toNat a.toNat b.toNat 0 0 0 0 0 0]
  | .kcount d a => [wV3 0x3C 0 0 d.toNat a.toNat 0 0 0 0 0 0 0]
  | .kfirst d a => [wV3 0x3D 0 0 d.toNat a.toNat 0 0 0 0 0 0 0]
  | .kmatch k d a w => [wV3 0x3E k.toNat 0 d.toNat a.toNat 0 0 0 0 0 0 (if w then 1 else 0)]
  | .kgatherT d a => [wV3 0x3F 0 0 d.toNat a.toNat 0 0 0 0 0 0 0]
  | .kmov d a => [wV3 0x40 0 0 d.toNat a.toNat 0 0 0 0 0 0 0]
  | .kld d m => [encM 0x41 0 d.toNat m]
  | .kst d m => [encM 0x42 0 d.toNat m]
  | .iadd f => [encInt2 0 f] | .isub f => [encInt2 1 f] | .imul f => [encInt2 2 f] | .imulhiS f => [encInt2 3 f]
  | .imulhiN f => [encInt2 4 f] | .imad f => [encInt3 5 f] | .iminS f => [encInt2 6 f] | .iminN f => [encInt2 7 f]
  | .imaxS f => [encInt2 8 f] | .imaxN f => [encInt2 9 f] | .iabs f => [encInt1 10 f] | .ineg f => [encInt1 11 f]
  | .and f => [encInt2 12 f] | .or f => [encInt2 13 f] | .xor f => [encInt2 14 f] | .not f => [encInt1 15 f]
  | .shl f => [encInt2 16 f] | .shr f => [encInt2 17 f] | .sar f => [encInt2 18 f] | .rotl f => [encInt2 19 f]
  | .popc f => [encInt1 20 f] | .clz f => [encInt1 21 f] | .brev f => [encInt1 22 f] | .bfxS f => [encInt2 23 f]
  | .bfxN f => [encInt2 24 f] | .bfi f => [encInt3 25 f] | .prm f => [encPrm f] | .sel f => [encInt3 27 f]
  | .fadd f => [encFlt2 0 f] | .fsub f => [encFlt2 1 f] | .fmul f => [encFlt2 2 f] | .ffma f => [encFlt3 f]
  | .fmin f => [encFltMM 4 f] | .fmax f => [encFltMM 5 f] | .frcp f => [encFltUn 6 f] | .frsq f => [encFltUn 7 f]
  | .fsqrt f => [encFltUn 8 f] | .fexp2 f => [encFltUn 9 f] | .flog2 f => [encFltUn 10 f] | .fsin f => [encFltUn 11 f]
  | .fcos f => [encFltUn 12 f]
  | .fscale k d a b rm => [encLane2 0x9D k d.toNat a b rm.toNat]
  | .fclass k d a => [encUn 0x9E k 0 d a 0]
  | .dadd f => [encW2 0 f] | .dmul f => [encW2 1 f] | .dfma f => [encW3 0xB2 f] | .dmin f => [encW2 3 f] | .dmax f => [encW2 4 f]
  | .hadd2 f => [encW2 5 f] | .hmul2 f => [encW2 6 f] | .hfma2 f => [encW3 0xB7 f] | .badd2 f => [encW2 8 f] | .bfma2 f => [encW3 0xB9 f]
  | .cvt k dst src rm d a jd js =>
    [wV3 (0xC0 + dst.code) k.toNat 0 d.toNat a.toNat js.toNat 0 rm.toNat src.code 0 0 jd.toNat]
  | .cvtSr k dst wide d a b hi jd =>
    [wV3 (0xD1 + dst.srIndex) k.toNat 0 d.toNat a.toNat b.num 0 0 (if wide then 0 else 1) b.bit 0 (jd.toNat + if hi then 8 else 0)]
  | .rnd k d a b => [wV3 0xD8 k.toNat 0 d.toNat a.toNat b.toNat 0 0 0 1 0 0]
  | .dot2H16 f => [encW3 0xE0 f] | .dot2B16 f => [encW3 0xE1 f] | .dot4S8 f => [encW3 0xE2 f] | .dot4N8 f => [encW3 0xE3 f]
  | .dot4F8E4 f => [encW3 0xE4 f] | .dot4F8E5 f => [encW3 0xE5 f] | .dot8S4 f => [encW3 0xE6 f] | .dot8N4 f => [encW3 0xE7 f]
  | .dot8F4E2M1 f => [encW3 0xE8 f]
  | .shflIdx k d a b => [encLane2 0xF0 k d.toNat a b 0]
  | .shflUp k d a b => [encLane2 0xF1 k d.toNat a b 0]
  | .shflDown k d a b => [encLane2 0xF2 k d.toNat a b 0]
  | .shflXor k d a b => [encLane2 0xF3 k d.toNat a b 0]
  | .shflNx k d a => [wV3 0xF4 k.toNat 0 d.toNat a.toNat 0 0 0 0 0 0 0]
  | .shflPv k d a => [wV3 0xF5 k.toNat 0 d.toNat a.toNat 0 0 0 0 0 0 0]
  | .bcast k d a (.lit l) => [wV3 0xF6 k.toNat 0 d.toNat a.toNat 0 0 0 0 0 0 l.toNat]
  | .bcast k d a (.s r) => [wV3 0xF6 k.toNat 0 d.toNat a.toNat r.toNat 0 0 0 1 0 0]
  | .bcastScalar k d a (.lit l) => [wV3 0xF7 k.toNat 0 d.toNat a.toNat 0 0 0 0 0 0 l.toNat]
  | .bcastScalar k d a (.s r) => [wV3 0xF7 k.toNat 0 d.toNat a.toNat r.toNat 0 0 0 1 0 0]
  | .red op rm k (.v r) a => [wV3 (0xF8 + op.code) k.toNat 0 r.toNat a.toNat 0 0 rm.toNat 0 0 0 0]
  | .red op rm k (.s r) a => [wV3 (0xF8 + op.code) k.toNat 0 r.toNat a.toNat 0 0 rm.toNat 0 0 0 1]
  | .redx op k (.v r x) a => [wV3 (0x103 + op.code) k.toNat 0 r.toNat a.toNat x.toNat 0 0 0 0 0 0]
  | .redx op k (.s r x) a => [wV3 (0x103 + op.code) k.toNat 0 r.toNat a.toNat x.toNat 0 0 0 0 0 1]
  | .scan op ex rm k d a => [wV3 (0x110 + op.code) k.toNat 0 d.toNat a.toNat 0 0 rm.toNat 0 0 0 (if ex then 1 else 0)]
  | .ld w k d m => [encM (0x120 + w.code) k.toNat d.toNat m]
  | .ldFe w k d m => [encM (0x126 + w.code) k.toNat d.toNat m]
  | .ldTake w k d m => [encM (0x12C + w.code) k.toNat d.toNat m]
  | .st w k d m => [encM (0x132 + w.code) k.toNat d.toNat m]
  | .atom op f => [wM (0x136 + op.code) f.k.toNat f.la.toNat f.d.toNat f.l.code f.os.toNat f.c0.code f.c1.code
      (f.c.toNat + if f.wide then 256 else 0)]
  | .lld f => encLayer 0x141 f
  | .lst f => encLayer 0x142 f
  | .gather f => encGather 0x143 f
  | .scatter f => encGather 0x144 f
  | .tld f => encTile 0x145 f
  | .ttr f => [wX 0x146 f.k.toNat f.la.toNat 0 0 0 0 0 0 f.n.toNat, f.dst.code * 2 ^ 32 + f.src.code]
  | .tred f => encTile 0x147 f
  | .push kd a n => [wC 0x148 0 a.toNat kd.code n.toNat]
  | .pop kd a n => [wC 0x149 0 a.toNat kd.code n.toNat]
  | .lrec a h => [wC 0x150 0 a.toNat 0 h.toNat]
  | .lfence => [wC 0x151 0 0 0 0]
  | .fence sc => [wC (0x152 + sc.code) 0 0 0 0]
  | .bar => [wC 0x157 0 0 0 0]
  | .cbar => [wC 0x158 0 0 0 0]
  | .pbarArrive d m => [encM 0x159 0 d.toNat m]
  | .pbarWait d m => [encM 0x15A 0 d.toNat m]
  | .bmwait la d bm sl mask => [wX 0x15B 0 la.toNat d.toNat bm.code sl.code 0 0 0 0, mask.toNat * 2 ^ 32]
  | .cpy f => encCpy 0x160 0 f
  | .cpym f m => encCpy 0x161 m.toNat f
  | .cpyx f => encCpy 0x162 0 f
  | .gang g => [wC 0x170 0 (match g.q with | some q => 8 + q.toNat | none => 0) 0
      (g.s0.toNat + g.s1.toNat * 2 ^ 5 + g.s2.toNat * 2 ^ 10 + g.s3.toNat * 2 ^ 15 + g.shape.toNat * 2 ^ 20)]
  | .mma f => [wX (0x171 + f.fmt.code) 0 f.la.toNat f.c.toNat f.b.toNat (predCode f.p0) (predCode f.p1) f.id.toNat 0 f.n.toNat,
      f.a.code * 2 ^ 32]
  | .mfenceOpr => [wC 0x17D 0 0 0 0]
  | .mwait id => [wC 0x17E 0 0 0 id.toNat]
  | .mwaitPop d q => [wC 0x17E 0 d.toNat q.toNat 64]
  | .mwaitAll => [wC 0x17E 0 0 0 128]
  | .emit (.lane k a q) => [wC 0x180 k.toNat a.toNat q.toNat 0]
  | .emit (.scalar a q) => [wC 0x180 0 a.toNat (8 + q.toNat) 0]
  | .rolesw r => [wC 0x181 0 0 0 r.toNat]
  | .rsr (.lane k d hi n) => [wC 0x182 k.toNat d.toNat (if hi then 2 else 0) n.toNat]
  | .rsr (.scalar d n) => [wC 0x182 0 d.toNat 1 n.toNat]
  | .wsr a n => [wC 0x183 0 a.toNat 0 n.toNat]
  | .rmode m => [wC 0x184 0 0 0 m.toNat]
  | .trec a c => [wC 0x185 0 a.toNat 0 c.toNat]
  | _ => []

/-- The code words of a well-formed instruction (R19 to R33). -/
def encode (i : Instr) : List DWord := (encodeNat i).map (BitVec.ofNat 64)

/-- A header word: marker 0x1FF (R30). -/
def isHeader (w : DWord) : Bool := fOp w.toNat == 0x1FF
def hdrLength (w : DWord) : Nat := fld w.toNat 45 10
def hdrLive (w : DWord) : BitVec 16 := BitVec.ofNat 16 (fld w.toNat 29 16)
def hdrCont (w : DWord) : Nat := fld w.toNat 13 16
def hdrCen (w : DWord) : Bool := fld w.toNat 10 1 == 1
def hdrCidx (w : DWord) : Nat := fld w.toNat 0 10

end Sys2Proof
end

