-- ==== Sys2Proof/Machine/Formats.lean ====
section
/-! DEFINITION. Number formats, exact values and rounding (04 R54 to R72), and the exact-value forms of
the F32 instructions (05 R82, R83). -/

namespace Sys2Proof.Machine

/-- The value of a floating-point encoding, exact: (−1)^neg · m · 2^e, an infinity or NaN (R55). -/
inductive Num where
  | nan
  | inf (neg : Bool)
  | fin (neg : Bool) (m : Nat) (e : Int)
deriving DecidableEq, Repr

/-- A positive magnitude m · 2^e, plus something strictly between 0 and 2^e when sticky. -/
structure Mag where
  m : Nat
  e : Int
  sticky : Bool
deriving DecidableEq, Repr

-- The parameters of R54.
def expBits : Ty → Nat
  | .f64 => 11 | .f32 => 8 | .h16 => 5 | .b16 => 8 | .f8e4 => 4 | .f8e5 => 5 | .f6e3m2 => 3 | _ => 2
def fracBits : Ty → Nat
  | .f64 => 52 | .f32 => 23 | .h16 => 10 | .b16 => 7 | .f8e4 => 3 | .f8e5 => 2 | .f6e3m2 => 2 | .f6e2m3 => 3 | _ => 1
def fmtBias : Ty → Int
  | .f64 => 1023 | .f32 => 127 | .h16 => 15 | .b16 => 127 | .f8e4 => 7 | .f8e5 => 15 | .f6e3m2 => 3 | _ => 1
def hasInf : Ty → Bool
  | .f64 | .f32 | .h16 | .b16 | .f8e5 => true
  | _ => false
def isFloat : Ty → Bool
  | .f64 | .f32 | .h16 | .b16 | .f8e4 | .f8e5 | .f6e3m2 | .f6e2m3 | .f4e2m1 => true
  | _ => false
def hasNan (t : Ty) : Bool := hasInf t || t == .f8e4
def intSigned : Ty → Bool
  | .s32 | .s16 | .s8 | .s4 => true
  | _ => false
/-- Exponent of the least subnormal, 2^(1−b−m). -/
def qMin (t : Ty) : Int := 1 - fmtBias t - fracBits t
/-- The exponent field of the largest finite value. -/
def topExp (t : Ty) : Nat := if hasInf t then 2 ^ expBits t - 2 else 2 ^ expBits t - 1
/-- Bits of the largest finite magnitude (R54). -/
def maxFinite (t : Ty) : Nat :=
  if t == .f8e4 then 0x7E else topExp t * 2 ^ fracBits t + (2 ^ fracBits t - 1)
/-- Bits of +∞. -/
def infBits (t : Ty) : Nat := (2 ^ expBits t - 1) * 2 ^ fracBits t
/-- The sign bit's weight. -/
def signBit (t : Ty) : Nat := 2 ^ (expBits t + fracBits t)
/-- The canonical NaN (R54). -/
def canonNan (t : Ty) : Nat :=
  if t == .f8e4 then 0x7F else infBits t + 2 ^ (fracBits t - 1)
def withSign (t : Ty) (neg : Bool) (x : Nat) : Nat := if neg then signBit t + x else x

/-- The value of an encoding (R55). -/
def decodeFloat (t : Ty) (x : Nat) : Num :=
  let neg := x / signBit t % 2 == 1
  let e := x / 2 ^ fracBits t % 2 ^ expBits t
  let f := x % 2 ^ fracBits t
  if hasInf t && e == 2 ^ expBits t - 1 then (if f == 0 then .inf neg else .nan)
  else if t == .f8e4 && e == 15 && f == 7 then .nan
  else if e == 0 then .fin neg f (qMin t)
  else .fin neg (2 ^ fracBits t + f) (qMin t + (e - 1 : Nat))

/-- The integer read from an element in two's complement or unsigned (R56). -/
def decodeInt (t : Ty) (x : Nat) : Int :=
  if intSigned t && decide (2 ^ (t.bits - 1) ≤ x) then (x : Int) - 2 ^ t.bits else x

/-- The value of an element of any type (R62: integers take part by value). -/
def decodeNum (t : Ty) (x : Nat) : Num :=
  if isFloat t then decodeFloat t x
  else let i := decodeInt t x
    .fin (decide (i < 0)) i.natAbs 0

def Num.neg : Num → Num
  | .nan => .nan
  | .inf s => .inf (!s)
  | .fin s m e => .fin (!s) m e

/-- Exact product; 0 × ∞ is invalid (R57, R60). -/
def Num.mul : Num → Num → Num
  | .nan, _ => .nan
  | _, .nan => .nan
  | .inf s, .inf t => .inf (s != t)
  | .inf s, .fin t m _ => if m == 0 then .nan else .inf (s != t)
  | .fin t m _, .inf s => if m == 0 then .nan else .inf (s != t)
  | .fin s m e, .fin t n f => .fin (s != t) (m * n) (e + f)

/-- floor(m · 2^e / 2^q), and how the rest compares with half of 2^q: 0 none, 1 below, 2 equal, 3 above. -/
def cutAt (x : Mag) (q : Int) : Nat × Nat :=
  if x.e ≥ q then (x.m * 2 ^ (x.e - q).toNat, if x.sticky then 1 else 0)
  else
    let sh := (q - x.e).toNat
    let n := x.m / 2 ^ sh
    let rest := x.m % 2 ^ sh
    let half := 2 ^ (sh - 1)
    (n, if rest == 0 then (if x.sticky then 1 else 0)
      else if rest < half then 1
      else if rest == half && !x.sticky then 2 else 3)

/-- The rounding decision of R60 on a magnitude: whether to step away from zero. -/
def roundsUp (rm : Rm) (neg : Bool) (n rest : Nat) : Bool :=
  if rest == 0 then false
  else if rm == 0 then rest == 3 || (rest == 2 && n % 2 == 1)
  else if rm == 1 then false
  else if rm == 2 then !neg
  else neg

/-- The quantum at which a magnitude is rounded to a type's precision: the exponent range is unbounded
above and bounded below by the least subnormal (R62). -/
def quantum (t : Ty) (x : Mag) : Int :=
  if isFloat t then
    max (qMin t) (x.e + (Nat.log2 x.m : Int) - fracBits t)
  else 0

/-- A magnitude rounded to the precision of a type under rm: significand and quantum. -/
def roundMag (t : Ty) (rm : Rm) (neg : Bool) (x : Mag) : Nat × Int :=
  let q := quantum t x
  let c := cutAt x q
  (if roundsUp rm neg c.1 c.2 then c.1 + 1 else c.1, q)

/-- The encoding of a rounded magnitude n · 2^q, or none when it exceeds the largest finite value. -/
def encodeMag (t : Ty) (n : Nat) (q : Int) : Option Nat :=
  if n == 0 then some 0
  else
    let carry := n == 2 ^ (fracBits t + 1)
    let n1 := if carry then 2 ^ fracBits t else n
    let q1 := if carry then q + 1 else q
    let e := (q1 - qMin t).toNat
    let bits := if n1 < 2 ^ fracBits t then n1 else (e + 1) * 2 ^ fracBits t + (n1 - 2 ^ fracBits t)
    if bits ≤ maxFinite t then some bits else none

/-- The result of an arithmetic overflow by mode (R61), without its sign. -/
def overflowBits (t : Ty) (rm : Rm) (neg : Bool) : Nat :=
  if rm == 0 then infBits t
  else if rm == 1 then maxFinite t
  else if rm == 2 then (if neg then maxFinite t else infBits t)
  else (if neg then infBits t else maxFinite t)

/-- A magnitude rounded as the result of an arithmetic instruction (R60, R61). -/
def roundArith (t : Ty) (rm : Rm) (neg : Bool) (x : Mag) : Nat :=
  let r := roundMag t rm neg x
  match encodeMag t r.1 r.2 with
  | some b => withSign t neg b
  | none => withSign t neg (overflowBits t rm neg)

/-- An exact value rounded as the result of an arithmetic instruction. -/
def roundNum (t : Ty) (rm : Rm) : Num → Nat
  | .nan => canonNan t
  | .inf s => withSign t s (infBits t)
  | .fin s m e => if m == 0 then withSign t s 0 else roundArith t rm s ⟨m, e, false⟩

def signedMag (s : Bool) (m : Nat) : Int := if s then -(m : Int) else m

/-- The exponent below which no finite term reaches. -/
def minExp : List Num → Int → Int
  | [], lo => lo
  | .fin _ m e :: xs, lo => minExp xs (if m == 0 then lo else min lo e)
  | _ :: xs, lo => minExp xs lo

/-- The exact sum of finite terms in units of 2^lo. -/
def sumAt (lo : Int) : List Num → Int
  | [] => 0
  | .fin s m e :: xs => signedMag s (if m == 0 then 0 else m * 2 ^ (e - lo).toNat) + sumAt lo xs
  | _ :: xs => sumAt lo xs

def anyNan (l : List Num) : Bool := l.any (· == .nan)
def anyInf (s : Bool) (l : List Num) : Bool := l.any (· == .inf s)
/-- Every term is a zero of the sign s. -/
def allZero (s : Bool) (l : List Num) : Bool := l.all fun
  | .fin t m _ => m == 0 && t == s
  | _ => false

/-- An exact sum, with the sign of a zero sum by R60 under rm. -/
def exactSum (rm : Rm) (l : List Num) : Num :=
  if anyNan l || (anyInf true l && anyInf false l) then .nan
  else if anyInf true l then .inf true
  else if anyInf false l then .inf false
  else
    let lo := minExp l 4096
    let t := sumAt lo l
    if t == 0 then .fin (allZero true l || (!allZero false l && rm == 3)) 0 0
    else .fin (decide (t < 0)) t.natAbs lo

/-- A sum of exact terms rounded once (R70). -/
def sumRound (t : Ty) (rm : Rm) (l : List Num) : Nat := roundNum t rm (exactSum rm l)

-- Two-operand arithmetic on encodings of one type.
def fltAdd (t : Ty) (rm : Rm) (a b : Nat) : Nat := sumRound t rm [decodeFloat t a, decodeFloat t b]
def fltSub (t : Ty) (rm : Rm) (a b : Nat) : Nat := sumRound t rm [decodeFloat t a, (decodeFloat t b).neg]
def fltMul (t : Ty) (rm : Rm) (a b : Nat) : Nat := roundNum t rm ((decodeFloat t a).mul (decodeFloat t b))
def fltFma (t : Ty) (rm : Rm) (a b c : Nat) : Nat :=
  sumRound t rm [(decodeFloat t a).mul (decodeFloat t b), decodeFloat t c]

/-- Order of two values that are not NaN: less, equal or greater; +0 and −0 are equal (R58). -/
def numCmp : Num → Num → Ordering
  | .inf s, .inf t => if s == t then .eq else if s then .lt else .gt
  | .inf s, _ => if s then .lt else .gt
  | _, .inf t => if t then .gt else .lt
  | .fin s m e, .fin t n f =>
    let lo := min e f
    compare (signedMag s (m * 2 ^ (e - lo).toNat)) (signedMag t (n * 2 ^ (f - lo).toNat))
  | _, _ => .eq

/-- Whether a value is negative or −0: the tie order of fmin and fmax (R58). -/
def Num.signed : Num → Bool
  | .nan => false
  | .inf s => s
  | .fin s _ _ => s

/-- fmin (greatest = false) and fmax of encodings; NaN when either is NaN (R57, R58). -/
def fltMinMax (t : Ty) (greatest : Bool) (a b : Nat) : Nat :=
  let x := decodeFloat t a
  let y := decodeFloat t b
  if x == .nan || y == .nan then canonNan t
  else match numCmp x y with
    | .lt => if greatest then b else a
    | .gt => if greatest then a else b
    | .eq => if x.signed then (if greatest then b else a) else (if greatest then a else b)

-- Conversions.
/-- A conversion's result and whether it saturated. -/
structure Conv where
  bits : Nat
  sat : Bool
deriving DecidableEq, Repr

/-- The end of an integer type's range on the side of a sign, as encoding bits. -/
def intEnd (t : Ty) (neg : Bool) : Nat :=
  if intSigned t then (if neg then 2 ^ (t.bits - 1) else 2 ^ (t.bits - 1) - 1)
  else (if neg then 0 else 2 ^ t.bits - 1)

/-- The rows of R62 after rounding to the significand n and quantum q. -/
def settle (t : Ty) (neg : Bool) (n : Nat) (q : Int) : Conv :=
  if isFloat t then
    match encodeMag t n q with
    | some b => ⟨withSign t neg b, false⟩
    | none => ⟨withSign t neg (maxFinite t), true⟩
  else
    let v := n * 2 ^ q.toNat
    let lim := if intSigned t then (if neg then 2 ^ (t.bits - 1) else 2 ^ (t.bits - 1) - 1) else (if neg then 0 else 2 ^ t.bits - 1)
    if v ≤ lim then ⟨if neg then (2 ^ t.bits - v) % 2 ^ t.bits else v, false⟩ else ⟨intEnd t neg, true⟩

/-- The special rows of R62: NaN and infinities. -/
def convSpecial (t : Ty) : Num → Conv
  | .nan => if hasNan t then ⟨canonNan t, false⟩ else ⟨0, true⟩
  | .inf s => if hasInf t then ⟨withSign t s (infBits t), false⟩
      else if isFloat t then ⟨withSign t s (maxFinite t), true⟩ else ⟨intEnd t s, true⟩
  | .fin s _ _ => ⟨if isFloat t then withSign t s 0 else 0, false⟩

/-- Conversion of an exact value to a type (R62). -/
def convNum (t : Ty) (rm : Rm) : Num → Conv
  | .fin s m e =>
    if m == 0 then convSpecial t (.fin s 0 0)
    else let r := roundMag t rm s ⟨m, e, false⟩
      settle t s r.1 r.2
  | x => convSpecial t x

/-- Conversion with stochastic rounding by a 16-bit draw (R63). -/
def convStochastic (t : Ty) (r : Nat) : Num → Conv
  | .fin s m e =>
    if m == 0 then convSpecial t (.fin s 0 0)
    else
      let x : Mag := ⟨m, e, false⟩
      let q := quantum t x
      let c := cutAt x q
      let f := if e ≥ q then 0 else 2 ^ 16 * (m % 2 ^ (q - e).toNat) / 2 ^ (q - e).toNat
      settle t s (if f + r < 2 ^ 16 then c.1 else c.1 + 1) q
  | x => convSpecial t x

-- Roots, reciprocals and transcendental functions of F32 (R82, R83).
/-- floor(√n), bit by bit from the given top bit. -/
def isqrt (n : Nat) : Nat → Nat → Nat
  | 0, r => r
  | k + 1, r => if (r + 2 ^ k) * (r + 2 ^ k) ≤ n then isqrt n k (r + 2 ^ k) else isqrt n k r

def f32One : Nat := 0x3F800000

/-- 1 ÷ A (R82, R83). -/
def fltRcp (rm : Rm) (a : Nat) : Nat :=
  match decodeFloat .f32 a with
  | .nan => canonNan .f32
  | .inf s => withSign .f32 s 0
  | .fin s m e =>
    if m == 0 then withSign .f32 s (infBits .f32)
    else roundArith .f32 rm s ⟨2 ^ 96 / m, -96 - e, 2 ^ 96 % m != 0⟩

/-- √A. -/
def fltSqrt (rm : Rm) (a : Nat) : Nat :=
  match decodeFloat .f32 a with
  | .nan => canonNan .f32
  | .inf s => if s then canonNan .f32 else infBits .f32
  | .fin s m e =>
    if m == 0 then withSign .f32 s 0
    else if s then canonNan .f32
    else
      let m1 := if e % 2 == 0 then m * 2 ^ 64 else m * 2 ^ 65
      let e1 := if e % 2 == 0 then e - 64 else e - 65
      let r := isqrt m1 48 0
      roundArith .f32 rm false ⟨r, e1 / 2, r * r != m1⟩

/-- 1 ÷ √A. -/
def fltRsq (rm : Rm) (a : Nat) : Nat :=
  match decodeFloat .f32 a with
  | .nan => canonNan .f32
  | .inf s => if s then canonNan .f32 else 0
  | .fin s m e =>
    if m == 0 then withSign .f32 s (infBits .f32)
    else if s then canonNan .f32
    else
      let m1 := if e % 2 == 0 then m else m * 2
      let e1 := if e % 2 == 0 then e else e - 1
      let r := isqrt (2 ^ 128 / m1) 66 0
      roundArith .f32 rm false ⟨r, -64 - e1 / 2, r * r * m1 != 2 ^ 128⟩

/-- A · 2^n, where every n beyond ±1,000 gives what ±1,000 gives (R82). -/
def fltScale (rm : Rm) (a : Nat) (n : Int) : Nat :=
  match decodeFloat .f32 a with
  | .fin s m e => roundNum .f32 rm (.fin s m (e + max (-1000) (min n 1000)))
  | x => roundNum .f32 rm x

/-- Fraction bits of the fixed-point enclosures below. -/
def fxBits : Nat := 400
/-- ⌊ln 2 · 2^448⌋ and ⌊π · 2^448⌋. -/
def ln2Fix : Nat := 0xb17217f7d1cf79abc9e3b39803f2f6af40f343267298b62d8a0d175b8baafa2be7b876206debac98559552fb4afa1b10ed2eae35c1382144
def piFix : Nat := 0x3243f6a8885a308d313198a2e03707344a4093822299f31d0082efa98ec4e6c89452821e638d01377be5466cf34e90c6cc0ac29b7c97c50dd

/-- Σ term · x^k ÷ (factorials) for exp in fixed point: the k-th term from the one before. -/
def expSeries (x : Nat) : Nat → Nat → Nat → Nat
  | 0, _, _ => 0
  | fuel + 1, k, term => term + expSeries x fuel (k + 1) (term * x / 2 ^ fxBits / k)

/-- The alternating series of sin (from term x, k = 2) and cos (from term 1, k = 1), signed. -/
def trigSeries (x2 : Nat) : Nat → Nat → Int → Int
  | 0, _, _ => 0
  | fuel + 1, k, term => term + trigSeries x2 fuel (k + 2) (-(term * (x2 : Int) / 2 ^ fxBits / ((k * (k + 1) : Nat) : Int)))

/-- Σ z^(2k+1) ÷ (2k+1): atanh in fixed point. -/
def atanhSeries (z2 : Nat) : Nat → Nat → Nat → Nat
  | 0, _, _ => 0
  | fuel + 1, k, p => p / k + atanhSeries z2 fuel (k + 2) (p * z2 / 2 ^ fxBits)

/-- Fixed-point error allowed around an enclosure: 2^40 units of 2^-400. -/
def fxSlack : Nat := 2 ^ 40

/-- The result of an instruction whose exact value lies strictly within fxSlack of m · 2^-400: the
rounding of both ends where they agree, and a free value where they do not. -/
def enclosed (op : Nat) (a : Nat) (rm : Rm) (neg : Bool) (m : Nat) : Nat :=
  let lo := roundArith .f32 rm neg ⟨m - fxSlack, -(fxBits : Int), true⟩
  let hi := roundArith .f32 rm neg ⟨m + fxSlack, -(fxBits : Int), true⟩
  if lo == hi then lo else (Config.transcendental op (BitVec.ofNat 32 a) rm).toNat

/-- x = m · 2^e in units of 2^-400, exact for every F32 value of magnitude below 2. -/
def toFix (m : Nat) (e : Int) : Nat := m * 2 ^ (e + fxBits).toNat

/-- 2^A (R82, R83). -/
def fltExp2 (rm : Rm) (a : Nat) : Nat :=
  match decodeFloat .f32 a with
  | .nan => canonNan .f32
  | .inf s => if s then 0 else infBits .f32
  | .fin s m e =>
    if m == 0 then f32One
    else if e + (Nat.log2 m : Int) ≥ 9 then roundArith .f32 rm false ⟨1, if s then -1000 else 1000, true⟩
    else
      let x : Int := signedMag s (toFix m e)
      let whole := x / 2 ^ fxBits
      let frac := (x % 2 ^ fxBits).toNat
      if frac == 0 then roundArith .f32 rm false ⟨1, whole, false⟩
      else
        let y := frac * ln2Fix / 2 ^ 448
        let v := expSeries y 110 1 (2 ^ fxBits)
        let lo := roundArith .f32 rm false ⟨v - fxSlack, whole - fxBits, true⟩
        let hi := roundArith .f32 rm false ⟨v + fxSlack, whole - fxBits, true⟩
        if lo == hi then lo else (Config.transcendental 9 (BitVec.ofNat 32 a) rm).toNat

/-- log₂ A (R82, R83). -/
def fltLog2 (rm : Rm) (a : Nat) : Nat :=
  match decodeFloat .f32 a with
  | .nan => canonNan .f32
  | .inf s => if s then canonNan .f32 else infBits .f32
  | .fin s m e =>
    if m == 0 then withSign .f32 true (infBits .f32)
    else if s then canonNan .f32
    else
      let l := Nat.log2 m
      let whole : Int := e + l
      if m == 2 ^ l then roundNum .f32 rm (.fin (decide (whole < 0)) whole.natAbs 0)
      else
        let one : Nat := 2 ^ fxBits
        let x := m * 2 ^ (fxBits - l)
        let z := (x - one) * one / (x + one)
        let t : Nat := atanhSeries (z * z / one) 140 1 z
        let f : Nat := 2 * t * 2 ^ 448 / ln2Fix
        let v : Int := whole * one + f
        enclosed 10 a rm (decide (v < 0)) v.natAbs

/-- sin(π · r) for r in units of 2^-400, 0 < r < 2^399: fixed point. -/
def sinPi (r : Nat) : Nat :=
  let one : Nat := 2 ^ fxBits
  if r ≤ one / 4 then
    let x := r * piFix / 2 ^ 448
    (trigSeries (x * x / one) 60 2 x).toNat
  else
    let x := (one / 2 - r) * piFix / 2 ^ 448
    (trigSeries (x * x / one) 60 1 one).toNat

/-- sin(π · x) for x in units of 2^-400 and x / 2^400 reduced below 2: sign, and the fixed-point value of a
point that is no multiple of one half. -/
def sinAt (op a : Nat) (rm : Rm) (x : Nat) : Nat :=
  let one : Nat := 2 ^ fxBits
  let neg := decide (one < x)
  let r := x % one
  if r == one / 2 then withSign .f32 neg f32One
  else enclosed op a rm neg (sinPi (if r ≤ one / 2 then r else one - r))

/-- sin(π · A) (R82, R83): integers give a zero with A's sign. -/
def fltSin (rm : Rm) (a : Nat) : Nat :=
  match decodeFloat .f32 a with
  | .nan => canonNan .f32
  | .inf _ => canonNan .f32
  | .fin s m e =>
    let one : Nat := 2 ^ fxBits
    if m == 0 || decide (e ≥ 0) then withSign .f32 s 0
    else
      let x := toFix m e % (2 * one)
      if x % one == 0 then withSign .f32 s 0
      else sinAt 11 a rm (if s then 2 * one - x else x)

/-- cos(π · A) = sin(π · (A + ½)) (R82, R83): n + ½ gives +0. -/
def fltCos (rm : Rm) (a : Nat) : Nat :=
  match decodeFloat .f32 a with
  | .nan => canonNan .f32
  | .inf _ => canonNan .f32
  | .fin _ m e =>
    let one : Nat := 2 ^ fxBits
    let x := if e ≥ 1 then 0 else toFix m e % (2 * one)
    let y := (x + one / 2) % (2 * one)
    if y % one == 0 then 0 else sinAt 12 a rm y

/-- The class mask of an F32 encoding (R84). -/
def fltClass (a : Nat) : Nat :=
  match decodeFloat .f32 a with
  | .nan => 1
  | .inf s => if s then 2 else 256
  | .fin s m _ =>
    if m == 0 then (if s then 16 else 32)
    else if m < 2 ^ 23 then (if s then 8 else 64)
    else (if s then 4 else 128)

end Sys2Proof.Machine
end

