-- ==== Sys2Proof/Machine/State.lean ====
section
/-! DEFINITION. The state of a Rolnus 9800 module as plain data: the teams with their groups and agents,
the launches, the cores, the memories, the interfaces, the fabric, and the module after reset.
INVENTORY.md lists every field with the rule that names it and its reset value. -/

namespace Sys2Proof.Machine

/-- Why a step cannot be taken. -/
inductive Fault where
  /-- Raised by an instruction row when State.cur names no agent that can issue: no agent takes this step,
  so the machine has no next state for it. Safe: the hardware has no such step either. -/
  | noAgent
deriving DecidableEq, Repr

/-- Why a row has no meaning. -/
inductive Refusal where
  /-- Raised by an arm of exec that has no meaning yet; the string is the row's mnemonic. Safe. -/
  | notModelled (mnemonic : String)
deriving DecidableEq, Repr

/-- A finite map by key: keys strictly rising, and no entry equal to what an unlisted key reads as. -/
abbrev Cells (β : Type) := List (Nat × β)

/-- Byte memory in the canonical form of Cells; an unlisted address reads as 0. -/
abbrev Memory := List Host.Cell

/-- A set of events of the abstract machine (R243): bit e is set when event e is in the view. -/
abbrev View := Nat

/-- Where an agent stands for the scopes of R246. -/
structure Loc where
  module : Nat
  tower : Nat
  cluster : Nat
  team : Nat
deriving DecidableEq, Repr

/-- A release snapshot (R244): scope code 0 team to 4 domain, the view copied, and its agent's place. -/
structure Snap where
  scope : Nat
  view : View
  owner : Loc
deriving DecidableEq, Repr

/-- Who made an access (R241): an agent of a team, or an engine for a copy or a command of it, with the race identity and group clock it
carried (R262, R264). An engine is named by the issuing team and 2·n for its copy n, 2·n + 1 for
its command of order n. -/
structure Who where
  team : Nat
  agent : Option Nat
  engine : Option (Nat × Nat)
  ident : BitVec 18
  clock : BitVec 20
deriving DecidableEq, Repr
/-- The writer of initial writes (R240). -/
def Who.initial : Who := ⟨0, none, none, 0x3FFFF, 0⟩

/-- One write performed on a byte, with its writer and the snapshots it carries (R241, R244); rel: the write was itself a release; pub: of another
module's write, the cluster epoch and the team clocks of the release snapshot that travelled with it (R277). -/
structure ByteWrite where
  ev : Nat
  val : Byte
  view : View
  snaps : List Snap
  marked : Bool
  who : Who
  rel : Bool
  pub : Option (BitVec 20 × Cells (BitVec 20)) := none
deriving DecidableEq, Repr
/-- The initial write of a byte (R240). -/
def ByteWrite.initial (b : Byte) : ByteWrite := ⟨0, b, 0, [], false, Who.initial, false, none⟩

/-- A read performed on a granule (R241): its event, whether it is marked, and its reader. -/
structure ReadEv where
  ev : Nat
  marked : Bool
  who : Who
deriving DecidableEq, Repr

/-- The writer of a write that was read, as the race hardware names it (R265, R274): identity, group clock at the write, and whether the write was a
release; pub: what a proxy's write published (R277). -/
structure Source where
  ident : BitVec 18
  clock : BitVec 20
  rel : Bool
  pub : Option (BitVec 20 × Cells (BitVec 20)) := none
deriving DecidableEq, Repr

/-- A reader epoch of the line metadata (R267). -/
structure Epoch where
  mask : BitVec 4
  token : BitVec 11
deriving DecidableEq, Repr

/-- The race metadata of a line (R267). -/
structure LineMeta where
  writer : BitVec 18
  wgclk : BitVec 20
  wtclk : BitVec 20
  scope : BitVec 2
  wmask : BitVec 4
  engine : Bool
  overflow : Bool
  reader1 : Epoch
  reader0 : Epoch
deriving DecidableEq, Repr

/-- The reset column of R267. -/
def LineMeta.reset : LineMeta :=
  ⟨0x3FFFF, 0, 0, 0, 0, false, false, ⟨0, 0x7FF⟩, ⟨0, 0x7FF⟩⟩

/-- An entry of a tower's reader table (R268). -/
structure ReaderEntry where
  ident : BitVec 18
  gclk : BitVec 20
  tclk : BitVec 20
  scope : BitVec 2
  engine : Bool
  count : Nat
deriving DecidableEq, Repr

/-- The three published clocks of a party (R264). -/
structure Clocks where
  group : BitVec 20
  team : BitVec 20
  epoch : BitVec 20
deriving DecidableEq, Repr

/-- A group's release snapshot (R265). -/
structure RelSnap where
  gvec : Cells (BitVec 20)
  tvec : Cells (BitVec 20)
  version : BitVec 32
  /-- The clocks published with it (R264). -/
  pub : Clocks
deriving DecidableEq, Repr

/-- An entry of a module vector (R265). -/
structure ModEntry where
  epoch : BitVec 20
  tclks : Cells (BitVec 20)
deriving DecidableEq, Repr

/-- The release snapshot that travels with a write over the fabric (R277): clocks published, group and team vector, and what the module vector knows of the
destination's cluster slots. -/
structure Released where
  clocks : Clocks
  gvec : Cells (BitVec 20)
  tvec : Cells (BitVec 20)
  modvec : Cells ModEntry
deriving DecidableEq, Repr

/-- The full bit of a granule with what its filling write carries (R154, R257). -/
structure Fill where
  view : View
  cluster : Bool
  ident : BitVec 18
  clocks : Clocks
  /-- The snapshots and writers that the filling chunk's reads met (R245). -/
  snaps : List Snap
  sources : List Source
deriving DecidableEq, Repr

/-- A switchback entry (R105): kind 1 local region, 2 team region, 3 pending half. -/
structure Switch where
  set : DWord
  pc : Nat
  kind : Nat
  policy : BitVec 2
  slot : BitVec 4
deriving DecidableEq, Repr

/-- What a fault raises: its kind and cause, its detail words, the milestone and the race record (R308, R310). -/
structure Raise where
  kind : Nat
  cause : Nat := 0
  d0 : DWord := 0
  d1 : DWord := 0
  ms : DWord := 0
  record : BitVec 1024 := 0
  /-- The records of a milestone instruction (R315), and the group whose ms takes the milestone, where it is not the host (R198). -/
  records : List (Nat × BitVec 256) := []
  owner : Option Nat := none
deriving DecidableEq, Repr

/-- A trap's record before delivery (R307, R308). -/
structure TrapInfo where
  kind : Nat
  cause : Nat
  pc : Nat
  rest : Nat
  word : DWord
  lanes : LaneSet
  ms : DWord
  d0 : DWord
  d1 : DWord
  tick : Nat
  record : BitVec 1024
  delivered : Bool
  /-- The parent has retired the instruction (R117, R311). -/
  retired : Bool
  /-- Re-issued by tret: the lanes rejoin the parent as the instruction retires (R117). -/
  redo : Bool
  /-- The word stood where a header had to stand (R31). -/
  atHeader : Bool
  /-- The records that a stopped milestone instruction read (R315). -/
  records : List (Nat × BitVec 256)
  /-- The group whose ms takes the milestone, where it is not the host (R198). -/
  owner : Option Nat
deriving DecidableEq, Repr

/-- What an agent is doing between instructions. -/
inductive Status where
  | ready
  /-- At an open team rendezvous or cbar (R103, R238). -/
  | rdv
  /-- At join, or with an empty k0 inside a region, until trap fragments or fragments end (R108, R113). -/
  | join
  /-- Its lanes run as fragments of a team region (R110). -/
  | region
  /-- Outside every region, until its trap fragments rejoin (R117). -/
  | trapWait
  /-- A trap fragment not yet delivered (R307). -/
  | pending
  /-- Struck lanes whose trap fragment waits for room (R45, R114). -/
  | heldTrap
  /-- A copy waits for acceptance (R201): the copy number. -/
  | accept (copy : Nat)
  /-- At the rendezvous latch, or its command is not yet accepted (R188). -/
  | latch
  /-- In await since this tick and commit (R172, R302). -/
  | await (tick commits : Nat)
  /-- Stopped after tpass (R314). -/
  | passed
deriving DecidableEq, Repr

/-- What kind of agent (R97, R111, R117). -/
inductive AgentKind where
  | group
  | fragment (slot : Nat)
  | trap (parent regionDepth : Nat)
deriving DecidableEq, Repr

/-- The watch of an agent (R172): lines of a place, and whether another party wrote one. -/
structure Watch where
  lines : List (Place × Nat)
  hit : Bool
deriving DecidableEq, Repr

/-- A line as it stood before an instruction's first access, with the reader entries it names (R272). -/
structure LineBefore where
  place : Place
  line : Nat
  metas : LineMeta
  readers : List (Nat × ReaderEntry)
deriving DecidableEq, Repr

/-- An issued instruction that has not retired (R18, R146, R242): the records it read, the index registers it read by 256·lane + register, the lanes
whose access (of a tile instruction, in the current element) is made, the lines they read, and whether it has written memory. -/
structure Issued where
  recs : List (Nat × BitVec 256)
  regs : Cells Word
  done : List Nat
  lines : List (Place × Nat)
  wrote : Bool
deriving DecidableEq, Repr

/-- An agent of a team. -/
structure Agent where
  kind : AgentKind
  host : Nat
  lanes : LaneSet
  /-- Lanes 32·g + l by register position in a packed fragment; empty where positions are home (R111). -/
  positions : List Nat
  k0 : DWord
  pc : Nat
  rest : Nat
  stack : List Switch
  status : Status
  depth : Nat
  /-- Formed inside a region: runs to the region's join (R117). -/
  inRegion : Bool
  info : Option TrapInfo
  /-- Elements complete of the milestone instruction at pc, once its issue checks have passed, with the records it read
  (R146, R163). -/
  progress : Option (Nat × List (Nat × BitVec 256))
  /-- Its lanes that have faulted, with what each raised (R163). -/
  struck : List (Nat × Raise)
  /-- Metadata of the lines it has touched, as it stood before (R272). -/
  before : List LineBefore
  /-- Its instruction when that has issued and waits, or has made some of its lanes' accesses. -/
  issued : Option Issued
  /-- Live-vector masks of the innermost team region (R112), with the smallest budget (R130). -/
  live : Option (BitVec 16 × Nat)
  view : View
  seen : List Snap
  seenIds : List Source
  relSnap : Option Snap
  watch : Option Watch
  /-- The match of a Waymark stop is waived for the next issue (R344). -/
  stopWaived : Bool
deriving DecidableEq, Repr

/-- A gang register (R174, R175): shape 1 full, 2 lo, 3 hi; slots by quarter; bound queue. -/
structure Gang where
  shape : BitVec 2
  slots : List Nat
  queue : Option QReg
deriving DecidableEq, Repr

/-- A write held until the commit of a determinate leg (R301). -/
structure Held where
  place : Place
  /-- The position whose column the write names: it is resolved when the write is performed (R227). -/
  position : Option Nat
  addr : Nat
  bytes : List Byte
  lane : Nat
  agent : Nat
  pc : Nat
  rest : Nat
  handle : Nat
  coords : List Nat
  elem : Nat
  /-- The records of its instruction (R315). -/
  records : List (Nat × BitVec 256)
deriving DecidableEq, Repr

/-- A group: its registers and what the team header keeps for it (R38, R40, R44, R45). -/
structure Group where
  /-- Vector registers: key 32·register + lane. -/
  v : Cells Word
  s : Cells DWord
  k : Cells DWord
  q : Cells DWord
  tokens : Cells (List DWord)
  live : BitVec 32
  sat : BitVec 2
  sp : BitVec 16
  ms : DWord
  rmode : BitVec 2
  gang : Option Gang
  unfenced : BitVec 256
  row : Nat
  budget : Nat
  placed : Nat
  priority : Nat
  /-- The tick of its last issue (R136). -/
  issuedAt : Nat
  /-- The latest tick up to which none of its agents was eligible (R136). -/
  idleAt : Nat
  boosted : Bool
  spinning : Bool
  missing : List Nat
  msRecords : List (Nat × BitVec 256)
  spill : Memory
  clock : BitVec 20
  vec : Cells (BitVec 20)
  rel : Option RelSnap
  /-- The group clock of the last release at cluster scope or wider (R274). -/
  wide : Option (BitVec 20)
  legCount : Nat
  legEnded : Bool
  held : List Held
deriving DecidableEq, Repr

/-- The kinds of rendezvous (R103, R238). -/
inductive RdvKind where
  | bar | cbar | gather | applyT | apply2
deriving DecidableEq, Repr

/-- An open rendezvous (R103): compared sets, the opener's descriptor, and each arrival's agent with its
contribution. -/
structure Rdv where
  kind : RdvKind
  pc : Nat
  setA : LaneSet
  setB : LaneSet
  desc : DWord
  policy : BitVec 2
  /-- Word offsets of the blocks of a team apply; blockA is the destination register of kgather.t. -/
  blockA : Nat
  blockB : Nat
  arrived : List (Nat × LaneSet)
deriving DecidableEq, Repr

/-- A fragment of a team region that has no free host yet (R116). -/
structure FragPlan where
  half : Nat
  hosts : List Nat
  lanes : LaneSet
  packed : Bool
deriving DecidableEq, Repr

/-- An open team region (R110 to R116). -/
structure Region where
  cont : Nat
  policy : BitVec 2
  /-- Participating agents. -/
  parts : List Nat
  /-- Handles in use: the first names the entry set E, the others the team-form halves of a team apply2 (R52). -/
  handles : List Nat
  /-- The k0 of the fragments, members, block and live mask of each half. -/
  descs : List DWord
  members : List LaneSet
  blocks : List Nat
  masks : List (BitVec 16)
  budget : Nat
  frags : List Nat
  waiting : List FragPlan
  /-- The view its fragments begin with (R249, R250), and the union of the views of those that have ended. -/
  views : View
  ended : View
deriving DecidableEq, Repr

/-- The outcome of a landed chunk (R214, R216). -/
structure Outcome where
  code : Nat
  sat : Bool
  page : BitVec 32
  record : BitVec 1024
deriving DecidableEq, Repr

/-- What an observer of an engine's accesses merges (R245, R255, R258): their events, the snapshots of the writes they
read, and those writes' identities. -/
structure Obs where
  view : View
  snaps : List Snap
  ids : List Source
deriving DecidableEq, Repr

/-- The kinds of copy. -/
inductive CopyKind where
  | cpy | cpyx | cpym
deriving DecidableEq, Repr

/-- A delivery of a cpym made or dropped: chunk, position, outcome, and what an observer of it merges (R235 to R237, R256). -/
structure Delivery where
  chunk : Nat
  position : Nat
  out : Outcome
  obs : Obs
deriving DecidableEq, Repr

/-- What a chunk has read, until its last write lands: its tile bytes (none where an error kept one back), its
outcome so far, and what an observer merges. -/
structure Fetch where
  bytes : List (Option Byte)
  out : Outcome
  /-- The tile byte at which code 3 or 5 was met. -/
  first : Nat
  obs : Obs
  /-- A race of the step has been logged. -/
  logged : Bool
  /-- Its bytes in this module are written, in the step that wrote its last bytes of another (R260). -/
  near : Bool
deriving DecidableEq, Repr

/-- A copy from issue to the end of its team (R201 to R219); a cpym has a further one in the team of each named position,
whose remote names the issuing team and copy (R235). -/
structure Copy where
  kind : CopyKind
  accepted : Bool
  remote : Option (Nat × Nat)
  /-- Acceptance order. -/
  order : Nat
  cls : BitVec 2
  /-- The resolved records with their handles, and coordinates. -/
  dst : BitVec 256
  hd : Nat
  dc : List Nat
  src : BitVec 256
  hs : Nat
  sc : List Nat
  bitmap : BitVec 256
  hb : Nat
  /-- First word of the run on the bitmap record, and words of the run. -/
  run : Nat
  runWords : Nat
  chunks : Nat
  started : Nat
  landed : List Nat
  outcomes : Cells Outcome
  /-- Positions named by a cpym with the generation captured of each, and deliveries made (R235, R236). -/
  targets : List (Nat × BitVec 32)
  delivered : List Delivery
  fetched : Cells Fetch
  exponent : Int
  span : Nat
  ident : BitVec 18
  clocks : Clocks
  /-- The producer's vectors at acceptance (R264, R265). -/
  gvec : Cells (BitVec 20)
  tvec : Cells (BitVec 20)
  view : View
  snaps : List Snap
  /-- By chunk: the events of its accesses (R255). -/
  obs : Cells Obs
  pc : Nat
  group : Nat
deriving DecidableEq, Repr

/-- An entry of the outcome store (R215). -/
structure StoreEntry where
  word : Nat
  bit : Nat
  chunk : Nat
  order : Nat
  out : Outcome
deriving DecidableEq, Repr

/-- States of a matrix command (R183); a released command is removed. -/
inductive CmdState where
  | checked | waiting | executing | stopped | complete
deriving DecidableEq, Repr

/-- A matrix command (R183, R199). -/
structure Cmd where
  id : BitVec 6
  leader : Nat
  gang : Gang
  state : CmdState
  order : Nat
  fmt : MmaFmt
  n : Nat
  /-- Member, accumulator base and B base (R178, R179). -/
  ranges : List (Nat × Nat × Nat)
  /-- Predecessor IDs, and from acceptance on the predecessors by their order (R183). -/
  pids : List (BitVec 6)
  preds : List Nat
  layout : Nat
  arec : BitVec 256
  coords : List Nat
  elem : Nat
  /-- Bytes of A read (R242): position of the member, K-step group, place, address and byte. -/
  part : List ((Nat × Nat) × Place × Nat × Byte)
  /-- The first K-step group that a race or a storage error keeps from being read, with the cause and the race record (R196). -/
  met : Option (Nat × Nat × BitVec 1024)
  /-- The record is compared with its copy before A is read again (R199). -/
  recheck : Bool
  /-- Saved by a pre-emption and not yet accepted again (R199). -/
  queued : Bool
  pc : Nat
  /-- Cause 1 to 3 of kind 19 and the race record, when stopped by a fault. -/
  fault : Option (Nat × BitVec 1024)
  waited : List Nat
  views : Cells View
  obs : Obs
  /-- Each member's clocks and vectors at latch close (R185). -/
  clocks : Cells (Clocks × Cells (BitVec 20) × Cells (BitVec 20))
deriving DecidableEq, Repr

/-- An open rendezvous latch (R188). -/
structure Latch where
  leader : Nat
  gang : Gang
  args : MmaArgs
  layout : Nat
  coords : List Nat
  pc : Nat
  /-- Arrived members with their accumulator and B bases. -/
  arrived : List (Nat × Nat × Nat)
deriving DecidableEq, Repr

/-- Where a team stands (R128, R134, R220). -/
inductive TeamStatus where
  | resident
  /-- Pre-emption took effect; lines and shared memory are being saved. -/
  | stopped
  | evicted
  | draining
  /-- Ended, in a cluster whose other teams have not (R224, R266). -/
  | ended
deriving DecidableEq, Repr

/-- A team: its shape and place, its groups and agents, its memory, its copies, commands and clocks. -/
structure Team where
  launch : Nat
  node : Nat
  index : BitVec 32
  gen : BitVec 32
  groupsN : Nat
  lanesN : Nat
  cluster : Nat
  position : Nat
  ctxSlot : Nat
  status : TeamStatus
  core : Nat
  /-- Its core in the virtual grid of the partition (R303). -/
  logical : Nat
  teamSlot : Nat
  since : Nat
  evictedAt : Nat
  held : Bool
  preempt : Bool
  linesSaved : Bool
  sharedSaved : Bool
  writeBack : Bool
  /-- Where its shared memory lies in the save pool, as an offset (R320). -/
  poolAt : Option Nat
  escalated : Bool
  groups : Cells Group
  agents : Cells Agent
  nextAgent : Nat
  layouts : Cells (BitVec 256)
  caches : List (Reader × Nat × BitVec 256)
  /-- Who wrote a record since its last lfence (R166). -/
  lrecs : List (Nat × Nat)
  handles : Cells LaneSet
  rdvs : List Rdv
  regions : Cells Region
  sharedSize : Nat
  shared : Memory
  full : Cells Fill
  metas : Cells LineMeta
  hist : Cells (List ByteWrite)
  reads : Cells (List ReadEv)
  copies : Cells Copy
  nextCopy : Nat
  /-- Copies that have completed: what bmwait names, and what later copies overlap (R209, R213). -/
  done : List Copy
  store : List StoreEntry
  lost : List Nat
  cmds : List Cmd
  latches : List Latch
  tclock : BitVec 20
  tvec : Cells (BitVec 20)
  modvec : Cells ModEntry
  version : BitVec 32
deriving DecidableEq, Repr

/-- An entry of the overpass column table (R226). -/
structure ColEntry where
  col : Nat
  target : Nat
  state : BitVec 2
deriving DecidableEq, Repr

/-- A cluster (R223, R224). -/
structure Cluster where
  launch : Nat
  node : Nat
  w : Nat
  h : Nat
  tower : Nat
  layer : Nat
  x0 : Nat
  y0 : Nat
  teams : List Nat
  slot : Option Nat
  epoch : BitVec 20
  binding : List ColEntry
  rdv : Option Rdv
  /-- Arrivals of the open cbar: team, agent, tick. -/
  arrived : List (Nat × Nat × Nat)
  offsets : List Int
  straggler : Option Nat
deriving DecidableEq, Repr

/-- A work record in a bin, with the snapshots it carries (R289, R294). -/
structure Rec where
  bytes : BitVec 512
  since : Nat
  snaps : List Snap
  /-- The team that emitted it, and the group's release. -/
  maker : Option (Nat × Source)
deriving DecidableEq, Repr

/-- A bin (R290): its records, oldest first, how many were ever appended, and the teams its node has formed (R291). -/
structure Bin where
  recs : List Rec
  appended : Nat
  formed : Nat
deriving DecidableEq, Repr

/-- A role row of a node (R285). -/
structure Role where
  kind : Nat
  vregs : Nat
  prio : Nat
  entry : Nat
  groups : BitVec 32
deriving DecidableEq, Repr

/-- A node entry (R285). -/
structure Node where
  kernel : Nat
  groups : Nat
  lanes : Nat
  producer : Nat
  legacy : Bool
  shm : Nat
  w : Nat
  h : Nat
  cap : Nat
  coalesce : Nat
  timer : Nat
  succ : List (Option Nat)
  roles : List Role
deriving DecidableEq, Repr

/-- A kernel entry (R284). -/
structure Kernel where
  first : Nat
  words : Nat
  handler : Option Nat
  layouts : List (BitVec 256)
deriving DecidableEq, Repr

/-- A loaded code object (R283 to R285); its words lie in main memory at the placement. -/
structure CodeObject where
  vi : Nat
  placement : Nat
  size : Nat
  words : Nat
  data0 : Nat
  kernels : List Kernel
  nodes : List Node
deriving DecidableEq, Repr

/-- The kill field of a completion record (R296). -/
structure Kill where
  status : Nat
  pc : Nat
  team : BitVec 32
  node : Nat
  group : Nat
  kind : Nat
deriving DecidableEq, Repr

/-- A launch (R281, R290 to R305). -/
structure Launch where
  vi : Nat
  number : BitVec 32
  serial : Bool
  determinate : Bool
  locked : Bool
  overpass : Bool
  /-- A control request holds the launch: none of its teams is placed (R332). -/
  held : Bool
  mode : BitVec 2
  cached : Bool
  entry : Nat
  object : Nat
  grid : Nat
  context : Nat
  slots : Nat
  bins : Nat
  ring : Nat
  ringLog : Nat
  vectors : Nat
  completion : Nat
  tag : DWord
  args : BitVec 384
  owner : DWord
  start : Nat
  nextEntry : Nat
  queues : List Bin
  formed : Nat
  usedSlots : List Nat
  cursor : Nat
  counters : Cells (BitVec 32)
  dropped : BitVec 32
  unobserved : BitVec 32
  records : BitVec 32
  sequence : Nat
  kill : Option Kill
  lockLost : Bool
  commits : Nat
  /-- By logical core: successive commits at which every resident group ended its leg waiting or spinning (R304). -/
  idle : Cells Nat
deriving DecidableEq, Repr

/-- A line in a core's open pool (R132). -/
structure PoolLine where
  team : Nat
  group : Nat
  line : Nat
deriving DecidableEq, Repr

/-- A core (R127 to R142, R207, R298, R338, R342). -/
structure Core where
  mhz : Nat
  nextMhz : Nat
  cause : Nat
  asleep : Bool
  idleSince : Nat
  stall : Nat
  deficits : Cells Nat
  visit : Nat
  paid : Bool
  /-- Its throttle ceiling (R333). -/
  ceiling : Nat
  /-- Copies with unstarted slices in queue order: team, copy (R207). -/
  queue : List (Nat × Nat)
  histogram : Cells (BitVec 32)
  /-- The open pools of its register caches, most recently used first (R132). -/
  pool : List PoolLine
  /-- The team that the stalled-residency rule makes resident on a logical core once its room is free (R298). -/
  swap : Option (Nat × Nat)
deriving DecidableEq, Repr

/-- A bank array's record of corrected errors (R318). -/
structure Banks where
  ticks : List (Nat × Nat)
  retired : List Nat
  spareUsed : Bool
  rebuilding : Bool
  /-- Until system software clears it. -/
  degraded : Bool
deriving DecidableEq, Repr

/-- A proxy slot bound to a remote cluster (R277), with the epoch and team clocks its writes have published, and by identity the latest group
clock its writes have carried and the clock of the group's last wide release (R271, R274). -/
structure Proxy where
  slot : Nat
  source : Nat
  cluster : Nat
  gclks : Cells (BitVec 20)
  wides : Cells (Option (BitVec 20))
deriving DecidableEq, Repr

/-- A tower. -/
structure Tower where
  readers : Cells ReaderEntry
  slots : List Nat
  proxies : List Proxy
  /-- Readings in watts and in degrees of the die and of the coolant outlet, and their limits from the power-limit record (R333). -/
  watts : Nat
  die : Nat
  outlet : Nat
  powerLimit : Nat
  dieLimit : Nat
  outletLimit : Nat
  /-- The second thermal limits, of the die and of the outlet. -/
  dieStop : Nat
  outletStop : Nat
  /-- Throttles engaged, and the tick of the last step of the power-limit throttle. -/
  powered : Bool
  thermal : Bool
  stepped : Nat
  /-- A throttle is engaged (R339). -/
  capturing : Bool
  /-- The elevators that are enabled (R225), those that the mesh routes use, the routes written for the next epoch, the epoch, and the chunks under way when the
  routes last changed: team, copy, chunk (R355). -/
  elevators : List Nat
  meshRoutes : List Nat
  meshNext : Option (List Nat)
  meshEpoch : Nat
  meshTraffic : List (Nat × Nat × Nat)
  /-- A move: its column, its target, and the next row to copy (R230). -/
  move : Option (Nat × Nat × Nat)
deriving DecidableEq, Repr

/-- An overpass column (R226). -/
structure Column where
  bytes : Memory
  metas : Cells LineMeta
  hist : Cells (List ByteWrite)
  reads : Cells (List ReadEv)
deriving DecidableEq, Repr

/-- A virtual interface (R327, R328, R335). -/
structure Vi where
  ringbase : DWord
  ringsize : BitVec 8
  doorbell : BitVec 32
  consumer : BitVec 32
  irq : BitVec 8
  root : DWord
  ctl : DWord
  arg : DWord
  mt : Cells DWord
  wmCtl : DWord
  wmRing : DWord
  wmProd : BitVec 32
  wmCons : BitVec 32
  wmOwner : DWord
  wmCbase : DWord
  wmStop : DWord
  wmSarg : DWord
  wmWatch : DWord
  wmWlen : BitVec 32
  wmDropped : Nat
  /-- The throttles it captures: tower and cause (R339). -/
  captures : List (Nat × Nat)
  counters : Cells DWord
  /-- Cached translations: virtual page, page bits, entry (R317, R329). -/
  tlb : List (Nat × Nat × DWord)
  partition : Nat
  /-- A thread of the partition's image halted at a system call (R344). -/
  halted : List DWord
deriving DecidableEq, Repr

/-- An entry of the list of ranges other modules may reach (R351): source module, base, size, read,
write. -/
structure Reach where
  source : Nat
  base : Nat
  size : Nat
  read : Bool
  write : Bool
deriving DecidableEq, Repr

/-- A partition (R326). -/
structure Partition where
  grid : List Nat
  remap : Cells Nat
  /-- Its main-memory ranges (base, size), its key slots and its system cores (R326). -/
  ranges : List (Nat × Nat)
  keySlots : List Nat
  systemCores : List Nat
  /-- Virtual address of the save pool in the partition's interfaces, and its bytes (R320). -/
  poolBase : Nat
  poolSize : Nat
  /-- The shadow region for full race metadata: base and size (R269). -/
  shadow : Option (Nat × Nat)
  /-- The system image, and the system cores that run it since the boot (R326). -/
  image : List Byte
  booted : List Nat
  locked : Bool
  wantLocked : Option Bool
  apertures : Cells DWord
  flows : Cells DWord
  reach : List Reach
deriving DecidableEq, Repr

/-- Another module of the domain (R240, R347). -/
structure Peer where
  memory : Memory
  /-- The writes and reads that this module's requests have performed there (R241, R244). -/
  hist : Cells (List ByteWrite)
  reads : Cells (List ReadEv)
  size : Nat
  reach : List Reach
  linkUp : Bool
deriving DecidableEq, Repr

/-- How a request stands (R350). -/
inductive ReqState where
  | held | performed | refused | raced | acked | abandoned
deriving DecidableEq, Repr

/-- What one flow carries of a request (R348, R349): its kind and sequence number, the lines, and their address-hash lanes. -/
structure Carrier where
  flow : Nat
  kind : Nat
  seq : Nat
  lines : List Nat
  lanes : List Nat
deriving DecidableEq, Repr

/-- A Bluevo request (R260, R347 to R350): the reads or the writes of one chunk at one module, performed in one step. -/
structure Request where
  source : Nat
  dest : Nat
  partition : Nat
  flows : List Carrier
  /-- The bytes of an own request as windows led to them when it was sent: whether written, the address in the aperture, and that at the destination (R347). -/
  led : List (Bool × Nat × Nat)
  epoch : Nat
  /-- Address at the destination and tile byte of each byte that it reads there, and of each that it writes. -/
  reads : List (Nat × Nat)
  writes : List (Nat × Nat)
  /-- The data of the writes, none for a byte that is not written; and what the reads answered, none for a byte that could not be read. -/
  bytes : List (Option Byte)
  answers : List (Option Byte)
  sentAt : Nat
  /-- It, or its acknowledgement, is on the way; a dropped link loses it until it is replayed. -/
  transit : Bool
  /-- An own request has been taken by its destination, and waits for the others of its chunk (R208, R260). -/
  arrived : Bool
  state : ReqState
  /-- The acknowledgement's verdict: performed, refused or raced. -/
  answer : ReqState
  /-- Acceptance order and source core of its copy (R260). -/
  order : Nat
  core : Nat
  ident : BitVec 18
  clocks : Clocks
  snaps : List Snap
  /-- The release snapshot of the group it acts for. -/
  release : Option Released
  wide : Option (BitVec 20)
  /-- The joined name of that group (R336). -/
  name : List Byte
  view : View
  /-- Coverage losses that the destination counts against its launch (R274). -/
  losses : List Nat
  /-- The record of a race that the destination found (R277, R351). -/
  race : Option (BitVec 1024)
  cluster : Nat
  mode : BitVec 2
  /-- Team, copy and chunk of an own request; none for another module's. -/
  chunk : Option (Nat × Nat × Nat)
deriving DecidableEq, Repr

/-- Boot states (R331). -/
inductive Boot where
  | off | running | recovery (record : Nat) | stopped
deriving DecidableEq, Repr

/-- A signed configuration record or firmware image in flash (R331): type 0 firmware, 1 partition
table, 2 interface map, 3 power limits, 4 Bluevo ports, 5 second tier. -/
structure FlashRec where
  type : Nat
  version : Nat
  bytes : List Byte
  signature : List Byte
deriving DecidableEq, Repr

/-- What the outside world does to the module between steps. -/
inductive World where
  /-- The host writes main memory through an interface's translation (R279). -/
  | hostWrite (vi addr : Nat) (bytes : List Byte)
  /-- System software writes main memory by physical address: the tables of R329. -/
  | systemWrite (addr : Nat) (bytes : List Byte)
  /-- An uncorrectable error stands in a line of a place, or is gone (R156, R319). -/
  | upset (place : Place) (line : Nat) (bad : Bool)
  /-- A register line of a group holds an uncorrectable error (R319). -/
  | registerUpset (team group : Nat)
  /-- A corrected error of a bank (R318). -/
  | corrected (array : ArrayRef) (bank : Nat)
  /-- Power and temperature readings of a tower (R333). -/
  | power (tower watts : Nat)
  | heat (tower die outlet : Nat)
  /-- Coolant flows, or flows no more (R333). -/
  | coolant (flow : Bool)
  /-- System software clears the mark of a degraded array (R318). -/
  | cleared (array : ArrayRef)
  /-- A remote module sends a request (R350). -/
  | incoming (r : Request)
  /-- Another module's memory changes by its own accesses (R240). -/
  | peerWrite (peer addr : Nat) (bytes : List Byte)
  /-- System software sets a partition's export table (R351). -/
  | exports (partition : Nat) (l : List Reach)
  /-- A link to a peer drops or comes back (R350). -/
  | link (peer : Nat) (up : Bool)
  /-- The flash holds these records (R331). -/
  | flash (l : List FlashRec)
  /-- System software requests a clock mode of a partition (R334). -/
  | clockMode (partition : Nat) (locked : Bool)
  /-- System software resumes a thread halted at a system call (R344). -/
  | resume (vi : Nat) (thread : DWord)
  /-- The scheduler of a core charges a cycle to a histogram bin (R143, R342). -/
  | cycle (core quarter bin : Nat)
  /-- Cycles pass on a core without a counted instruction (R298). -/
  | stallCycles (core n : Nat)
deriving DecidableEq, Repr

/-- Who moves at a step. -/
inductive Mover where
  | agent (a : AgentRef)
  /-- One lane of the agent's memory instruction makes its access alone (R242, log 101). -/
  | lane (a : AgentRef) (gl : Nat)
  | event (i : Instr)
  | world (w : World)
deriving DecidableEq, Repr

/-- One entry of the schedule: reference ticks that pass first, and who moves. -/
structure Turn where
  ticks : Nat
  mover : Mover
deriving DecidableEq, Repr

/-- An own-interface control request in progress (R332): code, argument, result. -/
structure Control where
  code : Nat
  arg : DWord
  /-- None until the request has taken effect. -/
  result : Option Nat
deriving DecidableEq, Repr

/-- The state of the module. -/
structure State where
  -- the model's own fields
  schedule : List Turn
  cur : AgentRef
  rotation : Nat
  freeCount : Nat
  nextTeam : Nat
  nextCluster : Nat
  nextLaunch : Nat
  nextObject : Nat
  nextEvent : Nat
  nextRequest : Nat
  -- time
  tick : Nat
  -- work
  teams : Cells Team
  clusters : Cells Cluster
  launches : Cells Launch
  objects : Cells CodeObject
  -- machine
  cores : Cells Core
  towers : Cells Tower
  columns : Cells Column
  main : Memory
  mainMeta : Cells LineMeta
  mainHist : Cells (List ByteWrite)
  mainReads : Cells (List ReadEv)
  lineKeys : Cells (BitVec 512)
  keys : Cells (BitVec 512)
  floors : Cells (BitVec 20 × BitVec 20)
  /-- The ranges of the populated second-tier ports: base and size (R325). -/
  tier : List (Nat × Nat)
  badLines : List (Place × Nat)
  /-- Coolant flows (R333). -/
  coolant : Bool
  banks : List (ArrayRef × Banks)
  -- system
  vis : Cells Vi
  controls : Cells Control
  partitions : Cells Partition
  boot : Boot
  flash : List FlashRec
  seed : BitVec 512
  identity : BitVec 512
  rollback : Nat
  /-- The last attestation report and its signature. -/
  attested : Option (List Byte × BitVec 512)
  errorLog : List (Nat × Nat)
  escalations : List (Nat × List Byte)
  -- fabric
  module : Nat
  peers : Cells Peer
  requests : Cells Request
  routes : Cells (List (Nat × Nat))
  nextRoutes : Cells (List (Nat × Nat))
  epoch : Nat
  /-- Sources have switched to the new tables, and the old ones are not yet freed (R353). -/
  switched : Bool
  ports : List Nat
  /-- The old value that the last remote atomic answered, with the module it goes to (R352). -/
  remoteOld : Option (Nat × DWord)
deriving DecidableEq, Repr

-- Values of a unit nothing has touched.
def Group.blank : Group :=
  { v := [], s := [], k := [], q := [], tokens := [], live := 0, sat := 0, sp := 0xC000, ms := 0, rmode := 0, gang := none,
    unfenced := 0, row := 0, budget := 0, placed := 0, priority := 0, issuedAt := 0, idleAt := 0, boosted := false, spinning := false, missing := [],
    msRecords := [], spill := [], clock := 0, vec := [], rel := none, wide := none, legCount := 0, legEnded := false, held := [] }
def Agent.blank : Agent :=
  { kind := .group, host := 0, lanes := 0, positions := [], k0 := 0, pc := 0, rest := 0, stack := [], status := .ready, depth := 0,
    inRegion := false, info := none, progress := none, struck := [], before := [], issued := none, live := none, view := 0, seen := [], seenIds := [], relSnap := none,
    watch := none, stopWaived := false }
def Team.blank : Team :=
  { launch := 0, node := 0, index := 0, gen := 0, groupsN := 0, lanesN := 0, cluster := 0, position := 0, ctxSlot := 0,
    status := .evicted, core := 0, logical := 0, teamSlot := 0, since := 0, evictedAt := 0, held := false, preempt := false, linesSaved := false,
    sharedSaved := false, writeBack := false, poolAt := none, escalated := false, groups := [], agents := [], nextAgent := 32, layouts := [],
    caches := [], lrecs := [], handles := [], rdvs := [], regions := [], sharedSize := 0, shared := [], full := [], metas := [],
    hist := [], reads := [], copies := [], nextCopy := 0, done := [], store := [], lost := [], cmds := [], latches := [], tclock := 0,
    tvec := [], modvec := [], version := 0 }
def Obs.blank : Obs := ⟨0, [], []⟩
def Outcome.none : Outcome := ⟨0, false, 0, 0⟩
def Fetch.blank : Fetch := ⟨[], Outcome.none, 0, Obs.blank, false, false⟩
def Copy.blank : Copy :=
  { kind := .cpy, accepted := false, remote := Option.none, order := 0, cls := 0, dst := 0, hd := 0, dc := [], src := 0, hs := 0, sc := [], bitmap := 0,
    hb := 0, run := 0, runWords := 0, chunks := 0, started := 0, landed := [], outcomes := [], targets := [], delivered := [], fetched := [],
    exponent := 0, span := 0, ident := 0x3FFFF, clocks := ⟨0, 0, 0⟩, gvec := [], tvec := [], view := 0, snaps := [], obs := [], pc := 0, group := 0 }
def Region.blank : Region :=
  { cont := 0, policy := 0, parts := [], handles := [], descs := [], members := [], blocks := [], masks := [], budget := 0, frags := [], waiting := [],
    views := 0, ended := 0 }
def Cluster.blank : Cluster :=
  { launch := 0, node := 0, w := 1, h := 1, tower := 0, layer := 0, x0 := 0, y0 := 0, teams := [], slot := none, epoch := 0,
    binding := [], rdv := none, arrived := [], offsets := [], straggler := none }
def Launch.blank : Launch :=
  { vi := 0, number := 0, serial := false, determinate := false, locked := false, overpass := false, held := false, mode := 0, cached := false,
    entry := 0, object := 0, grid := 0, context := 0, slots := 0, bins := 0, ring := 0, ringLog := 0, vectors := 0, completion := 0,
    tag := 0, args := 0, owner := 0, start := 0, nextEntry := 0, queues := [], formed := 0, usedSlots := [], cursor := 0,
    counters := [], dropped := 0, unobserved := 0, records := 0, sequence := 0, kill := none, lockLost := false, commits := 0,
    idle := [] }
def Node.blank : Node :=
  { kernel := 0, groups := 1, lanes := 1, producer := 0, legacy := false, shm := 1, w := 1, h := 1, cap := 1, coalesce := 1,
    timer := 0, succ := [], roles := [] }
def Kernel.blank : Kernel := { first := 0, words := 0, handler := none, layouts := [] }
def CodeObject.blank : CodeObject :=
  { vi := 0, placement := 0, size := 0, words := 0, data0 := 0, kernels := [], nodes := [] }
/-- A core at 1.2 GHz with nothing on it (R2, R141). -/
def Core.blank : Core :=
  { mhz := 1200, nextMhz := 1200, cause := 0, asleep := false, idleSince := 0, stall := 0, deficits := [], visit := 3, paid := false, ceiling := 1350,
    queue := [], histogram := [], pool := [], swap := none }
/-- A tower with its 8 elevators in service (R225), no limit passed, and the power limit of R333. -/
def Tower.blank : Tower :=
  { readers := [], slots := [], proxies := [], watts := 0, die := 0, outlet := 0, powerLimit := 750, dieLimit := 0, outletLimit := 0, dieStop := 0, outletStop := 0, powered := false, thermal := false,
    stepped := 0, capturing := false, elevators := [0, 1, 2, 3, 4, 5, 6, 7], meshRoutes := [0, 1, 2, 3, 4, 5, 6, 7], meshNext := none, meshEpoch := 0, meshTraffic := [], move := none }
def Column.blank : Column := { bytes := [], metas := [], hist := [], reads := [] }
/-- The reset column of R327, R328 and R335. -/
def Vi.blank : Vi :=
  { ringbase := 0, ringsize := 0, doorbell := 0, consumer := 0, irq := 0, root := 0, ctl := 0, arg := 0, mt := [], wmCtl := 0,
    wmRing := 0, wmProd := 0, wmCons := 0, wmOwner := 0, wmCbase := 0, wmStop := 0, wmSarg := 0, wmWatch := 0, wmWlen := 0,
    wmDropped := 0, captures := [], counters := [], tlb := [], partition := 0, halted := [] }
/-- A partition with nothing assigned (R326, R347, R348). -/
def Partition.blank : Partition :=
  { grid := [], remap := [], ranges := [], keySlots := [], systemCores := [], poolBase := 0, poolSize := 0, shadow := none, image := [], booted := [], locked := false, wantLocked := none, apertures := [],
    flows := [], reach := [] }
def Peer.blank : Peer := { memory := [], hist := [], reads := [], size := 0, reach := [], linkUp := false }
def Request.blank : Request :=
  { source := 0, dest := 0, partition := 0, flows := [], led := [], epoch := 0, reads := [], writes := [],
    bytes := [], answers := [], sentAt := 0, transit := true, arrived := false, state := .acked, answer := .performed, order := 0, core := 0, ident := 0x3FFFF,
    clocks := ⟨0, 0, 0⟩, snaps := [], release := none, wide := none, name := [], view := 0, losses := [], race := none, cluster := 0, mode := 0, chunk := none }
def Banks.blank : Banks := { ticks := [], retired := [], spareUsed := false, rebuilding := false, degraded := false }

/-- The module right after reset, before its boot code runs (R331): no partition, every interface
register 0, all memory unlisted. -/
def State.reset : State :=
  { schedule := [], cur := ⟨0, 0⟩, rotation := 0, freeCount := 0, nextTeam := 1, nextCluster := 1, nextLaunch := 1, nextObject := 1,
    nextEvent := 1, nextRequest := 1, tick := 0, teams := [], clusters := [], launches := [], objects := [], cores := [],
    towers := [], columns := [], main := [], mainMeta := [], mainHist := [], mainReads := [], lineKeys := [], keys := [], floors := [],
    tier := [], badLines := [], coolant := true, banks := [], vis := [], controls := [], partitions := [], boot := .off, flash := [], seed := 0, identity := 0,
    rollback := 0, attested := none, errorLog := [], escalations := [], module := 0, peers := [], requests := [], routes := [],
    nextRoutes := [], epoch := 0, switched := false, ports := [0, 1, 2, 3, 4, 5, 6, 7, 8, 9, 10, 11, 12, 13, 14, 15, 16, 17, 18, 19, 20, 21, 22, 23],
    remoteOld := none }

end Sys2Proof.Machine
end

