-- ==== Sys2Proof/Machine/Cells.lean ====
section
/-! DEFINITION. Finite maps in canonical form, byte memories, and the module's parts as accessors over
State: each part has one reader and one writer. -/

namespace Sys2Proof.Machine

/-- What a map holds at a key; d at a key it does not list. -/
def cellGet {β : Type} (d : β) : Cells β → Nat → β
  | [], _ => d
  | (a, x) :: m, k => if a = k then x else cellGet d m k

/-- A map lists a key. -/
def cellHas {β : Type} : Cells β → Nat → Bool
  | [], _ => false
  | (a, _) :: m, k => a == k || cellHas m k

/-- The map with an entry at a key, keys kept rising. -/
def cellPut {β : Type} : Cells β → Nat → β → Cells β
  | [], k, v => [(k, v)]
  | (a, x) :: m, k, v => if a < k then (a, x) :: cellPut m k v else if a = k then (k, v) :: m else (k, v) :: (a, x) :: m

/-- The map without a key. -/
def cellDel {β : Type} (m : Cells β) (k : Nat) : Cells β := m.filter fun p => p.1 != k

/-- The map reading v at a key: an entry equal to the default is not listed. -/
def cellSet {β : Type} [DecidableEq β] (d : β) (m : Cells β) (k : Nat) (v : β) : Cells β :=
  if v = d then cellDel m k else cellPut m k v

/-- The entry at a key changed by f. -/
def cellMod {β : Type} (d : β) (m : Cells β) (k : Nat) (f : β → β) : Cells β := cellPut m k (f (cellGet d m k))

/-- Keys strictly rise. -/
def keysRise {β : Type} : Cells β → Bool
  | [] => true
  | [_] => true
  | (a, _) :: (b, y) :: m => decide (a < b) && keysRise ((b, y) :: m)

/-- An element put into a list before the first one it does not follow, and a list sorted so; equal elements keep their order. -/
def insertBy {β : Type} (le : β → β → Bool) (x : β) : List β → List β
  | [] => [x]
  | y :: l => if le x y then x :: y :: l else y :: insertBy le x l
def sortBy {β : Type} (le : β → β → Bool) : List β → List β
  | [] => []
  | x :: l => insertBy le x (sortBy le l)

/-- The canonical form of a byte memory: addresses strictly rising, and no entry that reads as an
unlisted address does. -/
def Memory.wf (m : Memory) : Bool := keysRise m && m.all fun c => c.2 != 0

/-- What an unlisted address reads as: shared memory and the overpass read zero (R153, R226); main
memory reads zero after power-on (DESIGN CHOICE, log 3). -/
def unlistedByte : Byte := 0

def readByte (m : Memory) (a : Nat) : Byte := cellGet unlistedByte m a
def writeByte (m : Memory) (a : Nat) (b : Byte) : Memory := cellSet unlistedByte m a b
/-- n bytes from an address upward. -/
def readBytes (m : Memory) (a : Nat) : Nat → List Byte
  | 0 => []
  | n + 1 => readByte m a :: readBytes m (a + 1) n
def writeBytes (m : Memory) (a : Nat) : List Byte → Memory
  | [] => m
  | b :: bs => writeBytes (writeByte m a b) (a + 1) bs

/-- A little-endian word in memory (R19, R44). -/
def readLE (m : Memory) (a n : Nat) : Nat := bytesWord (readBytes m a n)

/-- The low n bits of the shifted value, of a bit vector. -/
def bitsOf {w : Nat} (x : BitVec w) (lo n : Nat) : Nat := fld x.toNat lo n

-- Parts of the state.
def State.team (s : State) (t : Nat) : Team := cellGet Team.blank s.teams t
def State.setTeam (s : State) (t : Nat) (x : Team) : State := { s with teams := cellPut s.teams t x }
def State.modTeam (s : State) (t : Nat) (f : Team → Team) : State := s.setTeam t (f (s.team t))
def Team.group (t : Team) (g : Nat) : Group := cellGet Group.blank t.groups g
def Team.setGroup (t : Team) (g : Nat) (x : Group) : Team := { t with groups := cellPut t.groups g x }
def Team.modGroup (t : Team) (g : Nat) (f : Group → Group) : Team := t.setGroup g (f (t.group g))
def Team.agent (t : Team) (a : Nat) : Agent := cellGet Agent.blank t.agents a
def Team.setAgent (t : Team) (a : Nat) (x : Agent) : Team := { t with agents := cellPut t.agents a x }
/-- An agent updated; one that the team does not hold is not made. -/
def Team.modAgent (t : Team) (a : Nat) (f : Agent → Agent) : Team :=
  { t with agents := if cellHas t.agents a then cellPut t.agents a (f (t.agent a)) else t.agents }
def Team.region (t : Team) (slot : Nat) : Region := cellGet Region.blank t.regions slot
def State.cluster (s : State) (c : Nat) : Cluster := cellGet Cluster.blank s.clusters c
def State.setCluster (s : State) (c : Nat) (x : Cluster) : State := { s with clusters := cellPut s.clusters c x }
def State.modCluster (s : State) (c : Nat) (f : Cluster → Cluster) : State := s.setCluster c (f (s.cluster c))
def State.launch (s : State) (l : Nat) : Launch := cellGet Launch.blank s.launches l
def State.setLaunch (s : State) (l : Nat) (x : Launch) : State := { s with launches := cellPut s.launches l x }
def State.modLaunch (s : State) (l : Nat) (f : Launch → Launch) : State := s.setLaunch l (f (s.launch l))
def State.object (s : State) (o : Nat) : CodeObject := cellGet CodeObject.blank s.objects o
def State.core (s : State) (c : Nat) : Core := cellGet Core.blank s.cores c
def State.modCore (s : State) (c : Nat) (f : Core → Core) : State := { s with cores := cellSet Core.blank s.cores c (f (s.core c)) }
def State.tower (s : State) (c : Nat) : Tower := cellGet Tower.blank s.towers c
def State.modTower (s : State) (c : Nat) (f : Tower → Tower) : State :=
  { s with towers := cellSet Tower.blank s.towers c (f (s.tower c)) }
/-- Column number 48·tower + 8·y + x. -/
def State.column (s : State) (c : Nat) : Column := cellGet Column.blank s.columns c
def State.modColumn (s : State) (c : Nat) (f : Column → Column) : State :=
  { s with columns := cellSet Column.blank s.columns c (f (s.column c)) }
def State.vi (s : State) (v : Nat) : Vi := cellGet Vi.blank s.vis v
def State.modVi (s : State) (v : Nat) (f : Vi → Vi) : State := { s with vis := cellPut s.vis v (f (s.vi v)) }
def State.partition (s : State) (p : Nat) : Partition := cellGet Partition.blank s.partitions p
def State.modPartition (s : State) (p : Nat) (f : Partition → Partition) : State :=
  { s with partitions := cellPut s.partitions p (f (s.partition p)) }
def State.peer (s : State) (p : Nat) : Peer := cellGet Peer.blank s.peers p
def State.modPeer (s : State) (p : Nat) (f : Peer → Peer) : State :=
  if cellHas s.peers p then { s with peers := cellMod Peer.blank s.peers p f } else s
def State.request (s : State) (r : Nat) : Request := cellGet Request.blank s.requests r
def State.modRequest (s : State) (r : Nat) (f : Request → Request) : State :=
  { s with requests := cellPut s.requests r (f (s.request r)) }
def State.log (s : State) (code arg : Nat) : State := { s with errorLog := s.errorLog ++ [(code, arg)] }

-- The issuing agent.
def State.curTeam (s : State) : Team := s.team s.cur.team
def State.curAgent (s : State) : Agent := s.curTeam.agent s.cur.agent
def State.curGroup (s : State) : Group := s.curTeam.group s.curAgent.host
def State.curLaunch (s : State) : Launch := s.launch s.curTeam.launch
def State.modCurTeam (s : State) (f : Team → Team) : State := s.modTeam s.cur.team f
def State.modCur (s : State) (f : Agent → Agent) : State := s.modCurTeam fun t => t.modAgent s.cur.agent f
def State.modCurGroup (s : State) (f : Group → Group) : State := s.modCurTeam fun t => t.modGroup s.curAgent.host f
/-- A team's agents and engines take steps: it is resident, and its launch lives (R241, R314). -/
def State.runs (s : State) (team : Nat) : Bool :=
  cellHas s.teams team && (s.team team).status == .resident && (s.launch (s.team team).launch).kill == none
/-- The agent that moves exists and may issue. -/
def State.canIssue (s : State) : Bool := s.runs s.cur.team && cellHas s.curTeam.agents s.cur.agent

/-- Node and object of a team. -/
def State.objectOf (s : State) (t : Team) : CodeObject := s.object (s.launch t.launch).object
def State.nodeOf (s : State) (t : Team) : Node := ((s.objectOf t).nodes[t.node]?).getD Node.blank
def State.kernelOf (s : State) (t : Team) : Kernel := ((s.objectOf t).kernels[(s.nodeOf t).kernel]?).getD Kernel.blank
/-- The virtual interface and partition of a launch. -/
def State.viOf (s : State) (t : Team) : Nat := (s.launch t.launch).vi
def State.partitionOf (s : State) (t : Team) : Nat := (s.vi (s.viOf t)).partition

/-- Scalar register n of the host group of the agent that moves. -/
def State.sreg (s : State) (n : Nat) : DWord := cellGet 0 s.curGroup.s n
def State.setSreg (s : State) (n : Nat) (x : DWord) : State := s.modCurGroup fun g => { g with s := cellSet 0 g.s n x }

/-- Vector register r of home lane 32·g + l. -/
def Team.vreg (t : Team) (gl r : Nat) : Word := cellGet 0 (t.group (gl / 32)).v (32 * r + gl % 32)
/-- Write of a vector register of one lane; the register joins its group's unfenced set (R189). -/
def Team.setVreg (t : Team) (gl r : Nat) (x : Word) : Team :=
  t.modGroup (gl / 32) fun g =>
    { g with v := cellSet 0 g.v (32 * r + gl % 32) x, unfenced := g.unfenced ||| (1 <<< r) }
def State.vreg (s : State) (gl r : Nat) : Word := s.curTeam.vreg gl r
/-- The even-odd pair of a 64-bit lane value (R39). -/
def State.vpair (s : State) (gl r : Nat) : DWord := (s.vreg gl (r + 1)) ++ (s.vreg gl r)

/-- Write f of each lane of a list to register r. -/
def Team.writeLanes (t : Team) (r : Nat) (f : Nat → Word) : List Nat → Team
  | [] => t
  | gl :: ls => (t.setVreg gl r (f gl)).writeLanes r f ls
def State.writeLanes (s : State) (lanes : List Nat) (r : Nat) (f : Nat → Word) : State :=
  s.modCurTeam fun t => t.writeLanes r f lanes

/-- The members of a set in ascending (group, lane) order. -/
def laneList (x : LaneSet) : List Nat :=
  (List.range 32).flatMap fun g =>
    let w := fld x.toNat (32 * g) 32
    if w == 0 then [] else ((List.range 32).filter fun l => w / 2 ^ l % 2 == 1).map fun l => 32 * g + l
/-- Lanes in ascending order of their home lane index (R159, R160, R233): of two lanes of a packed fragment with the same index, the one of the lower group
comes first (DESIGN CHOICE, log 96). -/
def homeOrder (l : List Nat) : List Nat := (List.range 32).flatMap fun h => l.filter fun gl => gl % 32 == h
def laneBit (gl : Nat) : LaneSet := BitVec.ofNat 1024 (2 ^ gl)
def LaneSet.has (x : LaneSet) (gl : Nat) : Bool := x.toNat / 2 ^ gl % 2 == 1
def laneUnion (l : List Nat) : LaneSet := l.foldl (fun a g => a ||| laneBit g) 0
/-- The lanes of one group. -/
def groupLanes (g : Nat) : LaneSet := BitVec.ofNat 1024 ((2 ^ 32 - 1) * 2 ^ (32 * g))
def groupPart (x : LaneSet) (g : Nat) : Nat := fld x.toNat (32 * g) 32
/-- The groups with a member. -/
def groupsOf (x : LaneSet) : List Nat := (List.range 32).filter fun g => groupPart x g != 0

/-- Number of 1 bits below a bound. -/
def countBits (x : Nat) : Nat → Nat
  | 0 => 0
  | n + 1 => x / 2 ^ n % 2 + countBits x n
def population (x : LaneSet) : Nat := ((List.range 32).map fun g => if groupPart x g == 0 then 0 else countBits (groupPart x g) 32).sum

/-- The lanes of a team not yet exited (R40 sr.live). -/
def Team.liveSet (t : Team) : LaneSet :=
  t.groups.foldl (fun a p => a ||| BitVec.ofNat 1024 (p.2.live.toNat * 2 ^ (32 * p.1))) 0

-- Set descriptors (R49 to R52).
def isTeamForm (d : DWord) : Bool := d.toNat / 2 ^ 63 == 1
def localDesc (g mask : Nat) : DWord := BitVec.ofNat 64 (g * 2 ^ 32 + mask)
def teamDesc (pop handle : Nat) : DWord := BitVec.ofNat 64 (2 ^ 63 + pop * 2 ^ 32 + handle)
/-- The members a descriptor names, exited ones cleared (R51). -/
def Team.resolve (t : Team) (d : DWord) : LaneSet :=
  (if isTeamForm d then cellGet 0 t.handles (bitsOf d 0 12)
   else BitVec.ofNat 1024 (bitsOf d 0 32 * 2 ^ (32 * bitsOf d 32 5))) &&& t.liveSet
/-- The lowest handle not in use (R52). -/
def freeHandle (h : Cells LaneSet) : Nat := ((List.range 4096).find? fun i => !cellHas h i).getD 4095

/-- The canonical form of a set (R97): the descriptor, and the team with a handle allocated when it is
team-form. -/
def Team.canonical (t : Team) (host : Nat) (x : LaneSet) : Team × DWord :=
  match groupsOf x with
  | [] => (t, localDesc host 0)
  | [g] => (t, localDesc g (groupPart x g))
  | _ => let h := freeHandle t.handles
    ({ t with handles := cellPut t.handles h x }, teamDesc (population x) h)
/-- The handle of a descriptor freed. -/
def Team.release (t : Team) (d : DWord) : Team :=
  if isTeamForm d then { t with handles := cellDel t.handles (bitsOf d 0 12) } else t

/-- Lanes held by trap fragments other than one agent: they have left its k0 (R117). The agents of a team region name one entry set, so lanes
struck in one fragment leave k0 as every agent of the team reads it (DESIGN CHOICE, log 97). -/
def Team.away (t : Team) (a : Nat) : LaneSet :=
  t.agents.foldl (fun x p => match p.2.kind with
    | .trap _ _ => if p.1 != a then x ||| (p.2.lanes &&& ~~~(t.agent a).lanes) else x
    | _ => x) 0
/-- The entry set of an agent (R97): its k0 without exited lanes and lanes that left in trap fragments. -/
def Team.k0Set (t : Team) (a : Nat) : LaneSet := t.resolve (t.agent a).k0 &&& ~~~(t.away a)
/-- The k0 descriptor of an agent as a read finds it: exited members are cleared from it (R51), and so are lanes that left in trap fragments
(R117). -/
def Team.k0Desc (t : Team) (a : Nat) : DWord :=
  let d := (t.agent a).k0
  if isTeamForm d then teamDesc (population (t.k0Set a)) (bitsOf d 0 12)
  else localDesc (bitsOf d 32 5) (groupPart (t.k0Set a) (bitsOf d 32 5))

/-- The whole set a k register of the issuing agent holds. -/
def State.kset (s : State) (k : Nat) : LaneSet :=
  if k == 0 then s.curTeam.k0Set s.cur.agent else s.curTeam.resolve (cellGet 0 s.curGroup.k k)
/-- The members of a k register that the issuing agent holds (R50, R73). -/
def State.members (s : State) (k : Nat) : LaneSet := s.kset k &&& s.curAgent.lanes &&& s.curTeam.liveSet
def State.lanes (s : State) (k : KReg) : List Nat := laneList (s.members k.toNat)

/-- A set written into a k register in canonical form; the new handle is allocated before the old one is
freed (R52, R97). An old descriptor that names the handle just taken, which no run makes, frees nothing. -/
def Team.setK (t : Team) (host k : Nat) (x : LaneSet) : Team :=
  let c := t.canonical host x
  let old := cellGet 0 (t.group host).k k
  let t := c.1.modGroup host fun g => { g with k := cellSet 0 g.k k c.2 }
  if isTeamForm c.2 && bitsOf old 0 12 == bitsOf c.2 0 12 then t else t.release old
def State.setK (s : State) (k : Nat) (x : LaneSet) : State := s.modCurTeam fun t => t.setK s.curAgent.host k x

/-- A read of a k register first clears exited members from its descriptor and image (R51). -/
def Team.clearDesc (t : Team) (d : DWord) : Team × DWord :=
  let x := t.resolve d
  if isTeamForm d then
    let h := bitsOf d 0 12
    ({ t with handles := cellPut t.handles h x }, teamDesc (population x) h)
  else (t, localDesc (bitsOf d 32 5) (groupPart x (bitsOf d 32 5)))
/-- Exited members leave the image that an agent's k0 names; what else k0 loses is seen when it is read (k0Desc). -/
def Team.clearEntry (t : Team) (a : Nat) : Team :=
  let h := bitsOf (t.agent a).k0 0 12
  if isTeamForm (t.agent a).k0 && cellHas t.handles h then { t with handles := cellPut t.handles h (cellGet 0 t.handles h &&& t.liveSet) } else t
def State.clearK (s : State) (k : Nat) : State :=
  if k == 0 then
    if isTeamForm s.curAgent.k0 && cellGet 0 s.curTeam.handles (bitsOf s.curAgent.k0 0 12) &&& ~~~s.curTeam.liveSet != 0 then
      s.modCurTeam fun t => t.clearEntry s.cur.agent
    else s
  else
    let d := cellGet 0 s.curGroup.k k
    if isTeamForm d && cellGet 0 s.curTeam.handles (bitsOf d 0 12) == s.curTeam.resolve d then s
    else s.modCurTeam fun t =>
      let c := t.clearDesc d
      c.1.modGroup s.curAgent.host fun g => { g with k := cellSet 0 g.k k c.2 }

end Sys2Proof.Machine
end

