-- ==== Sys2Proof/Machine/Crypt.lean ====
section
/-! DEFINITION. The two published functions that the manual names and does not spell out: AES-XTS-256 on a line of main memory (21 R330) and SHAKE256 (21 R331).
Their tables and steps are those of the public standards (PRESUMED, log 137). -/

namespace Sys2Proof.Machine

-- The field of 256 elements.
/-- A byte times x. -/
def gfDouble (a : Byte) : Byte := if a.msb then (a <<< 1) ^^^ 0x1B else a <<< 1
/-- The product of two bytes. -/
def gfMul (a b : Byte) : Byte :=
  ((List.range 8).foldl (fun (p : Byte × Byte) i => (if b.getLsbD i then p.1 ^^^ p.2 else p.1, gfDouble p.2)) (0, a)).1
/-- The inverse of a byte, and 0 of 0: its power 254. -/
def gfInverse (a : Byte) : Byte :=
  ((List.range 7).foldl (fun (p : Byte × Byte) _ => let q := gfMul p.2 p.2; (gfMul p.1 q, q)) (1, a)).1

-- AES with a key of 32 bytes; a block is 16 bytes, four to a column.
def subByte (a : Byte) : Byte :=
  let b := gfInverse a
  b ^^^ b.rotateLeft 1 ^^^ b.rotateLeft 2 ^^^ b.rotateLeft 3 ^^^ b.rotateLeft 4 ^^^ 0x63
def unsubByte (a : Byte) : Byte := gfInverse (a.rotateLeft 1 ^^^ a.rotateLeft 3 ^^^ a.rotateLeft 6 ^^^ 0x05)
def xorBytes (a b : List Byte) : List Byte := a.zipWith (· ^^^ ·) b
/-- Byte i of a list of bytes. -/
def byteOf (l : List Byte) (i : Nat) : Byte := (l[i]?).getD 0
/-- The next word of the key schedule, the latest first. -/
def scheduleStep (l : List (List Byte)) (i : Nat) : List (List Byte) :=
  let last := l.headD []
  let mixed := match i % 8 with
    | 0 => xorBytes ((last.drop 1 ++ last.take 1).map subByte) [(List.range (i / 8 - 1)).foldl (fun (c : Byte) _ => gfDouble c) 1, 0, 0, 0]
    | 4 => last.map subByte
    | _ => last
  xorBytes ((l[7]?).getD []) mixed :: l
/-- The 15 round keys, end to end. -/
def roundKeys (key : List Byte) : List Byte :=
  let first := (List.range 8).map fun i => (key.drop (4 * i)).take 4
  ((List.range 52).foldl (fun l i => scheduleStep l (i + 8)) first.reverse).reverse.flatten
def addKey (keys : List Byte) (round : Nat) (b : List Byte) : List Byte := xorBytes b ((keys.drop (16 * round)).take 16)
/-- Row r of the columns moves by r places times n. -/
def shiftRows (n : Nat) (b : List Byte) : List Byte := (List.range 16).map fun i => byteOf b ((i + 4 * n * (i % 4)) % 16)
/-- Every column times a polynomial. -/
def mixColumns (poly : List Byte) (b : List Byte) : List Byte :=
  (List.range 16).map fun i => poly.zipIdx.foldl (fun x p => x ^^^ gfMul p.1 (byteOf b (i / 4 * 4 + (i + p.2) % 4))) 0
def aesEncrypt (key b : List Byte) : List Byte :=
  let keys := roundKeys key
  let b := (List.range 13).foldl (fun b i => addKey keys (i + 1) (mixColumns [2, 3, 1, 1] (shiftRows 1 (b.map subByte)))) (addKey keys 0 b)
  addKey keys 14 (shiftRows 1 (b.map subByte))
def aesDecrypt (key b : List Byte) : List Byte :=
  let keys := roundKeys key
  let b := (List.range 13).foldl (fun b i => mixColumns [14, 11, 13, 9] (addKey keys (13 - i) ((shiftRows 3 b).map unsubByte))) (addKey keys 14 b)
  addKey keys 0 ((shiftRows 3 b).map unsubByte)

-- XTS over the four blocks of a line.
/-- A tweak times x. -/
def tweakDouble (t : Nat) : Nat := if t < 2 ^ 127 then 2 * t else (2 * t % 2 ^ 128) ^^^ 0x87
/-- A line under a block function: a key slot holds the data key in its low half and the tweak key in its high half, and the tweak is the line's physical
address (R330; the halves are DESIGN CHOICE, log 137). -/
def xtsLine (block : List Byte → List Byte → List Byte) (key : BitVec 512) (line : Nat) (bytes : List Byte) : List Byte :=
  let data := wordBytes (key.toNat % 2 ^ 256) 32
  let tweak := bytesWord (aesEncrypt (wordBytes (key.toNat / 2 ^ 256) 32) (wordBytes (64 * line) 16))
  (List.range 4).flatMap fun j =>
    let t := wordBytes ((List.range j).foldl (fun t _ => tweakDouble t) tweak) 16
    xorBytes (block data (xorBytes ((bytes.drop (16 * j)).take 16) t)) t
/-- What a line written under one key reads as under another (R330). -/
def rekeyLine (written read : BitVec 512) (line : Nat) (bytes : List Byte) : List Byte :=
  xtsLine aesDecrypt read line (xtsLine aesEncrypt written line bytes)

-- SHAKE256: lane (x, y) of the sponge is element x + 5 y.
def laneOf (l : List DWord) (x y : Nat) : DWord := (l[x % 5 + 5 * (y % 5)]?).getD 0
def laneMap (f : Nat → Nat → DWord) : List DWord := (List.range 25).map fun i => f (i % 5) (i / 5)
def laneRotations : List Nat := [0, 1, 62, 28, 27, 36, 44, 6, 55, 20, 3, 10, 43, 25, 39, 41, 45, 15, 21, 8, 18, 2, 61, 56, 14]
def roundConstants : List DWord :=
  [0x1, 0x8082, 0x800000000000808A, 0x8000000080008000, 0x808B, 0x80000001, 0x8000000080008081, 0x8000000000008009] ++
  [0x8A, 0x88, 0x80008009, 0x8000000A, 0x8000808B, 0x800000000000008B, 0x8000000000008089, 0x8000000000008003] ++
  [0x8000000000008002, 0x8000000000000080, 0x800A, 0x800000008000000A, 0x8000000080008081, 0x8000000000008080, 0x80000001, 0x8000000080008008]
def spongeRound (a : List DWord) (constant : DWord) : List DWord :=
  let c := (List.range 5).map fun x => (List.range 5).foldl (fun (z : DWord) y => z ^^^ laneOf a x y) 0
  let a := laneMap fun x y => laneOf a x y ^^^ laneOf c (x + 4) 0 ^^^ (laneOf c (x + 1) 0).rotateLeft 1
  let b := laneMap fun x y => (laneOf a (x + 3 * y) x).rotateLeft ((laneRotations[(x + 3 * y) % 5 + 5 * x]?).getD 0)
  laneMap fun x y =>
    let z := laneOf b x y ^^^ (~~~ laneOf b (x + 1) y &&& laneOf b (x + 2) y)
    if x + y = 0 then z ^^^ constant else z
def spongeBytes : Nat := 136
/-- The message with its closing bits, in whole blocks. -/
def spongePad (m : List Byte) : List Byte :=
  let n := spongeBytes - m.length % spongeBytes
  m ++ if n = 1 then [0x9F] else 0x1F :: List.replicate (n - 2) 0 ++ [0x80]
/-- The first 64 bytes of SHAKE256. -/
def shake256 (m : List Byte) : List Byte :=
  let p := spongePad m
  let out := (List.range (p.length / spongeBytes)).foldl (fun a i =>
    let block := (p.drop (spongeBytes * i)).take spongeBytes
    let lane (j : Nat) : DWord := BitVec.ofNat 64 (bytesWord ((block.drop (8 * j)).take 8))
    roundConstants.foldl spongeRound (laneMap fun x y => laneOf a x y ^^^ lane (x + 5 * y))) (List.replicate 25 0)
  (out.take 8).flatMap fun x => wordBytes x.toNat 8

end Sys2Proof.Machine
end

