-- ==== Sys2Proof/Machine/Translate.lean ====
section
/-! DEFINITION. Main memory as the device reaches it: page-table walks (21 R329, 18 R317), key slots (21
R330), the memory traffic counters (21 R328), and the code words an agent fetches (17 R284, R285). -/

namespace Sys2Proof.Machine

/-- The table levels: number, lowest index bit, index width (R329). -/
def walkLevels : List (Nat × Nat × Nat) := [(1, 39, 9), (2, 30, 9), (3, 21, 9), (4, 16, 5)]

/-- A walk from a table: the leaf's page bits and entry, or error code 1 (R329). -/
def State.walk (s : State) (va : Nat) : List (Nat × Nat × Nat) → Nat → Except Nat (Nat × Nat)
  | [], _ => .error 1
  | (level, lo, n) :: rest, table =>
    let e := readLE s.main (table + 8 * fld va lo n) 8
    if fld e 0 1 == 0 || fld e 11 1 != 0 || fld e 48 16 != 0 then .error 1
    else if fld e 1 1 == 1 then
      if level == 1 || (fld e 12 36 * 4096) % 2 ^ lo != 0 then .error 1 else .ok (lo, e)
    else if level == 4 then .error 1
    else s.walk va rest (fld e 12 36 * 4096)

/-- The leaf of a virtual address of an interface: a cached translation (R317), else the walk. -/
def State.leafOf (s : State) (vi va : Nat) : Except Nat (Nat × Nat) :=
  if va / 2 ^ 48 != 0 then .error 1
  else match (s.vi vi).tlb.find? fun x => x.1 == va / 2 ^ x.2.1 with
    | some x => .ok (x.2.1, x.2.2.toNat)
    | none => s.walk va walkLevels (s.vi vi).root.toNat

/-- First address of the fabric aperture (R347). -/
def apertureBase : Nat := 2 ^ 47
/-- First address of the second tier: the HBM lies below it (R325; the places of the ranges are DESIGN CHOICE, log 12). -/
def tierBase : Nat := 2 ^ 39
/-- Bytes of the two HBM stacks of a tower (R2, R325), and of the largest second tier. -/
def hbmBytes : Nat := 128 * 10 ^ 9
def tierBytes : Nat := 6144 * 10 ^ 9
/-- A physical address of this module's memory: a tower's pair of stacks, or a populated port of the second tier. -/
def State.populated (s : State) (pa : Nat) : Bool :=
  if pa < tierBase then decide (pa % 2 ^ 37 < hbmBytes) else s.tier.any fun r => decide (r.1 ≤ pa ∧ pa < r.1 + r.2)

/-- Translation of one address for a read or a write: the physical address and key slot, or error code 1 or 2
(R216, R329). A page where no memory is populated translates to nothing (DESIGN CHOICE, log 12). -/
def State.translate (s : State) (vi va : Nat) (write : Bool) : Except Nat (Nat × Nat) :=
  match s.leafOf vi va with
  | .error c => .error c
  | .ok (bits, e) =>
    let pa := fld e 12 36 * 4096 + va % 2 ^ bits
    if fld e (if write then 2 else 3) 1 == 0 then .error 2
    else if pa < apertureBase && !s.populated pa then .error 1
    else .ok (pa, fld e 4 7)
/-- Translation of an access of the device itself, or of an instruction fetch: only copies reach another module (R352), so that an aperture address is
no mapping (DEDUCED, log 105). -/
def State.translateOwn (s : State) (vi va : Nat) (write : Bool) : Except Nat (Nat × Nat) :=
  match s.translate vi va write with
  | .ok p => if apertureBase ≤ p.1 then .error 1 else .ok p
  | .error c => .error c

def State.keyOf (s : State) (slot : Nat) : BitVec 512 := cellGet 0 s.keys slot

/-- A byte that stands in main memory, seen under a key slot (R330). -/
def State.keyed (s : State) (slot pa : Nat) (b : Byte) : Byte :=
  let held := cellGet 0 s.lineKeys (pa / 64)
  if held = s.keyOf slot then b
  else byteOf (rekeyLine held (s.keyOf slot) (pa / 64) ((readBytes s.main (pa / 64 * 64) 64).set (pa % 64) b)) (pa % 64)
/-- A byte of main memory under a key slot. -/
def State.readKeyed (s : State) (slot pa : Nat) : Byte := s.keyed slot pa (readByte s.main pa)

/-- A byte written under a key slot. A line is one data unit (R330): the other bytes of a line that stood under
another key are first read under this one. -/
def State.writeKeyed (s : State) (slot pa : Nat) (b : Byte) : State :=
  let line := pa / 64
  let main :=
    if cellGet 0 s.lineKeys line = s.keyOf slot then s.main
    else writeBytes s.main (64 * line) ((List.range 64).map fun i => s.readKeyed slot (64 * line + i))
  { s with main := writeByte main pa b, lineKeys := cellSet 0 s.lineKeys line (s.keyOf slot) }

/-- n bytes added to memory traffic counter i of an interface, saturating (R328). -/
def State.countMt (s : State) (vi i n : Nat) : State :=
  s.modVi vi fun v => { v with mt := cellSet 0 v.mt i (BitVec.ofNat 64 (min ((cellGet 0 v.mt i).toNat + n) (2 ^ 64 - 1))) }
/-- The counter of an access to a local physical address (R328). -/
def mtIndex (pa : Nat) (write : Bool) : Nat := (if pa < tierBase then 0 else 2) + if write then 1 else 0

/-- Bytes read at a virtual address of an interface, each under the key of its leaf. -/
def State.readVirt (s : State) (vi va : Nat) : Nat → Except Nat (List Byte)
  | 0 => .ok []
  | n + 1 => match s.translateOwn vi va false with
    | .error c => .error c
    | .ok (pa, key) => match s.readVirt vi (va + 1) n with
      | .error c => .error c
      | .ok bs => .ok (s.readKeyed key pa :: bs)

/-- Bytes of a virtual range of an interface lie at n physical bytes. -/
def State.rangeHas (s : State) (vi va size pa n : Nat) : Bool :=
  (List.range ((va + size + 65535) / 65536 - va / 65536)).any fun k =>
    let lo := max va (65536 * (va / 65536 + k))
    let hi := min (va + size) (65536 * (va / 65536 + k) + 65536)
    match s.leafOf vi lo with
    | .ok (bits, e) =>
      let p := fld e 12 36 * 4096 + lo % 2 ^ bits
      decide (lo < hi) && decide (p < pa + n) && decide (pa < p + (hi - lo))
    | .error _ => false
/-- The code words of a loaded object (R37). -/
def State.inCode (s : State) (pa n : Nat) : Bool := s.objects.any fun o => s.rangeHas o.2.vi o.2.placement (8 * o.2.words) pa n

/-- A range holds code words of a loaded object, which are mapped read-only to every engine of the device (R37). -/
def State.overCode (s : State) (vi a n : Nat) : Bool :=
  (List.range ((a + n + 65535) / 65536 - a / 65536)).any fun k =>
    let lo := max a (65536 * (a / 65536 + k))
    let hi := min (a + n) (65536 * (a / 65536 + k) + 65536)
    match s.translateOwn vi lo true with
    | .ok (pa, _) => s.inCode pa (hi - lo)
    | .error _ => false

/-- Bytes written at a virtual address of an interface, outside the abstract machine: they read as initial writes (R279, R343, log 22). -/
def State.writeVirt (s : State) (vi va : Nat) : List Byte → Except Nat State
  | [] => .ok s
  | b :: bs => match s.translateOwn vi va true with
    | .error c => .error c
    | .ok (pa, key) => ({ s.writeKeyed key pa b with mainHist := cellDel s.mainHist pa } : State).writeVirt vi (va + 1) bs

/-- Bytes that the device itself writes: code words are mapped read-only to it (R37). -/
def State.writeOwn (s : State) (vi va : Nat) (bs : List Byte) : Except Nat State := if s.overCode vi va bs.length then .error 2 else s.writeVirt vi va bs

/-- A device access's traffic: mt.dev, and page by page the counter of the memory it reaches (R328). -/
def State.countPages (s : State) (vi va n : Nat) (write : Bool) : State :=
  (List.range ((va + n + 65535) / 65536 - va / 65536)).foldl (fun (s : State) k =>
    let lo := max va (65536 * (va / 65536 + k))
    let hi := min (va + n) (65536 * (va / 65536 + k) + 65536)
    match s.translateOwn vi lo write with
    | .ok (pa, _) => s.countMt vi (mtIndex pa write) (hi - lo)
    | .error _ => s) s
def State.countDev (s : State) (vi va n : Nat) (write : Bool) : State := (s.countMt vi 6 n).countPages vi va n write

/-- A device read: the ring, a bin, the context image, a race area or the save pool (R46, R317). -/
def State.devRead (s : State) (vi va n : Nat) : Except Nat (State × List Byte) :=
  match s.readVirt vi va n with
  | .error c => .error c
  | .ok bs => .ok (s.countDev vi va n false, bs)
/-- A device write. -/
def State.devWrite (s : State) (vi va : Nat) (bs : List Byte) : Except Nat State :=
  match s.writeOwn vi va bs with
  | .error c => .error c
  | .ok s' => .ok (s'.countDev vi va bs.length true)

/-- Word pc of a code object, through its interface's translation (R285, R317). -/
def State.objectWord (s : State) (o : CodeObject) (pc : Nat) : Except Nat DWord :=
  match s.translateOwn o.vi (o.placement + 8 * pc) false with
  | .error c => .error c
  | .ok (pa, key) => .ok (BitVec.ofNat 64 (bytesWord ((List.range 8).map fun i => s.readKeyed key (pa + i))))
/-- A code word of a team's object. -/
def State.codeWord (s : State) (t : Team) (pc : Nat) : Except Nat DWord := s.objectWord (s.objectOf t) pc

/-- A word offset that lies within the object and holds a header word (R31, R32). -/
def State.headerAt (s : State) (t : Team) (pc : Nat) : Option DWord :=
  if pc < (s.objectOf t).words then
    match s.codeWord t pc with
    | .ok w => if isHeader w then some w else none
    | .error _ => none
  else none

/-- The target of a signed word offset from a PC, modulo 2^32 (R26). -/
def target {n : Nat} (pc : Nat) (off : BitVec n) : Nat := (((pc : Int) + off.toInt) % 2 ^ 32).toNat

/-- The continuation of a block header (R30, R32): the word offset of the header that cont names. -/
def State.contOf (s : State) (t : Team) (pc : Nat) : Option Nat :=
  match s.headerAt t pc with
  | none => none
  | some h =>
    if hdrCont h == 0 then none
    else if (s.headerAt t (pc + hdrCont h)).isSome then some (pc + hdrCont h) else none

end Sys2Proof.Machine
end

