-- ==== Sys2Proof/Machine/Metadata.lean ====
section
/-! DEFINITION. Race identities and clocks (16 R262 to R266), the metadata of lines and the reader tables (R267 to R269), and the aging
sweep (R271). -/

namespace Sys2Proof.Machine

/-- The tower of a physical core, in the privileged code of sr.core (R40). -/
def coreTower (c : Nat) : Nat := fld c 7 2
/-- The column above a core: 48·tower + 8·y + x (R226). -/
def coreColumn (c : Nat) : Nat := 48 * coreTower c + 8 * fld c 0 3 + fld c 3 3

def noIdent : BitVec 18 := 0x3FFFF

/-- The race identity of a group (R262); none in a cluster without a slot (R263). -/
def State.ident (s : State) (team g : Nat) : BitVec 18 :=
  let t := s.team team
  let c := s.cluster t.cluster
  match c.slot with
  | none => noIdent
  | some k => BitVec.ofNat 18 (c.tower * 2 ^ 16 + k * 2 ^ 9 + t.position * 2 ^ 5 + g)
def identTower (x : BitVec 18) : Nat := bitsOf x 16 2
def identSlot (x : BitVec 18) : Nat := bitsOf x 9 7
def identPos (x : BitVec 18) : Nat := bitsOf x 5 4
def identGroup (x : BitVec 18) : Nat := bitsOf x 0 5
/-- The module-vector index of an identity's cluster slot (R265). -/
def identCluster (x : BitVec 18) : Nat := bitsOf x 9 9

/-- The team and group that hold an identity now. -/
def State.holder (s : State) (x : BitVec 18) : Option (Nat × Nat) :=
  if x = noIdent then none
  else (s.teams.find? fun p => s.ident p.1 (identGroup x) == x).map fun p => (p.1, identGroup x)

/-- The clocks of a group, its team and its cluster (R264). -/
def State.clocks (s : State) (team g : Nat) : Clocks :=
  let t := s.team team
  ⟨(t.group g).clock, t.tclock, (s.cluster t.cluster).epoch⟩

/-- A coverage loss (R274): a 32-bit saturating counter of the launch. -/
def State.loss (s : State) (launch counter : Nat) : State :=
  if !cellHas s.launches launch then s
  else s.modLaunch launch fun l =>
    { l with counters := cellSet 0 l.counters counter (let c := cellGet 0 l.counters counter; if c = 0xFFFFFFFF then c else c + 1) }


/-- Bytes an error code covers together: a 128-byte row (R156, R226), or a line of main memory. -/
def errorUnit : Place → Nat
  | .main | .peer _ => 64
  | _ => 128
/-- An uncorrectable error stands in the bytes (R319). -/
def State.badAt (s : State) (p : Place) (a n : Nat) : Bool :=
  s.badLines.any fun x => x.1 == p && decide (a / errorUnit p ≤ x.2) && decide (x.2 ≤ (a + n - 1) / errorUnit p)

/-- The 12 bytes of a line's metadata (R267). -/
def LineMeta.bytes (m : LineMeta) : List Byte :=
  wordBytes (m.reader0.token.toNat + m.reader0.mask.toNat * 2 ^ 11 + m.reader1.token.toNat * 2 ^ 15 + m.reader1.mask.toNat * 2 ^ 26 + m.overflow.toNat * 2 ^ 30 +
    m.engine.toNat * 2 ^ 31 + m.wmask.toNat * 2 ^ 32 + m.scope.toNat * 2 ^ 36 + m.wtclk.toNat * 2 ^ 38 + m.wgclk.toNat * 2 ^ 58 + m.writer.toNat * 2 ^ 78) 12
/-- The metadata that 12 bytes hold. -/
def LineMeta.ofBytes (bs : List Byte) : LineMeta :=
  let n := bytesWord bs
  { writer := BitVec.ofNat 18 (fld n 78 18)
    wgclk := BitVec.ofNat 20 (fld n 58 20)
    wtclk := BitVec.ofNat 20 (fld n 38 20)
    scope := BitVec.ofNat 2 (fld n 36 2)
    wmask := BitVec.ofNat 4 (fld n 32 4)
    engine := fld n 31 1 == 1
    overflow := fld n 30 1 == 1
    reader1 := ⟨BitVec.ofNat 4 (fld n 26 4), BitVec.ofNat 11 (fld n 15 11)⟩
    reader0 := ⟨BitVec.ofNat 4 (fld n 11 4), BitVec.ofNat 11 (fld n 0 11)⟩ }

-- Metadata of lines. This state holds none of another module's.
def State.metaAt (s : State) : Place → Nat → LineMeta
  | .shared t, l => cellGet LineMeta.reset (s.team t).metas l
  | .column t c, l => cellGet LineMeta.reset (s.column (48 * t + c)).metas l
  | .main, l => cellGet LineMeta.reset s.mainMeta l
  | .peer _, _ => LineMeta.reset
def State.putMeta (s : State) (p : Place) (l : Nat) (m : LineMeta) : State :=
  match p with
  | .shared t => s.modTeam t fun t => { t with metas := cellSet LineMeta.reset t.metas l m }
  | .column t c => s.modColumn (48 * t + c) fun x => { x with metas := cellSet LineMeta.reset x.metas l m }
  | .main => { s with mainMeta := cellSet LineMeta.reset s.mainMeta l m }
  | .peer _ => s
/-- The tower whose reader table serves a line (R268); the owner of a physical address is DESIGN CHOICE (log 12). -/
def State.placeTower (s : State) : Place → Nat → Nat
  | .shared t, _ => (s.cluster (s.team t).cluster).tower
  | .column t _, _ => t
  | .main, a | .peer _, a => a / 2 ^ 37 % 4
/-- A stored access as the metadata holds it. -/
structure Stored where
  ident : BitVec 18
  gclk : BitVec 20
  tclk : BitVec 20
  scope : BitVec 2
  engine : Bool
  mask : Nat
  write : Bool

/-- The stored accesses of a line. -/
def LineMeta.stored (m : LineMeta) : Stored :=
  ⟨m.writer, m.wgclk, m.wtclk, m.scope, m.engine, m.wmask.toNat, true⟩
def State.storedReader (s : State) (tower : Nat) (e : Epoch) : Option Stored :=
  if e.token == 0x7FF then none
  else
    let r := cellGet ⟨noIdent, 0, 0, 0, false, 0⟩ (s.tower tower).readers e.token.toNat
    some ⟨r.ident, r.gclk, r.tclk, r.scope, r.engine, e.mask.toNat, false⟩

/-- A reader epoch of a table entry is given up (R268). -/
def State.dropReader (s : State) (tower : Nat) (e : Epoch) : State :=
  if e.token == 0x7FF then s
  else s.modTower tower fun t =>
    let r := cellGet ⟨noIdent, 0, 0, 0, false, 0⟩ t.readers e.token.toNat
    { t with readers := if r.count ≤ 1 then cellDel t.readers e.token.toNat else cellPut t.readers e.token.toNat { r with count := r.count - 1 } }
def emptyEpoch : Epoch := ⟨0, 0x7FF⟩
/-- The stored readers of a line. -/
def State.readersOf (s : State) (tower : Nat) (m : LineMeta) : List Stored := [m.reader0, m.reader1].filterMap (s.storedReader tower)
/-- What a line held at a moment: its metadata, and the readers they name. -/
abbrev Before := Place → Nat → LineMeta × List Stored
/-- Every line as it stands. -/
def State.linesNow (s : State) : Before := fun p l => let m := s.metaAt p l
                                                     (m, s.readersOf (s.placeTower p (64 * l)) m)

-- The aging sweep (R271).
/-- The proxy slot that an identity names (R277). -/
def State.proxyOf (s : State) (x : BitVec 18) : Option Proxy :=
  if x = noIdent then none else (s.tower (identTower x)).proxies.find? fun p => p.slot == identSlot x
/-- The current group clock of an identity: its holder's, the latest that a proxy's writes have carried, or its floor when nothing holds it. -/
def State.clockNow (s : State) (x : BitVec 18) : BitVec 20 :=
  match s.holder x with
  | some h => ((s.team h.1).group h.2).clock
  | none => match s.proxyOf x with
    | some p => cellGet 0 p.gclks x.toNat
    | none => (cellGet (0, 0) s.floors x.toNat).1
/-- A stored clock lies 2^18 or more behind its identity's current clock. -/
def State.aged (s : State) (x : BitVec 18) (clk : BitVec 20) : Bool := x != noIdent && decide (2 ^ 18 ≤ (s.clockNow x - clk).toNat)
def LineMeta.noWriter (m : LineMeta) : LineMeta := { m with writer := noIdent, wgclk := 0, wtclk := 0, scope := 0, wmask := 0, engine := false }
/-- The launch of an identity: that of the cluster whose slot it names, or, of a proxy identity, of the remote cluster where it is this module's own
(R262, R277). Another module's launch stands outside this state. -/
def State.launchOf (s : State) (x : BitVec 18) : Option Nat :=
  if x = noIdent then none
  else match s.clusters.find? fun c => c.2.tower == identTower x && c.2.slot == some (identSlot x) with
    | some c => some c.2.launch
    | none => (s.proxyOf x).bind fun p => if p.source == s.module && cellHas s.clusters p.cluster then some (s.cluster p.cluster).launch else none
/-- A coverage loss of the launch of an identity. -/
def State.lossOf (s : State) (x : BitVec 18) (counter : Nat) : State :=
  match s.launchOf x with
  | some l => s.loss l counter
  | none => s
/-- An aged reader epoch is retired. -/
def State.sweepReader (s : State) (tower : Nat) (e : Epoch) : State × Epoch :=
  match s.storedReader tower e with
  | some x => if s.aged x.ident x.gclk then ((s.lossOf x.ident 3).dropReader tower e, emptyEpoch) else (s, e)
  | none => (s, e)
/-- The aging sweep passes a line. -/
def State.sweepLine (s : State) (place : Place) (line : Nat) : State :=
  let m := s.metaAt place line
  let tower := s.placeTower place (64 * line)
  let w := s.aged m.writer m.wgclk
  let s := if w then s.lossOf m.writer 3 else s
  let r0 := s.sweepReader tower m.reader0
  let r1 := r0.1.sweepReader tower m.reader1
  let new := { (if w then m.noWriter else m) with reader0 := r0.2, reader1 := r1.2 }
  if new = m then r1.1 else r1.1.putMeta place line new
/-- The lines of every place that hold metadata. -/
def State.metaLines (s : State) : List (Place × Nat × LineMeta) :=
  (s.teams.flatMap fun t => t.2.metas.map fun m => (.shared t.1, m.1, m.2)) ++
    (s.columns.flatMap fun c => c.2.metas.map fun m => (.column (c.1 / 48) (c.1 % 48), m.1, m.2)) ++
    s.mainMeta.map fun m => (.main, m.1, m.2)
/-- A line holds a clock of an identity that a new clock would pass by 2^19. -/
def State.outrun (s : State) (x : BitVec 18) (new : BitVec 20) (p : Place × Nat × LineMeta) : Bool :=
  let far (y : BitVec 18) (c : BitVec 20) : Bool := y == x && decide (2 ^ 19 ≤ (new - c).toNat)
  far p.2.2.writer p.2.2.wgclk || (s.readersOf (s.placeTower p.1 (64 * p.2.1)) p.2.2).any fun r => far r.ident r.gclk
/-- A release waits until the sweep has passed the clocks it would outrun (R271): the model lets the sweep pass the lines that hold them. -/
def State.awaitSweep (s : State) (x : BitVec 18) (new : BitVec 20) : State :=
  if x = noIdent then s
  else (s.metaLines.filter (s.outrun x new)).foldl (fun (s : State) p => s.sweepLine p.1 p.2.1) s

end Sys2Proof.Machine
end

