-- ==== Sys2Proof/Machine/Order.lean ====
section
/-! DEFINITION. Order: releases and acquires of the abstract machine and
of the race hardware (15 R243 to R249), and the views a rendezvous merges. -/

namespace Sys2Proof.Machine

/-- Where an agent of a team stands for scopes (R246). -/
def State.locOf (s : State) (team : Nat) : Loc :=
  let t := s.team team
  ⟨s.module, (s.cluster t.cluster).tower, t.cluster, team⟩

/-- Two agents share a scope instance (R246); scope codes 0 team to 4 domain. -/
def sameInstance (scope : Nat) (a b : Loc) : Bool :=
  match scope with
  | 0 => a == b
  | 1 => a.module == b.module && a.cluster == b.cluster && a.tower == b.tower
  | 2 => a.module == b.module && a.tower == b.tower
  | 3 => a.module == b.module
  | _ => true

/-- The scopes match: the acquirer lies in the snapshot's instance, and its owner in the acquirer's (R245). -/
def Snap.matches (x : Snap) (loc : Loc) (scope : Nat) : Bool :=
  sameInstance x.scope x.owner loc && sameInstance scope loc x.owner

/-- A view after an acquire of snapshots at a scope (R245). -/
def mergeSnaps (v : View) (snaps : List Snap) (loc : Loc) (scope : Nat) : View :=
  snaps.foldl (fun v x => if x.matches loc scope then v ||| x.view else v) v

/-- The larger of two 20-bit clocks: what a merge keeps, as the rule's words have it, also past a wrap of the clock (R265; DEDUCED, log 124). -/
def larger (a b : BitVec 20) : BitVec 20 := if a.toNat < b.toNat then b else a
/-- Entries merged one by one (R265). -/
def mergeClocks (a b : Cells (BitVec 20)) : Cells (BitVec 20) :=
  b.foldl (fun m p => cellSet 0 m p.1 (larger (cellGet 0 m p.1) p.2)) a

/-- A release of a group in the race hardware (R264, R265): its snapshot with the clocks published, then each
clock that the scope names advances. -/
def State.releaseHw (s : State) (team g scope : Nat) : State :=
  let pub := s.clocks team g
  let s := s.awaitSweep (s.ident team g) (pub.group + 1)
  let s := s.modTeam team fun t =>
    let t := t.modGroup g fun x =>
      { x with
        rel := some ⟨x.vec, t.tvec, t.version, pub⟩
        clock := x.clock + 1
        wide := if 1 ≤ scope then some x.clock else x.wide }
    { t with tclock := if 1 ≤ scope then t.tclock + 1 else t.tclock }
  if 2 ≤ scope then s.modCluster (s.team team).cluster fun c => { c with epoch := c.epoch + 1 } else s

/-- A module vector with one slot merged (R265). -/
def mergeEntry (e : ModEntry) (epoch : BitVec 20) (tclks : Cells (BitVec 20)) : ModEntry :=
  ⟨larger e.epoch epoch, mergeClocks e.tclks tclks⟩
def blankEntry : ModEntry := ⟨0, []⟩
/-- Entries of another module vector merged (R265); the version rises when an entry changes. -/
def Team.mergeModule (t : Team) (m : Cells ModEntry) : Team :=
  let v := m.foldl (fun v p => cellSet blankEntry v p.1 (mergeEntry (cellGet blankEntry v p.1) p.2.epoch p.2.tclks)) t.modvec
  if v = t.modvec then t else { t with modvec := v, version := t.version + 1 }

/-- A domain-scope acquire of a write by a proxy identity (R277): the release snapshot that travelled with the write. -/
def State.acquireProxy (s : State) (team scope : Nat) (x : Source) : State :=
  match s.proxyOf x.ident, x.pub with
  | some _, some p => if scope == 4 then s.modTeam team fun t => t.mergeModule [(identCluster x.ident, ⟨p.1, p.2⟩)] else s
  | _, _ => s

/-- A published clock belongs to a release later than the snapshot that a write carries (R274): the write carries the last release before it, its own
included. -/
def Source.overtaken (x : Source) (pub : BitVec 20) : Bool := (x.clock != pub || !x.rel) && decide ((pub - x.clock).toNat < 2 ^ 19)

/-- A group vector merged into that of group g of the same team. The entry of g's own slot holds only clocks of its own copies (R265), so an acquire
leaves it (DEDUCED, log 98). -/
def Group.mergeVec (y : Group) (g : Nat) (v : Cells (BitVec 20)) : Group := { y with vec := mergeClocks y.vec (cellDel v g) }

/-- An acquire by a group, at a scope, of a write or read-modify-write (R265). It counts counter 6 once when the snapshot or the module vector is
later than the write's (R274). -/
def State.acquireHw (s : State) (team g scope : Nat) (x : Source) : State :=
  match s.holder x.ident with
  | none => s.acquireProxy team scope x
  | some (xt, xg) =>
    let me := s.team team
    let you := s.team xt
    match (you.group xg).rel with
    | none => s
    | some r =>
      let inTeam := xt == team
      let inCluster := you.cluster == me.cluster
      let newer := ((inCluster || decide (2 ≤ scope)) && x.overtaken r.pub.group) || (decide (2 ≤ scope) && decide (r.version.toNat < you.version.toNat))
      let s := if newer then s.loss me.launch 6 else s
      let s := s.modTeam team fun t =>
        let t := if inTeam then t.modGroup g fun y => y.mergeVec g (cellMod 0 r.gvec xg (larger r.pub.group)) else t
        if inCluster then
          let tv := mergeClocks t.tvec r.tvec
          { t with tvec := if 1 ≤ scope then cellMod 0 tv you.position (larger r.pub.team) else tv }
        else t
      if 2 ≤ scope then
        let own : Cells ModEntry := [(identCluster x.ident, ⟨r.pub.epoch, cellMod 0 r.tvec you.position (larger r.pub.team)⟩)]
        s.modTeam team fun t => (t.mergeModule you.modvec).mergeModule own
      else s

/-- Acquires of several writes in turn. -/
def State.acquireAll (s : State) (team g scope : Nat) (xs : List Source) : State :=
  xs.foldl (fun s x => s.acquireHw team g scope x) s

/-- A group that has observed its own copy raises its own-slot entry (R265). -/
def State.observeOwn (s : State) (team g : Nat) (c : BitVec 20) : State :=
  s.modTeam team fun t => t.modGroup g fun y => { y with vec := cellMod 0 y.vec g (larger c) }

/-- An engine write's party merged by an observer (R210, R237, R257): the identity and clocks of the copy. -/
def State.observeEngine (s : State) (team g scope : Nat) (x : BitVec 18) (c : Clocks) : State :=
  if x = s.ident team g then s.observeOwn team g c.group
  else match s.holder x with
    | none => s
    | some (xt, xg) =>
      let you := s.team xt
      let s := if xt == team then s.modTeam team fun t => t.modGroup g fun y => { y with vec := cellMod 0 y.vec xg (larger c.group) } else s
      if 1 ≤ scope && you.cluster == (s.team team).cluster then
        s.modTeam team fun t => { t with tvec := cellMod 0 t.tvec you.position (larger c.team) }
      else s

/-- The home groups of an agent's lanes, its host when it holds none. -/
def Agent.homes (a : Agent) : List Nat := if a.lanes = 0 then [a.host] else groupsOf a.lanes

/-- A release of an agent with every home group it holds. -/
def State.releaseAgent (s : State) (a : AgentRef) (scope : Nat) : State :=
  ((s.team a.team).agent a.agent).homes.foldl (fun s g => s.releaseHw a.team g scope) s
/-- An acquire of identities by every home group of an agent. -/
def State.acquireAgent (s : State) (a : AgentRef) (scope : Nat) (xs : List Source) : State :=
  ((s.team a.team).agent a.agent).homes.foldl (fun s g => s.acquireAll a.team g scope xs) s

/-- The release snapshots a write of an agent carries: its fence's (R244). -/
def Agent.carried (a : Agent) : List Snap := a.relSnap.toList

/-- A rendezvous completes (R249): every participant's arrival releases and its departure acquires, at the scope,
and every view becomes the union of the views. -/
def State.meet (s : State) (parts : List AgentRef) (scope : Nat) : State :=
  let view := parts.foldl (fun v a => v ||| ((s.team a.team).agent a.agent).view) 0
  let s := parts.foldl (fun s a => s.releaseAgent a scope) s
  let ids := parts.flatMap fun a => ((s.team a.team).agent a.agent).homes.map fun g => (⟨s.ident a.team g, ((s.team a.team).group g).clock - 1, true, none⟩ : Source)
  let s := parts.foldl (fun s a => s.acquireAgent a scope ids) s
  parts.foldl (fun s a => s.modTeam a.team fun t => t.modAgent a.agent fun x => { x with view := view }) s

/-- A fence of an agent (R239, R247): the acquire first, then the release snapshot of the view. -/
def State.fenceAt (s : State) (a : AgentRef) (scope : Nat) : State :=
  let loc := s.locOf a.team
  let ag := (s.team a.team).agent a.agent
  let s := s.acquireAgent a scope ag.seenIds
  let s := s.modTeam a.team fun t => t.modAgent a.agent fun x =>
    let v := mergeSnaps x.view x.seen loc scope
    { x with view := v, relSnap := some ⟨scope, v, loc⟩ }
  s.releaseAgent a scope

end Sys2Proof.Machine
end

