-- ==== Sys2Proof/Machine/Ops.lean ====
section
/-! DEFINITION. The shared operations of agents: entering a block, retiring an instruction, taking a trap and
returning from one (18 R306 to R314), regions and joins (06 R105 to R118), exits, and the end of a launch. -/

namespace Sys2Proof.Machine

/-- n registers from r upward. -/
def spanRegs (r n : Nat) : List Nat := (List.range n).map fun i => r + i
/-- The registers of a member that a command names: 32 accumulators, and the B range (R178, R179). -/
def Gang.full (g : Gang) : Bool := g.shape == 1
def bRange (full : Bool) (n : Nat) : Nat := if full then (n + 1) / 2 else n
def Cmd.regsOf (c : Cmd) (g : Nat) : List Nat :=
  match c.ranges.find? fun r => r.1 == g with
  | some r => spanRegs r.2.1 32 ++ spanRegs r.2.2 (bRange c.gang.full c.n)
  | none => []
/-- The command that makes a register of a group pending, with that register: the first command accepted, then the first register named (R193; DESIGN CHOICE,
log 129). -/
def Team.pendingOn (t : Team) (g : Nat) (regs : List Nat) : Option (Nat × BitVec 6) :=
  t.cmds.findSome? fun c =>
    if c.waited.contains g then none
    else (regs.find? fun r => (c.regsOf g).contains r).map fun r => (r, c.id)

/-- The reference ticks an unprivileged read of sr.tick gives (R40, R302). -/
def State.teamTick (s : State) (t : Team) : Nat :=
  let l := s.launch t.launch
  if l.determinate then l.commits else s.tick - l.start

def State.agent (s : State) (a : AgentRef) : Agent := (s.team a.team).agent a.agent
def State.modAgent (s : State) (a : AgentRef) (f : Agent → Agent) : State :=
  s.modTeam a.team fun t => t.modAgent a.agent f
def State.groupOf (s : State) (a : AgentRef) : Group := (s.team a.team).group (s.agent a).host
def State.modGroupOf (s : State) (a : AgentRef) (f : Group → Group) : State :=
  s.modTeam a.team fun t => t.modGroup (s.agent a).host f

-- Entering a block.
/-- A header with a counter adds 1 to the counter of the interface (R31, R341). -/
def State.countBlock (s : State) (t : Team) (h : DWord) : State :=
  let vi := s.viOf t
  if hdrCen h && bitsOf (s.vi vi).wmCtl 1 1 == 1 then
    s.modVi vi fun v => { v with counters := cellSet 0 v.counters (hdrCidx h) (cellGet 0 v.counters (hdrCidx h) + 1) }
  else s

/-- An agent enters a block at a header (R31): it consumes the header, taking its length. A header that cannot
be consumed is left to the issue of the next word. -/
def State.enterBlock (s : State) (a : AgentRef) (pc : Nat) : State :=
  let t := s.team a.team
  if !cellHas t.agents a.agent then s
  else match s.headerAt t pc with
  | some h =>
    if hdrLength h == 0 then s.modAgent a fun x => { x with pc := pc, rest := 0 }
    else (s.countBlock t h).modAgent a fun x => { x with pc := pc + 1, rest := hdrLength h }
  | none => s.modAgent a fun x => { x with pc := pc, rest := 0 }

-- The launch ends.
/-- A launch is killed (R296, R314): the first kill stands. -/
def State.killLaunch (s : State) (l : Nat) (k : Kill) : State :=
  s.modLaunch l fun x => if x.kill == none then { x with kill := some k } else x
/-- The kill field for an agent (R296). -/
def State.killAt (s : State) (a : AgentRef) (status pc kind : Nat) : Kill :=
  let t := s.team a.team
  ⟨status, pc, t.index, t.node, (s.agent a).host, kind⟩

-- Traps.
/-- Where trap fragments of an agent belong: the agent they wait for, the depth of its region, and whether they
were formed inside a region (R117). -/
def Agent.trapHome (x : Agent) (self : Nat) : Nat × Nat × Bool :=
  if x.stack.length != 0 then (self, x.stack.length, true)
  else match x.kind with
    | .group => (self, 0, false)
    | .fragment _ => (self, 0, true)
    | .trap p d => if x.inRegion then (p, d, true) else (self, 0, false)

/-- The trap fragments that belong to a region of an agent, in order of formation. -/
def Team.traps (t : Team) (parent depth : Nat) : List (Nat × Agent) := t.agents.filter fun p => p.2.kind == .trap parent depth
def Team.children (t : Team) (parent : Nat) : List (Nat × Agent) :=
  t.agents.filter fun p => match p.2.kind with | .trap q _ => q == parent | _ => false

/-- Trap fragments not yet delivered; a team holds at most 112, and 16 with a team-form k0 (R45, R114). -/
def Team.pendingTraps (t : Team) : List (Nat × Agent) := t.agents.filter fun p => p.2.status == .pending
/-- A team-form trap fragment that counts against the 16: until its handler resumes it, or it ends (R114). -/
def Agent.holdsTrap (x : Agent) : Bool :=
  isTeamForm x.k0 && match x.kind with
    | .trap _ _ => x.status == .pending || (match x.info with | some i => i.delivered | none => false)
    | _ => false
/-- A team has room for one more pending trap fragment, of one group or of several. -/
def Team.trapRoom (t : Team) (several : Bool) : Bool :=
  decide (t.pendingTraps.length < 112) && (!several || decide ((t.agents.filter fun p => p.2.holdsTrap).length < 16))
/-- Lanes of more than one group: their canonical set is team-form (R97). -/
def several (x : LaneSet) : Bool := decide (1 < (groupsOf x).length)
/-- Held trap fragments become pending, in order of formation, as far as there is room (R45, R114); a team-form one takes its handle then (R52). -/
def Team.admitTraps (t : Team) : Team :=
  t.agents.foldl (fun (t : Team) p =>
    if p.2.status == .heldTrap && t.trapRoom (several p.2.lanes) then
      let c := t.canonical p.2.host p.2.lanes
      c.1.modAgent p.1 fun x => { x with status := .pending, k0 := c.2 }
    else t) t

/-- The entries of a group that are open for an agent: sr.swd (R40, R105). -/
def Team.swd (t : Team) (agent : Nat) : Nat → Nat
  | 0 => 0
  | fuel + 1 =>
    let x := t.agent agent
    x.stack.length + match x.kind with
      | .group => 0
      | .fragment slot => t.swd (((t.region slot).parts.find? fun p => (t.agent p).host == x.host).getD x.host) fuel
      | .trap p d => d + (t.swd p fuel - (t.agent p).stack.length)
def State.swdOf (s : State) (a : AgentRef) : Nat := (s.team a.team).swd a.agent 8

/-- A number in the low bits of a 64-bit register. -/
def dw (n : Nat) : DWord := BitVec.ofNat 64 n

/-- The trap record in s8 to s31 at delivery (R308). -/
def trapRecord (t : Team) (x : Agent) (i : TrapInfo) (depth : Nat) : List DWord :=
  let g := ((groupsOf x.lanes).head?).getD x.host
  [dw (i.kind + i.cause * 2 ^ 16 + depth * 2 ^ 24 + i.pc * 2 ^ 32), i.word, dw (groupPart x.lanes g + g * 2 ^ 32), i.ms, i.d0, i.d1,
    dw i.tick, dw (t.index.toNat + x.host * 2 ^ 32 + t.node * 2 ^ 40)] ++
    (List.range 16).map fun j => dw (bitsOf i.record (64 * j) 64)

/-- The trap frame (R309). -/
def trapFrame (g : Group) (i : TrapInfo) (depth swd : Nat) : List Byte :=
  let save := (List.range 24).flatMap fun j => wordBytes (cellGet 0 g.s (8 + j)).toNat 8
  save ++ wordBytes (i.pc + i.rest * 2 ^ 32 + depth * 2 ^ 44 + i.kind * 2 ^ 48) 8 ++ wordBytes i.ms.toNat 8 ++ wordBytes swd 8 ++
    List.replicate 40 0

/-- Registers from a number upward. -/
def putScalars (m : Cells DWord) (r : Nat) : List DWord → Cells DWord
  | [] => m
  | x :: xs => putScalars (cellSet 0 m r x) (r + 1) xs

-- Register lines that the device itself touches (R44, R131 to R134).
/-- The size of a context slot (R44, R292). -/
def CodeObject.slotSize (o : CodeObject) : Nat :=
  ((o.nodes.map fun n => 0xC2000 + 0x10000 * n.groups).foldl max 0 + 65535) / 65536 * 65536
/-- Where a team's image lies, and a line of a group section in it. -/
def State.imageBase (s : State) (t : Team) : Nat := (s.launch t.launch).context + (s.objectOf t).slotSize * t.ctxSlot
def lineAt (g line : Nat) : Nat := 0x82000 + 0x10000 * g + 128 * line
/-- A core's register caches hold a line: reserved lines that are not missing, and the lines of its open pool. -/
def State.lineHere (s : State) (team g line : Nat) : Bool :=
  let t := s.team team
  if line < 264 then !(t.group g).missing.contains line
  else (s.core t.core).pool.any fun p => p.team == team && p.group == g && p.line == line
/-- A failed device access kills the launch (R317). -/
def State.killDevice (s : State) (li : Nat) : State := s.killLaunch li ⟨2, 0, 0, 0, 0, 0⟩
/-- A line is filled from the image (R133), and a spill line enters the open pool as the most recently used one (R132); an uncorrectable error in it kills the
launch (R319), and so does an image that does not translate (R317). -/
def State.fillLine (s : State) (team g line : Nat) : State :=
  let t := s.team team
  let at_ := s.imageBase t + lineAt g line
  match s.devRead (s.viOf t) at_ 128 with
  | .error _ => s.killDevice t.launch
  | .ok (s, _) =>
    let bad := match s.translateOwn (s.viOf t) at_ false with
      | .ok (pa, _) => s.badAt .main pa 128
      | .error _ => false
    if bad then s.killLaunch t.launch ⟨2, 0, t.index, t.node, g, 14⟩
    else if line < 264 then s.modTeam team fun t => t.modGroup g fun x => { x with missing := x.missing.filter (· != line) }
    else s.modCore t.core fun k => { k with pool := ⟨team, g, line⟩ :: k.pool }
/-- An access of the device itself to a line of a group: it waits for the fill of one that is not there (R133). -/
def State.touchLine (s : State) (team g line : Nat) : State :=
  if s.lineHere team g line then
    if line < 264 then s
    else s.modCore (s.team team).core fun k =>
      { k with pool := ⟨team, g, line⟩ :: k.pool.filter fun p => !(p.team == team && p.group == g && p.line == line) }
  else s.fillLine team g line
def State.touchLines (s : State) (team g : Nat) (lines : List Nat) : State := lines.foldl (fun (s : State) l => s.touchLine team g l) s
/-- The lines of a byte range of a group section. -/
def rangeLines (a n : Nat) : List Nat := (List.range ((a + n + 127) / 128 - a / 128)).map (a / 128 + ·)
/-- The lines that hold s8 to s31, and the special registers from 8 upward. -/
def recordLines : List Nat := [256, 257]
def specialLine : Nat := 262

/-- Delivery of a trap fragment (R307): the frame, the record, ms, the depth, and the handler; an unhandled trap
kills the launch. The milestone of a command goes to the ms of its gang's leader, whatever group hosts the fragment (R198). -/
def State.deliver (s : State) (a : AgentRef) : State :=
  let t := s.team a.team
  let x := s.agent a
  match x.info with
  | none => s
  | some i =>
    let g := t.group x.host
    let sp := g.sp.toNat
    match (s.kernelOf t).handler with
    | none => s.killLaunch t.launch (s.killAt a 2 i.pc i.kind)
    | some h =>
      if sp < 0x8400 + 256 ∨ 5 ≤ x.depth + 1 then s.killLaunch t.launch (s.killAt a 2 i.pc i.kind)
      else
        let s := (s.touchLines a.team x.host (rangeLines (sp - 256) 256 ++ recordLines ++ [specialLine])).touchLine a.team (i.owner.getD x.host) specialLine
        let s := s.modGroupOf a fun g =>
          { g with
            spill := writeBytes g.spill (sp - 256) (trapFrame g i (x.depth + 1) (s.swdOf a))
            sp := BitVec.ofNat 16 (sp - 256)
            s := putScalars g.s 8 (trapRecord t x i (x.depth + 1)) }
        let s := s.modTeam a.team fun t => t.modGroup (i.owner.getD x.host) fun g =>
          { g with
            ms := i.ms
            msRecords := if i.ms = 0 then g.msRecords else i.records }
        let s := s.modTeam a.team fun t =>
          (t.modAgent a.agent fun y => { y with depth := x.depth + 1, status := .ready, info := some { i with delivered := true } }).admitTraps
        s.enterBlock a h

/-- The records that an agent formed from another may find in its caches: those its maker's other readers still hold
(R166, R259). -/
def Team.inheritCaches (t : Team) (maker new : Nat) : Team :=
  let old := t.caches.filter fun c => c.1 == .layer maker
  { t with caches := t.caches ++ old.flatMap fun c => [(.lane new, c.2), (.layer new, c.2)] }

/-- What an agent keeps of an instruction under way is given up. -/
def Agent.idle (x : Agent) : Agent := { x with progress := none, struck := [], before := [], issued := none, stopWaived := false }

/-- A trap fragment of struck lanes leaves an agent (R117). retired: the agent's instruction is complete for its
other lanes. Outside every region the agent waits, and its first fragment is delivered at once (R307). One without room is held, its lanes'
instruction unretired (R45, R114). -/
def State.formTrap (s : State) (a : AgentRef) (lanes : LaneSet) (f : Raise) (word : DWord) (pc rest : Nat) (atHeader retired : Bool) :
    State :=
  let t := s.team a.team
  let x := s.agent a
  let home := x.trapHome a.agent
  let room := t.trapRoom (several lanes)
  let c := if room then t.canonical x.host lanes else (t, localDesc x.host 0)
  let id := t.nextAgent
  let info : TrapInfo :=
    { kind := f.kind, cause := f.cause, pc := pc, rest := rest, word := word, lanes := lanes, ms := f.ms, d0 := f.d0, d1 := f.d1,
      tick := s.teamTick t, record := f.record, delivered := false, retired := retired, redo := false, atHeader := atHeader,
      records := if f.records.isEmpty then (match x.progress with | some p => p.2 | none => []) else f.records, owner := f.owner }
  let y : Agent :=
    { Agent.blank with
      kind := .trap home.1 home.2.1
      host := x.host
      lanes := lanes
      positions := x.positions
      k0 := c.2
      pc := pc
      rest := rest
      status := if room then .pending else .heldTrap
      depth := x.depth
      inRegion := home.2.2
      info := some info
      live := x.live
      view := x.view
      seen := x.seen
      seenIds := x.seenIds
      relSnap := x.relSnap }
  let first := (t.children a.agent).isEmpty
  let s := s.setTeam a.team { ((c.1.setAgent id y).inheritCaches a.agent id) with nextAgent := id + 1 }
  let s := s.modAgent a fun x =>
    { x with
      lanes := x.lanes &&& ~~~lanes
      status := if home.2.2 then x.status else .trapWait }
  let s := if (s.launch t.launch).determinate then s.modGroupOf a fun g => { g with legEnded := true } else s
  if home.2.2 || !first || !room then s else s.deliver ⟨a.team, id⟩

/-- The first word of the agent's instruction, as the trap record shows it. -/
def State.wordAt (s : State) (a : AgentRef) (pc : Nat) : DWord :=
  match s.codeWord (s.team a.team) pc with
  | .ok w => w
  | .error _ => 0

/-- The words of the instruction at a word (R20). -/
def wordCount (w : DWord) : Nat := if isX (fOp w.toNat) then 2 else 1

/-- Lanes of an agent that are in its entry set (R50). -/
def Team.own (t : Team) (agent : Nat) (x : LaneSet) : LaneSet := x &&& (t.agent agent).lanes &&& t.liveSet

/-- Handles of an agent's k0 freed when it ends (R52). -/
def Team.dropAgent (t : Team) (agent : Nat) : Team :=
  match (t.agent agent).kind with
  | .trap _ _ => ({ (t.release (t.agent agent).k0) with agents := cellDel t.agents agent } : Team).admitTraps
  | _ => { t with agents := cellDel t.agents agent }

/-- An agent inside a region whose entry set is empty after faults waits at the region's join; a trap fragment of
the region is dropped (R118). -/
def State.waitEmpty (s : State) (a : AgentRef) : State :=
  let t := s.team a.team
  let x := s.agent a
  if !(x.trapHome a.agent).2.2 || t.own a.agent (t.k0Set a.agent) != 0 then s
  else match x.kind, x.stack with
    | .trap _ _, [] => s.modTeam a.team fun t => t.dropAgent a.agent
    | _, _ => s.modAgent a fun x => { x with status := .join }

/-- A whole fault of a word (R117): all of the agent's k0 forms a trap fragment, and the instruction takes no effect. Without room for the fragment the
instruction stays unretired (R45, R114). -/
def State.raiseWord (s : State) (a : AgentRef) (f : Raise) (w : DWord) (atHeader : Bool) : State :=
  let x := s.agent a
  let k0 := (s.team a.team).k0Set a.agent &&& x.lanes
  if (s.team a.team).trapRoom (several k0) then
    ((s.formTrap a k0 f w x.pc (x.rest - wordCount w) atHeader false).modAgent a Agent.idle).waitEmpty a
  else s
/-- A whole fault of the agent's instruction. -/
def State.raiseAt (s : State) (a : AgentRef) (f : Raise) (atHeader : Bool) : State := s.raiseWord a f (s.wordAt a (s.agent a).pc) atHeader
def State.raise (s : State) (f : Raise) : State := s.raiseAt s.cur f false

/-- An illegal-instruction fault (R36). -/
def illegal (cause : Nat) : Raise := { kind := 1, cause := cause }
/-- A region fault (R98). -/
def regionFault (cause : Nat) (d0 : DWord) : Raise := { kind := 3, cause := cause, d0 := d0 }

-- Retiring.
/-- How an instruction retires: its words, whether R298 counts it, whether it ends spinning, and whether it ends
its leg (R300). -/
structure Ret where
  words : Nat := 1
  counted : Bool := true
  endsSpin : Bool := false
  legEnd : Bool := false

/-- An agent takes back the lanes and the view of a trap fragment that left it; a whole fault's fragment brings it to its own PC. -/
def Agent.takeBack (x y : Agent) : Agent :=
  let whole := match y.info with | some i => !i.retired && !i.redo | none => true
  { x with
    lanes := x.lanes ||| y.lanes
    view := x.view ||| y.view
    seen := x.seen ++ y.seen
    seenIds := x.seenIds ++ y.seenIds
    pc := if whole then y.pc else x.pc
    rest := if whole then y.rest else x.rest }
/-- A trap fragment ends, and the agent it left takes its lanes back. -/
def Team.takeBack (t : Team) (agent parent : Nat) : Team := (t.dropAgent agent).modAgent parent fun x => x.takeBack (t.agent agent)
def Team.wakeAgent (t : Team) (agent : Nat) : Team := t.modAgent agent fun x => { x with status := .ready }
/-- A trap fragment outside every region rejoins the agent it left (R117, R250). The agent goes on when no other
fragment of it is left. -/
def Team.rejoin (t : Team) (agent : Nat) : Nat → Team
  | 0 => t
  | fuel + 1 =>
    match (t.agent agent).kind with
    | .trap p _ =>
      let t := t.takeBack agent p
      if !(t.children p).isEmpty then t
      else
        let t := t.wakeAgent p
        match (t.agent p).kind, (t.agent p).info with
        | .trap _ _, some i => if i.redo && i.retired then t.rejoin p fuel else t
        | _, _ => t
    | _ => t

/-- The issuing agent's instruction retires: the PC advances, and the counts of R136, R298 and R300 move. A trap
fragment that re-issued it outside every region rejoins (R117). -/
def State.retireAt (s : State) (a : AgentRef) (r : Ret) : State :=
  let t := s.team a.team
  let g := s.groupOf a
  let det := (s.launch t.launch).determinate
  let spin := g.spinning && !r.endsSpin
  let s := s.modGroupOf a fun g =>
    { g with
      boosted := false
      issuedAt := s.tick
      spinning := spin
      legCount := g.legCount + 1
      legEnded := g.legEnded || (det && (r.legEnd || decide (1024 ≤ g.legCount + 1))) }
  let s := s.modAgent a fun x =>
    { x.idle with
      pc := x.pc + r.words
      rest := x.rest - r.words
      info := x.info.map fun i => if i.redo then { i with retired := true } else i }
  let s := if r.counted && !spin then s.modCore t.core fun c => { c with stall := 0 } else s
  match (s.agent a).info with
  | some i => if i.redo && (s.agent a).status == .ready then s.modTeam a.team fun t => t.rejoin a.agent 8 else s
  | none => s
def State.retire (s : State) (r : Ret) : State := s.retireAt s.cur r

-- Entry sets and switchback entries.
/-- Handles that stay in use whatever an agent's k0 becomes: those of open regions (R52). -/
def Team.regionHandle (t : Team) (d : DWord) : Bool := isTeamForm d && t.regions.any fun r => r.2.handles.contains (bitsOf d 0 12)
/-- A descriptor of an agent is given up. -/
def Team.giveUp (t : Team) (d : DWord) : Team := if t.regionHandle d then t else t.release d

/-- The sets under which the regions of an agent's entries run, from the set of the innermost one outward. Of a half that runs and the one that is pending, one
counts: they never run together (R116). -/
def entryPath (cur : DWord) : List Switch → List DWord
  | [] => [cur]
  | e :: l => match entryPath e.set l with
    | p :: ps => if e.kind == 3 then (if isTeamForm cur then cur else p) :: ps else cur :: p :: ps
    | [] => [cur]
/-- The sets that an agent's open local regions run under (R114): its k0 and those its entries restore, but not the one a
trap fragment was formed with. -/
def Agent.regionSets (x : Agent) : List DWord :=
  let l := entryPath x.k0 x.stack
  match x.kind with
  | .trap _ _ => l.dropLast
  | _ => l
/-- Team-form entry sets held in a team (R114): handles of open regions, and team-form k0 of local regions. -/
def Team.entrySets (t : Team) : Nat :=
  (t.regions.map fun r => r.2.handles.length).sum +
    (t.agents.map fun p => (p.2.regionSets.filter fun d => isTeamForm d && !t.regionHandle d).length).sum

/-- A local apply's entry pushed, and k0 set to the members (R106). -/
def Team.pushLocal (t : Team) (agent cont : Nat) (e : LaneSet) : Team :=
  let x := t.agent agent
  let c := t.canonical x.host e
  c.1.modAgent agent fun x => { x with stack := ⟨x.k0, cont, 1, 0, 0⟩ :: x.stack, k0 := c.2 }
/-- A pending half's entry pushed (R116). -/
def Team.pushHalf (t : Team) (agent pc : Nat) (e : LaneSet) : Team :=
  let x := t.agent agent
  let c := t.canonical x.host e
  c.1.modAgent agent fun x => { x with stack := ⟨c.2, pc, 3, 0, 0⟩ :: x.stack }
/-- The canonical form of the members that a held descriptor still names (R97, R108): a team-form one keeps its handle while its members belong to more
than one group, and gives it up otherwise. -/
def Team.recanon (t : Team) (host : Nat) (d : DWord) : Team × DWord :=
  let x := t.resolve d
  match groupsOf x with
  | [] => (t.giveUp d, localDesc host 0)
  | [g] => (t.giveUp d, localDesc g (groupPart x g))
  | _ => t.clearDesc d

-- Team regions.
/-- Lanes of a set held by one group. -/
def homePart (x : LaneSet) (g : Nat) : LaneSet := x &&& groupLanes g

/-- The packed groups taken in ascending order, each whole, into fragments of at most 32 lanes (R111). -/
def packGroups (e : LaneSet) : List Nat → List (List Nat) → List (List Nat)
  | [], acc => acc
  | g :: gs, [] => packGroups e gs [[g]]
  | g :: gs, f :: fs =>
    let total := (f.map fun h => countBits (groupPart e h) 32).sum + countBits (groupPart e g) 32
    if total ≤ 32 then packGroups e gs ((f ++ [g]) :: fs) else packGroups e gs ([g] :: f :: fs)

/-- A group is packed (R111): policy 1 always, policy 2 never, policy 0 below half occupancy. -/
def isPacked (policy : BitVec 2) (lanesN count : Nat) : Bool :=
  if policy == 1 then true else if policy == 2 then false else decide (2 * count < lanesN)

/-- The fragments of one half: placed groups host themselves; packed fragment f is hosted by the f-th lowest packed
group (R111). The packed groups are the second answer. -/
def fragPlans (policy : BitVec 2) (lanesN half : Nat) (e : LaneSet) : List FragPlan :=
  let gs := groupsOf e
  let packed := gs.filter fun g => isPacked policy lanesN (countBits (groupPart e g) 32)
  let placed := gs.filter fun g => !isPacked policy lanesN (countBits (groupPart e g) 32)
  let bundles := (packGroups e packed []).reverse
  (placed.map fun g => ⟨half, [g], homePart e g, false⟩) ++
    bundles.map fun b => ⟨half, packed, b.foldl (fun x g => x ||| homePart e g) 0, true⟩

/-- A fragment begins on a host (R111, R112). -/
def State.startFragment (s : State) (team slot : Nat) (p : FragPlan) (host : Nat) : State :=
  let t := s.team team
  let r := t.region slot
  let id := t.nextAgent
  let desc := (r.descs[p.half]?).getD 0
  let y : Agent :=
    { Agent.blank with
      kind := .fragment slot
      host := host
      lanes := p.lanes
      positions := if p.packed then laneList p.lanes else []
      k0 := desc
      inRegion := true
      live := some ((r.masks[p.half]?).getD 0, r.budget)
      view := r.views }
  let maker := (r.parts.find? fun p => (t.agent p).host == host).getD host
  let t := { ((t.setAgent id y).inheritCaches maker id) with
    nextAgent := id + 1
    regions := cellPut t.regions slot { r with frags := r.frags ++ [id] } }
  (s.setTeam team t).enterBlock ⟨team, id⟩ ((r.blocks[p.half]?).getD 0)

/-- Fragments placed on free hosts in order; those without one wait (R116). -/
def State.placeFragments (s : State) (team slot : Nat) : List FragPlan → State
  | [] => s
  | p :: ps =>
    let t := s.team team
    let r := t.region slot
    let busy := r.frags.map fun f => (t.agent f).host
    match p.hosts.find? fun h => !busy.contains h with
    | some h => (s.startFragment team slot p h).placeFragments team slot ps
    | none =>
      let s := s.modTeam team fun t => { t with regions := cellPut t.regions slot { r with waiting := r.waiting ++ [p] } }
      s.placeFragments team slot ps

/-- Region slot free in a team (R110). -/
def Team.freeSlot (t : Team) : Nat := ((List.range 16).find? fun i => !cellHas t.regions i).getD 16

/-- The canonical forms of the halves of a team apply2, which run concurrently: a team-form one takes a handle (R52, R97). -/
def Team.halfDescs (t : Team) : List LaneSet → Team × List DWord
  | [] => (t, [])
  | e :: es =>
    let c := t.canonical 0 e
    let r := c.1.halfDescs es
    (r.1, c.2 :: r.2)
/-- Handles that a team region over these halves takes (R52): one for its entry set E, and one for each team-form half of two. -/
def regionHandles (halves : List LaneSet) : Nat := if halves.length ≤ 1 then halves.length else 1 + (halves.filter several).length

/-- A team region opens when its rendezvous has completed (R110, R116): the slot and handles, a kind-2 entry for
each participant, and the fragments. The entry set E of a team apply2 is the union of its halves: every participant's k0 names its handle, and the k0 of
a fragment is its half (R52; DEDUCED, log 23). -/
def State.openRegion (s : State) (team : Nat) (parts : List Nat) (policy : BitVec 2) (cont : Nat) (halves : List (LaneSet × Nat)) :
    State :=
  let t := s.team team
  let slot := t.freeSlot
  let union := halves.foldl (fun x e => x ||| e.1) 0
  let handle := freeHandle t.handles
  let whole := teamDesc (population union) handle
  let t : Team := { t with handles := cellPut t.handles handle union }
  let d := if halves.length ≤ 1 then (t, [whole]) else t.halfDescs (halves.map (·.1))
  let t := d.1
  let budgets := (groupsOf union).map fun g => (t.group g).budget
  let masks := halves.map fun e => match s.headerAt t e.2 with | some w => hdrLive w | none => 0
  let r : Region :=
    { cont := cont, policy := policy, parts := parts
      handles := handle :: if halves.length ≤ 1 then [] else (d.2.filter isTeamForm).map fun x => bitsOf x 0 12
      descs := d.2, members := halves.map (·.1), blocks := halves.map (·.2),
      masks := masks, budget := budgets.foldl min 256, frags := [], waiting := [],
      views := parts.foldl (fun v p => v ||| (t.agent p).view) 0, ended := 0 }
  let t : Team := { t with regions := cellPut t.regions slot r }
  let t := parts.foldl (fun (t : Team) p => t.modAgent p fun x =>
    { x with stack := ⟨x.k0, cont, 2, policy, BitVec.ofNat 4 slot⟩ :: x.stack, k0 := whole, status := .region }) t
  let s := s.setTeam team t
  let held := parts.foldl (fun x p => x ||| (t.agent p).lanes) 0
  s.placeFragments team slot ((halves.zipIdx.map fun e => fragPlans policy t.lanesN e.2 (e.1.1 &&& held)).flatten)

/-- The team join (R113): views meet at team scope, the handles and the slot are freed, and each participant with
a live lane pops its entry and continues at the continuation. Of the others, a group ends, and a fragment has left its entry: it leaves its own region
next (leaveDead). -/
def State.teamJoin (s : State) (team slot : Nat) : State :=
  let t := s.team team
  let r := t.region slot
  let parts := r.parts.filter fun p => cellHas t.agents p && ((t.agent p).lanes &&& t.liveSet) != 0
  let s := s.modTeam team fun t =>
    let t := { t with
      handles := r.handles.foldl (fun h n => cellDel h n) t.handles
      regions := cellDel t.regions slot }
    let t := (r.parts.filter fun p => !parts.contains p && (t.agent p).kind == .group).foldl (fun t p => t.dropAgent p) t
    r.parts.foldl (fun t p => t.modAgent p fun x =>
      { x with
        view := x.view ||| r.views ||| r.ended
        k0 := (x.stack.headD ⟨0, 0, 0, 0, 0⟩).set, stack := x.stack.tail, status := .ready }) t
  let s := s.meet (parts.map fun p => ⟨team, p⟩) 0
  parts.foldl (fun s p => s.enterBlock ⟨team, p⟩ r.cont) s

/-- The registers of the ranges of a live mask: the scatter writes those of a packed fragment (R112, R189). -/
def rangeSet (m : BitVec 16) : BitVec 256 :=
  (List.range 16).foldl (fun x i => if m.getLsbD i then x ||| ((0xFFFF : BitVec 256) <<< (16 * i)) else x) 0

/-- A fragment ends: joined, or emptied by exits (R113). Its host takes the next waiting fragment; after the last
one the team join follows. -/
def State.endFragment (s : State) (a : AgentRef) (slot : Nat) : State :=
  let t := s.team a.team
  let x := s.agent a
  let r := t.region slot
  let r := { r with frags := r.frags.filter (· != a.agent), ended := r.ended ||| x.view, waiting := [] }
  let waiting := (t.region slot).waiting
  let moved := match x.live with
    | some l => if x.positions.isEmpty then 0 else rangeSet l.1
    | none => 0
  let t := (groupsOf x.lanes).foldl (fun (t : Team) g => t.modGroup g fun y => { y with unfenced := y.unfenced ||| moved }) t
  let s := s.setTeam a.team { (t.dropAgent a.agent) with regions := cellPut t.regions slot r }
  let s := s.placeFragments a.team slot waiting
  let r := (s.team a.team).region slot
  if r.frags.isEmpty && r.waiting.isEmpty then s.teamJoin a.team slot else s

/-- The innermost entry of an agent popped (R108): where it continues. -/
def State.popRegion (s : State) (a : AgentRef) : State × Nat :=
  let t := s.team a.team
  let x := s.agent a
  match x.stack with
  | [] => (s, x.pc)
  | e :: rest =>
    if e.kind == 3 then
      let t := t.giveUp x.k0
      if t.own a.agent (t.resolve e.set) != 0 then
        let c := t.recanon x.host e.set
        (s.setTeam a.team (c.1.modAgent a.agent fun x => { x with stack := rest, k0 := c.2, status := .ready }), e.pc)
      else
        let t := t.giveUp e.set
        match rest with
        | f :: rest' =>
          (s.setTeam a.team (t.modAgent a.agent fun x => { x with stack := rest', k0 := f.set, status := .ready }), f.pc)
        | [] => (s, x.pc)
    else
      (s.setTeam a.team ((t.giveUp x.k0).modAgent a.agent fun x => { x with stack := rest, k0 := e.set, status := .ready }), e.pc)

/-- The effect of join once no trap fragment of the region is pending (R108). -/
def State.joinEffect (s : State) (a : AgentRef) : State :=
  match (s.agent a).stack, (s.agent a).kind with
  | [], .fragment slot => s.endFragment a slot
  | [], _ => s
  | _ :: _, _ => (s.popRegion a).1.enterBlock a (s.popRegion a).2

/-- A trap fragment inside a region ends, at the region's join or when its lanes are gone (R117, R118): its lanes
and view go back to the agent, and a join that waited for it takes effect. -/
def State.endTrap (s : State) (a : AgentRef) : State :=
  let y := s.agent a
  match y.kind with
  | .trap p d =>
    let s := s.modTeam a.team fun t => (t.dropAgent a.agent).modAgent p fun x =>
      { x with
        lanes := x.lanes ||| y.lanes
        view := x.view ||| y.view
        seen := x.seen ++ y.seen
        seenIds := x.seenIds ++ y.seenIds }
    let t := s.team a.team
    let parent := t.agent p
    if parent.status == .join && parent.stack.length == d && (t.traps p d).isEmpty then s.joinEffect ⟨a.team, p⟩ else s
  | _ => s

/-- An agent whose entry set exits have emptied leaves its innermost region, and each enclosing region that is
empty too; it continues at the continuation of the outermost region left (R109). An agent that ends so gives the
same chance to the agent it split from (R118). -/
def State.leaveEmpty (s : State) (a : AgentRef) (left : Option Nat) : Nat → State
  | 0 => s
  | fuel + 1 =>
    let t := s.team a.team
    let x := s.agent a
    let go (s : State) : State := match left with
      | some pc => s.enterBlock a pc
      | none => s
    if !cellHas t.agents a.agent || x.status == .region then s
    else if t.own a.agent (t.k0Set a.agent) != 0 then go s
    else if x.stack.length != 0 then
      if (t.traps a.agent x.stack.length).isEmpty then (s.popRegion a).1.leaveEmpty a (some (s.popRegion a).2) fuel
      else s.modAgent a fun x => { x with status := .join }
    else match x.kind with
      | .group => go s
      | .fragment slot => if (t.traps a.agent 0).isEmpty then s.endFragment a slot else s.modAgent a fun x => { x with status := .join }
      | .trap p _ =>
        if x.inRegion then (s.endTrap a).leaveEmpty ⟨a.team, p⟩ none fuel
        else (s.modTeam a.team fun t => t.rejoin a.agent 8).leaveEmpty ⟨a.team, p⟩ none fuel

/-- Fragments and trap fragments whose lanes have all exited while they took part in a team region leave their own regions (R109, R113). -/
def State.leaveDead (s : State) (team : Nat) : Nat → State
  | 0 => s
  | fuel + 1 =>
    let t := s.team team
    match t.agents.find? fun p => p.2.kind != .group && p.2.status == .ready && (p.2.lanes &&& t.liveSet) == 0 with
    | some p => (s.leaveEmpty ⟨team, p.1⟩ none 4096).leaveDead team fuel
    | none => s

-- Rendezvous.
/-- Groups of a team with a live lane. -/
def Team.liveGroups (t : Team) : List Nat := (t.groups.filter fun p => p.2.live != 0).map (·.1)
/-- The groups whose lanes an arrived agent holds. -/
def Team.arrivedLanes (t : Team) (r : Rdv) : LaneSet := r.arrived.foldl (fun x p => x ||| (t.agent p.1).lanes) 0
/-- Every remaining participant has arrived (R103). -/
def Team.complete (t : Team) (r : Rdv) : Bool :=
  let need := match r.kind with
    | .applyT => r.setA &&& t.liveSet
    | .apply2 => (r.setA ||| r.setB) &&& t.liveSet
    | _ => t.liveSet
  (groupsOf need).all fun g => groupPart (t.arrivedLanes r) g != 0
/-- A team's rendezvous in which a group of an agent takes part (R103): of those of a team apply, groups whose members have all exited do not. -/
def Team.partOf (t : Team) (agent : Nat) (r : Rdv) : Bool :=
  match r.kind with
  | .applyT => (r.setA &&& t.liveSet &&& (t.agent agent).lanes) != 0
  | .apply2 => ((r.setA ||| r.setB) &&& t.liveSet &&& (t.agent agent).lanes) != 0
  | _ => true

/-- The completion of a team rendezvous (R103, R249). -/
def State.completeRdv (s : State) (team : Nat) (r : Rdv) : State :=
  let parts := r.arrived.map fun p => p.1
  let refs := parts.map fun p => AgentRef.mk team p
  let s := s.modTeam team fun t => { t with rdvs := t.rdvs.filter (· != r) }
  let s := s.meet refs (if r.kind == .cbar then 1 else 0)
  match r.kind with
  | .bar | .cbar => refs.foldl (fun s a => (s.modAgent a fun x => { x with status := .ready }).retireAt a { legEnd := true }) s
  | .gather =>
    let union := r.arrived.foldl (fun x p => x ||| p.2) 0
    let order := sortBy (fun a b => decide (((s.team team).agent a.agent).host ≤ ((s.team team).agent b.agent).host)) refs
    order.foldl (fun s a =>
      let s := s.modAgent a fun x => { x with status := .ready }
      let s := s.modTeam a.team fun t => t.setK (t.agent a.agent).host r.blockA (union &&& t.liveSet)
      s.retireAt a { legEnd := true }) s
  | .applyT | .apply2 =>
    let t := s.team team
    let live := t.liveSet
    let halves := (if r.kind == .applyT then [(r.setA &&& live, r.blockA)]
      else [(r.setA &&& live, r.blockA), (r.setB &&& live, r.blockB)]).filter fun e => e.1 != 0
    let cont := (s.contOf t r.blockA).getD r.blockA
    let s := refs.foldl (fun s a => s.modAgent a fun x => { x with status := .ready }) s
    let masks := halves.map fun e => match s.headerAt t e.2 with | some w => hdrLive w | none => 0
    let covered := parts.findSome? fun p => t.pendingOn (t.agent p).host
      ((List.range 256).filter fun v => masks.any fun m => fld m.toNat (v / 16) 1 == 1)
    if let some c := covered then
      refs.foldl (fun s a => s.raiseAt a { kind := 16, d0 := dw c.1, d1 := dw c.2.toNat } false) s
    else if !halves.isEmpty && (t.freeSlot == 16 || decide (16 < t.entrySets + regionHandles (halves.map (·.1)))) then
      refs.foldl (fun s a => s.raiseAt a { kind := 5, d0 := dw t.entrySets } false) s
    else
    let s := refs.foldl (fun s a => s.retireAt a { legEnd := true }) s
    if halves.isEmpty then refs.foldl (fun s a => s.enterBlock a cont) s
    else s.openRegion team parts (if r.kind == .applyT then r.policy else 0) cont halves

/-- Rendezvous that exits have completed (R103). -/
def State.settleRdvs (s : State) (team : Nat) : State :=
  (s.team team).rdvs.foldl (fun s r =>
    if (s.team team).rdvs.contains r && !r.arrived.isEmpty && (s.team team).complete r then s.completeRdv team r else s) s

end Sys2Proof.Machine
end

