-- ==== Sys2Proof/Machine/Operands.lean ====
section
/-! DEFINITION. Operands: the issue checks over the registers an instruction names (08 R130, 06 R112, 10 R193),
the fetch of sources (05 R74), register files as lists, and the special registers (03 R40). -/

namespace Sys2Proof

-- The registers an instruction names.
def LaneSrc.regs : LaneSrc → List Nat
  | .v r => [r.toNat]
  | _ => []
def RegSrc.regs : RegSrc → List Nat
  | .v r => [r.toNat]
  | .s _ => []
def UnSrc.regs : UnSrc → List Nat
  | .v r => [r.toNat]
  | .imm _ => []
/-- Both halves of a pair (R39). -/
def pairRegs (r : Nat) : List Nat := [r, r + 1]
def RegSrc.pairs : RegSrc → List Nat
  | .v r => pairRegs r.toNat
  | .s _ => []
end Sys2Proof

namespace Sys2Proof.Machine

/-- The live mask and budget that bind an agent: its own group's outside team regions (R112, R130). -/
def State.budgetOf (s : State) (a : AgentRef) : Nat :=
  match (s.agent a).live with
  | some l => l.2
  | none => (s.groupOf a).budget

/-- The first fault of the checks over the vector registers an instruction names, in the order of R157: the budget
(R130), region fault 2 (R112), region fault 3 of a scalar destination (R98), and the pending operand (R193). -/
def State.regFault (s : State) (regs : List Nat) (scalarDst : Bool) : Option Raise :=
  let x := s.curAgent
  if regs.any fun r => decide (s.budgetOf s.cur ≤ r) then some (illegal 6)
  else match x.live with
    | some l =>
      match regs.find? fun r => fld l.1.toNat (r / 16) 1 == 0 with
      | some r => some (regionFault 2 (dw r))
      | none => if scalarDst then some (regionFault 3 0) else
        (s.curTeam.pendingOn x.host regs).map fun p => { kind := 16, d0 := dw p.1, d1 := dw p.2.toNat }
    | none => (s.curTeam.pendingOn x.host regs).map fun p => { kind := 16, d0 := dw p.1, d1 := dw p.2.toNat }

/-- Issue of an instruction that names vector registers (R138, R157): the checks, and then its body; without an
agent that may issue there is no step. -/
def State.issue (s : State) (regs : List Nat) (scalarDst : Bool) (body : State → State) : Host.Outcome State Fault Refusal :=
  if s.canIssue then
    .next (match s.regFault regs scalarDst with
      | some f => s.raise f
      | none => body s)
  else .fault .noAgent

/-- Issue of an instruction that names no vector register. -/
def State.issuePlain (s : State) (body : State → State) : Host.Outcome State Fault Refusal :=
  if s.canIssue then .next (body s) else .fault .noAgent

-- Sources (R23, R74).
def sextImm (w : Nat) (x : BitVec 28) : BitVec w := x.signExtend w
/-- The immediate of an F32 form (R23). -/
def f32Imm (x : BitVec 28) : Word := (x.zeroExtend 32) <<< 4

/-- A scalar's low word, as a broadcast supplies it. -/
def State.slow (s : State) (r : SReg) : Word := (s.sreg r.toNat).setWidth 32
def State.laneInt (s : State) (gl : Nat) : LaneSrc → Word
  | .v r => s.vreg gl r.toNat
  | .s r => s.slow r
  | .imm x => sextImm 32 x
def State.laneFlt (s : State) (gl : Nat) : LaneSrc → Word
  | .v r => s.vreg gl r.toNat
  | .s r => s.slow r
  | .imm x => f32Imm x
def State.laneReg (s : State) (gl : Nat) : RegSrc → Word
  | .v r => s.vreg gl r.toNat
  | .s r => s.slow r
def State.lanePair (s : State) (gl : Nat) : RegSrc → DWord
  | .v r => s.vpair gl r.toNat
  | .s r => s.sreg r.toNat
def State.laneUnInt (s : State) (gl : Nat) : UnSrc → Word
  | .v r => s.vreg gl r.toNat
  | .imm x => sextImm 32 x
def State.laneUnFlt (s : State) (gl : Nat) : UnSrc → Word
  | .v r => s.vreg gl r.toNat
  | .imm x => f32Imm x
def State.scalInt (s : State) : ScalSrc → DWord
  | .s r => s.sreg r.toNat
  | .imm x => sextImm 64 x
def State.scalFlt (s : State) : ScalSrc → Word
  | .s r => s.slow r
  | .imm x => f32Imm x

/-- Write of a 64-bit lane value to a pair, for each lane of a list (R39). -/
def State.writePairs (s : State) (lanes : List Nat) (r : Nat) (f : Nat → DWord) : State :=
  (s.writeLanes lanes r fun gl => (f gl).setWidth 32).writeLanes lanes (r + 1) fun gl => (f gl >>> 32).setWidth 32

/-- A lane instruction's effect: each member's destination takes its value, from operands fetched before any
write, and the instruction retires (R73, R74, R76). -/
def State.laneOp (s : State) (k : KReg) (d : VReg) (f : Nat → Word) : State :=
  ((s.clearK k.toNat).writeLanes (s.lanes k) d.toNat f).retire {}
/-- The same with a pair for destination. -/
def State.pairOp (s : State) (k : KReg) (d : VReg) (f : Nat → DWord) : State :=
  ((s.clearK k.toNat).writePairs (s.lanes k) d.toNat f).retire {}
/-- A scalar instruction's effect. -/
def State.scalOp (s : State) (d : SReg) (x : DWord) : State := (s.setSreg d.toNat x).retire {}

-- Special registers (R40).
/-- The whole value of special register n of a group, for an agent; sr.lane is per lane and not read here. -/
def State.specialIn (s : State) (a : AgentRef) (host n : Nat) : DWord :=
  let t := s.team a.team
  let g := t.group host
  match n with
  | 1 => dw host
  | 2 => dw t.index.toNat
  | 3 => dw t.node
  | 4 => dw t.logical
  | 5 => dw t.position
  | 6 => dw t.gen.toNat
  | 7 => dw g.live.toNat
  | 8 => dw g.sat.toNat
  | 9 => dw (s.teamTick t)
  | 10 => dw g.sp.toNat
  | 11 => dw (s.swdOf a)
  | 12 => g.ms
  | 13 => dw g.rmode.toNat
  | _ => 0
/-- As kernel code reads it. -/
def State.special (s : State) (a : AgentRef) (n : Nat) : DWord := s.specialIn a (s.agent a).host n
/-- What a lane reads: its home coordinates for sr.lane and sr.group (R112). -/
def State.specialLane (s : State) (a : AgentRef) (n gl : Nat) : DWord :=
  match n with
  | 0 => dw (gl % 32)
  | 1 => dw (gl / 32)
  | _ => s.special a n

end Sys2Proof.Machine
end

