-- ==== Sys2Proof/Machine/Flags.lean ====
section
/-! DEFINITION. Flags and issue conditions: the comparisons of test (06 R99, 04 R58), the sticky saturation flag
(04 R64, R65), and the partial-set check (06 R124). -/

namespace Sys2Proof.Machine

/-- A comparison of two ordered values. -/
def cmpOrd (c : Cmp) (o : Ordering) : Bool :=
  match c, o with
  | .eq, .eq => true
  | .eq, _ => false
  | .ne, .eq => false
  | .ne, _ => true
  | .lt, .lt => true
  | .lt, _ => false
  | .le, .gt => false
  | .le, _ => true
  | .gt, .gt => true
  | .gt, _ => false
  | .ge, .lt => false
  | .ge, _ => true
def intOrd (a b : Int) : Ordering := if a < b then .lt else if a = b then .eq else .gt

/-- A floating-point comparison: with a NaN only ne holds, and the zeros are equal (R58). -/
def fltTest (t : Ty) (c : Cmp) (a b : Nat) : Bool :=
  match decodeFloat t a, decodeFloat t b with
  | .nan, _ => c == .ne
  | _, .nan => c == .ne
  | x, y => cmpOrd c (numCmp x y)

/-- test on 32-bit operands (R99). -/
def testWord (c : Cmp) (t : TestTy) (a b : Word) : Bool :=
  match t with
  | .s32 => cmpOrd c (intOrd a.toInt b.toInt)
  | .n32 => cmpOrd c (intOrd a.toNat b.toNat)
  | .f32 => fltTest .f32 c a.toNat b.toNat
  | .f64 => fltTest .f64 c a.toNat b.toNat
/-- test on pairs (R99). -/
def testPair (c : Cmp) (a b : DWord) : Bool := fltTest .f64 c a.toNat b.toNat

/-- sr.sat[0] of each home group with a saturating lane is set (R64). -/
def Team.setSat (t : Team) : List Nat → Team
  | [] => t
  | gl :: ls => (t.modGroup (gl / 32) fun g => { g with sat := g.sat ||| 1 }).setSat ls

/-- The saturation test of a barrier (R65). -/
def State.satFault (s : State) : Option Raise :=
  if s.curGroup.sat == 3 then some { kind := 9, d0 := 3 } else none

/-- The agent is its group, under the group's full live set (R124). -/
def State.fullSet (s : State) : Bool :=
  let x := s.curAgent
  x.kind == .group && x.status == .ready &&
    s.curTeam.k0Set s.cur.agent == BitVec.ofNat 1024 (s.curGroup.live.toNat * 2 ^ (32 * x.host))
/-- The partial-set fault (R98, R124, R310). -/
def State.partialFault (s : State) : Option Raise :=
  if s.fullSet then none
  else some { kind := 7, d0 := s.curTeam.k0Desc s.cur.agent, d1 := dw s.curGroup.live.toNat }

/-- The first fault of a list of checks. -/
def firstFault : List (Option Raise) → Option Raise
  | [] => none
  | some f :: _ => some f
  | none :: l => firstFault l

/-- Issue of an instruction without vector registers whose own checks run in order. -/
def State.issueChecked (s : State) (check : State → Option Raise) (body : State → State) : Host.Outcome State Fault Refusal :=
  s.issuePlain fun s => match check s with
    | some f => s.raise f
    | none => body s

end Sys2Proof.Machine
end

