-- ==== Sys2Proof/Machine/Trace.lean ====
section
/-! DEFINITION. Waymark's trace ring (22 R336 to R339): joined names, records, drops. -/

namespace Sys2Proof.Machine

/-- A joined name (R336): process and thread, launch number, team index, group slot. -/
def nameBytes (owner : DWord) (number team : BitVec 32) (group : Nat) : List Byte :=
  wordBytes owner.toNat 8 ++ wordBytes number.toNat 4 ++ wordBytes team.toNat 4 ++ wordBytes group 8
/-- The joined name of a group of a team. -/
def State.nameOf (s : State) (team group : Nat) : List Byte :=
  let t := s.team team
  let l := s.launch t.launch
  nameBytes l.owner l.number t.index group
/-- The name of an agent of the system cores (R336). -/
def systemName : List Byte := nameBytes 0 0 0xFFFFFFFF 0xFF

/-- A record's bytes (R337). -/
def traceBytes (kind flags core mhz tick : Nat) (name payload : List Byte) : List Byte :=
  wordBytes kind 1 ++ wordBytes flags 1 ++ wordBytes core 2 ++ wordBytes mhz 2 ++ wordBytes (Config.millivolts mhz).toNat 2 ++
    wordBytes tick 8 ++ name ++ (payload ++ List.replicate 24 0).take 24

/-- The trace ring of an interface is active: its size in records (R335). -/
def Vi.ringRecords (v : Vi) : Option Nat :=
  let n := bitsOf v.wmRing 0 5
  if bitsOf v.wmCtl 0 1 == 1 && decide (4 ≤ n ∧ n ≤ 20) then some (2 ^ n) else none
/-- The ring is full when n more records stand in it (R337). -/
def Vi.ringFull (v : Vi) (records n : Nat) : Bool := (v.wmProd + BitVec.ofNat 32 n - v.wmCons).toNat == records

/-- A record written at the producer index, which advances and is published below the base (R337); nothing lies below a
ring base of 0. -/
def State.putTrace (s : State) (vi : Nat) (records : Nat) (bytes : List Byte) : State :=
  let v := s.vi vi
  let base := bitsOf v.wmRing 12 52 * 4096
  let s := match s.writeOwn vi (base + 64 * (v.wmProd.toNat % records)) bytes with
    | .ok s' => s'
    | .error _ => s
  let s := s.modVi vi fun v => { v with wmProd := v.wmProd + 1 }
  match s.writeOwn vi ((base + 2 ^ 64 - 16) % 2 ^ 64) (wordBytes (v.wmProd + 1).toNat 8) with
  | .ok s' => s'
  | .error _ => s

/-- A record is appended, or dropped and counted; after drops a kind-8 record comes first (R337). -/
def State.trace (s : State) (vi kind core : Nat) (det : Bool) (name payload : List Byte) : State :=
  let v := s.vi vi
  match v.ringRecords with
  | none => s
  | some n =>
    let mhz := (s.core core).mhz
    let flags := (if det then 1 else 0) + if v.captures.any (fun c => c.1 == coreTower core) then 2 else 0
    if v.ringFull n 0 || (v.wmDropped != 0 && v.ringFull n 1) then s.modVi vi fun v => { v with wmDropped := v.wmDropped + 1 }
    else
      let s := if v.wmDropped == 0 then s
        else (s.putTrace vi n (traceBytes 8 flags core mhz s.tick name (wordBytes v.wmDropped 4))).modVi vi fun v => { v with wmDropped := 0 }
      s.putTrace vi n (traceBytes kind flags core mhz s.tick name payload)

/-- A record of a group of a team. -/
def State.traceTeam (s : State) (team group kind : Nat) (payload : List Byte) : State :=
  let t := s.team team
  s.trace (s.viOf t) kind t.core (s.launch t.launch).determinate (s.nameOf team group) payload

/-- A record of a core, in the ring of every interface of its partition that traces (R338). -/
def State.traceCore (s : State) (core kind : Nat) (payload : List Byte) : State :=
  s.vis.foldl (fun s p => if (s.partition p.2.partition).grid.contains core then s.trace p.1 kind core false systemName payload else s) s

/-- A change of a core's clock, recorded with its cause (R142, R338). -/
def State.setClock (s : State) (core mhz cause : Nat) : State :=
  let old := (s.core core).mhz
  if old == mhz then s
  else (s.modCore core fun c => { c with mhz := mhz }).traceCore core 3 (wordBytes old 2 ++ wordBytes mhz 2 ++ wordBytes cause 1)

/-- The commit number of a record of a team: 0 outside determinate mode (R337). -/
def State.commitOf (s : State) (t : Team) : Nat :=
  let l := s.launch t.launch
  if l.determinate then l.commits else 0

end Sys2Proof.Machine
end

