-- ==== Sys2Proof/Machine/Access.lean ====
section
/-! DEFINITION. Access steps: the bytes and metadata of a place, the judgment of an access by the race hardware (16
R267 to R277) and by the abstract machine (15 R241 to R254), and the one step that performs it. -/

namespace Sys2Proof.Machine

-- Places.
/-- The column that mirrors the writes to a column during a move (R230). -/
def State.mirrorOf (s : State) : Place → Option Place
  | .column t c => match (s.tower t).move with
    | some (p, q, _) => if p == c then some (.column t q) else none
    | none => none
  | _ => none
def State.byteAt (s : State) (key : Nat) : Place → Nat → Byte
  | .shared t, a => readByte (s.team t).shared a
  | .column t c, a => readByte (s.column (48 * t + c)).bytes a
  | .main, a => s.readKeyed key a
  | .peer m, a => readByte (s.peer m).memory a
def State.putByte (s : State) (key : Nat) (p : Place) (a : Nat) (b : Byte) : State :=
  match p with
  | .shared t => s.modTeam t fun t => { t with shared := writeByte t.shared a b }
  | .column t c => s.modColumn (48 * t + c) fun x => { x with bytes := writeByte x.bytes a b }
  | .main => s.writeKeyed key a b
  | .peer m => s.modPeer m fun x => { x with memory := writeByte x.memory a b }
def State.histAt (s : State) : Place → Nat → List ByteWrite
  | .shared t, a => cellGet [] (s.team t).hist a
  | .column t c, a => cellGet [] (s.column (48 * t + c)).hist a
  | .main, a => cellGet [] s.mainHist a
  | .peer m, a => cellGet [] (s.peer m).hist a
def State.putHist (s : State) (p : Place) (a : Nat) (h : List ByteWrite) : State :=
  match p with
  | .shared t => s.modTeam t fun t => { t with hist := cellPut t.hist a h }
  | .column t c => s.modColumn (48 * t + c) fun x => { x with hist := cellPut x.hist a h }
  | .main => { s with mainHist := cellPut s.mainHist a h }
  | .peer m => s.modPeer m fun x => { x with hist := cellPut x.hist a h }
def State.readsAt (s : State) : Place → Nat → List ReadEv
  | .shared t, g => cellGet [] (s.team t).reads g
  | .column t c, g => cellGet [] (s.column (48 * t + c)).reads g
  | .main, g => cellGet [] s.mainReads g
  | .peer m, g => cellGet [] (s.peer m).reads g
def State.putReads (s : State) (p : Place) (g : Nat) (l : List ReadEv) : State :=
  match p with
  | .shared t => s.modTeam t fun t => { t with reads := cellSet [] t.reads g l }
  | .column t c => s.modColumn (48 * t + c) fun x => { x with reads := cellSet [] x.reads g l }
  | .main => { s with mainReads := cellSet [] s.mainReads g l }
  | .peer m => s.modPeer m fun x => { x with reads := cellSet [] x.reads g l }

-- An access.
/-- One access: where, what kind, whose, and what a race record says of it (R241, R262, R276). -/
structure Acc where
  place : Place
  addr : Nat
  size : Nat
  /-- Key slot of a main-memory access. -/
  key : Nat := 0
  read : Bool
  write : Bool
  marked : Bool := false
  /-- 0 unmarked, 1 team to 5 domain. -/
  scope : Nat := 0
  acq : Option Nat := none
  rel : Option Nat := none
  /-- An ld.fe or ld.take (R272). -/
  fe : Bool := false
  engine : Bool := false
  /-- The copy or command of an engine: its team and number (Who.engine). -/
  source : Option (Nat × Nat) := none
  team : Nat
  group : Nat
  /-- The agent whose view the access takes part in; none for an engine. -/
  agent : Option Nat
  ident : BitVec 18
  clocks : Clocks
  gvec : Cells (BitVec 20)
  tvec : Cells (BitVec 20)
  view : View
  carried : List Snap
  handle : Nat := 0
  lane : Nat := 0xFF
  coords : List Nat := []
  pc : Nat := 0
  elem : Nat := 0
  /-- Virtual address of a main-memory access. -/
  va : Nat := 0
  /-- Its races and storage errors were judged with the rest of its step. -/
  quiet : Bool := false
  /-- Of another module's write: what its snapshot knows of this module's cluster slots, the joined name of its group, and what it publishes (R277). -/
  foreign : Option (Cells ModEntry) := none
  name : List Byte := []
  pub : Option (BitVec 20 × Cells (BitVec 20)) := none

/-- The granules an access touches (R240). -/
def Acc.granules (c : Acc) : List Nat :=
  (List.range ((c.addr + c.size - 1) / 16 + 1 - c.addr / 16)).map fun i => c.addr / 16 + i
/-- Its lines. -/
def Acc.lines (c : Acc) : List Nat :=
  (List.range ((c.addr + c.size - 1) / 64 + 1 - c.addr / 64)).map fun i => c.addr / 64 + i
/-- Its granules within a line, as a mask. -/
def Acc.mask (c : Acc) (line : Nat) : Nat :=
  (c.granules.filter fun g => g / 4 == line).foldl (fun m g => m + 2 ^ (g % 4)) 0
/-- The access code of a race record (R276). -/
def Acc.code (c : Acc) : Nat :=
  if c.engine then (if c.write then 4 else 3) else if c.write then (if c.read then 2 else 1) else 0
/-- The scope field of the line metadata (R267). -/
def Acc.scopeField (c : Acc) : Nat := if c.scope == 0 then 0 else if c.scope ≤ 2 then 1 else if c.scope ≤ 4 then 2 else 3

/-- An event is in a view (R243); event 0 is every initial write. -/
def inView (v : View) (e : Nat) : Bool := e == 0 || v.testBit e
def addEvent (v : View) (e : Nat) : View := v ||| 2 ^ e

/-- The party of an access. -/
def Acc.who (c : Acc) : Who := ⟨c.team, c.agent, c.source, c.ident, c.clocks.group⟩
/-- An earlier event of a party conflicts with an access and is not ordered before it (R251): not both are marked, and they do not belong to one copy
or the deliveries of one cpym. -/
def Acc.races (c : Acc) (ev : Nat) (marked : Bool) (w : Who) : Bool :=
  !inView c.view ev && !(marked && c.marked) && !(c.source.isSome && w.engine == c.source)
/-- The writes performed on granules. -/
def State.granuleWrites (s : State) (p : Place) (granules : List Nat) : List ByteWrite :=
  granules.flatMap fun g => (List.range 16).flatMap fun i => s.histAt p (16 * g + i)
/-- A write of a granule the access conflicts with, not ordered before it (R251). -/
def State.unorderedWrite (s : State) (c : Acc) (granules : List Nat) : Bool :=
  (s.granuleWrites c.place granules).any fun w => c.races w.ev w.marked w.who

-- The race hardware.
/-- A coverage loss of the launch of an access; that of another module's stands at that module (R274, R277). -/
def State.charge (s : State) (c : Acc) (counter : Nat) : State := if c.foreign.isSome then s else s.loss (s.team c.team).launch counter
/-- The accessor's view of a stored party, and its level: 0 in its team, 1 in its cluster, 2 elsewhere (R270). -/
def State.viewOf (s : State) (c : Acc) (x : BitVec 18) : BitVec 20 × Nat :=
  if bitsOf x 5 13 == bitsOf c.ident 5 13 then (cellGet 0 c.gvec (identGroup x), 0)
  else if identCluster x == identCluster c.ident then (cellGet 0 c.tvec (identPos x), 1)
  else (cellGet 0 (cellGet blankEntry (c.foreign.getD (s.team c.team).modvec) (identCluster x)).tclks (identPos x), 2)

/-- How R270 judges a stored access: ordered or not, the view it compared, whether the clocks order it, and whether only their window does. -/
structure Verdict where
  ok : Bool
  seen : BitVec 20
  clocked : Bool
  window : Bool
def State.hwOrdered (s : State) (c : Acc) (x : Stored) : Verdict :=
  if x.ident = noIdent then ⟨true, 0, false, false⟩
  else
    let v := s.viewOf c x.ident
    let w := if v.2 == 0 then x.gclk else x.tclk
    let floor := cellGet (0, 0) s.floors x.ident.toNat
    let f := if v.2 == 0 then floor.1 else floor.2
    if decide (w.toNat ≤ f.toNat) || (x.ident == c.ident && !x.engine) then ⟨true, v.1, false, false⟩
    else
      let ok := decide ((v.1 - w).toNat < 2 ^ 19)
      ⟨ok, v.1, ok, ok && decide (v.1.toNat < w.toNat)⟩

/-- A pair that R272 does not check: both marked, an ld.fe or ld.take, or chunks and deliveries of one copy, which identity, group clock and engine bit
name; a reader epoch that a matrix command left at that clock is none of them. -/
def Acc.exempt (c : Acc) (x : Stored) (es : List (Nat × Bool × Who)) : Bool :=
  (x.scope != 0 && c.marked) || c.fe ||
    (c.engine && x.engine && x.ident = c.ident && x.gclk = c.clocks.group && es.all fun e => e.2.2.engine == c.source)

/-- A race that the hardware found: its kind, the earlier party, and the view that failed (R272, R276). -/
structure Race where
  kind : Nat
  other : Stored
  seen : BitVec 20
  line : Nat

/-- The events that a stored access stands for: those of its party at its group clock. -/
def Stored.covers (x : Stored) (w : Who) : Bool := w.ident == x.ident && w.clock == x.gclk && w.engine.isSome == x.engine
/-- The events of a stored access on the granules it shares with an access: number, whether marked, and party. -/
def State.eventsOf (s : State) (c : Acc) (line : Nat) (x : Stored) : List (Nat × Bool × Who) :=
  let gs := c.granules.filter fun g => g / 4 == line && x.mask / 2 ^ (g % 4) % 2 == 1
  if x.write then ((s.granuleWrites c.place gs).filter fun w => x.covers w.who).map fun w => (w.ev, w.marked, w.who)
  else (gs.flatMap fun g => (s.readsAt c.place g).filter fun r => x.covers r.who).map fun r => (r.ev, r.marked, r.who)

/-- The writer group of a stored access has made no release at cluster scope or wider since (R274). -/
def State.narrow (s : State) (x : Stored) : Bool :=
  let since (w : Option (BitVec 20)) : Bool := match w with
    | some w => decide (w.toNat < x.gclk.toNat)
    | none => true
  match s.holder x.ident with
  | some (t, g) => since ((s.team t).group g).wide
  | none => match s.proxyOf x.ident with
    | some p => since (cellGet none p.wides x.ident.toNat)
    | none => false

/-- One pair judged: the race, if the hardware finds one that the abstract machine calls one (R253, R274), and the coverage losses (R270, R272,
R274). Lanes of one fragment are not checked against each other. -/
def State.judgePair (s : State) (c : Acc) (line kind : Nat) (x : Stored) : Option Race × List Nat :=
  let es := s.eventsOf c line x
  if Nat.land x.mask (c.mask line) == 0 || c.exempt x es || (!es.isEmpty && c.agent.isSome && es.all fun e => e.2.2.team == c.team && e.2.2.agent == c.agent) then
    (none, [])
  else
    let j := s.hwOrdered c x
    let unordered := es.any fun e => c.races e.1 e.2.1 e.2.2
    if !j.ok then (if unordered then some ⟨kind, x, j.seen, line⟩ else none, [])
    else
      (none, (if j.window then [2] else []) ++ (if x.ident = c.ident && !x.engine && !c.engine && unordered then [5] else []) ++
        (if j.clocked && (s.viewOf c x.ident).2 != 0 && x.write && s.narrow x then [7] else []))

/-- The checks of one line in the order of R272, against the line as it stood. Every write counts the overflow bit it meets. -/
def State.judgeLine (s : State) (before : Before) (c : Acc) (line : Nat) : Option Race × List Nat :=
  let m := before c.place line
  let w := s.judgePair c line (if c.read then 0 else 1) m.1.stored
  let rs := if c.write then m.2.map (s.judgePair c line 2) else []
  let lost := if c.write && m.1.overflow then [0] else []
  match w.1 with
  | some r => (some r, w.2 ++ lost)
  | none => ((rs.findSome? (·.1)), w.2 ++ rs.flatMap (·.2) ++ lost)

/-- All lines judged: the first race, and every loss. -/
def State.judge (s : State) (before : Before) (c : Acc) : Option Race × List Nat :=
  if c.ident = noIdent then (none, [])
  else
    let js := c.lines.map (s.judgeLine before c)
    (js.findSome? (·.1), js.flatMap (·.2))

/-- The race record (R276): its fields from byte 0 upward. -/
def State.raceRecord (s : State) (c : Acc) (r : Race) (trapped : Bool) (sequence : Nat) : BitVec 1024 :=
  let known := s.holder r.other.ident
  let earlierName := match known with
    | some (t, _) => s.nameOf t (identGroup r.other.ident)
    | none => nameBytes 0 0 0 (identGroup r.other.ident)
  let space := match c.place with | .shared _ => 0 | .column _ _ => 1 | .main | .peer _ => 2
  let line := match c.place with
    | .shared _ => 64 * r.line
    | .column _ col => 64 * r.line + col * 2 ^ 58
    | .main | .peer _ => c.va / 64 * 64 + 64 * (r.line - c.addr / 64)
  let clk (a b e : BitVec 20) : Nat := a.toNat + b.toNat * 2 ^ 20 + e.toNat * 2 ^ 40
  let earlierCode := if r.other.engine then (if r.other.write then 4 else 3) else if r.other.write then 1 else 0
  let bytes :=
    wordBytes (r.kind + (if trapped then 4 else 0) + if known.isNone then 8 else 0) 2 ++
    wordBytes (c.code + 16 * earlierCode) 1 ++ wordBytes (c.mask r.line + 16 * r.other.mask) 1 ++
    wordBytes (c.scope + 16 * r.other.scope.toNat) 1 ++ wordBytes space 1 ++
    wordBytes (c.handle % 128 + if c.engine then 128 else 0) 1 ++ wordBytes (if c.engine then 0xFF else c.lane) 1 ++
    ((List.range 4).flatMap fun i => wordBytes ((c.coords[i]?).getD 0) 2) ++ wordBytes line 8 ++
    wordBytes (c.pc + (min c.elem 255) * 2 ^ 32) 8 ++ (if c.foreign.isSome then c.name else s.nameOf c.team c.group) ++ earlierName ++
    wordBytes (clk c.clocks.group c.clocks.team c.clocks.epoch) 8 ++
    wordBytes (r.other.gclk.toNat + r.other.tclk.toNat * 2 ^ 20 + r.other.ident.toNat * 2 ^ 40) 8 ++
    wordBytes (c.ident.toNat + r.seen.toNat * 2 ^ 18) 8 ++ wordBytes sequence 8
  BitVec.ofNat 1024 (bytesWord bytes)

/-- A record appended to the launch's race log ring, or dropped with counter 9 (R276). A failed device access kills the
launch with kind 0 (R317). -/
def State.logRace (s : State) (team : Nat) (rec_ : BitVec 1024) : State :=
  let li := (s.team team).launch
  let l := s.launch li
  let kill (s : State) : State := s.killLaunch li ⟨2, 0, 0, 0, 0, 0⟩
  match s.devRead l.vi l.ring 16 with
  | .error _ => kill s
  | .ok (s, idx) =>
    let p := bytesWord (idx.take 8)
    let q := bytesWord (idx.drop 8)
    if 2 ^ l.ringLog ≤ p - q then s.loss li 9
    else match s.devWrite l.vi (l.ring + 128 + 128 * (p % 2 ^ l.ringLog)) (wordBytes rec_.toNat 128) with
      | .error _ => kill s
      | .ok s => match s.devWrite l.vi l.ring (wordBytes (p + 1) 8) with
        | .error _ => kill s
        | .ok s => s.modLaunch li fun l => { l with records := l.records + 1, sequence := l.sequence + 1 }

-- The update of the metadata (R273).
/-- A reader's table entry, found or taken at the lowest free token, with one more epoch counted (R268). -/
def State.takeReader (s : State) (tower : Nat) (c : Acc) : State × Option (BitVec 11) :=
  let t := s.tower tower
  let sc := BitVec.ofNat 2 c.scopeField
  match t.readers.find? fun p => p.2.ident == c.ident && p.2.gclk == c.clocks.group && p.2.scope == sc &&
      p.2.engine == c.engine with
  | some p => (s.modTower tower fun t => { t with readers := cellPut t.readers p.1 { p.2 with count := p.2.count + 1 } }, some (BitVec.ofNat 11 p.1))
  | none => match (List.range 2047).find? fun i => !cellHas t.readers i with
    | some i => (s.modTower tower fun t => { t with readers := cellPut t.readers i ⟨c.ident, c.clocks.group, c.clocks.team, sc, c.engine, 1⟩ },
        some (BitVec.ofNat 11 i))
    | none => (s, none)

/-- The previous write of a line is by the same identity at the same group clock. -/
def Acc.sameWriter (c : Acc) (m : LineMeta) : Bool := m.writer == c.ident && m.wgclk == c.clocks.group
/-- A write drops granules of an unordered writer from a line (counter 4). -/
def State.losesHistory (s : State) (c : Acc) (line : Nat) : Bool :=
  let m := s.metaAt c.place line
  !c.sameWriter m && (m.wmask &&& ~~~BitVec.ofNat 4 (c.mask line)) != 0 && !(s.hwOrdered c m.stored).ok
/-- A write's update of a line. -/
def State.writeMeta (s : State) (c : Acc) (line : Nat) : State :=
  let m := s.metaAt c.place line
  let tower := s.placeTower c.place (64 * line)
  let mask := BitVec.ofNat 4 (c.mask line)
  let same := c.sameWriter m
  let s := if s.losesHistory c line then s.charge c 4 else s
  let s := (s.dropReader tower m.reader0).dropReader tower m.reader1
  s.putMeta c.place line
    ⟨c.ident, c.clocks.group, c.clocks.team, BitVec.ofNat 2 c.scopeField, if same then m.wmask ||| mask else mask, c.engine, false, emptyEpoch,
      emptyEpoch⟩

/-- A read's update of a line: the same entry, an ordered epoch, an empty one, or the overflow bit. -/
def State.readMeta (s : State) (c : Acc) (line : Nat) : State :=
  let m := s.metaAt c.place line
  let tower := s.placeTower c.place (64 * line)
  let mask := BitVec.ofNat 4 (c.mask line)
  match s.takeReader tower c with
  | (s, none) => s.putMeta c.place line { m with overflow := true }
  | (s, some tok) =>
    let ordered (e : Epoch) : Bool := match s.storedReader tower e with
      | some x => (s.hwOrdered c x).ok
      | none => false
    if m.reader0.token == tok then
      (s.dropReader tower m.reader0).putMeta c.place line { m with reader0 := ⟨m.reader0.mask ||| mask, tok⟩ }
    else if m.reader1.token == tok then
      (s.dropReader tower m.reader1).putMeta c.place line { m with reader1 := ⟨m.reader1.mask ||| mask, tok⟩ }
    else if ordered m.reader0 then (s.dropReader tower m.reader0).putMeta c.place line { m with reader0 := ⟨mask, tok⟩ }
    else if ordered m.reader1 then (s.dropReader tower m.reader1).putMeta c.place line { m with reader1 := ⟨mask, tok⟩ }
    else if m.reader0.token == 0x7FF then s.putMeta c.place line { m with reader0 := ⟨mask, tok⟩ }
    else if m.reader1.token == 0x7FF then s.putMeta c.place line { m with reader1 := ⟨mask, tok⟩ }
    else (s.dropReader tower ⟨mask, tok⟩).putMeta c.place line { m with overflow := true }

def State.updateMeta (s : State) (c : Acc) (wrote : Bool) : State :=
  if c.ident = noIdent then s
  else c.lines.foldl (fun s l => if wrote then s.writeMeta c l else s.readMeta c l) s

-- Values (R252).
/-- The writes a racing read may return for a byte: performed, and not ordered before another write of the byte that
is ordered before the read. -/
def candidates (v : View) (h : List ByteWrite) : List ByteWrite :=
  h.filter fun w => !(h.any fun x => inView v x.ev && x.ev != w.ev && inView x.view w.ev)
/-- The writes of a byte, newest first, the initial write included; the bytes of a line of main memory under another key slot are read as R330 has
it. -/
def State.writesOf (s : State) (c : Acc) (a : Nat) : List ByteWrite :=
  match s.histAt c.place a with
  | [] => [ByteWrite.initial (s.byteAt c.key c.place a)]
  | w :: h => { w with val := s.byteAt c.key c.place a } :: match c.place with
    | .main => h.map fun x => { x with val := s.keyed c.key a x.val }
    | _ => h
/-- A free choice of an element of a list. -/
def pick {α : Type} (n : Nat) (l : List α) : Option α := l[Config.freeChoice n % l.length]?

def State.chosen (s : State) (c : Acc) : List ByteWrite :=
  let lists := (List.range c.size).map fun i => candidates c.view (s.writesOf c (c.addr + i))
  let evs := lists.map fun l => l.map (·.ev)
  let alone (a : Nat) : Bool := (s.histAt c.place a).all fun w => !((evs.headD []).contains w.ev) || w.ev == 0
  let uniform := evs.all (· == evs.headD []) && (c.addr == 0 || alone (c.addr - 1)) && alone (c.addr + c.size)
  lists.zipIdx.map fun l => ((pick (s.freeCount + if uniform then 0 else l.2) l.1).getD (ByteWrite.initial 0))

/-- The writes an access reads: the latest of each byte when marked or in no race, else a free choice among the
candidates. In a determinate launch memory is as the steps before leave it, on every run the same (R261, R301). -/
def State.readWrites (s : State) (c : Acc) : List ByteWrite :=
  if c.marked || (s.launch (s.team c.team).launch).determinate || !s.unorderedWrite c c.granules then (List.range c.size).map fun i => (s.writesOf c (c.addr + i)).headD (ByteWrite.initial 0)
  else s.chosen c

-- Effects of a performed write.
/-- Another party's write meets the watches of its lines (R172). -/
def State.touchWatches (s : State) (c : Acc) : State :=
  { s with teams := s.teams.map fun t =>
      (t.1, { t.2 with agents := t.2.agents.map fun a =>
        (a.1, if t.1 == c.team && some a.1 == c.agent then a.2
          else match a.2.watch with
            | some w => if w.lines.any fun l => l.1 == c.place && c.lines.contains l.2 then { a.2 with watch := some { w with hit := true } } else a.2
            | none => a.2) }) }

/-- The full bits of the granules written in shared memory, with what the filling write carries (R154, R257). -/
def State.setFull (s : State) (c : Acc) (view : View) (cluster : Bool) (met : List Snap × List Source) : State :=
  match c.place with
  | .shared t => s.modTeam t fun t =>
      { t with full := c.granules.foldl (fun m g => cellPut m g ⟨view, cluster, c.ident, c.clocks, met.1, met.2⟩) t.full }
  | _ => s

/-- Bytes stored with their history (R244); during a move also in the target column, whose metadata and history pass to it at the switch, before
which nothing reads them (R230). -/
def State.storeBytes (s : State) (c : Acc) (w : Byte → ByteWrite) : Nat → List Byte → State
  | _, [] => s
  | i, b :: bs =>
    let a := c.addr + i
    let h := s.writesOf c a
    let s := (s.putHist c.place a (w b :: h)).putByte c.key c.place a b
    let s := match s.mirrorOf c.place with
      | some q => s.putByte c.key q a b
      | none => s
    s.storeBytes c w (i + 1) bs

/-- What an access step answers: the bytes read (of a write, those overwritten) and its event, a race, or a storage
error. -/
inductive Got where
  | bytes (l : List Byte) (event : Nat)
  | race (record : BitVec 1024) (other : BitVec 18) (gclk tclk : BitVec 20)
  | storage
deriving DecidableEq, Repr

/-- The view of an access that a handler completes: it follows the other party's accesses of its granules (R253, R275). -/
def State.overtaken (s : State) (c : Acc) (x : Stored) : View :=
  c.lines.foldl (fun v l => (s.eventsOf c l x).foldl (fun v e => addEvent v e.1) v) c.view

/-- A race record takes the next number of its launch (R276). -/
def State.numberRace (s : State) (team : Nat) : State := s.modLaunch (s.team team).launch fun l => { l with sequence := l.sequence + 1 }
/-- The writers of the writes that an access reads, as the lines' metadata name them (R265), each once. -/
def State.sourcesOf (s : State) (c : Acc) (read : List ByteWrite) : List Source :=
  (c.lines.filterMap fun l =>
    let m := s.metaAt c.place l
    if Nat.land m.wmask.toNat (c.mask l) == 0 then none
    else
      let ws := read.filter fun w => w.who.ident == m.writer && w.who.clock == m.wgclk
      some (⟨m.writer, m.wgclk, ws.any (·.rel), ws.findSome? (·.pub)⟩ : Source)).eraseDups

/-- One access step (R242): the race checks against the lines as they stood before the instruction, the storage check, the values
of R252, the update of R273, the write, and the acquire and release of R244, R245 and R264. new maps the bytes read to the
bytes to write; none writes nothing. completing: the other party of a racing access that a handler completes (R275). -/
def State.access (s : State) (before : Before) (c : Acc) (cluster : Bool) (completing : Option Stored) (new : List Byte → Option (List Byte)) :
    State × Got :=
  let j := if completing.isSome || c.quiet then (none, []) else s.judge before c
  let li := (s.team c.team).launch
  let s := j.2.foldl (fun s k => s.charge c k) s
  let mode := ((s.team c.team).group c.group).rmode
  match j.1, decide (2 ≤ mode.toNat) with
  | some r, true => (s.numberRace c.team, .race (s.raceRecord c r true (s.launch li).sequence) r.other.ident r.other.gclk r.other.tclk)
  | race, _ =>
    if c.read && !c.quiet && s.badAt c.place c.addr c.size then (s, .storage)
    else
      let s := match race with
        | some r => if mode == 1 then s.logRace c.team (s.raceRecord c r false (s.launch li).sequence) else s
        | none => s
      let ev := s.nextEvent
      let from_ := if completing.isSome then (List.range c.size).map fun i => (s.writesOf c (c.addr + i)).headD (ByteWrite.initial 0) else s.readWrites c
      let old := from_.map (·.val)
      let readSnaps := if c.read then (from_.flatMap (·.snaps)).eraseDups else []
      let ids := if c.read then s.sourcesOf c from_ else []
      let loc := s.locOf c.team
      let base := match completing with
        | some x => s.overtaken c x
        | none => c.view
      let view := addEvent (match c.acq with
        | some τ => mergeSnaps base readSnaps loc τ
        | none => base) ev
      let out := if c.write then new old else none
      let s := s.updateMeta c out.isSome
      let s := match c.acq with
        | some τ => s.acquireAll c.team c.group τ ids
        | none => s
      let s := match out with
        | none => c.granules.foldl (fun (s : State) g => s.putReads c.place g (⟨ev, c.marked, c.who⟩ :: s.readsAt c.place g)) s
        | some bs =>
          let own := match c.rel with
            | some σ => [(⟨σ, view, loc⟩ : Snap)]
            | none => []
          let passed := if c.marked && c.read then readSnaps else []
          let w (b : Byte) : ByteWrite := ⟨ev, b, view, c.carried ++ own ++ passed, c.marked, c.who, c.rel.isSome, c.pub⟩
          let s := c.granules.foldl (fun (s : State) g => s.putReads c.place g ((s.readsAt c.place g).filter fun r => !inView view r.ev)) s
          ((s.storeBytes c w 0 bs).setFull c view cluster ([], [])).touchWatches c
      let s := match c.rel with
        | some σ => s.releaseHw c.team c.group σ
        | none => s
      let s := match c.agent with
        | some a => s.modTeam c.team fun t => t.modAgent a fun x =>
            { x with
              view := view
              seen := x.seen ++ readSnaps.filter fun y => !x.seen.contains y
              seenIds := x.seenIds ++ ids.filter fun y => !x.seenIds.contains y }
        | none => s
      ({ s with nextEvent := ev + 1, freeCount := s.freeCount + c.size }, .bytes old ev)

end Sys2Proof.Machine
end

