-- ==== Sys2Proof/Machine/Layouts.lean ====
section
/-! DEFINITION. Layout records and addresses (09 R144 to R151, 14 R227): the record a reader uses, the layout and
coordinate-count checks, the bounds check, and the place of an address. -/

namespace Sys2Proof

/-- Bytes of an element (R145). -/
def Ty.bytes (t : Ty) : Nat :=
  match t with
  | .s4 | .n4 | .f6e3m2 | .f6e2m3 | .f4e2m1 => 64
  | _ => t.bits / 8
def Ty.isNarrow (t : Ty) : Bool := t.bytes == 64

-- Coordinate slots.
def MSlot.isZero : MSlot → Bool
  | .v r => r == 0
  | _ => false
def MSlot.regs : MSlot → List Nat
  | .v r => [r.toNat]
  | _ => []
def DSlot.isZero : DSlot → Bool
  | .lit n => n == 0
  | .s _ => false
def MArgs.slots (m : MArgs) : List MSlot := [m.c0, m.c1, m.c2]
def Desc.slots (d : Desc) : List DSlot := [d.c0, d.c1, d.c2, d.c3]

end Sys2Proof

namespace Sys2Proof.Machine

/-- A layout record read by its fields (R144). -/
structure Layout where
  raw : BitVec 256
deriving DecidableEq, Repr

def Layout.space (l : Layout) : Nat := bitsOf l.raw 62 2
def Layout.tyCode (l : Layout) : Nat := bitsOf l.raw 57 5
/-- Number of extents. -/
def Layout.extents (l : Layout) : Nat := bitsOf l.raw 55 2 + 1
def Layout.perm (l : Layout) : Nat := bitsOf l.raw 52 3
def Layout.base (l : Layout) : Nat := bitsOf l.raw 0 48
def Layout.ext (l : Layout) (i : Nat) : Nat := bitsOf l.raw (64 + 16 * i) 16
def Layout.stride (l : Layout) (i : Nat) : Int := (BitVec.ofNat 32 (bitsOf l.raw (128 + 32 * i) 32)).toInt
def Layout.ty (l : Layout) : Option Ty := Ty.ofCode l.tyCode
def Layout.size (l : Layout) : Nat := match l.ty with | some t => t.bytes | none => 1

/-- The record a reader uses: its cached older copy while it holds one, else the table's (R146, R166, R259). -/
def Team.record (t : Team) (r : Reader) (handle : Nat) : Layout :=
  match t.caches.find? fun c => c.1 == r && c.2.1 == handle with
  | some c => ⟨c.2.2⟩
  | none => ⟨cellGet 0 t.layouts handle⟩

/-- The handle a layout field names (R25). -/
def State.handleOf (s : State) : LayoutRef → Nat
  | .handle h => h.toNat
  | .s r => (s.sreg r.toNat).toNat

/-- Bits of base above the space's field (R144). -/
def Layout.baseWidth (l : Layout) : Nat := match l.space with | 0 => 19 | 1 => 22 | 2 => 26 | _ => 48
/-- Cause 2 of R148. -/
def Layout.malformed (l : Layout) : Bool :=
  bitsOf l.raw 48 4 != 0 || decide (2 ^ l.baseWidth ≤ l.base) ||
  ((List.range 4).any fun i => if i < l.extents then l.ext i == 0 else l.ext i != 0 || l.stride i != 0) ||
  (match l.ty with | none => true | some t => t.isNarrow && l.space != 3) ||
  decide (5 ≤ l.perm) || (l.perm != 0 && l.space != 0)

/-- The layout fault's causes 1 to 5, in order (R148): the spaces accepted, and the test of the element. -/
def Layout.fault (l : Layout) (handle : Nat) (spaces : List Nat) (accepts : Layout → Bool) (size : Nat) : Option Nat :=
  if 127 < handle || l.ext 0 == 0 then some 1
  else if l.malformed then some 2
  else if !spaces.contains l.space then some 3
  else if !accepts l then some 4
  else if l.base % size != 0 then some 5
  else none
def layoutRaise (cause handle : Nat) : Raise := { kind := 10, cause := cause, d0 := dw handle }

/-- The coordinate-count fault (R149, R310). -/
def countRaise (l : Layout) (handle slot : Nat) : Raise :=
  { kind := 11, d0 := dw (handle % 128 + l.extents * 2 ^ 8 + slot * 2 ^ 12) }

/-- The slot that fails the count of R149: for format M, of its three slots (two where slot 2 is a control). -/
def mCount (l : Layout) (slots : List MSlot) : Option Nat :=
  if slots.length < l.extents then some slots.length
  else (slots.zipIdx.find? fun p => decide (l.extents ≤ p.2) && !p.1.isZero).map (·.2)
def dCount (l : Layout) (slots : List DSlot) : Option Nat :=
  (slots.zipIdx.find? fun p => decide (l.extents ≤ p.2) && !p.1.isZero).map (·.2)

/-- A coordinate's value for a lane (R147): a vector register or a literal is 32 bits, a scalar 64. -/
def State.mCoord (s : State) (gl : Nat) : MSlot → Nat
  | .v r => (s.vreg gl r.toNat).toNat
  | .s r => (s.sreg r.toNat).toNat
  | .lit n => n.toNat
def State.dCoord (s : State) : DSlot → Nat
  | .lit n => n.toNat
  | .s r => (s.sreg r.toNat).toNat
/-- The coordinates within the record's extents. -/
def State.mCoords (s : State) (l : Layout) (slots : List MSlot) (gl : Nat) : List Nat := (slots.take l.extents).map (s.mCoord gl)
def State.dCoords (s : State) (l : Layout) (d : Desc) : List Nat := (d.slots.take l.extents).map s.dCoord
/-- The vector registers the slots within the count name (R157). -/
def mRegs (l : Layout) (slots : List MSlot) : List Nat := (slots.take l.extents).flatMap MSlot.regs

/-- The exact byte address of an element (R147). -/
def Layout.addr (l : Layout) (size : Nat) (cs : List Nat) : Int :=
  (l.base : Int) + size * ((cs.zipIdx.map fun p => (p.1 : Int) * l.stride p.2).sum)

/-- The columns of a cluster's positions (R226); none without overpass use. -/
def State.columnOf (s : State) (t : Team) (position : Nat) : Option Nat :=
  let c := s.cluster t.cluster
  match c.binding[position]? with
  | some e => if (s.launch t.launch).overpass && e.state != 0 then some (48 * c.tower + e.col) else none
  | none => none

/-- The address range of R150 holds for n bytes from A. -/
def State.rangeOk (s : State) (t : Team) (space : Nat) (a : Int) (n : Nat) : Bool :=
  match space with
  | 0 => decide (0 ≤ a) && decide (a + n ≤ t.sharedSize)
  | 1 => decide (0 ≤ a) && decide (a + n ≤ 2 ^ 22) && (s.columnOf t t.position).isSome
  | 2 => decide (0 ≤ a) && decide (a < 2 ^ 26) && decide (a % 2 ^ 22 + n ≤ 2 ^ 22) && (s.columnOf t (a.toNat / 2 ^ 22)).isSome
  | _ => true
/-- The dimension that fails the bounds check of one element, 4 for the address range (R150). -/
def State.boundsFail (s : State) (t : Team) (l : Layout) (size : Nat) (cs : List Nat) : Option Nat :=
  match cs.zipIdx.find? fun p => decide (l.ext p.2 ≤ p.1) with
  | some p => some p.2
  | none => if s.rangeOk t l.space (l.addr size cs) size then none else some 4

/-- The bank permutation (R151). -/
def permute (perm a : Nat) : Nat :=
  let row := fld a 7 12
  let g := fld a 4 3
  let w := fld a 2 5
  let w' := match perm with
    | 1 => (Nat.xor g (row % 8)) * 4 + fld a 2 2
    | 2 => (Nat.xor g (row / 2 % 8)) * 4 + fld a 2 2
    | 3 => (Nat.xor g (row / 4 % 8)) * 4 + fld a 2 2
    | 4 => Nat.xor w (row % 32)
    | _ => w
  a / 128 * 128 + w' * 4 + a % 4

/-- Where an address of a lane space lies (R151, R227). -/
def State.placeAt (s : State) (team : Nat) (l : Layout) (a : Nat) : Place × Nat :=
  let t := s.team team
  match l.space with
  | 0 => (.shared team, permute l.perm a)
  | 1 => let c := (s.columnOf t t.position).getD 0
    (.column (c / 48) (c % 48), a)
  | _ => let c := (s.columnOf t (a / 2 ^ 22)).getD 0
    (.column (c / 48) (c % 48), a % 2 ^ 22)

/-- Where an element of n bytes at an address lies, and whether its words change places: perm 4 exchanges the two words of a doubleword in the
odd rows (R151). -/
def State.elemAt (s : State) (team : Nat) (l : Layout) (a n : Nat) : Place × Nat × Bool :=
  let p := s.placeAt team l a
  (p.1, p.2 / n * n, p.2 % n != 0)
/-- An element's bytes between memory order and value order. -/
def orient (swap : Bool) (bs : List Byte) : List Byte := if swap then bs.drop 4 ++ bs.take 4 else bs

/-- Bytes of n consecutive addresses of a record, cut where the permutation or the row may part them: pieces of at
most 16 aligned bytes. -/
def State.pieces (s : State) (team : Nat) (l : Layout) (a n : Nat) : List (Place × Nat × Nat) :=
  if l.space == 0 && l.perm != 0 then
    let step := if l.perm == 4 then 4 else 16
    (List.range ((a + n - 1) / step + 1 - a / step)).map fun i =>
      let lo := max a (step * (a / step + i))
      let hi := min (a + n) (step * (a / step + i) + step)
      let p := s.placeAt team l lo
      (p.1, p.2, hi - lo)
  else let p := s.placeAt team l a
    [(p.1, p.2, n)]

end Sys2Proof.Machine
end

