-- ==== Sys2Proof/Machine/Ends.lean ====
section
/-! DEFINITION. Waits for matrix commands (10 R191, R192), the completion of a cluster rendezvous with straggler boost (14
R238, 08 R141), and what ends with a group, a team or a cluster (06 R109, 10 R188, R196, 11 R214, R215, R220, 14 R224, R226, 16
R263, R266, 17 R292). -/

namespace Sys2Proof.Machine

-- Waiting for commands.
/-- An agent observes accesses of an engine (R245). -/
def Agent.observe (x : Agent) (o : Obs) : Agent :=
  { x with
    view := x.view ||| o.view
    seen := x.seen ++ o.snaps.filter fun y => !x.seen.contains y
    seenIds := x.seenIds ++ o.ids.filter fun y => !x.seenIds.contains y }

/-- The in-use commands of a gang of which a group is a member. -/
def Team.cmdsOf (t : Team) (g : Nat) : List Cmd := t.cmds.filter fun c => c.gang.slots.contains g
/-- Those the group has not waited for. -/
def Team.unwaited (t : Team) (g : Nat) : List Cmd := (t.cmdsOf g).filter fun c => !c.waited.contains g
/-- The command's milestone (R197). -/
def Cmd.milestone (c : Cmd) : DWord := dw (0x40 + c.id.toNat + c.pc * 2 ^ 8 + c.elem * 2 ^ 40)
/-- The command fault (R195, R310). -/
def Cmd.raise (c : Cmd) : Raise :=
  let f := c.fault.getD (0, 0)
  { kind := 19, cause := f.1, d0 := dw (c.id.toNat + c.pc * 2 ^ 8), d1 := dw c.elem, ms := c.milestone, record := f.2, owner := some c.leader }
/-- A command of a gang led by the group that a fault has stopped (R191). -/
def Team.stoppedFor (t : Team) (g : Nat) : Option Cmd :=
  t.cmds.find? fun c => c.leader == g && c.state == .stopped && c.fault.isSome

/-- The token of a command (R191). -/
def Cmd.token (c : Cmd) : DWord := dw (c.id.toNat + c.n * 2 ^ 8)
/-- A command is released when every member has waited for it (R191). -/
def Team.releaseCmds (t : Team) : Team :=
  { t with cmds := t.cmds.filter fun c => !(c.state == .complete && c.gang.slots.all fun g => c.waited.contains g) }
/-- One token equal to a command's removed from a queue. -/
def dropToken (x : DWord) : List DWord → List DWord
  | [] => []
  | y :: l => if y = x then l else y :: dropToken x l
/-- A group has waited for a command: it is marked, and its token leaves the group's queue (R191). -/
def Team.markWaited (t : Team) (g : Nat) (c : Cmd) : Team :=
  let t := { t with cmds := t.cmds.map fun (d : Cmd) => if d.id = c.id && d.leader == c.leader then { d with waited := d.waited ++ [g] } else d }
  match c.gang.slots.idxOf? g, (t.group g).gang with
  | some _, some y => match y.queue with
    | some q => t.modGroup g fun x => { x with tokens := cellSet [] x.tokens q.toNat (dropToken c.token (cellGet [] x.tokens q.toNat)) }
    | none => t
  | _, _ => t

/-- A wait for commands returns in a group: its accesses follow the commands' A reads at team scope (R192, R258). The entry of its own
slot does not rise: it holds only clocks of its own copies (R265). -/
def State.waitedFor (s : State) (a : AgentRef) (g : Nat) (cs : List Cmd) : State :=
  let s := cs.foldl (fun (s : State) c =>
    let s := s.modAgent a fun x => x.observe c.obs
    (c.clocks.filter fun p => p.1 != g).foldl (fun (s : State) p => s.observeEngine a.team g 0 (s.ident a.team p.1) p.2.1) s) s
  s.modTeam a.team fun t => (cs.foldl (fun (t : Team) c => t.markWaited g c) t).releaseCmds

-- The cluster rendezvous.
/-- Every group with a live lane in every member team has arrived (R238). -/
def State.clusterDone (s : State) (c : Nat) : Bool :=
  let x := s.cluster c
  x.teams.all fun t =>
    let tm := s.team t
    (tm.liveSet &&& ~~~(x.arrived.foldl (fun l p => if p.1 == t then l ||| (tm.agent p.2.1).lanes else l) 0)) == 0

/-- The position with the least value of a key, the lower position on a tie. -/
def leastBy {α : Type} (le : α → α → Bool) : List (Nat × α) → Option (Nat × α)
  | [] => none
  | x :: l => match leastBy le l with
    | none => some x
    | some y => if le x.2 y.2 then some x else some y

/-- One step of 50 MHz from a position to another. -/
def moveStep (o : List Int) (src dst : Nat) : List Int :=
  o.zipIdx.map fun p => if p.2 == src then p.1 - 1 else if p.2 == dst then p.1 + 1 else p.1

/-- The offsets after a completion, from the last arrival of each position in ascending position (R141), and the straggler. A position whose team has
ended has no arrival: it is left out of the order, and nothing changes when fewer than two positions have arrived (DESIGN CHOICE, log 99). -/
def boostOffsets (o : List Int) (last : List (Nat × Nat)) (before : Option Nat) : List Int × Option Nat :=
  match leastBy (fun a b => decide (a ≤ b)) last, leastBy (fun a b => decide (b ≤ a)) last.reverse with
  | some l, some s =>
    if last.length < 2 then (o, before)
    else
      let os := (o[s.1]?).getD 0
      let ol := (o[l.1]?).getD 0
      let ix := o.zipIdx.map fun p => (p.2, p.1)
      let o' :=
        if before == some s.1 then (if os == 3 || ol == -3 then o else moveStep o l.1 s.1)
        else if o.any (· != 0) then
          match leastBy (fun a b => decide (b ≤ a)) ix, leastBy (fun a b => decide (a ≤ b)) ix with
          | some hi, some lo => moveStep o hi.1 lo.1
          | _, _ => o
        else o
      (o', some s.1)
  | _, _ => (o, before)

/-- The clock a core takes from its boost offset: that of the cluster of more than one core which has been resident there longest, nominal with none (R141;
log 77). -/
def State.boostedMhz (s : State) (core : Nat) : Nat :=
  let here := s.teams.filter fun t => t.2.core == core && t.2.status == .resident && decide (1 < (s.cluster t.2.cluster).w * (s.cluster t.2.cluster).h)
  match leastBy (fun a b => decide (a ≤ b)) (here.map fun t => (t.1, t.2.since)) with
  | some t => (1200 + 50 * ((s.cluster (s.team t.1).cluster).offsets[(s.team t.1).position]?).getD 0).toNat
  | none => 1200
/-- A core takes the clock its offset gives. -/
def State.retune (s : State) (core : Nat) : State :=
  let m := s.boostedMhz core
  if (s.core core).nextMhz == m then s else s.modCore core fun k => { k with nextMhz := m, cause := 1 }
/-- Boost at the completion of a cbar of a cluster of more than one core (R141); a locked partition has none (R142). -/
def State.boost (s : State) (c : Nat) : State :=
  let x := s.cluster c
  let last := x.teams.filterMap fun t =>
    match (x.arrived.filter fun p => p.1 == t).map fun p => p.2.2 with
    | [] => none
    | ticks => some ((s.team t).position, ticks.foldl max 0)
  let locked := x.teams.any fun t => (s.partition (s.partitionOf (s.team t))).locked
  if locked then s
  else
    let r := boostOffsets x.offsets last x.straggler
    let s := s.modCluster c fun y => { y with offsets := r.1, straggler := r.2 }
    x.teams.foldl (fun (s : State) t => if (s.team t).status == .resident then s.retune (s.team t).core else s) s

/-- A cbar of a cluster of more than one core completes (R238, R249). -/
def State.clusterMeet (s : State) (c : Nat) : State :=
  let refs := (s.cluster c).arrived.map fun p => AgentRef.mk p.1 p.2.1
  let s := (s.meet refs 1).boost c
  let s := s.modCluster c fun y => { y with rdv := none, arrived := [] }
  refs.foldl (fun s a => (s.modAgent a fun x => { x with status := .ready }).retireAt a { legEnd := true }) s
/-- A cluster rendezvous that exits have completed. -/
def State.settleCluster (s : State) (c : Nat) : State :=
  if (s.cluster c).rdv.isSome && !(s.cluster c).arrived.isEmpty && s.clusterDone c then s.clusterMeet c else s

-- Ends.
/-- The reader epochs of lines that are given up leave the reader table (R268). -/
def State.dropMetas (s : State) (tower : Nat) (m : Cells LineMeta) : State :=
  m.foldl (fun (s : State) p => (s.dropReader tower p.2.reader0).dropReader tower p.2.reader1) s

/-- The floors of a slot's identities (R266). -/
def State.floorsOf (s : State) (c : Nat) : Cells (BitVec 20 × BitVec 20) :=
  (s.cluster c).teams.foldl (fun f t =>
    (s.team t).groups.foldl (fun (f : Cells (BitVec 20 × BitVec 20)) g =>
      cellSet (0, 0) f (s.ident t g.1).toNat (g.2.clock, (s.team t).tclock)) f) s.floors

/-- Columns that no cluster is bound to any more lose their bytes, and a move of one ends (R226, R230). -/
def State.unbind (s : State) (tower : Nat) (entries : List ColEntry) : State :=
  entries.foldl (fun (s : State) e =>
    if s.clusters.any fun p => p.2.tower == tower && p.2.binding.any fun b => (b.state != 0 && b.col == e.col) || (b.state == 2 && b.target == e.col) then s
    else
      let s := s.dropMetas tower (s.column (48 * tower + e.col)).metas
      let s := { s with columns := cellDel s.columns (48 * tower + e.col) }
      match (s.tower tower).move with
      | some (p, q, _) => if p == e.col then
          ({ s with columns := cellDel s.columns (48 * tower + q) } : State).modTower tower fun t => { t with move := none } else s
      | none => s) s

/-- A cluster retires when its last member team has ended (R224, R226, R263, R266). -/
def State.retireCluster (s : State) (c : Nat) : State :=
  let x := s.cluster c
  if x.teams.all fun t => (s.team t).status == .ended then
    let s := match x.slot with
      | some k =>
        let f := s.floorsOf c
        ({ s with floors := f } : State).modTower x.tower fun t => { t with slots := t.slots.filter (· != k) }
      | none => s
    let s := { s with
      teams := s.teams.filter fun p => !x.teams.contains p.1
      clusters := cellDel s.clusters c }
    s.unbind x.tower x.binding
  else s

/-- Copy errors that no bmwait has observed (R214, R215): those of the outcome store, the lost marks, and the errors of landed chunks of copies, and of
deliveries to the team, that are not complete (R220, R235). -/
def Team.unseenErrors (t : Team) : Nat :=
  (t.store.filter fun e => e.out.code != 0).length + t.lost.length + (t.copies.map fun c => (c.2.outcomes.filter fun o => o.2.code != 0).length).sum
def addSat32 (x : BitVec 32) (n : Nat) : BitVec 32 := BitVec.ofNat 32 (min (x.toNat + n) (2 ^ 32 - 1))

/-- A team has left its core, or its last group has ended: a core without resident groups is idle from now (R338), and its clock is that of the clusters still
there (R141). -/
def State.coreLeft (s : State) (core : Nat) : State :=
  let here := s.teams.filter fun t => t.2.core == core && t.2.status == .resident
  (if here.isEmpty then s.modCore core fun k => { k with stall := 0, idleSince := s.tick } else s).retune core

/-- A team ends (R220): its slot and memory are free, and its unobserved errors are counted. -/
def State.endTeam (s : State) (team : Nat) : State :=
  let t := s.team team
  let s := s.modLaunch t.launch fun l =>
    { l with
      usedSlots := l.usedSlots.filter (· != t.ctxSlot)
      unobserved := addSat32 l.unobserved t.unseenErrors }
  let s := s.dropMetas (s.cluster t.cluster).tower t.metas
  let s := s.modTeam team fun t =>
    { t with status := .ended, agents := [], shared := [], full := [], metas := [], hist := [], reads := [], store := [], lost := [],
             done := [], rdvs := [], regions := [], handles := [], latches := [], copies := [] }
  let s := if t.status == .resident then s.coreLeft t.core else s
  (s.settleCluster t.cluster).retireCluster t.cluster

/-- The team's own copies not yet complete; deliveries to it do not hold it (R236). -/
def Team.ownCopies (t : Team) : Cells Copy := t.copies.filter fun p => p.2.remote.isNone
/-- A team whose last group has ended drains, or ends at once without copies (R220). -/
def State.checkTeam (s : State) (team : Nat) : State :=
  let t := s.team team
  if t.groups.any fun g => g.2.live != 0 then s
  else if t.ownCopies.isEmpty then s.endTeam team
  else ((s.modTeam team fun t => { t with status := .draining }).coreLeft t.core).settleCluster t.cluster

/-- The groups that the exit of lanes would end (R196). -/
def Team.ending (t : Team) (e : LaneSet) : List Nat := (groupsOf e).filter fun g => groupPart (t.liveSet &&& ~~~e) g == 0
/-- Lanes leave sr.live. -/
def Team.clearLive (t : Team) (e : LaneSet) : Team :=
  (groupsOf e).foldl (fun (t : Team) g => t.modGroup g fun x => { x with live := x.live &&& ~~~(BitVec.ofNat 32 (groupPart e g)) }) t

/-- A group has ended: its handles are freed, and its agent goes unless a team region holds it (R52, R113). -/
def Team.endGroup (t : Team) (g : Nat) : Team :=
  let t := (t.group g).k.foldl (fun (t : Team) p => t.release p.2) t
  let t := t.modGroup g fun x => { x with k := [], boosted := false }
  if (t.agent g).status == .region then t else t.dropAgent g

/-- Members that wait at an open latch of which a group has ended take gang fault 4 (R188). -/
def State.breakLatches (s : State) (team g : Nat) : State :=
  let open_ := (s.team team).latches.filter fun l => l.gang.slots.contains g
  let s := s.modTeam team fun t => { t with latches := t.latches.filter fun l => !l.gang.slots.contains g }
  open_.foldl (fun (s : State) l => l.arrived.foldl (fun (s : State) m =>
    let a : AgentRef := ⟨team, m.1⟩
    (s.modAgent a fun x => { x with status := .ready }).raiseAt a { kind := 18, cause := 4, d0 := dw g } false) s) s

/-- What follows the exit of lanes that an agent held (R109). -/
def State.afterExit (s : State) (a : AgentRef) (ended : List Nat) : State :=
  let s := (s.leaveEmpty a none 4096).leaveDead a.team 64
  let s := s.modTeam a.team fun t => ended.foldl (fun (t : Team) g => t.endGroup g) t
  let s := ended.foldl (fun (s : State) g => s.breakLatches a.team g) s
  let s := s.settleRdvs a.team
  let s := s.settleCluster (s.team a.team).cluster
  s.checkTeam a.team

end Sys2Proof.Machine
end

