-- ==== Sys2Proof/Machine/Float.lean ====
section
/-! DEFINITION. The floating-point lane and scalar instructions (05 R82 to R86, R90): single, double, packed, and the
dot products. -/

namespace Sys2Proof.Machine

/-- An operation on encodings as one on words. -/
def word1 (f : Nat → Nat) (a : Word) : Word := BitVec.ofNat 32 (f a.toNat)
def word2 (f : Nat → Nat → Nat) (a b : Word) : Word := BitVec.ofNat 32 (f a.toNat b.toNat)
def word3 (f : Nat → Nat → Nat → Nat) (a b c : Word) : Word := BitVec.ofNat 32 (f a.toNat b.toNat c.toNat)
def dword2 (f : Nat → Nat → Nat) (a b : DWord) : DWord := BitVec.ofNat 64 (f a.toNat b.toNat)
def dword3 (f : Nat → Nat → Nat → Nat) (a b c : DWord) : DWord := BitVec.ofNat 64 (f a.toNat b.toNat c.toNat)

/-- A two-source F32 instruction; a scalar form clears bits 63:32 (R82). -/
def flt2Effect (op : Rm → Nat → Nat → Nat) (f : Flt2) (s : State) : Host.Outcome State Fault Refusal :=
  match f with
  | .lane k d a b rm => s.issue (d.toNat :: a.toNat :: b.regs) false fun s =>
      s.laneOp k d fun gl => word2 (op rm) (s.vreg gl a.toNat) (s.laneFlt gl b)
  | .scalar d a b rm => s.issuePlain fun s => s.scalOp d ((word2 (op rm) (s.slow a) (s.scalFlt b)).setWidth 64)
/-- fmin and fmax. -/
def fltMMEffect (greatest : Bool) (f : FltMM) (s : State) : Host.Outcome State Fault Refusal :=
  match f with
  | .lane k d a b => s.issue (d.toNat :: a.toNat :: b.regs) false fun s =>
      s.laneOp k d fun gl => word2 (fltMinMax .f32 greatest) (s.vreg gl a.toNat) (s.laneFlt gl b)
  | .scalar d a b => s.issuePlain fun s => s.scalOp d ((word2 (fltMinMax .f32 greatest) (s.slow a) (s.scalFlt b)).setWidth 64)
/-- A long unary F32 instruction. -/
def fltUnEffect (op : Rm → Nat → Nat) (f : FltUn) (s : State) : Host.Outcome State Fault Refusal :=
  s.issue (f.d.toNat :: f.a.regs) false fun s => s.laneOp f.k f.d fun gl => word1 (op f.rm) (s.laneUnFlt gl f.a)

def execFadd (f : Flt2) (s : State) := flt2Effect (fltAdd .f32) f s
def execFsub (f : Flt2) (s : State) := flt2Effect (fltSub .f32) f s
def execFmul (f : Flt2) (s : State) := flt2Effect (fltMul .f32) f s
def execFfma (f : Flt3) (s : State) : Host.Outcome State Fault Refusal :=
  match f with
  | .lane k d a b c rm => s.issue (d.toNat :: a.toNat :: (b.regs ++ c.regs)) false fun s =>
      s.laneOp k d fun gl => word3 (fltFma .f32 rm) (s.vreg gl a.toNat) (s.laneReg gl b) (s.laneReg gl c)
  | .scalar d a b c rm => s.issuePlain fun s => s.scalOp d ((word3 (fltFma .f32 rm) (s.slow a) (s.slow b) (s.slow c)).setWidth 64)
def execFmin (f : FltMM) (s : State) := fltMMEffect false f s
def execFmax (f : FltMM) (s : State) := fltMMEffect true f s
def execFrcp (f : FltUn) (s : State) := fltUnEffect fltRcp f s
def execFrsq (f : FltUn) (s : State) := fltUnEffect fltRsq f s
def execFsqrt (f : FltUn) (s : State) := fltUnEffect fltSqrt f s
def execFexp2 (f : FltUn) (s : State) := fltUnEffect fltExp2 f s
def execFlog2 (f : FltUn) (s : State) := fltUnEffect fltLog2 f s
def execFsin (f : FltUn) (s : State) := fltUnEffect fltSin f s
def execFcos (f : FltUn) (s : State) := fltUnEffect fltCos f s
/-- fscale reads B as S32, and its immediate is not scaled (R82). -/
def execFscale (k : KReg) (d a : VReg) (b : LaneSrc) (rm : Rm) (s : State) :=
  s.issue (d.toNat :: a.toNat :: b.regs) false fun s =>
    s.laneOp k d fun gl => BitVec.ofNat 32 (fltScale rm (s.vreg gl a.toNat).toNat (s.laneInt gl b).toInt)
def execFclass (k : KReg) (d : VReg) (a : UnSrc) (s : State) :=
  s.issue (d.toNat :: a.regs) false fun s => s.laneOp k d fun gl => word1 fltClass (s.laneUnFlt gl a)

-- Doubles (R85).
def wide2Effect (op : Rm → Nat → Nat → Nat) (f : Lane2) (s : State) : Host.Outcome State Fault Refusal :=
  s.issue (pairRegs f.d.toNat ++ pairRegs f.a.toNat ++ f.b.pairs) false fun s =>
    s.pairOp f.k f.d fun gl => dword2 (op f.rm) (s.vpair gl f.a.toNat) (s.lanePair gl f.b)
def execDadd (f : Lane2) (s : State) := wide2Effect (fltAdd .f64) f s
def execDmul (f : Lane2) (s : State) := wide2Effect (fltMul .f64) f s
def execDfma (f : Lane3) (s : State) :=
  s.issue (pairRegs f.d.toNat ++ pairRegs f.a.toNat ++ f.b.pairs ++ f.c.pairs) false fun s =>
    s.pairOp f.k f.d fun gl => dword3 (fltFma .f64 f.rm) (s.vpair gl f.a.toNat) (s.lanePair gl f.b) (s.lanePair gl f.c)
def execDmin (f : Lane2) (s : State) := wide2Effect (fun _ => fltMinMax .f64 false) f s
def execDmax (f : Lane2) (s : State) := wide2Effect (fun _ => fltMinMax .f64 true) f s

-- Packed forms (R86): elements 0 and 1 of 16 bits (R69).
def packed2 (op : Nat → Nat → Nat) (a b : Nat) : Nat := op (fld a 0 16) (fld b 0 16) + op (fld a 16 16) (fld b 16 16) * 2 ^ 16
def packed3 (op : Nat → Nat → Nat → Nat) (a b c : Nat) : Nat :=
  op (fld a 0 16) (fld b 0 16) (fld c 0 16) + op (fld a 16 16) (fld b 16 16) (fld c 16 16) * 2 ^ 16
/-- A lane instruction with two register sources. -/
def reg2Effect (op : Rm → Nat → Nat → Nat) (f : Lane2) (s : State) : Host.Outcome State Fault Refusal :=
  s.issue (f.d.toNat :: f.a.toNat :: f.b.regs) false fun s =>
    s.laneOp f.k f.d fun gl => word2 (op f.rm) (s.vreg gl f.a.toNat) (s.laneReg gl f.b)
/-- A lane instruction with three register sources. -/
def reg3Effect (op : Rm → Nat → Nat → Nat → Nat) (f : Lane3) (s : State) : Host.Outcome State Fault Refusal :=
  s.issue (f.d.toNat :: f.a.toNat :: (f.b.regs ++ f.c.regs)) false fun s =>
    s.laneOp f.k f.d fun gl => word3 (op f.rm) (s.vreg gl f.a.toNat) (s.laneReg gl f.b) (s.laneReg gl f.c)
def execHadd2 (f : Lane2) (s : State) := reg2Effect (fun rm => packed2 (fltAdd .h16 rm)) f s
def execHmul2 (f : Lane2) (s : State) := reg2Effect (fun rm => packed2 (fltMul .h16 rm)) f s
def execHfma2 (f : Lane3) (s : State) := reg3Effect (fun rm => packed3 (fltFma .h16 rm)) f s
def execBadd2 (f : Lane2) (s : State) := reg2Effect (fun rm => packed2 (fltAdd .b16 rm)) f s
def execBfma2 (f : Lane3) (s : State) := reg3Effect (fun rm => packed3 (fltFma .b16 rm)) f s

-- Dot products (R90).
/-- Bits between elements of a packed register (R69): 6-bit types stand in bytes. -/
def elemStep (t : Ty) : Nat := 32 / t.perReg
/-- Element j of a packed register (R69). -/
def elemOf (t : Ty) (x j : Nat) : Nat := fld x (elemStep t * j) t.bits
/-- The float form: the exact sum of products and addend, rounded once to F32 (R70). -/
def dotFloat (t : Ty) (rm : Rm) (a b c : Nat) : Nat :=
  sumRound .f32 rm (decodeFloat .f32 c :: (List.range t.perReg).map fun j =>
    (decodeFloat t (elemOf t a j)).mul (decodeFloat t (elemOf t b j)))
/-- The integer form, modulo 2^32. -/
def dotInt (t : Ty) (a b c : Nat) : Nat :=
  (((c : Int) + ((List.range t.perReg).map fun j => decodeInt t (elemOf t a j) * decodeInt t (elemOf t b j)).sum) % 2 ^ 32).toNat
def execDot2H16 (f : Lane3) (s : State) := reg3Effect (dotFloat .h16) f s
def execDot2B16 (f : Lane3) (s : State) := reg3Effect (dotFloat .b16) f s
def execDot4S8 (f : Lane3) (s : State) := reg3Effect (fun _ => dotInt .s8) f s
def execDot4N8 (f : Lane3) (s : State) := reg3Effect (fun _ => dotInt .n8) f s
def execDot4F8E4 (f : Lane3) (s : State) := reg3Effect (dotFloat .f8e4) f s
def execDot4F8E5 (f : Lane3) (s : State) := reg3Effect (dotFloat .f8e5) f s
def execDot8S4 (f : Lane3) (s : State) := reg3Effect (fun _ => dotInt .s4) f s
def execDot8N4 (f : Lane3) (s : State) := reg3Effect (fun _ => dotInt .n4) f s
def execDot8F4E2M1 (f : Lane3) (s : State) := reg3Effect (dotFloat .f4e2m1) f s

end Sys2Proof.Machine
end

