-- ==== Sys2Proof/Machine/Control.lean ====
section
/-! DEFINITION. Control flow (06 R119 to R123), await (09 R172), and the spill stack (09 R164). -/

namespace Sys2Proof.Machine

/-- Branch targets must be header words (R32). -/
def State.targetFault (s : State) (pc : Nat) : Option Raise :=
  if (s.headerAt s.curTeam pc).isSome then none else some (illegal 7)
/-- The target of an offset from the issuing agent's instruction (R26). -/
def State.goal {n : Nat} (s : State) (off : BitVec n) : Nat := target s.curAgent.pc off
/-- The instruction retires, and what follows it; an agent that ended with the retiring does nothing more (R117). -/
def State.retireThen (s : State) (r : Ret) (f : State → State) : State :=
  let s := s.retire r
  if cellHas s.curTeam.agents s.cur.agent then f s else s
/-- The instruction retires and the agent enters a block. -/
def State.jump (s : State) (pc : Nat) : State := (s.retire {}).enterBlock s.cur pc

def execNop (s : State) : Host.Outcome State Fault Refusal := s.issuePlain fun s => s.retire {}
def execYield (s : State) : Host.Outcome State Fault Refusal := s.issuePlain fun s => s.retire {}

/-- A uniform branch (R119); the hint changes nothing (R120). -/
def branchEffect (off : BitVec 16) (taken : State → Bool) (clear : State → State) (s : State) : Host.Outcome State Fault Refusal :=
  s.issueChecked (fun s => s.targetFault (s.goal off)) fun s =>
    if taken s then (clear s).jump (s.goal off) else (clear s).retire {}
def execBr (_hint : BitVec 2) (r : SReg) (off : BitVec 16) (s : State) :=
  branchEffect off (fun s => s.sreg r.toNat != 0) id s
def execBnz (_hint : BitVec 2) (ka : KReg) (off : BitVec 16) (s : State) :=
  branchEffect off (fun s => s.kset ka.toNat != 0) (fun s => s.clearK ka.toNat) s
def execBz (_hint : BitVec 2) (ka : KReg) (off : BitVec 16) (s : State) :=
  branchEffect off (fun s => s.kset ka.toNat == 0) (fun s => s.clearK ka.toNat) s

/-- The spill-stack fault (R47, R310). -/
def State.spillFault (s : State) (ok : Bool) : Option Raise :=
  if ok then none else some { kind := 2, d0 := dw s.curGroup.sp.toNat }
def State.setSp (s : State) (sp : Nat) : State := s.modCurGroup fun g => { g with sp := BitVec.ofNat 16 sp }
/-- Bytes written to the spill stack of the host group. -/
def State.spillWrite (s : State) (a : Nat) (bs : List Byte) : State := s.modCurGroup fun g => { g with spill := writeBytes g.spill a bs }
def State.spillRead (s : State) (a n : Nat) : List Byte := readBytes s.curGroup.spill a n

/-- The return record of call (R121). -/
def returnRecord (swd rest pc : Nat) : Nat := swd * 2 ^ 42 + rest * 2 ^ 32 + pc
def execCall (off : BitVec 16) (s : State) : Host.Outcome State Fault Refusal :=
  s.issueChecked (fun s => firstFault [s.targetFault (s.goal off), s.spillFault (decide (0x8400 + 8 ≤ s.curGroup.sp.toNat))]) fun s =>
    let x := s.curAgent
    let sp := s.curGroup.sp.toNat - 8
    ((s.setSp sp).spillWrite sp (wordBytes (returnRecord (s.swdOf s.cur) (x.rest - 1) (x.pc + 1)) 8)).jump (s.goal off)
/-- The record at sr.sp. -/
def State.retRecord (s : State) : Nat := bytesWord (s.spillRead s.curGroup.sp.toNat 8)
def execRet (s : State) : Host.Outcome State Fault Refusal :=
  s.issueChecked (fun s =>
    let f := s.retRecord
    firstFault [s.spillFault (decide (s.curGroup.sp.toNat + 8 ≤ 0xC000)),
      if fld f 53 11 != 0 || decide ((s.objectOf s.curTeam).words ≤ fld f 0 32) then some (illegal 7) else none,
      if fld f 42 11 != s.swdOf s.cur then some (regionFault 5 0) else none]) fun s =>
    let f := s.retRecord
    (s.setSp (s.curGroup.sp.toNat + 8)).retireThen {} fun s => s.modCur fun x => { x with pc := fld f 0 32, rest := fld f 32 10 }

-- await (R172).
/-- await returns with a code; codes 1 and 2 make the group spin (R298). -/
def State.awaitReturn (s : State) (d : SReg) (code : Nat) : State :=
  let s := (s.setSreg d.toNat (dw code)).modCur fun x => { x with watch := none, status := .ready }
  s.retireThen { counted := false, endsSpin := code == 0, legEnd := true } fun s =>
    if code == 0 then s else s.modCurGroup fun g => { g with spinning := true }
/-- The timeout has passed since the await issued: ticks, or commits in determinate mode (R302). -/
def State.awaitExpired (s : State) (a : AgentRef) (ticks : Nat) : Bool :=
  match (s.agent a).status with
  | .await t c => ticks != 0 && decide (ticks ≤ if (s.launch (s.team a.team).launch).determinate then
      (s.launch (s.team a.team).launch).commits - c else s.tick - t)
  | _ => false
def execAwait (d : SReg) (ticks : BitVec 31) (s : State) : Host.Outcome State Fault Refusal :=
  s.issuePlain fun s =>
    match s.curAgent.watch with
    | none => s.awaitReturn d 2
    | some w =>
      if w.hit then s.awaitReturn d 0
      else if s.awaitExpired s.cur ticks.toNat then s.awaitReturn d 1
      else match s.curAgent.status with
        | .await _ _ => s
        | _ => s.modCur fun x => { x with status := .await s.tick s.curLaunch.commits }
/-- AWAIT_TIMEOUT: the timeout of a waiting await passes. -/
def execAwaitTimeout (a : AgentRef) (s : State) : Host.Outcome State Fault Refusal :=
  let w := (s.wordAt a (s.agent a).pc).toNat
  let hit := match (s.agent a).watch with | some w => w.hit | none => true
  if s.runs a.team && cellHas (s.team a.team).agents a.agent && !(s.launch (s.team a.team).launch).determinate && fOp w == 0x00C && s.awaitExpired a (fCi w) && !hit then
    .next (({ s with cur := a } : State).awaitReturn (sreg (fCa w)) 1)
  else .next s

-- push and pop (R164).
/-- Bytes of a register of a kind. -/
def kindSize (k : RegKind) : Nat := match k with | .scalar => 8 | _ => 128
/-- The lane at a position of the issuing agent's host slot (R111). A position of a packed fragment that holds no member stands for the host's home lane of
that index, whose register push stores (DESIGN CHOICE, log 104). -/
def State.laneAtPos (s : State) (p : Nat) : Nat := (s.curAgent.positions[p]?).getD (32 * s.curAgent.host + p)
/-- The position of a lane. -/
def State.posOf (s : State) (gl : Nat) : Nat := (s.curAgent.positions.findIdx? (· == gl)).getD (gl % 32)
/-- A register as push stores it. -/
def State.pushBytes (s : State) (k : RegKind) (r : Nat) : List Byte :=
  match k with
  | .vector => (List.range 32).flatMap fun p => wordBytes (s.vreg (s.laneAtPos p) r).toNat 4
  | .scalar => wordBytes (s.sreg r).toNat 8
  | .set => wordBytes (s.kset r).toNat 128
/-- The stores of a push. -/
def State.pushAll (s : State) (k : RegKind) (a sp : Nat) : Nat → State
  | 0 => s
  | n + 1 => (s.pushAll k a sp n).spillWrite (sp + kindSize k * n) (s.pushBytes k (a + n))
def stackRegs (k : RegKind) (a : VReg) (n : BitVec 5) : List Nat :=
  match k with
  | .vector => spanRegs a.toNat n.toNat
  | _ => []
def execPush (kind : RegKind) (a : VReg) (n : BitVec 5) (s : State) : Host.Outcome State Fault Refusal :=
  s.issue (stackRegs kind a n) false fun s =>
    let z := kindSize kind * n.toNat
    match s.spillFault (decide (0x8400 + z ≤ s.curGroup.sp.toNat)) with
    | some f => s.raise f
    | none =>
      let sp := s.curGroup.sp.toNat - z
      let s' := match kind with
        | .set => (List.range n.toNat).foldl (fun (s : State) i => s.clearK (a.toNat + i)) s
        | _ => s
      ((s'.pushAll kind a.toNat sp n.toNat).setSp sp).retire {}
/-- A register as pop writes it. -/
def State.popOne (s : State) (k : RegKind) (r sp : Nat) : State :=
  match k with
  | .vector => s.writeLanes (laneList (s.members 0)) r fun gl => BitVec.ofNat 32 (bytesWord (s.spillRead (sp + 4 * s.posOf gl) 4))
  | .scalar => s.setSreg r (dw (bytesWord (s.spillRead sp 8)))
  | .set => s.setK r (BitVec.ofNat 1024 (bytesWord (s.spillRead sp 128)) &&& s.curTeam.liveSet)
def State.popAll (s : State) (k : RegKind) (a sp : Nat) : Nat → State
  | 0 => s
  | n + 1 => (s.popAll k a sp n).popOne k (a + n) (sp + kindSize k * n)
def execPop (kind : RegKind) (a : VReg) (n : BitVec 5) (s : State) : Host.Outcome State Fault Refusal :=
  s.issue (stackRegs kind a n) false fun s =>
    let z := kindSize kind * n.toNat
    let sp := s.curGroup.sp.toNat
    match s.spillFault (decide (sp + z ≤ 0xC000)) with
    | some f => s.raise f
    | none => ((s.popAll kind a.toNat sp n.toNat).setSp (sp + z)).retire {}

end Sys2Proof.Machine
end

