-- ==== Sys2Proof/Machine/Stops.lean ====
section
/-! DEFINITION. Waymark's stops (22 R335, R344): what a stop names, and the hold of a team. -/

namespace Sys2Proof.Machine

/-- A stop of a kind is armed for an agent's launch and team, and not waived for this issue (R335, R344). -/
def State.stopArmed (s : State) (a : AgentRef) (kind : Nat) : Bool :=
  let t := s.team a.team
  let v := s.vi (s.viOf t)
  let names (field value : Nat) : Bool := field == value || field == 0xFFFFFFFF
  bitsOf v.wmCtl 3 1 == 1 && bitsOf v.wmStop 0 3 == kind && names (bitsOf v.wmSarg 0 32) (s.launch t.launch).number.toNat &&
    names (bitsOf v.wmSarg 32 32) t.index.toNat && !(s.agent a).stopWaived

/-- A stop holds the agent's team before its instruction takes effect, as request 3 does, and is recorded (R337, R344). In a
determinate launch the leg ends. -/
def State.stopHold (s : State) (a : AgentRef) (kind watched : Nat) : State :=
  let pc := (s.agent a).pc
  let s := (s.modTeam a.team fun t => { t with preempt := true, held := true }).modAgent a fun x => { x with stopWaived := true }
  let s := if (s.launch (s.team a.team).launch).determinate then s.modGroupOf a fun g => { g with legEnded := true } else s
  s.traceTeam a.team (s.agent a).host 2 (wordBytes pc 4 ++ wordBytes kind 1 ++ List.replicate 3 0 ++ wordBytes watched 8)

/-- The lowest watched byte in n bytes of a space; the overpass column counts within its space (R335). -/
def Vi.watchedIn (v : Vi) (space col a n : Nat) : Option Nat :=
  let w := bitsOf v.wmWatch 2 56 * 4
  if bitsOf v.wmWatch 0 2 == space && (space != 1 || bitsOf v.wmWatch 58 6 == col) && decide (w < a + n ∧ a < w + v.wmWlen.toNat) then
    some (max w a)
  else none

/-- A watch stop over accesses by space, column, address and size. -/
def State.watchHit (s : State) (spots : List (Nat × Nat × Nat × Nat)) : Option Nat :=
  if s.stopArmed s.cur 2 then
    spots.findSome? fun p => (s.vi (s.viOf s.curTeam)).watchedIn p.1 p.2.1 p.2.2.1 p.2.2.2
  else none
/-- A place as a watch names it. -/
def spotOf (p : Place) (a n : Nat) : Nat × Nat × Nat × Nat :=
  match p with
  | .shared _ => (0, 0, a, n)
  | .column _ c => (1, c, a, n)
  | .main | .peer _ => (2, 0, a, n)
/-- The instruction's accesses meet the watch: its team is held; otherwise it goes on. -/
def State.unlessWatched (s : State) (spots : List (Nat × Nat × Nat × Nat)) (go : State → State) : State :=
  match s.watchHit spots with
  | some b => s.stopHold s.cur 2 b
  | none => go s

end Sys2Proof.Machine
end

