-- ==== Sys2Proof/Machine/Lanes.lean ====
section
/-! DEFINITION. Accesses of lanes (09 R157 to R163, 15 R241 to R253): the access of one element, the writes a determinate leg
holds, the completion of a racing access, and the trap fragments an instruction leaves. -/

namespace Sys2Proof.Machine

/-- The ordering qualifier of a format-M word (R25): acquire and release scopes, and the scope a record shows. -/
structure Ord where
  acq : Option Nat
  rel : Option Nat
  scope : Nat
def ordOf (os : BitVec 4) : Ord :=
  let n := os.toNat
  if n == 0 then ⟨none, none, 0⟩
  else if n ≤ 5 then ⟨some (n - 1), none, n⟩
  else if n ≤ 10 then ⟨none, some (n - 6), n - 5⟩
  else ⟨some (n - 11), some (n - 11), n - 10⟩
def Ord.plain : Ord := ⟨none, none, 0⟩
def Ord.marked (o : Ord) : Bool := o.scope != 0

/-- What an access is for: its layout handle, coordinates, element index, and ordering. -/
structure Use where
  handle : Nat
  coords : List Nat
  elem : Nat
  ord : Ord
  fe : Bool := false

/-- An access by a lane of the issuing agent, under its home identity (R77, R159). -/
def State.laneAcc (s : State) (u : Use) (p : Place) (addr size gl : Nat) (read write : Bool) : Acc :=
  let t := s.curTeam
  let x := s.curAgent
  { place := p
    addr := addr
    size := size
    read := read
    write := write
    marked := u.ord.marked
    scope := u.ord.scope
    acq := u.ord.acq
    rel := u.ord.rel
    fe := u.fe
    team := s.cur.team
    group := gl / 32
    agent := some s.cur.agent
    ident := s.ident s.cur.team (gl / 32)
    clocks := s.clocks s.cur.team (gl / 32)
    gvec := (t.group (gl / 32)).vec
    tvec := t.tvec
    view := x.view
    carried := x.carried
    handle := u.handle
    lane := gl % 32
    coords := u.coords
    pc := x.pc
    elem := u.elem }

-- Held writes of a determinate leg (R301).
/-- Where a held write of a team goes: in overpass space to the column now bound to the position it names (R227). -/
def State.heldPlace (s : State) (team : Nat) (h : Held) : Place :=
  match h.place, h.position with
  | .column t c, some p => match (s.cluster (s.team team).cluster).binding[p]? with
    | some e => .column t e.col
    | none => .column t c
  | p, _ => p
/-- The position whose column a place of a team is. -/
def State.positionOf (s : State) (team : Nat) : Place → Option Nat
  | .column _ c => (s.cluster (s.team team).cluster).binding.findIdx? fun e => e.state != 0 && e.col == c
  | _ => none
/-- Bytes of a place as the issuing group's held writes leave them. -/
def State.overlay (s : State) (c : Acc) (bs : List Byte) : List Byte :=
  s.curGroup.held.foldl (fun bs h =>
    if s.heldPlace s.cur.team h == c.place then
      bs.zipIdx.map fun p =>
        if decide (h.addr ≤ c.addr + p.2 ∧ c.addr + p.2 < h.addr + h.bytes.length) then (h.bytes[c.addr + p.2 - h.addr]?).getD p.1 else p.1
    else bs) bs
def State.hold (s : State) (c : Acc) (bs : List Byte) : State :=
  let x := s.curAgent
  s.modCurGroup fun g =>
    { g with held := g.held ++ [⟨c.place, s.positionOf s.cur.team c.place, c.addr, bs, 32 * c.group + c.lane, s.cur.agent, c.pc, x.rest, c.handle, c.coords, c.elem,
        match x.progress with | some p => p.2 | none => []⟩] }

-- The run of an instruction over lanes.
/-- Accesses made so far: the lanes struck, the lanes whose racing access is complete, the lines that accesses touched, the lines that performed ones
did, and whether memory was written. -/
structure Run where
  s : State
  struck : List (Nat × Raise)
  completed : List Nat
  lines : List (Place × Nat)
  seen : List (Place × Nat)
  wrote : Bool

def Run.start (s : State) : Run := ⟨s, [], [], [], [], false⟩
def Run.hit (r : Run) (gl : Nat) : Bool := r.struck.any fun p => p.1 == gl

/-- The accessor's vector entry for a party raised to its stored clock (R275). -/
def State.raiseVec (s : State) (c : Acc) (x : Stored) : State :=
  s.modTeam c.team fun t =>
    if bitsOf x.ident 5 13 == bitsOf c.ident 5 13 then
      t.modGroup c.group fun g => { g with vec := cellMod 0 g.vec (identGroup x.ident) (larger x.gclk) }
    else if identCluster x.ident == identCluster c.ident then { t with tvec := cellMod 0 t.tvec (identPos x.ident) (larger x.tclk) }
    else t.mergeModule [(identCluster x.ident, ⟨0, [(identPos x.ident, x.tclk)]⟩)]

/-- The storage-error fault of a lane (R156, R310). -/
def storageRaise (c : Acc) (ms : DWord) : Raise :=
  let line := c.addr / 64 * 64
  match c.place with
  | .column _ col => { kind := 14, cause := 2, d0 := dw (line + col * 2 ^ 58), d1 := dw c.elem, ms := ms }
  | _ => { kind := 14, cause := 1, d0 := dw line, d1 := dw c.elem, ms := ms }

/-- One access of a lane; a lane already struck makes none. Under tret.complete the lane's racing access is completed,
and its others are checked (R313). -/
def Run.access (r : Run) (before : Before) (c : Acc) (gl : Nat) (ms : DWord) (complete : Bool) (new : List Byte → Option (List Byte)) :
    Run × List Byte :=
  if r.hit gl then (r, [])
  else
    let lines := c.lines.map fun l => (c.place, l)
    let race := if complete && !r.completed.contains gl then (r.s.judge before c).1 else none
    let s := match race with
      | some x => r.s.raiseVec c x.other
      | none => r.s
    let res := s.access before c false (race.map (·.other)) new
    let r := { r with
      s := res.1
      completed := if race.isSome then gl :: r.completed else r.completed
      lines := r.lines ++ lines }
    match res.2 with
    | .bytes l _ => ({ r with seen := r.seen ++ lines, wrote := r.wrote || (c.write && (new l).isSome) }, l)
    | .race rec_ _ _ _ => ({ r with struck := r.struck ++ [(gl, { kind := 13, ms := ms, record := rec_ })] }, [])
    | .storage => ({ r with struck := r.struck ++ [(gl, storageRaise c ms)] }, [])
/-- A read of a lane. -/
def Run.read (r : Run) (before : Before) (c : Acc) (gl : Nat) (ms : DWord) (complete : Bool) : Run × List Byte :=
  let x := r.access before c gl ms complete fun _ => none
  (x.1, r.s.overlay c x.2)
/-- A write that waits for its commit (R301). The racing one of a lane that tret.complete completes follows the other party from now on, so that its checks at
the commit find it ordered (R275). -/
def Run.hold (r : Run) (before : Before) (c : Acc) (gl : Nat) (complete : Bool) (bs : List Byte) : Run :=
  match if complete && !r.completed.contains gl then (r.s.judge before c).1 else none with
  | some x =>
    let s := (r.s.raiseVec c x.other).modCur fun a => { a with view := r.s.overtaken { c with view := a.view } x.other }
    { r with s := s.hold c bs, completed := gl :: r.completed, wrote := true }
  | none => { r with s := r.s.hold c bs, wrote := true }
/-- A write of a lane; in a determinate leg an unmarked one is held (R301). -/
def Run.write (r : Run) (before : Before) (c : Acc) (gl : Nat) (ms : DWord) (complete : Bool) (bs : List Byte) : Run :=
  if r.hit gl then r
  else if r.s.curLaunch.determinate && !c.marked then r.hold before c gl complete bs
  else (r.access before c gl ms complete fun _ => some bs).1

/-- A lane's destination is written unless the lane was struck. -/
def Run.put (r : Run) (gl d : Nat) (x : Word) : Run :=
  if r.hit gl then r else { r with s := r.s.writeLanes [gl] d fun _ => x }
def Run.putPair (r : Run) (gl d : Nat) (x : DWord) : Run :=
  if r.hit gl then r else { r with s := r.s.writePairs [gl] d fun _ => x }

/-- The bytes as a little-endian word. -/
def leWord (l : List Byte) : DWord := BitVec.ofNat 64 (bytesWord l)
/-- The bytes of a value. -/
def leBytes (x : DWord) (n : Nat) : List Byte := wordBytes x.toNat n

-- Trap fragments of an instruction.
/-- The rank of a kind in the order of formation (R117): bounds, race, storage error. -/
def kindRank (k : Nat) : Nat := if k == 12 then 0 else if k == 13 then 1 else 2
/-- The struck lanes by fault: one fragment for each kind and milestone (R117), with the detail of its lowest lane (DESIGN CHOICE, log 127). -/
def fragments (struck : List (Nat × Raise)) : List (LaneSet × Raise) :=
  let key (f : Raise) : Nat × Nat := (kindRank f.kind, f.ms.toNat)
  let keys := sortBy (fun a b => decide (a.1 < b.1 ∨ (a.1 = b.1 ∧ a.2 ≤ b.2))) (struck.map fun p => key p.2).eraseDups
  keys.filterMap fun k =>
    let ls := sortBy (fun (a b : Nat × Raise) => decide (a.1 ≤ b.1)) (struck.filter fun p => key p.2 == k)
    ls.head?.map fun p => (laneUnion (ls.map (·.1)), p.2)

-- The lanes of one instruction in steps of their own (R242, log 101).
/-- Lines as they stood, with the reader entries they name. -/
def State.lineBefore (s : State) (p : Place × Nat) : LineBefore :=
  let m := s.metaAt p.1 p.2
  let t := s.tower (s.placeTower p.1 (64 * p.2))
  ⟨p.1, p.2, m, ([m.reader0, m.reader1].filter fun e => e.token != 0x7FF).map fun e =>
    (e.mask.toNat, cellGet ⟨noIdent, 0, 0, 0, false, 0⟩ t.readers e.token.toNat)⟩
/-- Lines of the instruction that have not been noted, as they stand. -/
def State.noteBefore (s : State) (lines : List (Place × Nat)) (old : List LineBefore) : List LineBefore :=
  lines.eraseDups.foldl (fun l p => if l.any fun q => q.place == p.1 && q.line == p.2 then l else l ++ [s.lineBefore p]) old
/-- The lines of n bytes at an address. -/
def linesOf (p : Place) (a n : Nat) : List (Place × Nat) := (List.range ((a + n - 1) / 64 + 1 - a / 64)).map fun i => (p, a / 64 + i)
/-- The lines that the issuing agent's instruction is judged against: as they stood before its first access (R272). -/
def State.judged (s : State) : Before := fun p l =>
  match s.curAgent.before.find? fun b => b.place == p && b.line == l with
  | some b => (b.metas, b.readers.map fun r => ⟨r.2.ident, r.2.gclk, r.2.tclk, r.2.scope, r.2.engine, r.1, false⟩)
  | none => s.linesNow p l
/-- The agent's issued instruction. -/
def State.issuedNow (s : State) : Issued := s.curAgent.issued.getD ⟨[], [], [], [], false⟩
/-- What a run of some lanes leaves with the instruction that goes on: the lanes done, the lanes struck, and the lines as they stood before. s: the state the
run began in. -/
def Run.note (r : Run) (s : State) (lanes : List Nat) : State :=
  let i := s.issuedNow
  r.s.modCur fun x =>
    { x with
      issued := some { i with done := i.done ++ lanes, lines := i.lines ++ r.seen, wrote := i.wrote || r.wrote }
      struck := s.curAgent.struck ++ r.struck
      before := s.noteBefore r.lines s.curAgent.before }
/-- Two spots share a granule. -/
def overlap (a b : Place × Nat × Nat) : Bool :=
  a.1 == b.1 && decide (a.2.1 / 16 ≤ (b.2.1 + b.2.2 - 1) / 16 ∧ b.2.1 / 16 ≤ (a.2.1 + a.2.2 - 1) / 16)
/-- A lane may write now: no lane before it in home lane order, still to write, shares a granule with it, so that the highest lane's bytes and identity
stand last (R159, R160, R163, R273). todo is in that order. -/
def laneNext (spot : Nat → Option (Place × Nat × Nat)) (todo : List Nat) (gl : Nat) : Bool :=
  (todo.takeWhile fun h => h != gl).all fun h => match spot h, spot gl with
    | some a, some b => !overlap a b
    | _, _ => true

/-- An instruction completes for its members but those struck: they form trap fragments, and it retires (R117). -/
def State.finish (s0 s : State) (struck : List (Nat × Raise)) (r : Ret) : State :=
  let a := s0.cur
  let x := s.curAgent
  let w := s.wordAt a x.pc
  let s' := (fragments struck).foldl (fun (s : State) f => s.formTrap a f.1 f.2 w x.pc (x.rest - r.words) false true) s
  (s'.retireAt a r).waitEmpty a

end Sys2Proof.Machine
end

