-- ==== Sys2Proof/Machine/Sets.lean ====
section
/-! DEFINITION. The set instructions (06 R97 to R102, R104): test, set algebra, kmatch, kgather.t, kld and kst. -/

namespace Sys2Proof.Machine

-- test (R99).
def execTest (cmp : Cmp) (ty : TestTy) (k d : KReg) (a : VReg) (b : LaneSrc) (s : State) : Host.Outcome State Fault Refusal :=
  match ty with
  | .f64 =>
    let pb (s : State) (gl : Nat) : DWord := match b with | .v r => s.vpair gl r.toNat | .s r => s.sreg r.toNat | .imm _ => 0
    s.issue (pairRegs a.toNat ++ (match b with | .v r => pairRegs r.toNat | _ => [])) false fun s =>
      ((s.clearK k.toNat).setK d.toNat (laneUnion ((s.lanes k).filter fun gl => testPair cmp (s.vpair gl a.toNat) (pb s gl)))).retire {}
  | .f32 => s.issue (a.toNat :: b.regs) false fun s =>
      ((s.clearK k.toNat).setK d.toNat (laneUnion ((s.lanes k).filter fun gl => testWord cmp .f32 (s.vreg gl a.toNat) (s.laneFlt gl b)))).retire {}
  | t => s.issue (a.toNat :: b.regs) false fun s =>
      ((s.clearK k.toNat).setK d.toNat (laneUnion ((s.lanes k).filter fun gl => testWord cmp t (s.vreg gl a.toNat) (s.laneInt gl b)))).retire {}

-- Set algebra on whole sets (R100).
/-- A set computed from two sources, whose exited members are cleared first. -/
def setEffect2 (op : LaneSet → LaneSet → LaneSet) (d a b : KReg) (s : State) : Host.Outcome State Fault Refusal :=
  s.issuePlain fun s =>
    (((s.clearK a.toNat).clearK b.toNat).setK d.toNat (op (s.kset a.toNat) (s.kset b.toNat))).retire {}
def setEffect1 (op : LaneSet → LaneSet) (d a : KReg) (s : State) : Host.Outcome State Fault Refusal :=
  s.issuePlain fun s => ((s.clearK a.toNat).setK d.toNat (op (s.kset a.toNat))).retire {}

/-- The live lanes of every home group represented in the agent. -/
def State.homeLive (s : State) : LaneSet :=
  s.curAgent.homes.foldl (fun x g => x ||| homePart s.curTeam.liveSet g) 0
def execKall (d : KReg) (s : State) : Host.Outcome State Fault Refusal :=
  s.issuePlain fun s => (s.setK d.toNat s.homeLive).retire {}
def execKunion (d a b : KReg) (s : State) := setEffect2 (fun x y => x ||| y) d a b s
def execKinter (d a b : KReg) (s : State) := setEffect2 (fun x y => x &&& y) d a b s
def execKdiff (d a b : KReg) (s : State) := setEffect2 (fun x y => x &&& ~~~y) d a b s
def execKcount (d : SReg) (a : KReg) (s : State) : Host.Outcome State Fault Refusal :=
  s.issuePlain fun s => (s.clearK a.toNat).scalOp d (dw (population (s.kset a.toNat)))
/-- The member with the least home coordinates, as a set. -/
def firstOf (x : LaneSet) : LaneSet :=
  match laneList x with
  | gl :: _ => laneBit gl
  | [] => 0
def execKfirst (d a : KReg) (s : State) := setEffect1 firstOf d a s
def execKmov (d a : KReg) (s : State) := setEffect1 (fun x => x) d a s

/-- The members that agree with the first one (R101). -/
def execKmatch (k d : KReg) (a : VReg) (wide : Bool) (s : State) : Host.Outcome State Fault Refusal :=
  s.issue (if wide then pairRegs a.toNat else [a.toNat]) false fun s =>
    let val (gl : Nat) : DWord := if wide then s.vpair gl a.toNat else (s.vreg gl a.toNat).setWidth 64
    let lanes := s.lanes k
    let hit := match lanes with
      | f :: _ => lanes.filter fun gl => val gl == val f
      | [] => []
    ((s.clearK k.toNat).setK d.toNat (laneUnion hit)).retire {}

-- Rendezvous arrival (R103).
/-- The cluster rendezvous a team takes part in (R238). -/
def State.clusterRdv (s : State) : Option Rdv := (s.cluster s.curTeam.cluster).rdv
/-- The rendezvous-mismatch fault against an open one (R103, R310). -/
def mismatch (r : Rdv) : Raise := { kind := 6, d0 := dw r.pc, d1 := r.desc }
/-- An open rendezvous in which the issuing agent takes part and which the arriving one does not match. -/
def State.rdvFault (s : State) (same : Rdv → Bool) (cluster : Bool) : Option Raise :=
  let samePlace (r : Rdv) : Bool := r.pc == s.curAgent.pc && (r.kind == .applyT || r.kind == .apply2)
  match s.curTeam.rdvs.find? fun r => (s.curTeam.partOf s.cur.agent r || samePlace r) && (cluster || !same r) with
  | some r => some (mismatch r)
  | none => match s.clusterRdv with
    | some r => if cluster && same r then none else some (mismatch r)
    | none => none
/-- The agent arrives; the last arrival completes the rendezvous. -/
def State.arriveRdv (s : State) (new : Rdv) (same : Rdv → Bool) (contrib : LaneSet) : State :=
  let me := (s.cur.agent, contrib)
  let old := s.curTeam.rdvs.find? same
  let r := match old with
    | some r => { r with arrived := r.arrived ++ [me] }
    | none => { new with arrived := [me] }
  let rest := s.curTeam.rdvs.filter fun x => some x != old
  let s := (s.modCurTeam fun t => { t with rdvs := rest ++ [r] }).modCur fun x => { x with status := .rdv }
  if s.curTeam.complete r then s.completeRdv s.cur.team r else s

/-- An arrival at a rendezvous that compares the PC alone. -/
def State.arrivePc (s : State) (kind : RdvKind) (dest : Nat) (contrib : LaneSet) : State :=
  let pc := s.curAgent.pc
  s.arriveRdv ⟨kind, pc, 0, 0, s.curTeam.k0Desc s.cur.agent, 0, dest, 0, []⟩ (fun r => r.kind == kind && r.pc == pc) contrib
def State.samePc (s : State) (kind : RdvKind) (r : Rdv) : Bool := r.kind == kind && r.pc == s.curAgent.pc

/-- kgather.t: barrier-class, then a rendezvous that unites the contributions (R102). It makes no saturation test: R65 names bar, cbar and pbar.arrive
alone (DEDUCED, log 27). -/
def execKgatherT (d a : KReg) (s : State) : Host.Outcome State Fault Refusal :=
  s.issueChecked (fun s => firstFault [s.partialFault, s.rdvFault (s.samePc .gather) false]) fun s =>
    (s.clearK a.toNat).arrivePc .gather d.toNat (s.members a.toNat)

end Sys2Proof.Machine
end

