-- ==== Sys2Proof/Machine/Memory.lean ====
section
/-! DEFINITION. Lane memory instructions (09 R158 to R161, R154, R155, 06 R104): ld, ld.fe, ld.take, st, atom, kld, kst. -/

namespace Sys2Proof.Machine

/-- The layout and coordinate-count checks of format M (R148, R149). -/
def mCheck (l : Layout) (h : Nat) (slots : List MSlot) (spaces : List Nat) (accepts : Layout → Bool) (size : Nat) : Option Raise :=
  match l.fault h spaces accepts size with
  | some c => some (layoutRaise c h)
  | none => (mCount l slots).map (countRaise l h)

/-- The record a lane memory instruction of the issuing agent reads (R146, R166): that of the issued instruction, or the reader's. -/
def State.laneLayout (s : State) (r : LayoutRef) : Layout :=
  match s.curAgent.issued.bind fun i => i.recs.head? with
  | some x => ⟨x.2⟩
  | none => s.curTeam.record (.lane s.cur.agent) (s.handleOf r)

/-- The element a lane addresses: its exact address. -/
def State.laneAddr (s : State) (l : Layout) (size : Nat) (slots : List MSlot) (gl : Nat) : Nat :=
  (l.addr size (s.mCoords l slots gl)).toNat
/-- Its place and physical address (R151, R227). -/
def State.laneSpot (s : State) (l : Layout) (size : Nat) (slots : List MSlot) (gl : Nat) : Place × Nat :=
  let p := s.elemAt s.cur.team l (s.laneAddr l size slots gl) size
  (p.1, p.2.1)
/-- The two words of its element are exchanged. -/
def State.laneSwap (s : State) (l : Layout) (size : Nat) (slots : List MSlot) (gl : Nat) : Bool :=
  (s.elemAt s.cur.team l (s.laneAddr l size slots gl) size).2.2
/-- The lanes that fail the bounds check (R150). -/
def State.laneBounds (s : State) (l : Layout) (size : Nat) (slots : List MSlot) (lanes : List Nat) : List (Nat × Raise) :=
  lanes.filterMap fun gl => (s.boundsFail s.curTeam l size (s.mCoords l slots gl)).map fun d =>
    (gl, { kind := 12, cause := 1, d0 := dw d })

/-- What a lane memory instruction of format M is: its ordering, layout field, coordinate slots and element size, and whether it writes. -/
structure MemOp where
  ord : Ord
  l : LayoutRef
  slots : List MSlot
  size : Nat
  fe : Bool := false
  writes : Bool := false
  /-- Racing accesses are completed (R313). -/
  complete : Bool := false
  /-- The one lane whose access is made (log 101). -/
  only : Option Nat := none

/-- A lane's access. -/
def MemOp.acc (m : MemOp) (s : State) (l : Layout) (gl : Nat) (read write : Bool) : Acc :=
  let p := s.laneSpot l m.size m.slots gl
  s.laneAcc ⟨s.handleOf m.l, s.mCoords l m.slots gl, 0, m.ord, m.fe⟩ p.1 p.2 m.size gl read write

/-- The accesses of an issued instruction: those of one lane, or those of every lane that has made none, in ascending home lane order, after which it
completes. after: what it does then, from the registers as they stood before any destination was written (R18). -/
def MemOp.perform (m : MemOp) (k : KReg) (wait : State → Layout → List Nat → Bool) (lane : Before → Layout → Bool → Run → Nat → Run)
    (after : State → List Nat → Run → Run) (s : State) : State :=
  let l := s.laneLayout m.l
  let x := s.curAgent
  let i := s.issuedNow
  let todo := (homeOrder (s.lanes k)).filter fun gl => !(x.struck.any fun p => p.1 == gl) && !i.done.contains gl
  match m.only with
  | some gl =>
    let spot (h : Nat) : Option (Place × Nat × Nat) := let p := s.laneSpot l m.size m.slots h
                                                      some (p.1, p.2, m.size)
    if m.fe || !todo.contains gl || (m.writes && !laneNext spot todo gl) then s
    else (lane s.judged l false (Run.start s) gl).note s [gl]
  | none =>
    if wait s l todo then s
    else
      let run := todo.foldl (lane s.judged l m.complete) (Run.start s)
      let run := { run with seen := i.lines ++ run.seen, struck := x.struck ++ run.struck, wrote := i.wrote || run.wrote }
      let run := if (s.lanes k).isEmpty then run else after s todo run
      s.finish run.s run.struck { endsSpin := run.wrote, legEnd := m.ord.marked || m.fe }

/-- A format-M lane instruction (R157): the layout and count checks, the watch stop over the addresses that resolve, which comes before every other fault
(R344), the registers named, and the bounds of each member; then the accesses. -/
def MemOp.body (m : MemOp) (k : KReg) (regs : List Nat) (spaces : List Nat) (accepts : Layout → Bool)
    (wait : State → Layout → List Nat → Bool) (lane : Before → Layout → Bool → Run → Nat → Run) (after : State → List Nat → Run → Run) (s : State) : State :=
  if s.curAgent.issued.isSome then m.perform k wait lane after s
  else
    let l := s.laneLayout m.l
    let h := s.handleOf m.l
    match mCheck l h m.slots spaces accepts m.size with
    | some f => s.raise f
    | none =>
      let lanes := s.lanes k
      let bad := s.laneBounds l m.size m.slots lanes
      let good := lanes.filter fun gl => !(bad.any fun p => p.1 == gl)
      s.unlessWatched (good.map fun gl => let p := s.laneSpot l m.size m.slots gl; spotOf p.1 p.2 m.size) fun s =>
        match s.regFault (regs ++ mRegs l m.slots) false with
        | some f => s.raise f
        | none => m.perform k wait lane after ((s.clearK k.toNat).modCur fun x =>
            { x with
            issued := some ⟨[(h, l.raw)], [], [], [], false⟩
            struck := bad
            before := s.noteBefore (good.flatMap fun gl => let p := s.laneSpot l m.size m.slots gl; linesOf p.1 p.2 m.size) [] })

-- ld (R159, R155).
def ldBytes : LdW → Nat
  | .s8 | .n8 => 1 | .s16 | .n16 => 2 | .w32 => 4 | .w64 => 8
/-- The register value of loaded bytes. -/
def ldValue (w : LdW) (x : DWord) : Word :=
  match w with
  | .s8 => (x.setWidth 8).signExtend 32
  | .s16 => (x.setWidth 16).signExtend 32
  | _ => x.setWidth 32
def dataRegs (wide : Bool) (d : VReg) : List Nat := if wide then pairRegs d.toNat else [d.toNat]
def mOp (m : MArgs) (size : Nat) (fe : Bool) : MemOp := { ord := ordOf m.os, l := m.l, slots := m.slots, size := size, fe := fe }

/-- One lane of ld. -/
def ldLane (m : MArgs) (w : LdW) (d : VReg) (fe : Bool) (before : Before) (l : Layout) (complete : Bool) (r : Run) (gl : Nat) : Run :=
  let x := r.read before ((mOp m (ldBytes w) fe).acc r.s l gl true false) gl 0 complete
  let value := leWord (orient (r.s.laneSwap l (ldBytes w) m.slots gl) x.2)
  match w with
  | .w64 => x.1.putPair gl d.toNat value
  | _ => x.1.put gl d.toNat (ldValue w value)

/-- The lines read become the watch (R172); a struck lane's access read none. -/
def setWatch (r : Run) : Run :=
  { r with s := r.s.modCur fun x => { x with watch := some ⟨r.seen.eraseDups, false⟩ } }

/-- Granules of shared memory that members address. -/
def State.granulesAt (s : State) (m : MArgs) (w : LdW) (l : Layout) (lanes : List Nat) : List (Nat × Nat) :=
  lanes.map fun gl => (gl, (s.laneSpot l (ldBytes w) m.slots gl).2 / 16)
/-- No lane waits: each granule is full, or lies in a row that cannot be read, whose lanes take the storage-error fault (R155, R156). -/
def State.allFull (s : State) (gs : List (Nat × Nat)) : Bool :=
  gs.all fun g => cellHas s.curTeam.full g.2 || s.badAt (.shared s.cur.team) (16 * g.2) 16
/-- The view that the filling write carries is merged for the lane's group (R210, R257). -/
def State.takeFill (s : State) (gl : Nat) (f : Fill) : State :=
  (s.modCur fun x =>
    { x with
      view := x.view ||| f.view
      seen := x.seen ++ f.snaps.filter fun y => !x.seen.contains y
      seenIds := x.seenIds ++ f.sources.filter fun y => !x.seenIds.contains y }).observeEngine s.cur.team (gl / 32) (if f.cluster then 1 else 0) f.ident
    f.clocks
def State.takeFills (s : State) (gs : List (Nat × Nat)) : State :=
  gs.foldl (fun (s : State) g => s.takeFill g.1 (cellGet ⟨0, false, noIdent, ⟨0, 0, 0⟩, [], []⟩ s.curTeam.full g.2)) s

/-- ld and its full/empty forms, which make their whole access in one step (R155). -/
def ldBody (w : LdW) (k : KReg) (d : VReg) (m : MArgs) (fe take complete : Bool) (only : Option Nat) (s : State) : State :=
  ({ mOp m (ldBytes w) fe with complete := complete, only := only } : MemOp).body k (dataRegs (w == .w64) d) (if fe then [0] else [0, 1, 2])
    (fun l => l.size == (ldBytes w)) (fun s l good => fe && !s.allFull (s.granulesAt m w l good))
    (fun before l complete r gl =>
      let r := if fe then { r with s := r.s.takeFills (r.s.granulesAt m w l [gl]) } else r
      ldLane m w d fe before l complete r gl)
    (fun s good r =>
      let r := setWatch r
      if take then
        let gs := (s.granulesAt m w (s.laneLayout m.l) (good.filter fun gl => !r.hit gl)).map (·.2)
        { r with s := r.s.modCurTeam fun t => { t with full := t.full.filter fun p => !gs.contains p.1 } }
      else r) s
def execLd (w : LdW) (k : KReg) (d : VReg) (m : MArgs) (s : State) := s.issuePlain (ldBody w k d m false false false none)
def execLdFe (w : LdW) (k : KReg) (d : VReg) (m : MArgs) (s : State) := s.issuePlain (ldBody w k d m true false false none)
def execLdTake (w : LdW) (k : KReg) (d : VReg) (m : MArgs) (s : State) := s.issuePlain (ldBody w k d m true true false none)

-- st (R159).
def stBytes : StW → Nat
  | .w8 => 1 | .w16 => 2 | .w32 => 4 | .w64 => 8
/-- The stored value of a lane. -/
def State.stValue (s : State) (w : StW) (d : VReg) (gl : Nat) : DWord :=
  match w with
  | .w64 => s.vpair gl d.toNat
  | _ => (s.vreg gl d.toNat).setWidth 64
def stLane (m : MArgs) (w : StW) (d : VReg) (before : Before) (l : Layout) (complete : Bool) (r : Run) (gl : Nat) : Run :=
  r.write before ((mOp m (stBytes w) false).acc r.s l gl false true) gl 0 complete
    (orient (r.s.laneSwap l (stBytes w) m.slots gl) (leBytes (r.s.stValue w d gl) (stBytes w)))
def stBody (w : StW) (k : KReg) (d : VReg) (m : MArgs) (complete : Bool) (only : Option Nat) (s : State) : State :=
  ({ mOp m (stBytes w) false with writes := true, complete := complete, only := only } : MemOp).body k (dataRegs (w == .w64) d) [0, 1, 2]
    (fun l => l.size == (stBytes w)) (fun _ _ _ => false) (stLane m w d) (fun _ _ r => r) s
def execSt (w : StW) (k : KReg) (d : VReg) (m : MArgs) (s : State) := s.issuePlain (stBody w k d m false none)

-- atom (R160, R161).
/-- The new value of an element, or none where cas writes nothing. -/
def atomNew (op : AtomOp) (wide : Bool) (old v c : DWord) : Option DWord :=
  let sx (x : DWord) : Int := if wide then x.toInt else (x.setWidth 32).toInt
  match op with
  | .add => some (old + v)
  | .addF32 => some ((word2 (fltAdd .f32 0) (old.setWidth 32) (v.setWidth 32)).setWidth 64)
  | .minS => some (if sx v < sx old then v else old)
  | .minN => some (if v.toNat < old.toNat then v else old)
  | .maxS => some (if sx old < sx v then v else old)
  | .maxN => some (if old.toNat < v.toNat then v else old)
  | .and => some (old &&& v)
  | .or => some (old ||| v)
  | .xor => some (old ^^^ v)
  | .xchg => some v
  | .cas => if old = c then some v else none
def atomMem (f : AtomArgs) : MemOp :=
  { ord := if f.os = 0 then ⟨none, none, 1⟩ else ordOf f.os, l := f.l, slots := [f.c0, f.c1], size := if f.wide then 8 else 4, writes := true }
/-- A lane's register operand at the element's width. -/
def State.atomReg (s : State) (wide : Bool) (gl : Nat) (r : VReg) : DWord :=
  if wide then s.vpair gl r.toNat else (s.vreg gl r.toNat).setWidth 64
def atomLane (op : AtomOp) (f : AtomArgs) (before : Before) (l : Layout) (complete : Bool) (r : Run) (gl : Nat) : Run :=
  let n := if f.wide then 8 else 4
  let swap := r.s.laneSwap l n (atomMem f).slots gl
  let x := r.access before ((atomMem f).acc r.s l gl true true) gl 0 complete fun old =>
    (atomNew op f.wide (leWord (orient swap old)) (r.s.atomReg f.wide gl f.d) (r.s.atomReg f.wide gl f.c)).map fun y => orient swap (leBytes y n)
  let old := leWord (orient swap x.2)
  if f.wide then x.1.putPair gl f.d.toNat old else x.1.put gl f.d.toNat (old.setWidth 32)
/-- The vector registers an atomic names. -/
def atomRegs (op : AtomOp) (f : AtomArgs) : List Nat :=
  dataRegs f.wide f.d ++ match op with
    | .cas => dataRegs f.wide f.c
    | _ => []
def atomBody (op : AtomOp) (f : AtomArgs) (complete : Bool) (only : Option Nat) (s : State) : State :=
  ({ atomMem f with complete := complete, only := only } : MemOp).body f.k (atomRegs op f) [0, 1, 2] (fun l => l.size == (atomMem f).size)
    (fun _ _ _ => false) (atomLane op f) (fun _ _ r => r) s
def execAtom (op : AtomOp) (f : AtomArgs) (s : State) := s.issuePlain (atomBody op f false none)

-- kld and kst (R104).
/-- The lane under which an access of a whole agent is recorded: its lowest lane in the host group. -/
def State.agentLane (s : State) : Nat :=
  ((laneList s.curAgent.lanes).find? fun gl => gl / 32 == s.curAgent.host).getD (32 * s.curAgent.host)
/-- n bytes at an aligned address of a record: their place, base, and where each logical byte lies. -/
def State.block (s : State) (l : Layout) (a n : Nat) : Place × Nat × List Nat :=
  let p := s.placeAt s.cur.team l a
  let base := p.2 / n * n
  (p.1, base, (List.range n).map fun i => (s.placeAt s.cur.team l (a + i)).2 - base)
/-- Physical bytes in logical order, and the reverse. -/
def gatherBytes (offs : List Nat) (bs : List Byte) : List Byte := offs.map fun o => (bs[o]?).getD 0
def scatterBytes (offs : List Nat) (bs : List Byte) : List Byte :=
  (List.range bs.length).map fun j => (bs[(offs.idxOf? j).getD 0]?).getD 0

/-- The alignment check of the agent's own accesses (R148). -/
def alignFault (h a n : Nat) : Option Raise := if a % n == 0 then none else some (layoutRaise 6 h)
/-- The whole bounds fault of n bytes at an element (R104, R310). The one of pbar takes the same form, whole with cause 2 (DESIGN CHOICE, log 102). -/
def State.blockBounds (s : State) (l : Layout) (cs : List Nat) (n : Nat) : Option Raise :=
  let whole (d : Nat) : Raise := { kind := 12, cause := 2, d0 := dw d }
  match cs.zipIdx.find? fun p => decide (l.ext p.2 ≤ p.1) with
  | some p => some (whole p.2)
  | none => if s.rangeOk s.curTeam l.space (l.addr l.size cs) n then none else some (whole 4)

/-- An access of n bytes by the agent, in the form of format M: the watch stop where its address resolves, which comes before every fault (R344), issue checks,
then the body with the place. early: a check of the bytes that comes before the bounds (R157). Once issued, it keeps the record it read (R146). -/
def blockBody (m : MArgs) (n : Nat) (spaces : List Nat) (pre : State → Option Raise) (early : State → Place × Nat × List Nat → Option Raise)
    (body : State → Place × Nat × List Nat → List Nat → State) (s : State) : State :=
  let l := s.laneLayout m.l
  let h := s.handleOf m.l
  let cs := s.mCoords l m.slots 0
  let a := l.addr l.size cs
  let b := s.block l a.toNat n
  let inside := s.rangeOk s.curTeam l.space a n
  if s.curAgent.issued.isSome then body s b cs
  else
    let named := mCheck l h m.slots spaces (fun _ => true) l.size
    s.unlessWatched (if named.isNone && inside then [spotOf b.1 b.2.1 n] else []) fun s =>
      match firstFault [pre s, named, if (mRegs l m.slots).isEmpty then none else some (illegal 6), alignFault h (a % n).toNat n,
          if inside then early s b else none, s.blockBounds l cs n] with
      | some f => s.raise f
      | none => body (s.modCur fun x => { x with issued := some ⟨[(h, l.raw)], [], [], [], false⟩ }) b cs

/-- One access of the agent: its result, or the whole fault it takes. -/
def State.agentAccess (s : State) (u : Use) (b : Place × Nat × List Nat) (n : Nat) (read : Bool) (complete : Bool)
    (new : List Byte → Option (List Byte)) : Run × List Byte :=
  let gl := s.agentLane
  (Run.start s).access s.linesNow (s.laneAcc u b.1 b.2.1 n gl read (new (List.replicate n 0)).isSome) gl 0 complete new
/-- A struck access of the agent itself (kld, kst, pbar), which names no lane, is a whole fault: it strikes all of the agent's k0 (DESIGN CHOICE, log 128). -/
def State.orRaise (_s : State) (r : Run) (go : State → State) : State :=
  match r.struck with
  | p :: _ => r.s.raise p.2
  | [] => go r.s

/-- The set-image fault's bit: the lowest one beyond the team's shape (R104; which of several is DESIGN CHOICE, log 126). -/
def Team.imageFault (t : Team) (x : LaneSet) : Option Nat :=
  (List.range 32).findSome? fun g =>
    let w := groupPart x g
    if w == 0 then none
    else ((List.range 32).find? fun l => w / 2 ^ l % 2 == 1 && (decide (t.groupsN ≤ g) || decide (t.lanesN ≤ l))).map fun l => 32 * g + l
def kldAccess (m : MArgs) (complete : Bool) (d : KReg) (s : State) (b : Place × Nat × List Nat) (cs : List Nat) : State :=
  let u : Use := ⟨s.handleOf m.l, cs, 0, ordOf m.os, false⟩
  let r := s.agentAccess u b 128 true complete fun _ => none
  s.orRaise r.1 fun s' =>
    let bytes := gatherBytes b.2.2 (s.overlay (s.laneAcc u b.1 b.2.1 128 s.agentLane true false) r.2)
    let img : LaneSet := BitVec.ofNat 1024 (bytesWord bytes)
    let s' := s'.modCur fun x => { x with watch := some ⟨r.1.seen.eraseDups, false⟩ }
    match s'.curTeam.imageFault img with
    | some i => s'.raise { kind := 8, d0 := dw i }
    | none => (s'.setK d.toNat (img &&& s'.curTeam.liveSet)).retire { legEnd := m.os != 0 }
def kldBody (d : KReg) (m : MArgs) (complete : Bool) (s : State) : State :=
  blockBody m 128 [0, 1, 2] (fun _ => none) (fun _ _ => none) (kldAccess m complete d) s
def execKld (d : KReg) (m : MArgs) (s : State) := s.issuePlain (kldBody d m false)
def kstAccess (m : MArgs) (complete : Bool) (a : KReg) (s : State) (b : Place × Nat × List Nat) (cs : List Nat) : State :=
  let u : Use := ⟨s.handleOf m.l, cs, 0, ordOf m.os, false⟩
  let bytes := scatterBytes b.2.2 (wordBytes (s.kset a.toNat).toNat 128)
  let s1 := s.clearK a.toNat
  let gl := s1.agentLane
  let r := (Run.start s1).write s1.linesNow (s1.laneAcc u b.1 b.2.1 128 gl false true) gl 0 complete bytes
  s1.orRaise r fun s' => s'.retire { endsSpin := true, legEnd := m.os != 0 }
def kstBody (a : KReg) (m : MArgs) (complete : Bool) (s : State) : State :=
  blockBody m 128 [0, 1, 2] (fun _ => none) (fun _ _ => none) (kstAccess m complete a) s
def execKst (a : KReg) (m : MArgs) (s : State) := s.issuePlain (kstBody a m false)

end Sys2Proof.Machine
end

