-- ==== Sys2Proof/Machine/Barriers.lean ====
section
/-! DEFINITION. Layout table writes (09 R165, R166, 15 R259), fences (14 R239), barriers (09 R167, 14 R238), the clock changes a
cbar causes (08 R142), and phase barriers (09 R168 to R171). -/

namespace Sys2Proof.Machine

-- lrec and lfence.
/-- The readers of a team that may hold a copy of a record. -/
def Team.readers (t : Team) : List Reader :=
  t.agents.flatMap (fun p => [Reader.lane p.1, Reader.layer p.1]) ++ [.streamer, .matrix]
/-- A record written (R165): every reader but the writing agent's own lane memory instructions may keep the older one. -/
def Team.writeRecord (t : Team) (agent handle : Nat) (r : BitVec 256) : Team :=
  let old := cellGet 0 t.layouts handle
  let keep := t.caches.filter fun c => !(c.1 == .lane agent && c.2.1 == handle)
  let fresh := (t.readers.filter fun x => x != .lane agent && !(keep.any fun c => c.1 == x && c.2.1 == handle)).map fun x => (x, handle, old)
  { t with
    layouts := cellSet 0 t.layouts handle r
    caches := keep ++ fresh
    lrecs := if t.lrecs.contains (agent, handle) then t.lrecs else t.lrecs ++ [(agent, handle)] }
def execLrec (a : SReg) (handle : BitVec 7) (s : State) : Host.Outcome State Fault Refusal :=
  s.issuePlain fun s =>
    let w (i : Nat) : DWord := s.sreg (a.toNat + i)
    (s.modCurTeam fun t => t.writeRecord s.cur.agent handle.toNat (w 3 ++ w 2 ++ w 1 ++ w 0)).retire {}
/-- lfence: no cache holds a record older than the agent's earlier writes (R166, R259). -/
def execLfence (s : State) : Host.Outcome State Fault Refusal :=
  s.issuePlain fun s =>
    (s.modCurTeam fun t =>
      let mine := (t.lrecs.filter fun p => p.1 == s.cur.agent).map (·.2)
      { t with
        caches := t.caches.filter fun c => !mine.contains c.2.1
        lrecs := t.lrecs.filter fun p => p.1 != s.cur.agent }).retire {}
/-- A reader replaces a record it holds with the table's current one (R259). -/
def execLayoutCacheFill (team : Nat) (r : Reader) (handle : BitVec 7) (s : State) : Host.Outcome State Fault Refusal :=
  .next (if cellHas s.teams team then
    s.modTeam team fun t => { t with caches := t.caches.filter fun c => !(c.1 == r && c.2.1 == handle.toNat) }
  else s)

-- fence, bar, cbar.
def execFence (sc : Scope) (s : State) : Host.Outcome State Fault Refusal :=
  s.issuePlain fun s => (s.fenceAt s.cur sc.code).retire { legEnd := true }

def execBar (s : State) : Host.Outcome State Fault Refusal :=
  s.issueChecked (fun s => firstFault [s.satFault, s.partialFault, s.rdvFault (s.samePc .bar) false]) fun s => s.arrivePc .bar 0 0

/-- Arrival at the rendezvous of a cluster of more than one core. -/
def State.arriveCluster (s : State) : State :=
  let c := s.curTeam.cluster
  let x := s.curAgent
  let s := s.modCluster c fun y =>
    { y with
      rdv := match y.rdv with
        | some r => some r
        | none => some ⟨.cbar, x.pc, 0, 0, s.curTeam.k0Desc s.cur.agent, 0, 0, 0, []⟩
      arrived := y.arrived ++ [(s.cur.team, s.cur.agent, s.tick)] }
  let s := s.modCur fun x => { x with status := .rdv }
  if s.clusterDone c then s.clusterMeet c else s
def State.oneCore (s : State) : Bool :=
  let c := s.cluster s.curTeam.cluster
  decide (c.w * c.h ≤ 1)
def execCbar (s : State) : Host.Outcome State Fault Refusal :=
  s.issueChecked (fun s => firstFault [s.satFault, s.partialFault,
      if s.oneCore then s.rdvFault (s.samePc .cbar) false else s.rdvFault (s.samePc .cbar) true]) fun s =>
    if s.oneCore then s.arrivePc .cbar 0 0 else s.arriveCluster

/-- The partition whose grid holds a core. -/
def State.gridOf (s : State) (core : Nat) : Option Nat := (s.partitions.find? fun p => p.2.grid.contains core).map (·.1)
/-- The clock a core has to run at (R141, R142, R305, R333): a locked one keeps to its clock whatever the power-limit throttle of its tower has come to
(DEDUCED, log 121). -/
def State.clockTarget (s : State) (core : Nat) : Nat :=
  let locked := match s.gridOf core with
    | some p => (s.partition p).locked
    | none => false
  min (if locked then 800 else min (s.core core).nextMhz (s.core core).ceiling) (if (s.tower (coreTower core)).thermal then 600 else 1350)
/-- CLOCK_CHANGE: a change of a core's clock takes effect between two cycles (R142). -/
def execClockChange (core : Nat) (s : State) : Host.Outcome State Fault Refusal :=
  .next (s.setClock core (s.clockTarget core) (s.core core).cause)

-- Phase barriers (R168 to R171).
/-- The fields of a granule: expected, pending, phase. -/
structure PBar where
  expected : Nat
  pending : Nat
  phase : BitVec 32
def pbarOf (bs : List Byte) : PBar :=
  let x := bytesWord bs
  ⟨fld x 0 16, fld x 32 32, BitVec.ofNat 32 (fld x 64 32)⟩
def pbarBytes (p : PBar) : List Byte := wordBytes p.expected 4 ++ wordBytes p.pending 4 ++ wordBytes p.phase.toNat 4 ++ List.replicate 4 0
/-- The phase-barrier fault (R171). -/
def pbarFault (bs : List Byte) : Option Raise :=
  let p := pbarOf bs
  let x := bytesWord bs
  if fld x 16 16 != 0 || fld x 96 32 != 0 || p.expected == 0 || p.pending == 0 || decide (p.expected < p.pending) then
    some { kind := 15, cause := if p.expected == 0 then 1 else if p.pending == 0 || decide (p.expected < p.pending) then 2 else 3,
           d0 := dw (fld x 0 64), d1 := dw (fld x 64 64) }
  else none
/-- An arrival (R170). -/
def pbarArrived (p : PBar) : PBar :=
  if p.pending == 1 then { p with pending := p.expected, phase := p.phase + 1 } else { p with pending := p.pending - 1 }

/-- The granule as it stands. -/
def State.granule (s : State) (b : Place × Nat × List Nat) : List Byte :=
  gatherBytes b.2.2 ((List.range 16).map fun i => s.byteAt 0 b.1 (b.2.1 + i))
/-- The check of the granule at issue (R157): the phase-barrier fault, when its bytes can be read. An uncorrectable error in them is met at the access
(R156). -/
def State.pbarCheck (s : State) (b : Place × Nat × List Nat) : Option Raise :=
  if s.badAt b.1 b.2.1 16 then none else pbarFault (s.granule b)
def pbarArriveAccess (d : SReg) (m : MArgs) (complete : Bool) (s : State) (b : Place × Nat × List Nat) (cs : List Nat) : State :=
  let o : Ord := if m.os = 0 then ⟨none, some 0, 1⟩ else ordOf m.os
  let r := s.agentAccess ⟨s.handleOf m.l, cs, 0, o, false⟩ b 16 true complete fun old =>
    some (scatterBytes b.2.2 (pbarBytes (pbarArrived (pbarOf (gatherBytes b.2.2 old)))))
  s.orRaise r.1 fun s' =>
    (s'.setSreg d.toNat ((pbarOf (gatherBytes b.2.2 r.2)).phase.setWidth 64)).retire { endsSpin := true, legEnd := true }
/-- The partial-set check comes before the layout and coordinate-count checks, as the saturation test does (DESIGN CHOICE, log 103). -/
def pbarArriveBody (d : SReg) (m : MArgs) (complete : Bool) (s : State) : State :=
  blockBody m 16 [0] (fun s => firstFault [s.satFault, s.partialFault]) State.pbarCheck (pbarArriveAccess d m complete) s
def execPbarArrive (d : SReg) (m : MArgs) (s : State) := s.issuePlain (pbarArriveBody d m false)
/-- A try of pbar.wait: it waits on while the granule holds the phase expected; another phase, a malformed granule or a storage error ends the wait. -/
def pbarWaitAccess (d : SReg) (m : MArgs) (complete : Bool) (s : State) (b : Place × Nat × List Nat) (cs : List Nat) : State :=
  let o : Ord := if m.os = 0 then ⟨some 0, none, 1⟩ else ordOf m.os
  match s.pbarCheck b with
  | some f => s.raise f
  | none =>
    if !s.badAt b.1 b.2.1 16 && (pbarOf (s.granule b)).phase == (s.sreg d.toNat).setWidth 32 then s
    else
    let r := s.agentAccess ⟨s.handleOf m.l, cs, 0, o, false⟩ b 16 true complete fun _ => none
    s.orRaise r.1 fun s' =>
      (s'.setSreg d.toNat ((pbarOf (gatherBytes b.2.2 r.2)).phase.setWidth 64)).retire { legEnd := true }
def pbarWaitBody (d : SReg) (m : MArgs) (complete : Bool) (s : State) : State :=
  blockBody m 16 [0] (fun _ => none) State.pbarCheck (pbarWaitAccess d m complete) s
def execPbarWait (d : SReg) (m : MArgs) (s : State) := s.issuePlain (pbarWaitBody d m false)

end Sys2Proof.Machine
end

