-- ==== Sys2Proof/Machine/Legs.lean ====
section
/-! DEFINITION. Fetching (02 R31, R36, 18 R317) and the legs of determinate mode (17 R300 to R302): the word an agent would issue, the
instructions that end a leg, the groups that have ended theirs, and whose turn it is. -/

namespace Sys2Proof.Machine

-- Fetching.
/-- What an agent meets at its PC: an instruction, a word that fails a check of R36 with its cause, or a word that does not translate. -/
inductive Fetched where
  | instr (i : Instr)
  | illegal (cause : BitVec 3) (word : DWord)
  | unmapped
deriving DecidableEq, Repr

/-- The word at an agent's PC, decoded within its block's counted length; an instruction whose extension word does not translate is not issuable
(R317). -/
def State.fetch (s : State) (a : AgentRef) : Fetched :=
  let x := s.agent a
  match s.codeWord (s.team a.team) x.pc with
  | .error _ => .unmapped
  | .ok w =>
    let ext := match s.codeWord (s.team a.team) (x.pc + 1) with
      | .ok e => some e
      | .error _ => none
    if decide (2 ≤ x.rest) && wordCount w == 2 && ext.isNone then .unmapped
    else match decode w (if x.rest < 2 then none else ext) with
      | .ok i => .instr i
      | .error r => .illegal r.cause w
/-- The instruction an agent would issue next. -/
def State.nextInstr (s : State) (a : AgentRef) : Option Instr :=
  if (s.agent a).rest == 0 then none
  else match s.fetch a with
    | .instr i => some i
    | _ => none

-- Trap fragments whose turn has come.
/-- An earlier fragment that must have gone first, or the remainder that has not yet reached its join (R117, R307). -/
def Team.turnOf (t : Team) (a : Nat) (x : Agent) : Bool :=
  match x.kind with
  | .trap p d =>
    if x.inRegion then
      (t.agent p).status == .join && (t.agent p).stack.length == d && (t.traps p d).all fun q => q.2.status == .pending && decide (a ≤ q.1)
    else (t.children p).all fun q => decide (a ≤ q.1)
  | _ => false

-- Legs.
/-- A trap frame as tret reads it (R309). -/
structure Frame where
  saved : List DWord
  pc : Nat
  rest : Nat
  depth : Nat
  kind : Nat
  ms : DWord
  swd : Nat
  /-- Its reserved bits are 0. -/
  clean : Bool
/-- The frame at sr.sp. -/
def State.frame (s : State) (a : AgentRef) : Frame :=
  let g := s.groupOf a
  let at_ (o n : Nat) : Nat := readLE g.spill (g.sp.toNat + o) n
  let w := at_ 0xC0 8
  { saved := (List.range 24).map fun j => dw (at_ (8 * j) 8)
    pc := fld w 0 32
    rest := fld w 32 12
    depth := fld w 44 4
    kind := fld w 48 16
    ms := dw (at_ 0xC8 8)
    swd := fld (at_ 0xD0 8) 0 11
    clean := fld (at_ 0xD0 8) 11 53 == 0 && at_ 0xD8 40 == 0 }

/-- The instructions that end a leg whatever agent issues them (R300). -/
def State.listedLeg (s : State) (i : Instr) : Bool :=
  match i with
  | .ld _ _ _ m | .st _ _ _ m | .kld _ m | .kst _ m => m.os != 0
  | .apply2 ka kb _ _ => ((s.kset ka.toNat ||| s.kset kb.toNat) &&& ~~~s.curAgent.lanes) != 0
  | .atom _ _ | .ldFe .. | .ldTake .. | .fence _ | .bar | .cbar | .kgatherT .. | .applyT .. | .bmwait .. | .pbarArrive .. | .pbarWait ..
  | .await .. | .mwait _ | .mwaitAll | .mwaitPop .. | .cpy _ | .cpyx _ | .cpym .. | .mma _ | .emit _ | .rolesw _ | .rmode _ | .exit _ => true
  | _ => false
/-- The instruction at a word offset of an agent's code, when it decodes. -/
def State.instrAt (s : State) (pc : Nat) : Option Instr :=
  match decode (s.wordAt s.cur pc) (match s.codeWord s.curTeam (pc + 1) with | .ok e => some e | .error _ => none) with
  | .ok i => some i
  | .error _ => none
/-- The leg-ending instructions: those listed, and a tret.complete that performs the access of one, which is every marked access (R300; DEDUCED, log 134). -/
def State.endsLeg (s : State) (i : Instr) : Bool :=
  match i with
  | .tretComplete => (s.instrAt (s.frame s.cur).pc).any s.listedLeg
  | i => s.listedLeg i
/-- An agent stands before a leg-ending instruction. -/
def State.atLegEnd (s : State) (a : AgentRef) : Bool :=
  match s.nextInstr a with
  | some i => (s.agent a).progress.isNone && ({ s with cur := a } : State).endsLeg i
  | none => false
/-- A group has ended its leg: by its count, a fault or its end, before a leg-ending instruction, or because no agent it hosts can go on (R300). -/
def State.groupEnded (s : State) (team g : Nat) : Bool :=
  let t := s.team team
  (t.group g).live == 0 || (t.group g).legEnded ||
    (!t.writeBack &&
      t.agents.all fun p => p.2.host != g || (match p.2.status with
        | .ready => s.atLegEnd ⟨team, p.1⟩
        | .pending => !t.turnOf p.1 p.2
        | _ => true))
/-- Groups of the resident teams of a launch, in launch group ID order (R301): team and slot. -/
def State.legGroups (s : State) (li : Nat) : List (Nat × Nat) :=
  let ts := sortBy (fun (a b : Nat × Team) => decide (a.2.node < b.2.node ∨ (a.2.node = b.2.node ∧ a.2.index.toNat ≤ b.2.index.toNat)))
    (s.teams.filter fun t => t.2.launch == li && t.2.status == .resident)
  ts.flatMap fun t => t.2.groups.map fun g => (t.1, g.1)
/-- Every group of a launch has ended its leg. -/
def State.legsEnded (s : State) (li : Nat) : Bool := (s.legGroups li).all fun g => s.groupEnded g.1 g.2
/-- In a determinate launch the groups run their legs in launch group ID order, so that every run makes the same reads (R301, log 31). -/
def State.legTurn (s : State) (team g : Nat) : Bool :=
  ((s.legGroups (s.team team).launch).takeWhile fun x => x != (team, g)).all fun x => s.groupEnded x.1 x.2

-- The engines of a determinate launch (R302).
/-- Copies of a launch that its engines still have to complete, in acceptance order. -/
def State.openCopies (s : State) (li : Nat) : List Nat :=
  s.teams.flatMap fun t =>
    if t.2.launch == li && (t.2.status == .resident || t.2.status == .draining) then
      (t.2.copies.filter fun c => c.2.accepted && c.2.remote.isNone).map fun c => c.2.order
    else []
/-- A command can go on by itself: it executes, or waits for nothing but its arrays. -/
def Cmd.ready (c : Cmd) (t : Team) : Bool :=
  c.state == .waiting && !c.queued && c.preds.all fun o => t.cmds.all fun d => d.order != o || d.state == .complete
def State.openCmds (s : State) (li : Nat) : List Nat :=
  s.teams.flatMap fun t =>
    if t.2.launch == li && t.2.status == .resident then
      (t.2.cmds.filter fun (c : Cmd) => c.state == .executing || c.ready t.2).map fun (c : Cmd) => c.order
    else []
/-- A matrix command of a determinate launch may go on: the legs have ended, the copies are complete, and no earlier command can go on. -/
def State.cmdTurn (s : State) (team : Nat) (c : Cmd) : Bool :=
  let li := (s.team team).launch
  !(s.launch li).determinate || (s.legsEnded li && (s.openCopies li).isEmpty && (s.openCmds li).all fun o => decide (c.order ≤ o))

end Sys2Proof.Machine
end

