-- ==== Sys2Proof/Machine/Streamer.lean ====
section
/-! DEFINITION. Tiles, chunks and bitmap runs of copies (11 R202 to R204, R217, R218), where their bytes lie and who may touch them (11 R216,
02 R37, 03 R46, 23 R347), the order of copies of one team (11 R209, 15 R255), acceptance (11 R201), and slices (11 R207). -/

namespace Sys2Proof.Machine

-- Tiles.
def Copy.dl (c : Copy) : Layout := ⟨c.dst⟩
def Copy.sl (c : Copy) : Layout := ⟨c.src⟩
def Copy.bl (c : Copy) : Layout := ⟨c.bitmap⟩
/-- The dimensions of a tile from coordinates on a record (R202). -/
def tileDims (l : Layout) (cs : List Nat) : List Nat := cs.zipIdx.map fun p => l.ext p.2 - p.1
def product (l : List Nat) : Nat := l.foldl (· * ·) 1
def Copy.dims (c : Copy) : List Nat := tileDims c.dl c.dc
/-- Tile bytes (R202). -/
def Copy.tileBytes (c : Copy) : Nat := c.dl.size * product c.dims
def chunkCount (bytes : Nat) : Nat := (bytes + 511) / 512
/-- Offsets of a tile index (R202). -/
def offsetsOf : List Nat → Nat → List Nat
  | [], _ => []
  | n :: ns, i => i % n :: offsetsOf ns (i / n)
def addCoords (a b : List Nat) : List Nat := List.zipWith (· + ·) a b

/-- The destination formats of an expand copy (R217). -/
def expandTy (t : Ty) : Bool :=
  match t with
  | .f32 | .h16 | .b16 | .s8 | .n8 | .f8e4 | .f8e5 | .f6e3m2 | .f6e2m3 | .f4e2m1 | .s4 | .n4 => true
  | _ => false
/-- Elements in a destination element of an expand copy: two 4-bit elements share a byte (R217). -/
def expandPer (t : Ty) : Nat := if t.bits == 4 then 2 else 1
def Copy.format (c : Copy) : Ty := (c.sl.ty).getD .n8
/-- Elements per block by the span field (R217). -/
def spanOf (n : Nat) : Nat := match n with | 0 => 62 | 1 => 82 | _ => 124
/-- Blocks of an expand copy's tile of n destination elements (R218). -/
def blockCount (t : Ty) (n span : Nat) : Nat := (n * expandPer t + span - 1) / span

-- Pieces: place, address (virtual in main space) and bytes.
abbrev Piece := Place × Nat × Nat
/-- The pieces of n bytes at an exact address of a record, against the shared allocation of a team (R147, R151, R227). -/
def State.piecesAt (s : State) (team : Nat) (l : Layout) (a : Int) (n : Nat) : List Piece :=
  if l.space == 3 then [(.main, (a % 2 ^ 64).toNat, n)] else s.pieces team l a.toNat n

/-- A tile byte's part of a source or destination: its first tile byte, the coordinates, and the pieces. -/
structure Part where
  tile : Nat
  coords : List Nat
  pieces : List Piece

/-- The destination elements of tile bytes lo to hi − 1, in a team's memory. -/
def State.dstParts (s : State) (team : Nat) (c : Copy) (lo hi : Nat) : List Part :=
  let z := c.dl.size
  (List.range ((hi + z - 1) / z - lo / z)).map fun k =>
    let e := lo / z + k
    let cs := addCoords c.dc (offsetsOf c.dims e)
    ⟨z * e, cs, s.piecesAt team c.dl (c.dl.addr z cs) z⟩
/-- Blocks that tile bytes lo to hi − 1 of an expand copy need. -/
def Copy.blocks (c : Copy) (lo hi : Nat) : List Nat :=
  let z := c.dl.size
  let per := expandPer c.format
  let first := lo / z * per / c.span
  let last := ((hi + z - 1) / z * per - 1) / c.span
  (List.range (last + 1 - first)).map fun k => first + k
/-- The source elements, or source blocks, of tile bytes lo to hi − 1. -/
def State.srcParts (s : State) (team : Nat) (c : Copy) (lo hi : Nat) : List Part :=
  match c.kind with
  | .cpyx => (c.blocks lo hi).map fun k =>
      let cs := [c.sc.headD 0 + k]
      ⟨max lo (k * c.span / expandPer c.format * c.dl.size), cs, s.piecesAt team c.sl (c.sl.addr 64 cs) 64⟩
  | _ =>
    let z := c.dl.size
    (List.range ((hi + z - 1) / z - lo / z)).map fun k =>
      let e := lo / z + k
      let cs := addCoords c.sc (offsetsOf c.dims e)
      ⟨z * e, cs, s.piecesAt team c.sl (c.sl.addr z cs) z⟩
/-- Tile bytes of a chunk (R203). -/
def Copy.range (c : Copy) (i : Nat) : Nat × Nat := (512 * i, min (512 * i + 512) c.tileBytes)

-- The bitmap run (R204).
/-- The byte address of word j of a bitmap record in shared memory. -/
def wordAddr (l : Layout) (j : Nat) : Nat := permute l.perm (l.addr 4 [j]).toNat
/-- The run's words, as word addresses of the shared allocation. -/
def Copy.words (c : Copy) : List Nat := (List.range c.runWords).map fun j => wordAddr c.bl (c.run + j) / 4
def Copy.inRun (c : Copy) (word : Nat) : Bool := c.words.contains word
/-- Copies and deliveries not yet complete in a team. -/
def Team.incomplete (t : Team) : List Copy := (t.copies.filter fun p => p.2.accepted).map (·.2)

-- Overlap of pieces.
def pieceMeets (a b : Piece) : Bool := a.1 == b.1 && decide (a.2.1 < b.2.1 + b.2.2) && decide (b.2.1 < a.2.1 + a.2.2)
/-- The first byte of a piece, counted from its start, that another covers. -/
def pieceFirst (a b : Piece) : Option Nat := if pieceMeets a b then some (max a.2.1 b.2.1 - a.2.1) else none
def piecesMeet (a b : List Piece) : Bool := a.any fun p => b.any (pieceMeets p)
/-- The first byte of consecutive pieces that other pieces cover, counted from k. -/
def firstHit (others : List Piece) (k : Nat) : List Piece → Option Nat
  | [] => none
  | q :: qs => match (others.filterMap (pieceFirst q)).min? with
    | some n => some (k + n)
    | none => firstHit others (k + q.2.2) qs
/-- The lowest tile byte of parts that other pieces cover. -/
def partHit (ps : List Part) (others : List Piece) : Option Nat := (ps.filterMap fun p => firstHit others p.tile p.pieces).min?
def partPieces (ps : List Part) : List Piece := ps.flatMap (·.pieces)

-- What an address may be.
def CodeObject.binBytes (o : CodeObject) : Nat := 64 * (o.nodes.map (·.cap)).sum
/-- The device areas of a launch (R46): addresses and sizes. -/
def State.areasOf (s : State) (l : Launch) : List (Nat × Nat) :=
  let o := s.object l.object
  [(l.context, o.slotSize * l.slots), (l.bins, o.binBytes), (l.completion, 128)] ++
    (if l.mode == 0 then [] else [(l.ring, 128 + 128 * 2 ^ l.ringLog), (l.vectors, 32768 * l.slots)]) ++
    (let p := s.partition (s.vi l.vi).partition; if p.poolSize == 0 then [] else [(p.poolBase, p.poolSize)])
/-- A byte lies in a device area of a launch of the partition. -/
def State.inDevice (s : State) (partition pa n : Nat) : Bool :=
  s.launches.any fun l => (s.vi l.2.vi).partition == partition && (s.areasOf l.2).any fun a => s.rangeHas l.2.vi a.1 a.2 pa n

/-- One byte of a chunk's access: where it lies, the key and virtual address in main memory, its tile byte, the coordinates of its element, and whether a
window of the fabric aperture leads to it (R347). -/
structure Spot where
  place : Place
  addr : Nat
  key : Nat
  va : Nat
  tile : Nat
  coords : List Nat
  window : Bool
deriving DecidableEq, Repr
/-- The byte lies in the fabric aperture (R347). -/
def Spot.far (p : Spot) : Bool := !p.window && p.place == .main && decide (apertureBase ≤ p.addr)

/-- A chunk may not write loaded code words (R37), nor touch a device area of its partition (R46). -/
def State.forbidden (s : State) (partition pa n : Nat) (write : Bool) : Bool := (write && s.inCode pa n) || s.inDevice partition pa n
/-- The window of an aperture address (R347): flow, module and destination address. -/
def State.window (s : State) (partition pa : Nat) : Option (Nat × Nat × Nat) :=
  let e := (cellGet 0 (s.partition partition).apertures ((pa - apertureBase) / 2 ^ 35)).toNat
  if fld e 0 1 == 0 || decide (767 < fld e 7 10) then none
  else some (fld e 1 6, fld e 7 10, fld e 28 36 * 2 ^ 28 + (pa - apertureBase) % 2 ^ 35)
/-- Where an address lies in this module's memory: itself, or what a window back to this module names. -/
def State.homeOf (s : State) (partition pa : Nat) : Option Nat :=
  if pa < apertureBase then some pa
  else match s.window partition pa with
    | some (_, m, a) => if m == s.module then some a else none
    | none => none

/-- The bytes of a piece, or the error code 1 or 2 and the main virtual address that fails (R216). -/
def State.spotsAt (s : State) (t : Team) (write : Bool) (tile : Nat) (coords : List Nat) (p : Piece) : Except (Nat × Nat) (List Spot) :=
  match p.1 with
  | .main => match s.translate (s.viOf t) p.2.1 write with
    | .error c => .error (c, p.2.1)
    | .ok (pa, key) =>
      if (match s.homeOf (s.partitionOf t) pa with | some a => s.forbidden (s.partitionOf t) a p.2.2 write | none => false) then .error (2, p.2.1)
      else .ok ((List.range p.2.2).map fun i => ⟨.main, pa + i, key, p.2.1 + i, tile + i, coords, false⟩)
  | q => .ok ((List.range p.2.2).map fun i => ⟨q, p.2.1 + i, 0, 0, tile + i, coords, false⟩)
/-- The bytes of a part. -/
def State.partSpots (s : State) (t : Team) (write : Bool) (tile : Nat) (coords : List Nat) : List Piece → Except (Nat × Nat) (List Spot)
  | [] => .ok []
  | p :: ps => match s.spotsAt t write tile coords p with
    | .error e => .error e
    | .ok l => match s.partSpots t write (tile + p.2.2) coords ps with
      | .error e => .error e
      | .ok r => .ok (l ++ r)
/-- The bytes of parts: those that translate, and the first failure with its tile byte. -/
def State.allSpots (s : State) (t : Team) (write : Bool) (ps : List Part) : List Spot × Option (Nat × Nat × Nat) :=
  ps.foldl (fun (r : List Spot × Option (Nat × Nat × Nat)) p => match s.partSpots t write p.tile p.coords p.pieces with
    | .error e => (r.1, match r.2 with | some x => some x | none => some (p.tile, e.1, e.2))
    | .ok l => (r.1 ++ l, r.2)) ([], none)

-- Order of copies of one team (R209, R255).
/-- What a chunk reads and writes, and what it writes in each named position's team. -/
def State.chunkReads (s : State) (team : Nat) (c : Copy) (i : Nat) : List Piece :=
  partPieces (s.srcParts team c (c.range i).1 (c.range i).2)
/-- The team at a position of a cluster. -/
def State.teamAt (s : State) (cluster position : Nat) : Option Nat :=
  (s.cluster cluster).teams.find? fun t => (s.team t).position == position
def State.writeTeams (s : State) (team : Nat) (c : Copy) : List (Nat × Nat) :=
  match c.kind with
  | .cpym => c.targets.filterMap fun p => (s.teamAt (s.team team).cluster p.1).map fun q => (p.1, q)
  | _ => [(0, team)]
def State.chunkWrites (s : State) (target : Nat) (c : Copy) (i : Nat) : List Piece :=
  partPieces (s.dstParts target c (c.range i).1 (c.range i).2)
/-- The delivery of a chunk to a position, once made or dropped. -/
def Copy.deliveryAt (c : Copy) (i position : Nat) : Option Delivery := c.delivered.find? fun d => d.chunk == i && d.position == position
/-- Chunk i of a copy has landed where it writes at a position. -/
def Copy.landedAt (c : Copy) (i position : Nat) : Bool := c.landed.contains i || (c.deliveryAt i position).isSome
/-- A chunk's access at a place meets a chunk of an earlier copy. -/
def State.meets (s : State) (team : Nat) (x : Copy) (j : Nat) (reads writes : List Piece) (waiting : Bool) : Bool :=
  ((s.writeTeams team x).any fun q => !(waiting && x.landedAt j q.1) &&
      (let w := s.chunkWrites q.2 x j
       piecesMeet reads w || piecesMeet writes w)) ||
    (!(waiting && x.landed.contains j) && piecesMeet writes (s.chunkReads team x j))
/-- The earlier-accepted copies of a team. -/
def Team.earlier (t : Team) (order : Nat) : List Copy :=
  (t.copies.map (·.2) ++ t.done).filter fun x => x.accepted && x.remote.isNone && decide (x.order < order)
/-- An access of a chunk waits for a chunk of an earlier copy (R209). -/
def State.mustWait (s : State) (team : Nat) (c : Copy) (reads writes : List Piece) : Bool :=
  ((s.team team).earlier c.order).any fun x => (List.range x.chunks).any fun j => s.meets team x j reads writes true
/-- The events of the source reads and of the deliveries, among those made, that an access overlaps of a chunk that has not landed everywhere. -/
def State.deliveredView (s : State) (team : Nat) (x : Copy) (j : Nat) (reads writes : List Piece) : View :=
  (s.writeTeams team x).foldl (fun v q => match x.deliveryAt j q.1 with
    | some d =>
      let w := s.chunkWrites q.2 x j
      if piecesMeet reads w || piecesMeet writes w then v ||| d.obs.view else v
    | none => v) 0
/-- The events of earlier copies' chunks that an access overlaps (R255); of a cpym chunk still under way, those of its deliveries (R237). -/
def State.overlapView (s : State) (team : Nat) (c : Copy) (reads writes : List Piece) : View :=
  ((s.team team).earlier c.order).foldl (fun v x => (List.range x.chunks).foldl (fun v j =>
    if cellHas x.obs j then (if s.meets team x j reads writes false then v ||| (cellGet Obs.blank x.obs j).view else v)
    else v ||| s.deliveredView team x j reads writes) v) 0

-- Acceptance (R201).
/-- Accepted incomplete copies of the teams on a core. -/
def State.coreCopies (s : State) (core : Nat) : Nat :=
  (s.teams.map fun p =>
    if p.2.core == core && p.2.status != .evicted && p.2.status != .ended then (p.2.ownCopies.filter fun q => q.2.accepted).length else 0).sum
def State.copyRoom (s : State) (team : Nat) : Bool :=
  let t := s.team team
  decide ((t.ownCopies.filter fun q => q.2.accepted).length < 32) && decide (s.coreCopies t.core < 128)

/-- Outcomes and marks of the words of a run are forgotten, also outcomes that stand with a copy which is not yet complete (R214, R215). -/
def Team.forgetRun (t : Team) (words : List Nat) : Team :=
  { t with
    copies := t.copies.map fun p => (p.1, { p.2 with outcomes := p.2.outcomes.filter fun o => !words.contains (wordAddr p.2.bl (p.2.run + o.1 / 32) / 4) })
    store := t.store.filter fun e => !words.contains e.word
    lost := t.lost.filter fun w => !words.contains w }
def Team.addCopy (t : Team) (c : Copy) : Team :=
  { (t.forgetRun c.words) with copies := cellPut t.copies t.nextCopy c, nextCopy := t.nextCopy + 1 }

/-- A copy is accepted (R201, R210, R264): it takes its producer's view and clocks, joins its queue, and its instruction retires. -/
def State.acceptCopy (s : State) (a : AgentRef) (id : Nat) : State :=
  let t := s.team a.team
  let x := s.agent a
  let c := { (cellGet Copy.blank t.copies id) with
    accepted := true
    order := s.nextEvent
    ident := s.ident a.team x.host
    clocks := s.clocks a.team x.host
    gvec := (t.group x.host).vec
    tvec := t.tvec
    view := x.view
    snaps := x.carried }
  let s := ({ s with nextEvent := s.nextEvent + 1 } : State).releaseHw a.team x.host (if c.kind == .cpym then 1 else 0)
  let s := s.modTeam a.team fun t => { (t.forgetRun c.words) with copies := cellPut t.copies id c }
  let s := (s.writeTeams a.team c).foldl (fun (s : State) q =>
    if q.2 == a.team then s else s.modTeam q.2 fun t => t.addCopy { c with remote := some (a.team, id), started := c.chunks }) s
  let s := s.modCore t.core fun k => { k with queue := k.queue ++ [(a.team, id)] }
  (s.modAgent a fun x => { x with status := .ready }).retireAt a { words := 2, endsSpin := true, legEnd := true }
def State.tryAccept (s : State) (a : AgentRef) (id : Nat) : State := if s.copyRoom a.team then s.acceptCopy a id else s
/-- COPY_ACCEPT: a waiting copy is accepted once its team and core have room. -/
def execCopyAccept (a : AgentRef) (s : State) : Host.Outcome State Fault Refusal :=
  match (s.agent a).status with
  | .accept id => .next (if s.runs a.team && cellHas (s.team a.team).agents a.agent && !(s.launch (s.team a.team).launch).determinate then
      s.tryAccept a id else s)
  | _ => .next s

/-- A checked copy waits for acceptance. -/
def State.offerCopy (s : State) (c : Copy) : State :=
  let id := s.curTeam.nextCopy
  let s := (s.modCurTeam fun t => { t with copies := cellPut t.copies id c, nextCopy := id + 1 }).modCur fun x => { x with status := .accept id }
  s.tryAccept s.cur id

-- Issue checks (R206, R217, R234).
def copyFault (cause : Nat) (d0 : DWord) : Raise := { kind := 20, cause := cause, d0 := d0 }
def wholeBounds (d : Nat) : Raise := { kind := 12, cause := 2, d0 := dw d }
/-- R148 and R149 on a record with its slots. -/
def recordCheck (l : Layout) (h : Nat) (spaces : List Nat) (accepts : Layout → Bool) (size : Nat) (slots : List DSlot) : Option Raise :=
  match l.fault h spaces accepts size with
  | some c => some (layoutRaise c h)
  | none => if slots.length < l.extents then some (countRaise l h slots.length) else (dCount l slots).map (countRaise l h)

/-- The least and greatest address of a tile's elements. -/
def tileEnds (l : Layout) (size : Nat) (cs dims : List Nat) : Int × Int :=
  let at_ (pickLow : Bool) : List Nat := cs.zipIdx.map fun p =>
    if decide (l.stride p.2 < 0) == pickLow then p.1 + ((dims[p.2]?).getD 1 - 1) else p.1
  (l.addr size (at_ true), l.addr size (at_ false))
/-- Every address of a tile lies within the bounds of its space (R150, R206). -/
def State.tileInRange (s : State) (l : Layout) (size : Nat) (cs dims : List Nat) : Bool :=
  let e := tileEnds l size cs dims
  s.rangeOk s.curTeam l.space e.1 size && s.rangeOk s.curTeam l.space e.2 size

/-- A copy as its instruction describes it, before its checks. -/
def State.draftCopy (s : State) (kind : CopyKind) (f : CpyArgs) (mask : Nat) : Copy :=
  let t := s.curTeam
  let hd := s.handleOf f.dst.l
  let hs := s.handleOf f.src.l
  let hb := s.handleOf f.bm
  let dl := t.record .streamer hd
  let sl := t.record .streamer hs
  let bl := t.record .streamer hb
  let b := s.dCoord f.slot
  let x := readLE t.shared (wordAddr bl b) 4
  let dc := s.dCoords dl f.dst
  let chunks := chunkCount (dl.size * product (tileDims dl dc))
  { Copy.blank with
    kind := kind
    cls := f.cls
    dst := dl.raw
    hd := hd
    dc := dc
    src := sl.raw
    hs := hs
    sc := s.dCoords sl f.src
    bitmap := bl.raw
    hb := hb
    run := if kind == .cpyx then b + 1 else b
    runWords := (chunks + 31) / 32
    chunks := chunks
    targets := if kind == .cpym then ((List.range 12).filter fun p => mask / 2 ^ p % 2 == 1).map fun p =>
        (p, match s.teamAt t.cluster p with | some q => (s.team q).gen | none => 0) else []
    exponent := (BitVec.ofNat 8 (fld x 0 8)).toInt
    span := if kind == .cpyx then spanOf (fld x 8 2) else 0
    pc := s.curAgent.pc
    group := s.curAgent.host }

/-- A record accepted by a copy has a format of its own width: no narrow one. -/
def wideTy (l : Layout) : Bool := match l.ty with | some t => !t.isNarrow | none => true
/-- Check 3 of the destination record. -/
def Copy.dstCheck (c : Copy) (f : CpyArgs) : Option Raise :=
  let fits (l : Layout) : Bool := match c.kind, c.sl.ty with
    | .cpyx, some d => if !expandTy d then wideTy l else if d.bits < 8 then l.ty == some .n8 else l.ty == some d
    | _, _ => wideTy l
  recordCheck c.dl c.hd (if c.kind == .cpym then [0] else [0, 1, 2, 3]) fits c.dl.size f.dst.slots
/-- Check 3 of the source record. -/
def Copy.srcCheck (c : Copy) (f : CpyArgs) : Option Raise :=
  match c.kind with
  | .cpyx => recordCheck c.sl c.hs [3] (fun l => l.extents == 1 && (match l.ty with | some d => expandTy d | none => false)) 64 f.src.slots
  | _ => recordCheck c.sl c.hs [0, 1, 2, 3] (fun l => wideTy l && l.size == c.dl.size && l.extents == c.dl.extents) c.sl.size f.src.slots
/-- Check 3: the records. -/
def Copy.records (c : Copy) (f : CpyArgs) : Option Raise :=
  firstFault [c.dstCheck f, c.srcCheck f, recordCheck c.bl c.hb [0] (fun l => l.size == 4) 4 [f.slot]]

/-- The expand word lies within its record and the allocation. -/
def State.expandOk (s : State) (c : Copy) : Bool :=
  decide (c.run - 1 < c.bl.ext 0) && s.rangeOk s.curTeam 0 (c.bl.addr 4 [c.run - 1]) 4
/-- The expand word. -/
def State.expandWord (s : State) (c : Copy) : Nat := readLE s.curTeam.shared (wordAddr c.bl (c.run - 1)) 4

/-- Check 4: the bounds of both tiles. -/
def State.copyBounds (s : State) (c : Copy) : Option Raise :=
  let n := product c.dims
  let blocks := blockCount c.format n c.span
  let srcNeed (j : Nat) : Nat :=
    if c.kind == .cpyx then (if s.expandOk c && fld (s.expandWord c) 8 2 != 3 then blocks else 1) else (c.dims[j]?).getD 1
  match c.dc.zipIdx.find? fun p => decide (c.dl.ext p.2 ≤ p.1) with
  | some p => some (wholeBounds p.2)
  | none => match c.sc.zipIdx.find? fun p => decide (c.sl.ext p.2 < p.1 + srcNeed p.2) with
    | some p => some (wholeBounds p.2)
    | none =>
      if !s.tileInRange c.dl c.dl.size c.dc c.dims then some (wholeBounds 4)
      else if c.kind != .cpyx && !s.tileInRange c.sl c.sl.size c.sc c.dims then some (wholeBounds 4)
      else none

/-- Check 6: the run and the expand word. -/
def State.copyRun (s : State) (c : Copy) : Option Raise :=
  let lo := if c.kind == .cpyx then c.run - 1 else c.run
  let words := c.run + c.runWords - lo
  if c.bl.ext 0 < lo + words then some (copyFault 3 0)
  else if s.tileInRange c.bl 4 [lo] [words] then none else some (wholeBounds 4)
/-- Checks 7 and 12: a word of the run in the run of an incomplete copy or delivery of a team. -/
def runClash (c : Copy) (t : Team) : Option Raise :=
  ((List.range c.runWords).find? fun j => t.incomplete.any fun x => x.inRun (wordAddr c.bl (c.run + j) / 4)).map fun j =>
    copyFault 4 (dw (c.run + j))
/-- Check 8: the run, the expand word and the tiles share no byte. -/
def State.copyOverlap (s : State) (c : Copy) : Option Raise :=
  let team := s.cur.team
  let lo := if c.kind == .cpyx then c.run - 1 else c.run
  let run := (List.range (c.run + c.runWords - lo)).map fun j => ((Place.shared team, wordAddr c.bl (lo + j), 4) : Piece)
  let dst := s.dstParts team c 0 c.tileBytes
  let src := s.srcParts team c 0 c.tileBytes
  match (([partHit dst run, partHit src run, partHit dst (partPieces src)].filterMap id).min?) with
  | some b => some (copyFault 5 (dw b))
  | none => none
/-- Checks 10 to 12 of cpym. -/
def State.copyTargets (s : State) (c : Copy) (mask : Nat) : Option Raise :=
  let cl := s.cluster s.curTeam.cluster
  let ps := c.targets.map (·.1)
  if ps.isEmpty || 2 ^ 12 ≤ mask || ps.any (fun p => decide (cl.w * cl.h ≤ p)) then some (copyFault 7 0)
  else if ps.any (fun p => match s.teamAt s.curTeam.cluster p with | some q => (s.team q).status == .ended | none => true) then some (copyFault 8 0)
  else ps.findSome? fun p => match s.teamAt s.curTeam.cluster p with
    | some q => if q == s.cur.team then none else runClash c (s.team q)
    | none => none

/-- Checks 2 to 8. -/
def State.copyChecks (s : State) (c : Copy) (f : CpyArgs) : Option Raise :=
  if s.curAgent.host != (s.nodeOf s.curTeam).producer then some (copyFault 1 0)
  else match c.records f with
    | some r => some r
    | none => match s.copyBounds c with
      | some r => some r
      | none => if 4096 < c.chunks then some (copyFault 2 0)
        else match s.copyRun c with
          | some r => some r
          | none => match runClash c s.curTeam with
            | some r => some r
            | none => s.copyOverlap c

/-- The bytes that a watch stop compares at the issue of a copy (R344): those of its source and destination tile, where the records give them and their
addresses resolve. -/
def State.copyWatch (s : State) (c : Copy) (f : CpyArgs) : List (Nat × Nat × Nat × Nat) :=
  let within (l : Layout) (n : Nat) (ps : List Part) : List Part := ps.filter fun p => s.rangeOk s.curTeam l.space (l.addr n p.coords) n
  let dst := if (c.dstCheck f).isNone then within c.dl c.dl.size (s.dstParts s.cur.team c 0 c.tileBytes) else []
  let src := if (c.dstCheck f).isNone && (c.srcCheck f).isNone then
      within c.sl (if c.kind == .cpyx then 64 else c.sl.size) (s.srcParts s.cur.team c 0 c.tileBytes) else []
  (partPieces (dst ++ src)).map fun p => spotOf p.1 p.2.1 p.2.2
/-- A copy issues: a watch stop comes before its faults (R344); then the checks, and the offer. -/
def State.issueCopy (s : State) (c : Copy) (f : CpyArgs) (more : State → Option Raise) (go : State → State) : State :=
  s.unlessWatched (s.copyWatch c f) fun s =>
    match firstFault [s.copyChecks c f, more s] with
    | some r => s.raise r
    | none => go s
def execCpy (f : CpyArgs) (s : State) : Host.Outcome State Fault Refusal :=
  s.issuePlain fun s =>
    let c := s.draftCopy .cpy f 0
    s.issueCopy c f (fun _ => none) fun s => s.offerCopy c
/-- cpym (R234): the position mask comes from s[g]. -/
def execCpym (f : CpyArgs) (mask : SReg) (s : State) : Host.Outcome State Fault Refusal :=
  s.issuePlain fun s =>
    let m := (s.sreg mask.toNat).toNat
    let c := s.draftCopy .cpym f m
    s.issueCopy c f (fun s => s.copyTargets c m) fun s => s.offerCopy c
/-- The expand word of a checked cpyx, read once as an access of the issuing agent (R217): copy fault 6, or the offer. complete: its racing access is completed
(R313). -/
def State.expandCopy (s : State) (c : Copy) (complete : Bool) : State :=
  let a := wordAddr c.bl (c.run - 1)
  let u : Use := ⟨c.hb, [c.run - 1], 0, Ord.plain, false⟩
  let r := s.agentAccess u (.shared s.cur.team, a, []) 4 true complete fun _ => none
  s.orRaise r.1 fun s' =>
    let x := bytesWord (s.overlay (s.laneAcc u (.shared s.cur.team) a 4 s.agentLane true false) r.2)
    if fld x 10 22 != 0 || fld x 8 2 == 3 then s'.raise (copyFault 6 0)
    else s'.offerCopy { c with exponent := (BitVec.ofNat 8 (fld x 0 8)).toInt, span := spanOf (fld x 8 2) }
def cpyxBody (f : CpyArgs) (complete : Bool) (s : State) : State :=
  let c := s.draftCopy .cpyx f 0
  s.issueCopy c f (fun _ => none) fun s => s.expandCopy c complete
/-- cpyx (R217). -/
def execCpyx (f : CpyArgs) (s : State) : Host.Outcome State Fault Refusal := s.issuePlain (cpyxBody f false)

-- Slices (R207).
/-- Bytes of the slice that starts at a chunk. -/
def Copy.sliceBytes (c : Copy) (first : Nat) : Nat := min (512 * first + 2048) c.tileBytes - 512 * first
def queueQuantum (cls : Nat) : Nat := 2048 * 2 ^ cls
def State.copyOf (s : State) (r : Nat × Nat) : Copy := cellGet Copy.blank (s.team r.1).copies r.2
/-- The copies of a queue in order; a killed launch's slices never start (R220). -/
def State.queueOf (s : State) (core cls : Nat) : List (Nat × Nat) := (s.core core).queue.filter fun r =>
  (s.copyOf r).cls.toNat == cls && (s.launch (s.team r.1).launch).kill == none
/-- The next queue of a round: VQ3, VQ2, VQ1, VQ0. -/
def nextQueue (c : Nat) : Nat := if c == 0 then 3 else c - 1

/-- The head of a queue starts its next slice and goes to the tail, or leaves its queue after its last slice. -/
def State.startSlice (s : State) (core cls : Nat) (r : Nat × Nat) : State :=
  let c := s.copyOf r
  let last := decide (c.chunks ≤ c.started + 4)
  let z := c.sliceBytes c.started
  let s := s.modTeam r.1 fun t => { t with copies := cellPut t.copies r.2 { c with started := min c.chunks (c.started + 4) } }
  s.modCore core fun k =>
    let rest := k.queue.filter (· != r)
    let queue := if last then rest else rest ++ [r]
    let d := cellGet 0 k.deficits cls - z
    { k with queue := queue, deficits := cellSet 0 k.deficits cls d }
/-- A queue with no unstarted slices has deficit 0. -/
def State.emptyQueue (s : State) (core cls : Nat) : State :=
  if (s.queueOf core cls).isEmpty then s.modCore core fun k => { k with deficits := cellDel k.deficits cls } else s
/-- The copies of teams leave the queues of a core; a queue that holds none any more has deficit 0 (R207, R219). -/
def State.leaveQueues (s : State) (core : Nat) (teams : List Nat) : State :=
  let s := s.modCore core fun k => { k with queue := k.queue.filter fun q => !teams.contains q.1 }
  (List.range 4).foldl (fun (s : State) c => s.emptyQueue core c) s
/-- The round goes on from the visited queue until a slice starts. -/
def State.visitQueues (s : State) (core : Nat) : Nat → State
  | 0 => s
  | fuel + 1 =>
    let k := s.core core
    let cls := k.visit
    let move (s : State) : State := (s.modCore core fun k => { k with visit := nextQueue cls, paid := false }).visitQueues core fuel
    match s.queueOf core cls with
    | [] => move (s.emptyQueue core cls)
    | r :: _ =>
      let s := if k.paid then s
        else s.modCore core fun k => { k with paid := true, deficits := cellSet 0 k.deficits cls (cellGet 0 k.deficits cls + queueQuantum cls) }
      let c := s.copyOf r
      if c.sliceBytes c.started ≤ cellGet 0 (s.core core).deficits cls then (s.startSlice core cls r).emptyQueue core cls
      else move s
/-- SLICE_START: the streamer of a core starts its next slice. -/
def execSliceStart (core : Nat) (s : State) : Host.Outcome State Fault Refusal :=
  .next (if (s.core core).queue.isEmpty then s else s.visitQueues core 9)

end Sys2Proof.Machine
end

