-- ==== Sys2Proof/Machine/Remote.lean ====
section
/-! DEFINITION. What the fabric carries of chunks (23 R347 to R350): where windows lead, requests and the flows that carry them; and the proxy slots of
writes that come over it (16 R277). -/

namespace Sys2Proof.Machine

-- Windows (R347).
/-- The window of an aperture address. -/
def windowOf (a : Nat) : Nat := (a - apertureBase) / 2 ^ 35
/-- A byte of the aperture at an address of a module; in this one it stands under the key of this module as a source. -/
def State.farPlace (s : State) (p : Spot) (m a : Nat) : Spot :=
  { p with place := if m == s.module then .main else .peer m, addr := a, key := (Config.remoteKeySlot s.module).toNat, window := true }
/-- A byte of the aperture where its window leads, with the flow that carries it. -/
def State.farSpot (s : State) (team : Nat) (p : Spot) : Option (Nat × Spot) :=
  (s.window (s.partitionOf (s.team team)) p.addr).map fun w => (w.1, s.farPlace p w.2.1 w.2.2)
/-- The module of a byte's place. -/
def State.moduleOf (s : State) (p : Place) : Nat := match p with
  | .peer m => m
  | _ => s.module
/-- Where a byte is reached: in this module, or where a window led when a request of its chunk was sent, which its module has taken. -/
def State.reach (s : State) (rs : List Request) (write : Bool) (p : Spot) : Option Spot :=
  if !p.far then some p
  else rs.findSome? fun r => (r.led.find? fun x => x.1 == write && x.2.1 == p.addr).map fun x => s.farPlace p r.dest x.2.2
/-- The windows that a request was sent through. -/
def Request.windows (r : Request) : List Nat := (r.led.map fun x => windowOf x.2.1).eraseDups

-- Requests.
/-- The requests of a chunk. -/
def State.requestsOf (s : State) (key : Nat × Nat × Nat) : List (Nat × Request) := s.requests.filter fun p => p.2.chunk == some key
/-- A request that its destination has taken, and that has not been performed. -/
def Request.taken (r : Request) : Bool := r.state == .held && r.arrived
/-- What the flows carry of bytes at one module, with those that are written (R348, R349). -/
def State.carriersOf (s : State) (part dest : Nat) (all writes : List (Nat × Spot)) : List Carrier :=
  ((all.map (·.1)).eraseDups).map fun flow =>
    let lines (l : List (Nat × Spot)) : List Nat := ((l.filter fun p => p.1 == flow).map fun p => p.2.addr / 64).eraseDups
    { flow := flow
      kind := bitsOf (cellGet 0 (s.partition part).flows flow) 0 2
      seq := s.nextRequest
      lines := lines writes
      lanes := ((lines all).map fun a => Config.hashLane dest a % 24).eraseDups }
/-- Requests for the bytes of a chunk that windows lead to, one for each module, for what it reads and writes there (R260, log 70). -/
def State.sendRequests (s : State) (team id i : Nat) (c : Copy) (mode : BitVec 2) (view : View) (reads writes : List Spot) : State :=
  let t := s.team team
  let part := s.partitionOf t
  let led (l : List Spot) : List (Nat × Nat × Spot) := l.filterMap fun p => (s.farSpot team p).map fun w => (p.addr, w)
  let rs := led reads
  let ws := led writes
  (((rs ++ ws).map fun p => s.moduleOf p.2.2.place).eraseDups).foldl (fun (s : State) dest =>
    let here (l : List (Nat × Nat × Spot)) := l.filter fun p => s.moduleOf p.2.2.place == dest
    let r : Request := { Request.blank with
      source := s.module
      dest := dest
      partition := part
      flows := s.carriersOf part dest ((here (rs ++ ws)).map (·.2)) ((here ws).map (·.2))
      led := ((here rs).map fun p => (false, p.1, p.2.2.addr)) ++ (here ws).map fun p => (true, p.1, p.2.2.addr)
      epoch := s.epoch
      reads := (here rs).map fun p => (p.2.2.addr, p.2.2.tile)
      writes := (here ws).map fun p => (p.2.2.addr, p.2.2.tile)
      sentAt := s.tick
      transit := dest == s.module || (s.peer dest).linkUp
      state := .held
      order := c.order
      core := t.core
      ident := c.ident
      clocks := c.clocks
      snaps := c.snaps
      release := some ⟨c.clocks, c.gvec, c.tvec, t.modvec⟩
      wide := (t.group c.group).wide
      name := s.nameOf team c.group
      view := view
      cluster := t.cluster
      mode := mode
      chunk := some (team, id, i) }
    let sent := (here ws).length + if (here rs).isEmpty then 0 else Config.readRequestBytes (here rs).length
    let s := if dest == s.module then s else s.countMt (s.viOf t) 4 sent
    { s with requests := cellPut s.requests s.nextRequest r, nextRequest := s.nextRequest + 1 }) s
/-- A chunk's requests are done with when it lands. -/
def State.dropRequests (s : State) (key : Nat × Nat × Nat) : State :=
  { s with requests := s.requests.filter fun p => p.2.chunk != some key }

-- Proxies (R277).
/-- The proxy slot of a remote cluster in a tower: its own, or the lowest free one. -/
def Tower.proxyFor (t : Tower) (source cluster : Nat) : Option Nat :=
  match t.proxies.find? fun p => p.source == source && p.cluster == cluster with
  | some p => some p.slot
  | none => ((List.range 32).map fun i => 96 + i).find? fun k => t.proxies.all fun p => p.slot != k
/-- The identity here of a write that a cluster of a module makes under an identity of its own: its proxy's, or none when all are bound or it carries
none. -/
def State.proxyIdent (s : State) (a source cluster : Nat) (ident : BitVec 18) : BitVec 18 :=
  let tower := s.placeTower .main a
  if ident == noIdent then noIdent
  else match (s.tower tower).proxyFor source cluster with
    | some k => BitVec.ofNat 18 (tower * 2 ^ 16 + k * 2 ^ 9 + bitsOf ident 0 9)
    | none => noIdent
/-- A write's group clock under its proxy identity, and the group's last release at cluster scope or wider. -/
def Tower.publish (t : Tower) (x : BitVec 18) (source cluster : Nat) (clock : BitVec 20) (wide : Option (BitVec 20)) : Tower :=
  let k := identSlot x
  let old := (t.proxies.find? fun p => p.slot == k).getD ⟨k, source, cluster, [], []⟩
  let new := { old with
    gclks := cellSet 0 old.gclks x.toNat (larger (cellGet 0 old.gclks x.toNat) clock)
    wides := cellSet none old.wides x.toNat wide }
  { t with proxies := (t.proxies.filter fun p => p.slot != k) ++ [new] }
/-- A write without a proxy slot retires the history of each line it writes. -/
def State.retireLines (s : State) (a n : Nat) : State :=
  ((List.range ((a + n - 1) / 64 + 1 - a / 64)).map fun i => a / 64 + i).foldl (fun (s : State) l =>
    let m := s.metaAt .main l
    let tower := s.placeTower .main (64 * l)
    ((s.dropReader tower m.reader0).dropReader tower m.reader1).putMeta .main l LineMeta.reset) s
/-- A write over the fabric with an identity takes its proxy slot; without one to take it retires its lines, and counts as unchecked (counter 8). -/
def State.bindProxy (s : State) (a : Acc) (source cluster : Nat) (ident : BitVec 18) (wide : Option (BitVec 20)) : State :=
  if ident == noIdent then s
  else if a.ident == noIdent then (s.retireLines a.addr a.size).charge a 8
  else s.modTower (s.placeTower .main a.addr) fun t => t.publish a.ident source cluster a.clocks.group wide
/-- What the release snapshot of a write publishes of its cluster: the epoch, and the team clocks with that of its own position. -/
def published (ident : BitVec 18) (clocks : Clocks) (tvec : Cells (BitVec 20)) : BitVec 20 × Cells (BitVec 20) :=
  (clocks.epoch, cellMod 0 tvec (identPos ident) (larger clocks.team))

end Sys2Proof.Machine
end

