-- ==== Sys2Proof/Machine/Landing.lean ====
section
/-! DEFINITION. Chunks and deliveries land (11 R208 to R211, R214 to R218, 14 R235 to R237, 15 R255 to R257, 16 R272 to R275), their requests to
other modules (23 R347 to R350), and bmwait (11 R212, R213). -/

namespace Sys2Proof.Machine

-- Tagged blocks (04 R66 to R68).
/-- Elements per block by format (R66). -/
def blockElems : Ty → Option Nat
  | .s8 | .n8 | .f8e4 | .f8e5 => some 62
  | .f6e3m2 | .f6e2m3 => some 82
  | .s4 | .n4 | .f4e2m1 => some 124
  | _ => none
/-- Element i of a block's payload. -/
def blockElem (t : Ty) (bs : List Byte) (i : Nat) : Nat := fld (bytesWord (bs.drop 2)) (t.bits * i) t.bits
/-- The format of a block that is no format error for a span (R67, R218). -/
def blockFormat (bs : List Byte) (span : Nat) : Option Ty :=
  let b0 := ((bs.headD 0)).toNat
  if fld b0 5 3 != 0 || (bs[1]?).getD 0 == 255 then none
  else match Ty.ofCode (fld b0 0 5) with
    | some t => if blockElems t == some span then some t else none
    | none => none
/-- A value times a power of two. -/
def Num.scale (x : Num) (k : Int) : Num :=
  match x with
  | .fin s m e => .fin s m (e + k)
  | y => y
/-- An element of a block converted to a destination format (R68). -/
def expandElem (dst src : Ty) (bs : List Byte) (i : Nat) (exponent : Int) : Conv :=
  convNum dst 0 ((decodeNum src (blockElem src bs i)).scale ((((bs[1]?).getD 0).toNat : Int) - 127 - exponent))

/-- Tile bytes of an expand copy from its blocks; none where the block could not be read, and whether an element
saturated. -/
def Copy.expand (c : Copy) (lo hi : Nat) (blocks : List (Nat × Option (List Byte))) : List (Option Byte) × Bool :=
  let d := c.format
  let z := c.dl.size
  let per := expandPer d
  let one (e : Nat) : Option Conv := match blocks.find? fun p => p.1 == e / c.span with
    | some (_, some bs) => (blockFormat bs c.span).map fun t => expandElem d t bs (e % c.span) c.exponent
    | _ => none
  let elems := (List.range (hi / z - lo / z)).map fun k => lo / z + k
  let values := elems.map fun e => (List.range per).map fun j => one (per * e + j)
  (values.flatMap fun v => if v.all (·.isSome) then
      (wordBytes (v.zipIdx.foldl (fun n p => n + ((p.1.map (·.bits)).getD 0) * 2 ^ (d.bits * p.2)) 0) z).map some
    else List.replicate z none,
   values.any fun v => v.any fun x => (x.map (·.sat)).getD false)

-- Runs of bytes.
/-- A byte follows another in one run. -/
def Spot.follows (y x : Spot) : Bool := y.place == x.place && y.window == x.window && y.addr == x.addr + 1 && y.key == x.key && (x.place != .main || y.va == x.va + 1)
/-- Bytes joined into runs: the first one's place, and the bytes. -/
def joinRuns {α : Type} : List (Spot × α) → List (Spot × List (Spot × α))
  | [] => []
  | x :: rest => match joinRuns rest with
    | (y, ys) :: more => if y.follows x.1 then (x.1, x :: ys) :: more else (x.1, [x]) :: (y, ys) :: more
    | [] => [(x.1, [x])]

/-- The access of an engine on behalf of a copy's producer (R210): of copy id of a team. -/
def Copy.acc (c : Copy) (team id : Nat) (p : Spot) (n : Nat) (write : Bool) (view : View) : Acc :=
  { place := p.place
    addr := p.addr
    size := n
    key := p.key
    read := !write
    write := write
    engine := true
    source := some (team, 2 * id)
    team := team
    group := c.group
    agent := none
    ident := c.ident
    clocks := c.clocks
    gvec := c.gvec
    tvec := c.tvec
    view := view
    carried := c.snaps
    handle := if write then c.hd else c.hs
    coords := p.coords
    pc := c.pc
    va := p.va
    quiet := true }
/-- The access of a copy at a byte that a window may lead to: here as a write by proxy, while another module's metadata stands there (R277). -/
def State.copyAcc (s : State) (c : Copy) (team id : Nat) (p : Spot) (n : Nat) (write : Bool) (view : View) : Acc :=
  let a := c.acc team id p n write view
  if !p.window then a
  else { a with
    ident := if write && p.place == .main then s.proxyIdent p.addr s.module (s.team team).cluster c.ident else noIdent
    pub := some (published c.ident c.clocks c.tvec) }
/-- The marked access that sets a chunk's bit in a team's run (R210). -/
def Copy.bitAcc (c : Copy) (team id target i : Nat) (view : View) : Acc :=
  { c.acc team id ⟨.shared target, wordAddr c.bl (c.run + i / 32), 0, 0, 0, [c.run + i / 32], false⟩ 4 true view with
    read := true
    marked := true
    scope := 1
    handle := c.hb }

/-- The accesses of a step judged together (R272): the first race, with its access, and the losses counted. -/
def State.judgeStep (s : State) (accs : List Acc) : State × Option (Acc × Race) :=
  let js := accs.map fun a => (a, s.judge s.linesNow a)
  (js.foldl (fun (s : State) j => j.2.2.foldl (fun (s : State) k => s.charge j.1 k) s) s, js.findSome? fun j => j.2.1.map fun r => (j.1, r))
/-- The race mode under which an engine access of a copy is performed (R275, R278). -/
def State.copyMode (s : State) (team : Nat) (c : Copy) : BitVec 2 := ((s.team team).group c.group).rmode
/-- The record of a race of a step, numbered where it goes with a trap, and its log under report (R275, R276). -/
def State.stepRecord (s : State) (team : Nat) (mode : BitVec 2) (race : Option (Acc × Race)) (logged : Bool) : State × BitVec 1024 :=
  match race with
  | none => (s, 0)
  | some (a, r) =>
    let rec_ := s.raceRecord a r (decide (2 ≤ mode.toNat)) (s.launch (s.team team).launch).sequence
    (if mode == 1 && !logged then s.logRace team rec_ else if 2 ≤ mode.toNat then s.numberRace team else s, rec_)

/-- Bytes that a chunk moves in main memory are counted, but not those of another module's launch (R328). -/
def State.countRun (s : State) (a : Acc) : State :=
  if a.place == .main && a.foreign.isNone then s.countMt (s.viOf (s.team a.team)) (mtIndex a.addr a.write) a.size else s

/-- What an observer merges of two steps. -/
def Obs.add (a b : Obs) : Obs := ⟨a.view ||| b.view, a.snaps ++ b.snaps, a.ids ++ b.ids⟩
/-- The reads of a step: each byte, none where an uncorrectable error stands (R216, R319), and what an observer merges. A racing read returns what R252
lets it (R255). -/
def State.readSpots (s : State) (acc : Spot → Nat → Acc) (spots : List Spot) : State × List (Option Byte) × Obs :=
  (joinRuns (spots.map fun p => (p, ()))).foldl (fun (r : State × List (Option Byte) × Obs) run =>
    let s := r.1
    let n := run.2.length
    let a := acc run.1 n
    let ws := s.readWrites a
    let res := (s.countRun a).access s.linesNow a false none fun _ => none
    match res.2 with
    | .bytes bs ev =>
      let bytes := run.2.zipIdx.map fun p => if s.badAt p.1.1.place p.1.1.addr 1 then none else bs[p.2]?
      (res.1, r.2.1 ++ bytes, r.2.2.add ⟨addEvent 0 ev, ws.flatMap (·.snaps), s.sourcesOf a ws⟩)
    | _ => (res.1, r.2.1 ++ run.2.map fun _ => none, r.2.2)) (s, [], Obs.blank)

/-- Where the free choices of a chunk begin: in a determinate launch its own place in the launch, the same on every run (R261, R301). -/
def State.choiceBase (s : State) (team id i : Nat) : Nat :=
  let t := s.team team
  if (s.launch t.launch).determinate then 2 ^ 100 + (((t.index.toNat * 16 + t.node) * 2 ^ 32 + id) * 4096 + i) * 2 ^ 20 else s.freeCount
/-- Of the bytes that meet in one destination byte, a free choice (R221), whatever way each is reached. -/
def chooseBytes {α : Type} (base : Nat) (l : List (Spot × α)) : List (Spot × α) :=
  let same (a b : Spot) : Bool := a.place == b.place && a.addr == b.addr
  let heads := l.foldl (fun (h : List (Spot × α)) x => if h.any fun y => same y.1 x.1 then h else h ++ [x]) []
  if heads.length == l.length then l
  else heads.zipIdx.map fun h => (pick (base + h.2) (l.filter fun x => same x.1 h.1.1)).getD h.1

/-- The fills of granules carry a view, and what the chunk's reads met, that an ld.fe merges (R245, R257). -/
def State.refill (s : State) (c : Acc) (view : View) (met : Obs) : State :=
  match c.place with
  | .shared t => s.modTeam t fun t =>
      { t with full := c.granules.foldl (fun m g => if cellHas m g then
          cellMod ⟨0, false, noIdent, ⟨0, 0, 0⟩, [], []⟩ m g fun f => { f with view := view, snaps := met.snaps, sources := met.ids } else m) t.full }
  | _ => s

/-- The writes of a step, with the events they add. -/
def State.writeSpots (s : State) (team id : Nat) (c : Copy) (cluster : Bool) (view events : View) (l : List (Spot × Byte)) : State × View :=
  (joinRuns l).foldl (fun (r : State × View) run =>
    let n := run.2.length
    let a := r.1.copyAcc c team id run.1 n true view
    let s := if run.1.window && run.1.place == .main then r.1.bindProxy a r.1.module (r.1.team team).cluster c.ident ((r.1.team team).group c.group).wide
      else r.1
    let a := s.copyAcc c team id run.1 n true view
    let res := (s.countRun a).access s.linesNow a cluster none fun _ => some (run.2.map (·.2))
    match res.2 with
    | .bytes _ ev => (res.1, addEvent r.2 ev)
    | _ => (res.1, r.2)) (s, events)
/-- A bit set in a run word by an atomic OR (R205). -/
def State.setBit (s : State) (team id target : Nat) (c : Copy) (cluster : Bool) (i : Nat) (view events : View) : State × View :=
  let res := s.access s.linesNow (c.bitAcc team id target i view) cluster none fun old =>
    some (wordBytes (Nat.lor (bytesWord old) (2 ^ (i % 32))) 4)
  match res.2 with
  | .bytes _ ev => (res.1, addEvent events ev)
  | _ => (res.1, events)

-- Outcomes and completion (R214, R215).
/-- An outcome passes into the outcome store, or its word is marked outcome lost. -/
def Team.passOutcome (t : Team) (c : Copy) (i : Nat) (o : Outcome) : Team :=
  let word := wordAddr c.bl (c.run + i / 32) / 4
  if t.store.length < 1024 then { t with store := t.store ++ [⟨word, i % 32, i, c.order, o⟩] }
  else { t with lost := if t.lost.contains word then t.lost else t.lost ++ [word] }
/-- A copy whose chunks have all landed is complete (R201, R215). -/
def Team.completeCopy (t : Team) (id : Nat) : Team :=
  let c := cellGet Copy.blank t.copies id
  if (List.range c.chunks).all fun i => c.landed.contains i then
    let t := c.outcomes.foldl (fun (t : Team) p => t.passOutcome c p.1 p.2) t
    { t with copies := cellDel t.copies id, done := t.done ++ [{ c with fetched := [], outcomes := [], delivered := [] }] }
  else t
/-- A chunk has landed in a team (R214). -/
def Team.recordChunk (t : Team) (id i : Nat) (o : Outcome) (obs : Obs) : Team :=
  let c := cellGet Copy.blank t.copies id
  let c := { c with
    landed := i :: c.landed
    outcomes := if o.code != 0 || o.sat then cellPut c.outcomes i o else c.outcomes
    obs := cellPut c.obs i obs
    fetched := cellDel c.fetched i }
  { t with copies := cellPut t.copies id c }.completeCopy id
/-- A team that only waited for its copies ends (R220). -/
def State.drained (s : State) (team : Nat) : State := if (s.team team).status == .draining then s.checkTeam team else s
def State.recordChunk (s : State) (team id i : Nat) (o : Outcome) (obs : Obs) : State :=
  ((s.modTeam team fun t => t.recordChunk id i o obs).dropRequests (team, id, i)).drained team

-- Landing.
/-- The copy exists, and its team's engines take steps (R219, R220, R241). -/
def State.copyLives (s : State) (team id : Nat) : Bool :=
  let t := s.team team
  cellHas s.teams team && cellHas t.copies id && (cellGet Copy.blank t.copies id).accepted &&
    (t.status == .resident || t.status == .stopped || t.status == .draining) && (s.launch t.launch).kill == none
/-- In a determinate launch copies land in acceptance order, and chunks in index order, once the legs have ended (R302). -/
def State.inOrder (s : State) (team : Nat) (c : Copy) (i : Nat) : Bool :=
  let li := (s.team team).launch
  !(s.launch li).determinate ||
    (s.legsEnded li && (List.range i).all (c.landed.contains ·) && (s.openCopies li).all fun o => decide (c.order ≤ o))

def State.putFetch (s : State) (team id i : Nat) (f : Fetch) : State :=
  s.modTeam team fun t => { t with copies := cellMod Copy.blank t.copies id fun c => { c with fetched := cellPut c.fetched i f } }
/-- The page field of a failed address (R213). -/
def pageOf (va : Nat) : BitVec 32 := BitVec.ofNat 32 (va / 2 ^ 16)

/-- A tagged block of the chunk is a format error (R67, R218). -/
def Copy.badBlock (c : Copy) (parts : List Part) (spots : List Spot) (value : Spot → Option Byte) : Bool :=
  c.kind == .cpyx && parts.any fun q =>
    let bs := (spots.filter fun p => p.coords == q.coords).map value
    bs.all (·.isSome) && (blockFormat (bs.filterMap fun x => x) c.span).isNone
/-- The tile bytes of a chunk from its source bytes, and whether an element saturated (R64, R218). -/
def Copy.tileOf (c : Copy) (r : Nat × Nat) (parts : List Part) (spots : List Spot) (value : Spot → Option Byte) : List (Option Byte) × Bool :=
  match c.kind with
  | .cpyx => c.expand r.1 r.2 (parts.map fun q =>
      (q.coords.headD 0 - c.sc.headD 0,
       let bs := (spots.filter fun p => p.coords == q.coords).map value
       if bs.all (·.isSome) then some (bs.filterMap fun x => x) else none))
  | _ => (spots.map value, false)

/-- The first failure of translation or permission of a chunk: of source or destination, the lower tile byte, the source first (R216). -/
def firstBad : Option (Nat × Nat × Nat) → Option (Nat × Nat × Nat) → Option (Nat × Nat × Nat)
  | some a, some b => some (if a.1 ≤ b.1 then a else b)
  | some a, none => some a
  | none, x => x
/-- A chunk reads its source (R208, R218): translation and permission of the whole chunk first, then the reads of one step, here and at the modules that have taken
its requests. A chunk with a format error or a race records no saturation, whatever its other blocks hold; one with code 3 or 5 records that of any
element of the blocks it has read (R64, R218; DESIGN CHOICE, log 106). -/
def State.fetchChunk (s : State) (team id i : Nat) (rs : List Request) : State :=
  let t := s.team team
  let c : Copy := cellGet Copy.blank t.copies id
  let r := c.range i
  let parts : List Part := s.srcParts team c r.1 r.2
  let src := s.allSpots t false parts
  let dst := s.allSpots t true (s.dstParts team c r.1 r.2)
  let fail (s : State) (out : Outcome) (obs : Obs) (logged : Bool) : State :=
    s.putFetch team id i ⟨List.replicate (r.2 - r.1) none, out, 0, obs, logged, false⟩
  match firstBad src.2 dst.2 with
  | some (_, code, va) => fail s ⟨code, false, pageOf va, 0⟩ Obs.blank false
  | none =>
    let view := c.view ||| s.overlapView team c (s.chunkReads team c i) []
    let acc (p : Spot) (n : Nat) : Acc := s.copyAcc c team id p n false view
    let sites := src.1.filterMap (s.reach rs false)
    let j := s.judgeStep ((joinRuns (sites.map fun p => (p, ()))).map fun run => acc run.1 run.2.length)
    let mode := s.copyMode team c
    let rec_ := j.1.stepRecord team mode j.2 false
    if j.2.isSome && decide (2 ≤ mode.toNat) then
      let peek (p : Spot) : Option Byte := (s.reach rs false p).bind fun q =>
        if s.badAt q.place q.addr 1 then none else some (s.byteAt q.key q.place q.addr)
      fail rec_.1 (if c.badBlock parts src.1 peek then ⟨4, false, 0, 0⟩ else ⟨6, false, 0, rec_.2⟩) Obs.blank true
    else
      let got := rec_.1.readSpots acc sites
      let value (p : Spot) : Option Byte := (s.reach rs false p).bind fun q =>
        ((sites.zip got.2.1).findSome? fun x => if x.1 == q then some x.2 else none).getD none
      if c.badBlock parts src.1 value then fail got.1 ⟨4, false, 0, 0⟩ got.2.2 j.2.isSome
      else
        let bad := src.1.find? fun p => (value p).isNone
        let code := match bad with | some p => if (s.reach rs false p).isNone then 5 else 3 | none => 0
        let bytes := c.tileOf r parts src.1 value
        got.1.putFetch team id i ⟨bytes.1, ⟨code, bytes.2, 0, 0⟩, (bad.map (·.tile)).getD 0, got.2.2, j.2.isSome, false⟩

/-- Which bytes a chunk writes: all, none after codes 1, 2, 4 and 6, and any of those it has after codes 3 and 5, by a free choice for
each element (R216). -/
def Copy.written (c : Copy) (base code : Nat) (l : List (Spot × Option Byte)) : List (Spot × Byte) :=
  if code == 0 then l.filterMap fun p => p.2.map fun b => (p.1, b)
  else if code == 3 || code == 5 then
    let ok (e : Nat) : Bool := (l.all fun p => p.1.tile / c.dl.size != e || p.2.isSome) && Config.freeChoice (base + e) % 2 == 1
    l.filterMap fun p => if ok (p.1.tile / c.dl.size) then p.2.map fun b => (p.1, b) else none
  else []
/-- The destination bytes of a fetched chunk in a team, each where it is reached, with its value; none for one that is not reached. -/
def State.dstBytes (s : State) (team target : Nat) (c : Copy) (i : Nat) (rs : List Request) (f : Fetch) : List (Spot × Option Byte) :=
  let r := c.range i
  (s.allSpots (s.team team) true (s.dstParts target c r.1 r.2)).1.map fun p => match s.reach rs true p with
    | some q => (q, (f.bytes[p.tile - r.1]?).getD none)
    | none => (p, none)
/-- The outcome when a destination byte is not reached: code 5, unless code 3 or 5 came at an earlier tile byte (R216). -/
def Fetch.unreached (f : Fetch) (tile : Option Nat) : Fetch :=
  match tile with
  | some n => if f.out.code == 0 || ((f.out.code == 3 || f.out.code == 5) && decide (n < f.first)) then { f with out := { f.out with code := 5 }, first := n } else f
  | none => f
/-- A fetched chunk with what its destination adds to its outcome, and the bytes that it writes (R216, R221). -/
def State.toWrite (s : State) (team id target : Nat) (c : Copy) (i : Nat) (rs : List Request) (f : Fetch) : Fetch × List (Spot × Byte) :=
  if f.near then (f, [])
  else
    let l := s.dstBytes team target c i rs f
    let f := f.unreached ((l.find? fun p => p.1.far).map fun p => p.1.tile)
    let base := s.choiceBase team id i
    (f, chooseBytes (base + 512) (c.written base f.out.code l))

/-- What another module's race hardware, whose metadata this state does not hold, makes of a write: a free choice of unraced, uncounted for want
of a proxy slot, and raced; with the record of the race (log 41). -/
def State.farVerdict (s : State) (a : Acc) (ident : BitVec 18) (mode : BitVec 2) (n : Nat) : State × Option (BitVec 1024) :=
  if ident == noIdent || mode == 0 then (s, none)
  else
    match Config.freeChoice n % 3 with
    | 1 => (s.charge a 8, none)
    | 2 =>
      let f := (Config.farParty n).toNat
      let other : Stored := ⟨noIdent, BitVec.ofNat 20 f, BitVec.ofNat 20 (fld f 20 20), BitVec.ofNat 2 (fld f 82 2), fld f 84 1 == 1, fld f 78 4, fld f 85 1 == 1⟩
      let race : Race := ⟨if other.write then 1 else 2, other, BitVec.ofNat 20 (fld f 58 20), a.addr / 64⟩
      let rec_ := s.raceRecord { a with ident := ident } race (decide (2 ≤ mode.toNat)) (s.launch (s.team a.team).launch).sequence
      (s, some (rec_ ^^^ BitVec.ofNat 1024 (Nat.xor 0x3FFFF (fld f 40 18) * 2 ^ 744)))
    | _ => (s, none)
/-- The verdicts of the other modules that a step writes in, each once: the record of the first race, which in a trap mode is numbered and ends the step; under
report each is logged (R275, R351). -/
def State.farVerdicts (s : State) (base : Nat) (mode : BitVec 2) (ident : BitVec 18) (accs : List Acc) : State × Option (BitVec 1024) :=
  ((((accs.map (·.place)).eraseDups).filterMap fun p => accs.find? fun a => a.place == p).zipIdx).foldl (fun (r : State × Option (BitVec 1024)) x =>
    if r.2.isSome then r
    else
      let a := x.1
      let v := r.1.farVerdict a ident mode (base + x.2)
      match v.2 with
      | some x => if 2 ≤ mode.toNat then (v.1.numberRace a.team, some x) else (if mode == 1 then v.1.logRace a.team x else v.1, none)
      | none => (v.1, none)) (s, none)
/-- The writes of a landing and its bit are judged together, at every module (R272): whether a race is struck, and the outcome (R210, R216). -/
def State.judgeLanding (s : State) (team id target : Nat) (c : Copy) (i : Nat) (bit : Bool) (f : Fetch) (view : View) (w : List (Spot × Byte)) :
    State × Bool × Outcome :=
  let mode := s.copyMode team c
  let base := s.choiceBase team id i
  let s := { s with freeCount := s.freeCount + 2048 }
  let accs := (joinRuns w).map fun run => s.copyAcc c team id run.1 run.2.length true view
  let far (a : Acc) : Bool := match a.place with | .peer _ => true | _ => false
  let j := s.judgeStep ((accs.filter fun a => !far a) ++ if bit then [c.bitAcc team id target i view] else [])
  let trap := decide (2 ≤ mode.toNat) && !(f.out.code == 1 || f.out.code == 2 || f.out.code == 4)
  let rec_ := j.1.stepRecord team mode j.2 f.logged
  if j.2.isSome && trap then (rec_.1, true, if f.out.code != 6 then ⟨6, false, 0, rec_.2⟩ else f.out)
  else
    let v := rec_.1.farVerdicts (base + 1024) mode c.ident (accs.filter far)
    match v.2 with
    | some x => (v.1, true, ⟨6, false, 0, x⟩)
    | none => (v.1, false, f.out)
/-- The writes themselves, with the events they add; the granules filled carry all of them (R257). -/
def State.writeLanding (s : State) (team id target : Nat) (c : Copy) (i : Nat) (cluster bit : Bool) (f : Fetch) (view : View) (w : List (Spot × Byte)) :
    State × Obs :=
  let x := s.writeSpots team id c cluster view f.obs.view w
  let x := if bit then x.1.setBit team id target c cluster i view x.2 else x
  let runs := (joinRuns w).map fun run => c.acc team id run.1 run.2.length true view
  let runs := if bit then runs ++ [c.bitAcc team id target i view] else runs
  (runs.foldl (fun (s : State) a => s.refill a (c.view ||| x.2) f.obs) x.1, { f.obs with view := x.2 })
/-- A fetched chunk writes its bytes and sets its bit (R205, R208), or a delivery does so in the team at a position. bit: the run's bit is set in the same
step. -/
def State.landIn (s : State) (team id target : Nat) (c : Copy) (i : Nat) (cluster bit : Bool) (rs : List Request) (f : Fetch) (view : View) :
    State × Outcome × Obs :=
  let w := s.toWrite team id target c i rs f
  let j := s.judgeLanding team id target c i bit w.1 view w.2
  let x := j.1.writeLanding team id target c i cluster bit w.1 view (if j.2.1 then [] else w.2)
  (x.1, j.2.2, x.2)

/-- The view of a chunk's writes: its copy's snapshot and the chunks it follows (R255). -/
def State.landView (s : State) (team target : Nat) (c : Copy) (i : Nat) : View :=
  c.view ||| s.overlapView team c (if c.kind == .cpym then [] else s.chunkReads team c i) (s.chunkWrites target c i)

-- Order (R260, R349, R354).
/-- What a flow carries of one request has to be performed before what a flow carries of another, between the same modules: writes of one line and source
core on lane-ordered flows, the requests of an in-order flow of a partition, and those of an earlier route epoch on such a lane or flow. -/
def Carrier.precedes (q r : Request) (a b : Carrier) : Bool :=
  (a.kind == 0 && b.kind == 0 && q.core == r.core && decide (q.order < r.order) && a.lines.any b.lines.contains) ||
    (a.kind == 1 && b.kind == 1 && q.partition == r.partition && a.flow == b.flow && decide (a.seq < b.seq)) ||
    (decide (q.epoch < r.epoch) && a.kind == b.kind &&
      ((a.kind == 0 && a.lanes.any b.lanes.contains) || (a.kind == 1 && q.partition == r.partition && a.flow == b.flow)))
/-- One request has to be performed before another. -/
def Request.precedes (q r : Request) : Bool :=
  q.state == .held && q.source == r.source && q.dest == r.dest && q.flows.any fun a => r.flows.any fun b => Carrier.precedes q r a b

-- Chunks that reach other modules (R260).
/-- A request of a chunk has been performed, or found racing: what its reads answered, and its race. -/
def Request.settle (r : Request) (f : Fetch) (lo : Nat) (record : Option (BitVec 1024)) : Request :=
  let x : ReqState := if record.isSome && !r.writes.isEmpty then .raced else .performed
  { r with
    state := x
    answer := x
    answers := r.reads.map fun p => (f.bytes[p.2 - lo]?).getD none
    race := record }
/-- The one step of a chunk once its requests have come to their modules: it reads and writes at all of them and here, and no byte of it is written when a
race is found at any in a trap mode (R208, R210, R260, log 107). A discarded copy's chunk is dropped (R220). -/
def State.farStep (s : State) (key : Nat × Nat × Nat) : State :=
  let team := key.1
  let id := key.2.1
  let i := key.2.2
  let rs := ((s.requestsOf key).map (·.2)).filter Request.taken
  let done (s : State) (f : Fetch) (lo : Nat) (record : Option (BitVec 1024)) : State :=
    { s with requests := s.requests.map fun r => if r.2.chunk == some key && r.2.taken then (r.1, r.2.settle f lo record) else r }
  if !s.copyLives team id then done s Fetch.blank 0 none
  else
    let s := s.fetchChunk team id i rs
    let c := cellGet Copy.blank (s.team team).copies id
    let f := cellGet Fetch.blank c.fetched i
    if c.kind == .cpym then done s f (c.range i).1 none
    else
      let view := s.landView team team c i
      let w := s.toWrite team id team c i rs f
      let j := s.judgeLanding team id team c i false w.1 view w.2
      let x := j.1.writeLanding team id team c i false false w.1 view (if j.2.1 then [] else w.2)
      done (x.1.putFetch team id i { w.1 with out := j.2.2, obs := x.2, near := true }) f (c.range i).1 (if j.2.1 then some j.2.2.record else none)
/-- The request of a chunk may be performed: no request that has to go first is under way (R260, R349, R354). -/
def State.mayPerform (s : State) (r : Request) : Bool := s.requests.all fun q => !q.2.precedes r
/-- A request of a chunk is taken by its destination; the last of the chunk's makes its step. -/
def State.takeRequest (s : State) (id : Nat) (key : Nat × Nat × Nat) : State :=
  let s := s.modRequest id fun r => { r with arrived := true }
  if (s.requestsOf key).all fun r => r.2.state != .held || (r.2.arrived && s.mayPerform r.2) then s.farStep key else s
/-- A request that was abandoned leaves code 5, whatever has come of it at its module, unless the chunk has met a worse error, or an earlier one (R216,
R350). -/
def State.settled (s : State) (key : Nat × Nat × Nat) (f : Fetch) : Fetch :=
  f.unreached (((s.requestsOf key).filter fun r => r.2.answer == .abandoned).flatMap fun r => (r.2.reads ++ r.2.writes).map (·.2)).min?
/-- The bytes of a chunk that windows lead to: those it reads, and those it writes; none of a chunk that fails its translation. -/
def State.farSpots (s : State) (team : Nat) (c : Copy) (i : Nat) : List Spot × List Spot :=
  let r := c.range i
  let src := s.allSpots (s.team team) false (s.srcParts team c r.1 r.2)
  let dst := s.allSpots (s.team team) true (s.dstParts team c r.1 r.2)
  if (firstBad src.2 dst.2).isSome then ([], []) else (src.1.filter Spot.far, dst.1.filter Spot.far)
/-- CHUNK_LAND: a started chunk lands. One that other modules take part in sends its requests first, and lands when all of them are acknowledged. Chunks of a
cpym only read here; their deliveries land by DELIVERY_LAND. -/
def State.landChunk (s : State) (team id i : Nat) : State :=
  let key := (team, id, i)
  let c := cellGet Copy.blank (s.team team).copies id
  let far := s.farSpots team c i
  let rs := s.requestsOf key
  if !cellHas c.fetched i && rs.isEmpty && (far.1 ++ far.2).any (fun p => (s.farSpot team p).isSome) then
    s.sendRequests team id i c (s.copyMode team c) (s.landView team team c i) far.1 far.2
  else if rs.any fun q => q.2.state != .acked then s
  else
    let s := if cellHas c.fetched i then s else s.fetchChunk team id i []
    let c := cellGet Copy.blank (s.team team).copies id
    if !cellHas c.fetched i || c.kind == .cpym then s
    else
      let x := s.landIn team id team c i false true [] (s.settled key (cellGet Fetch.blank c.fetched i)) (s.landView team team c i)
      x.1.recordChunk team id i x.2.1 x.2.2
def execChunkLand (team copy chunk : Nat) (s : State) : Host.Outcome State Fault Refusal :=
  let c := cellGet Copy.blank (s.team team).copies copy
  .next (if s.copyLives team copy && c.remote.isNone && decide (chunk < c.started) && !c.landed.contains chunk && s.inOrder team c chunk &&
      !s.mustWait team c (s.chunkReads team c chunk) (if c.kind == .cpym then [] else s.chunkWrites team c chunk) then
    s.landChunk team copy chunk
  else s)

-- Deliveries.
/-- The worse of two outcomes of one chunk, by the order of R216; code 7 last. -/
def worse (a b : Outcome) : Outcome :=
  let rank (n : Nat) : Nat := match n with | 0 => 9 | 1 => 1 | 2 => 2 | 4 => 3 | 6 => 4 | 3 => 5 | 5 => 6 | _ => 7
  if rank b.code < rank a.code then { b with sat := a.sat || b.sat } else { a with sat := a.sat || b.sat }
/-- The entry of a cpym in the team of a named position. -/
def Team.entryOf (t : Team) (team id : Nat) : Option Nat := (t.copies.find? fun p => p.2.remote == some (team, id)).map (·.1)
/-- The outcome and the observation of a chunk whose deliveries have all been made or dropped: the worst of them all (R216, R235, R256). -/
def Copy.allDelivered (c : Copy) (f : Fetch) (i : Nat) : Outcome × Obs :=
  (c.delivered.filter fun d => d.chunk == i).foldl (fun r d => (worse r.1 d.out, r.2.add d.obs)) (f.out, f.obs)
/-- A delivery has been made or dropped; after the last one the chunk has landed, and the issuer's bit is set, judged as an access of its own (R210,
R235, R253). -/
def State.deliveryDone (s : State) (team id i position : Nat) (o : Outcome) (obs : Obs) : State :=
  let s := s.modTeam team fun t => { t with copies := cellMod Copy.blank t.copies id fun c => { c with delivered := ⟨i, position, o, obs⟩ :: c.delivered } }
  let c := cellGet Copy.blank (s.team team).copies id
  if c.targets.all fun p => (c.deliveryAt i p.1).isSome then
    let all := c.allDelivered (s.settled (team, id, i) (cellGet Fetch.blank c.fetched i)) i
    let f : Fetch := ⟨[], all.1, 0, all.2, false, true⟩
    let x := s.landIn team id team c i true true [] f (c.view ||| all.2.view)
    x.1.recordChunk team id i (worse all.1 x.2.1) x.2.2
  else s
def execDeliveryLand (team copy chunk position : Nat) (s : State) : Host.Outcome State Fault Refusal :=
  let t := s.team team
  let c := cellGet Copy.blank t.copies copy
  let f := s.settled (team, copy, chunk) (cellGet Fetch.blank c.fetched chunk)
  match s.teamAt t.cluster position, c.targets.find? fun p => p.1 == position with
  | some q, some tag =>
    .next (if s.copyLives team copy && cellHas c.fetched chunk && (c.deliveryAt chunk position).isNone && s.inOrder team c chunk &&
        (s.requestsOf (team, copy, chunk)).all (fun r => r.2.state == .acked) && !s.mustWait team c [] (s.chunkWrites q c chunk) then
      if (s.team q).status == .ended || (s.team q).gen != tag.2 then
        (s.modLaunch t.launch fun l => { l with dropped := addSat32 l.dropped 1 }).deliveryDone team copy chunk position ⟨7, false, 0, 0⟩ Obs.blank
      else
        let x := s.landIn team copy q c chunk true (q != team) [] f (s.landView team q c chunk)
        let s := match (s.team q).entryOf team copy with
          | some e => x.1.modTeam q fun u => u.recordChunk e chunk x.2.1 x.2.2
          | none => x.1
        s.deliveryDone team copy chunk position x.2.1 x.2.2
    else s)
  | _, _ => .next s

-- bmwait (R212, R213).
/-- The most recently accepted copy whose run contains a word. -/
def Team.namedCopy (t : Team) (word : Nat) : Option Copy :=
  ((t.incomplete ++ t.done).filter fun c => c.inRun word).foldl (fun m c => match m with
    | some x => if x.order < c.order then some c else some x
    | none => some c) none
/-- The chunks of a copy that bits of a mask own in a word. -/
def Copy.owned (c : Copy) (word mask : Nat) : List Nat :=
  (List.range c.chunks).filter fun i => wordAddr c.bl (c.run + i / 32) / 4 == word && fld mask (i % 32) 1 == 1
/-- The outcome kept for a chunk, with its copy or in the outcome store. -/
def Team.outcomeOf (t : Team) (c : Copy) (i : Nat) : Outcome :=
  match t.copies.find? fun p => p.2.order == c.order && p.2.accepted with
  | some p => cellGet Outcome.none p.2.outcomes i
  | none => ((t.store.find? fun e => e.order == c.order && e.chunk == i).map (·.out)).getD Outcome.none
/-- Outcomes of chunks are forgotten (R214). -/
def Team.forget (t : Team) (c : Copy) (chunks : List Nat) : Team :=
  { t with
    copies := t.copies.map fun p => if p.2.order == c.order && p.2.accepted then
        (p.1, { p.2 with outcomes := p.2.outcomes.filter fun o => !chunks.contains o.1 }) else p
    store := t.store.filter fun e => !(e.order == c.order && chunks.contains e.chunk) }
/-- The status word (R213). -/
def statusWord (code chunk : Nat) (more : Bool) (page : BitVec 32) : DWord :=
  dw (code + chunk * 2 ^ 8 + (if more then 2 ^ 20 else 0) + page.toNat * 2 ^ 32)

/-- The effect of bmwait on a word whose masked bits are set. -/
def State.bmwaitEffect (s : State) (d : SReg) (word mask : Nat) : State :=
  let r : Ret := { words := 2, legEnd := true }
  match (s.curTeam.namedCopy word), mask == 0 with
  | some c, false =>
    let owned := c.owned word mask
    let scope := if c.remote.isSome then 1 else 0
    let s := s.modCur fun x => owned.foldl (fun (x : Agent) i => x.observe (cellGet Obs.blank c.obs i)) { x with view := x.view ||| c.view }
    let s := s.curAgent.homes.foldl (fun (s : State) g => s.observeEngine s.cur.team g scope c.ident c.clocks) s
    let fails := owned.filter fun i => (s.curTeam.outcomeOf c i).code != 0
    let raced := (fails.find? fun i => (s.curTeam.outcomeOf c i).code == 6).filter fun _ => decide (2 ≤ s.curGroup.rmode.toNat)
    match raced with
    | some i => s.raise { kind := 13, record := (s.curTeam.outcomeOf c i).record }
    | none =>
      let lost := s.curTeam.lost.contains word
      let sat := owned.any fun i => (s.curTeam.outcomeOf c i).sat
      let s := if lost || sat then s.modCurGroup fun g => { g with sat := g.sat ||| 1 } else s
      let status := match fails with
        | i :: rest => let o := s.curTeam.outcomeOf c i
          statusWord o.code i (!rest.isEmpty || lost) (if o.code ≤ 2 then o.page else 0)
        | [] => if lost then statusWord 8 (owned.headD 0) true 0 else 0
      ((s.setSreg d.toNat status).modCurTeam fun t => t.forget c owned).retire r
  | _, _ =>
    let s := if s.curTeam.lost.contains word then s.modCurGroup fun g => { g with sat := g.sat ||| 1 } else s
    (s.setSreg d.toNat 0).retire r
/-- The wait of an issued bmwait on the record it read (R146, R213). A word in a row with an uncorrectable error delivers no data: the storage-error fault, whole
(R156, log 128). -/
def State.bmwaitTry (s : State) (d : SReg) (h : Nat) (l : Layout) (w mask : Nat) : State :=
  let a := wordAddr l w
  if s.badAt (.shared s.cur.team) a 4 then
    s.raise (storageRaise (s.laneAcc ⟨h, [w], 0, Ord.plain, false⟩ (.shared s.cur.team) a 4 s.agentLane true false) 0)
  else if Nat.land (readLE s.curTeam.shared a 4) mask == mask then s.bmwaitEffect d (a / 4) mask else s
def execBmwait (_la : BitVec 4) (d : SReg) (bm : LayoutRef) (slot : DSlot) (mask : Word) (s : State) : Host.Outcome State Fault Refusal :=
  s.issuePlain fun s =>
    let h := s.handleOf bm
    let w := s.dCoord slot
    match s.curAgent.issued.bind fun i => i.recs.head? with
    | some x => s.bmwaitTry d x.1 ⟨x.2⟩ w mask.toNat
    | none =>
      let l := s.curTeam.record .streamer h
      match firstFault [recordCheck l h [0] (fun l => l.size == 4) 4 [slot], s.blockBounds l [w] 4] with
      | some f => s.raise f
      | none => (s.modCur fun x => { x with issued := some ⟨[(h, l.raw)], [], [], [], false⟩ }).bmwaitTry d h l w mask.toNat

end Sys2Proof.Machine
end

