-- ==== Sys2Proof/Machine/Matrix.lean ====
section
/-! DEFINITION. The matrix engine (10 R173 to R199, 04 R72): gangs, the rendezvous latch, the states of a command, its reads of A and its
arithmetic, and the waits. -/

namespace Sys2Proof.Machine

/-- The element type of a format (R180). -/
def mmaTy : MmaFmt → Ty
  | .f32 => .f32 | .b16 => .b16 | .h16 => .h16 | .f8e4 => .f8e4 | .f8e5 => .f8e5 | .f6e3m2 => .f6e3m2 | .f6e2m3 => .f6e2m3
  | .f4e2m1 => .f4e2m1 | .s8 => .s8 | .n8 => .n8 | .s4 => .s4 | .n4 => .n4
/-- The K-step of a format (R72). -/
def kStep (f : MmaFmt) : Nat := (mmaTy f).perReg
/-- The record type that holds A (R180). -/
def aType (f : MmaFmt) : Ty := if (mmaTy f).bits < 8 then .n8 else mmaTy f
/-- k′ of an element of A (R180). -/
def aIndex (f : MmaFmt) (k : Nat) : Nat := if (mmaTy f).bits == 4 then k / 2 else k

-- Gangs (R173 to R176).
/-- The value of a queue register bound to the bin of a node, or to a gang's tokens; the encoding is DESIGN CHOICE (log 7). -/
def qBin (node : Nat) : DWord := dw (2 ^ 8 + node)
def qGang : DWord := dw (2 ^ 9)
/-- The node whose bin a queue register is bound to. -/
def binOf (q : DWord) : Option Nat := if bitsOf q 8 1 == 1 then some (bitsOf q 0 4) else none
def Gang.leader (g : Gang) : Nat := g.slots.foldl min 31
/-- Two gang registers are equal: shape, slots and bound queue (R174, R188). -/
def Gang.same (a b : Gang) : Bool := a.shape == b.shape && a.slots == b.slots && a.queue == b.queue
def gangSlots (g : GangArgs) : List Nat :=
  match g.shape.toNat with
  | 1 => [g.s0.toNat, g.s1.toNat, g.s2.toNat, g.s3.toNat]
  | 2 => [g.s0.toNat, g.s1.toNat]
  | 3 => [g.s2.toNat, g.s3.toNat]
  | _ => []
def gangFault (cause d0 : Nat) : Raise := { kind := 18, cause := cause, d0 := dw d0 }
/-- The queue binding of a group's gang is released. -/
def Group.unbindGang (g : Group) : Group :=
  match g.gang with
  | some x => match x.queue with
    | some q => { g with q := cellSet 0 g.q q.toNat 0, tokens := cellDel g.tokens q.toNat, gang := none }
    | none => { g with gang := none }
  | none => g
def Group.bindGang (g : Group) (x : Gang) : Group :=
  match x.queue with
  | some q => { g with q := cellSet 0 g.q q.toNat qGang, gang := some x }
  | none => { g with gang := some x }
/-- gang (R176). -/
def execGang (g : GangArgs) (s : State) : Host.Outcome State Fault Refusal :=
  s.issueChecked (fun s =>
    let t := s.curTeam
    let x := s.curAgent
    let slots := gangSlots g
    firstFault [s.partialFault,
      if (t.cmdsOf x.host).isEmpty then none else some (gangFault 6 0),
      if g.shape == 0 then none
      else if t.lanesN < 32 || slots.any (fun n => decide (t.groupsN ≤ n)) || !slots.contains x.host then some (gangFault 7 0)
      else match g.q with
        | some q => if cellGet 0 s.curGroup.unbindGang.q q.toNat != 0 then some (gangFault 8 q.toNat) else none
        | none => none]) fun s =>
    (s.modCurGroup fun y =>
      let y := y.unbindGang
      if g.shape == 0 then y else y.bindGang ⟨g.shape, gangSlots g, g.q⟩).retire {}

/-- mfence.opr (R189). -/
def execMfenceOpr (s : State) : Host.Outcome State Fault Refusal :=
  s.issueChecked State.partialFault fun s => (s.modCurGroup fun g => { g with unfenced := 0 }).retire {}

-- The rendezvous latch (R188).
/-- What an arrival compares: the A descriptor's handle and coordinates as read. -/
def State.mmaCoords (s : State) (f : MmaArgs) : List Nat := f.a.slots.map s.dCoord
def mmaPids (f : MmaArgs) : List (BitVec 6) := f.p0.toList ++ f.p1.toList
def latchSame (s : State) (f : MmaArgs) (l : Latch) : Bool :=
  l.args.fmt == f.fmt && l.args.id == f.id && l.args.n == f.n && l.args.p0 == f.p0 && l.args.p1 == f.p1 &&
    l.layout == s.handleOf f.a.l && l.coords == s.mmaCoords f
/-- The open latch of a gang. -/
def Team.latchOf (t : Team) (g : Gang) : Option Latch := t.latches.find? fun l => l.gang.same g
/-- The checks at arrival. Of several members with another gang or without live lanes, the first in quarter order is named (R195; DESIGN CHOICE, log 129). -/
def State.mmaArrival (s : State) (f : MmaArgs) : Option Raise :=
  let t := s.curTeam
  match s.partialFault, s.curGroup.gang with
  | some r, _ => some r
  | none, none => some (gangFault 1 0)
  | none, some g =>
    let other (n : Nat) : Bool := match (t.group n).gang with | some x => !x.same g | none => true
    match g.slots.find? other, g.slots.find? fun n => (t.group n).live == 0 with
    | some n, _ => some (gangFault 2 n)
    | none, some n => some (gangFault 4 n)
    | none, none => match t.latchOf g with
      | some l => if latchSame s f l then none else some { gangFault 3 0 with d1 := dw l.pc }
      | none => none

/-- The address checks of A (R180, R188). -/
def State.mmaBounds (s : State) (l : Layout) (cs : List Nat) (f : MmaFmt) (n members : Nat) : Option Raise :=
  let dims := [aIndex f (kStep f * n - 1) + 1, 16 * members, 1, 1]
  let used := cs.take l.extents
  match used.zipIdx.find? fun p => decide (l.ext p.2 < p.1 + (dims[p.2]?).getD 1) with
  | some p => some (wholeBounds p.2)
  | none => if s.tileInRange l l.size used (dims.take l.extents) then none else some (wholeBounds 4)

/-- The checks of a closed latch, in order (R188). The operand-fence and pending-operand faults name the first member in arrival order and its lowest register
(R189, R193; DESIGN CHOICE, log 129). -/
def State.latchFault (s : State) (l : Latch) : Option Raise :=
  let t := s.curTeam
  let rec_ := t.record .matrix l.layout
  let f := l.args.fmt
  let full := l.gang.full
  let b (m : Nat × Nat × Nat) : List Nat := spanRegs m.2.2 (bRange full l.args.n.toNat)
  let regs (m : Nat × Nat × Nat) : List Nat := spanRegs m.2.1 32 ++ b m
  let badRange (m : Nat × Nat × Nat) : Bool :=
    (regs m).any (fun r => decide (256 ≤ r) || decide ((t.group m.1).budget ≤ r)) || (b m).any fun r => decide (m.2.1 ≤ r ∧ r < m.2.1 + 32)
  let unfenced (m : Nat × Nat × Nat) : Option Raise :=
    ((List.range 256).find? fun r => (regs m).contains r && (t.group m.1).unfenced.getLsbD r).map fun r =>
      { kind := 17, d0 := dw m.1, d1 := dw r }
  let pending (m : Nat × Nat × Nat) : Option Raise :=
    (t.cmdsOf m.1).findSome? fun (c : Cmd) =>
      if c.leader == l.leader && (mmaPids l.args).contains c.id then none
      else ((c.regsOf m.1).find? (regs m).contains).map fun r => { kind := 16, d0 := dw r, d1 := dw c.id.toNat }
  firstFault
    [recordCheck rec_ l.layout [0, 1, 2] (fun r => decide (2 ≤ r.extents) && r.ty == some (aType f)) rec_.size l.args.a.slots,
     s.mmaBounds rec_ l.coords f l.args.n.toNat l.gang.slots.length,
     if l.arrived.any badRange then some (illegal 6) else none,
     l.arrived.findSome? unfenced,
     l.arrived.findSome? pending,
     if (t.cmdsOf l.leader).any fun (c : Cmd) => c.id == l.args.id && c.leader == l.leader then some (gangFault 5 l.args.id.toNat) else none]

/-- The command a closed latch creates (R183, R185). -/
def State.latchCmd (s : State) (l : Latch) : Cmd :=
  let t := s.curTeam
  { id := l.args.id
    leader := l.leader
    gang := l.gang
    state := .checked
    order := s.nextEvent
    fmt := l.args.fmt
    n := l.args.n.toNat
    ranges := l.arrived
    pids := mmaPids l.args
    preds := []
    layout := l.layout
    arec := (t.record .matrix l.layout).raw
    coords := l.coords
    elem := 0
    part := []
    met := none
    recheck := false
    queued := false
    pc := (t.agent l.leader).pc
    fault := none
    waited := []
    views := l.arrived.foldl (fun v m => cellPut v m.1 (t.agent m.1).view) []
    obs := Obs.blank
    clocks := l.arrived.foldl (fun v m => cellPut v m.1 (s.clocks s.cur.team m.1, (t.group m.1).vec, t.tvec)) [] }

-- Commands.
def Team.cmd (t : Team) (leader : Nat) (id : BitVec 6) : Option Cmd := t.cmds.find? fun c => c.leader == leader && c.id == id
def Team.putCmd (t : Team) (c : Cmd) : Team :=
  { t with cmds := t.cmds.map fun (d : Cmd) => if d.leader == c.leader && d.id == c.id then c else d }
def State.putCmd (s : State) (team : Nat) (c : Cmd) : State := s.modTeam team fun t => t.putCmd c
/-- The commands of the teams on a core. -/
def State.coreCmds (s : State) (core : Nat) : List Cmd :=
  s.teams.flatMap fun p => if p.2.core == core && s.runs p.1 then p.2.cmds else []
def Cmd.accepted (c : Cmd) : Bool := !c.queued && (c.state == .waiting || c.state == .executing || c.state == .stopped)
/-- The sequencer of a core holds fewer than 64 accepted commands that have not completed (R183). -/
def State.cmdRoom (s : State) (core : Nat) : Bool := decide (((s.coreCmds core).filter Cmd.accepted).length < 64)
/-- A checked command is accepted when the sequencer has room (R183): its predecessors are those in use now, and the mma retires in every
member. -/
def State.acceptCmd (s : State) (team : Nat) (c : Cmd) : State :=
  if s.cmdRoom (s.team team).core then
    let t := s.team team
    let preds := (t.cmds.filter fun (d : Cmd) => d.leader == c.leader && c.pids.contains d.id).map fun (d : Cmd) => d.order
    let s := s.putCmd team { c with state := .waiting, preds := preds, order := s.nextEvent }
    let s := { s with nextEvent := s.nextEvent + 1 }
    c.ranges.foldl (fun (s : State) m =>
      (s.modAgent ⟨team, m.1⟩ fun x => { x with status := .ready }).retireAt ⟨team, m.1⟩ { words := 2, endsSpin := true, legEnd := true }) s
  else s
/-- A command takes a new place in the order of acceptance, and those that wait for it know it by that. -/
def Team.renumber (t : Team) (c : Cmd) (order : Nat) : Team :=
  { t with cmds := t.cmds.map fun (d : Cmd) =>
      if d.order == c.order then { d with order := order, queued := false }
      else { d with preds := d.preds.map fun o => if o == c.order then order else o } }
/-- The first command of a returned team that waits to be accepted again is accepted when there is room (R199). -/
def State.acceptAgain (s : State) (team : Nat) : State :=
  match (sortBy (fun (a b : Cmd) => decide (a.order ≤ b.order)) ((s.team team).cmds.filter fun (c : Cmd) => c.queued)).head? with
  | some c => if s.cmdRoom (s.team team).core then
      { (s.modTeam team fun t => t.renumber c s.nextEvent) with nextEvent := s.nextEvent + 1 } else s
  | none => s
/-- As many as there is room for. -/
def State.acceptAllAgain (s : State) (team : Nat) : Nat → State
  | 0 => s
  | fuel + 1 => (s.acceptAgain team).acceptAllAgain team fuel
def execCommandAccept (team leader : Nat) (id : BitVec 6) (s : State) : Host.Outcome State Fault Refusal :=
  match (s.team team).cmd leader id with
  | some c => .next (if s.runs team && c.queued then s.acceptAgain team
      else if s.runs team && c.state == .checked && !(s.launch (s.team team).launch).determinate then s.acceptCmd team c else s)
  | none => .next s

/-- The latch closes (R188): each failing check is raised in every member; otherwise the command is created. In a determinate launch it is
accepted in the same commit (R301). -/
def State.closeLatch (s : State) (l : Latch) : State :=
  let team := s.cur.team
  let s := s.modCurTeam fun t => { t with latches := t.latches.filter (· != l) }
  match s.latchFault l with
  | some r => l.arrived.foldl (fun (s : State) m =>
      (s.modAgent ⟨team, m.1⟩ fun x => { x with status := .ready }).raiseAt ⟨team, m.1⟩ r false) s
  | none =>
    let c := s.latchCmd l
    let s := { (s.modCurTeam fun t => { t with cmds := t.cmds ++ [c] }) with nextEvent := s.nextEvent + 1 }
    if s.curLaunch.determinate then s.acceptCmd team c else s
def execMma (f : MmaArgs) (s : State) : Host.Outcome State Fault Refusal :=
  s.issueChecked (fun s => s.mmaArrival f) fun s =>
    let g := s.curGroup.gang.getD ⟨0, [], none⟩
    let me := (s.curAgent.host, f.c.toNat, f.b.toNat)
    let old := s.curTeam.latchOf g
    let l : Latch := match old with
      | some l => { l with arrived := l.arrived ++ [me] }
      | none => ⟨g.leader, g, f, s.handleOf f.a.l, s.mmaCoords f, s.curAgent.pc, [me]⟩
    let rest := s.curTeam.latches.filter fun x => some x != old
    let s := (s.modCurTeam fun t => { t with latches := rest ++ [l] }).modCur fun x => { x with status := .latch }
    if g.slots.all fun n => l.arrived.any fun m => m.1 == n then s.closeLatch l else s

/-- The quarters whose arrays a command occupies (R184). -/
def Cmd.quarters (c : Cmd) : List Nat := match c.gang.shape.toNat with | 1 => [0, 1, 2, 3] | 2 => [0, 1] | _ => [2, 3]
/-- The lines of the registers that a command names are there before its arrays run (R133). -/
def State.touchRanges (s : State) (team : Nat) (c : Cmd) : State :=
  c.ranges.foldl (fun (s : State) m => s.touchLines team m.1 (spanRegs m.2.1 32 ++ spanRegs m.2.2 (bRange c.gang.full c.n))) s
/-- The record of A differs from the copy of a command that a pre-emption stopped (R199). -/
def Team.mismatched (t : Team) (c : Cmd) : Bool := c.recheck && (t.record .matrix c.layout).raw != c.arec
/-- COMMAND_START (R183, R199): the earliest-accepted ready command whose arrays are free; a record that differs from its copy stops it. -/
def execCommandStart (team leader : Nat) (id : BitVec 6) (s : State) : Host.Outcome State Fault Refusal :=
  match (s.team team).cmd leader id with
  | none => .next s
  | some c =>
    let t := s.team team
    let busy := ((s.coreCmds t.core).filter fun d => d.state == .executing).flatMap Cmd.quarters
    let free (d : Cmd) : Bool := d.quarters.all fun q => !busy.contains q
    let ahead := s.teams.any fun p => p.2.core == t.core && s.runs p.1 && p.2.cmds.any fun d => d.ready p.2 && free d && decide (d.order < c.order)
    .next (if s.runs team && c.ready t && free c && !ahead && s.cmdTurn team c then
      if t.mismatched c then s.putCmd team { c with state := .stopped, fault := some (3, 0), recheck := false }
      else (s.touchRanges team c).putCmd team { c with state := .executing, recheck := false }
    else s)

-- Reads of A (R180, R185, R258).
/-- The coordinates of the record elements that hold row m of A for a K-step group. -/
def Cmd.rowCoords (c : Cmd) (group m : Nat) : List (List Nat) :=
  let s := kStep c.fmt
  let z := ((List.range s).map fun u => aIndex c.fmt (s * group + u)).eraseDups
  z.map fun k => match c.coords with
    | c0 :: c1 :: rest => (c0 + k) :: (c1 + m) :: rest
    | l => l
/-- The bytes of A that the array of the member at a position reads for a K-step group. -/
def State.aSpots (s : State) (team : Nat) (c : Cmd) (p group : Nat) : List Spot :=
  let l : Layout := ⟨c.arec⟩
  (List.range 16).flatMap fun i => (c.rowCoords group (16 * p + i)).flatMap fun cs =>
    let cs := cs.take l.extents
    (s.pieces team l (l.addr l.size cs).toNat l.size).flatMap fun q => (List.range q.2.2).map fun j => ⟨q.1, q.2.1 + j, 0, 0, 0, cs, false⟩
/-- The access of an array on behalf of a member, for a K-step group (R185). -/
def State.aAcc (s : State) (team : Nat) (c : Cmd) (g group : Nat) (sp : Spot) (n : Nat) : Acc :=
  let k := cellGet (⟨0, 0, 0⟩, [], []) c.clocks g
  { place := sp.place
    addr := sp.addr
    size := n
    read := true
    write := false
    engine := true
    team := team
    group := g
    agent := none
    source := some (team, 2 * c.order + 1)
    ident := s.ident team g
    clocks := k.1
    gvec := k.2.1
    tvec := k.2.2
    view := cellGet 0 c.views g
    carried := []
    handle := c.layout
    coords := sp.coords
    pc := c.pc
    elem := group
    quiet := true }
/-- The elements of A in the bytes read, for 16 rows. -/
def Cmd.elements (c : Cmd) (bytes : List Byte) : List Nat :=
  let z := (aType c.fmt).bytes
  let t := mmaTy c.fmt
  (List.range (bytes.length / z)).flatMap fun i =>
    let x := bytesWord ((bytes.drop (z * i)).take z)
    if t.bits == 4 then [fld x 0 4, fld x 4 4] else [fld x 0 t.bits]

-- Arithmetic (R178, R179, R181).
/-- B(s·t + u, col) for the K-step group of a command: the K-step word of the column. -/
def Team.bWord (t : Team) (c : Cmd) (col : Nat) : Nat :=
  let w := if c.gang.full then 16 else 32
  let g := (c.gang.slots[col / w]?).getD 0
  let vb := match c.ranges.find? fun r => r.1 == g with | some r => r.2.2 | none => 0
  let j := col % w
  if c.gang.full then (t.vreg (32 * g + 16 * (c.elem % 2) + j) (vb + c.elem / 2)).toNat
  else (t.vreg (32 * g + j) (vb + c.elem)).toNat
/-- One element of C after a K-step group (R72, R181). -/
def macStep (f : MmaFmt) (acc : Nat) (a : List Nat) (b : Nat) : Nat :=
  let t := mmaTy f
  if isFloat t then
    sumRound .f32 0 (decodeFloat .f32 acc :: a.zipIdx.map fun p => (decodeFloat t p.1).mul (decodeFloat t (elemOf t b p.2)))
  else (((acc : Int) + (a.zipIdx.map fun (p : Nat × Nat) => decodeInt t p.1 * decodeInt t (elemOf t b p.2)).sum) % 2 ^ 32).toNat
/-- An accumulator write (R179, R189): the unfenced set is not the engine's. -/
def Team.setAcc (t : Team) (g r lane : Nat) (x : Nat) : Team :=
  t.modGroup g fun y => { y with v := cellSet 0 y.v (32 * r + lane) (BitVec.ofNat 32 x) }
/-- The K-step group lands in every member's accumulator; reads: its elements of A, member by member. -/
def Team.landStep (t : Team) (c : Cmd) (reads : List (List Nat)) : Team :=
  let s := kStep c.fmt
  let cols := (List.range 64).map fun j => t.bWord c j
  c.ranges.foldl (fun (u : Team) m =>
    let p := (c.gang.slots.idxOf? m.1).getD 0
    let a := (reads[p]?).getD []
    (List.range 16).foldl (fun (u : Team) i =>
      let row := (a.drop (s * i)).take s
      (List.range 64).foldl (fun (u : Team) j =>
        let r := m.2.1 + 2 * i + j / 32
        u.setAcc m.1 r (j % 32) (macStep c.fmt (t.vreg (32 * m.1 + j % 32) r).toNat row ((cols[j]?).getD 0))) u) u) t

/-- The byte of A that a command has read for a member's K-step group. -/
def Cmd.byteRead (c : Cmd) (p group : Nat) (x : Spot) : Option Byte :=
  (c.part.find? fun b => b.1 == (p, group) && b.2.1 == x.place && b.2.2.1 == x.addr).map (·.2.2.2)
/-- The elements of A of the next K-step group, member by member; none while some bytes are still to be read. -/
def State.stepReads (s : State) (team : Nat) (c : Cmd) : Option (List (List Nat)) :=
  (List.range c.gang.slots.length).mapM fun p => ((s.aSpots team c p c.elem).mapM (c.byteRead p c.elem)).map c.elements
/-- A piece of A: the bytes of one aligned 128 bytes that a member's K-step group still has to read, of the k-th of its bytes to be read (R228, R242). -/
def Cmd.piece (c : Cmd) (p group : Nat) (spots : List Spot) (k : Nat) : List Spot :=
  let same (a b : Spot) : Bool := a.place == b.place && a.addr == b.addr
  let todo := spots.foldl (fun (l : List Spot) x => if (c.byteRead p group x).isSome || l.any (same x) then l else l ++ [x]) []
  match todo[k]? with
  | some x => todo.filter fun y => y.place == x.place && y.addr / 128 == x.addr / 128
  | none => []
/-- The next K-step group of an executing command lands once it is read, but for the last, which lands when the command completes; and a command whose next
group a race or a storage error has met stops before it (R196). -/
def State.landNext (s : State) (team : Nat) (c : Cmd) : State :=
  let stopped (c : Cmd) : Cmd := match c.met with
    | some (e, fault) => if c.state == .executing && e == c.elem then { c with state := .stopped, fault := some fault, part := [], met := none } else c
    | none => c
  match s.stepReads team c with
  | some reads =>
    if c.state == .executing && c.elem + 1 != c.n then
      s.modTeam team fun t => (t.landStep c reads).putCmd (stopped { c with elem := c.elem + 1, part := c.part.filter fun b => decide (c.elem < b.1.2) })
    else s.putCmd team (stopped c)
  | none => s.putCmd team (stopped c)
/-- The piece of A is read: a race in a trap mode or a storage error keeps its K-step group and those after it from being read (R196). -/
def State.readA (s : State) (team : Nat) (c : Cmd) (p group k : Nat) : State :=
  let g := (c.gang.slots[p]?).getD 0
  let spots := c.piece p group (s.aSpots team c p group) k
  let mode := ((s.team team).group g).rmode
  let j := s.judgeStep ((joinRuns (spots.map fun x => (x, ()))).map fun run => s.aAcc team c g group run.1 run.2.length)
  let rec_ := j.1.stepRecord team mode j.2 false
  if j.2.isSome && decide (2 ≤ mode.toNat) then rec_.1.landNext team { c with met := some (group, 1, rec_.2) }
  else
    let got := rec_.1.readSpots (fun sp n => rec_.1.aAcc team c g group sp n) spots
    let c := { c with obs := c.obs.add got.2.2 }
    if got.2.1.any Option.isNone then got.1.landNext team { c with met := some (group, 2, 0) }
    else got.1.landNext team { c with part := c.part ++ (spots.zip got.2.1).filterMap fun x => x.2.map fun b => ((p, group), x.1.place, x.1.addr, b) }
/-- A piece may be read now: in a determinate launch the reads are in K-step order, and in one step member by member, piece by piece (R302; log 73). -/
def State.pieceTurn (s : State) (team : Nat) (c : Cmd) (p group k : Nat) : Bool :=
  !(s.launch (s.team team).launch).determinate ||
    (c.state == .executing && group == c.elem && k == 0 &&
      (List.range p).all fun q => (s.aSpots team c q group).all fun x => (c.byteRead q group x).isSome)
/-- MATRIX_A_READ: the array of the member at a position reads a 128-byte piece of its rows of A for a K-step group, at any moment from latch close to
completion and in any order (R185, R242, R258). With nothing left to read of a group that has been read, the group lands. -/
def execMatrixARead (team leader : Nat) (r : ARead) (s : State) : Host.Outcome State Fault Refusal :=
  match (s.team team).cmd leader r.id with
  | some c => .next (if s.runs team && (c.state == .checked || c.state == .waiting || c.state == .executing) && !c.queued && !(s.team team).mismatched c &&
      decide (r.p < c.gang.slots.length) && decide (c.elem ≤ r.group ∧ r.group < c.n) && (c.met.all fun m => decide (r.group < m.1)) && s.cmdTurn team c &&
      s.pieceTurn team c r.p r.group r.k then
    s.readA team c r.p r.group r.k else s)
  | none => .next s

/-- Every K-step group of a command has issued, and is to land: the elements of its last one. -/
def State.lastReads (s : State) (team : Nat) (c : Cmd) : Option (List (List Nat)) := if c.elem + 1 == c.n then s.stepReads team c else none
/-- The last K-step group lands, and a token enters each bound queue (R191). -/
def Team.completeCmd (t : Team) (c : Cmd) (reads : List (List Nat)) : Team :=
  let t := (t.landStep c reads).putCmd { c with state := .complete, elem := c.n, part := [], met := none }
  c.gang.slots.foldl (fun (t : Team) g => match (t.group g).gang with
    | some x => match x.queue with
      | some q => t.modGroup g fun y => { y with tokens := cellMod [] y.tokens q.toNat fun l => l ++ [c.token] }
      | none => t
    | none => t) t
def execCommandComplete (team leader : Nat) (id : BitVec 6) (s : State) : Host.Outcome State Fault Refusal :=
  match (s.team team).cmd leader id with
  | some c => .next (match s.lastReads team c with
    | some reads => if s.runs team && c.state == .executing && s.cmdTurn team c then s.modTeam team fun t => t.completeCmd c reads else s
    | none => s)
  | none => .next s

-- Waits (R190 to R192).
/-- The checks common to the forms of mwait: the partial set, and the command fault of the leader. -/
def State.mwaitFault (s : State) : Option Raise :=
  firstFault [s.partialFault, (s.curTeam.stoppedFor s.curAgent.host).map Cmd.raise]
/-- Commands waited for by the issuing agent's group, once all are complete. -/
def State.waitCmds (s : State) (cs : List Cmd) : State :=
  if cs.all fun (c : Cmd) => c.state == .complete then (s.waitedFor s.cur s.curAgent.host cs).retire { legEnd := true } else s
def execMwait (id : BitVec 6) (s : State) : Host.Outcome State Fault Refusal :=
  s.issueChecked State.mwaitFault fun s => s.waitCmds ((s.curTeam.unwaited s.curAgent.host).filter fun (c : Cmd) => c.id == id)
def execMwaitAll (s : State) : Host.Outcome State Fault Refusal :=
  s.issueChecked State.mwaitFault fun s => s.waitCmds (s.curTeam.unwaited s.curAgent.host)
def execMwaitPop (d : SReg) (q : QReg) (s : State) : Host.Outcome State Fault Refusal :=
  s.issueChecked (fun s => firstFault [s.mwaitFault, match s.curGroup.gang with
      | some g => if g.queue == some q then none else some (gangFault 8 q.toNat)
      | none => some (gangFault 8 q.toNat)]) fun s =>
    match cellGet [] s.curGroup.tokens q.toNat with
    | [] => s
    | x :: _ =>
      let g := s.curAgent.host
      let cs := (s.curTeam.unwaited g).filter fun (c : Cmd) => c.state == .complete && c.token == x
      ((s.waitedFor s.cur g cs).setSreg d.toNat x).retire { counted := false, legEnd := true }

end Sys2Proof.Machine
end

