-- ==== Sys2Proof/Machine/Special.lean ====
section
/-! DEFINITION. emit and rolesw (17 R294, R295), the special registers (03 R41 to R43), rmode (16 R278), and trec (22 R340). -/

namespace Sys2Proof.Machine

def Bin.blank : Bin := ⟨[], 0, 0⟩
def Launch.bin (l : Launch) (node : Nat) : Bin := (l.queues[node]?).getD Bin.blank
def Launch.setBin (l : Launch) (node : Nat) (b : Bin) : Launch := { l with queues := l.queues.set node b }
def CodeObject.node (o : CodeObject) (n : Nat) : Node := (o.nodes[n]?).getD Node.blank
/-- Where the i-th record of a node's bin lies: bins in node order, each a ring of its capacity (DESIGN CHOICE, log 21). -/
def binAddr (l : Launch) (o : CodeObject) (node i : Nat) : Nat :=
  l.bins + 64 * (((o.nodes.take node).map (·.cap)).sum + i % (o.node node).cap)
/-- A record appended to a bin, and written to the bin area. -/
def State.appendRec (s : State) (li node : Nat) (r : Rec) : State :=
  let l := s.launch li
  let b := l.bin node
  match s.devWrite l.vi (binAddr l (s.object l.object) node b.appended) (wordBytes r.bytes.toNat 64) with
  | .error _ => s.killDevice li
  | .ok s => s.modLaunch li fun l => l.setBin node { b with recs := b.recs ++ [r], appended := b.appended + 1 }

-- emit.
def emitQueue : EmitForm → QReg
  | .lane _ _ q => q
  | .scalar _ q => q
def emitRegs : EmitForm → List Nat
  | .lane _ a _ => spanRegs a.toNat 16
  | .scalar _ _ => []
/-- The records of an emit, in ascending home order, with the group each comes from. -/
def State.emitRecs (s : State) : EmitForm → List (Nat × BitVec 512)
  | .lane k a _ => (s.lanes k).map fun gl =>
      (gl / 32, BitVec.ofNat 512 (bytesWord ((List.range 16).flatMap fun j => wordBytes (s.vreg gl (a.toNat + j)).toNat 4)))
  | .scalar a _ => [(s.curAgent.host, BitVec.ofNat 512 (bytesWord ((List.range 8).flatMap fun j => wordBytes (s.sreg (a.toNat + j)).toNat 8)))]
/-- A set register that the form reads is cleared of exited members. -/
def State.emitClear (s : State) : EmitForm → State
  | .lane k _ _ => s.clearK k.toNat
  | .scalar _ _ => s
def emitFault (cause : Nat) (q : QReg) : Raise := { kind := 21, cause := cause, d0 := dw q.toNat }
/-- The append of an emit, in one step: a release at module scope (R294). -/
def State.emitAll (s : State) (node : Nat) (recs : List (Nat × BitVec 512)) : State :=
  let li := s.curTeam.launch
  let snap : Snap := ⟨3, s.curAgent.view, s.locOf s.cur.team⟩
  let s' := recs.foldl (fun (s : State) r => s.appendRec li node ⟨r.2, s.tick, [snap], some (s.cur.team, ⟨s.ident s.cur.team r.1, (s.curTeam.group r.1).clock, true, none⟩)⟩) s
  (s'.releaseAgent s.cur 3).retire { endsSpin := true, legEnd := true }
/-- The bin that an emit appends to has no room for its records, though its capacity has (R294). -/
def State.emitWaits (s : State) (f : EmitForm) : Bool :=
  match binOf (cellGet 0 s.curGroup.q (emitQueue f).toNat) with
  | none => false
  | some node =>
    let n := (s.emitRecs f).length
    let cap := ((s.objectOf s.curTeam).node node).cap
    n != 0 && decide (n ≤ cap) && decide (cap < (s.curLaunch.bin node).recs.length + n)
def execEmit (f : EmitForm) (s : State) : Host.Outcome State Fault Refusal :=
  s.issue (emitRegs f) false fun s =>
    match binOf (cellGet 0 s.curGroup.q (emitQueue f).toNat) with
    | none => s.raise (emitFault 1 (emitQueue f))
    | some node =>
      let recs := s.emitRecs f
      let cap := ((s.objectOf s.curTeam).node node).cap
      if cap < recs.length then s.raise (emitFault 2 (emitQueue f))
      else if recs.isEmpty then (s.emitClear f).retire { endsSpin := true, legEnd := true }
      else if s.emitWaits f then s
      else (s.emitClear f).emitAll node recs

-- rolesw.
def roleFault (cause : Nat) (row : Nat) : Raise := { kind := 22, cause := cause, d0 := dw row }
def Role.blank : Role := ⟨0, 16, 0, 0, 0⟩
def State.roleOf (s : State) (row : Nat) : Role := ((s.nodeOf s.curTeam).roles[row]?).getD Role.blank
/-- The copies a group issued that are not complete. -/
def Team.copiesOf (t : Team) (g : Nat) : Cells Copy := t.ownCopies.filter fun p => p.2.group == g
/-- The checks of rolesw, in order. -/
def State.roleCheck (s : State) (row : BitVec 3) : Option Raise :=
  firstFault [s.partialFault,
    if (s.nodeOf s.curTeam).roles.length ≤ row.toNat then some (roleFault 1 row.toNat) else none,
    if s.curGroup.placed < (s.roleOf row.toNat).vregs then some (roleFault 2 row.toNat) else none,
    if s.swdOf s.cur != 0 then some (roleFault 3 row.toNat) else none]
def execRolesw (row : BitVec 3) (s : State) : Host.Outcome State Fault Refusal :=
  s.issueChecked (·.roleCheck row) fun s =>
    let g := s.curAgent.host
    if !(s.curTeam.copiesOf g).isEmpty then s
    else match s.curTeam.stoppedFor g with
      | some c => s.raise c.raise
      | none =>
        let cs := s.curTeam.unwaited g
        if cs.any fun (c : Cmd) => c.state != .complete then s
        else
          let r := s.roleOf row.toNat
          let s := s.waitedFor s.cur g cs
          let s := s.modCurGroup fun x => { x.unbindGang with row := row.toNat, budget := r.vregs, priority := r.prio }
          (s.retire { endsSpin := true, legEnd := true }).enterBlock s.cur r.entry

-- Special registers.
def execRsr (f : RsrForm) (s : State) : Host.Outcome State Fault Refusal :=
  match f with
  | .lane k d hi n => s.issue [d.toNat] false fun s =>
      s.laneOp k d fun gl => let x := s.specialLane s.cur n.toNat gl
                             if hi then (x >>> 32).setWidth 32 else x.setWidth 32
  | .scalar d n => s.issuePlain fun s => s.scalOp d (s.special s.cur n.toNat)
def execWsr (a : SReg) (n : BitVec 4) (s : State) : Host.Outcome State Fault Refusal :=
  s.issuePlain fun s =>
    let x := s.sreg a.toNat
    (s.modCurGroup fun g => if n = 8 then { g with sat := x.setWidth 2 } else { g with ms := x }).retire {}

/-- sr.rmode of every group of the team (R278). -/
def Team.setRmode (t : Team) (mode : BitVec 2) : Team := { t with groups := t.groups.map fun p => (p.1, { p.2 with rmode := mode }) }
def execRmode (mode : BitVec 2) (s : State) : Host.Outcome State Fault Refusal :=
  s.issueChecked (fun s => if mode != 0 && s.curLaunch.mode == 0 then some (illegal 6) else none) fun s =>
    (s.modCurTeam fun t => t.setRmode mode).retire { legEnd := true }

/-- trec: a kind-1 record when the launch is traced; nothing else (R340). -/
def execTrec (a : SReg) (code : BitVec 16) (s : State) : Host.Outcome State Fault Refusal :=
  s.issuePlain fun s =>
    let payload := wordBytes (s.sreg a.toNat).toNat 8 ++ wordBytes s.curAgent.pc 4 ++ wordBytes code.toNat 4 ++ wordBytes (s.commitOf s.curTeam) 8
    (s.traceTeam s.cur.team s.curAgent.host 1 payload).retire {}

end Sys2Proof.Machine
end

