-- ==== Sys2Proof/Machine/Packets.lean ====
section
/-! DEFINITION. The submission ring and its packets (17 R279 to R282, 21 R327), the loader (17 R283 to R286), and completion records (17
R296). -/

namespace Sys2Proof.Machine

/-- A little-endian field of a byte list. -/
def leAt (bs : List Byte) (o n : Nat) : Nat := bytesWord ((bs.drop o).take n)
/-- Every byte of a range is 0. -/
def zeroAt (bs : List Byte) (o n : Nat) : Bool := ((bs.drop o).take n).all (· == 0)

-- The doorbell (R279, R327).
def State.setIrq (s : State) (vi : Nat) (bit : Nat) : State := s.modVi vi fun v => { v with irq := v.irq ||| BitVec.ofNat 8 (2 ^ bit) }
def State.ring (s : State) (vi : Nat) (d : Word) : State :=
  let v := s.vi vi
  if v.ringsize == 0 then (s.setIrq vi 2).log 1 vi
  else if (d - v.doorbell).toNat < 2 ^ 31 ∧ (d - v.consumer).toNat ≤ 2 ^ v.ringsize.toNat then s.modVi vi fun v => { v with doorbell := d }
  else s.setIrq vi 2
def execDoorbell (vi : Nat) (d : Word) (s : State) : Host.Outcome State Fault Refusal := .next (if cellHas s.vis vi then s.ring vi d else s)

-- Completion records (R296).
structure Completion where
  tag : Nat
  kind : Nat
  status : Nat
  cause : Nat := 0
  flags : Nat := 0
  teams : Nat := 0
  start : Nat
  dropped : Nat := 0
  unobserved : Nat := 0
  records : Nat := 0
  counters : Cells (BitVec 32) := []
  kill : Option Kill := none
  handle : Nat := 0
def killBytes : Option Kill → List Byte
  | none => List.replicate 12 0
  | some k => wordBytes k.pc 4 ++ wordBytes k.team.toNat 4 ++ wordBytes (k.node % 16 + (k.group % 32) * 2 ^ 8 + (k.kind % 2 ^ 16) * 2 ^ 16) 4
def Completion.bytes (c : Completion) (now : Nat) : List Byte :=
  wordBytes c.tag 8 ++ wordBytes c.kind 1 ++ wordBytes c.status 1 ++ wordBytes c.cause 1 ++ wordBytes c.flags 1 ++
    wordBytes (min c.teams (2 ^ 32 - 1)) 4 ++ wordBytes c.start 8 ++ wordBytes now 8 ++ wordBytes c.dropped 4 ++ wordBytes c.unobserved 4 ++
    wordBytes c.records 4 ++ ((List.range 10).flatMap fun i => wordBytes (cellGet 0 c.counters i).toNat 4) ++ killBytes c.kill ++
    wordBytes c.handle 8 ++ List.replicate 24 0
/-- The record is written and the interface signalled; none where the write failed (R317), which signals nothing (R327). -/
def State.record (s : State) (vi addr : Nat) (c : Completion) : Option State :=
  match s.devWrite vi addr (c.bytes s.tick) with
  | .ok s' => some (s'.setIrq vi 0)
  | .error _ => none
def State.post (s : State) (vi addr : Nat) (c : Completion) : State := (s.record vi addr c).getD s

-- Packets (R280 to R282).
/-- The joined name of a launch (R336). -/
def Launch.name (l : Launch) : List Byte := nameBytes l.owner l.number 0xFFFFFFFF 0xFF
/-- A kind-6 record (R337). -/
def State.traceLaunch (s : State) (l : Launch) (payload : List Byte) : State := s.trace l.vi 6 Config.systemCore l.determinate l.name payload
/-- Every page of a range is mapped for reading and writing. -/
def State.mapped (s : State) (vi a n : Nat) : Bool :=
  (List.range ((a + n + 65535) / 65536 - a / 65536)).all fun k =>
    let va := max a (65536 * (a / 65536 + k))
    (match s.translateOwn vi va false with | .ok _ => true | .error _ => false) &&
      (match s.translateOwn vi va true with | .ok _ => true | .error _ => false)
/-- The launch a packet describes (R281). -/
def State.draftLaunch (s : State) (vi : Nat) (bs : List Byte) : Launch :=
  let f := leAt bs 1 1
  let o := s.object (leAt bs 8 8)
  { Launch.blank with
    vi := vi
    number := (s.vi vi).consumer
    serial := fld f 0 1 == 1
    determinate := fld f 1 1 == 1
    locked := fld f 2 1 == 1
    overpass := fld f 3 1 == 1
    mode := BitVec.ofNat 2 (fld f 4 2)
    cached := fld f 6 1 == 1
    entry := fld (leAt bs 2 1) 0 4
    object := leAt bs 8 8
    grid := leAt bs 16 4
    context := leAt bs 24 8
    slots := leAt bs 32 4
    bins := leAt bs 40 8
    ring := leAt bs 48 8 / 4096 * 4096
    ringLog := fld (leAt bs 48 8) 0 5
    vectors := leAt bs 56 8
    completion := leAt bs 64 8
    tag := dw (leAt bs 72 8)
    args := BitVec.ofNat 384 (leAt bs 80 48)
    owner := (s.vi vi).wmOwner
    start := s.tick
    queues := o.nodes.map fun _ => Bin.blank }
/-- The areas of a launch: address, alignment, size. -/
def State.launchAreas (s : State) (l : Launch) : List (Nat × Nat × Nat) :=
  let o := s.object l.object
  [(l.context, 65536, o.slotSize * l.slots), (l.bins, 4096, o.binBytes), (l.completion, 128, 128)] ++
    if l.mode == 0 then [] else [(l.ring, 4096, 128 + 128 * 2 ^ l.ringLog), (l.vectors, 65536, 32768 * l.slots)]
/-- The lowest rejection cause of a launch packet. -/
def State.launchCause (s : State) (vi : Nat) (bs : List Byte) (l : Launch) : Option Nat :=
  let p := s.partition (s.vi vi).partition
  let reserved := fld (leAt bs 1 1) 7 1 != 0 || fld (leAt bs 2 1) 4 4 != 0 || !zeroAt bs 3 5 || !zeroAt bs 20 4 || !zeroAt bs 36 4 ||
    (l.mode != 0 && fld (leAt bs 48 8) 5 7 != 0)
  if leAt bs 0 1 != 1 || reserved || l.grid == 0 || l.grid == 2 ^ 32 - 1 then some 1
  else if !cellHas s.objects l.object || (s.object l.object).vi != vi then some 2
  else if (s.object l.object).nodes.length ≤ l.entry then some 3
  else if l.slots == 0 || (l.mode != 0 && !decide (1 ≤ l.ringLog ∧ l.ringLog ≤ 20)) ||
      !((s.launchAreas l).all fun a => a.1 % a.2.1 == 0 && s.mapped vi a.1 a.2.2 && !s.overCode vi a.1 a.2.2) then some 4
  else if l.locked && !p.locked then some 5
  else if l.mode != 0 && !l.cached && p.shadow.isNone then some 6
  else none

/-- The next packet of a ring, once it may start (R280). -/
def State.packet (s : State) (vi : Nat) : Option (List Byte) :=
  let v := s.vi vi
  if v.ringsize == 0 || v.consumer == v.doorbell then none
  else match s.readVirt vi (v.ringbase.toNat + 128 * (v.consumer.toNat % 2 ^ v.ringsize.toNat)) 128 with
    | .error _ => some []
    | .ok bs =>
      let waits := fld (leAt bs 1 1) 0 1 == 1 && s.launches.any fun l => l.2.vi == vi && l.2.number == v.consumer - 1
      if waits then none else some bs
/-- A packet is taken: the ring read is counted and the consumer index moves. -/
def State.consume (s : State) (vi : Nat) : State :=
  let v := s.vi vi
  (s.countDev vi (v.ringbase.toNat + 128 * (v.consumer.toNat % 2 ^ v.ringsize.toNat)) 128 false).modVi vi fun v => { v with consumer := v.consumer + 1 }
/-- The record of a packet that is not a running launch. -/
def State.answer (s : State) (vi : Nat) (bs : List Byte) (cause : Option Nat) (handle : Nat) : State :=
  s.post vi (leAt bs 64 8)
    { tag := leAt bs 72 8, kind := leAt bs 0 1, status := if cause.isSome then 4 else 0, cause := cause.getD 0, start := s.tick, handle := handle }
/-- A thermal throttle overrides the locked clock of a partition (R305). -/
def State.lockOverridden (s : State) (p : Partition) : Bool := p.locked && p.grid.any fun c => (s.tower (coreTower c)).thermal
/-- A launch starts. -/
def State.startLaunch (s : State) (l : Launch) : State :=
  let l := { l with lockLost := s.lockOverridden (s.partition (s.vi l.vi).partition) }
  let s := { s with launches := cellPut s.launches s.nextLaunch l, nextLaunch := s.nextLaunch + 1 }
  s.traceLaunch l (wordBytes 1 1)
-- The loader.
structure Section where
  type : Nat
  off : Nat
  len : Nat
def sectionsOf (img : List Byte) : List Section :=
  (List.range (leAt img 6 2)).map fun i => ⟨leAt img (64 + 32 * i) 2, leAt img (72 + 32 * i) 8, leAt img (80 + 32 * i) 8⟩
def sectionBytes (img : List Byte) (type : Nat) : List Byte :=
  match (sectionsOf img).find? fun x => x.type == type with
  | some x => (img.drop x.off).take x.len
  | none => []
/-- Two ranges share a byte. -/
def rangesMeet (a n b m : Nat) : Bool := decide (a < b + m) && decide (b < a + n) && decide (0 < n) && decide (0 < m)
/-- The header and section table of an image (R283). -/
def headerOk (img : List Byte) (size : Nat) : Bool :=
  let n := leAt img 6 2
  let ss := sectionsOf img
  let count (t : Nat) : Nat := (ss.filter fun x => x.type == t).length
  let regions := leAt img 32 2
  leAt img 0 4 == 0x30534C57 && leAt img 4 2 == 1 && decide (4 ≤ n ∧ n ≤ 7) && leAt img 8 8 == size && leAt img 16 8 % 65536 == 0 &&
    decide (1 ≤ leAt img 24 4 ∧ leAt img 24 4 ≤ 2 ^ 31) && decide (1 ≤ leAt img 28 2 ∧ leAt img 28 2 ≤ 4096) &&
    decide (1 ≤ leAt img 30 2 ∧ leAt img 30 2 ≤ 16) && decide (regions ≤ 4095) && zeroAt img 34 30 && decide (64 + 32 * n ≤ size) &&
    ((List.range n).all fun i => zeroAt img (66 + 32 * i) 6 && zeroAt img (88 + 32 * i) 8) &&
    (ss.all fun x => decide (1 ≤ x.type ∧ x.type ≤ 7) && x.off % 8 == 0 && decide (x.off + x.len ≤ size) && !rangesMeet 0 (64 + 32 * n) x.off x.len) &&
    ((ss.zipIdx).all fun x => (ss.zipIdx).all fun y => x.2 == y.2 || !rangesMeet x.1.off x.1.len y.1.off y.1.len) &&
    ([1, 2, 3, 4].all fun t => count t == 1) && (if regions == 0 then count 5 == 0 && count 6 == 0 else count 5 == 1 && count 6 == 1) &&
    decide (count 7 ≤ 1) && (sectionBytes img 1).length == 8 * leAt img 24 4 && (sectionBytes img 2).length == 32 * leAt img 28 2 &&
    (sectionBytes img 3).length % 40 == 0 && (sectionBytes img 4).length == 256 * leAt img 30 2 && (sectionBytes img 6).length == 16 * regions

/-- A word of the code section is a header word. -/
def headerWord (code : List Byte) (w : Nat) : Bool := isHeader (dw (leAt code (8 * w) 8))
def within (first n w : Nat) : Bool := decide (first ≤ w ∧ w < first + n)
/-- The data regions as placed (R285): offset from the placement, offset in the data section, size; and the end. -/
def placeRegions (table : List Byte) (at_ : Nat) : Nat → Nat → List (Nat × Nat × Nat) × Nat
  | _, 0 => ([], at_)
  | i, n + 1 =>
    let align := 2 ^ leAt table (16 * i + 12) 1
    let p := (at_ + align - 1) / align * align
    let size := leAt table (16 * i + 8) 4
    let r := placeRegions table (p + size) (i + 1) n
    ((p, leAt table (16 * i) 8, size) :: r.1, r.2)
def regionsOf (img : List Byte) : List (Nat × Nat × Nat) × Nat := placeRegions (sectionBytes img 6) (8 * leAt img 24 4) 0 (leAt img 32 2)
def regionOk (img : List Byte) (i : Nat) : Bool :=
  let t := (sectionBytes img 6).drop (16 * i)
  decide (leAt t 0 8 + leAt t 8 4 ≤ (sectionBytes img 5).length) && decide (leAt t 12 1 ≤ 12) && zeroAt t 13 3

/-- A kernel entry (R284). -/
def kernelOk (img : List Byte) (i : Nat) : Bool :=
  let k := (sectionBytes img 2).drop (32 * i)
  let code := sectionBytes img 1
  let first := leAt k 0 4
  let n := leAt k 4 4
  let h := leAt k 8 4
  decide (first + n ≤ leAt img 24 4) && decide (0 < n) && headerWord code first && (h == 0xFFFFFFFF || (within first n h && headerWord code h)) &&
    decide (leAt k 14 2 ≤ 128) && decide (40 * (leAt k 12 2 + leAt k 14 2) ≤ (sectionBytes img 3).length) && zeroAt k 20 12
/-- A layout entry. -/
def layoutOk (img : List Byte) (i : Nat) : Bool :=
  let e := (sectionBytes img 3).drop (40 * i)
  let r := leAt e 32 8
  let l : Layout := ⟨BitVec.ofNat 256 (leAt e 0 32)⟩
  r < 2 ^ 12 && (r == 0 || (decide (r ≤ leAt img 32 2) && l.space == 3))
/-- A layout record, relocated to the placement. -/
def layoutAt (img : List Byte) (placement i : Nat) : BitVec 256 :=
  let e := (sectionBytes img 3).drop (40 * i)
  let x := leAt e 0 32
  let r := leAt e 32 8
  if r == 0 then BitVec.ofNat 256 x
  else
    let p := match (regionsOf img).1[r - 1]? with | some q => placement + q.1 | none => 0
    BitVec.ofNat 256 (x / 2 ^ 48 * 2 ^ 48 + (x % 2 ^ 48 + p) % 2 ^ 48)
def kernelAt (img : List Byte) (placement i : Nat) : Kernel :=
  let k := (sectionBytes img 2).drop (32 * i)
  { first := leAt k 0 4
    words := leAt k 4 4
    handler := if leAt k 8 4 == 0xFFFFFFFF then none else some (leAt k 8 4)
    layouts := (List.range (leAt k 14 2)).map fun j => layoutAt img placement (leAt k 12 2 + j) }

/-- A node entry (R285). -/
def nodeBytes (img : List Byte) (i : Nat) : List Byte := (sectionBytes img 4).drop (256 * i)
def rowBytes (n : List Byte) (r : Nat) : List Byte := n.drop (32 + 16 * r)
def rowCount (n : List Byte) : Nat := ((List.range 8).findIdx? fun r => leAt (rowBytes n r) 3 1 != 1).getD 8
def rowAt (n : List Byte) (r : Nat) : Role :=
  let x := rowBytes n r
  ⟨leAt x 0 1, 16 * leAt x 1 1, leAt x 2 1, leAt x 4 4, BitVec.ofNat 32 (leAt x 8 4)⟩
def succAt (n : List Byte) (q : Nat) : Option Nat := let x := leAt n (24 + q) 1; if fld x 7 1 == 1 then some (fld x 0 4) else none
def nodeAt (img : List Byte) (i : Nat) : Node :=
  let n := nodeBytes img i
  { kernel := leAt n 0 2
    groups := leAt n 2 1
    lanes := leAt n 3 1
    producer := leAt n 4 1
    legacy := fld (leAt n 5 1) 0 1 == 1
    shm := leAt n 6 1
    w := fld (leAt n 7 1) 0 4
    h := fld (leAt n 7 1) 4 3
    cap := leAt n 8 4
    coalesce := leAt n 12 2
    timer := leAt n 16 4
    succ := (List.range 8).map (succAt n)
    roles := (List.range (rowCount n)).map (rowAt n) }
def nodeOk (img : List Byte) (i : Nat) : Bool :=
  let b := nodeBytes img i
  let n := nodeAt img i
  let k := kernelAt img 0 n.kernel
  let masks := n.roles.map fun r => r.groups.toNat
  decide (n.kernel < leAt img 28 2) && decide (1 ≤ n.groups ∧ n.groups ≤ 32) && decide (1 ≤ n.lanes ∧ n.lanes ≤ 32) &&
    decide (n.producer < n.groups) && fld (leAt b 5 1) 1 7 == 0 && decide (1 ≤ n.shm ∧ n.shm ≤ 96) && fld (leAt b 7 1) 7 1 == 0 &&
    decide (1 ≤ n.w ∧ n.w ≤ 8) && decide (1 ≤ n.h ∧ n.h ≤ 6) && decide (n.w * n.h ≤ 12) && decide (1 ≤ n.cap ∧ n.cap ≤ 65536) &&
    decide (1 ≤ n.coalesce ∧ n.coalesce ≤ n.groups) && decide (n.timer ≤ 16777215) && zeroAt b 14 2 && zeroAt b 20 4 && zeroAt b 164 92 &&
    ((List.range 8).all fun q => fld (leAt b (24 + q) 1) 4 3 == 0 && (match succAt b q with | some m => decide (m < leAt img 30 2) | none => true)) &&
    decide (0 < n.roles.length) && ((List.range 8).all fun r => decide (r < n.roles.length) || leAt (rowBytes b r) 3 1 == 0) &&
    (n.roles.all fun r => decide (r.kind ≤ 3) && decide (16 ≤ r.vregs ∧ r.vregs ≤ 256) && decide (r.prio ≤ 3) &&
      within k.first k.words r.entry && headerWord (sectionBytes img 1) r.entry) && ((List.range 8).all fun r => zeroAt (rowBytes b r) 12 4) &&
    masks.sum == 2 ^ n.groups - 1 && masks.foldl Nat.lor 0 == 2 ^ n.groups - 1

/-- The checks of R286 on an image that could be read. -/
def imageOk (img : List Byte) (size : Nat) : Bool :=
  headerOk img size && ((List.range (leAt img 28 2)).all (kernelOk img)) && ((List.range ((sectionBytes img 3).length / 40)).all (layoutOk img)) &&
    ((List.range (leAt img 32 2)).all (regionOk img)) && ((List.range (leAt img 30 2)).all (nodeOk img)) && decide ((regionsOf img).2 ≤ leAt img 16 8)
def objectAt (img : List Byte) (vi placement : Nat) : CodeObject :=
  { vi := vi
    placement := placement
    size := leAt img 16 8
    words := leAt img 24 4
    data0 := match (regionsOf img).1 with | p :: _ => placement + p.1 | [] => 0
    kernels := (List.range (leAt img 28 2)).map (kernelAt img placement)
    nodes := (List.range (leAt img 30 2)).map (nodeAt img) }
/-- Bytes written at a range that was found mapped; where it is not, or holds code words, they change nothing (R37). -/
def State.placeBytes (s : State) (vi va : Nat) (bs : List Byte) : State :=
  match s.writeOwn vi va bs with
  | .ok s' => s'
  | .error _ => s
/-- The object is placed, and its tables are recorded under a new handle (R285). -/
def State.placeObject (s : State) (img : List Byte) (vi placement : Nat) : State :=
  let s := s.placeBytes vi placement (sectionBytes img 1)
  let s := (regionsOf img).1.foldl (fun (s : State) r => s.placeBytes vi (placement + r.1) (((sectionBytes img 5).drop r.2.1).take r.2.2)) s
  { s with objects := cellPut s.objects s.nextObject (objectAt img vi placement), nextObject := s.nextObject + 1 }
/-- Reserved fields of a load or unload packet (R282). -/
def loadReserved (bs : List Byte) (unload : Bool) : Bool :=
  fld (leAt bs 1 1) 1 7 != 0 || !zeroAt bs 2 6 || !zeroAt bs 32 32 || !zeroAt bs 80 48 || (unload && !zeroAt bs 16 16)
/-- LOAD_PACKET. -/
def execLoadPacket (vi : Nat) (s : State) : Host.Outcome State Fault Refusal :=
  .next (match s.packet vi with
    | none => s
    | some bs =>
      if leAt bs 0 1 != 2 then s
      else
        let image := leAt bs 8 8
        let size := leAt bs 16 8
        let placement := leAt bs 24 8
        let s := s.consume vi
        if loadReserved bs false then s.answer vi bs (some 1) 0
        else if leAt bs 64 8 % 128 != 0 then s.answer vi bs (some 4) 0
        else match s.readVirt vi image size with
          | .error _ => s.answer vi bs (some 8) 0
          | .ok img =>
            if image % 64 == 0 && placement % 65536 == 0 && decide (64 ≤ size) && imageOk img size && s.mapped vi placement (leAt img 16 8) &&
                !s.overCode vi placement (leAt img 16 8) then
              (s.placeObject img vi placement).answer vi bs none s.nextObject
            else s.answer vi bs (some 8) 0)
/-- UNLOAD_PACKET. -/
def execUnloadPacket (vi : Nat) (s : State) : Host.Outcome State Fault Refusal :=
  .next (match s.packet vi with
    | none => s
    | some bs =>
      if leAt bs 0 1 != 3 then s
      else
        let h := leAt bs 8 8
        let s := s.consume vi
        if loadReserved bs true then s.answer vi bs (some 1) 0
        else if !cellHas s.objects h || (s.object h).vi != vi then s.answer vi bs (some 2) 0
        else if leAt bs 64 8 % 128 != 0 then s.answer vi bs (some 4) 0
        else if s.launches.any fun l => l.2.object == h then s.answer vi bs (some 7) 0
        else ({ s with objects := cellDel s.objects h } : State).answer vi bs none 0)

end Sys2Proof.Machine
end

