-- ==== Sys2Proof/Machine/Lines.lean ====
section
/-! DEFINITION. The register lines of a group (03 R44, 08 R131 to R135): which lines an instruction touches, what they hold as bytes of the
context image, and the open pool of a core's register caches. -/

namespace Sys2Proof.Machine

-- The lines of operands, by 128-byte line of the group section (R44).
def spanL (r n : Nat) : List Nat := (List.range n).map (r + ·)
def sL (r : Nat) : List Nat := [256 + r / 16]
def kLine : Nat := 260
def qLine : Nat := 261
def srLine (n : Nat) : Nat := if n < 8 then 261 else 262
/-- A vector source, of n registers. -/
def laneL (n : Nat) : LaneSrc → List Nat
  | .v r => spanL r.toNat n
  | .s r => sL r.toNat
  | .imm _ => []
def regL (n : Nat) : RegSrc → List Nat
  | .v r => spanL r.toNat n
  | .s r => sL r.toNat
def unL : UnSrc → List Nat
  | .v r => [r.toNat]
  | .imm _ => []
def scalL : ScalSrc → List Nat
  | .s r => sL r.toNat
  | .imm _ => []
def int1L : Int1 → List Nat
  | .lane _ d a => d.toNat :: unL a
  | .scalar d a => sL d.toNat ++ scalL a
def int2L : Int2 → List Nat
  | .lane _ d a b => [d.toNat, a.toNat] ++ laneL 1 b
  | .scalar d a b => sL d.toNat ++ sL a.toNat ++ scalL b
def int3L : Int3 → List Nat
  | .lane _ d a b c => [d.toNat, a.toNat] ++ regL 1 b ++ regL 1 c
  | .scalar d a b c => sL d.toNat ++ sL a.toNat ++ sL b.toNat ++ sL c.toNat
def prmL : PrmForm → List Nat
  | .lane _ d a b c => [d.toNat, a.toNat] ++ regL 1 b ++ regL 1 c
  | .laneImm _ d a _ => [d.toNat, a.toNat]
  | .scalar d a b c => sL d.toNat ++ sL a.toNat ++ sL b.toNat ++ sL c.toNat
  | .scalarImm d a _ => sL d.toNat ++ sL a.toNat
def flt2L : Flt2 → List Nat
  | .lane _ d a b _ => [d.toNat, a.toNat] ++ laneL 1 b
  | .scalar d a b _ => sL d.toNat ++ sL a.toNat ++ scalL b
def fltMML : FltMM → List Nat
  | .lane _ d a b => [d.toNat, a.toNat] ++ laneL 1 b
  | .scalar d a b => sL d.toNat ++ sL a.toNat ++ scalL b
def flt3L : Flt3 → List Nat
  | .lane _ d a b c _ => [d.toNat, a.toNat] ++ regL 1 b ++ regL 1 c
  | .scalar d a b c _ => sL d.toNat ++ sL a.toNat ++ sL b.toNat ++ sL c.toNat
/-- The operands of a lane form, of n registers each. -/
def lane2L (n : Nat) (f : Lane2) : List Nat := spanL f.d.toNat n ++ spanL f.a.toNat n ++ regL n f.b
def lane3L (n : Nat) (f : Lane3) : List Nat := spanL f.d.toNat n ++ spanL f.a.toNat n ++ regL n f.b ++ regL n f.c
def redDstL : RedDst → List Nat
  | .v r => [r.toNat]
  | .s r => sL r.toNat
def redxDstL : RedxDst → List Nat
  | .v d b => [d.toNat, b.toNat]
  | .s d b => sL d.toNat ++ sL b.toNat
def selL : LaneSel → List Nat
  | .lit _ => []
  | .s r => sL r.toNat
def layoutL : LayoutRef → List Nat
  | .handle _ => []
  | .s r => sL r.toNat
def mSlotL : MSlot → List Nat
  | .v r => [r.toNat]
  | .s r => sL r.toNat
  | .lit _ => []
def dSlotL : DSlot → List Nat
  | .lit _ => []
  | .s r => sL r.toNat
def descL (d : Desc) : List Nat := layoutL d.l ++ dSlotL d.c0 ++ dSlotL d.c1 ++ dSlotL d.c2 ++ dSlotL d.c3
def mArgsL (m : MArgs) : List Nat := layoutL m.l ++ mSlotL m.c0 ++ mSlotL m.c1 ++ mSlotL m.c2
def tyN (t : Ty) : Nat := if t.bits == 64 then 2 else 1
def cpyL (f : CpyArgs) : List Nat := layoutL f.bm ++ dSlotL f.slot ++ descL f.dst ++ descL f.src
def stackL (k : RegKind) (a n : Nat) : List Nat :=
  match k with
  | .vector => spanL a n
  | .scalar => (spanL a n).map (256 + · / 16)
  | .set => []
/-- The lines of registers that an instruction touches, but for those of homeLines; each reads k0. -/
def operandLines : Instr → List Nat
  | .br _ r _ => sL r.toNat
  | .call _ | .ret => [srLine 10]
  | .exit _ => [srLine 7]
  | .await d _ => sL d.toNat
  | .tret | .tretSkip | .tretComplete => sL 8 ++ sL 16 ++ [srLine 10]
  | .test _ ty _ _ a b => let n := if ty == .f64 then 2 else 1; spanL a.toNat n ++ laneL n b
  | .bar | .cbar => [srLine 7, srLine 8]
  | .kgatherT .. => [srLine 7]
  | .kcount d _ => sL d.toNat
  | .kmatch _ _ a w => spanL a.toNat (if w then 2 else 1)
  | .kld _ m | .kst _ m => mArgsL m
  | .iadd f | .isub f | .imul f | .imulhiS f | .imulhiN f | .iminS f | .iminN f | .imaxS f | .imaxN f | .and f | .or f | .xor f | .shl f | .shr f
  | .sar f | .rotl f | .bfxS f | .bfxN f => int2L f
  | .imad f | .bfi f | .sel f => int3L f
  | .iabs f | .ineg f | .not f | .popc f | .clz f | .brev f => int1L f
  | .prm f => prmL f
  | .fadd f | .fsub f | .fmul f => flt2L f
  | .ffma f => flt3L f
  | .fmin f | .fmax f => fltMML f
  | .frcp f | .frsq f | .fsqrt f | .fexp2 f | .flog2 f | .fsin f | .fcos f => f.d.toNat :: unL f.a
  | .fscale _ d a b _ => [d.toNat, a.toNat] ++ laneL 1 b
  | .fclass _ d a => d.toNat :: unL a
  | .dadd f | .dmul f | .dmin f | .dmax f => lane2L 2 f
  | .dfma f => lane3L 2 f
  | .hadd2 f | .hmul2 f | .badd2 f => lane2L 1 f
  | .hfma2 f | .bfma2 f | .dot2H16 f | .dot2B16 f | .dot4S8 f | .dot4N8 f | .dot4F8E4 f | .dot4F8E5 f | .dot8S4 f | .dot8N4 f | .dot8F4E2M1 f => lane3L 1 f
  | .cvt _ dst src _ d a _ _ => spanL d.toNat (tyN dst) ++ spanL a.toNat (tyN src)
  | .cvtSr _ _ wide d a b _ _ => d.toNat :: spanL a.toNat (if wide then 2 else 1) ++ regL 1 b
  | .rnd _ d a b => [d.toNat, a.toNat] ++ sL b.toNat
  | .shflIdx _ d a b | .shflUp _ d a b | .shflDown _ d a b | .shflXor _ d a b => [d.toNat, a.toNat] ++ laneL 1 b
  | .shflNx _ d a | .shflPv _ d a => [d.toNat, a.toNat]
  | .bcast _ d a x => [d.toNat, a.toNat] ++ selL x
  | .bcastScalar _ d a x => sL d.toNat ++ [a.toNat] ++ selL x
  | .red _ _ _ d a => redDstL d ++ [a.toNat]
  | .redx _ _ d a => redxDstL d ++ [a.toNat]
  | .scan _ _ _ _ d a => [d.toNat, a.toNat]
  | .ld w _ d m | .ldFe w _ d m | .ldTake w _ d m => spanL d.toNat (if w == .w64 then 2 else 1) ++ mArgsL m
  | .st w _ d m => spanL d.toNat (if w == .w64 then 2 else 1) ++ mArgsL m
  | .atom _ f => let n := if f.wide then 2 else 1; spanL f.d.toNat n ++ spanL f.c.toNat n ++ layoutL f.l ++ mSlotL f.c0 ++ mSlotL f.c1
  | .tld f => srLine 12 :: spanL f.d.toNat f.n.toNat ++ descL f.desc
  | .tred f => srLine 12 :: f.d.toNat :: descL f.desc
  | .ttr f => srLine 12 :: descL f.dst ++ descL f.src
  | .gather f | .scatter f => srLine 12 :: spanL f.d.toNat f.n.toNat ++ spanL f.e.toNat f.n.toNat ++ descL f.desc
  | .lld f | .lst f => srLine 12 :: spanL f.d.toNat f.n.toNat ++ descL f.desc
  | .push k a n | .pop k a n => srLine 10 :: stackL k a.toNat n.toNat
  | .lrec a _ => (spanL a.toNat 4).map (256 + · / 16)
  | .pbarArrive d m => [srLine 7, srLine 8] ++ sL d.toNat ++ mArgsL m
  | .pbarWait d m => sL d.toNat ++ mArgsL m
  | .bmwait _ d bm slot _ => srLine 8 :: sL d.toNat ++ layoutL bm ++ dSlotL slot
  | .cpy f | .cpyx f => cpyL f
  | .cpym f mask => cpyL f ++ sL mask.toNat
  | .gang _ | .rolesw _ => [qLine]
  | .mma f => spanL f.c.toNat 32 ++ descL f.a
  | .mwaitPop d _ => sL d.toNat ++ [qLine]
  | .emit (.lane _ a _) => qLine :: spanL a.toNat 16
  | .emit (.scalar a _) => qLine :: (spanL a.toNat 8).map (256 + · / 16)
  | .rsr (.lane _ d _ n) => [d.toNat, srLine n.toNat]
  | .rsr (.scalar d n) => sL d.toNat ++ [srLine n.toNat]
  | .wsr a n => sL a.toNat ++ [srLine n.toNat]
  | .rmode _ => [srLine 13]
  | .trec a _ => sL a.toNat
  | _ => []

/-- Where entry j of the switchback spill lies (R44). -/
def spillEntryAt (j : Nat) : Nat := 0xC000 + 16 * j
/-- Lines of each home group of the lanes that an instruction touches: the saturation flags of conversions (R64), and the live lanes that exit and kall read. -/
def homeLines : Instr → List Nat
  | .cvt .. | .cvtSr .. => [srLine 8]
  | .exit _ | .kall _ => [srLine 7]
  | _ => []
/-- The B registers of a member's mma (R178). -/
def Group.bLines (g : Group) : Instr → List Nat
  | .mma f => spanL f.b.toNat (bRange (match g.gang with | some x => x.full | none => false) f.n.toNat)
  | _ => []
/-- The agents that a group hosts. -/
def Team.hosted (t : Team) (g : Nat) : List (Nat × Agent) := t.agents.filter fun a => a.2.host == g
/-- The switchback entries of a group, oldest first: those of its own agent, then those of the fragments and trap fragments that it hosts, which run on top of
them in order of formation (how they follow each other is DESIGN CHOICE, log 111). -/
def Team.entries (t : Team) (g : Nat) : List Switch := (t.hosted g).flatMap fun a => a.2.stack.reverse
/-- The lines of the spill stack and of the switchback spill that an instruction of an agent touches (R47, R105): the 8 most recent entries of its group
are held by the hardware. -/
def State.spillLines (s : State) (a : AgentRef) (i : Instr) : List Nat :=
  let x := s.agent a
  let sp := (s.groupOf a).sp.toNat
  let n := ((s.team a.team).entries x.host).length
  let entry (k : Nat) : List Nat := if 8 < n + k then [spillEntryAt (n + k - 9) / 128] else []
  match i with
  | .push k _ n => rangeLines (sp - kindSize k * n.toNat) (kindSize k * n.toNat)
  | .pop k _ n => rangeLines sp (kindSize k * n.toNat)
  | .call _ => rangeLines (sp - 8) 8
  | .ret => rangeLines sp 8
  | .tret | .tretSkip | .tretComplete => rangeLines sp 256
  | .apply .. | .applyT .. => entry 1
  | .apply2 .. => entry 1 ++ entry 2
  | .join => entry 0
  | _ => []

/-- The lines that an instruction of an agent touches, each with its group: vector lines of the home groups of its lanes, others of its host (R45, R135). -/
def State.touched (s : State) (a : AgentRef) (i : Instr) : List (Nat × Nat) :=
  let x := s.agent a
  let l := operandLines i
  (groupsOf x.lanes).flatMap (fun g => (homeLines i ++ l.filter fun r => decide (r < 256)).map fun r => (g, r)) ++
    ((s.groupOf a).bLines i).map (fun r => (x.host, r)) ++ (kLine :: l.filter fun r => decide (256 ≤ r)).map (fun r => (x.host, r)) ++ (s.spillLines a i).map fun r => (x.host, r)
/-- The lines of an agent's next instruction that are not present (R133, R135). -/
def State.absent (s : State) (a : AgentRef) (i : Instr) : List (Nat × Nat) := (s.touched a i).filter fun p => !s.lineHere a.team p.1 p.2

-- What the lines hold (R44).
def Switch.bits (e : Switch) : Nat :=
  e.set.toNat * 2 ^ 64 + e.pc % 2 ^ 32 * 2 ^ 32 + e.kind % 16 * 2 ^ 28 + e.policy.toNat * 2 ^ 26 + e.slot.toNat * 2 ^ 22
def switchOf (n : Nat) : Switch := ⟨dw (fld n 64 64), fld n 32 32, fld n 28 4, BitVec.ofNat 2 (fld n 26 2), BitVec.ofNat 4 (fld n 22 4)⟩
/-- The entries in the switchback spill of a group: all but its 8 most recent ones (R105). -/
def Team.spilled (t : Team) (g : Nat) : List Switch := (t.entries g).take ((t.entries g).length - 8)
/-- sr.core in its privileged form, and sr.tick as reference ticks since reset (R40); the one slot of sr.lane, which differs by lane, holds 0 (DESIGN CHOICE,
log 112). -/
def State.privileged (s : State) (team g n : Nat) : DWord :=
  match n with
  | 4 => dw (s.team team).core
  | 9 => dw s.tick
  | _ => s.specialIn ⟨team, g⟩ g n
/-- The bytes of a group section. -/
def State.sectionImage (s : State) (team g : Nat) : List Byte :=
  let t := s.team team
  let x := t.group g
  let entries := (t.spilled g).take 1024
  ((List.range 256).flatMap fun r => (List.range 32).flatMap fun l => wordBytes (t.vreg (32 * g + l) r).toNat 4) ++
    ((List.range 64).flatMap fun i => wordBytes (cellGet 0 x.s i).toNat 8) ++
    ((List.range 16).flatMap fun i => wordBytes (if i == 0 then t.k0Desc g else cellGet 0 x.k i).toNat 8) ++
    ((List.range 8).flatMap fun i => wordBytes (cellGet 0 x.q i).toNat 8) ++
    ((List.range 14).flatMap fun n => wordBytes (s.privileged team g n).toNat 8) ++ List.replicate 208 0 ++ readBytes x.spill 0x8400 0x3C00 ++
    (entries.flatMap fun e => wordBytes e.bits 16) ++ List.replicate (16 * (1024 - entries.length)) 0
/-- Lanes of a set image that its descriptors do not count: those that have left the entry set of an open region in trap fragments (R117). -/
def Team.struckOf (t : Team) (h : Nat) : LaneSet :=
  match t.regions.find? fun r => r.2.handles.contains h with
  | some r =>
    let held := r.2.frags.foldl (fun x f => x ||| (t.agent f).lanes) 0
    t.agents.foldl (fun x p => match p.2.kind with
      | .trap _ _ => x ||| (p.2.lanes &&& ~~~held)
      | _ => x) 0
  | none => 0
/-- A piece of 128 bytes of the layout table and of the set area after it. -/
def tablePiece (t : Team) (j : Nat) : List Byte :=
  if j < 32 then (List.range 4).flatMap fun i => wordBytes (cellGet 0 t.layouts (4 * j + i)).toNat 32
  else wordBytes (cellGet 0 t.handles (j - 32) &&& ~~~(t.struckOf (j - 32))).toNat 128
/-- The layout table and the set area. -/
def tableImage (t : Team) : List Byte := (List.range 4128).flatMap (tablePiece t)
/-- A line of a group section. -/
def State.lineImage (s : State) (team g line : Nat) : List Byte := ((s.sectionImage team g).drop (128 * line)).take 128

-- The open pool (R132, R134).
/-- A line is dirty when the image does not hold it: it was never written back, or holds other bytes (a line written again with the bytes it had counts
as clean: DESIGN CHOICE, log 113). Every line of an evicted team is clean. -/
def State.dirty (s : State) (team off : Nat) (bs : List Byte) : Bool :=
  let t := s.team team
  t.status != .evicted && (!t.linesSaved || match s.readVirt (s.viOf t) (s.imageBase t + off) bs.length with
    | .ok old => old != bs
    | .error _ => true)
/-- Bytes of a team's image are written back; a failed access kills the launch (R317). -/
def State.saveAt (s : State) (team off : Nat) (bs : List Byte) : State :=
  let t := s.team team
  match s.devWrite (s.viOf t) (s.imageBase t + off) bs with
  | .ok s' => s'
  | .error _ => s.killDevice t.launch
/-- A line is written back if it is dirty. -/
def State.cleanLine (s : State) (team g line : Nat) : State :=
  let bs := s.lineImage team g line
  if s.dirty team (lineAt g line) bs then s.saveAt team (lineAt g line) bs else s
/-- The lines that a quarter's open pool has room for: what the reservations of its resident groups leave of 128 KiB (R129, R131, R132). -/
def State.poolRoom (s : State) (core q : Nat) : Nat :=
  1024 - (((s.teams.filter fun t => t.2.core == core && t.2.status == .resident).flatMap fun t =>
    (t.2.groups.filter fun g => g.1 % 4 == q).map fun g => g.2.placed + 8)).sum
/-- The lines in the open pool of a quarter; those of a team that has ended are no longer there. -/
def State.pool (s : State) (core q : Nat) : List PoolLine :=
  (s.core core).pool.filter fun p => p.group % 4 == q && cellHas s.teams p.team && (s.team p.team).status != .ended
/-- The line that a quarter pushes out: of a team that is not resident, least recently used first, and otherwise a spill line. -/
def State.poolVictim (s : State) (core q : Nat) : Option PoolLine :=
  let l := (s.pool core q).reverse
  match l.find? fun p => (s.team p.team).status != .resident with
  | some p => some p
  | none => l.head?
/-- Lines are pushed out, and written back where dirty, until the open pool of a quarter has room for n more. -/
def State.pushOut (s : State) (core q n : Nat) : Nat → State
  | 0 => s
  | fuel + 1 =>
    if (s.pool core q).length + n ≤ s.poolRoom core q then s
    else match s.poolVictim core q with
      | none => s
      | some p =>
        ((s.cleanLine p.team p.group p.line).modCore core fun k => { k with pool := k.pool.filter (· != p) }).pushOut core q n fuel
/-- Every quarter of a core is within its room. -/
def State.trimPool (s : State) (core : Nat) : State := (List.range 4).foldl (fun (s : State) q => s.pushOut core q 0 16384) s
/-- The lines of the open pool that an instruction uses are its most recently used ones; lines that the device has touched meanwhile (touchLine) have pushed
out others. -/
def State.useLines (s : State) (a : AgentRef) (i : Instr) : State :=
  let host := (s.agent a).host
  let l := (s.spillLines a i).map fun r => PoolLine.mk a.team host r
  let s := s.trimPool (s.team a.team).core
  if l.isEmpty then s
  else s.modCore (s.team a.team).core fun k => { k with pool := (k.pool.filter fun p => l.contains p) ++ k.pool.filter fun p => !l.contains p }
/-- The present lines of a team stay in the open pool when it stops: the reserved ones, used more recently than what teams that stopped before have left there,
with the spill lines that are there (R132, R134). -/
def State.poolTeam (s : State) (team : Nat) (present : List (Nat × Nat)) : State :=
  let core := (s.team team).core
  (s.modCore core fun k => { k with pool := (present.map fun p => PoolLine.mk team p.1 p.2) ++ k.pool }).trimPool core

-- A return (R46, R133, R134).
/-- A value with one of its bytes replaced. -/
def setByte {w : Nat} (x : BitVec w) (i : Nat) (b : Byte) : BitVec w :=
  (x &&& ~~~((255 : BitVec w) <<< (8 * i))) ||| ((b.setWidth w) <<< (8 * i))
/-- The bits of a byte of a group section that are not reserved (R4, R40): registers 0 to 13 in their widths, and nothing from 0x8330 to 0x83FF. -/
def imageBits (o : Nat) : Byte :=
  if o < 0x82C0 ∨ 0x8400 ≤ o then 0xFF
  else if 0x8330 ≤ o then 0
  else
    let w := ([0, 5, 32, 4, 9, 4, 32, 32, 2, 64, 16, 16, 64, 2][(o - 0x82C0) / 8]?).getD 0
    BitVec.ofNat 8 (2 ^ min 8 (w - 8 * (o % 8)) - 1)
/-- A byte of a group section, as its registers take it (R46); live lanes lie within the team's shape (R125). The slots of the read-only specials 1 to 6, 9 and 11
take nothing (DESIGN CHOICE, log 131). -/
def Group.setImage (x : Group) (lanesN o : Nat) (b : Byte) : Group :=
  if o < 0x8000 then
    if o / 128 < x.placed then
      { x with v := cellSet 0 x.v (32 * (o / 128) + o % 128 / 4) (setByte (cellGet 0 x.v (32 * (o / 128) + o % 128 / 4)) (o % 4) b) }
    else x
  else if o < 0x8200 then { x with s := cellSet 0 x.s ((o - 0x8000) / 8) (setByte (cellGet 0 x.s ((o - 0x8000) / 8)) (o % 8) b) }
  else if o < 0x8208 then x
  else if o < 0x8280 then { x with k := cellSet 0 x.k ((o - 0x8200) / 8) (setByte (cellGet 0 x.k ((o - 0x8200) / 8)) (o % 8) b) }
  else if o < 0x82C0 then { x with q := cellSet 0 x.q ((o - 0x8280) / 8) (setByte (cellGet 0 x.q ((o - 0x8280) / 8)) (o % 8) b) }
  else if o < 0x8330 then
    let i := o % 8
    match (o - 0x82C0) / 8 with
    | 7 => { x with live := setByte x.live i b &&& BitVec.ofNat 32 (2 ^ lanesN - 1) }
    | 8 => if i == 0 then { x with sat := b.setWidth 2 } else x
    | 10 => { x with sp := setByte x.sp i b }
    | 12 => { x with ms := setByte x.ms i b }
    | 13 => if i == 0 then { x with rmode := b.setWidth 2 } else x
    | _ => x
  else if 0x8400 ≤ o ∧ o < 0xC000 then { x with spill := writeByte x.spill o b }
  else x
/-- A byte of entry j of a group, oldest first. -/
def Team.setSwitch (t : Team) (j i : Nat) (b : Byte) : List (Nat × Agent) → Team
  | [] => t
  | a :: rest =>
    let n := a.2.stack.length
    if j < n then t.modAgent a.1 fun x =>
      { x with stack := x.stack.modify (x.stack.length - 1 - j) fun e => switchOf (setByte (BitVec.ofNat 128 e.bits) i b).toNat }
    else t.setSwitch (j - n) i b rest
/-- The bits of a group's local k0 that stand for lanes in trap fragments: its image does not show them (R117). -/
def Team.struckBits (t : Team) (g : Nat) : DWord :=
  let d := (t.agent g).k0
  if isTeamForm d then 0 else dw (groupPart (t.away g) (bitsOf d 32 5))
/-- A byte of a team's image, as the team takes it; the header and the save area are the device's own (R44, R45). -/
def Team.setImage (t : Team) (o : Nat) (b : Byte) : Team :=
  if 0x1000 ≤ o ∧ o < 0x2000 then
    let h := (o - 0x1000) / 32
    { t with layouts := cellSet 0 t.layouts h (setByte (cellGet 0 t.layouts h) (o % 32) b) }
  else if 0x2000 ≤ o ∧ o < 0x82000 then
    let h := (o - 0x2000) / 128
    let old := cellGet 0 t.handles h
    if cellHas t.handles h then { t with handles := cellPut t.handles h (setByte old (o % 128) b ||| (old &&& t.struckOf h)) } else t
  else if 0x82000 ≤ o ∧ o < 0x82000 + 0x10000 * t.groupsN then
    let g := (o - 0x82000) / 0x10000
    let i := (o - 0x82000) % 0x10000
    if 0x8200 ≤ i ∧ i < 0x8208 then t.modAgent g fun x => { x with k0 := setByte x.k0 (i % 8) b ||| (x.k0 &&& t.struckBits g) }
    else if 0xC000 ≤ i then
      if (i - 0xC000) / 16 + 8 < (t.entries g).length then t.setSwitch ((i - 0xC000) / 16) (i % 16) b (t.hosted g) else t
    else t.modGroup g fun x => x.setImage t.lanesN i b
  else t
def Team.setImages (t : Team) (o : Nat) : List Byte → Team
  | [] => t
  | b :: bs => (t.setImage o b).setImages (o + 1) bs
/-- The sets and tables of an evicted team are what its image holds (R46, R134); an image that does not translate kills the launch (R317). -/
def State.loadTables (s : State) (team : Nat) : State :=
  let t := s.team team
  match s.devRead (s.viOf t) (s.imageBase t + 0x1000) 0x81000 with
  | .ok (s, bs) => s.setTeam team (t.setImages 0x1000 bs)
  | .error _ => s.killDevice t.launch
/-- A line of its registers is what the image holds; one that does not translate is met when it is filled (fillLine). -/
def State.loadLine (s : State) (team off : Nat) : State :=
  let t := s.team team
  match s.readVirt (s.viOf t) (s.imageBase t + off) 128 with
  | .ok bs => s.setTeam team (t.setImages off bs)
  | .error _ => s
/-- The registers, sets and tables of an evicted team are what its image holds (R46, R134). -/
def State.loadImage (s : State) (team : Nat) : State :=
  (List.range (512 * (s.team team).groupsN)).foldl (fun (s : State) i => s.loadLine team (0x82000 + 128 * i)) (s.loadTables team)

end Sys2Proof.Machine
end

