-- ==== Sys2Proof/Machine/Placement.lean ====
section
/-! DEFINITION. Bins and readiness (17 R289, R290), the formation of teams (R291), what a core has room for (08 R129, R131), and placement
and return (17 R292, R293, 14 R224, R226, 16 R263, R266). -/

namespace Sys2Proof.Machine

-- Bins (R289, R290).
/-- A launch that still runs. -/
def State.lives (s : State) (li : Nat) : Bool := cellHas s.launches li && (s.launch li).kill == none
def Launch.occupancy (l : Launch) (node : Nat) : Nat := (l.bin node).recs.length
/-- Entry record i. -/
def entryRecord (l : Launch) (i : Nat) : BitVec 512 := BitVec.ofNat 512 (i + l.grid * 2 ^ 32 + l.tag.toNat * 2 ^ 64 + l.args.toNat * 2 ^ 128)
/-- The next entry record enters the entry bin when it has room. -/
def State.enterRecord (s : State) (li : Nat) : State :=
  let l := s.launch li
  if decide (l.nextEntry < l.grid) && decide (l.occupancy l.entry < ((s.object l.object).node l.entry).cap) then
    (s.appendRec li l.entry ⟨entryRecord l l.nextEntry, s.tick, [], none⟩).modLaunch li fun l => { l with nextEntry := l.nextEntry + 1 }
  else s
def execEntryRecordEnter (launch : Nat) (s : State) : Host.Outcome State Fault Refusal :=
  .next (if s.lives launch && !(s.launch launch).determinate then s.enterRecord launch else s)

/-- The node has a live team. -/
def State.nodeBusy (s : State) (li node : Nat) : Bool := s.teams.any fun t => t.2.launch == li && t.2.node == node && t.2.status != .ended
/-- The node is drained. -/
def State.nodeDrained (s : State) (li node : Nat) : Bool :=
  let l := s.launch li
  decide (l.grid ≤ l.nextEntry) && (s.object l.object).nodes.zipIdx.all fun m =>
    m.2 == node || !(m.1.succ.contains (some node)) || (l.occupancy m.2 == 0 && !s.nodeBusy li m.2)
/-- The oldest record of a bin has waited its timer; a determinate launch ignores timers (R304). -/
def State.timerPassed (s : State) (li node : Nat) : Bool :=
  let l := s.launch li
  let t := ((s.object l.object).node node).timer
  match (l.bin node).recs with
  | r :: _ => t != 0 && !l.determinate && decide (t ≤ s.tick - r.since)
  | [] => false
def State.nodeReady (s : State) (li node : Nat) : Bool :=
  let l := s.launch li
  let n := (s.object l.object).node node
  l.occupancy node != 0 && (decide (n.coalesce ≤ l.occupancy node) || s.timerPassed li node || s.nodeDrained li node)
/-- Some successor bin is full. -/
def State.nodeHeld (s : State) (li node : Nat) : Bool :=
  let l := s.launch li
  let o := s.object l.object
  (o.node node).succ.any fun x => match x with | some m => decide ((o.node m).cap ≤ l.occupancy m) | none => false

-- Cores of a partition.
/-- The physical core of a logical one: the remap table's, or the grid's (R303). -/
def Partition.physical (p : Partition) (logical : Nat) : Nat := cellGet ((p.grid[logical]?).getD 0) p.remap logical
/-- The core whose place a cluster of a launch takes: in the virtual grid for a determinate launch, which a remap leaves as it is (R303), and
otherwise the physical one. -/
def Partition.seat (p : Partition) (determinate : Bool) (logical : Nat) : Nat := if determinate then (p.grid[logical]?).getD 0 else p.physical logical
/-- The logical core of a physical one. -/
def Partition.logicalOf (p : Partition) (core : Nat) : Option Nat := (List.range p.grid.length).find? fun i => p.physical i == core
/-- The logical cores that a launch may use; another launch than a determinate one takes a shared physical core once. -/
def Partition.cores (p : Partition) (determinate : Bool) : List Nat :=
  (List.range p.grid.length).filter fun i => determinate || p.logicalOf (p.physical i) == some i
/-- Logical cores from a cursor on, in order, and around. -/
def fromCursor (l : List Nat) (cursor : Nat) : List Nat := l.filter (fun x => decide (cursor ≤ x)) ++ l.filter fun x => decide (x < cursor)
def coreLayer (c : Nat) : Nat := fld c 6 1
def coreX (c : Nat) : Nat := fld c 3 3
def coreY (c : Nat) : Nat := fld c 0 3
def coreAt (tower layer x y : Nat) : Nat := tower * 128 + layer * 64 + x * 8 + y
/-- The logical cores of a rectangle by position, when every one belongs to the partition (R223). -/
def Partition.rectangle (p : Partition) (determinate : Bool) (origin w h : Nat) : Option (List Nat) :=
  let c := p.seat determinate origin
  let l := (List.range h).flatMap fun j => (List.range w).map fun i =>
    if coreX c + i < 8 ∧ coreY c + j < 6 then
      (p.cores determinate).find? fun k => p.seat determinate k == coreAt (coreTower c) (coreLayer c) (coreX c + i) (coreY c + j)
    else none
  if w == 1 && h == 1 then some [origin]
  else if l.all (·.isSome) then some (l.filterMap fun x => x) else none

-- Room (R129, R131).
/-- What a team takes of a core: the starting budgets of its groups, shared bytes, barrier slots. -/
structure Need where
  groups : List Nat
  shared : Nat
  barriers : Nat
def State.needOf (s : State) (t : Team) : Need :=
  let c := s.cluster t.cluster
  ⟨t.groups.map (·.2.placed), t.sharedSize, if 1 < c.w * c.h then 2 else 1⟩
/-- Shared memory that a team which is no longer resident still holds (R220, R320). -/
def Team.heldShared (t : Team) : Nat :=
  match t.status with
  | .draining => t.sharedSize
  | .stopped => if t.sharedSaved then 0 else t.sharedSize
  | _ => 0
def Need.onQuarter (n : Need) (q : Nat) : List Nat := (n.groups.zipIdx.filter fun p => p.2 % 4 == q).map (·.1)
/-- Needs fit together on one core beside held shared memory. -/
def needsFit (needs : List Need) (held : Nat) : Bool :=
  decide (needs.length ≤ 8) && decide ((needs.map fun n => n.groups.length).sum ≤ 64) &&
    ((List.range 4).all fun q =>
      let gs := needs.flatMap fun n => n.onQuarter q
      decide (gs.length ≤ 16) && decide ((gs.map fun v => 128 * v + 1024).sum ≤ 126976)) &&
    decide ((needs.map (·.shared)).sum + held ≤ 384 * 1024) && decide ((needs.map (·.barriers)).sum ≤ 12)
/-- The teams that share the room of a core with a team of a launch there (R128, R129): those of its core. A physical core that stands for several logical
cores runs them in turn, each with the room of a core for determinate launches, which no remap is to change but in timing (R303; DEDUCED, log 108). -/
def State.onCore (s : State) (p logical : Nat) (determinate : Bool) : List (Nat × Team) :=
  s.teams.filter fun t => s.partitionOf t.2 == p && (t.2.logical == logical ||
    (t.2.core == (s.partition p).physical logical && !(determinate && (s.launch t.2.launch).determinate)))
/-- Arrays that are degraded keep teams off a core and a column (R318). -/
def State.coreDegraded (s : State) (core : Nat) : Bool :=
  s.banks.any fun b => b.2.degraded && match b.1 with
    | .shared c | .registers c _ => c == core
    | _ => false
def State.columnDegraded (s : State) (tower col : Nat) : Bool := s.banks.any fun b => b.2.degraded && b.1 == .column tower col
/-- R129 holds for a need on a core, without the teams of a list, and beside a team that the stalled-residency rule brings there (R298, log 109); the
compute layers have not been stopped (R333). -/
def State.fits (s : State) (p logical : Nat) (n : Need) (without : List Nat) (determinate : Bool) : Bool :=
  let here := (s.onCore p logical determinate).filter fun t => !without.contains t.1
  let phys := (s.partition p).physical logical
  let coming : List Need := match (s.core phys).swap with
    | some t => if (s.team t.1).status == .evicted && !without.contains t.1 then [s.needOf (s.team t.1)] else []
    | none => []
  !s.coreDegraded phys && s.boot != .stopped &&
    needsFit (n :: coming ++ (here.filter fun t => t.2.status == .resident).map fun t => s.needOf t.2) (here.map fun t => t.2.heldShared).sum

/-- A column is bound or awaits the bytes of a move (R226, R230). -/
def Cluster.holds (c : Cluster) (tower col : Nat) : Bool :=
  c.tower == tower && c.binding.any fun e => (e.state != 0 && e.col == col) || (e.state == 2 && e.target == col)
/-- A move under way takes bytes from a column or to it. -/
def Tower.moves (t : Tower) (col : Nat) : Bool := match t.move with
  | some (p, q, _) => p == col || q == col
  | none => false
/-- A launch may bind the columns above cores (R226); neither column of a move under way is bound anew (DESIGN CHOICE, log 110). -/
def State.columnsFree (s : State) (li : Nat) (cores : List Nat) : Bool :=
  cores.all fun c =>
    let col := 8 * coreY c + coreX c
    !s.columnDegraded (coreTower c) col && !(s.tower (coreTower c)).moves col &&
      s.clusters.all fun x => x.2.launch == li || !x.2.holds (coreTower c) col

/-- The first rectangle with room, from candidate origins in order: each position's need, none where no team stands any more. -/
def State.findPlace (s : State) (p : Nat) (determinate : Bool) (origins : List Nat) (w h : Nat) (needs : List (Option Need)) (without : List Nat)
    (ok : List Nat → Bool) : Option (List Nat) :=
  let part := s.partition p
  origins.findSome? fun o => match part.rectangle determinate o w h with
    | some r =>
      let room (x : Nat × Option Need) : Bool := match x.2 with
        | some n => s.fits p x.1 n without determinate
        | none => true
      if (r.zip needs).all room && ok r then some r else none
    | none => none
/-- A free cluster slot of a tower (R263). -/
def Tower.freeSlot (t : Tower) : Option Nat := (List.range 96).find? fun k => !t.slots.contains k

-- Forming teams (R285, R288, R289, R291).
/-- The row a group of a team starts in. -/
def Node.rowOf (n : Node) (recs : List Rec) (g : Nat) : Nat :=
  if n.legacy then
    let r := match recs[g]? with | some x => bitsOf x.bytes (448 + 2 * g) 2 | none => 0
    if r < n.roles.length then r else 0
  else (n.roles.findIdx? fun r => r.groups.getLsbD g).getD 0
def Node.startRole (n : Node) (recs : List Rec) (g : Nat) : Role := (n.roles[n.rowOf recs g]?).getD Role.blank
def Node.need (n : Node) (recs : List Rec) : Need :=
  ⟨(List.range n.groups).map fun g => (n.startRole recs g).vregs, 4096 * n.shm, if 1 < n.w * n.h then 2 else 1⟩
/-- The record of a group, or the absent record. -/
def recordOf (recs : List Rec) (g : Nat) : BitVec 512 := match recs[g]? with | some r => r.bytes | none => BitVec.allOnes 512
/-- A group at its team's start (R38, R53). -/
def startGroup (o : CodeObject) (l : Launch) (n : Node) (recs : List Rec) (ctx g : Nat) (clock : BitVec 20) : Group :=
  let r := n.startRole recs g
  let rec_ := recordOf recs g
  let scalars : List (Nat × DWord) := ((List.range 8).map fun i => (i, dw (bitsOf rec_ (64 * i) 64))) ++
    [(56, dw o.placement), (57, dw o.data0), (58, dw o.size), (59, dw l.number.toNat), (60, dw ctx)]
  { Group.blank with
    s := scalars.foldl (fun m p => cellSet 0 m p.1 p.2) []
    k := (List.range 15).foldl (fun m i => cellSet 0 m (i + 1) (localDesc g 0)) []
    q := n.succ.zipIdx.foldl (fun m p => match p.1 with | some x => cellSet 0 m p.2 (qBin x) | none => m) []
    live := BitVec.ofNat 32 (2 ^ n.lanes - 1)
    rmode := l.mode
    row := n.rowOf recs g
    budget := r.vregs
    placed := r.vregs
    priority := r.prio
    clock := clock }
/-- The agent of a group at its team's start. -/
def startAgent (n : Node) (g : Nat) (view : View) : Agent :=
  { Agent.blank with
    host := g
    lanes := BitVec.ofNat 1024 ((2 ^ n.lanes - 1) * 2 ^ (32 * g))
    k0 := localDesc g (2 ^ n.lanes - 1)
    view := view }
/-- The team slot that a starting or returning team takes: the lowest free one (DESIGN CHOICE, log 114). -/
def State.freeTeamSlot (s : State) (p logical : Nat) (determinate : Bool) : Nat :=
  ((List.range 8).find? fun i => !((s.onCore p logical determinate).any fun t => t.2.status == .resident && t.2.teamSlot == i)).getD 0
/-- A team formed from records, as member of a cluster on a core. -/
def State.startTeam (s : State) (li node c position logical : Nat) (recs : List Rec) : State :=
  let l := s.launch li
  let o := s.object l.object
  let n := o.node node
  let cl := s.cluster c
  let part := s.partition (s.vi l.vi).partition
  let core := part.physical logical
  let ctx := ((List.range l.slots).find? fun i => !l.usedSlots.contains i).getD 0
  let id := s.nextTeam
  let floor (g : Nat) : BitVec 20 × BitVec 20 := match cl.slot with
    | some k => cellGet (0, 0) s.floors (cl.tower * 2 ^ 16 + k * 2 ^ 9 + position * 2 ^ 5 + g)
    | none => (0, 0)
  let loc : Loc := ⟨s.module, cl.tower, c, id⟩
  let view := recs.foldl (fun v r => mergeSnaps v r.snaps loc 3) 0
  let teamSlot := s.freeTeamSlot (s.vi l.vi).partition logical l.determinate
  let kernel := (o.kernels[n.kernel]?).getD Kernel.blank
  let t : Team :=
    { Team.blank with
      launch := li
      node := node
      index := BitVec.ofNat 32 (l.bin node).formed
      gen := BitVec.ofNat 32 l.formed
      groupsN := n.groups
      lanesN := n.lanes
      cluster := c
      position := position
      ctxSlot := ctx
      status := .resident
      core := core
      logical := logical
      teamSlot := teamSlot
      since := s.tick
      groups := (List.range n.groups).map fun g => (g, { startGroup o l n recs ctx g ((floor g).1 + 1) with issuedAt := s.tick })
      agents := (List.range n.groups).map fun g => (g, startAgent n g view)
      layouts := kernel.layouts.zipIdx.foldl (fun m p => cellSet 0 m p.2 p.1) []
      sharedSize := 4096 * n.shm
      tclock := (List.range n.groups).foldl (fun m g => if m.toNat ≤ (floor g).2.toNat then (floor g).2 + 1 else m) 1 }
  let s := { (s.setTeam id t) with nextTeam := id + 1 }
  let s := s.modLaunch li fun l =>
    ({ l with usedSlots := l.usedSlots ++ [ctx], formed := l.formed + 1 } : Launch).setBin node
      { l.bin node with recs := (l.bin node).recs.drop recs.length, formed := (l.bin node).formed + 1 }
  let s := s.modCluster c fun x => { x with teams := x.teams ++ [id] }
  (List.range n.groups).foldl (fun (s : State) g => s.enterBlock ⟨id, g⟩ (n.startRole recs g).entry) s
/-- The groups of a new team acquire from the makers of its records, at module scope (R265, R291). -/
def State.acquireRecs (s : State) (team : Nat) (recs : List Rec) : State :=
  let ids := recs.filterMap fun r => match r.maker with
    | some m => if cellHas s.teams m.1 then some m.2 else none
    | none => none
  (s.team team).groups.foldl (fun (s : State) g => s.acquireAll team g.1 3 ids) s
/-- A core gets a team: the stall count restarts, and the core leaves sleep (R298, R338). -/
def State.wake (s : State) (core : Nat) : State :=
  let asleep := (s.core core).asleep
  let s := s.modCore core fun k => { k with stall := 0, asleep := false }
  if asleep then s.traceCore core 4 (wordBytes 0 1) else s

/-- The cores of a cluster that starts or returns: awake, at the clock of their clusters (R141), with the room of its open pools as the reservations leave it. -/
def State.readyCores (s : State) (cores : List Nat) : State :=
  cores.foldl (fun (s : State) k => ((s.wake k).retune k).trimPool k) s

/-- The records that each team of a cluster would take, in position order. -/
def splitRecs (coalesce : Nat) : Nat → List Rec → List (List Rec)
  | 0, _ => []
  | n + 1, l => l.take coalesce :: splitRecs coalesce n (l.drop coalesce)
/-- The device reads the records a team takes (R46). -/
def State.readRecs (s : State) (li node m : Nat) : State :=
  let l := s.launch li
  let o := s.object l.object
  let b := l.bin node
  (List.range m).foldl (fun (s : State) i => match s.devRead l.vi (binAddr l o node (b.appended - b.recs.length + i)) 64 with
    | .ok r => r.1
    | .error _ => s.killDevice li) s
/-- A cluster of a node starts on logical cores (R224). -/
def State.startCluster (s : State) (li node : Nat) (place : List Nat) : State :=
  let l := s.launch li
  let n := (s.object l.object).node node
  let part := s.partition (s.vi l.vi).partition
  let cores := place.map part.physical
  let seats := place.map (part.seat l.determinate)
  let c0 := seats.headD 0
  let slot := if l.mode == 0 then none else (s.tower (coreTower c0)).freeSlot
  let c := s.nextCluster
  let x : Cluster :=
    { Cluster.blank with
      launch := li
      node := node
      w := n.w
      h := n.h
      tower := coreTower c0
      layer := coreLayer c0
      x0 := coreX c0
      y0 := coreY c0
      slot := slot
      epoch := 1
      binding := if l.overpass then seats.map fun k => ⟨8 * coreY k + coreX k, 0, 1⟩ else []
      offsets := List.replicate (n.w * n.h) 0 }
  let s := { (s.setCluster c x) with nextCluster := c + 1 }
  let s := match slot with
    | some k => s.modTower (coreTower c0) fun t => { t with slots := t.slots ++ [k] }
    | none => s
  let takes := splitRecs n.coalesce (n.w * n.h) (l.bin node).recs
  let s := s.readRecs li node (takes.map (·.length)).sum
  let s := (place.zip takes).zipIdx.foldl (fun (s : State) p =>
    let id := s.nextTeam
    (s.startTeam li node c p.2 p.1.1 p.1.2).acquireRecs id p.1.2) s
  s.readyCores cores

/-- Ready, unheld nodes, greatest fill first, the lower index on a tie (R293). -/
def State.readyNodes (s : State) (li : Nat) : List Nat :=
  let l := s.launch li
  let o := s.object l.object
  let ns := (List.range o.nodes.length).filter fun n => s.nodeReady li n && !s.nodeHeld li n
  sortBy (fun a b => decide (l.occupancy b * (o.node a).cap < l.occupancy a * (o.node b).cap ∨
    (l.occupancy b * (o.node a).cap = l.occupancy a * (o.node b).cap ∧ a ≤ b))) ns
/-- Where the next cluster of a node can start: context slots, a cluster slot, columns and room (R226, R263, R292, R293). -/
def State.placeFor (s : State) (li node : Nat) : Option (List Nat) :=
  let l := s.launch li
  let n := (s.object l.object).node node
  let p := (s.vi l.vi).partition
  let needs := (splitRecs n.coalesce (n.w * n.h) (l.bin node).recs).map fun r => some (n.need r)
  if l.slots < l.usedSlots.length + n.w * n.h then none
  else s.findPlace p l.determinate (fromCursor ((s.partition p).cores l.determinate) l.cursor) n.w n.h needs [] fun place =>
    let seats := place.map ((s.partition p).seat l.determinate)
    (l.mode == 0 || (s.tower (coreTower (seats.headD 0))).freeSlot.isSome) && (!l.overpass || s.columnsFree li seats)
/-- Steps 2 and 3 of R293: the first ready node whose next team fits. -/
def State.placeNew (s : State) (li : Nat) : State :=
  match (s.readyNodes li).findSome? fun n => (s.placeFor li n).map fun r => (n, r) with
  | some (n, r) =>
    let cores := (s.partition (s.vi (s.launch li).vi).partition).grid.length
    (s.startCluster li n r).modLaunch li fun l => { l with cursor := (r.foldl max 0 + 1) % max cores 1 }
  | none => s

-- Returns (R219, R224, R293).
/-- Clusters of a launch that may return: every member evicted or ended, none held or escalated; none before it is evicted (R323). -/
def State.mayReturn (s : State) (x : Cluster) : Bool :=
  (x.teams.any fun t => (s.team t).status == .evicted) &&
    x.teams.all fun t => (s.team t).status == .ended || ((s.team t).status == .evicted && !(s.team t).held && !(s.team t).escalated)
def State.evictedSince (s : State) (x : Cluster) : Nat := ((x.teams.filter fun t => (s.team t).status == .evicted).map fun t => (s.team t).evictedAt).foldl min (s.tick + 1)
/-- The reserved lines of a group (R131). -/
def reservedLines (placed : Nat) : List Nat := List.range placed ++ (List.range 8).map fun i => 256 + i
/-- An evicted team is resident again on a core. It has what its image holds; its reserved lines that the core's caches no longer hold are missing, and
its shared memory is to be written back (R46, R133, R320). Its copies rejoin their queues with deficit 0 (R219), and its commands are
accepted again (R199). -/
def State.returnTeam (s : State) (team logical : Nat) : State :=
  let t := s.team team
  let p := s.partitionOf t
  let core := (s.partition p).physical logical
  let teamSlot := s.freeTeamSlot p logical (s.launch t.launch).determinate
  let copies := sortBy (fun (a b : Nat × Copy) => decide (a.2.order ≤ b.2.order)) (t.ownCopies.filter fun c => c.2.accepted && decide (c.2.started < c.2.chunks))
  let s := s.loadImage team
  let here := (s.core t.core).pool.filter fun l => l.team == team
  let missing (g : Nat) (x : Group) : List Nat :=
    if core == t.core then (reservedLines x.placed).filter fun n => !here.contains ⟨team, g, n⟩ else reservedLines x.placed
  let s := s.modCore t.core fun k => { k with pool := k.pool.filter fun l => l.team != team || (core == t.core && decide (264 ≤ l.line)) }
  let s := s.modTeam team fun t =>
    { t with
      status := .resident
      core := core
      logical := logical
      teamSlot := teamSlot
      since := s.tick
      writeBack := true
      groups := t.groups.map fun g => (g.1, { g.2 with missing := missing g.1 g.2, issuedAt := s.tick })
      cmds := t.cmds.map fun (c : Cmd) => if c.state == .stopped && c.fault.isNone then { c with state := .waiting } else c }
  let s := s.modCore core fun k =>
    { k with
      queue := k.queue ++ copies.map fun c => (team, c.1)
      deficits := copies.foldl (fun d c => cellDel d c.2.cls.toNat) k.deficits
      swap := match k.swap with
        | some x => if x.1 == team then none else some x
        | none => none }
  s.acceptAllAgain team 64
/-- A cluster returns on logical cores, by position; its boost offsets are 0 (R141). -/
def State.returnCluster (s : State) (c : Nat) (place : List Nat) : State :=
  let x := s.cluster c
  let p := match x.teams with | t :: _ => s.partitionOf (s.team t) | [] => 0
  let c0 := (s.partition p).seat (s.launch x.launch).determinate (place.headD 0)
  let s := s.modCluster c fun y =>
    { y with layer := coreLayer c0, x0 := coreX c0, y0 := coreY c0, offsets := List.replicate (x.w * x.h) 0, straggler := none }
  let s := x.teams.foldl (fun (s : State) t =>
    if (s.team t).status == .evicted then s.returnTeam t ((place[(s.team t).position]?).getD 0) else s) s
  s.readyCores (place.map (s.partition p).physical)
/-- The rectangles an evicted cluster fits on: in its tower, and for a determinate launch on its old cores (R224, R304). -/
def State.returnPlaces (s : State) (x : Cluster) : List (List Nat) :=
  let l := s.launch x.launch
  let p := (s.vi l.vi).partition
  let part := s.partition p
  let at_ (i : Nat) : Option Team := ((x.teams.map s.team).find? fun t => t.position == i && t.status != .ended)
  let needs := (List.range (x.w * x.h)).map fun i => (at_ i).map s.needOf
  let same (r : List Nat) : Bool := (List.range (x.w * x.h)).all fun i => match at_ i with
    | some t => r[i]? == some t.logical
    | none => true
  let origins := (part.cores l.determinate).filter fun o => coreTower (part.seat l.determinate o) == x.tower
  origins.filterMap fun o => match s.findPlace p l.determinate [o] x.w x.h needs x.teams fun _ => true with
    | some r => if l.determinate && !same r then none else some r
    | none => none
/-- Step 1 of R293: the clusters of a launch that may return, evicted longest first; the core is any that fits. -/
def State.placeEvicted (s : State) (li : Nat) : Option State :=
  let cs := sortBy (fun (a b : Nat × Cluster) => decide (s.evictedSince a.2 ≤ s.evictedSince b.2)) (s.clusters.filter fun x => x.2.launch == li && s.mayReturn x.2)
  cs.findSome? fun x => match s.returnPlaces x.2 with
    | [] => none
    | l => (pick s.freeCount l).map fun r => ({ s with freeCount := s.freeCount + 1 } : State).returnCluster x.1 r
/-- One placement of the dispatcher (R293). -/
def State.dispatch (s : State) (li : Nat) : State :=
  match s.placeEvicted li with
  | some s' => s'
  | none => s.placeNew li
/-- The dispatcher places teams of a launch that lives and is not held (R332). -/
def State.mayPlace (s : State) (li : Nat) : Bool := s.lives li && !(s.launch li).held
/-- DISPATCH_PLACE; for a determinate launch the dispatcher acts at commits only (R304). -/
def execDispatchPlace (launch : Nat) (s : State) : Host.Outcome State Fault Refusal :=
  .next (if s.mayPlace launch && !(s.launch launch).determinate then s.dispatch launch else s)
/-- BIN_TIMER_EXPIRY: a bin's oldest record has waited its timer, so its node is ready and the dispatcher acts (R290, R293). -/
def execBinTimerExpiry (launch node : Nat) (s : State) : Host.Outcome State Fault Refusal :=
  .next (if s.mayPlace launch && s.timerPassed launch node then s.dispatch launch else s)

end Sys2Proof.Machine
end

