-- ==== Sys2Proof/Machine/Tiles.lean ====
section
/-! DEFINITION. Milestone instructions of lanes: tld, tred, ttr, gather, scatter (09 R162, R163), lld, lst (14 R232, R233), and the
milestone they resume from (18 R315, R316). A step performs one element for every member, or for one of them. -/

namespace Sys2Proof.Machine

/-- The milestone of an element (R40, R315). -/
def milestoneOf (op pc elem : Nat) : DWord := dw (0x80 + (op - 0x140) + pc * 2 ^ 8 + elem * 2 ^ 40)

/-- The group's milestone names the instruction at the agent's PC (R315). -/
def State.msHere (s : State) : Bool := s.curGroup.ms != 0 && bitsOf s.curGroup.ms 8 32 == s.curAgent.pc
/-- The milestone-mismatch fault (R315, R310): it leaves ms and the record copies as they are, also at its delivery (R315; DEDUCED, log 133). -/
def State.msFault (s : State) (op n : Nat) (recs : List (Nat × BitVec 256)) : Option Raise :=
  let ms := s.curGroup.ms
  if !s.msHere then none
  else if bitsOf ms 0 8 != 0x80 + (op - 0x140) || decide (n ≤ bitsOf ms 40 24) then some { kind := 23, cause := 1, d0 := ms, ms := ms, records := s.curGroup.msRecords }
  else ((recs.zip s.curGroup.msRecords).find? fun p => p.1.2 != p.2.2).map fun p =>
    { kind := 23, cause := 2, d0 := ms, d1 := dw p.1.1, ms := ms, records := s.curGroup.msRecords }
/-- The element an issue starts from (R315). -/
def State.msStart (s : State) : Nat := if s.msHere then bitsOf s.curGroup.ms 40 24 else 0

/-- What a milestone instruction is. -/
structure Tile where
  op : Nat
  n : Nat
  k : KReg
  descs : List Desc
  reader : Reader
  /-- The record requirements, whole bounds included. -/
  check : State → List Layout → Option Raise
  regs : List Nat
  /-- The element accesses of a lane: record, coordinates, size. -/
  spots : State → List Layout → Nat → Nat → List (Layout × Nat × List Nat × Nat)
  /-- Whether each member's accesses are judged by the bounds check at issue. -/
  perLane : Bool
  /-- Index registers that the instruction reads at issue (R18). -/
  index : List Nat := []
  /-- Where a lane's element writes: the number of the access among its spots. -/
  writes : Option Nat := none
  /-- Element i for a lane. -/
  lane : Before → List Layout → Nat → Bool → Run → Nat → Run

/-- The bounds fault of a lane over elements from i upward: the first that fails (R150, R163). -/
def Tile.bounds (t : Tile) (s : State) (ls : List Layout) (gl i : Nat) : Nat → Option (Nat × Nat)
  | 0 => none
  | n + 1 => match (t.spots s ls i gl).findSome? fun p => s.boundsFail s.curTeam p.1 p.1.size p.2.2.1 with
    | some d => some (d, i)
    | none => t.bounds s ls gl (i + 1) n
def Tile.bad (t : Tile) (s : State) (ls : List Layout) (lanes : List Nat) : List (Nat × Raise) :=
  if t.perLane then
    lanes.filterMap fun gl => (t.bounds s ls gl 0 t.n).map fun p => (gl, { kind := 12, cause := 1, d0 := dw p.1, d1 := dw p.2 })
  else []

/-- The instruction completes: ms is cleared, and the struck lanes form trap fragments (R163). -/
def State.finishTile (s : State) (words : Nat) : State :=
  s.finish (s.modCurGroup fun g => { g with ms := 0 }) s.curAgent.struck { words := words, endsSpin := s.issuedNow.wrote }

/-- The bytes that a lane's element writes. -/
def Tile.spot (t : Tile) (s : State) (ls : List Layout) (i gl : Nat) : Option (Place × Nat × Nat) :=
  (t.writes.bind fun n => (t.spots s ls i gl)[n]?).map fun p =>
    let q := s.elemAt s.cur.team p.1 (p.1.addr p.1.size p.2.2.1).toNat p.2.2.2
    (q.1, q.2.1, p.2.2.2)
/-- One element for every member not struck that has not made it, or for one of them alone (log 101). -/
def Tile.element (t : Tile) (only : Option Nat) (s : State) (i : Nat) (recs : List (Nat × BitVec 256)) : State :=
  let ls := recs.map fun p => (⟨p.2⟩ : Layout)
  let x := s.curAgent
  let lanes := (homeOrder (s.lanes t.k)).filter fun gl => !(x.struck.any fun p => p.1 == gl)
  let todo := lanes.filter fun gl => !s.issuedNow.done.contains gl
  match only with
  | some gl =>
    if t.n ≤ i || !t.perLane || !todo.contains gl || !laneNext (t.spot s ls i) todo gl then s
    else (t.lane s.judged ls i false (Run.start s) gl).note s [gl]
  | none =>
    if t.n ≤ i || lanes.isEmpty then s.finishTile 2
    else
      let s' := (todo.foldl (t.lane s.judged ls i false) (Run.start s)).note s todo
      let s' := s'.modCur fun y => { y with progress := some (i + 1, recs), issued := y.issued.map fun z => { z with done := [] } }
      if t.n ≤ i + 1 || lanes.all fun gl => s'.curAgent.struck.any fun p => p.1 == gl then s'.finishTile 2 else s'

/-- The layout and coordinate-count checks of descriptors, in order. -/
def dCheck (ls : List (Layout × Nat × Desc)) (spaces : List Nat) (accepts : Layout → Bool) : Option Raise :=
  firstFault (ls.map fun p => match p.1.fault p.2.1 spaces accepts p.1.size with
    | some c => some (layoutRaise c p.2.1)
    | none => (dCount p.1 p.2.2.slots).map (countRaise p.1 p.2.1))

/-- The values of index registers at issue, by 256·lane + register. -/
def State.indexRegs (s : State) (regs lanes : List Nat) : Cells Word :=
  lanes.foldl (fun m gl => regs.foldl (fun m r => cellSet 0 m (256 * gl + r) (s.vreg gl r)) m) []
/-- The bytes that the members' elements name, where their addresses resolve: within the bounds of R150. -/
def Tile.all (t : Tile) (s : State) (ls : List Layout) (lanes : List Nat) : List (Place × Nat × Nat) :=
  lanes.flatMap fun gl => (List.range t.n).flatMap fun i =>
    ((t.spots s ls i gl).filter fun p => if t.perLane then (s.boundsFail s.curTeam p.1 p.1.size p.2.2.1).isNone
        else s.rangeOk s.curTeam p.1.space (p.1.addr p.1.size p.2.2.1) p.2.2.2).map fun p =>
      let q := s.elemAt s.cur.team p.1 (p.1.addr p.1.size p.2.2.1).toNat p.2.2.2
      (q.1, q.2.1, p.2.2.2)
/-- A step of a milestone instruction: the next element, after the issue checks of the first step. A watch stop comes before every fault but that of a record
from which no address follows (R344). Every element is judged against the lines as they stand now (R272). -/
def Tile.body (t : Tile) (only : Option Nat) (s : State) : State :=
  match s.curAgent.progress with
  | some (i, recs) => t.element only s i recs
  | none =>
    let recs := t.descs.map fun d => (s.handleOf d.l, (s.curTeam.record t.reader (s.handleOf d.l)).raw)
    let ls := recs.map fun p => (⟨p.2⟩ : Layout)
    let lanes := s.lanes t.k
    let layout := t.check s ls
    let all := t.all s ls lanes
    s.unlessWatched (if (layout.map (·.kind)) == some 10 || (layout.map (·.kind)) == some 11 then [] else all.map fun p => spotOf p.1 p.2.1 p.2.2) fun s =>
      match firstFault [s.msFault t.op t.n recs, layout, s.regFault t.regs false] with
      | some f => s.raise f
      | none =>
        let bad := (t.bad s ls lanes).filter fun p => !(s.curAgent.struck.any fun q => q.1 == p.1)
        let i := s.msStart
        let regs := s.indexRegs t.index lanes
        t.element only ((s.clearK t.k.toNat).modCur fun x =>
          { x with progress := some (i, recs), struck := bad ++ x.struck, before := s.noteBefore (all.flatMap fun p => linesOf p.1 p.2.1 p.2.2) [], issued := some ⟨recs, regs, [], [], false⟩ }) i recs
def Tile.exec (t : Tile) (s : State) : Host.Outcome State Fault Refusal := s.issuePlain (t.body none)

/-- The checks of tile instructions: the accepted spaces, then the record requirement. -/
def State.tileCheck (s : State) (descs : List Desc) (spaces : List Nat) (accepts : Layout → Bool) (ls : List Layout) : Option Raise :=
  dCheck ((ls.zip descs).map fun p => (p.1, s.handleOf p.2.l, p.2)) spaces accepts

/-- An access at coordinates of a record by a lane: its place and Acc. -/
def State.tileAcc (s : State) (l : Layout) (h : Nat) (cs : List Nat) (size i gl : Nat) (read write : Bool) : Acc :=
  let p := s.elemAt s.cur.team l (l.addr l.size cs).toNat size
  s.laneAcc ⟨h, cs, i, Ord.plain, false⟩ p.1 p.2.1 size gl read write
/-- The two words of the element are exchanged (R151). -/
def State.tileSwap (s : State) (p : Layout × Nat × List Nat × Nat) : Bool :=
  (s.elemAt s.cur.team p.1 (p.1.addr p.1.size p.2.2.1).toNat p.2.2.2).2.2

/-- Coordinates of an element: c0 + x, c1 + y with the rest, or with one extent c0 + z (R162). -/
def tileCoords (l : Layout) (c : List Nat) (x y z : Nat) : List Nat :=
  match c with
  | c0 :: c1 :: rest => if l.extents == 1 then [c0 + z] else (c0 + x) :: (c1 + y) :: rest
  | c0 :: [] => [c0 + z]
  | [] => []

-- tld.
def tldSpots (f : TileArgs) (s : State) (ls : List Layout) (i gl : Nat) : List (Layout × Nat × List Nat × Nat) :=
  match ls with
  | l :: _ =>
    let q := 4 / l.size
    (List.range q).map fun j =>
      (l, s.handleOf f.desc.l, tileCoords l (s.dCoords l f.desc) (q * (gl % 32) + j) i (32 * q * i + q * (gl % 32) + j), l.size)
  | [] => []
/-- The accesses of a lane's element, read in order. -/
def Run.readAll (r : Run) (before : Before) (i gl : Nat) (ms : DWord) (complete : Bool) :
    List (Layout × Nat × List Nat × Nat) → Run × List Byte
  | [] => (r, [])
  | p :: ps =>
    let x := r.read before (r.s.tileAcc p.1 p.2.1 p.2.2.1 p.2.2.2 i gl true false) gl ms complete
    let y := x.1.readAll before i gl ms complete ps
    (y.1, x.2 ++ y.2)
def tldTile (f : TileArgs) (s : State) : Tile :=
  { op := 0x145, n := f.n.toNat, k := f.k, descs := [f.desc], reader := .lane s.cur.agent
    check := fun s ls => s.tileCheck [f.desc] [0, 1, 2] (fun l => l.size == 1 || l.size == 2 || l.size == 4) ls
    regs := spanRegs f.d.toNat f.n.toNat
    spots := tldSpots f
    perLane := true
    lane := fun before ls i complete r gl =>
      let x := r.readAll before i gl (milestoneOf 0x145 r.s.curAgent.pc i) complete (tldSpots f r.s ls i gl)
      x.1.put gl (f.d.toNat + i) (BitVec.ofNat 32 (bytesWord x.2)) }
def execTld (f : TileArgs) (s : State) := (tldTile f s).exec s

-- tred.
def tredSpots (f : TileArgs) (s : State) (ls : List Layout) (i gl : Nat) : List (Layout × Nat × List Nat × Nat) :=
  match ls with
  | l :: _ => [(l, s.handleOf f.desc.l, tileCoords l (s.dCoords l f.desc) (gl % 32) i (32 * i + gl % 32), 4)]
  | [] => []
def tredTile (f : TileArgs) (s : State) : Tile :=
  { op := 0x147, n := f.n.toNat, k := f.k, descs := [f.desc], reader := .lane s.cur.agent
    check := fun s ls => s.tileCheck [f.desc] [0, 1, 2] (fun l => l.ty == some .f32 || l.ty == some .s32 || l.ty == some .n32) ls
    regs := [f.d.toNat]
    spots := tredSpots f
    perLane := true
    lane := fun before ls i complete r gl =>
      let x := r.readAll before i gl (milestoneOf 0x147 r.s.curAgent.pc i) complete (tredSpots f r.s ls i gl)
      let m : Word := BitVec.ofNat 32 (bytesWord x.2)
      let old := r.s.vreg gl f.d.toNat
      x.1.put gl f.d.toNat (if (ls.head?.map (·.ty)) == some (some Ty.f32) then word2 (fltAdd .f32 0) old m else old + m) }
def execTred (f : TileArgs) (s : State) := (tredTile f s).exec s

-- ttr.
def ttrSpots (f : TtrArgs) (s : State) (ls : List Layout) (i gl : Nat) : List (Layout × Nat × List Nat × Nat) :=
  match ls with
  | [ld, lsrc] =>
    [(lsrc, s.handleOf f.src.l, tileCoords lsrc (s.dCoords lsrc f.src) (gl % 32) i 0, lsrc.size),
     (ld, s.handleOf f.dst.l, tileCoords ld (s.dCoords ld f.dst) i (gl % 32) 0, ld.size)]
  | _ => []
def ttrTile (f : TtrArgs) (s : State) : Tile :=
  { op := 0x146, n := f.n.toNat, k := f.k, descs := [f.dst, f.src], reader := .lane s.cur.agent
    check := fun s ls =>
      let same := match ls with | [d, x] => d.tyCode == x.tyCode | _ => false
      s.tileCheck [f.dst, f.src] [0, 1, 2] (fun l => decide (2 ≤ l.extents) && same) ls
    regs := []
    spots := ttrSpots f
    perLane := true
    writes := some 1
    lane := fun before ls i complete r gl =>
      let ms := milestoneOf 0x146 r.s.curAgent.pc i
      match ttrSpots f r.s ls i gl with
      | [src, dst] =>
        let x := r.readAll before i gl ms complete [src]
        x.1.write before (x.1.s.tileAcc dst.1 dst.2.1 dst.2.2.1 dst.2.2.2 i gl false true) gl ms complete
          (orient (r.s.tileSwap dst) (orient (r.s.tileSwap src) x.2))
      | _ => r }
def execTtr (f : TtrArgs) (s : State) := (ttrTile f s).exec s

-- gather and scatter.
/-- An index register as the instruction read it at issue (R18). -/
def State.indexReg (s : State) (gl r : Nat) : Word :=
  match s.curAgent.issued with
  | some i => cellGet 0 i.regs (256 * gl + r)
  | none => s.vreg gl r
def indexSpots (desc : Desc) (e : VReg) (s : State) (ls : List Layout) (i gl : Nat) : List (Layout × Nat × List Nat × Nat) :=
  match ls with
  | l :: _ =>
    let cs := match s.dCoords l desc with
      | c0 :: rest => (c0 + (s.indexReg gl (e.toNat + i)).toNat) :: rest
      | [] => []
    [(l, s.handleOf desc.l, cs, 4)]
  | [] => []
def gatherTile (f : GatherArgs) (s : State) : Tile :=
  { op := 0x143, n := f.n.toNat, k := f.k, descs := [f.desc], reader := .lane s.cur.agent
    check := fun s ls => s.tileCheck [f.desc] [0, 1, 2] (fun l => l.size == 4) ls
    regs := spanRegs f.d.toNat f.n.toNat ++ spanRegs f.e.toNat f.n.toNat
    spots := indexSpots f.desc f.e
    perLane := true
    index := spanRegs f.e.toNat f.n.toNat
    lane := fun before ls i complete r gl =>
      let ms := milestoneOf 0x143 r.s.curAgent.pc i
      let spots := indexSpots f.desc f.e r.s ls i gl
      let x := r.readAll before i gl ms complete spots
      x.1.put gl (f.d.toNat + i) (BitVec.ofNat 32 (bytesWord x.2)) }
def execGather (f : GatherArgs) (s : State) := (gatherTile f s).exec s
def scatterTile (f : GatherArgs) (s : State) : Tile :=
  { op := 0x144, n := f.n.toNat, k := f.k, descs := [f.desc], reader := .lane s.cur.agent
    check := fun s ls => s.tileCheck [f.desc] [0, 1, 2] (fun l => l.size == 4) ls
    regs := spanRegs f.d.toNat f.n.toNat ++ spanRegs f.e.toNat f.n.toNat
    spots := indexSpots f.desc f.e
    perLane := true
    index := spanRegs f.e.toNat f.n.toNat
    writes := some 0
    lane := fun before ls i complete r gl =>
      let ms := milestoneOf 0x144 r.s.curAgent.pc i
      match indexSpots f.desc f.e r.s ls i gl with
      | [p] => r.write before (r.s.tileAcc p.1 p.2.1 p.2.2.1 4 i gl false true) gl ms complete
          (leBytes ((r.s.vreg gl (f.d.toNat + i)).setWidth 64) 4)
      | _ => r }
def execScatter (f : GatherArgs) (s : State) := (scatterTile f s).exec s

-- lld and lst (R233).
/-- The coordinates of a row. -/
def rowCoords (f : LayerArgs) (s : State) (l : Layout) (i : Nat) : List Nat :=
  tileCoords l (s.dCoords l f.desc) 0 i (128 / l.size * i)
/-- A lane's 4 bytes of a row. -/
def layerAcc (f : LayerArgs) (s : State) (l : Layout) (i gl : Nat) (read write : Bool) : Acc :=
  let cs := rowCoords f s l i
  let p := s.placeAt s.cur.team l ((l.addr l.size cs).toNat + 4 * (gl % 32))
  s.laneAcc ⟨s.handleOf f.desc.l, cs, i, Ord.plain, false⟩ p.1 p.2 4 gl read write
/-- The whole bounds check over every row (R233). -/
def layerBounds (f : LayerArgs) (s : State) (l : Layout) : Option Raise :=
  let n := f.n.toNat
  let q := 128 / l.size
  let cs := s.dCoords l f.desc
  let c (i : Nat) : Nat := (cs[i]?).getD 0
  let whole (d : Nat) : Raise := { kind := 12, cause := 2, d0 := dw d }
  let one := l.extents == 1
  if l.ext 0 < c 0 + (if one then q * n else q) then some (whole 0)
  else if !one && decide (l.ext 1 ≤ c 1 + n - 1) then some (whole 1)
  else match (List.range cs.length).find? fun i => decide (2 ≤ i) && decide (l.ext i ≤ c i) with
    | some i => some (whole i)
    | none =>
      if (List.range n).all fun i => s.rangeOk s.curTeam l.space (l.addr l.size (rowCoords f s l i)) 128 then none else some (whole 4)
def layerCheck (f : LayerArgs) (s : State) (ls : List Layout) : Option Raise :=
  match ls with
  | l :: _ =>
    let h := s.handleOf f.desc.l
    firstFault [s.tileCheck [f.desc] [1, 2] (fun l => l.stride 0 == 1) ls, alignFault h (l.addr l.size (rowCoords f s l 0) % 128).toNat 128,
      s.regFault (spanRegs f.d.toNat f.n.toNat) false, layerBounds f s l]
  | [] => none
def layerTile (op : Nat) (f : LayerArgs) (lane : Before → List Layout → Nat → Bool → Run → Nat → Run) (s : State) : Tile :=
  { op := op, n := f.n.toNat, k := 0, descs := [f.desc], reader := .layer s.cur.agent
    check := layerCheck f
    regs := spanRegs f.d.toNat f.n.toNat
    spots := fun s ls i _ => match ls with
      | l :: _ => [(l, s.handleOf f.desc.l, rowCoords f s l i, 128)]
      | [] => []
    perLane := false
    lane := lane }
def lldLane (f : LayerArgs) (before : Before) (ls : List Layout) (i : Nat) (complete : Bool) (r : Run) (gl : Nat) : Run :=
  match ls with
  | l :: _ =>
    let x := r.read before (layerAcc f r.s l i gl true false) gl (milestoneOf 0x141 r.s.curAgent.pc i) complete
    x.1.put gl (f.d.toNat + i) (BitVec.ofNat 32 (bytesWord x.2))
  | [] => r
def lstLane (f : LayerArgs) (before : Before) (ls : List Layout) (i : Nat) (complete : Bool) (r : Run) (gl : Nat) : Run :=
  match ls with
  | l :: _ => r.write before (layerAcc f r.s l i gl false true) gl (milestoneOf 0x142 r.s.curAgent.pc i) complete
      (leBytes ((r.s.vreg gl (f.d.toNat + i)).setWidth 64) 4)
  | [] => r
def lldTile (f : LayerArgs) (s : State) : Tile := layerTile 0x141 f (lldLane f) s
def lstTile (f : LayerArgs) (s : State) : Tile := layerTile 0x142 f (lstLane f) s
def execLld (f : LayerArgs) (s : State) := (lldTile f s).exec s
def execLst (f : LayerArgs) (s : State) := (lstTile f s).exec s

end Sys2Proof.Machine
end

