-- ==== Sys2Proof/Machine/Traps.lean ====
section
/-! DEFINITION. Raising and leaving traps (18 R306 to R316): trap, bkpt, the forms of tret, tkill, tpass, the delivery of a trap fragment, and
the issue of a word that does not decode (02 R35, R36). -/

namespace Sys2Proof.Machine

/-- Members of a set form a trap fragment that continues after the instruction (R311). -/
def State.softTrap (s : State) (kind : Nat) (k : KReg) (code : BitVec 16) : State :=
  s.finish (s.clearK k.toNat) ((s.lanes k).map fun gl => (gl, { kind := kind, d0 := dw code.toNat })) {}
def execTrap (k : KReg) (code : BitVec 16) (s : State) : Host.Outcome State Fault Refusal := s.issuePlain fun s => s.softTrap 25 k code
/-- An armed breakpoint stop holds the team before delivery (R311, R344). -/
def execBkpt (k : KReg) (code : BitVec 16) (s : State) : Host.Outcome State Fault Refusal :=
  s.issuePlain fun s => if s.stopArmed s.cur 3 then s.stopHold s.cur 3 0 else s.softTrap 26 k code

/-- A word that fails a check of R36 is taken to issue (R35, R36). -/
def execUnassignedOpcodeIssue (cause : BitVec 3) (word : DWord) (s : State) : Host.Outcome State Fault Refusal :=
  s.issuePlain fun s => s.raiseWord s.cur (illegal cause.toNat) word false

/-- TRAP_DELIVERY: a pending trap fragment begins to run when its turn has come (R307). -/
def execTrapDelivery (a : AgentRef) (s : State) : Host.Outcome State Fault Refusal :=
  let t := s.team a.team
  .next (if s.runs a.team && cellHas t.agents a.agent && (s.agent a).status == .pending && t.turnOf a.agent (s.agent a) then s.deliver a else s)

-- Returning from a trap.
def handlerFault (cause : Nat) : Raise := { kind := 24, cause := cause }
/-- The agent is a delivered trap fragment: its trap depth is above 0 (R307, R313). -/
def Agent.inHandler (x : Agent) : Bool :=
  match x.kind with
  | .trap _ _ => x.depth != 0
  | _ => false
/-- The checks of tret (R313), with the move of sr.sp (R47) before the frame is used. -/
def State.tretFault (s : State) (complete : Bool) : Option Raise :=
  let x := s.curAgent
  let f := s.frame s.cur
  if !x.inHandler then some (handlerFault 1)
  else firstFault
    [s.spillFault (decide (s.curGroup.sp.toNat + 256 ≤ 0xC000)),
     if complete && (f.kind != 13 || s.curGroup.rmode != 3) then some (handlerFault 2) else none,
     if !f.clean || f.depth != x.depth || f.swd != s.swdOf s.cur || decide (1023 < f.rest) || decide ((s.objectOf s.curTeam).words ≤ f.pc) then
       some (handlerFault 3) else none]

/-- The registers and the depth that a frame restores (R313); the fragment resumes, and one that is held may take its place (R114). -/
def State.unframe (s : State) (f : Frame) : State :=
  ((s.modCurGroup fun g => { g with s := putScalars g.s 8 f.saved, sp := g.sp + 256 }).modCur fun x =>
    { x with depth := x.depth - 1, info := x.info.map fun i => { i with delivered := false } }).modCurTeam Team.admitTraps
/-- The group whose ms holds the milestone of the trap: the leader of a stopped command's gang, or the host (R198). -/
def State.trapOwner (s : State) : Nat := (s.curAgent.info.bind fun i => i.owner).getD s.curAgent.host
/-- The milestone of the trap is cleared. -/
def State.clearMs (s : State) : State := s.modCurTeam fun t => t.modGroup s.trapOwner fun g => { g with ms := 0 }

/-- The words left in the block when the instruction of a frame is issued again. -/
def State.restAgain (s : State) (f : Frame) : Nat :=
  match s.curAgent.info with
  | some i => if i.atHeader && i.pc == f.pc then 0 else f.rest + wordCount (s.wordAt s.cur f.pc)
  | none => f.rest + wordCount (s.wordAt s.cur f.pc)
/-- An agent that re-issues an instruction is done with it. -/
def Agent.endRedo (x : Agent) : Agent := { x with info := x.info.map fun i => if i.redo then { i with retired := true } else i }
/-- The trap fragment that issued tret goes on (R117, R313): inside a region it runs from the PC; outside every region the lanes of a whole
fault, and those done with their instruction, rejoin at once, and the others re-issue it first. The agent that goes on with the lanes
becomes the current one. -/
def State.goOn (s : State) (pc rest : Nat) (done : Bool) : State :=
  let x := s.curAgent
  match x.kind, x.info with
  | .trap p _, some i =>
    let s := s.modCur fun y => { y with pc := pc, rest := rest }
    if x.inRegion then s
    else if done || !i.retired then
      let s := if done && !i.retired then s.modAgent ⟨s.cur.team, p⟩ Agent.endRedo else s
      { (s.modCurTeam fun t => t.rejoin s.cur.agent 8) with cur := ⟨s.cur.team, p⟩ }
    else s.modCur fun y => { y with info := some { i with redo := true, retired := false, delivered := false } }
  | _, _ => s
/-- The instruction of the frame is issued again. -/
def State.again (s : State) (f : Frame) : State := s.goOn f.pc (s.restAgain f) false
/-- The lanes continue after the instruction of the frame. -/
def State.beyond (s : State) (f : Frame) : State := s.goOn (f.pc + wordCount (s.wordAt s.cur f.pc)) f.rest true

/-- The stopped command of a leader that a milestone names (R195, R197). -/
def Team.stoppedAt (t : Team) (leader : Nat) (ms : DWord) : Option Cmd :=
  t.cmds.find? fun c => c.leader == leader && c.state == .stopped && c.fault.isSome && c.milestone == ms
/-- The stopped command resumes from its element index (R196); after a milestone mismatch, or a pre-emption, its record is compared again (R199). -/
def Team.resumeCmd (t : Team) (leader : Nat) (ms : DWord) : Team :=
  match t.stoppedAt leader ms with
  | some c => t.putCmd { c with state := .waiting, fault := none, part := [], met := none, recheck := c.recheck || (c.fault.map (·.1)) == some 3 }
  | none => t
/-- The stopped command is abandoned (R196): complete, and waited for by every member. -/
def Team.abandonCmd (t : Team) (leader : Nat) (ms : DWord) : Team :=
  match t.stoppedAt leader ms with
  | some c => (t.putCmd { c with state := .complete, fault := none, waited := c.gang.slots }).releaseCmds
  | none => t

/-- The word is a trap or a bkpt. -/
def isSoftTrap (w : DWord) : Bool := fOp w.toNat == 0x00E || fOp w.toNat == 0x012

def execTret (s : State) : Host.Outcome State Fault Refusal :=
  s.issueChecked (fun s => s.tretFault false) fun s =>
    let f := s.frame s.cur
    s.retireThen {} fun s =>
    let s := s.unframe f
    if f.kind == 19 then (s.clearMs.modCurTeam fun t => t.resumeCmd s.trapOwner f.ms).again f
    else if isSoftTrap (s.wordAt s.cur f.pc) then s.beyond f
    else s.again f
def execTretSkip (s : State) : Host.Outcome State Fault Refusal :=
  s.issueChecked (fun s => s.tretFault false) fun s =>
    let f := s.frame s.cur
    s.retireThen {} fun s =>
    let s := (s.unframe f).clearMs
    if f.kind == 19 then (s.modCurTeam fun t => t.abandonCmd s.trapOwner f.ms).again f else s.beyond f

/-- The struck element of a milestone instruction is performed for the fragment's lanes, and the instruction goes on from the next one (R275,
R313). Where its checks would fail, or a record has changed, the re-issue raises that fault. -/
def Tile.completeElem (t : Tile) (f : Frame) (s : State) : State :=
  let i := bitsOf f.ms 40 24
  let now := t.descs.map fun d => (s.handleOf d.l, (s.curTeam.record t.reader (s.handleOf d.l)).raw)
  let recs := if s.curGroup.msRecords.length == t.descs.length then s.curGroup.msRecords else now
  let ls := recs.map fun p => (⟨p.2⟩ : Layout)
  if bitsOf f.ms 0 8 != 0x80 + (t.op - 0x140) || decide (t.n ≤ i) then s
  else match firstFault [t.check s (now.map fun p => ⟨p.2⟩), s.regFault t.regs false] with
    | some _ => s
    | none =>
      let lanes := s.lanes t.k
      let bad := t.bad s ls lanes
      let run := (lanes.filter fun gl => !(bad.any fun p => p.1 == gl)).foldl (t.lane s.linesNow ls i true) (Run.start s)
      if now != recs then run.s
      else run.s.modCur fun x =>
        { x with
          progress := some (i + 1, recs)
          struck := bad ++ run.struck
          before := s.noteBefore run.lines []
          issued := some ⟨recs, s.indexRegs t.index lanes, [], [], run.wrote⟩ }

/-- The racing accesses of an instruction are completed (R275, R313). -/
def State.completeInstr (s : State) (f : Frame) : State :=
  match s.instrAt f.pc with
  | some (.ld w k d m) => ldBody w k d m false false true none (s.again f)
  | some (.ldFe w k d m) => ldBody w k d m true false true none (s.again f)
  | some (.ldTake w k d m) => ldBody w k d m true true true none (s.again f)
  | some (.st w k d m) => stBody w k d m true none (s.again f)
  | some (.atom op g) => atomBody op g true none (s.again f)
  | some (.cpyx g) => cpyxBody g true (s.again f)
  | some (.kld d m) => kldBody d m true (s.again f)
  | some (.kst a m) => kstBody a m true (s.again f)
  | some (.pbarArrive d m) => pbarArriveBody d m true (s.again f)
  | some (.pbarWait d m) => pbarWaitBody d m true (s.again f)
  | some (.tld g) => let s := s.again f; (tldTile g s).completeElem f s
  | some (.tred g) => let s := s.again f; (tredTile g s).completeElem f s
  | some (.ttr g) => let s := s.again f; (ttrTile g s).completeElem f s
  | some (.gather g) => let s := s.again f; (gatherTile g s).completeElem f s
  | some (.scatter g) => let s := s.again f; (scatterTile g s).completeElem f s
  | some (.lld g) => let s := s.again f; (lldTile g s).completeElem f s
  | some (.lst g) => let s := s.again f; (lstTile g s).completeElem f s
  | _ => s.beyond f
def execTretComplete (s : State) : Host.Outcome State Fault Refusal :=
  s.issueChecked (fun s => s.tretFault true) fun s =>
    let f := s.frame s.cur
    s.retireThen {} fun s => (s.unframe f).completeInstr f

-- Leaving the kernel (R314).
def State.handlerCheck (s : State) : Option Raise := if s.curAgent.inHandler then none else some (handlerFault 1)
def execTkill (s : State) : Host.Outcome State Fault Refusal :=
  s.issueChecked State.handlerCheck fun s =>
    let f := s.frame s.cur
    (s.retire {}).killLaunch s.curTeam.launch (s.killAt s.cur 1 f.pc f.kind)
/-- The teams of a team's cluster (R224, R299). -/
def State.clusterOf (s : State) (team : Nat) : List Nat := (s.cluster (s.team team).cluster).teams
/-- Teams are to be pre-empted at their next stopping point. -/
def State.askPreempt (s : State) (teams : List Nat) : State :=
  teams.foldl (fun (s : State) t => if (s.team t).status == .resident then s.modTeam t fun x => { x with preempt := true } else s) s
/-- tpass: the team is evicted, with the fragment stopped after it; the escalation is posted at the eviction. -/
def execTpass (s : State) : Host.Outcome State Fault Refusal :=
  s.issueChecked State.handlerCheck fun s =>
    (s.retireThen { legEnd := true } fun s => s.modCur fun x => { x with status := .passed }).askPreempt (s.clusterOf s.cur.team)

end Sys2Proof.Machine
end

