-- ==== Sys2Proof/Machine/Residency.lean ====
section
/-! DEFINITION. Residency: pre-emption and what it keeps (17 R299, 18 R315, R320, R321, 10 R188, R199, 11 R219), eviction and the context
image (03 R44 to R46, 08 R132 to R134), the stalled-residency rule (17 R298), the end of a launch (17 R296), and page
walks (18 R317). -/

namespace Sys2Proof.Machine

-- Stopping (R140, R299).
/-- An agent is at a stopping point: between instructions, at an element boundary of one that has struck no lane, or in a wait. One that has struck a lane
completes first for the others, and forms its fragments (R163, R321; DEDUCED, log 115). -/
def Agent.stoppable (x : Agent) : Bool := (match x.issued with | some i => i.done.isEmpty | none => true) && (x.progress.isNone || x.struck.isEmpty)
/-- Every member team of a team's cluster is at a stopping point. -/
def State.stoppable (s : State) (team : Nat) : Bool := (s.clusterOf team).all fun t => (s.team t).agents.all fun a => a.2.stoppable
/-- A waiting bar or cbar is given up: its agent has not arrived, and the rendezvous stays open (R103, R299; DEDUCED, log 118). -/
def Team.leaveBars (t : Team) : Team :=
  { t with rdvs := t.rdvs.map fun r => if r.kind == .bar || r.kind == .cbar then { r with arrived := [] } else r }
/-- An agent waits at a bar or a cbar. -/
def State.atBar (s : State) (a : AgentRef) : Bool :=
  ((s.team a.team).rdvs.any fun r => (r.kind == .bar || r.kind == .cbar) && r.arrived.any fun p => p.1 == a.agent) ||
    (s.cluster (s.team a.team).cluster).arrived.any fun p => p.1 == a.team && p.2.1 == a.agent
/-- An agent stops: a milestone instruction under way leaves its milestone in ms, and a wait is given up. -/
def State.stopAgent (s : State) (a : AgentRef) : State :=
  let x := s.agent a
  let bar := s.atBar a
  let s := match x.progress with
    | some (i, recs) => (s.touchLine a.team x.host specialLine).modGroupOf a fun g => { g with ms := milestoneOf (fOp (s.wordAt a x.pc).toNat) x.pc i, msRecords := recs }
    | none => s
  let s := match x.status with
    | .accept id => s.modTeam a.team fun t => { t with copies := cellDel t.copies id }
    | _ => s
  s.modAgent a fun x =>
    { x with
      progress := none
      struck := []
      before := []
      issued := none
      watch := none
      status := match x.status with
        | .accept _ | .latch | .await _ _ => .ready
        | .rdv => if bar then .ready else .rdv
        | y => y }
/-- The commands of a team stop (R197, R199): those whose every K-step group has issued complete, those still checked are discarded; what was read of A ahead
of its K-step group is read again. -/
def State.stopCmds (s : State) (team : Nat) : State :=
  let s := s.modTeam team fun t => { t with latches := [], cmds := t.cmds.filter fun (c : Cmd) => c.state != CmdState.checked }
  (s.team team).cmds.foldl (fun (s : State) (c : Cmd) =>
    match c.state, s.lastReads team c with
    | .executing, some reads => s.modTeam team fun t => t.completeCmd c reads
    | .executing, none => s.putCmd team { c with state := .stopped, part := [], met := none, recheck := true, queued := true }
    | .complete, _ => s
    | _, _ => s.putCmd team { c with part := [], met := none, recheck := true, queued := true }) s
/-- The lines of a team that its core's register caches hold (R132): group and line. -/
def State.presentLines (s : State) (team : Nat) : List (Nat × Nat) :=
  let t := s.team team
  t.groups.flatMap fun g => ((reservedLines g.2.placed).filter fun n => !g.2.missing.contains n).map fun n => (g.1, n)
/-- A pre-emption of a resident team takes effect (R299, R323): it gives up its slots; its memory is still to be saved. -/
def State.stopTeam (s : State) (team : Nat) : State :=
  if (s.team team).status != .resident then s
  else
    let core := (s.team team).core
    let s := (s.team team).agents.foldl (fun (s : State) p => s.stopAgent ⟨team, p.1⟩) s
    let s := s.modCluster (s.team team).cluster fun c => { c with arrived := c.arrived.filter fun p => p.1 != team }
    let s := s.stopCmds team
    let s := s.modTeam team fun t =>
      { t.leaveBars with
        status := .stopped
        preempt := false
        sharedSaved := t.writeBack
        writeBack := false
        groups := t.groups.map fun g => (g.1, { g.2 with boosted := false }) }
    (s.leaveQueues core [team]).coreLeft core
/-- The teams that a pre-emption of one team stops: its whole cluster (R224). What the register caches hold of them stays there (R132). -/
def State.stopCluster (s : State) (team : Nat) : State :=
  let ts := (s.clusterOf team).eraseDups.filter fun t => (s.team t).status == .resident
  ts.foldl (fun (s : State) t => s.poolTeam t (s.presentLines t)) (ts.foldl (fun (s : State) t => s.stopTeam t) s)

/-- The team that the stalled-residency rule brings to a core is made resident there once it fits (R298, R320, log 109). -/
def State.swapDone (s : State) (core : Nat) : State :=
  match (s.core core).swap with
  | none => s
  | some (team, logical) =>
    let t := s.team team
    if t.status == .evicted && !t.held && !t.escalated && s.mayPlace t.launch then
      if s.fits (s.partitionOf t) logical (s.needOf t) [team] (s.launch t.launch).determinate then s.returnCluster t.cluster [logical] else s
    else s.modCore core fun k => { k with swap := none }
/-- PREEMPTION_STOP: a requested pre-emption takes effect; in determinate mode it does at a commit (R304). -/
def execPreemptionStop (team : Nat) (s : State) : Host.Outcome State Fault Refusal :=
  .next (if s.runs team && !(s.launch (s.team team).launch).determinate && s.stoppable team && (s.clusterOf team).any (fun t => (s.team t).preempt) then
    (s.stopCluster team).swapDone (s.team team).core
  else s)

/-- A started chunk cannot land before a chunk of an earlier copy that is not there yet (R209); of a cpym chunk that has been read, no delivery can. -/
def State.heldBack (s : State) (team id : Nat) (c : Copy) (i : Nat) : Bool :=
  if c.kind != .cpym then (s.requestsOf (team, id, i)).isEmpty && s.mustWait team c (s.chunkReads team c i) (s.chunkWrites team c i)
  else if !cellHas c.fetched i then (s.requestsOf (team, id, i)).isEmpty && s.mustWait team c (s.chunkReads team c i) []
  else (s.writeTeams team c).all fun q => (c.deliveryAt i q.1).isSome || s.mustWait team c [] (s.chunkWrites q.2 c i)
/-- Every started chunk of a team's copies has landed, but for those that can only follow a chunk whose slice never starts now: they are saved with the chunks
not yet landed (R209, R219; DEDUCED, log 136). -/
def State.quiet (s : State) (team : Nat) : Bool :=
  (s.team team).ownCopies.all fun c => (List.range c.2.started).all fun i => c.2.landed.contains i || s.heldBack team c.1 c.2 i
-- The save pool (R320).
/-- Bytes that a team's shared memory takes in the save pool: its bytes, its full/empty bits and its metadata. -/
def Team.poolBytes (t : Team) : Nat := t.sharedSize + (t.sharedSize + 127) / 128 + 12 * ((t.sharedSize + 63) / 64)
/-- What is saved of a team's shared memory, in that order (DESIGN CHOICE, log 116). -/
def Team.poolImage (t : Team) : List Byte :=
  readBytes t.shared 0 t.sharedSize ++
    ((List.range ((t.sharedSize + 127) / 128)).flatMap fun k => wordBytes (((List.range 8).map fun i => if cellHas t.full (8 * k + i) then 2 ^ i else 0).sum) 1) ++
    (List.range ((t.sharedSize + 63) / 64)).flatMap fun l => (cellGet LineMeta.reset t.metas l).bytes
/-- What the saved teams of a partition take of its save pool: offset and size. -/
def State.poolTaken (s : State) (p : Nat) : List (Nat × Nat) :=
  s.teams.filterMap fun t => if s.partitionOf t.2 == p && t.2.status != .ended then t.2.poolAt.map fun o => (o, t.2.poolBytes) else none
/-- The lowest place of the save pool with room for n bytes (DESIGN CHOICE, log 116). -/
def State.poolGap (s : State) (p n : Nat) : Option Nat :=
  let taken := s.poolTaken p
  ((0 :: taken.map fun x => x.1 + x.2).filter fun o => decide (o + n ≤ (s.partition p).poolSize) && taken.all fun x => !rangesMeet o n x.1 x.2).min?
/-- SAVE_POOL_SAVE: a stopped team's shared memory goes to the save pool when it has room; an access that fails kills the launch (R317). -/
def execSavePoolSave (team : Nat) (s : State) : Host.Outcome State Fault Refusal :=
  let t := s.team team
  let p := s.partitionOf t
  .next (if cellHas s.teams team && t.status == .stopped && !t.sharedSaved && s.quiet team then
    (match s.poolGap p t.poolBytes with
      | none => s
      | some o => match s.devWrite (s.viOf t) ((s.partition p).poolBase + o) t.poolImage with
        | .error _ => s.killDevice t.launch
        | .ok s => (s.modTeam team fun t => { t with sharedSaved := true, poolAt := some o }).swapDone t.core)
  else s)
/-- Bytes of shared memory as they come back: a byte that differs from what was saved is a new initial write (R240). -/
def Team.restore (t : Team) (a : Nat) : List Byte → Team
  | [] => t
  | b :: bs =>
    (if readByte t.shared a = b then t
      else { t with shared := writeByte t.shared a b, hist := cellDel t.hist a }).restore (a + 1) bs
/-- The full/empty bits as they come back: of a granule from k on; one that was empty carries nothing. -/
def Team.restoreFull (t : Team) (k : Nat) : List Byte → Team
  | [] => t
  | b :: bs =>
    ((List.range 8).foldl (fun (t : Team) i =>
      let full := b.toNat / 2 ^ i % 2 == 1
      if cellHas t.full (8 * k + i) == full then t
      else { t with full := if full then cellPut t.full (8 * k + i) ⟨0, false, noIdent, ⟨0, 0, 0⟩, [], []⟩ else cellDel t.full (8 * k + i) }) t).restoreFull (k + 1) bs
/-- The metadata of a line as it comes back; what the aging sweep has retired meanwhile stays retired (R271). -/
def State.restoreMeta (s : State) (team line : Nat) (bs : List Byte) : State :=
  let old := s.metaAt (.shared team) line
  if old.bytes = bs then s
  else
    let back := s.putMeta (.shared team) line (LineMeta.ofBytes bs)
    if (back.sweepLine (.shared team) line).metaAt (.shared team) line = old then s else back
/-- What the pool holds of a team's shared memory is in place again. -/
def State.restoreShared (s : State) (team : Nat) (bs : List Byte) : State :=
  let n := (s.team team).sharedSize
  let bits := (n + 127) / 128
  let s := s.modTeam team fun t => (t.restore 0 (bs.take n)).restoreFull 0 ((bs.drop n).take bits)
  (List.range ((n + 63) / 64)).foldl (fun (s : State) l => s.restoreMeta team l ((bs.drop (n + bits + 12 * l)).take 12)) s
/-- SHARED_MEMORY_WRITE_BACK: a returned team's shared memory is in place again (R153, R320). -/
def execSharedMemoryWriteBack (team : Nat) (s : State) : Host.Outcome State Fault Refusal :=
  let t := s.team team
  .next (if s.runs team && t.writeBack then
    (match s.devRead (s.viOf t) ((s.partition (s.partitionOf t)).poolBase + t.poolAt.getD 0) t.poolBytes with
      | .error _ => s.killDevice t.launch
      | .ok (s, bs) => (s.restoreShared team bs).modTeam team fun t => { t with writeBack := false, poolAt := none })
  else s)

-- The context image (R44).
/-- What a team's eviction writes to its image: pieces of its tables, and its lines that the register caches hold, each where the image does not hold it
(R134): offset and bytes. -/
def State.saves (s : State) (team : Nat) : List (Nat × List Byte) :=
  let t := s.team team
  let tables := (List.range 4128).map fun j => (0x1000 + 128 * j, tablePiece t j)
  let lines := ((s.core t.core).pool.filter fun p => p.team == team).map fun p => (lineAt p.group p.line, s.lineImage team p.group p.line)
  (tables ++ lines).filter fun x => s.dirty team x.1 x.2
/-- The image is written back; a failed access kills the launch. -/
def State.writeImage (s : State) (team : Nat) : State := (s.saves team).foldl (fun (s : State) x => s.saveAt team x.1 x.2) s
/-- An escalation is posted with the frame of each fragment that passed its trap (R314). -/
def State.escalate (s : State) (team : Nat) : State :=
  let t := s.team team
  let passed := t.agents.filter fun p => p.2.status == .passed
  if passed.isEmpty || t.escalated then s
  else
    let frames := passed.map fun p => (team, readBytes (t.group p.2.host).spill (t.group p.2.host).sp.toNat 256)
    ({ s with escalations := s.escalations ++ frames } : State).setIrq (s.viOf t) 1 |>.modTeam team fun t => { t with escalated := true }
/-- TEAM_EVICTED: the lines and the shared memory of a stopped team are saved (R134, R320). -/
def execTeamEvicted (team : Nat) (s : State) : Host.Outcome State Fault Refusal :=
  let t := s.team team
  .next (if cellHas s.teams team && t.status == .stopped && t.sharedSaved && s.quiet team && s.lives t.launch then
    ((s.writeImage team).modTeam team fun t => { t with status := .evicted, linesSaved := true, evictedAt := s.tick }).escalate team
  else s)
/-- An agent of a team stands before an instruction that touches a line of a group (R133). -/
def State.wanted (s : State) (team group line : Nat) : Bool :=
  (s.team team).agents.any fun a => match s.nextInstr ⟨team, a.1⟩ with
    | some i => (s.absent ⟨team, a.1⟩ i).contains (group, line)
    | none => false
/-- REGISTER_FILL: a line that an instruction touches is filled from the image, and a spill line enters the open pool, which pushes out others (R132, R133). -/
def execRegisterFill (team group line : Nat) (s : State) : Host.Outcome State Fault Refusal :=
  .next (if s.runs team && s.wanted team group line then (s.fillLine team group line).trimPool (s.team team).core else s)

/-- The bytes of a write to an image that are not reserved (R4). -/
def imageBytes (t : Team) (off : Nat) (bs : List Byte) : List Byte :=
  bs.zipIdx.map fun b =>
    let o := off + b.2
    if 0x82000 ≤ o ∧ o < 0x82000 + 0x10000 * t.groupsN then b.1 &&& imageBits ((o - 0x82000) % 0x10000) else b.1
/-- Copies of written lines leave every register cache (R134). -/
def State.dropLines (s : State) (team off n : Nat) : State :=
  let hit (p : PoolLine) : Bool := p.team == team && rangesMeet (lineAt p.group p.line) 128 off n
  { s with cores := s.cores.map fun c => (c.1, { c.2 with pool := c.2.pool.filter fun p => !hit p }) }
/-- IMAGE_WRITE: a system core writes to a team's image. The write takes effect at an evicted team's next residency; before the team is evicted it changes
nothing, and its error status is logged (R46, R134). -/
def execImageWrite (team offset : Nat) (bytes : List Byte) (s : State) : Host.Outcome State Fault Refusal :=
  let t := s.team team
  .next (if !cellHas s.teams team || t.status == .ended then s
    else if t.status == .evicted then
      (s.placeBytes (s.viOf t) (s.imageBase t + offset) (imageBytes t offset bytes)).dropLines team offset bytes.length
    else s.log 13 team)

-- The stalled-residency rule (R298, R324).
/-- Candidates of some launches to be made resident on a core, evicted longest first. -/
def State.swapCandidates (s : State) (launches : Nat → Bool) (p logical : Nat) : List (Nat × Team) :=
  let lives (t : Team) : Bool := (s.onCore p logical (s.launch t.launch).determinate).any fun u => u.2.status == .resident && u.2.launch == t.launch
  let c := s.teams.filter fun t =>
    let det := (s.launch t.2.launch).determinate
    launches t.2.launch && t.2.status == .evicted && lives t.2 && !t.2.held && !t.2.escalated && s.mayPlace t.2.launch &&
      decide ((s.cluster t.2.cluster).w * (s.cluster t.2.cluster).h ≤ 1) &&
      (s.cluster t.2.cluster).tower == coreTower ((s.partition p).seat det logical) && (!det || t.2.logical == logical)
  sortBy (fun (a b : Nat × Team) => decide (a.2.evictedAt < b.2.evictedAt ∨ (a.2.evictedAt = b.2.evictedAt ∧
    (a.2.node < b.2.node ∨ (a.2.node = b.2.node ∧ a.2.index.toNat ≤ b.2.index.toNat))))) c
/-- A pre-emption of the stalled-residency rule: at once where the team is at a stopping point, and otherwise when it comes to one. -/
def State.stopSoon (s : State) (team : Nat) : State :=
  if s.stoppable team then s.stopCluster team
  else (s.clusterOf team).foldl (fun (s : State) t => s.modTeam t fun x => { x with preempt := x.preempt || x.status == .resident }) s
/-- The resident teams of a launch on a core, most recent first. -/
def State.victims (s : State) (p logical : Nat) (launch : Nat) : List (Nat × Team) :=
  sortBy (fun (a b : Nat × Team) => decide (b.2.since ≤ a.2.since))
    ((s.onCore p logical (s.launch launch).determinate).filter fun u => u.2.status == .resident && u.2.launch == launch)
/-- The swap: the launch's teams on the core are pre-empted, most recent first, until the team fits in what they give up; it is resident when they have
given it up (R320). -/
def State.swapIn (s : State) (p logical team : Nat) : State :=
  let t := s.team team
  let vs := (s.victims p logical t.launch).map (·.1)
  let core := (s.partition p).physical logical
  match (List.range (vs.length + 1)).find? fun n => s.fits p logical (s.needOf t) (team :: vs.take n) (s.launch t.launch).determinate with
  | some n => ((vs.take n).foldl (fun (s : State) v => s.stopSoon v) (s.modCore core fun k => { k with swap := some (team, logical) })).swapDone core
  | none => s
def State.stalled (s : State) (launches : Nat → Bool) (p logical : Nat) : State :=
  match s.swapCandidates launches p logical with
  | t :: _ => s.swapIn p logical t.1
  | [] => s
/-- The launches that the count of cycles serves: a determinate launch counts commits instead (R304). -/
def State.cycleCounted (s : State) (li : Nat) : Bool := !(s.launch li).determinate
/-- A team of a core still has to stop, or to give up its memory. -/
def State.giving (s : State) (core : Nat) : Bool :=
  s.teams.any fun t => t.2.core == core && ((t.2.status == .resident && t.2.preempt) || t.2.status == .stopped)
/-- A team has been made resident on a core in this tick. -/
def State.swapped (s : State) (core : Nat) : Bool := s.teams.any fun t => t.2.core == core && t.2.status == .resident && t.2.since == s.tick
/-- STALL_COUNT_EXPIRY: the stall count of a core has reached 4,096; it restarts. A swap under way goes on; one that can no longer take place gives way to a new
search (R298, R324). -/
def execStallCountExpiry (core : Nat) (s : State) : Host.Outcome State Fault Refusal :=
  .next (if (s.core core).stall < 4096 then s
  else
    let pending := (s.core core).swap.isSome
    let s := (s.swapDone core).modCore core fun k => { k with stall := 0 }
    if (s.core core).swap.isSome && s.giving core then s
    else if pending && (s.core core).swap.isNone && s.swapped core then s
    else
      let s := s.modCore core fun k => { k with swap := none }
      match s.gridOf core with
      | some p => (match (s.partition p).logicalOf core with
        | some l => s.stalled s.cycleCounted p l
        | none => s)
      | none => s)

-- The end of a launch (R296, R314, R341).
/-- The teams of a killed launch are discarded (R220, R314). A request that its chunks have sent is still performed, and sets no bit (R220, R350). -/
def State.discard (s : State) (li : Nat) : State :=
  let ts := (s.teams.filter fun t => t.2.launch == li && t.2.status != .ended).map (·.1)
  let s := ts.foldl (fun (s : State) t => s.modTeam t fun x => { x with groups := x.groups.map fun g => (g.1, { g.2 with live := 0 }), cmds := [] }) s
  let s : State := { s with clusters := s.clusters.map fun c => if c.2.launch == li then (c.1, { c.2 with rdv := none, arrived := [] }) else c }
  let s := (s.cores.map (·.1)).foldl (fun (s : State) c => s.leaveQueues c ts) s
  ts.foldl (fun (s : State) t => s.endTeam t) s
/-- Counter increments are written back (R341); an area that does not translate takes none. -/
def State.writeCounters (s : State) (vi : Nat) : State :=
  let v := s.vi vi
  let s := v.counters.foldl (fun (s : State) p =>
    let a := bitsOf v.wmCbase 13 51 * 8192 + 8 * p.1
    match s.readVirt vi a 8 with
    | .ok bs => s.placeBytes vi a (wordBytes (bytesWord bs + p.2.toNat) 8)
    | .error _ => s) s
  s.modVi vi fun v => { v with counters := [] }
def Launch.record (l : Launch) : Completion :=
  { tag := l.tag.toNat
    kind := 1
    status := match l.kill with | some k => k.status | none => 0
    flags := (if l.lockLost then 1 else 0) + if l.determinate then 2 else 0
    teams := l.formed
    start := l.start
    dropped := l.dropped.toNat
    unobserved := l.unobserved.toNat
    records := l.records.toNat
    counters := l.counters
    kill := match l.kill with | some k => if k.status == 3 then none else some k | none => none }
/-- A launch is over. -/
def State.over_ (s : State) (li : Nat) : Bool :=
  let l := s.launch li
  cellHas s.launches li && (l.kill.isSome || (decide (l.grid ≤ l.nextEntry) && (l.queues.all fun b => b.recs.isEmpty) &&
    s.teams.all fun t => t.2.launch != li))
/-- LAUNCH_COMPLETE: everything of the launch is given up, and its completion record is written (R296). A record that cannot be written kills the launch with
status 2, which its trace alone then shows (R317). -/
def State.finishLaunch (s : State) (li : Nat) : State :=
  let vi := (s.launch li).vi
  let s := if (s.launch li).kill.isSome then s.discard li else s
  let l := s.launch li
  let s := s.writeCounters vi
  let r := s.record vi l.completion l.record
  let status := if r.isNone && l.kill.isNone then 2 else l.record.status
  { (r.getD s).traceLaunch l (wordBytes 2 1 ++ wordBytes status 1) with launches := cellDel s.launches li }
def execLaunchComplete (launch : Nat) (s : State) : Host.Outcome State Fault Refusal :=
  .next (if s.over_ launch then s.finishLaunch launch else s)

-- Page walks.
/-- PAGE_WALK: a walk ends, and its leaf is cached (R317). -/
def execPageWalk (vi va : Nat) (s : State) : Host.Outcome State Fault Refusal :=
  .next (if cellHas s.vis vi && va / 2 ^ 48 == 0 && (s.vi vi).tlb.all fun x => x.1 != va / 2 ^ x.2.1 then
    (match s.walk va walkLevels (s.vi vi).root.toNat with
      | .ok (bits, e) => s.modVi vi fun v => { v with tlb := v.tlb ++ [(va / 2 ^ bits, bits, dw e)] }
      | .error _ => s)
  else s)

end Sys2Proof.Machine
end

