-- ==== Sys2Proof/Machine/Gate.lean ====
section
/-! DEFINITION. The turn of an agent: whether it may move (08 R133, R135, 17 R300, R301, 18 R320, 22 R344), the header it falls into (02 R31),
the word it issues (R36, 18 R317), the access of one lane alone (15 R242), and issue priority (08 R136). -/

namespace Sys2Proof.Machine

/-- The issuing agent stands before the exit of the last live lanes of its launch, to which no more work comes (R321). -/
def State.lastExit (s : State) : Bool :=
  let l := s.curLaunch
  match s.nextInstr s.cur with
  | some (.exit k) => decide (l.grid ≤ l.nextEntry) && (l.queues.all fun b => b.recs.isEmpty) &&
      s.teams.all fun t => t.2.launch != s.curTeam.launch || t.2.liveSet == 0 ||
        (t.1 == s.cur.team && t.2.liveSet &&& ~~~(t.2.own s.cur.agent (s.kset k.toNat)) == 0)
  | _ => false
/-- A PC stop matches the instruction the issuing agent is about to issue; at the launch's last exit it is void (R344). -/
def State.atPcStop (s : State) : Bool :=
  s.curAgent.progress.isNone && s.curAgent.issued.isNone && s.curAgent.rest != 0 && s.stopArmed s.cur 1 &&
    bitsOf (s.vi (s.viOf s.curTeam)).wmStop 3 32 == s.curAgent.pc && !s.lastExit
/-- The lines that the agent's next instruction touches are present (R133, R135). -/
def State.linesHere (s : State) (a : AgentRef) : Bool :=
  match s.nextInstr a with
  | some i => (s.absent a i).isEmpty
  | none => true
/-- The agent issues: nothing it waits for is still to come, or it polls the watch of an await. -/
def Agent.issues (x : Agent) : Bool :=
  match x.status with
  | .ready | .await _ _ => true
  | _ => false
/-- The issuing agent may move: its team runs and has its memory back, its instruction's lines are present, no stop holds it, and in a determinate launch
its group's leg goes on. -/
def State.mayMove (s : State) : Bool :=
  let t := s.curTeam
  let x := s.curAgent
  let g := s.curGroup
  s.canIssue && x.issues && s.linesHere s.cur && !t.writeBack && !(t.held && x.stopWaived) &&
    (!s.curLaunch.determinate || x.progress.isSome || (!g.legEnded && s.legTurn s.cur.team x.host))
/-- The word before a PC is the last word of its kernel (R31). -/
def State.kernelEnds (s : State) (t : Team) (pc : Nat) : Bool :=
  let has (k : Kernel) : Bool := decide (k.first < pc ∧ pc ≤ k.first + k.words)
  let own := s.kernelOf t
  if has own then pc == own.first + own.words else (s.objectOf t).kernels.any fun k => has k && pc == k.first + k.words
/-- A launch whose code cannot be fetched is killed (R317). -/
def State.killFetch (s : State) : State := s.killLaunch s.curTeam.launch (s.killAt s.cur 2 s.curAgent.pc 1)
/-- Fall-through into the next block (R31). -/
def State.fallThrough (s : State) : State :=
  let pc := s.curAgent.pc
  if s.kernelEnds s.curTeam pc then s.raiseAt s.cur (illegal 2) true
  else match s.codeWord s.curTeam pc with
    | .error _ => s.killFetch
    | .ok _ => match s.headerAt s.curTeam pc with
      | some h => if hdrLength h == 0 then s.raiseAt s.cur (illegal 2) true else s.enterBlock s.cur pc
      | none => s.raiseAt s.cur (illegal 2) true

/-- What a turn of an agent comes to: a state, or an instruction to issue in one. -/
inductive Move where
  | done (s : State)
  | issue (i : Instr) (s : State)
deriving DecidableEq, Repr

/-- The turn of an agent. A counted length that runs past the kernel's last word is issued to its end: only a fall-through there asks where the kernel ends
(DESIGN CHOICE, log 100). -/
def State.agentMove (s : State) (a : AgentRef) : Move :=
  let s := { s with cur := a }
  if !s.mayMove then .done s
  else if s.atPcStop then .done (s.stopHold a 1 0)
  else if s.curAgent.rest == 0 then .done s.fallThrough
  else match s.fetch a with
    | .unmapped => .done s.killFetch
    | .illegal c w => .issue (.unassignedOpcodeIssue c w) s
    | .instr i => if s.curLaunch.determinate && s.curAgent.progress.isNone && s.endsLeg i then .done s else .issue i (s.useLines a i)

/-- One lane of the agent's memory instruction makes its access alone (R242, log 101); not in a determinate launch, whose device order is that of its commits
(R301). -/
def State.laneMove (s : State) (a : AgentRef) (gl : Nat) : State :=
  let s' : State := { s with cur := a }
  if !s'.mayMove || s'.atPcStop || s'.curLaunch.determinate || s'.curAgent.rest == 0 then s
  else match s'.fetch a with
    | .instr (.ld w k d m) => ldBody w k d m false false false (some gl) s'
    | .instr (.st w k d m) => stBody w k d m false (some gl) s'
    | .instr (.atom op f) => atomBody op f false (some gl) s'
    | .instr (.tld f) => (tldTile f s').body (some gl) s'
    | .instr (.tred f) => (tredTile f s').body (some gl) s'
    | .instr (.ttr f) => (ttrTile f s').body (some gl) s'
    | .instr (.gather f) => (gatherTile f s').body (some gl) s'
    | .instr (.scatter f) => (scatterTile f s').body (some gl) s'
    | _ => s

-- Issue priority (R135, R136, R143).
/-- A command is not complete, that a group waits for. -/
def Team.owes (t : Team) (g : Nat) (p : Cmd → Bool) : Bool := (t.unwaited g).any fun (c : Cmd) => p c && c.state != .complete
/-- The stall reason (R143) of what the issuing agent waits for, standing ready before or in an instruction that would neither go on nor fault: a command (R190 to
R192, R196, R295), a copy (R295), room in a bin (R294), a granule, a completion bit or a phase (R155, R211, R171). The wait of an exit is one of mwait.all
(DEDUCED, log 117). -/
def State.waitingAt (s : State) : Option Nat :=
  let t := s.curTeam
  let g := s.curAgent.host
  let w : Bool × Nat := match s.nextInstr s.cur with
    | some (.mwait id) => (s.mwaitFault.isNone && t.owes g fun c => c.id == id, 7)
    | some .mwaitAll => (s.mwaitFault.isNone && t.owes g fun _ => true, 7)
    | some (.mwaitPop _ q) => (s.mwaitFault.isNone && (s.curGroup.gang.bind fun x => x.queue) == some q && (cellGet [] s.curGroup.tokens q.toNat).isEmpty, 7)
    | some (.rolesw row) => ((s.roleCheck row).isNone && (!(t.copiesOf g).isEmpty || ((t.stoppedFor g).isNone && t.owes g fun _ => true)), 7)
    | some (.exit k) =>
      let ends := t.ending (s.members k.toNat)
      ((ends.findSome? t.stoppedFor).isNone && ends.any fun h => t.owes h fun _ => true, 7)
    | some (.emit f) => ((s.regFault (emitRegs f) false).isNone && s.emitWaits f, 6)
    | some (.ldFe ..) | some (.ldTake ..) | some (.pbarWait ..) | some (.bmwait ..) => (s.curAgent.issued.isSome, 6)
    | _ => (false, 6)
  if w.1 then some w.2 else none
/-- What an agent waits for that stands ready. -/
def State.waitOf (s : State) (a : AgentRef) : Option Nat := ({ s with cur := a } : State).waitingAt
/-- An agent is eligible to issue (R135): it may move, and is in no instruction that waits or goes on. -/
def State.eligible (s : State) (a : AgentRef) : Bool :=
  ({ s with cur := a } : State).mayMove && (s.agent a).status == .ready && (s.agent a).issued.isNone && (s.waitOf a).isNone
/-- A group of a team has an eligible agent. -/
def State.groupEligible (s : State) (team : Nat) (t : Team) (group : Nat) : Bool := t.agents.any fun a => a.2.host == group && s.eligible ⟨team, a.1⟩
/-- Time passes for the groups of resident teams: one without an eligible agent has been idle up to now (R136). -/
def State.noteIdle (s : State) : State :=
  { s with teams := s.teams.map fun t =>
      if t.2.status == .resident then
        (t.1, { t.2 with groups := t.2.groups.map fun g => if s.groupEligible t.1 t.2 g.1 then g else (g.1, { g.2 with idleAt := s.tick }) })
      else t }
/-- The cycles of a team's core for which a group of it has been eligible without issuing: 250 reference ticks are a microsecond (R3, R338). -/
def State.cyclesSince (s : State) (team group : Nat) : Nat :=
  let t := s.team team
  let g := t.group group
  (s.tick - max g.issuedAt g.idleAt) * (s.core t.core).mhz / 250
/-- A group is due for priority 4 (R136). -/
def State.boostDue (s : State) (team group : Nat) : Bool :=
  s.runs team && s.groupEligible team (s.team team) group && decide (64 ≤ s.cyclesSince team group)
/-- PRIORITY_BOOST: a group eligible for 64 cycles without issuing is treated as priority 4 until it issues (what only a pipeline makes it wait for is not kept:
DESIGN CHOICE, log 117). -/
def execPriorityBoost (team group : Nat) (s : State) : Host.Outcome State Fault Refusal :=
  .next (if s.boostDue team group then s.modTeam team fun t => t.modGroup group fun g => { g with boosted := true } else s)
/-- The priority of a group. -/
def Group.rank (g : Group) : Nat := if g.boosted then 4 else g.priority
/-- An agent issues before another: higher priority, then least recent issue, then the lower team slot and group slot (R136). -/
def State.issuesFirst (s : State) (a b : AgentRef) : Bool :=
  let x := s.groupOf a
  let y := s.groupOf b
  let key (g : Group) (a : AgentRef) : List Nat := [4 - g.rank, g.issuedAt, (s.team a.team).teamSlot, (s.agent a).host]
  let le : List Nat → List Nat → Bool := fun l m => match (l.zip m).find? fun p => p.1 != p.2 with
    | some p => decide (p.1 < p.2)
    | none => true
  le (key x a) (key y b)
/-- The agents that may move, by issue priority. -/
def State.movers (s : State) : List AgentRef :=
  sortBy s.issuesFirst <| s.teams.flatMap fun t => (t.2.agents.map fun a => AgentRef.mk t.1 a.1).filter fun a => ({ s with cur := a } : State).mayMove
/-- Those that a fair rotation lets move: of the eligible agents of one quarter of a core, the first (R136), and every other one, which is inside an instruction. -/
def State.firstMovers (s : State) : List AgentRef :=
  let quarter (a : AgentRef) : Nat × Nat := ((s.team a.team).core, (s.agent a).host % 4)
  s.movers.foldl (fun l a => if s.eligible a && l.any fun b => s.eligible b && quarter b == quarter a then l else l ++ [a]) []

end Sys2Proof.Machine
end

