-- ==== Sys2Proof/Machine/Regions.lean ====
section
/-! DEFINITION. Regions (06 R105 to R116): apply, apply.t, apply2, join, and exit (R109). -/

namespace Sys2Proof.Machine

/-- The target of an apply and its continuation hold (R32). -/
def State.applyFault (s : State) (pc : Nat) : Option Raise :=
  if (s.contOf s.curTeam pc).isSome then none else some (illegal 7)
/-- The continuation of a target that passed. -/
def State.contAt (s : State) (pc : Nat) : Nat := (s.contOf s.curTeam pc).getD pc
/-- n more entries would pass the switchback (R105). -/
def State.overflow (s : State) (n : Nat) : Option Raise :=
  if 1032 < s.swdOf s.cur + n then some { kind := 4, d0 := dw (s.swdOf s.cur) } else none
/-- A local region would make a 17th team-form entry set, one of whose sets belongs to several groups (R114); halves that run one after the other make one
between them. The count shown is that of the sets held (DESIGN CHOICE, log 125). -/
def State.entryFault (s : State) (sets : List LaneSet) : Option Raise :=
  let held := s.curTeam.entrySets
  if sets.any several && decide (16 < held + 1) then some { kind := 5, d0 := dw held } else none

/-- apply (R106, R107). -/
def execApply (ka : KReg) (off : BitVec 16) (s : State) : Host.Outcome State Fault Refusal :=
  s.issueChecked (fun s =>
    let e := s.members ka.toNat
    firstFault [s.applyFault (s.goal off), if e = 0 then none else s.overflow 1, s.entryFault [e]]) fun s =>
    let e := s.members ka.toNat
    let pc := s.goal off
    let cont := s.contAt pc
    let s := s.clearK ka.toNat
    if e = 0 then s.jump cont
    else s.retireThen {} fun s => (s.modCurTeam fun t => t.pushLocal s.cur.agent cont e).enterBlock s.cur pc

/-- apply.t (R103, R107, R110). -/
def execApplyT (policy : BitVec 2) (ka : KReg) (off : BitVec 16) (s : State) : Host.Outcome State Fault Refusal :=
  let same (s : State) (r : Rdv) : Bool :=
    r.kind == .applyT && r.pc == s.curAgent.pc && (r.setA &&& s.curTeam.liveSet) == s.kset ka.toNat
  s.issueChecked (fun s =>
    firstFault [s.applyFault (s.goal off),
      if s.members ka.toNat = 0 then none else firstFault [s.overflow 1, s.rdvFault (same s) false]]) fun s =>
    let e := s.kset ka.toNat
    let pc := s.goal off
    if s.members ka.toNat = 0 then (s.clearK ka.toNat).jump (s.contAt pc)
    else
      let s := s.clearK ka.toNat
      let desc := if ka = 0 then s.curTeam.k0Desc s.cur.agent else cellGet 0 s.curGroup.k ka.toNat
      s.arriveRdv ⟨.applyT, s.curAgent.pc, e, 0, desc, policy, pc, 0, []⟩ (same s) 0

/-- apply2 (R116). An agent without a member in either set of a team apply2 passes on as one of an apply.t does (R103, R107; DESIGN CHOICE, log 91). -/
def execApply2 (ka kb : KReg) (off0 : BitVec 16) (off1 : BitVec 15) (s : State) : Host.Outcome State Fault Refusal :=
  let own (s : State) : Bool := ((s.kset ka.toNat ||| s.kset kb.toNat) &&& ~~~s.curAgent.lanes) == 0
  let mine (s : State) : LaneSet := (s.kset ka.toNat ||| s.kset kb.toNat) &&& s.curAgent.lanes
  let same (s : State) (r : Rdv) : Bool :=
    r.kind == .apply2 && r.pc == s.curAgent.pc && (r.setA &&& s.curTeam.liveSet) == s.kset ka.toNat &&
      (r.setB &&& s.curTeam.liveSet) == s.kset kb.toNat
  s.issueChecked (fun s =>
    let t := s.kset ka.toNat
    let f := s.kset kb.toNat
    firstFault [s.applyFault (s.goal off0), s.applyFault (s.goal off1),
      if s.contOf s.curTeam (s.goal off0) == s.contOf s.curTeam (s.goal off1) then none else some (illegal 7),
      if t &&& f == 0 then none else some (regionFault 4 0),
      if mine s = 0 then none
      else if own s then firstFault [s.overflow (if t != 0 && f != 0 then 2 else 1), s.entryFault [t, f]]
      else firstFault [s.overflow 1, s.rdvFault (same s) false]]) fun s =>
    let t := s.kset ka.toNat
    let f := s.kset kb.toNat
    let bt := s.goal off0
    let bf := s.goal off1
    let cont := s.contAt bt
    let s := (s.clearK ka.toNat).clearK kb.toNat
    let a := s.cur.agent
    if mine s = 0 then s.jump cont
    else if own s then s.retireThen {} fun s =>
      if t = 0 then (s.modCurTeam fun x => x.pushLocal a cont f).enterBlock s.cur bf
      else if f = 0 then (s.modCurTeam fun x => x.pushLocal a cont t).enterBlock s.cur bt
      else
        (s.modCurTeam fun x =>
          let old := (x.agent a).k0
          let x := x.modAgent a fun y => { y with stack := ⟨old, cont, 1, 0, 0⟩ :: y.stack }
          let x := x.pushHalf a bf f
          let c := x.canonical (x.agent a).host t
          c.1.modAgent a fun y => { y with k0 := c.2 }).enterBlock s.cur bt
    else
      let desc := if ka = 0 then s.curTeam.k0Desc s.cur.agent else cellGet 0 s.curGroup.k ka.toNat
      s.arriveRdv ⟨.apply2, s.curAgent.pc, t, f, desc, 0, bt, bf, []⟩ (same s) 0

/-- join (R108, R113, R117, R118). -/
def execJoin (s : State) : Host.Outcome State Fault Refusal :=
  s.issueChecked (fun s =>
    let x := s.curAgent
    match x.stack, x.kind with
    | [], .fragment _ => none
    | [], .group => some (regionFault 1 0)
    | [], .trap _ _ => if x.inRegion then none else some (regionFault 1 0)
    | e :: _, _ => if decide (1 ≤ e.kind ∧ e.kind ≤ 3) then none else some (regionFault 1 0)) fun s =>
    let s := s.retire {}
    let x := s.curAgent
    if !cellHas s.curTeam.agents s.cur.agent then s
    else match x.stack, x.kind with
    | [], .trap _ _ => (s.endTrap s.cur).leaveDead s.cur.team 64
    | _, _ =>
      if (s.curTeam.traps s.cur.agent x.stack.length).isEmpty then (s.joinEffect s.cur).leaveDead s.cur.team 64
      else s.modCur fun x => { x with status := .join }

/-- exit (R109, R196). -/
def execExit (k : KReg) (s : State) : Host.Outcome State Fault Refusal :=
  s.issuePlain fun s =>
    let e := s.members k.toNat
    let ended := s.curTeam.ending e
    match ended.findSome? s.curTeam.stoppedFor with
    | some c => s.raise c.raise
    | none =>
      if ended.any fun g => (s.curTeam.unwaited g).any fun c => c.state != .complete then s
      else
        let a := s.cur
        let s := ended.foldl (fun (s : State) g => s.waitedFor a g (s.curTeam.unwaited g)) (s.clearK k.toNat)
        if e = 0 then s.retire { endsSpin := true, legEnd := true }
        else
          let parent := match s.curAgent.kind with
            | .trap p _ => some p
            | _ => none
          let s := ((s.modCurTeam fun t => t.clearLive e).retire { endsSpin := true, legEnd := true })
          let s := match parent with
            | some p => if cellHas s.curTeam.agents a.agent then s else s.leaveEmpty ⟨a.team, p⟩ none 4096
            | none => s
          s.afterExit a ended

end Sys2Proof.Machine
end

