-- ==== Sys2Proof/Machine/Commit.lean ====
section
/-! DEFINITION. Commits of a determinate launch (17 R300 to R304): held writes, leg-ending instructions, pre-emptions, swaps and placement; and
the packet that starts a launch (17 R281). -/

namespace Sys2Proof.Machine

-- Held writes (R301).
/-- The held writes of one instruction: who issued it, the state its checks are judged against, and the lanes struck so far. -/
structure Perform where
  s : State
  before : Before
  agent : Nat
  pc : Nat
  rest : Nat
  struck : List (Nat × Raise)
  done : List (Nat × Nat × Nat × List (Nat × Raise))
def Perform.flush (p : Perform) : Perform :=
  if p.struck.isEmpty then p else { p with struck := [], done := p.done ++ [(p.agent, p.pc, p.rest, p.struck)] }
/-- The milestone of a held write's element. -/
def heldMs (w : DWord) (h : Held) : DWord :=
  let op := fOp w.toNat
  if 0x141 ≤ op ∧ op ≤ 0x147 then milestoneOf op h.pc h.elem else 0
/-- One held write is performed. -/
def Perform.write (team g : Nat) (p : Perform) (h : Held) : Perform :=
  let agent := if cellHas (p.s.team team).agents h.agent then h.agent else g
  let p := if p.agent == agent && p.pc == h.pc then p else { p.flush with before := p.s.linesNow, agent := agent, pc := h.pc, rest := h.rest }
  let s := { p.s with cur := ⟨team, agent⟩ }
  let c := { s.laneAcc ⟨h.handle, h.coords, h.elem, Ord.plain, false⟩ (s.heldPlace team h) h.addr h.bytes.length h.lane false true with pc := h.pc }
  let r := ({ Run.start s with struck := p.struck } : Run).access p.before c h.lane (heldMs (s.wordAt s.cur h.pc) h) false fun _ => some h.bytes
  { p with s := r.1.s, struck := r.1.struck.map fun x => if x.2.records.isEmpty then (x.1, { x.2 with records := h.records }) else x }
/-- The held writes of a group in program order, and the trap fragments of those that raced: a fragment issues its instruction again
(DESIGN CHOICE, log 32). -/
def State.performHeld (s : State) (team g : Nat) : State :=
  let held := ((s.team team).group g).held
  let s0 := s.modTeam team fun t => t.modGroup g fun x => { x with held := [] }
  let p := (held.foldl (Perform.write team g) ⟨s0, s0.linesNow, g, 2 ^ 32, 0, [], []⟩).flush
  p.done.foldl (fun (s : State) d =>
    let a : AgentRef := ⟨team, d.1⟩
    let w := s.wordAt a d.2.1
    (fragments d.2.2.2).foldl (fun (s : State) f => s.formTrap a f.1 f.2 w d.2.1 (d.2.2.1 - wordCount w) false true) s) p.s

-- Leg-ending instructions.
def stateOf (s : State) : Host.Outcome State Fault Refusal → State
  | .next s' => s'
  | _ => s
/-- A leg-ending instruction takes effect. -/
def State.commitInstr (s : State) (i : Instr) : State :=
  stateOf s (match i with
    | .ld w k d m => execLd w k d m s
    | .st w k d m => execSt w k d m s
    | .atom op f => execAtom op f s
    | .ldFe w k d m => execLdFe w k d m s
    | .ldTake w k d m => execLdTake w k d m s
    | .kld d m => execKld d m s
    | .kst a m => execKst a m s
    | .fence sc => execFence sc s
    | .bar => execBar s
    | .cbar => execCbar s
    | .kgatherT d a => execKgatherT d a s
    | .applyT p ka off => execApplyT p ka off s
    | .apply2 ka kb o0 o1 => execApply2 ka kb o0 o1 s
    | .bmwait la d bm sl m => execBmwait la d bm sl m s
    | .pbarArrive d m => execPbarArrive d m s
    | .pbarWait d m => execPbarWait d m s
    | .await d t => execAwait d t s
    | .mwait x => execMwait x s
    | .mwaitAll => execMwaitAll s
    | .mwaitPop d q => execMwaitPop d q s
    | .cpy f => execCpy f s
    | .cpyx f => execCpyx f s
    | .cpym f m => execCpym f m s
    | .mma f => execMma f s
    | .emit f => execEmit f s
    | .rolesw r => execRolesw r s
    | .rmode m => execRmode m s
    | .exit k => execExit k s
    | .tretComplete => execTretComplete s
    | _ => .next s)
/-- An agent's turn at a commit: its leg-ending instruction, or what it waits for. -/
def State.commitAgent (s : State) (a : AgentRef) : State :=
  let s := { s with cur := a }
  if !s.canIssue then s
  else match s.curAgent.status with
    | .accept id => s.tryAccept a id
    | .ready | .await _ _ =>
      if s.curAgent.status == .ready && s.atPcStop then s.stopHold a 1 0
      else match s.nextInstr a with
        | some i => if s.curAgent.progress.isNone && s.endsLeg i then s.commitInstr i else s
        | none => s
    | _ => s
/-- A pre-emption of the team's cluster takes effect at this commit (R304). -/
def State.stopping (s : State) (team : Nat) : Bool := (s.clusterOf team).any fun t => (s.team t).preempt
/-- A group's turn at a commit. One that ended its leg otherwise has no leg-ending instruction to perform; one that retired something here
has not waited. A group of a team that is pre-empted now stops before its leg-ending instruction, so that every copy and command it has accepted is complete
(R299, R302; DEDUCED, log 135). -/
def State.commitGroup (s : State) (team g : Nat) : State :=
  if !s.runs team then s
  else
    let ended := ((s.team team).group g).legEnded
    let s := s.performHeld team g
    if ended || s.stopping team then s
    else
      let n := ((s.team team).group g).legCount
      let agents := ((s.team team).agents.filter fun p => p.2.host == g).map (·.1)
      let s := agents.foldl (fun (s : State) p => s.commitAgent ⟨team, p⟩) s
      let s := ((s.team team).cmds.filter fun (c : Cmd) => c.leader == g && c.state == .checked).foldl (fun (s : State) c => s.acceptCmd team c) s
      if n < ((s.team team).group g).legCount then s.modTeam team fun t => t.modGroup g fun x => { x with legEnded := true } else s

-- Placement at a commit (R304).
/-- The entry records that fit enter. -/
def State.enterAll (s : State) (li : Nat) : Nat → State
  | 0 => s
  | n + 1 =>
    let l := s.launch li
    if s.lives li && decide (l.nextEntry < l.grid) && decide (l.occupancy l.entry < ((s.object l.object).node l.entry).cap) then
      (s.enterRecord li).enterAll li n
    else s
/-- The dispatcher acts until it can place nothing more. -/
def State.dispatchAll (s : State) (li : Nat) : Nat → State
  | 0 => s
  | n + 1 =>
    let s := s.enterAll li 65536
    if !s.mayPlace li then s
    else match s.placeEvicted li with
      | some s' => s'.dispatchAll li n
      | none =>
        if ((s.readyNodes li).findSome? fun k => s.placeFor li k).isSome then (s.placeNew li).dispatchAll li n else s
/-- The dispatcher has something to do. -/
def State.canDispatch (s : State) (li : Nat) : Bool :=
  let l := s.launch li
  (decide (l.nextEntry < l.grid) && decide (l.occupancy l.entry < ((s.object l.object).node l.entry).cap)) ||
    (!l.held && ((s.placeEvicted li).isSome || ((s.readyNodes li).findSome? fun k => s.placeFor li k).isSome))

-- Stalled residency (R304).
/-- A group ended its leg waiting or spinning: it retired nothing at its end, or spins. -/
def Group.idled (g : Group) : Bool := g.live == 0 || !g.legEnded || g.spinning
/-- The resident teams of a launch on a logical core. -/
def State.onLogical (s : State) (li logical : Nat) : List Team :=
  (s.teams.filter fun t => t.2.launch == li && t.2.status == .resident && t.2.logical == logical).map (·.2)
def State.countIdle (s : State) (li : Nat) : State :=
  let logicals := ((s.teams.filter fun t => t.2.launch == li && t.2.status == .resident).map fun t => t.2.logical).eraseDups
  s.modLaunch li fun l =>
    { l with idle := logicals.foldl (fun (m : Cells Nat) c =>
        if (s.onLogical li c).all fun t => t.groups.all fun g => g.2.idled then cellPut m c (cellGet 0 l.idle c + 1) else m) [] }
/-- The swaps of the logical cores idle at 4 successive commits; their counts restart. -/
def State.swapIdle (s : State) (li : Nat) : State :=
  let p := (s.vi (s.launch li).vi).partition
  let due := ((s.launch li).idle.filter fun x => decide (4 ≤ x.2)).map (·.1)
  due.foldl (fun (s : State) c => (s.stalled (· == li) p c).modLaunch li fun l => { l with idle := cellDel l.idle c }) s

-- COMMIT.
/-- A stopped team of the launch can still be saved; the commit waits for it, so that every run returns it at the same commit. -/
def State.saving (s : State) (li : Nat) : Bool :=
  s.teams.any fun t => t.2.launch == li && t.2.status == .stopped &&
    (t.2.sharedSaved || (s.poolGap (s.partitionOf t.2) t.2.poolBytes).isSome)
/-- A leg-ending instruction still waits for a line it touches (R133). -/
def State.filling (s : State) (li : Nat) : Bool :=
  s.teams.any fun t => t.2.launch == li && t.2.status == .resident && t.2.agents.any fun a => a.2.status == .ready && !s.linesHere ⟨t.1, a.1⟩
/-- Commit n may take place (R301, R302). -/
def State.commitReady (s : State) (li : Nat) : Bool :=
  s.lives li && (s.launch li).determinate && s.legsEnded li && (s.openCopies li).isEmpty && (s.openCmds li).isEmpty && !s.saving li && !s.filling li &&
    (!(s.legGroups li).isEmpty || s.canDispatch li)
/-- The end of every leg. -/
def Group.newLeg (g : Group) : Group := { g with legEnded := false, legCount := 0 }
def State.newLegs (s : State) (li : Nat) : State :=
  { s with teams := s.teams.map fun t => if t.2.launch == li then (t.1, { t.2 with groups := t.2.groups.map fun g => (g.1, g.2.newLeg) }) else t }
/-- Requested pre-emptions take effect. -/
def State.stopAsked (s : State) (li : Nat) : State :=
  ((s.teams.filter fun t => t.2.launch == li && t.2.status == .resident && t.2.preempt).map (·.1)).foldl (fun (s : State) t => s.stopSoon t) s
def State.commit (s : State) (li : Nat) : State :=
  let s := (s.legGroups li).foldl (fun (s : State) g => s.commitGroup g.1 g.2) s
  if !s.lives li then s
  else
    let s := (s.countIdle li).newLegs li |>.modLaunch li fun l => { l with commits := l.commits + 1 }
    ((s.stopAsked li).swapIdle li).dispatchAll li 4096
def execCommit (launch : Nat) (s : State) : Host.Outcome State Fault Refusal := .next (if s.commitReady launch then s.commit launch else s)

/-- LAUNCH_PACKET; it also answers packets of an unknown kind, and drops a slot that cannot be read. The teams of a determinate launch that can
start do so with it. -/
def execLaunchPacket (vi : Nat) (s : State) : Host.Outcome State Fault Refusal :=
  .next (match s.packet vi with
    | none => s
    | some bs =>
      if leAt bs 0 1 == 2 || leAt bs 0 1 == 3 then s
      else if bs.isEmpty then (s.consume vi).log 2 vi
      else
        let l := s.draftLaunch vi bs
        match s.launchCause vi bs l with
        | some c => (s.consume vi).answer vi bs (some c) 0
        | none =>
          let s' := (s.consume vi).startLaunch l
          if l.determinate then s'.dispatchAll s.nextLaunch 4096 else s')

end Sys2Proof.Machine
end

