-- ==== Sys2Proof/Machine/Convert.lean ====
section
/-! DEFINITION. Conversions and random draws (05 R87 to R89, 04 R62 to R64). -/

namespace Sys2Proof.Machine

/-- A source operand of a type: element j of a narrow type, the register, or the pair (R69, R87). -/
def State.typedSource (s : State) (gl : Nat) (t : Ty) (r : VReg) (j : Nat) : Nat :=
  if t.bits == 64 then (s.vpair gl r.toNat).toNat
  else if t.narrow then elemOf t (s.vreg gl r.toNat).toNat j
  else (s.vreg gl r.toNat).toNat

/-- Element j of a register replaced; the pad bits of a 6-bit type become 0 (R69, R87). -/
def putElem (t : Ty) (old j y : Nat) : Nat :=
  let step := elemStep t
  old / 2 ^ (step * (j + 1)) * 2 ^ (step * (j + 1)) + y * 2 ^ (step * j) + old % 2 ^ (step * j)

/-- The registers a typed operand names (R39). -/
def typedRegs (t : Ty) (r : VReg) : List Nat := if t.bits == 64 then pairRegs r.toNat else [r.toNat]

/-- The effect of a conversion: each member's result, and sr.sat[0] of the home groups with a saturating lane (R62,
R64). -/
def State.convOp (s : State) (k : KReg) (t : Ty) (d : VReg) (j : Nat) (f : Nat → Conv) : State :=
  let lanes := s.lanes k
  let s' := s.clearK k.toNat
  let s' := if t.bits == 64 then s'.writePairs lanes d.toNat fun gl => BitVec.ofNat 64 (f gl).bits
    else s'.writeLanes lanes d.toNat fun gl =>
      BitVec.ofNat 32 (if t.narrow then putElem t (s.vreg gl d.toNat).toNat j (f gl).bits else (f gl).bits)
  (s'.modCurTeam fun t => t.setSat (lanes.filter fun gl => (f gl).sat)).retire {}

def execCvt (k : KReg) (dst src : Ty) (rm : Rm) (d a : VReg) (jd js : BitVec 3) (s : State) : Host.Outcome State Fault Refusal :=
  s.issue (typedRegs dst d ++ typedRegs src a) false fun s =>
    s.convOp k dst d jd.toNat fun gl => convNum dst rm (decodeNum src (s.typedSource gl src a js.toNat))

/-- The 16 random bits of cvt.sr (R88). -/
def State.randomBits (s : State) (gl : Nat) (b : RegSrc) (hi : Bool) : Nat := fld (s.laneReg gl b).toNat (if hi then 16 else 0) 16
def execCvtSr (k : KReg) (dst : Ty) (wide : Bool) (d a : VReg) (b : RegSrc) (hi : Bool) (jd : BitVec 3) (s : State) :
    Host.Outcome State Fault Refusal :=
  let src : Ty := if wide then .f64 else .f32
  s.issue (d.toNat :: (typedRegs src a ++ b.regs)) false fun s =>
    s.convOp k dst d jd.toNat fun gl => convStochastic dst (s.randomBits gl b hi) (decodeNum src (s.typedSource gl src a 0))

/-- Round i of the generator G (R89). -/
def drawRound (lo hi : Word) (i : Nat) (x : Word) : Word :=
  let x := x + (if i % 2 == 0 then lo else hi) + 0x9E3779B9 * BitVec.ofNat 32 (i + 1)
  let x := x ^^^ (x >>> 15)
  let x := x * 0x2C1B3C6D
  let x := x ^^^ (x >>> 12)
  let x := x * 0x297A2D39
  x ^^^ (x >>> 15)
/-- The generator G (R89). -/
def draw (ctr : Word) (key : DWord) : Word :=
  let lo := key.setWidth 32
  let hi := (key >>> 32).setWidth 32
  (List.range 6).foldl (fun x i => drawRound lo hi i x) ctr
def execRnd (k : KReg) (d a : VReg) (b : SReg) (s : State) : Host.Outcome State Fault Refusal :=
  s.issue [d.toNat, a.toNat] false fun s => s.laneOp k d fun gl => draw (s.vreg gl a.toNat) (s.sreg b.toNat)

end Sys2Proof.Machine
end

