-- ==== Sys2Proof/Machine/Cross.lean ====
section
/-! DEFINITION. Cross-lane instructions (05 R91 to R95, 04 R71): each combines only members that share a home
group, by home lane index (R77). -/

namespace Sys2Proof.Machine

/-- The members of a list that share a lane's home group. -/
def sameHome (lanes : List Nat) (gl : Nat) : List Nat := lanes.filter fun m => m / 32 == gl / 32

/-- The value a shuffle moves: the source lane's, or the lane's own when the source takes no part (R91). -/
def State.moved (s : State) (lanes : List Nat) (a : VReg) (gl : Nat) (src : Option Nat) : Word :=
  match src with
  | some l => if decide (l < 32) && lanes.contains (32 * (gl / 32) + l) then s.vreg (32 * (gl / 32) + l) a.toNat else s.vreg gl a.toNat
  | none => s.vreg gl a.toNat

/-- A shuffle whose source lane is computed from the lane index and the operand (R91). -/
def shuffleEffect (src : Nat → Nat → Option Nat) (k : KReg) (d a : VReg) (b : LaneSrc) (s : State) :
    Host.Outcome State Fault Refusal :=
  s.issue (d.toNat :: a.toNat :: b.regs) false fun s =>
    s.laneOp k d fun gl => s.moved (s.lanes k) a gl (src (gl % 32) (s.laneInt gl b).toNat)
def execShflIdx (k : KReg) (d a : VReg) (b : LaneSrc) (s : State) := shuffleEffect (fun _ n => some (n % 32)) k d a b s
def execShflUp (k : KReg) (d a : VReg) (b : LaneSrc) (s : State) := shuffleEffect (fun l n => if n ≤ l then some (l - n) else none) k d a b s
def execShflDown (k : KReg) (d a : VReg) (b : LaneSrc) (s : State) := shuffleEffect (fun l n => some (l + n)) k d a b s
def execShflXor (k : KReg) (d a : VReg) (b : LaneSrc) (s : State) := shuffleEffect (fun l n => some (Nat.xor l (n % 32))) k d a b s

/-- The next member above a lane, and the one below it, among ascending members (R91). -/
def nextAbove (lanes : List Nat) (gl : Nat) : Option Nat := ((sameHome lanes gl).find? fun m => decide (gl < m)).map (· % 32)
def nextBelow (lanes : List Nat) (gl : Nat) : Option Nat := ((sameHome lanes gl).reverse.find? fun m => decide (m < gl)).map (· % 32)
def execShflNx (k : KReg) (d a : VReg) (s : State) : Host.Outcome State Fault Refusal :=
  s.issue [d.toNat, a.toNat] false fun s => s.laneOp k d fun gl => s.moved (s.lanes k) a gl (nextAbove (s.lanes k) gl)
def execShflPv (k : KReg) (d a : VReg) (s : State) : Host.Outcome State Fault Refusal :=
  s.issue [d.toNat, a.toNat] false fun s => s.laneOp k d fun gl => s.moved (s.lanes k) a gl (nextBelow (s.lanes k) gl)

/-- The source lane of bcast (R92). -/
def State.laneSel (s : State) : LaneSel → Nat
  | .lit l => l.toNat
  | .s r => (s.sreg r.toNat).toNat % 32
def execBcast (k : KReg) (d a : VReg) (src : LaneSel) (s : State) : Host.Outcome State Fault Refusal :=
  s.issue [d.toNat, a.toNat] false fun s => s.laneOp k d fun gl => s.moved (s.lanes k) a gl (some (s.laneSel src))
/-- The scalar form is written even when no lane takes part (R92). -/
def execBcastScalar (k : KReg) (d : SReg) (a : VReg) (src : LaneSel) (s : State) : Host.Outcome State Fault Refusal :=
  s.issue [a.toNat] true fun s =>
    let gl := 32 * s.curAgent.host + s.laneSel src
    (s.clearK k.toNat).scalOp d (if (s.lanes k).contains gl then (s.vreg gl a.toNat).setWidth 64 else 0)

-- Reductions (R93).
/-- The identity of an operation. -/
def redZero : RedOp → Word
  | .add | .or | .xor | .maxN32 | .addF32 => 0
  | .and | .minN32 => 0xFFFFFFFF
  | .minS32 => 0x7FFFFFFF
  | .maxS32 => 0x80000000
  | .minF32 => 0x7F800000
  | .maxF32 => 0xFF800000
/-- Two values combined. -/
def combine (op : RedOp) (rm : Rm) (a b : Word) : Word :=
  match op with
  | .add => a + b
  | .addF32 => word2 (fltAdd .f32 rm) a b
  | .minS32 => if b.toInt < a.toInt then b else a
  | .minN32 => if b.toNat < a.toNat then b else a
  | .minF32 => word2 (fltMinMax .f32 false) a b
  | .maxS32 => if a.toInt < b.toInt then b else a
  | .maxN32 => if a.toNat < b.toNat then b else a
  | .maxF32 => word2 (fltMinMax .f32 true) a b
  | .and => a &&& b
  | .or => a ||| b
  | .xor => a ^^^ b
/-- The partial sum of level n at position block i (R71); a block without members passes the other through. -/
def treeSum (rm : Rm) (val : Nat → Option Word) : Nat → Nat → Option Word
  | 0, i => val i
  | n + 1, i => match treeSum rm val n (2 * i), treeSum rm val n (2 * i + 1) with
    | none, x => x
    | some a, none => some a
    | some a, some b => some (word2 (fltAdd .f32 rm) a b)
/-- A NaN result is the canonical one (R57). -/
def canonWord (x : Word) : Word := if decodeFloat .f32 x.toNat == .nan then BitVec.ofNat 32 (canonNan .f32) else x
/-- Values combined in order. -/
def foldOp (op : RedOp) (rm : Rm) : List Word → Word
  | [] => redZero op
  | x :: xs => xs.foldl (combine op rm) (match op with
    | .minF32 | .maxF32 | .addF32 => canonWord x
    | _ => x)
/-- The result of a reduction over members of one home group. -/
def State.reduced (s : State) (op : RedOp) (rm : Rm) (lanes : List Nat) (a : VReg) : Word :=
  match op with
  | .addF32 => canonWord ((treeSum rm (fun i => (lanes.find? fun m => m % 32 == i).map fun m => s.vreg m a.toNat) 5 0).getD 0)
  | _ => foldOp op rm (lanes.map fun m => s.vreg m a.toNat)
/-- The extension of a scalar destination (R93). -/
def extendRed (op : RedOp) (x : Word) : DWord :=
  match op with
  | .minS32 | .maxS32 => x.signExtend 64
  | _ => x.setWidth 64
def execRed (op : RedOp) (rm : Rm) (k : KReg) (d : RedDst) (a : VReg) (s : State) : Host.Outcome State Fault Refusal :=
  match d with
  | .v d => s.issue [d.toNat, a.toNat] false fun s =>
      s.laneOp k d fun gl => s.reduced op rm (sameHome (s.lanes k) gl) a
  | .s d => s.issue [a.toNat] true fun s =>
      (s.clearK k.toNat).scalOp d (extendRed op (s.reduced op rm (s.lanes k) a))

-- redx (R94).
def redxRed : RedxOp → RedOp
  | .minS32 => .minS32 | .minN32 => .minN32 | .minF32 => .minF32 | .maxS32 => .maxS32 | .maxN32 => .maxN32 | .maxF32 => .maxF32
/-- The extreme value and the home lane index that holds it. -/
def State.extreme (s : State) (op : RedxOp) (lanes : List Nat) (a : VReg) : Word × Word :=
  let x := s.reduced (redxRed op) 0 lanes a
  let isF : Bool := match op with | .minF32 | .maxF32 => true | _ => false
  let isNan (m : Nat) : Bool := decodeFloat .f32 (s.vreg m a.toNat).toNat == .nan
  let holder := if isF && lanes.any isNan then lanes.find? isNan else lanes.find? fun m => s.vreg m a.toNat == x
  (x, match holder with | some m => BitVec.ofNat 32 (m % 32) | none => 0xFFFFFFFF)
def execRedx (op : RedxOp) (k : KReg) (d : RedxDst) (a : VReg) (s : State) : Host.Outcome State Fault Refusal :=
  match d with
  | .v d b => s.issue [d.toNat, b.toNat, a.toNat] false fun s =>
      let lanes := s.lanes k
      (((s.clearK k.toNat).writeLanes lanes d.toNat fun gl => (s.extreme op (sameHome lanes gl) a).1).writeLanes lanes b.toNat
        fun gl => (s.extreme op (sameHome lanes gl) a).2).retire {}
  | .s d b => s.issue [a.toNat] true fun s =>
      let r := s.extreme op (s.lanes k) a
      (((s.clearK k.toNat).setSreg d.toNat (extendRed (redxRed op) r.1)).setSreg b.toNat (r.2.setWidth 64)).retire {}

-- scan (R95).
def execScan (op : RedOp) (ex : Bool) (rm : Rm) (k : KReg) (d a : VReg) (s : State) : Host.Outcome State Fault Refusal :=
  s.issue [d.toNat, a.toNat] false fun s =>
    s.laneOp k d fun gl =>
      foldOp op rm (((sameHome (s.lanes k) gl).filter fun m => if ex then decide (m < gl) else decide (m ≤ gl)).map fun m => s.vreg m a.toNat)

end Sys2Proof.Machine
end

