-- ==== Sys2Proof/Machine/Requests.lean ====
section
/-! DEFINITION. Interface registers and control requests (21 R327, R328, R332, 22 R335, R342), and the tables system software writes (14 R226,
17 R303, 23 R347). -/

namespace Sys2Proof.Machine

-- Registers (R327, R328, R335).
/-- The interface has a live launch. -/
def State.viLive (s : State) (vi : Nat) : Bool := s.launches.any fun l => l.2.vi == vi && l.2.kill == none
/-- A write that a live launch forbids is discarded and logged. -/
def State.unlessLive (s : State) (vi code : Nat) (f : Vi → Vi) : State := if s.viLive vi then s.log code vi else s.modVi vi f
/-- A memory traffic counter is set to 0. -/
def State.clearMt (s : State) (vi i : Nat) : State := s.modVi vi fun v => { v with mt := cellDel v.mt i }
/-- A control request begins; a write while one is in progress is discarded (R332). -/
def State.beginRequest (s : State) (vi : Nat) (x : DWord) : State :=
  let v := s.vi vi
  if bitsOf v.ctl 63 1 == 1 then s
  else
    let s := s.modVi vi fun v => { v with ctl := dw (2 ^ 63 + bitsOf x 0 8) }
    { s with controls := cellPut s.controls vi ⟨bitsOf x 0 8, v.arg, none⟩ }
/-- A write of the unprivileged view. -/
def State.writePlain (s : State) (vi off : Nat) (x : DWord) : State :=
  match off with
  | 0x010 => s.ring vi (x.setWidth 32)
  | 0x020 => s.modVi vi fun v => { v with irq := v.irq &&& ~~~(x.setWidth 8) }
  | _ => s
/-- A ring is set up: the consumer index and the producer index last accepted are 0 (R279). -/
def Vi.setRing (v : Vi) (base : DWord) (size : BitVec 8) : Vi := { v with ringbase := base, ringsize := size, consumer := 0, doorbell := 0 }
/-- The bits of a value that a register keeps: its reserved fields read 0 (R4). -/
def keepBits (x : DWord) (mask : Nat) : DWord := x &&& dw mask
/-- A write of the privileged view; reserved fields keep 0, and read-only and reserved offsets change nothing. -/
def State.writePrivileged (s : State) (vi off : Nat) (x : DWord) : State :=
  match off with
  | 0x000 => s.unlessLive vi 4 fun v => v.setRing (keepBits x (2 ^ 64 - 2 ^ 12)) v.ringsize
  | 0x008 =>
    let n := bitsOf x 0 8
    if n != 0 && !decide (4 ≤ n ∧ n ≤ 16) then s.log 3 vi else s.unlessLive vi 4 fun v => v.setRing v.ringbase (BitVec.ofNat 8 n)
  | 0x028 => s.modVi vi fun v => { v with root := x }
  | 0x030 => s.beginRequest vi x
  | 0x038 => s.modVi vi fun v => { v with arg := x }
  | 0x040 | 0x048 | 0x050 | 0x058 | 0x060 | 0x068 | 0x070 => s.clearMt vi ((off - 0x040) / 8)
  | 0x100 => s.modVi vi fun v => { v with wmCtl := keepBits x 15 }
  | 0x108 => s.unlessLive vi 5 fun v => { v with wmRing := keepBits x (2 ^ 64 - 2 ^ 12 + 31) }
  | 0x118 => s.modVi vi fun v => { v with wmCons := x.setWidth 32 }
  | 0x120 => s.unlessLive vi 5 fun v => { v with wmOwner := x }
  | 0x128 => s.unlessLive vi 5 fun v => { v with wmCbase := keepBits x (2 ^ 64 - 2 ^ 13) }
  | 0x130 => s.modVi vi fun v => { v with wmStop := keepBits x (2 ^ 35 - 1) }
  | 0x138 => s.modVi vi fun v => { v with wmSarg := x }
  | 0x140 => s.modVi vi fun v => { v with wmWatch := x }
  | 0x148 => s.modVi vi fun v => { v with wmWlen := x.setWidth 32 }
  | _ => s.writePlain vi off x
/-- What a read of a register returns in each view. -/
def State.readRegister (s : State) (vi : Nat) (privileged : Bool) (off : Nat) : DWord :=
  let v := s.vi vi
  match off with
  | 0x000 => v.ringbase
  | 0x008 => v.ringsize.setWidth 64
  | 0x018 => v.consumer.setWidth 64
  | 0x020 => v.irq.setWidth 64
  | _ =>
    if !privileged then 0
    else match off with
      | 0x028 => v.root
      | 0x030 => v.ctl
      | 0x038 => v.arg
      | 0x040 | 0x048 | 0x050 | 0x058 | 0x060 | 0x068 | 0x070 => cellGet 0 v.mt ((off - 0x040) / 8)
      | 0x100 => v.wmCtl
      | 0x108 => v.wmRing
      | 0x110 => v.wmProd.setWidth 64
      | 0x118 => v.wmCons.setWidth 64
      | 0x120 => v.wmOwner
      | 0x128 => v.wmCbase
      | 0x130 => v.wmStop
      | 0x138 => v.wmSarg
      | 0x140 => v.wmWatch
      | 0x148 => v.wmWlen.setWidth 64
      | _ => 0

-- The tables of system software.
/-- Entries of a tower's column table changed. -/
def State.modBindings (s : State) (tower : Nat) (f : ColEntry → ColEntry) : State :=
  { s with clusters := s.clusters.map fun c => if c.2.tower == tower then (c.1, { c.2 with binding := c.2.binding.map f }) else c }
/-- A move from column P to column Q of a tower can start: Q is another, free column, no entry of P is in a move, and the tower makes no other move (R230; one
move at a time is DESIGN CHOICE, log 33). -/
def State.canMove (s : State) (tower p q : Nat) : Bool :=
  (s.tower tower).move.isNone && decide (tower < 4) && decide (p < 48) && decide (q < 48) && p != q && (s.clusters.all fun c => !c.2.holds tower q) &&
    !s.columnDegraded tower q
/-- A move starts: every entry whose column is P mirrors to Q from now on, those of stacked clusters together (R230). -/
def State.startMove (s : State) (tower p q : Nat) : State :=
  let s := s.modBindings tower fun e => if e.col == p && e.state == 1 then { e with target := q, state := 2 } else e
  ({ s with columns := cellDel s.columns (48 * tower + q) } : State).modTower tower fun t => { t with move := some (p, q, 0) }
/-- An entry of the column table (R226): a write meets no entry in a move, and sets no column past 47 and no reserved state. A write of state 2 to a stable
entry under its own column starts a move to its target (R230; DEDUCED, log 36). -/
def State.writeColumn (s : State) (cluster position : Nat) (x : DWord) : State :=
  let c := s.cluster cluster
  match c.binding[position]? with
  | none => s
  | some e =>
    let new : ColEntry := ⟨bitsOf x 0 6, bitsOf x 6 6, BitVec.ofNat 2 (bitsOf x 12 2)⟩
    if !cellHas s.clusters cluster || e.state == 2 || new.state == 3 || decide (47 < new.col) then s
    else if new.state == 2 then
      if e.state == 1 && new.col == e.col && s.canMove c.tower e.col new.target then s.startMove c.tower e.col new.target else s
    else (s.modCluster cluster fun y => { y with binding := y.binding.set position new }).unbind c.tower [e]
/-- An entry of the remap table (R303): the teams of a logical core that gets another physical core are pre-empted (R299). -/
def State.writeRemap (s : State) (p logical physical : Nat) : State :=
  let part := s.partition p
  if part.grid.length ≤ logical || !part.grid.contains physical then s.log 6 p
  else
    let moved := if part.physical logical == physical then [] else ((s.teams.filter fun t => s.partitionOf t.2 == p && t.2.logical == logical).map (·.1)).flatMap s.clusterOf
    (s.modPartition p fun y => { y with remap := cellPut y.remap logical physical }).askPreempt moved
/-- The reserved bits of an aperture entry are 0 (R347). -/
def apertureMask : Nat := 2 ^ 64 - 2 ^ 28 + 2 ^ 17 - 1
/-- A write to an interface that the partition's map does not hold reaches no register (R327). -/
def execRegisterWrite (w : RegWrite) (s : State) : Host.Outcome State Fault Refusal :=
  .next (match w with
    | .vi vi privileged offset value =>
      if !cellHas s.vis vi then s
      else if privileged then s.writePrivileged vi offset.toNat value else s.writePlain vi offset.toNat value
    | .columnTable c p value => s.writeColumn c p value
    | .remap p l q => s.writeRemap p l q
    | .aperture p w value => if cellHas s.partitions p && decide (w < 4096) then s.modPartition p fun y => { y with apertures := cellSet 0 y.apertures w (keepBits value apertureMask) } else s)
/-- MT_COUNTER_WRITE: a privileged write of any value. -/
def execMtCounterWrite (vi : Nat) (counter : BitVec 3) (s : State) : Host.Outcome State Fault Refusal := .next (if cellHas s.vis vi then s.clearMt vi counter.toNat else s)

-- Control requests (R332).
/-- The request in progress of a code and argument, not yet in effect. -/
def State.asked (s : State) (vi code : Nat) (arg : DWord) : Bool := cellGet ⟨0, 0, some 0⟩ s.controls vi == ⟨code, arg, none⟩
/-- The request has taken effect with a result. -/
def State.grant (s : State) (vi result : Nat) : State :=
  { s with controls := cellMod ⟨0, 0, none⟩ s.controls vi fun c => { c with result := some result } }
/-- The live launches of an interface, or those of a tag. -/
def State.liveOf (s : State) (vi : Nat) (tag : Option DWord) : List Nat :=
  (s.launches.filter fun l => l.2.vi == vi && l.2.kill == none && (match tag with | some t => l.2.tag == t | none => true)).map (·.1)
/-- Something of a launch could still be held: work to come, or a team that neither drains nor has ended (R321). -/
def State.holdable (s : State) (li : Nat) : Bool :=
  let l := s.launch li
  s.lives li && (decide (l.nextEntry < l.grid) || (l.queues.any fun b => !b.recs.isEmpty) ||
    s.teams.any fun t => t.2.launch == li && t.2.status != .draining && t.2.status != .ended)
/-- A team that a pre-emption may hold. -/
def Team.holdable (t : Team) : Bool := t.status != .draining && t.status != .ended
/-- Teams, with their clusters, are pre-empted and held. -/
def State.holdTeams (s : State) (ts : List Nat) : State :=
  let all := (ts.flatMap s.clusterOf).eraseDups
  all.foldl (fun (s : State) t => if (s.team t).holdable then s.modTeam t fun x => { x with held := true } else s) (s.askPreempt all)
def State.teamsOf (s : State) (li : Nat) : List Nat := (s.teams.filter fun t => t.2.launch == li).map (·.1)
def State.holdLaunches (s : State) (ls : List Nat) : State :=
  ls.foldl (fun (s : State) l => (s.holdTeams (s.teamsOf l)).modLaunch l fun x => { x with held := true }) s
def execCtlPreemptInterface (vi : Nat) (s : State) : Host.Outcome State Fault Refusal :=
  let ls := (s.liveOf vi none).filter s.holdable
  .next (if s.asked vi 1 (cellGet ⟨0, 0, none⟩ s.controls vi).arg then (s.holdLaunches ls).grant vi (if ls.isEmpty then 1 else 0) else s)
def execCtlPreemptLaunch (vi : Nat) (arg : DWord) (s : State) : Host.Outcome State Fault Refusal :=
  let ls := (s.liveOf vi (some arg)).filter s.holdable
  .next (if s.asked vi 2 arg then (s.holdLaunches ls).grant vi (if ls.isEmpty then 1 else 0) else s)
/-- The teams that request 3 names: sr.team, node, and the low 24 bits of the tag (log 40). -/
def State.namedTeams (s : State) (vi : Nat) (arg : DWord) : List Nat :=
  (s.teams.filter fun t =>
    let l := s.launch t.2.launch
    s.lives t.2.launch && l.vi == vi && t.2.index.toNat == bitsOf arg 0 32 && t.2.node == bitsOf arg 32 4 && bitsOf l.tag 0 24 == bitsOf arg 40 24 &&
      t.2.holdable).map (·.1)
def execCtlPreemptTeam (vi : Nat) (arg : DWord) (s : State) : Host.Outcome State Fault Refusal :=
  let ts := s.namedTeams vi arg
  .next (if s.asked vi 3 arg then (s.holdTeams ts).grant vi (if ts.isEmpty then 1 else 0) else s)
/-- The launches that a tag names, all of the interface for 0. -/
def State.taggedOr0 (s : State) (vi : Nat) (arg : DWord) : List Nat := s.liveOf vi (if arg = 0 then none else some arg)
def execCtlRelease (vi : Nat) (arg : DWord) (s : State) : Host.Outcome State Fault Refusal :=
  let ls := s.taggedOr0 vi arg
  let ts := (ls.flatMap s.teamsOf).filter fun t => (s.team t).held
  let hit := !ts.isEmpty || ls.any fun l => (s.launch l).held
  .next (if s.asked vi 4 arg then
    (ts.foldl (fun (s : State) t => s.modTeam t fun x => { x with held := false })
      (ls.foldl (fun (s : State) l => s.modLaunch l fun x => { x with held := false }) s)).grant vi (if hit then 0 else 1)
  else s)
/-- Cached translations are dropped: all, or those of a page (R317). -/
def execCtlInvalidate (vi : Nat) (arg : DWord) (s : State) : Host.Outcome State Fault Refusal :=
  .next (if s.asked vi 5 arg then
    (s.modVi vi fun v => { v with tlb := v.tlb.filter fun x => arg != 0 && x.1 != arg.toNat / 2 ^ x.2.1 }).grant vi 0
  else s)
/-- The fragments of an escalated team continue after their tpass once the team returns (R314). -/
def execCtlReleaseEscalated (vi : Nat) (arg : DWord) (s : State) : Host.Outcome State Fault Refusal :=
  let ts := ((s.liveOf vi (some arg)).flatMap s.teamsOf).filter fun t => (s.team t).escalated
  .next (if s.asked vi 6 arg then
    (ts.foldl (fun (s : State) t => s.modTeam t fun x =>
      { x with
        escalated := false
        agents := x.agents.map fun a => if a.2.status == .passed then (a.1, { a.2 with status := .ready }) else a }) s).grant vi (if ts.isEmpty then 1 else 0)
  else s)
/-- A launch aborted by system software has no kill field (R296). -/
def State.abort (s : State) (ls : List Nat) : State := ls.foldl (fun (s : State) l => s.killLaunch l ⟨3, 0, 0, 0, 0, 0⟩) s
def execCtlAbort (vi : Nat) (arg : DWord) (s : State) : Host.Outcome State Fault Refusal :=
  let ls := s.liveOf vi (some arg)
  .next (if s.asked vi 7 arg then (s.abort ls).grant vi (if ls.isEmpty then 1 else 0) else s)
/-- A core's histogram as it is written: 128 bytes a quarter (R342). -/
def Core.histogramBytes (c : Core) : List Byte :=
  (List.range 4).flatMap fun q => (List.range 32).flatMap fun j => wordBytes (if j < 28 then cellGet 0 c.histogram (32 * q + j) else 0).toNat 4
def State.writeHistograms (s : State) (vi : Nat) : State :=
  let base := (s.vi vi).wmCbase.toNat + 8192
  let part := s.partition (s.vi vi).partition
  let s' := (List.range part.grid.length).foldl (fun (s : State) i => s.placeBytes vi (base + 512 * i) (s.core (part.physical i)).histogramBytes) s
  part.grid.foldl (fun (s : State) c => s.modCore c fun k => { k with histogram := [] }) s'
def execCtlWriteHistograms (vi : Nat) (s : State) : Host.Outcome State Fault Refusal :=
  .next (if s.asked vi 8 (cellGet ⟨0, 0, none⟩ s.controls vi).arg then
    (if (s.vi vi).wmCbase = 0 then s.grant vi 1 else (s.writeHistograms vi).grant vi 0)
  else s)
/-- The teams a pre-emption request still waits for. -/
def State.awaited (s : State) (vi : Nat) (c : Control) : List Nat :=
  let ts := match c.code with
    | 1 => (s.liveOf vi none).flatMap s.teamsOf
    | 2 => (s.liveOf vi (some c.arg)).flatMap s.teamsOf
    | 3 => s.namedTeams vi c.arg
    | _ => []
  ts.filter fun t => s.runs t && (s.team t).preempt
/-- A pre-emption request has nothing left to hold: its launch or team ended first (R321). -/
def State.voided (s : State) (vi : Nat) (c : Control) : Bool :=
  match c.code with
  | 1 => !(s.liveOf vi none).any s.holdable
  | 2 => !(s.liveOf vi (some c.arg)).any s.holdable
  | 3 => (s.namedTeams vi c.arg).isEmpty
  | _ => false
/-- A request is complete: vi.ctl shows its result. -/
def State.complete (s : State) (vi : Nat) (c : Control) (result : Nat) : State :=
  { (s.modVi vi fun v => { v with ctl := dw (result * 2 ^ 56 + c.code) }) with controls := cellDel s.controls vi }
def execCtlRequestComplete (vi : Nat) (s : State) : Host.Outcome State Fault Refusal :=
  let c := cellGet ⟨0, 0, none⟩ s.controls vi
  .next (if !cellHas s.controls vi then s
  else match c.result with
    | some r => if (s.awaited vi c).isEmpty then s.complete vi c (if s.voided vi c then 1 else r) else s
    | none => if decide (1 ≤ c.code ∧ c.code ≤ 8) then s else s.complete vi c 2)

end Sys2Proof.Machine
end

