-- ==== Sys2Proof/WellFormed.lean ====
section
/-! DEFINITION. Which terms of Instr stand for an encodable instruction or a possible event: the limits
of the instruction pages that the field widths of Syntax do not already impose. -/

namespace Sys2Proof

def evenReg (r : VReg) : Bool := r.toNat % 2 == 0

/-- A register range of n registers from r stays within v255 (R162, R232). -/
def spanOk (r : VReg) (n : BitVec 9) : Bool := n != 0 && decide (r.toNat + n.toNat ≤ 256)

/-- A double operand names even registers (R85). -/
def Lane2.evenOk (f : Lane2) : Bool := evenReg f.d && evenReg f.a && f.b.pairOk
def Lane3.evenOk (f : Lane3) : Bool := evenReg f.d && evenReg f.a && f.b.pairOk && f.c.pairOk

/-- os values that R25 leaves for an acquire, a release and an atomic. -/
def Ty.pairOk (t : Ty) (r : VReg) : Bool := t.bits != 64 || evenReg r
/-- An element index lies below the count of R69, and is 0 where the operand takes none (R87). -/
def Ty.indexOk (t : Ty) (j : BitVec 3) : Bool := if t.narrow then decide (j.toNat < t.perReg) else j == 0

/-- The limits of gang (R175). -/
def GangArgs.wf (g : GangArgs) : Bool :=
  let lo := g.shape == 1 || g.shape == 2
  let hi := g.shape == 1 || g.shape == 3
  (if lo then g.s0.toNat % 4 == 0 && g.s1.toNat % 4 == 1 else g.s0 == 0 && g.s1 == 0) &&
  (if hi then g.s2.toNat % 4 == 2 && g.s3.toNat % 4 == 3 else g.s2 == 0 && g.s3 == 0) &&
  (g.shape != 0 || g.q.isNone)

/-- The limits of push and pop (R164). -/
def pushPopOk (isPop : Bool) (kind : RegKind) (a : VReg) (n : BitVec 5) : Bool :=
  let lim := match kind with | .vector => 256 | .scalar => 64 | .set => 16
  decide (1 ≤ n.toNat ∧ n.toNat ≤ 16) && decide (a.toNat + n.toNat ≤ lim) && (!isPop || kind != .set || a != 0)

/-- Number of cores, towers, columns and interfaces (R2, R226, R327). -/
def coreOk (c : Nat) : Bool := decide (c < 512) && decide (c % 8 < 6)
def towerOk (t : Nat) : Bool := decide (t < 4)
def columnOk (c : Nat) : Bool := decide (c < 48)
def viOk (v : Nat) : Bool := decide (v < 128)

/-- The well-formed instructions and events. -/
def Instr.wf : Instr → Bool
  | .applyT p _ _ => p != 3
  | .test _ ty _ d a b =>
    d != 0 && (ty != .f64 || (evenReg a && (match b with | .v r => evenReg r | .s _ => true | .imm _ => false)))
  | .kall d | .kunion d _ _ | .kinter d _ _ | .kdiff d _ _ | .kfirst d _ | .kgatherT d _ | .kmov d _ => d != 0
  | .kmatch _ d a w => d != 0 && (!w || evenReg a)
  | .kld d m => d != 0 && osAcq m && m.perAgent
  | .kst _ m => osRel m && m.perAgent
  | .dadd f | .dmul f => f.evenOk
  | .dmin f | .dmax f => f.evenOk && f.rm == 0
  | .dfma f => f.evenOk
  | .hadd2 f | .hmul2 f | .badd2 f => f.la == 0
  | .hfma2 f | .bfma2 f | .dot2H16 f | .dot2B16 f | .dot4F8E4 f | .dot4F8E5 f | .dot8F4E2M1 f => f.la == 0
  | .dot4S8 f | .dot4N8 f | .dot8S4 f | .dot8N4 f => f.la == 0 && f.rm == 0
  | .cvt _ dst src _ d a jd js => dst.pairOk d && src.pairOk a && dst.indexOk jd && src.indexOk js
  | .cvtSr _ dst wide _ a _ _ jd =>
    (dst == .h16 || dst == .b16 || dst == .f8e4 || dst == .f8e5 || dst == .f6e3m2 || dst == .f6e2m3 || dst == .f4e2m1) &&
    decide (jd.toNat < dst.perReg) && (!wide || evenReg a)
  | .red op rm _ _ _ => op == .addF32 || rm == 0
  | .scan op _ rm _ _ _ => op == .addF32 || rm == 0
  | .ld w _ d m | .ldFe w _ d m | .ldTake w _ d m => osAcq m && (w != .w64 || evenReg d)
  | .st w _ d m => osRel m && (w != .w64 || evenReg d)
  | .atom op f => (op == .cas || f.c == 0) && (!f.wide || (op != .addF32 && evenReg f.d && evenReg f.c))
  | .tld f => spanOk f.d f.n
  | .tred f => f.n != 0
  | .ttr f => f.n != 0
  | .gather f | .scatter f => spanOk f.d f.n && spanOk f.e f.n
  | .lld f | .lst f => spanOk f.d f.n
  | .push kd a n => pushPopOk false kd a n
  | .pop kd a n => pushPopOk true kd a n
  | .lrec a _ => decide (a.toNat ≤ 60)
  | .pbarArrive _ m => osRel m && m.perAgent
  | .pbarWait _ m => osAcq m && m.perAgent
  | .gang g => g.wf
  | .mma f => f.n != 0 && f.p0 != some f.id && f.p1 != some f.id && decide (f.c.toNat ≤ 224)
  | .emit (.lane _ a _) => decide (a.toNat ≤ 240)
  | .emit (.scalar a _) => decide (a.toNat ≤ 56)
  | .rsr (.lane _ _ _ n) => decide (n.toNat ≤ 13)
  | .rsr (.scalar _ n) => decide (n.toNat ≤ 13) && n != 0
  | .wsr _ n => n == 8 || n == 12
  | .clockChange c | .sliceStart c | .stallCountExpiry c | .sleepEnter c => coreOk c
  | .registerFill _ g l => decide (g < 32) && decide (l < 264)
  | .priorityBoost _ g => decide (g < 32)
  | .pageWalk v a => viOk v && decide (a < 2 ^ 48)
  | .doorbell v _ | .launchPacket v | .loadPacket v | .unloadPacket v | .ctlPreemptInterface v | .ctlPreemptLaunch v _
  | .ctlPreemptTeam v _ | .ctlRelease v _ | .ctlInvalidate v _ | .ctlReleaseEscalated v _ | .ctlAbort v _
  | .ctlWriteHistograms v | .ctlRequestComplete v | .syscallStop v _ _ => viOk v
  | .mtCounterWrite v c => viOk v && c != 7
  | .moveStart t p q => towerOk t && columnOk p && columnOk q
  | .moveRowCopy t | .moveSwitch t | .powerThrottleStep t | .thermalThrottle t | .thermalThrottleRelease t => towerOk t
  | .portRetire p => decide (p < 24)
  | .elevatorRetire t e => towerOk t && decide (e < 8)
  | .unassignedOpcodeIssue c _ => decide (1 ≤ c.toNat ∧ c.toNat ≤ 6)
  | _ => true

end Sys2Proof
end

