-- ==== Sys2Proof/Machine/Package.lean ====
section
/-! DEFINITION. What the module does of itself: moves of overpass columns (14 R230, R231), the upkeep of race metadata (16 R269, R271), banks
(18 R318), throttles, clock modes and sleep (21 R333, R334, 17 R305, 22 R338, R339), system-call stops (22 R344), reset and boot, attestation, and
keys (21 R330, R331). -/

namespace Sys2Proof.Config
open Sys2Proof.Machine
/-- What the configuration records say: partitions, interfaces, thermal limits of a tower and its second ones (die, outlet), the module's number and the ranges of
the populated second-tier ports. Their contents have no format in the manual. -/
opaque configuredPartitions : List FlashRec → Cells Partition
opaque configuredVis : List FlashRec → Cells Nat
opaque configuredLimits : List FlashRec → Nat → Nat × Nat
opaque configuredStops : List FlashRec → Nat → Nat × Nat
opaque configuredModule : List FlashRec → Nat
opaque configuredTier : List FlashRec → List (Nat × Nat)
end Sys2Proof.Config

namespace Sys2Proof.Machine

-- Moves (R230).
/-- The column above the core of a team: in the virtual grid for a determinate launch, whose columns no remap changes (R227, R303). -/
def State.columnAbove (s : State) (t : Team) : Nat :=
  coreColumn ((s.partition (s.partitionOf t)).seat (s.launch t.launch).determinate t.logical)
/-- A resident position's entry names column P and no other cluster holds P, while its core stands under the free column Q (R231). -/
def State.moveDue (s : State) (tower p q : Nat) : Bool :=
  (s.clusters.any fun c => c.2.tower == tower && c.2.teams.any fun t =>
    let x := s.team t
    x.status == .resident && s.columnAbove x == 48 * tower + q && c.2.binding[x.position]? == some ⟨p, 0, 1⟩) &&
    (s.clusters.filter fun c => c.2.holds tower p).length == 1
/-- MOVE_START: the dispatcher moves the column of a position that has returned elsewhere (R231); system software starts a move by a write to the column
table. -/
def execMoveStart (tower p q : Nat) (s : State) : Host.Outcome State Fault Refusal :=
  .next (if s.canMove tower p q && s.moveDue tower p q then s.startMove tower p q else s)
/-- The moves that are due. -/
def State.movesDue (s : State) : List Instr :=
  s.clusters.flatMap fun c => c.2.teams.filterMap fun t =>
    let x := s.team t
    let q := s.columnAbove x
    match c.2.binding[x.position]? with
    | some e => if q / 48 == c.2.tower && s.canMove c.2.tower e.col (q % 48) && s.moveDue c.2.tower e.col (q % 48) then some (.moveStart c.2.tower e.col (q % 48)) else none
    | none => none
/-- A move is abandoned: its entries name P again, and Q is free (R230). -/
def State.abandonMove (s : State) (tower p q : Nat) : State :=
  let s := s.modBindings tower fun e => if e.col == p && e.state == 2 then { e with target := 0, state := 1 } else e
  ({ s with columns := cellDel s.columns (48 * tower + q) } : State).modTower tower fun t => { t with move := none }
/-- MOVE_ROW_COPY: one row of P is copied to Q; a storage error in it abandons the move, and is logged (R319). -/
def execMoveRowCopy (tower : Nat) (s : State) : Host.Outcome State Fault Refusal :=
  .next (match (s.tower tower).move with
    | some (p, q, row) =>
      if 32768 ≤ row then s
      else if s.badAt (.column tower p) (128 * row) 128 then (s.abandonMove tower p q).log 7 (48 * tower + p)
      else
        let bytes := readBytes (s.column (48 * tower + p)).bytes (128 * row) 128
        (s.modColumn (48 * tower + q) fun c => { c with bytes := writeBytes c.bytes (128 * row) bytes }).modTower tower fun t =>
          { t with move := some (p, q, row + 1) }
    | none => s)
/-- What agents and commands keep of a line of P names the same line of Q. -/
def State.renamePlace (s : State) (a b : Place) : State :=
  let new (p : Place) : Place := if p == a then b else p
  let lines (l : List (Place × Nat)) : List (Place × Nat) := l.map fun x => (new x.1, x.2)
  { s with teams := s.teams.map fun t => (t.1,
      { t.2 with
        agents := t.2.agents.map fun x => (x.1,
          { x.2 with
            before := x.2.before.map fun (l : LineBefore) => { l with place := new l.place }
            issued := x.2.issued.map fun (i : Issued) => { i with lines := lines i.lines }
            watch := x.2.watch.map fun (w : Watch) => { w with lines := lines w.lines } })
        cmds := t.2.cmds.map fun (c : Cmd) => { c with part := c.part.map fun x => (x.1, new x.2.1, x.2.2) } }) }
/-- MOVE_SWITCH: after the last row the entries name Q, which takes P's metadata and history; P's bytes are no longer reachable. Held writes find their
column when they are performed. -/
def execMoveSwitch (tower : Nat) (s : State) : Host.Outcome State Fault Refusal :=
  .next (match (s.tower tower).move with
    | some (p, q, row) =>
      if row < 32768 then s
      else
        let c := s.column (48 * tower + p)
        let s := s.modBindings tower fun e => if e.col == p && e.state == 2 then ⟨q, 0, 1⟩ else e
        let s := s.modColumn (48 * tower + q) fun x => { x with metas := c.metas, hist := c.hist, reads := c.reads }
        let s := { s with columns := cellDel s.columns (48 * tower + p) }
        (s.modTower tower fun t => { t with move := none }).renamePlace (.column tower p) (.column tower q)
    | none => s)

-- Race metadata (R269, R271).
/-- The proxies of a tower that no line of its main memory names as writer are free again (R277). -/
def State.freeProxies (s : State) (tower : Nat) : State :=
  let used (p : Proxy) : Bool := s.mainMeta.any fun m => m.2.writer != noIdent && identTower m.2.writer == tower && identSlot m.2.writer == p.slot
  s.modTower tower fun t => { t with proxies := t.proxies.filter used }
/-- AGING_SWEEP of a line. -/
def execAgingSweep (place : Place) (line : Nat) (s : State) : Host.Outcome State Fault Refusal :=
  .next ((s.sweepLine place line).freeProxies (s.placeTower place (64 * line)))
/-- The launch whose metadata a line holds. -/
def State.lineLaunch (s : State) (m : LineMeta) (tower : Nat) : Option Nat :=
  let ids := m.writer :: ([m.reader0, m.reader1].filterMap (s.storedReader tower)).map (·.ident)
  ids.findSome? fun x => (s.holder x).map fun h => (s.team h.1).launch
/-- METADATA_EVICT: in cached mode a line of main memory loses its history. -/
def execMetadataEvict (line : Nat) (s : State) : Host.Outcome State Fault Refusal :=
  let m := s.metaAt .main line
  let tower := s.placeTower .main (64 * line)
  .next (match s.lineLaunch m tower with
    | some l => if (s.launch l).cached then
        (((s.dropReader tower m.reader0).dropReader tower m.reader1).putMeta .main line LineMeta.reset).loss l 1
      else s
    | none => s)

-- Banks (R318).
def State.bank (s : State) (a : ArrayRef) : Banks := ((s.banks.find? fun b => b.1 == a).map (·.2)).getD Banks.blank
def State.setBank (s : State) (a : ArrayRef) (b : Banks) : State := { s with banks := (s.banks.filter fun x => x.1 != a) ++ [(a, b)] }
/-- A corrected error of a bank: with two earlier ones within the window it is lasting, and retires the bank. The first retired bank is rebuilt
into the spare; the third lasting one makes the array degraded. Each is logged. -/
def State.correct (s : State) (a : ArrayRef) (bank : Nat) : State :=
  let b := s.bank a
  let recent := b.ticks.filter fun x => decide (s.tick < x.2 + 2500000)
  let lasting := decide (2 ≤ (recent.filter fun x => x.1 == bank).length) && !b.retired.contains bank
  let b := { b with ticks := recent ++ [(bank, s.tick)] }
  let s := s.log 8 bank
  if !lasting then s.setBank a b
  else
    let third := decide (3 ≤ b.retired.length + 1 + if b.spareUsed then 1 else 0)
    let b := { b with
      retired := b.retired ++ [bank]
      rebuilding := b.rebuilding || (!b.spareUsed && b.retired.isEmpty)
      degraded := b.degraded || third }
    let s := (s.setBank a b).log 9 bank
    if third then s.log 11 bank else s
/-- BANK_REBUILD_DONE: the spare replaces the bank that was retired first, and has no errors yet. -/
def execBankRebuildDone (array : ArrayRef) (s : State) : Host.Outcome State Fault Refusal :=
  let b := s.bank array
  let done := b.retired.headD 0
  .next (if b.rebuilding then
    (s.setBank array { b with rebuilding := false, spareUsed := true, retired := b.retired.drop 1, ticks := b.ticks.filter fun x => x.1 != done }).log 10 done
  else s)
/-- System software clears the mark of a degraded array. -/
def State.clearArray (s : State) (a : ArrayRef) : State := s.setBank a { s.bank a with degraded := false }

-- Throttles (R333, R339).
/-- The cores of a tower (R2, R40). -/
def towerCores (tower : Nat) : List Nat := (List.range 128).filterMap fun i => if i % 8 < 6 then some (128 * tower + i) else none
/-- A kind-5 record of a tower in the ring of an interface, under a core of its partition there. -/
def State.capture (s : State) (vi tower : Nat) (start : Bool) (cause : Nat) : State :=
  let payload := wordBytes (if start then 1 else 0) 1 ++ wordBytes cause 1 ++ wordBytes tower 1
  match (s.partition (s.vi vi).partition).grid.find? fun c => coreTower c == tower with
  | some c => s.trace vi 5 c false systemName payload
  | none => s
/-- A throttle engages: every interface that captures writes its start record, before the flag, and captures until that throttle releases (R339). -/
def State.captureStart (s : State) (tower cause : Nat) : State :=
  let s := s.vis.foldl (fun (s : State) v =>
    if bitsOf v.2.wmCtl 2 1 == 1 then
      (s.capture v.1 tower true cause).modVi v.1 fun x => { x with captures := (x.captures.filter (· != (tower, cause))) ++ [(tower, cause)] }
    else s) s
  s.modTower tower fun t => { t with capturing := true }
/-- A throttle releases: each capture of it ends, with an end record after the flag. -/
def State.captureEnd (s : State) (tower cause : Nat) : State :=
  let s := s.modTower tower fun t => { t with capturing := t.powered || t.thermal }
  s.vis.foldl (fun (s : State) v =>
    if v.2.captures.contains (tower, cause) then
      (s.modVi v.1 fun x => { x with captures := x.captures.filter (· != (tower, cause)) }).capture v.1 tower false cause
    else s) s
/-- Every core of a tower gets the clock it has to run at now. -/
def State.reclock (s : State) (cores : List Nat) (cause : Nat) : State :=
  cores.foldl (fun (s : State) c => s.setClock c (s.clockTarget c) cause) s
/-- The power-limit throttle can engage on a tower: some core of it is in no locked partition (R305; DEDUCED, log 121). -/
def State.throttles (s : State) (tower : Nat) : Bool := (towerCores tower).any fun c => match s.gridOf c with
  | some p => !(s.partition p).locked
  | none => true
/-- POWER_THROTTLE_STEP: a microsecond's step of the ceilings of every core of a tower. -/
def execPowerThrottleStep (tower : Nat) (s : State) : Host.Outcome State Fault Refusal :=
  let t := s.tower tower
  let cores := towerCores tower
  .next (if s.tick < t.stepped + 250 || decide (4 ≤ tower) then s
  else if decide (t.powerLimit < t.watts) && s.throttles tower then
    let s := if t.powered then s else (s.modTower tower fun t => { t with powered := true }).captureStart tower 2
    let s := s.modTower tower fun t => { t with stepped := s.tick }
    (cores.foldl (fun (s : State) c => s.modCore c fun k => { k with ceiling := max 600 (min k.ceiling k.mhz - 50) }) s).reclock cores 2
  else if decide (t.watts < t.powerLimit) && cores.any fun c => decide ((s.core c).ceiling < 1350) then
    let s := if t.powered then (s.modTower tower fun t => { t with powered := false }).captureEnd tower 2 else s
    let s := s.modTower tower fun t => { t with stepped := s.tick }
    (cores.foldl (fun (s : State) c => s.modCore c fun k => { k with ceiling := min 1350 (k.ceiling + 50) }) s).reclock cores 5
  else s)
/-- The die or the coolant outlet passes its limit; both are 5 °C below it. -/
def Tower.hot (t : Tower) : Bool := decide (t.dieLimit < t.die) || decide (t.outletLimit < t.outlet)
def Tower.cool (t : Tower) : Bool := decide (t.die + 5 ≤ t.dieLimit) && decide (t.outlet + 5 ≤ t.outletLimit)
/-- Launches that run while a thermal throttle overrides their locked clock (R305). -/
def State.loseLock (s : State) : State :=
  { s with launches := s.launches.map fun l => if s.lockOverridden (s.partition (s.vi l.2.vi).partition) then (l.1, { l.2 with lockLost := true }) else l }
def execThermalThrottle (tower : Nat) (s : State) : Host.Outcome State Fault Refusal :=
  let t := s.tower tower
  .next (if t.hot && !t.thermal && decide (tower < 4) then
    (((s.captureStart tower 3).modTower tower fun t => { t with thermal := true }).loseLock).reclock (towerCores tower) 3
  else s)
def execThermalThrottleRelease (tower : Nat) (s : State) : Host.Outcome State Fault Refusal :=
  let t := s.tower tower
  .next (if t.thermal && t.cool then
    ((s.modTower tower fun t => { t with thermal := false }).captureEnd tower 3).reclock (towerCores tower) 5
  else s)
/-- Coolant flows no more, or a tower passes its second thermal limit. -/
def State.overheats (s : State) : Bool := !s.coolant || s.towers.any fun t => decide (t.2.dieStop < t.2.die) || decide (t.2.outletStop < t.2.outlet)
/-- COOLANT_LOSS: every launch is aborted, and the compute layers stop until a reset. -/
def execCoolantLoss (s : State) : Host.Outcome State Fault Refusal :=
  .next (if s.overheats then { (s.abort (s.launches.map (·.1))) with boot := .stopped } else s)

-- Clock modes and sleep (R334, R338).
/-- CLOCK_MODE_CHANGE: a requested mode takes effect once the partition has no live launch. -/
def execClockModeChange (partition : Nat) (s : State) : Host.Outcome State Fault Refusal :=
  let p := s.partition partition
  .next (match p.wantLocked with
    | some x => if s.launches.any fun l => (s.vi l.2.vi).partition == partition then s
      else
        let s := s.modPartition partition fun y => { y with locked := x, wantLocked := none }
        (p.grid.foldl (fun (s : State) c => s.modCore c fun k => { k with nextMhz := 1200, cause := 4 }) s).reclock p.grid 4
    | none => s)
/-- SLEEP_ENTER: a core without a resident group for 16,384 ticks. -/
def execSleepEnter (core : Nat) (s : State) : Host.Outcome State Fault Refusal :=
  let k := s.core core
  .next (if !k.asleep && decide (k.idleSince + 16384 ≤ s.tick) && !(s.teams.any fun t => t.2.core == core && t.2.status == .resident) then
    (s.modCore core fun k => { k with asleep := true }).traceCore core 4 (wordBytes 1 1)
  else s)

-- System calls (R344).
/-- SYSCALL_STOP: the thread a kind-4 stop names halts before its call takes effect, and a kind-2 record is written. -/
def execSyscallStop (vi : Nat) (process thread : Word) (s : State) : Host.Outcome State Fault Refusal :=
  let v := s.vi vi
  let owner : DWord := dw (process.toNat + thread.toNat * 2 ^ 32)
  .next (if bitsOf v.wmCtl 3 1 == 1 && bitsOf v.wmStop 0 3 == 4 && v.wmSarg == owner && !v.halted.contains owner then
    (s.modVi vi fun v => { v with halted := v.halted ++ [owner] }).trace vi 2 Config.systemCore false (nameBytes owner 0 0xFFFFFFFF 0xFF)
      (wordBytes 0 4 ++ wordBytes 4 1)
  else s)

-- Reset and boot (R331, R346).
/-- An image or record is good: its signature over its SHAKE256 digest, and its version. -/
def FlashRec.good (r : FlashRec) (rollback : Nat) : Bool := Config.signatureGood (shake256 r.bytes) r.signature && decide (rollback ≤ r.version)
/-- The first image or record that stops the boot: the firmware image first, then the records in order; a missing firmware image stops it. -/
def State.bootFail (s : State) : Option Nat :=
  let fw := s.flash.filter fun r => r.type == 0
  if fw.isEmpty || fw.any fun r => !r.good s.rollback then some 0
  else (s.flash.find? fun r => r.type != 0 && !r.good s.rollback).map (·.type)
/-- The module after a reset, before its boot code runs: flash, memory bytes and the world outside remain. -/
def State.restart (s : State) : State :=
  { State.reset with
    schedule := s.schedule
    rotation := s.rotation
    freeCount := s.freeCount
    main := s.main
    lineKeys := s.lineKeys
    flash := s.flash
    seed := s.seed
    rollback := s.rollback
    coolant := s.coolant
    module := s.module
    peers := s.peers }
/-- The main memory of a partition: its ranges, and its shadow region. -/
def Partition.areas (p : Partition) : List (Nat × Nat) := p.ranges ++ p.shadow.toList
/-- Two ranges have no byte in common. -/
def apart (a b : Nat × Nat) : Bool := decide (a.1 + a.2 ≤ b.1 ∨ b.1 + b.2 ≤ a.1)
/-- A partition as the configuration gives it, with the tables at their reset values, and nothing that an earlier partition has (R326, R347, R348;
log 122). It boots its system image on its system cores. -/
def Partition.claim (p : Partition) (earlier : List Partition) : Partition :=
  let free (r : Nat × Nat) : Bool := earlier.all fun q => q.areas.all fun x => apart r x
  let systemCores := p.systemCores.filter fun c => earlier.all fun q => !q.systemCores.contains c
  { p with
    grid := p.grid.eraseDups.filter fun c => coreOk c && earlier.all fun q => !q.grid.contains c
    remap := []
    ranges := p.ranges.filter free
    shadow := p.shadow.filter free
    keySlots := p.keySlots.filter fun k => decide (k < 128) && earlier.all fun q => !q.keySlots.contains k
    systemCores := systemCores
    booted := systemCores
    wantLocked := none
    apertures := []
    flows := []
    reach := [] }
/-- At most 16 partitions, each as it claims its parts after the earlier ones (R326). -/
def claimAll (l : Cells Partition) : Cells Partition :=
  (l.filter fun p => decide (p.1 < 16)).foldl (fun acc p => if cellHas acc p.1 then acc else cellPut acc p.1 (p.2.claim (acc.map (·.2)))) []
/-- Ranges of the second tier above the HBM, apart from each other, of at most 6,144 GB in all (R325). -/
def tierRanges (l : List (Nat × Nat)) : List (Nat × Nat) :=
  l.foldl (fun acc r =>
    if decide (tierBase ≤ r.1 ∧ r.1 + r.2 ≤ apertureBase) && decide ((acc.map (·.2)).sum + r.2 ≤ tierBytes) &&
      acc.all (fun x => decide (r.1 + r.2 ≤ x.1 ∨ x.1 + x.2 ≤ r.1)) then acc ++ [r] else acc) []
/-- The module stands outside the domain: another one has its number (R346). -/
def State.outside (s : State) : Bool := cellHas s.peers s.module
/-- RESET_BOOT: a reset, and the boot code. A module whose number another one has stays outside the domain. Cores of a locked partition run at its
clock (R334). -/
def execResetBoot (s : State) : Host.Outcome State Fault Refusal :=
  let r := s.restart
  .next (match s.bootFail with
    | some t => { r with boot := .recovery t }
    | none =>
      let m := Config.configuredModule s.flash % 768
      let partitions := claimAll (Config.configuredPartitions s.flash)
      let peers := s.peers.filter fun p => decide (p.1 < 768)
      let s : State := { r with
        boot := .running
        identity := Config.identityKey s.seed
        partitions := partitions
        vis := ((Config.configuredVis s.flash).filter fun v => decide (v.1 < 128)).foldl (fun acc v => cellPut acc v.1 { Vi.blank with partition := v.2 }) []
        towers := (List.range 4).map fun t =>
          (t, { Tower.blank with
            dieLimit := (Config.configuredLimits s.flash t).1
            outletLimit := (Config.configuredLimits s.flash t).2
            dieStop := (Config.configuredStops s.flash t).1
            outletStop := (Config.configuredStops s.flash t).2 })
        tier := tierRanges (Config.configuredTier s.flash)
        module := m
        peers := if cellHas peers m then peers.map fun p => (p.1, { p.2 with linkUp := false }) else peers }
      (partitions.filter fun p => p.2.locked).foldl (fun (s : State) p => s.reclock p.2.grid 4) s)
/-- The body of an attestation report. -/
def State.report (s : State) (partition : Nat) (nonce : BitVec 256) : List Byte :=
  wordBytes nonce.toNat 32 ++ (s.flash.flatMap fun r => shake256 r.bytes) ++
    shake256 (s.partition partition).image ++ wordBytes partition 1
/-- ATTEST: the system cores get the report, signed by the identity key. -/
def execAttest (partition : Nat) (nonce : BitVec 256) (s : State) : Host.Outcome State Fault Refusal :=
  let report := s.report partition nonce
  .next (if s.boot == .running && cellHas s.partitions partition then { s with attested := some (report, Config.signReport s.identity report) } else s)
/-- KEY_LOAD: later line accesses use the new key (R330). -/
def execKeyLoad (slot : BitVec 7) (key : BitVec 512) (s : State) : Host.Outcome State Fault Refusal :=
  .next { s with keys := cellSet 0 s.keys slot.toNat key }

end Sys2Proof.Machine
end

