-- ==== Sys2Proof/Machine/Fabric.lean ====
section
/-! DEFINITION. Bluevo (23 R346 to R355): requests and their order, acknowledgements, remote atomics, flow and routing tables, retirements; and the
check of remote writes by proxy (16 R277). -/

namespace Sys2Proof.Machine

-- Acceptance (R347, R351).
/-- An export table admits a byte for a source. -/
def admits (l : List Reach) (source a : Nat) (write : Bool) : Bool :=
  l.any fun x => x.source == source && decide (x.base ≤ a ∧ a < x.base + x.size) && (if write then x.write else x.read)
def Request.admitted (r : Request) (l : List Reach) : Bool :=
  (r.reads.all fun p => admits l r.source p.1 false) && r.writes.all fun p => admits l r.source p.1 true
/-- A byte of this module's memory that another module may reach: the partition whose range holds it exports it, and it is neither a code word to be
written nor of a device area (R37, R46; DEDUCED, log 123). -/
def State.exported (s : State) (source a : Nat) (write : Bool) : Bool :=
  decide (a < apertureBase) && s.populated a && s.partitions.any fun p =>
    (p.2.ranges.any fun x => decide (x.1 ≤ a ∧ a < x.1 + x.2)) && admits p.2.reach source a write && !s.forbidden p.1 a 1 write
/-- The destination takes a request. -/
def State.takes (s : State) (r : Request) : Bool :=
  if r.dest == s.module then (r.reads.all fun p => s.exported r.source p.1 false) && r.writes.all fun p => s.exported r.source p.1 true
  else cellHas s.peers r.dest && r.admitted (s.peer r.dest).reach && (r.reads ++ r.writes).all fun p => decide (p.1 < (s.peer r.dest).size)

-- Requests of other modules (R277, R351).
/-- A byte of this module's memory that another module's request names. -/
def Request.spot (r : Request) (p : Nat × Nat) : Spot := ⟨.main, p.1, (Config.remoteKeySlot r.source).toNat, p.1, p.2, [], true⟩
/-- The access of another module's copy, under the identity that it has here and with the snapshot that travels with it. -/
def Request.acc (r : Request) (ident : BitVec 18) (p : Spot) (n : Nat) (write : Bool) : Acc :=
  let known := r.release.getD ⟨r.clocks, [], [], []⟩
  { place := p.place
    addr := p.addr
    size := n
    key := p.key
    read := !write
    write := write
    engine := true
    source := some (2 ^ 32 + r.source, 2 * r.order)
    team := 0
    group := identGroup r.ident
    agent := none
    ident := ident
    clocks := r.clocks
    gvec := known.gvec
    tvec := known.tvec
    view := r.view
    carried := r.snaps
    va := p.va
    quiet := true
    foreign := some known.modvec
    name := r.name
    pub := some (published r.ident known.clocks known.tvec) }
/-- The access of a write, under its proxy identity. -/
def State.proxyAcc (s : State) (r : Request) (run : Spot × List (Spot × Byte)) : Acc :=
  r.acc (s.proxyIdent run.1.addr r.source r.cluster r.ident) run.1 run.2.length true
/-- What a request writes: its data, and for a byte without data what it has read of the same tile byte. -/
def Request.written (r : Request) (answers : List (Option Byte)) : List (Spot × Byte) :=
  (r.writes.zip r.bytes).filterMap fun p => (match p.2 with
    | some b => some b
    | none => ((r.reads.zip answers).findSome? fun (q : (Nat × Nat) × Option Byte) => if q.1.2 == p.1.2 then q.2 else none)).map fun b => (r.spot p.1, b)
/-- The step of another module's request here: it reads, and writes unless it is found racing under a trap mode; losses and the record of a race go back with
its acknowledgement. -/
def State.performNear (s : State) (id : Nat) (r : Request) : State :=
  let got := s.readSpots (fun p n => r.acc noIdent p n false) (r.reads.map r.spot)
  let s := got.1
  let runs := joinRuns (r.written got.2.1)
  let accs := runs.map (s.proxyAcc r)
  let judged := accs.map fun a => (a, s.judge s.linesNow a)
  let losses := judged.flatMap fun j =>
    if r.ident == noIdent then [] else if j.1.ident == noIdent then [8] else j.2.2 ++ (j.1.lines.filter (s.losesHistory j.1)).map fun _ => 4
  let race := if r.mode == 0 then none else judged.findSome? fun j => j.2.1.map fun x => s.raceRecord j.1 x (decide (2 ≤ r.mode.toNat)) 0
  let done (s : State) (x : ReqState) : State := s.modRequest id fun q =>
    { q with state := x, answer := x, answers := got.2.1, race := race, losses := losses }
  if race.isSome && decide (2 ≤ r.mode.toNat) then done s .raced
  else done (runs.foldl (fun (s : State) run =>
      let s := s.bindProxy (s.proxyAcc r run) r.source r.cluster r.ident r.wide
      let a := s.proxyAcc r run
      (s.access s.linesNow a false none fun _ => some (run.2.map (·.2))).1) s) .performed
/-- A request ends as refused. -/
def State.finishRequest (s : State) (id : Nat) (x : ReqState) : State := s.modRequest id fun r => { r with state := x, answer := x }

/-- REMOTE_REQUEST: a request arrives, in the order its flows allow; a duplicate has no effect (R349 to R351, R354). The last of a chunk's own requests to be
taken makes the chunk's step. -/
def execRemoteRequest (request : Nat) (s : State) : Host.Outcome State Fault Refusal :=
  let r := s.request request
  .next (if cellHas s.requests request && r.state == .held && r.transit && s.mayPerform r then
    if !s.takes r then s.finishRequest request .refused
    else match r.chunk with
      | some key => s.takeRequest request key
      | none => if r.dest == s.module then s.performNear request r else s
  else s)
/-- A request whose chunk has gone with its team or its copy is done with. -/
def State.tidyRequest (s : State) (id : Nat) : State :=
  match (s.request id).chunk with
  | some k => if cellHas s.teams k.1 && cellHas (s.team k.1).copies k.2.1 then s else { s with requests := cellDel s.requests id }
  | none => s
/-- REMOTE_ACK: the acknowledgement reaches the source, which frees the request (R350). -/
def execRemoteAck (request : Nat) (s : State) : Host.Outcome State Fault Refusal :=
  let r := s.request request
  .next (if cellHas s.requests request && r.transit && (r.state == .performed || r.state == .refused || r.state == .raced) then
    let s := s.modRequest request fun r => { r with state := .acked }
    let s : State := match r.chunk with
      | some k => if r.dest == s.module || r.answer != .performed then s else s.countMt (s.viOf (s.team k.1)) 5 r.answers.length
      | none => s
    s.tidyRequest request
  else s)
/-- REQUEST_ABANDON: the source has had no acknowledgement for 2^20 ticks; the request never takes effect later, since its destination refuses it (R350). -/
def execRequestAbandon (request : Nat) (s : State) : Host.Outcome State Fault Refusal :=
  let r := s.request request
  .next (if cellHas s.requests request && r.state != .acked && decide (r.sentAt + 2 ^ 20 ≤ s.tick) then
    (s.modRequest request fun r => { r with state := .acked, answer := .abandoned }).tidyRequest request
  else s)
/-- LINK_REPLAY: requests and acknowledgements that a dropped link lost are sent again (R350). -/
def execLinkReplay (peer : Nat) (s : State) : Host.Outcome State Fault Refusal :=
  .next (if (s.peer peer).linkUp then
    { s with requests := s.requests.map fun r =>
        if (r.2.dest == peer || r.2.source == peer) && r.2.state != .acked then (r.1, { r.2 with transit := true }) else r }
  else s)

/-- The new value of a remote atomic. -/
def remoteNew (op : RemoteOp) (old v c : DWord) : Option DWord :=
  match op with
  | .add => some (old + v)
  | .or => some (old ||| v)
  | .xchg => some v
  | .cas => if old = c then some v else none
/-- The link to a module carries requests: one outside the domain has none (R346, R350). -/
def State.linked (s : State) (m : Nat) : Bool := m == s.module || (decide (m < 768) && cellHas s.peers m && (s.peer m).linkUp)
/-- The destination takes an atomic on 8 bytes: exported for reading and writing; from another module or to one by a link that carries requests. -/
def State.takesAtomic (s : State) (source dest a : Nat) : Bool :=
  if dest == s.module then s.linked source &&
    (List.range 8).all fun i => s.exported source (a + i) true && s.exported source (a + i) false
  else source == s.module && s.linked dest && decide (a + 8 ≤ (s.peer dest).size) &&
    (List.range 8).all fun i => admits (s.peer dest).reach source (a + i) true && admits (s.peer dest).reach source (a + i) false
/-- REMOTE_ATOMIC: one marked step at domain scope, with no identity, of a system core of a source module at a destination (R351, R352). The old value goes
to the source. -/
def execRemoteAtomic (op : RemoteOp) (path : RemotePath) (addr : Nat) (operand compare : DWord) (s : State) : Host.Outcome State Fault Refusal :=
  let source := path.source
  let dest := path.dest
  let place : Place := if dest == s.module then .main else .peer dest
  let key := if dest == s.module then (Config.remoteKeySlot source).toNat else 0
  let c : Acc := { (Request.blank.acc noIdent ⟨place, addr, key, 0, 0, [], true⟩ 8 true) with
    read := true, marked := true, scope := 5, engine := false, source := none, pub := none, quiet := true }
  .next (if s.takesAtomic source dest addr then
    let r := s.access s.linesNow c false none fun old => (remoteNew op (leWord old) operand compare).map fun x => leBytes x 8
    match r.2 with
    | .bytes old _ => { r.1 with remoteOld := some (source, leWord old) }
    | _ => r.1
  else s)

-- Tables (R348, R353, R355).
/-- A window of the partition that now names the flow has a request in transit. -/
def State.flowBusy (s : State) (partition flow : Nat) : Bool :=
  (s.partition partition).apertures.any fun w => bitsOf w.2 0 1 == 1 && bitsOf w.2 1 6 == flow &&
    s.requests.any fun r => r.2.source == s.module && r.2.partition == partition && r.2.state != .acked && r.2.windows.contains w.1
/-- A write of the flow table at another time is discarded and logged. -/
def execFlowTableWrite (partition : Nat) (flow : BitVec 6) (value : DWord) (s : State) : Host.Outcome State Fault Refusal :=
  .next (if !cellHas s.partitions partition then s else if s.flowBusy partition flow.toNat then s.log 12 flow.toNat
  else s.modPartition partition fun p => { p with flows := cellSet 0 p.flows flow.toNat (keepBits value 3) })
/-- The modules of the domain that this state holds. -/
def State.domain (s : State) : List Nat := s.module :: s.peers.map (·.1)
/-- ROUTE_TABLE_WRITE: the next epoch's table of a module: ports by destination. -/
def execRouteTableWrite (module : Nat) (table : List (Nat × Nat)) (s : State) : Host.Outcome State Fault Refusal :=
  .next (if s.switched || !s.domain.contains module then s else { s with nextRoutes := cellPut s.nextRoutes module table })
/-- ROUTE_EPOCH_SWITCH: every module has its new table. -/
def execRouteEpochSwitch (s : State) : Host.Outcome State Fault Refusal :=
  .next (if !s.switched && s.domain.all fun m => cellHas s.nextRoutes m then { s with epoch := s.epoch + 1, switched := true } else s)
/-- ROUTE_EPOCH_FREE: no request of the old epoch remains. -/
def execRouteEpochFree (s : State) : Host.Outcome State Fault Refusal :=
  .next (if s.switched && s.requests.all fun r => r.2.state == .acked || decide (s.epoch ≤ r.2.epoch) then
    { s with routes := s.nextRoutes, nextRoutes := [], switched := false }
  else s)
/-- PORT_RETIRE: a port that no table in use names is disabled. -/
def execPortRetire (port : Nat) (s : State) : Host.Outcome State Fault Refusal :=
  let used (m : Cells (List (Nat × Nat))) : Bool := m.any fun t => t.1 == s.module && t.2.any fun x => x.2 == port
  .next (if !s.switched && !used s.routes && !used s.nextRoutes then { s with ports := s.ports.filter (· != port) } else s)
/-- The chunks of a tower's teams that have started and not landed: what its elevators may carry (R225). -/
def State.meshBusy (s : State) (tower : Nat) : List (Nat × Nat × Nat) :=
  (s.teams.filter fun t => (s.cluster t.2.cluster).tower == tower).flatMap fun t => t.2.copies.flatMap fun c =>
    ((List.range c.2.started).filter fun i => !c.2.landed.contains i).map fun i => (t.1, c.1, i)
/-- ELEVATOR_RETIRE: a phase of the retirement of an elevator. The mesh routes of the next epoch are written without it; the tower's routers switch to them; and
once what was under way at the switch has landed, the elevator is disabled. The last elevator of the routes is not taken out (R355; DEDUCED, log 48). -/
def execElevatorRetire (tower elevator : Nat) (s : State) : Host.Outcome State Fault Refusal :=
  let t := s.tower tower
  let drained := t.meshTraffic.all fun x => !(s.meshBusy tower).contains x
  let rest := t.meshRoutes.filter (· != elevator)
  .next (if 4 ≤ tower then s
    else match t.meshNext with
    | some routes =>
      if routes.contains elevator then s
      else s.modTower tower fun t => { t with meshRoutes := routes, meshNext := none, meshEpoch := t.meshEpoch + 1, meshTraffic := s.meshBusy tower }
    | none =>
      if !drained then s
      else if t.meshRoutes.contains elevator then (if rest.isEmpty then s else s.modTower tower fun t => { t with meshNext := some rest })
      else s.modTower tower fun t => { t with elevators := t.elevators.filter (· != elevator), meshTraffic := [] })

end Sys2Proof.Machine
end

