-- ==== Sys2Proof/Machine/Integer.lean ====
section
/-! DEFINITION. The integer instructions (05 R79 to R81): the value each computes at width 32 or 64, and the lane and
scalar forms. -/

namespace Sys2Proof.Machine

-- The values (R79).
def intMulhiS {w : Nat} (a b : BitVec w) : BitVec w := BitVec.ofInt w (a.toInt * b.toInt / 2 ^ w)
def intMulhiN {w : Nat} (a b : BitVec w) : BitVec w := BitVec.ofNat w (a.toNat * b.toNat / 2 ^ w)
def intMinS {w : Nat} (a b : BitVec w) : BitVec w := if b.toInt < a.toInt then b else a
def intMinN {w : Nat} (a b : BitVec w) : BitVec w := if b.toNat < a.toNat then b else a
def intMaxS {w : Nat} (a b : BitVec w) : BitVec w := if a.toInt < b.toInt then b else a
def intMaxN {w : Nat} (a b : BitVec w) : BitVec w := if a.toNat < b.toNat then b else a
def intAbs {w : Nat} (a : BitVec w) : BitVec w := if a.toInt < 0 then -a else a
def intShl {w : Nat} (a b : BitVec w) : BitVec w := if w ≤ b.toNat then 0 else a <<< b.toNat
def intShr {w : Nat} (a b : BitVec w) : BitVec w := if w ≤ b.toNat then 0 else a >>> b.toNat
def intSar {w : Nat} (a b : BitVec w) : BitVec w := a.sshiftRight (min b.toNat (w - 1))
def intRotl {w : Nat} (a b : BitVec w) : BitVec w := a.rotateLeft (b.toNat % w)
def intPopc {w : Nat} (a : BitVec w) : BitVec w := BitVec.ofNat w (countBits a.toNat w)
def intClz {w : Nat} (a : BitVec w) : BitVec w := BitVec.ofNat w (if a = 0 then w else w - 1 - Nat.log2 a.toNat)
/-- Bit j of the source moves to bit w − 1 − j. -/
def reverseBits (a : Nat) (w : Nat) : Nat → Nat
  | 0 => 0
  | n + 1 => reverseBits a w n + (a / 2 ^ n % 2) * 2 ^ (w - 1 - n)
def intBrev {w : Nat} (a : BitVec w) : BitVec w := BitVec.ofNat w (reverseBits a.toNat w w)
def intSel {w : Nat} (a b c : BitVec w) : BitVec w := if c = 0 then b else a

-- Bit fields (R80).
def fieldPos (w ctl : Nat) : Nat := min (ctl % 256) w
def fieldLen (w ctl : Nat) : Nat := min (ctl / 256 % 256) (w - fieldPos w ctl)
def intBfxN {w : Nat} (a ctl : BitVec w) : BitVec w := BitVec.ofNat w (fld a.toNat (fieldPos w ctl.toNat) (fieldLen w ctl.toNat))
def intBfxS {w : Nat} (a ctl : BitVec w) : BitVec w :=
  let len := fieldLen w ctl.toNat
  let f := fld a.toNat (fieldPos w ctl.toNat) len
  if len = 0 then 0 else BitVec.ofInt w (if 2 ^ (len - 1) ≤ f then (f : Int) - 2 ^ len else f)
def intBfi {w : Nat} (a b ctl : BitVec w) : BitVec w :=
  let pos := fieldPos w ctl.toNat
  let len := fieldLen w ctl.toNat
  let mask := (2 ^ len - 1) * 2 ^ pos
  (a &&& ~~~(BitVec.ofNat w mask)) ||| BitVec.ofNat w (b.toNat % 2 ^ len * 2 ^ pos)

-- Byte permutation (R81).
/-- Byte n of a pool. -/
def poolByte (pool n : Nat) : Nat := fld pool (8 * n) 8
def prmLane (a b c : Word) : Word :=
  let pool := a.toNat + c.toNat * 2 ^ 32
  BitVec.ofNat 32 (((List.range 4).map fun j =>
    let n := fld b.toNat (4 * j) 4
    (if n < 8 then poolByte pool n else 0) * 2 ^ (8 * j)).sum)
def prmScalar (a b c : DWord) : DWord :=
  let pool := a.toNat + c.toNat * 2 ^ 64
  BitVec.ofNat 64 (((List.range 8).map fun j => poolByte pool (fld b.toNat (4 * j) 4) * 2 ^ (8 * j)).sum)

-- The forms.
/-- A two-source integer instruction. -/
def int2Effect (op : {w : Nat} → BitVec w → BitVec w → BitVec w) (f : Int2) (s : State) : Host.Outcome State Fault Refusal :=
  match f with
  | .lane k d a b => s.issue (d.toNat :: a.toNat :: b.regs) false fun s => s.laneOp k d fun gl => op (s.vreg gl a.toNat) (s.laneInt gl b)
  | .scalar d a b => s.issuePlain fun s => s.scalOp d (op (s.sreg a.toNat) (s.scalInt b))
/-- A unary integer instruction. -/
def int1Effect (op : {w : Nat} → BitVec w → BitVec w) (f : Int1) (s : State) : Host.Outcome State Fault Refusal :=
  match f with
  | .lane k d a => s.issue (d.toNat :: a.regs) false fun s => s.laneOp k d fun gl => op (s.laneUnInt gl a)
  | .scalar d a => s.issuePlain fun s => s.scalOp d (op (s.scalInt a))
/-- A three-source integer instruction. -/
def int3Effect (op : {w : Nat} → BitVec w → BitVec w → BitVec w → BitVec w) (f : Int3) (s : State) :
    Host.Outcome State Fault Refusal :=
  match f with
  | .lane k d a b c => s.issue (d.toNat :: a.toNat :: (b.regs ++ c.regs)) false fun s =>
      s.laneOp k d fun gl => op (s.vreg gl a.toNat) (s.laneReg gl b) (s.laneReg gl c)
  | .scalar d a b c => s.issuePlain fun s => s.scalOp d (op (s.sreg a.toNat) (s.sreg b.toNat) (s.sreg c.toNat))

def execIadd (f : Int2) (s : State) := int2Effect (fun a b => a + b) f s
def execIsub (f : Int2) (s : State) := int2Effect (fun a b => a - b) f s
def execImul (f : Int2) (s : State) := int2Effect (fun a b => a * b) f s
def execImulhiS (f : Int2) (s : State) := int2Effect intMulhiS f s
def execImulhiN (f : Int2) (s : State) := int2Effect intMulhiN f s
def execImad (f : Int3) (s : State) := int3Effect (fun a b c => a * b + c) f s
def execIminS (f : Int2) (s : State) := int2Effect intMinS f s
def execIminN (f : Int2) (s : State) := int2Effect intMinN f s
def execImaxS (f : Int2) (s : State) := int2Effect intMaxS f s
def execImaxN (f : Int2) (s : State) := int2Effect intMaxN f s
def execIabs (f : Int1) (s : State) := int1Effect intAbs f s
def execIneg (f : Int1) (s : State) := int1Effect (fun a => -a) f s
def execAnd (f : Int2) (s : State) := int2Effect (fun a b => a &&& b) f s
def execOr (f : Int2) (s : State) := int2Effect (fun a b => a ||| b) f s
def execXor (f : Int2) (s : State) := int2Effect (fun a b => a ^^^ b) f s
def execNot (f : Int1) (s : State) := int1Effect (fun a => ~~~a) f s
def execShl (f : Int2) (s : State) := int2Effect intShl f s
def execShr (f : Int2) (s : State) := int2Effect intShr f s
def execSar (f : Int2) (s : State) := int2Effect intSar f s
def execRotl (f : Int2) (s : State) := int2Effect intRotl f s
def execPopc (f : Int1) (s : State) := int1Effect intPopc f s
def execClz (f : Int1) (s : State) := int1Effect intClz f s
def execBrev (f : Int1) (s : State) := int1Effect intBrev f s
def execBfxS (f : Int2) (s : State) := int2Effect intBfxS f s
def execBfxN (f : Int2) (s : State) := int2Effect intBfxN f s
def execBfi (f : Int3) (s : State) := int3Effect intBfi f s
/-- prm, whose VI forms have zeros for C (R81). -/
def execPrm (f : PrmForm) (s : State) : Host.Outcome State Fault Refusal :=
  match f with
  | .lane k d a b c => s.issue (d.toNat :: a.toNat :: (b.regs ++ c.regs)) false fun s =>
      s.laneOp k d fun gl => prmLane (s.vreg gl a.toNat) (s.laneReg gl b) (s.laneReg gl c)
  | .laneImm k d a x => s.issue [d.toNat, a.toNat] false fun s => s.laneOp k d fun gl => prmLane (s.vreg gl a.toNat) (sextImm 32 x) 0
  | .scalar d a b c => s.issuePlain fun s => s.scalOp d (prmScalar (s.sreg a.toNat) (s.sreg b.toNat) (s.sreg c.toNat))
  | .scalarImm d a x => s.issuePlain fun s => s.scalOp d (prmScalar (s.sreg a.toNat) (sextImm 64 x) 0)
def execSel (f : Int3) (s : State) := int3Effect intSel f s

end Sys2Proof.Machine
end

