-- ==== Sys2Proof/Machine/Dispatch.lean ====
section
/-! DEFINITION. The meaning of every instruction and event: one arm per constructor of Instr, each one
direct call of its meaning. -/

namespace Sys2Proof.Machine

def exec (i : Instr) (s : State) : Host.Outcome State Fault Refusal :=
  match i with
  | .nop => Sys2Proof.Machine.execNop s
  | .br hint r off => Sys2Proof.Machine.execBr hint r off s
  | .bnz hint ka off => Sys2Proof.Machine.execBnz hint ka off s
  | .bz hint ka off => Sys2Proof.Machine.execBz hint ka off s
  | .call off => Sys2Proof.Machine.execCall off s
  | .ret => Sys2Proof.Machine.execRet s
  | .apply ka off => Sys2Proof.Machine.execApply ka off s
  | .applyT policy ka off => Sys2Proof.Machine.execApplyT policy ka off s
  | .apply2 ka kb off0 off1 => Sys2Proof.Machine.execApply2 ka kb off0 off1 s
  | .join => Sys2Proof.Machine.execJoin s
  | .exit k => Sys2Proof.Machine.execExit k s
  | .await d ticks => Sys2Proof.Machine.execAwait d ticks s
  | .awaitTimeout a => Sys2Proof.Machine.execAwaitTimeout a s
  | .yield => Sys2Proof.Machine.execYield s
  | .trap k code => Sys2Proof.Machine.execTrap k code s
  | .bkpt k code => Sys2Proof.Machine.execBkpt k code s
  | .tret => Sys2Proof.Machine.execTret s
  | .tretSkip => Sys2Proof.Machine.execTretSkip s
  | .tretComplete => Sys2Proof.Machine.execTretComplete s
  | .tkill => Sys2Proof.Machine.execTkill s
  | .tpass => Sys2Proof.Machine.execTpass s
  | .trapDelivery a => Sys2Proof.Machine.execTrapDelivery a s
  | .test cmp ty k d a b => Sys2Proof.Machine.execTest cmp ty k d a b s
  | .kall d => Sys2Proof.Machine.execKall d s
  | .kunion d a b => Sys2Proof.Machine.execKunion d a b s
  | .kinter d a b => Sys2Proof.Machine.execKinter d a b s
  | .kdiff d a b => Sys2Proof.Machine.execKdiff d a b s
  | .kcount d a => Sys2Proof.Machine.execKcount d a s
  | .kfirst d a => Sys2Proof.Machine.execKfirst d a s
  | .kmatch k d a wide => Sys2Proof.Machine.execKmatch k d a wide s
  | .kgatherT d a => Sys2Proof.Machine.execKgatherT d a s
  | .kmov d a => Sys2Proof.Machine.execKmov d a s
  | .kld d m => Sys2Proof.Machine.execKld d m s
  | .kst a m => Sys2Proof.Machine.execKst a m s
  | .iadd f => Sys2Proof.Machine.execIadd f s
  | .isub f => Sys2Proof.Machine.execIsub f s
  | .imul f => Sys2Proof.Machine.execImul f s
  | .imulhiS f => Sys2Proof.Machine.execImulhiS f s
  | .imulhiN f => Sys2Proof.Machine.execImulhiN f s
  | .imad f => Sys2Proof.Machine.execImad f s
  | .iminS f => Sys2Proof.Machine.execIminS f s
  | .iminN f => Sys2Proof.Machine.execIminN f s
  | .imaxS f => Sys2Proof.Machine.execImaxS f s
  | .imaxN f => Sys2Proof.Machine.execImaxN f s
  | .iabs f => Sys2Proof.Machine.execIabs f s
  | .ineg f => Sys2Proof.Machine.execIneg f s
  | .and f => Sys2Proof.Machine.execAnd f s
  | .or f => Sys2Proof.Machine.execOr f s
  | .xor f => Sys2Proof.Machine.execXor f s
  | .not f => Sys2Proof.Machine.execNot f s
  | .shl f => Sys2Proof.Machine.execShl f s
  | .shr f => Sys2Proof.Machine.execShr f s
  | .sar f => Sys2Proof.Machine.execSar f s
  | .rotl f => Sys2Proof.Machine.execRotl f s
  | .popc f => Sys2Proof.Machine.execPopc f s
  | .clz f => Sys2Proof.Machine.execClz f s
  | .brev f => Sys2Proof.Machine.execBrev f s
  | .bfxS f => Sys2Proof.Machine.execBfxS f s
  | .bfxN f => Sys2Proof.Machine.execBfxN f s
  | .bfi f => Sys2Proof.Machine.execBfi f s
  | .prm f => Sys2Proof.Machine.execPrm f s
  | .sel f => Sys2Proof.Machine.execSel f s
  | .fadd f => Sys2Proof.Machine.execFadd f s
  | .fsub f => Sys2Proof.Machine.execFsub f s
  | .fmul f => Sys2Proof.Machine.execFmul f s
  | .ffma f => Sys2Proof.Machine.execFfma f s
  | .fmin f => Sys2Proof.Machine.execFmin f s
  | .fmax f => Sys2Proof.Machine.execFmax f s
  | .frcp f => Sys2Proof.Machine.execFrcp f s
  | .frsq f => Sys2Proof.Machine.execFrsq f s
  | .fsqrt f => Sys2Proof.Machine.execFsqrt f s
  | .fexp2 f => Sys2Proof.Machine.execFexp2 f s
  | .flog2 f => Sys2Proof.Machine.execFlog2 f s
  | .fsin f => Sys2Proof.Machine.execFsin f s
  | .fcos f => Sys2Proof.Machine.execFcos f s
  | .fscale k d a b rm => Sys2Proof.Machine.execFscale k d a b rm s
  | .fclass k d a => Sys2Proof.Machine.execFclass k d a s
  | .dadd f => Sys2Proof.Machine.execDadd f s
  | .dmul f => Sys2Proof.Machine.execDmul f s
  | .dfma f => Sys2Proof.Machine.execDfma f s
  | .dmin f => Sys2Proof.Machine.execDmin f s
  | .dmax f => Sys2Proof.Machine.execDmax f s
  | .hadd2 f => Sys2Proof.Machine.execHadd2 f s
  | .hmul2 f => Sys2Proof.Machine.execHmul2 f s
  | .hfma2 f => Sys2Proof.Machine.execHfma2 f s
  | .badd2 f => Sys2Proof.Machine.execBadd2 f s
  | .bfma2 f => Sys2Proof.Machine.execBfma2 f s
  | .cvt k dst src rm d a jd js => Sys2Proof.Machine.execCvt k dst src rm d a jd js s
  | .cvtSr k dst wide d a b hi jd => Sys2Proof.Machine.execCvtSr k dst wide d a b hi jd s
  | .rnd k d a b => Sys2Proof.Machine.execRnd k d a b s
  | .dot2H16 f => Sys2Proof.Machine.execDot2H16 f s
  | .dot2B16 f => Sys2Proof.Machine.execDot2B16 f s
  | .dot4S8 f => Sys2Proof.Machine.execDot4S8 f s
  | .dot4N8 f => Sys2Proof.Machine.execDot4N8 f s
  | .dot4F8E4 f => Sys2Proof.Machine.execDot4F8E4 f s
  | .dot4F8E5 f => Sys2Proof.Machine.execDot4F8E5 f s
  | .dot8S4 f => Sys2Proof.Machine.execDot8S4 f s
  | .dot8N4 f => Sys2Proof.Machine.execDot8N4 f s
  | .dot8F4E2M1 f => Sys2Proof.Machine.execDot8F4E2M1 f s
  | .shflIdx k d a b => Sys2Proof.Machine.execShflIdx k d a b s
  | .shflUp k d a b => Sys2Proof.Machine.execShflUp k d a b s
  | .shflDown k d a b => Sys2Proof.Machine.execShflDown k d a b s
  | .shflXor k d a b => Sys2Proof.Machine.execShflXor k d a b s
  | .shflNx k d a => Sys2Proof.Machine.execShflNx k d a s
  | .shflPv k d a => Sys2Proof.Machine.execShflPv k d a s
  | .bcast k d a src => Sys2Proof.Machine.execBcast k d a src s
  | .bcastScalar k d a src => Sys2Proof.Machine.execBcastScalar k d a src s
  | .red op rm k d a => Sys2Proof.Machine.execRed op rm k d a s
  | .redx op k d a => Sys2Proof.Machine.execRedx op k d a s
  | .scan op ex rm k d a => Sys2Proof.Machine.execScan op ex rm k d a s
  | .ld w k d m => Sys2Proof.Machine.execLd w k d m s
  | .ldFe w k d m => Sys2Proof.Machine.execLdFe w k d m s
  | .ldTake w k d m => Sys2Proof.Machine.execLdTake w k d m s
  | .st w k d m => Sys2Proof.Machine.execSt w k d m s
  | .atom op f => Sys2Proof.Machine.execAtom op f s
  | .tld f => Sys2Proof.Machine.execTld f s
  | .tred f => Sys2Proof.Machine.execTred f s
  | .ttr f => Sys2Proof.Machine.execTtr f s
  | .gather f => Sys2Proof.Machine.execGather f s
  | .scatter f => Sys2Proof.Machine.execScatter f s
  | .lld f => Sys2Proof.Machine.execLld f s
  | .lst f => Sys2Proof.Machine.execLst f s
  | .push kind a n => Sys2Proof.Machine.execPush kind a n s
  | .pop kind a n => Sys2Proof.Machine.execPop kind a n s
  | .lrec a handle => Sys2Proof.Machine.execLrec a handle s
  | .lfence => Sys2Proof.Machine.execLfence s
  | .layoutCacheFill team r handle => Sys2Proof.Machine.execLayoutCacheFill team r handle s
  | .fence sc => Sys2Proof.Machine.execFence sc s
  | .bar => Sys2Proof.Machine.execBar s
  | .cbar => Sys2Proof.Machine.execCbar s
  | .clockChange core => Sys2Proof.Machine.execClockChange core s
  | .pbarArrive d m => Sys2Proof.Machine.execPbarArrive d m s
  | .pbarWait d m => Sys2Proof.Machine.execPbarWait d m s
  | .bmwait la d bm slot mask => Sys2Proof.Machine.execBmwait la d bm slot mask s
  | .cpy f => Sys2Proof.Machine.execCpy f s
  | .cpyx f => Sys2Proof.Machine.execCpyx f s
  | .cpym f mask => Sys2Proof.Machine.execCpym f mask s
  | .copyAccept a => Sys2Proof.Machine.execCopyAccept a s
  | .sliceStart core => Sys2Proof.Machine.execSliceStart core s
  | .chunkLand team copy chunk => Sys2Proof.Machine.execChunkLand team copy chunk s
  | .deliveryLand team copy chunk position => Sys2Proof.Machine.execDeliveryLand team copy chunk position s
  | .gang g => Sys2Proof.Machine.execGang g s
  | .mma f => Sys2Proof.Machine.execMma f s
  | .commandAccept team leader id => Sys2Proof.Machine.execCommandAccept team leader id s
  | .commandStart team leader id => Sys2Proof.Machine.execCommandStart team leader id s
  | .matrixARead team leader r => Sys2Proof.Machine.execMatrixARead team leader r s
  | .commandComplete team leader id => Sys2Proof.Machine.execCommandComplete team leader id s
  | .mfenceOpr => Sys2Proof.Machine.execMfenceOpr s
  | .mwait id => Sys2Proof.Machine.execMwait id s
  | .mwaitAll => Sys2Proof.Machine.execMwaitAll s
  | .mwaitPop d q => Sys2Proof.Machine.execMwaitPop d q s
  | .emit f => Sys2Proof.Machine.execEmit f s
  | .rolesw row => Sys2Proof.Machine.execRolesw row s
  | .rsr f => Sys2Proof.Machine.execRsr f s
  | .wsr a n => Sys2Proof.Machine.execWsr a n s
  | .rmode mode => Sys2Proof.Machine.execRmode mode s
  | .trec a code => Sys2Proof.Machine.execTrec a code s
  | .priorityBoost team group => Sys2Proof.Machine.execPriorityBoost team group s
  | .registerFill team group line => Sys2Proof.Machine.execRegisterFill team group line s
  | .pageWalk vi va => Sys2Proof.Machine.execPageWalk vi va s
  | .doorbell vi d => Sys2Proof.Machine.execDoorbell vi d s
  | .launchPacket vi => Sys2Proof.Machine.execLaunchPacket vi s
  | .loadPacket vi => Sys2Proof.Machine.execLoadPacket vi s
  | .unloadPacket vi => Sys2Proof.Machine.execUnloadPacket vi s
  | .entryRecordEnter launch => Sys2Proof.Machine.execEntryRecordEnter launch s
  | .binTimerExpiry launch node => Sys2Proof.Machine.execBinTimerExpiry launch node s
  | .dispatchPlace launch => Sys2Proof.Machine.execDispatchPlace launch s
  | .stallCountExpiry core => Sys2Proof.Machine.execStallCountExpiry core s
  | .preemptionStop team => Sys2Proof.Machine.execPreemptionStop team s
  | .teamEvicted team => Sys2Proof.Machine.execTeamEvicted team s
  | .savePoolSave team => Sys2Proof.Machine.execSavePoolSave team s
  | .commit launch => Sys2Proof.Machine.execCommit launch s
  | .launchComplete launch => Sys2Proof.Machine.execLaunchComplete launch s
  | .ctlPreemptInterface vi => Sys2Proof.Machine.execCtlPreemptInterface vi s
  | .ctlPreemptLaunch vi arg => Sys2Proof.Machine.execCtlPreemptLaunch vi arg s
  | .ctlPreemptTeam vi arg => Sys2Proof.Machine.execCtlPreemptTeam vi arg s
  | .ctlRelease vi arg => Sys2Proof.Machine.execCtlRelease vi arg s
  | .ctlInvalidate vi arg => Sys2Proof.Machine.execCtlInvalidate vi arg s
  | .ctlReleaseEscalated vi arg => Sys2Proof.Machine.execCtlReleaseEscalated vi arg s
  | .ctlAbort vi arg => Sys2Proof.Machine.execCtlAbort vi arg s
  | .ctlWriteHistograms vi => Sys2Proof.Machine.execCtlWriteHistograms vi s
  | .ctlRequestComplete vi => Sys2Proof.Machine.execCtlRequestComplete vi s
  | .mtCounterWrite vi counter => Sys2Proof.Machine.execMtCounterWrite vi counter s
  | .registerWrite w => Sys2Proof.Machine.execRegisterWrite w s
  | .imageWrite team offset bytes => Sys2Proof.Machine.execImageWrite team offset bytes s
  | .moveStart tower p q => Sys2Proof.Machine.execMoveStart tower p q s
  | .moveRowCopy tower => Sys2Proof.Machine.execMoveRowCopy tower s
  | .moveSwitch tower => Sys2Proof.Machine.execMoveSwitch tower s
  | .agingSweep place line => Sys2Proof.Machine.execAgingSweep place line s
  | .metadataEvict line => Sys2Proof.Machine.execMetadataEvict line s
  | .bankRebuildDone array => Sys2Proof.Machine.execBankRebuildDone array s
  | .powerThrottleStep tower => Sys2Proof.Machine.execPowerThrottleStep tower s
  | .thermalThrottle tower => Sys2Proof.Machine.execThermalThrottle tower s
  | .coolantLoss => Sys2Proof.Machine.execCoolantLoss s
  | .clockModeChange partition => Sys2Proof.Machine.execClockModeChange partition s
  | .sleepEnter core => Sys2Proof.Machine.execSleepEnter core s
  | .syscallStop vi process thread => Sys2Proof.Machine.execSyscallStop vi process thread s
  | .resetBoot => Sys2Proof.Machine.execResetBoot s
  | .attest partition nonce => Sys2Proof.Machine.execAttest partition nonce s
  | .keyLoad slot key => Sys2Proof.Machine.execKeyLoad slot key s
  | .remoteRequest request => Sys2Proof.Machine.execRemoteRequest request s
  | .remoteAck request => Sys2Proof.Machine.execRemoteAck request s
  | .requestAbandon request => Sys2Proof.Machine.execRequestAbandon request s
  | .remoteAtomic op path addr operand compare => Sys2Proof.Machine.execRemoteAtomic op path addr operand compare s
  | .flowTableWrite partition flow value => Sys2Proof.Machine.execFlowTableWrite partition flow value s
  | .routeTableWrite module table => Sys2Proof.Machine.execRouteTableWrite module table s
  | .routeEpochSwitch => Sys2Proof.Machine.execRouteEpochSwitch s
  | .routeEpochFree => Sys2Proof.Machine.execRouteEpochFree s
  | .portRetire port => Sys2Proof.Machine.execPortRetire port s
  | .elevatorRetire tower elevator => Sys2Proof.Machine.execElevatorRetire tower elevator s
  | .unassignedOpcodeIssue cause word => Sys2Proof.Machine.execUnassignedOpcodeIssue cause word s
  | .thermalThrottleRelease tower => Sys2Proof.Machine.execThermalThrottleRelease tower s
  | .sharedMemoryWriteBack team => Sys2Proof.Machine.execSharedMemoryWriteBack team s
  | .linkReplay peer => Sys2Proof.Machine.execLinkReplay peer s

end Sys2Proof.Machine
end

