-- ==== Sys2Proof/Machine/Fetch.lean ====
section
/-! DEFINITION. An instruction's words placed where the next step fetches them (log 2): at the PC of the agent that moves when it can
fetch there, and otherwise in a team of one group that a launch of a small code object has placed. -/

namespace Sys2Proof.Machine

/-- A code word stored at a PC of a team's object, through its interface's translation. -/
def State.placeWord (s : State) (t : Team) (pc : Nat) (w : DWord) : State :=
  let o := s.objectOf t
  match s.translate o.vi (o.placement + 8 * pc) false with
  | .error _ => s
  | .ok (pa, key) => (wordBytes w.toNat 8).zipIdx.foldl (fun (s : State) b => s.writeKeyed key (pa + b.2) b.1) s

/-- The two words at the PC of the agent that moves can be placed and fetched. -/
def State.canPlace (s : State) : Bool :=
  let ok (pc : Nat) : Bool := match s.codeWord s.curTeam pc with | .ok _ => true | .error _ => false
  s.mayMove && s.curAgent.status == .ready && !s.curLaunch.determinate && !s.atPcStop && ok s.curAgent.pc && ok (s.curAgent.pc + 1)

/-- Physical and virtual address of the placed object's first word. -/
def placedAt : Nat := 0x4000
/-- The object: a header word, then two words. -/
def placedKernel : Kernel := { Kernel.blank with words := 3 }
def placedObject (vi : Nat) : CodeObject :=
  { CodeObject.blank with
    vi := vi
    placement := placedAt
    size := 24
    words := 3
    kernels := [placedKernel]
    nodes := [{ Node.blank with lanes := 32 }] }
/-- Its group and its agent, at the first word after the header. -/
def placedGroup : Group := { Group.blank with live := 0xFFFFFFFF, sp := 0xC000, budget := 256, placed := 256, clock := 1 }
def placedAgent : Agent :=
  { Agent.blank with
    lanes := BitVec.ofNat 1024 (2 ^ 32 - 1)
    k0 := localDesc 0 (2 ^ 32 - 1)
    pc := 1
    rest := 2 }
/-- A team of one group on core 0. -/
def placedTeam (launch cluster : Nat) : Team :=
  { Team.blank with
    launch := launch
    groupsN := 1
    lanesN := 32
    cluster := cluster
    status := .resident
    groups := [(0, placedGroup)]
    agents := [(0, placedAgent)]
    sharedSize := 4096
    tclock := 1 }
/-- The team, its launch and object, and a table that maps the first gigabyte onto itself. -/
def State.placeTeam (s : State) : State :=
  let vi := ((List.range 64).find? fun v => !cellHas s.vis v).getD 0
  let main := writeBytes (writeBytes s.main 0x1000 (wordBytes 0x2001 8)) 0x2000 (wordBytes 0xF 8)
  let l : Launch := { Launch.blank with vi := vi, object := s.nextObject, grid := 1, slots := 1, usedSlots := [0], formed := 1, start := s.tick }
  { s with
    cur := ⟨s.nextTeam, 0⟩
    nextTeam := s.nextTeam + 1
    nextCluster := s.nextCluster + 1
    nextLaunch := s.nextLaunch + 1
    nextObject := s.nextObject + 1
    teams := cellPut s.teams s.nextTeam (placedTeam s.nextLaunch s.nextCluster)
    clusters := cellPut s.clusters s.nextCluster { Cluster.blank with launch := s.nextLaunch, teams := [s.nextTeam], epoch := 1, offsets := [0] }
    launches := cellPut s.launches s.nextLaunch l
    objects := cellPut s.objects s.nextObject (placedObject vi)
    vis := cellPut s.vis vi { s.vi vi with root := 0x1000, tlb := [] }
    main := writeBytes main placedAt (wordBytes (0x1FF * 2 ^ 55 + 2 * 2 ^ 45) 8) }

/-- The register lines of the moving agent's groups are present, and the lines of its host's spill stack and switchback spill. -/
def State.placeLines (s : State) : State :=
  let t := s.cur.team
  let lines := (List.range 248).map fun i => PoolLine.mk t s.curAgent.host (264 + i)
  let s := s.modCurTeam fun x => { x with groups := x.groups.map fun g => (g.1, { g.2 with missing := [] }) }
  s.modCore s.curTeam.core fun k => { k with pool := lines ++ k.pool.filter fun p => p.team != t }

/-- The state whose next turn is the agent's, with the words of these bits at its PC; bits above the given ones are zero in w. -/
def State.placeFetch (s : State) (_nbits w : Nat) : State :=
  let s := if s.canPlace then s else s.placeTeam
  let pc := s.curAgent.pc
  let s := (s.placeWord s.curTeam pc (BitVec.ofNat 64 w)).placeWord s.curTeam (pc + 1) (BitVec.ofNat 64 (w / 2 ^ 64))
  (({ s with schedule := [⟨0, .agent s.cur⟩] } : State).modCur fun x => { x with rest := max x.rest 2 }).placeLines

end Sys2Proof.Machine
end

