-- ==== Sys2Proof/Machine/Turns.lean ====
section
/-! DEFINITION. Turns: what the outside world does between steps, and who moves at a step. The schedule is an input (log 1). -/

namespace Sys2Proof.Machine

-- Writes of system software and the host, and the images they meet (R46, R134).
/-- Bytes written to main memory by physical address, under no key of their own. Those written where no memory is populated are kept, and a page walk reads them
back (R2, R329; DESIGN CHOICE, log 130). -/
def State.pokeMain (s : State) (a : Nat) (bs : List Byte) : State :=
  { s with
    main := writeBytes s.main a bs
    mainHist := s.mainHist.filter fun p => !decide (a ≤ p.1 ∧ p.1 < a + bs.length) }
/-- The offset of a physical address in the image of a team. -/
def State.imageOffset (s : State) (t : Team) (pa : Nat) : Option Nat :=
  (List.range ((s.objectOf t).slotSize / 65536)).findSome? fun k => match s.translateOwn (s.viOf t) (s.imageBase t + 65536 * k) false with
    | .ok (p, _) => if p ≤ pa ∧ pa < p + 65536 then some (65536 * k + (pa - p)) else none
    | .error _ => none
/-- The images that hold a physical address: team and offset. -/
def State.imagesAt (s : State) (pa : Nat) : List (Nat × Nat) :=
  s.teams.filterMap fun t => if t.2.status == .ended then none else (s.imageOffset t.2 pa).map fun o => (t.1, o)
/-- A write of bytes whose physical addresses are given (none for one that has none). One that meets the image of a team before its eviction changes
nothing and is logged; one to the image of an evicted team leaves reserved bits 0, and the copies of its lines leave the register caches. -/
def State.guardImages (s : State) (at_ : List (Option Nat)) (bs : List Byte) (write : State → List Byte → State) : State :=
  let hits : List (Nat × Nat × Nat) := at_.zipIdx.flatMap fun p => match p.1 with
    | some a => (s.imagesAt a).map fun x => (p.2, x)
    | none => []
  match hits.find? fun h => (s.team h.2.1).status != .evicted with
  | some h => s.log 13 h.2.1
  | none =>
    let kept := bs.zipIdx.map fun b => match hits.find? fun h => h.1 == b.2 with
      | some h => (imageBytes (s.team h.2.1) h.2.2 [b.1]).headD b.1
      | none => b.1
    hits.foldl (fun (s : State) h => s.dropLines h.2.1 h.2.2 1) (write s kept)

-- The cycle counters (R143, R342).
/-- The groups of a quarter of a core, the longest resident first. -/
def State.quarterGroups (s : State) (core quarter : Nat) : List (Nat × Nat) :=
  let ts := sortBy (fun (a b : Nat × Team) => decide (a.2.since ≤ b.2.since)) (s.teams.filter fun t => t.2.core == core && t.2.status == .resident)
  ts.flatMap fun t => (t.2.groups.filter fun g => g.1 % 4 == quarter && g.2.live != 0).map fun g => (t.1, g.1)
/-- The groups of a quarter that are eligible, as far as this state shows: what only a pipeline holds back is not in it. -/
def State.eligibleOn (s : State) (core quarter : Nat) : Nat :=
  ((s.quarterGroups core quarter).filter fun g => s.groupEligible g.1 (s.team g.1) g.2).length
/-- An agent stands before an instruction whose wait for earlier ones only the pipeline shows: mfence.opr, and rolesw (R189, R295). -/
def State.fencesNext (s : State) (a : AgentRef) : Bool := match s.nextInstr a with
  | some .mfenceOpr | some (.rolesw _) => (s.agent a).status == .ready
  | _ => false
/-- The stall reasons of an agent that this state shows: lines missing, a rendezvous, a memory wait, a matrix wait, a join, a unit that has no room. -/
def State.stallOf (s : State) (a : AgentRef) : Option Nat :=
  let x := s.agent a
  match x.status with
  | .ready =>
    if (match s.nextInstr a with | some i => !(s.absent a i).isEmpty | none => false) then some 1 else s.waitOf a
  | .rdv | .latch => some 5
  | .await _ _ => some 6
  | .join | .region | .trapWait => some 8
  | .accept _ => some 9
  | _ => none
/-- The reason charged for a cycle without an issue, taken from the oldest group: the first that applies of those this state shows and one that only the
pipeline shows (codes 0, 2, 3, 4 and 9, and 7 before a fence: an input, log 95). -/
def State.stallReason (s : State) (core quarter given : Nat) : Option Nat :=
  match s.quarterGroups core quarter with
  | [] => some 10
  | g :: _ =>
    let shown := ((s.team g.1).agents.filterMap fun a => if a.2.host == g.2 then s.stallOf ⟨g.1, a.1⟩ else none).min?
    let fence := given == 7 && (s.team g.1).agents.any fun a => a.2.host == g.2 && s.fencesNext ⟨g.1, a.1⟩
    if [0, 2, 3, 4, 9].contains given || fence then some (match shown with | some k => min k given | none => given) else shown
/-- One more cycle in a bin of a quarter. -/
def State.chargeBin (s : State) (core quarter bin : Nat) : State :=
  s.modCore core fun k =>
    { k with histogram := cellSet 0 k.histogram (32 * quarter + bin) (addSat32 (cellGet 0 k.histogram (32 * quarter + bin)) 1) }
/-- A cycle of a quarter: a bin from 1 to 16 is the number of eligible groups, of which the pipeline may hold back some; from 17 on none is eligible. -/
def State.chargeCycle (s : State) (core quarter bin : Nat) : State :=
  if 4 ≤ quarter then s
  else if 1 ≤ bin ∧ bin ≤ 16 then (if bin ≤ s.eligibleOn core quarter then s.chargeBin core quarter bin else s)
  else if 17 ≤ bin ∧ bin ≤ 27 then match s.stallReason core quarter (bin - 17) with
    | some r => (s.chargeBin core quarter 0).chargeBin core quarter (17 + r)
    | none => s.chargeBin core quarter 0
  else s

-- The outside world.
/-- A request of another module; one with the identity of an earlier request is a duplicate (R350), and a module outside the domain gets none
(R346). -/
def State.arrive (s : State) (r : Request) : State :=
  let same (q : Request) : Bool := q.source == r.source && q.flows.any fun a => r.flows.any fun b => a.flow == b.flow && a.seq == b.seq
  if r.source == s.module || !s.linked r.source || s.requests.any fun q => same q.2 then s
  else { s with
    requests := cellPut s.requests s.nextRequest
      { r with dest := s.module, chunk := none, state := .held, answer := .performed, transit := true, sentAt := s.tick }
    nextRequest := s.nextRequest + 1 }
/-- A link drops, which loses what is on the way, or comes back; those of a module outside the domain stay down (R346, R350). -/
def State.setLink (s : State) (p : Nat) (up : Bool) : State :=
  if !cellHas s.peers p || (up && s.outside) then s
  else
    let s := s.modPeer p fun x => { x with linkUp := up }
    if up then s
    else { s with requests := s.requests.map fun r => if r.2.dest == p || r.2.source == p then (r.1, { r.2 with transit := false }) else r }
def State.world (s : State) : World → State
  | .hostWrite vi a bs =>
    s.guardImages (bs.zipIdx.map fun b => match s.translateOwn vi (a + b.2) true with | .ok p => some p.1 | .error _ => none) bs fun s bs =>
      match s.writeVirt vi a bs with | .ok s => s | .error _ => s
  | .systemWrite a bs => s.guardImages (bs.zipIdx.map fun b => some (a + b.2)) bs fun s bs => s.pokeMain a bs
  | .upset p l bad => { s with badLines := (s.badLines.filter fun x => x != (p, l)) ++ if bad then [(p, l)] else [] }
  | .registerUpset t g => if s.runs t then s.killLaunch (s.team t).launch (s.killAt ⟨t, g⟩ 2 (s.agent ⟨t, g⟩).pc 14) else s
  | .corrected a b => s.correct a b
  | .power t w => s.modTower t fun x => { x with watts := w }
  | .heat t d o => s.modTower t fun x => { x with die := d, outlet := o }
  | .coolant flow => { s with coolant := flow }
  | .cleared a => s.clearArray a
  | .incoming r => s.arrive r
  | .peerWrite p a bs => if cellHas s.peers p then
      s.modPeer p fun x => { x with memory := writeBytes x.memory a bs, hist := x.hist.filter fun h => !decide (a ≤ h.1 ∧ h.1 < a + bs.length) }
    else s
  | .exports p l => if cellHas s.partitions p then s.modPartition p fun x => { x with reach := l } else s
  | .link p up => s.setLink p up
  | .flash l => { s with flash := l }
  | .clockMode p locked => if cellHas s.partitions p then s.modPartition p fun x => { x with wantLocked := some locked } else s
  | .resume vi thread => if cellHas s.vis vi then s.modVi vi fun v => { v with halted := v.halted.filter (· != thread) } else s
  | .cycle core q bin => s.chargeCycle core q bin
  | .stallCycles core n =>
    if s.teams.any fun t => t.2.core == core && t.2.status == .resident then s.modCore core fun k => { k with stall := k.stall + n } else s

-- Who moves.
/-- A row that is an event of the machine, not the issue of an instruction by an agent. -/
def isEvent : Instr → Bool
  | .awaitTimeout _ | .trapDelivery _ | .layoutCacheFill .. | .clockChange _ | .copyAccept _ | .sliceStart _ | .chunkLand .. | .deliveryLand ..
  | .commandAccept .. | .commandStart .. | .matrixARead .. | .commandComplete .. | .priorityBoost .. | .registerFill .. | .pageWalk ..
  | .doorbell .. | .launchPacket _ | .loadPacket _ | .unloadPacket _ | .entryRecordEnter _ | .binTimerExpiry .. | .dispatchPlace _
  | .stallCountExpiry _ | .preemptionStop _ | .teamEvicted _ | .savePoolSave _ | .commit _ | .launchComplete _ | .ctlPreemptInterface _
  | .ctlPreemptLaunch .. | .ctlPreemptTeam .. | .ctlRelease .. | .ctlInvalidate .. | .ctlReleaseEscalated .. | .ctlAbort .. | .ctlWriteHistograms _
  | .ctlRequestComplete _ | .mtCounterWrite .. | .registerWrite _ | .imageWrite .. | .moveStart .. | .moveRowCopy _ | .moveSwitch _ | .agingSweep ..
  | .metadataEvict _ | .bankRebuildDone _ | .powerThrottleStep _ | .thermalThrottle _ | .coolantLoss | .clockModeChange _ | .sleepEnter _
  | .syscallStop .. | .resetBoot | .attest .. | .keyLoad .. | .remoteRequest _ | .remoteAck _ | .requestAbandon _ | .remoteAtomic .. | .flowTableWrite ..
  | .routeTableWrite .. | .routeEpochSwitch | .routeEpochFree | .portRetire _ | .elevatorRetire .. | .thermalThrottleRelease _
  | .sharedMemoryWriteBack _ | .linkReplay _ => true
  | _ => false

/-- The events a team brings about by itself. -/
def Team.events (t : Team) (id : Nat) : List Instr :=
  (t.agents.flatMap fun a => match a.2.status with
    | .pending => [.trapDelivery ⟨id, a.1⟩]
    | .await _ _ => [.awaitTimeout ⟨id, a.1⟩]
    | .accept _ => [.copyAccept ⟨id, a.1⟩]
    | _ => []) ++
    (t.copies.flatMap fun c =>
      (((List.range c.2.started).filter fun i => !c.2.landed.contains i).flatMap fun i =>
        .chunkLand id c.1 i :: c.2.targets.map fun p => .deliveryLand id c.1 i p.1)) ++
    (t.cmds.flatMap fun (c : Cmd) =>
      let reads : List Instr := (List.range c.gang.slots.length).map fun p => .matrixARead id c.leader ⟨c.id, p, c.elem, 0⟩
      match c.state with
      | .checked => .commandAccept id c.leader c.id :: reads
      | .waiting => .commandStart id c.leader c.id :: reads
      | .executing => .commandComplete id c.leader c.id :: reads
      | _ => if c.queued then [.commandAccept id c.leader c.id] else []) ++
    (if t.preempt then [.preemptionStop id] else []) ++
    (match t.status with
      | .stopped => [.savePoolSave id, .teamEvicted id]
      | _ => if t.writeBack then [.sharedMemoryWriteBack id] else [])
/-- The request events of an interface. -/
def controlEvent (vi : Nat) (c : Control) : List Instr :=
  .ctlRequestComplete vi :: match c.code with
    | 1 => [.ctlPreemptInterface vi]
    | 2 => [.ctlPreemptLaunch vi c.arg]
    | 3 => [.ctlPreemptTeam vi c.arg]
    | 4 => [.ctlRelease vi c.arg]
    | 5 => [.ctlInvalidate vi c.arg]
    | 6 => [.ctlReleaseEscalated vi c.arg]
    | 7 => [.ctlAbort vi c.arg]
    | 8 => [.ctlWriteHistograms vi]
    | _ => []
/-- The events the machine brings about by itself; one that cannot take place leaves the state as it is. -/
def State.events (s : State) : List Instr :=
  (s.teams.flatMap fun t => t.2.events t.1) ++
    (s.teams.flatMap fun t => t.2.agents.flatMap fun a => match s.nextInstr ⟨t.1, a.1⟩ with
      | some i => if t.2.status == .resident then (s.absent ⟨t.1, a.1⟩ i).map fun p => .registerFill t.1 p.1 p.2 else []
      | none => []) ++
    (s.teams.flatMap fun t => (t.2.groups.filter fun g => !g.2.boosted && s.boostDue t.1 g.1).map fun g => .priorityBoost t.1 g.1) ++ s.movesDue ++
    (s.launches.flatMap fun l => [.entryRecordEnter l.1, .dispatchPlace l.1, .commit l.1, .launchComplete l.1]) ++
    (s.vis.flatMap fun v => if v.2.consumer == v.2.doorbell then [] else [.launchPacket v.1, .loadPacket v.1, .unloadPacket v.1]) ++
    (s.controls.flatMap fun c => controlEvent c.1 c.2) ++
    (s.cores.flatMap fun c => if c.2.queue.isEmpty then [] else [.sliceStart c.1]) ++
    (s.towers.flatMap fun t => match t.2.move with
      | some (_, _, row) => if row < 32768 then [.moveRowCopy t.1] else [.moveSwitch t.1]
      | none => []) ++
    (s.requests.flatMap fun r => if r.2.state == .acked then [] else [.remoteRequest r.1, .remoteAck r.1, .requestAbandon r.1])
/-- Reference ticks pass before the next turn, and the groups that were not eligible are noted (R136). -/
def State.pass (s : State) (ticks : Nat) (rest : List Turn) : State := ({ s with schedule := rest, tick := s.tick + ticks } : State).noteIdle
/-- The next turn: the schedule's, or with none the fair rotation over agents and events, a tick apart. -/
def State.takeTurn (s : State) : State × Option Mover :=
  match s.schedule with
  | t :: rest => (s.pass t.ticks rest, some t.mover)
  | [] =>
    let l := s.firstMovers.map Mover.agent ++ s.events.map Mover.event
    ({ s.pass 1 [] with rotation := s.rotation + 1 }, l[s.rotation % max 1 l.length]?)

end Sys2Proof.Machine
end

