-- ==== Sys2Proof/Machine/Step.lean ====
section
/-! DEFINITION. One step of the machine, and the placing of an instruction where the next step fetches. -/

namespace Sys2Proof.Machine

/-- One step: the next turn is taken, and its agent, event or act of the outside world moves the machine. -/
def step (s : State) : Host.Outcome State Fault Refusal :=
  match s.takeTurn with
  | (s, some (.agent a)) =>
    match s.agentMove a with
    | .done s' => .next s'
    | .issue i s' => exec i s'
  | (s, some (.lane a gl)) => .next (s.laneMove a gl)
  | (s, some (.event i)) => if isEvent i then exec i s else .next s
  | (s, some (.world w)) => .next (s.world w)
  | (s, none) => .next s

/-- The state whose next step fetches and issues the instruction of these bits (log 2). -/
def State.withFetchWord (s : State) (nbits w : Nat) : State := s.placeFetch nbits w

end Sys2Proof.Machine
end

