-- ==== Sys2Proof/Safety.lean ====
section
/-! DEFINITION. What statements about runs are made of: the memories in canonical form, and what an instruction that writes registers alone
leaves as it was. -/

namespace Sys2Proof.Machine

/-- The memories of a team are in canonical form: its shared memory, and each group's spill stack. -/
def Team.memoryOk (t : Team) : Bool := t.shared.wf && t.groups.all fun g => g.2.spill.wf
/-- Every byte memory that belongs to the teams, or to the columns of the overpass, is in canonical form. -/
def State.teamMemoryOk (s : State) : Bool := (s.teams.all fun t => t.2.memoryOk) && s.columns.all fun c => c.2.bytes.wf

/-- The spill pointers of a team's groups lie in the spill region (R47). -/
def Team.spillPointersOk (t : Team) : Bool := t.groups.all fun g => decide (0x8400 ≤ g.2.sp.toNat ∧ g.2.sp.toNat ≤ 0xC000)
def State.spillPointersOk (s : State) : Bool := s.teams.all fun t => t.2.spillPointersOk

/-- The numbers of a team's agents lie below the next one it gives out, and those of its groups' own agents below 32. -/
def Team.agentsOk (t : Team) : Bool := decide (32 ≤ t.nextAgent) && t.agents.all fun a => decide (a.1 < t.nextAgent)
def State.agentsOk (s : State) : Bool :=
  (s.teams.all fun t => t.2.agentsOk) && s.objects.all fun o => o.2.nodes.all fun n => decide (n.groups ≤ 32)

/-- The instruction of the issuing agent is re-issued after a trap outside every region, and the agent is done once it has retired (R117). -/
def State.reissues (s : State) : Bool :=
  match s.curAgent.info with
  | some i => i.redo && s.curAgent.status == .ready
  | none => false

/-- A group without its vector, scalar and set registers, its saturation flag, and what issue itself counts: the tick of its last issue, its priority
boost, its spinning, its leg and its unfenced set. -/
def Group.bare (g : Group) : Group :=
  { g with v := [], s := [], k := [], sat := 0, unfenced := 0, issuedAt := 0, boosted := false, spinning := false, legCount := 0, legEnded := false }

/-- Outside the issuing team, and a core's stall count, nothing has changed: memory, tables, engines, launches and every register of the
machine are as before. -/
def onlyTeam (s t : State) : Prop :=
  { t with teams := s.teams, cores := s.cores } = s ∧ ∀ id, id ≠ s.cur.team → t.team id = s.team id

/-- In the issuing team only registers, set images and the agents themselves have changed: its shared memory, layouts, copies, commands and clocks
are as before. -/
def onlyRegisters (s t : State) : Prop :=
  onlyTeam s t ∧ { t.curTeam with groups := s.curTeam.groups, agents := s.curTeam.agents, handles := s.curTeam.handles } = s.curTeam ∧
    ∀ g, (t.curTeam.group g).bare = (s.curTeam.group g).bare

/-- Every set register of the issuing team names the set it named. -/
def sameSets (s t : State) : Prop :=
  ∀ g n, t.curTeam.resolve (cellGet 0 (t.curTeam.group g).k n) = s.curTeam.resolve (cellGet 0 (s.curTeam.group g).k n)

/-- An agent without its place, and without what issue and accesses move: its progress, what it has seen and watches, and whether it waits. -/
def Agent.settled (x : Agent) : Agent :=
  { x with pc := 0, rest := 0, progress := none, struck := [], before := [], issued := none, stopWaived := false, info := none, status := .ready, view := 0, seen := [],
           seenIds := [], relSnap := none, watch := none }
/-- Every agent of the issuing team keeps its lanes, its entry set, its regions and its depth. -/
def sameAgents (s t : State) : Prop := ∀ n, (t.curTeam.agent n).settled = (s.curTeam.agent n).settled

/-- The instruction completes and writes registers alone: afterwards lane gl holds v gl r in register r, the host group holds x n in scalar
register n, and group g has the saturation flag sat g. The agent goes on at the next word, no set register changes its set, and no agent its lanes,
entry set or regions. -/
def completes (i : Instr) (s : State) (v : Nat → Nat → Word) (x : Nat → DWord) (sat : Nat → BitVec 2) : Prop :=
  ∃ t, exec i s = .next t ∧ onlyRegisters s t ∧
    (∀ gl r, t.vreg gl r = v gl r) ∧
    (∀ g n, cellGet 0 (t.curTeam.group g).s n = if g = s.curAgent.host then x n else cellGet 0 (s.curTeam.group g).s n) ∧
    (∀ g, (t.curTeam.group g).sat = sat g) ∧
    (s.reissues = false → t.curAgent.pc = s.curAgent.pc + 1 ∧ t.curAgent.rest = s.curAgent.rest - 1 ∧ sameSets s t ∧ sameAgents s t)

/-- The saturation flags as they are. -/
def State.sats (s : State) (g : Nat) : BitVec 2 := (s.curTeam.group g).sat
/-- The vector registers with f in the registers of a list for each member of a set. -/
def State.newLanes (s : State) (k : KReg) (ds : List Nat) (f : Nat → Nat → Word) (gl r : Nat) : Word :=
  if gl ∈ s.lanes k ∧ r ∈ ds then f gl r else s.vreg gl r
/-- A lane instruction completes: each member of k gets f of the lane in register d. -/
def laneCompletes (i : Instr) (s : State) (k : KReg) (d : VReg) (f : Nat → Word) : Prop :=
  completes i s (s.newLanes k [d.toNat] fun gl _ => f gl) s.sreg s.sats
/-- The same with 64-bit values in the even-odd pair d, d + 1. -/
def pairCompletes (i : Instr) (s : State) (k : KReg) (d : VReg) (f : Nat → DWord) : Prop :=
  completes i s (s.newLanes k [d.toNat, d.toNat + 1] fun gl r => if r = d.toNat then (f gl).setWidth 32 else (f gl >>> 32).setWidth 32) s.sreg s.sats
/-- A scalar instruction completes: scalar register d gets x. -/
def scalarCompletes (i : Instr) (s : State) (d : SReg) (x : DWord) : Prop :=
  completes i s s.vreg (fun n => if n = d.toNat then x else s.sreg n) s.sats

/-- A conversion completes (R62, R64, R87): each member's element j of register d, of its type's size and place, is the result, its pad bits are
0 and the rest of the register stays; the groups with a saturating lane have sr.sat[0] set. -/
def convCompletes (i : Instr) (s : State) (k : KReg) (t : Ty) (d : VReg) (j : Nat) (f : Nat → Conv) : Prop :=
  completes i s
    (s.newLanes k (if t.bits = 64 then [d.toNat, d.toNat + 1] else [d.toNat]) fun gl r =>
      if t.bits = 64 then BitVec.ofNat 32 (if r = d.toNat then (f gl).bits else (f gl).bits / 2 ^ 32)
      else BitVec.ofNat 32 (if t.narrow then
        (let old := (s.vreg gl d.toNat).toNat
         let step := 32 / t.perReg
         old - old / 2 ^ (step * j) % 2 ^ step * 2 ^ (step * j) + (f gl).bits * 2 ^ (step * j))
      else (f gl).bits))
    s.sreg fun g => if ∃ gl ∈ s.lanes k, gl / 32 = g ∧ (f gl).sat = true then s.sats g ||| 1 else s.sats g

/-- A descriptor is the canonical form of a set for a group: local under the group's own slot when empty, local when one group holds every
member, and team-form with the population and an image of its own otherwise (R97). -/
def Team.canonicalFor (t : Team) (host : Nat) (d : DWord) (x : LaneSet) : Prop :=
  t.resolve d = x ∧ (x = 0 → d = localDesc host 0) ∧
    (∀ g < 32, x ≠ 0 → groupLanes g &&& x = x → d = localDesc g (groupPart x g)) ∧
    ((∀ g < 32, groupLanes g &&& x ≠ x) → ∃ h < 4096, d = teamDesc (laneList x).length h)
/-- The handle that a team-form descriptor names is another than that of a second one. -/
def handlesApart (d e : DWord) : Prop := isTeamForm d = true → isTeamForm e = true → bitsOf d 0 12 ≠ bitsOf e 0 12
/-- Set register n of group g. -/
def State.kreg (s : State) (g n : Nat) : DWord := cellGet 0 (s.curTeam.group g).k n
/-- Every set register but d of the host names the set it named, unless it shares the handle that d gives up or the one it takes. -/
def otherSets (s t : State) (d : KReg) : Prop :=
  ∀ g n, ¬(g = s.curAgent.host ∧ n = d.toNat) → handlesApart (s.kreg g n) (s.kreg s.curAgent.host d.toNat) →
    handlesApart (s.kreg g n) (t.kreg s.curAgent.host d.toNat) → t.curTeam.resolve (t.kreg g n) = s.curTeam.resolve (s.kreg g n)
/-- No vector, scalar or saturation register has changed. -/
def sameValues (s t : State) : Prop :=
  (∀ gl r, t.vreg gl r = s.vreg gl r) ∧ (∀ g n, cellGet 0 (t.curTeam.group g).s n = cellGet 0 (s.curTeam.group g).s n) ∧
    ∀ g, (t.curTeam.group g).sat = (s.curTeam.group g).sat
/-- A set instruction completes: the host's set register d holds the canonical form of x, and nothing else changes. -/
def setCompletes (i : Instr) (s : State) (d : KReg) (x : LaneSet) : Prop :=
  ∃ t, exec i s = .next t ∧ onlyRegisters s t ∧ sameValues s t ∧
    (s.reissues = false → t.curAgent.pc = s.curAgent.pc + 1 ∧ t.curAgent.rest = s.curAgent.rest - 1 ∧
      t.curTeam.canonicalFor s.curAgent.host (t.kreg s.curAgent.host d.toNat) x ∧ otherSets s t d ∧ sameAgents s t)

/-- As onlyRegisters, but for the counters of the interfaces (R341). -/
def registersAndCounters (s t : State) : Prop :=
  onlyRegisters s { t with vis := s.vis } ∧ ∀ v, { t.vi v with counters := [] } = { s.vi v with counters := [] }
/-- The issuing agent has entered the block at a PC (R31): with a header of a length other than 0 it stands behind it, and the header's counter
has counted where the header and wm.ctl ask for it; otherwise it stands before it. -/
def enters (s t : State) (pc : Nat) : Prop :=
  match s.headerAt s.curTeam pc with
  | some h => if hdrLength h = 0 then t.curAgent.pc = pc ∧ t.curAgent.rest = 0 ∧ t.vis = s.vis
    else t.curAgent.pc = pc + 1 ∧ t.curAgent.rest = hdrLength h ∧
      ∀ v, (t.vi v).counters = if v = s.viOf s.curTeam ∧ hdrCen h = true ∧ bitsOf (s.vi v).wmCtl 1 1 = 1 then
        cellSet 0 (s.vi v).counters (hdrCidx h) (cellGet 0 (s.vi v).counters (hdrCidx h) + 1) else (s.vi v).counters
  | none => t.curAgent.pc = pc ∧ t.curAgent.rest = 0 ∧ t.vis = s.vis
/-- An instruction that changes no register but the PC completes: it goes on at the next word, or enters the block at a target. -/
def transfers (i : Instr) (s : State) (goal : Option Nat) : Prop :=
  ∃ t, exec i s = .next t ∧ registersAndCounters s t ∧ sameValues s t ∧
    (s.reissues = false → sameSets s t ∧ sameAgents s t ∧ match goal with
      | some pc => enters s t pc
      | none => t.curAgent.pc = s.curAgent.pc + 1 ∧ t.curAgent.rest = s.curAgent.rest - 1 ∧ t.vis = s.vis)
/-- In the issuing team only registers, the agents, set images, and the host group's spill stack and pointer have changed; outside it only counters
of the interfaces. -/
def onlyStack (s t : State) : Prop :=
  onlyTeam s { t with vis := s.vis } ∧ (∀ v, { t.vi v with counters := [] } = { s.vi v with counters := [] }) ∧
    { t.curTeam with groups := s.curTeam.groups, agents := s.curTeam.agents, handles := s.curTeam.handles } = s.curTeam ∧
    ∀ g, if g = s.curAgent.host then { (t.curTeam.group g).bare with spill := [], sp := 0 } = { (s.curTeam.group g).bare with spill := [], sp := 0 }
      else (t.curTeam.group g).bare = (s.curTeam.group g).bare
/-- The host's spill pointer, and a byte of its spill stack. -/
def State.sp (s : State) : Nat := s.curGroup.sp.toNat
def State.spillByte (s : State) (g a : Nat) : Byte := readByte (s.curTeam.group g).spill a

/-- The agent has entered a region's block with new innermost entries and a new entry set; set registers keep their sets, but for one that shares
a handle taken. -/
def opensRegion (s t : State) (entries : List Switch) (e : LaneSet) (pc : Nat) : Prop :=
  { t.curAgent.settled with stack := [], k0 := 0 } = { s.curAgent.settled with stack := [], k0 := 0 } ∧
    (∀ n, n ≠ s.cur.agent → t.curTeam.agent n = s.curTeam.agent n) ∧
  t.curAgent.stack = entries ++ s.curAgent.stack ∧ t.curTeam.canonicalFor s.curAgent.host t.curAgent.k0 e ∧ enters s t pc ∧
    ∀ g n, handlesApart (s.kreg g n) t.curAgent.k0 → (∀ x ∈ entries, x.kind = 3 → handlesApart (s.kreg g n) x.set) →
      t.curTeam.resolve (t.kreg g n) = s.curTeam.resolve (s.kreg g n)
/-- No fragment or trap fragment of the team but the agent itself is ready with every lane exited, given the live lanes; nor has the agent itself left (R113). -/
def Team.noneDead (t : Team) (agent : Nat) (live : LaneSet) : Prop :=
  ∀ p ∈ t.agents, p.2.kind = .group ∨ p.2.lanes &&& live ≠ 0 ∨ (p.1 ≠ agent ∧ p.2.status ≠ .ready)
/-- The agent has left a region: its entry set and its entries are the given ones, and it enters a block; set registers keep their sets, but for
one that shares a handle given up. -/
def leavesRegion (s t : State) (k0 : DWord) (stack : List Switch) (pc : Nat) (gone : List DWord) : Prop :=
  { t.curAgent.settled with stack := [], k0 := 0 } = { s.curAgent.settled with stack := [], k0 := 0 } ∧
    (∀ n, n ≠ s.cur.agent → t.curTeam.agent n = s.curTeam.agent n) ∧
  t.curAgent.k0 = k0 ∧ t.curAgent.stack = stack ∧ t.curAgent.status = .ready ∧ enters s t pc ∧
    ∀ g n, (∀ d ∈ gone, handlesApart (s.kreg g n) d) → t.curTeam.resolve (t.kreg g n) = s.curTeam.resolve (s.kreg g n)

/-- An agent has entered the block at a PC (R31). -/
def entersAt (s t : State) (a : AgentRef) (pc : Nat) : Prop :=
  let x := t.agent a
  match s.headerAt (s.team a.team) pc with
  | some h => if hdrLength h = 0 then x.pc = pc ∧ x.rest = 0 else x.pc = pc + 1 ∧ x.rest = hdrLength h
  | none => x.pc = pc ∧ x.rest = 0
/-- No trap fragment is held for want of room (R45, R114). -/
def Team.noneHeld (t : Team) : Prop := ∀ p ∈ t.agents, p.2.status ≠ .heldTrap
/-- A fragment of a region has begun on a host (R111, R112): it holds its part's lanes, at its home places or packed from position 0 upward, names its half,
sees what the participants brought, and stands in the block of its half under the region's live mask. -/
def fragmentBegins (s t : State) (r : Region) (slot : Nat) (p : FragPlan) (host id : Nat) : Prop :=
  let y := t.curTeam.agent id
  cellHas t.curTeam.agents id = true ∧ y.kind = .fragment slot ∧ y.host = host ∧ y.lanes = p.lanes ∧
    y.positions = (if p.packed then laneList p.lanes else []) ∧ y.status = .ready ∧ y.stack = [] ∧ y.view = r.views ∧
    y.k0 = (r.descs[p.half]?).getD 0 ∧ y.live = some ((r.masks[p.half]?).getD 0, r.budget) ∧
    entersAt s t ⟨s.cur.team, id⟩ ((r.blocks[p.half]?).getD 0)
/-- The issuing fragment has left its region for good (R113): it is gone, and the region goes on with the given fragments, to see at its end what this one
saw. -/
def fragmentLeaves (s t : State) (slot : Nat) (frags : List Nat) : Prop :=
  let r := s.curTeam.region slot
  registersAndCounters s { t with teams := cellPut t.teams s.cur.team { t.curTeam with regions := s.curTeam.regions, nextAgent := s.curTeam.nextAgent, caches := s.curTeam.caches } } ∧
    sameValues s t ∧ sameSets s t ∧ cellHas t.curTeam.agents s.cur.agent = false ∧
    (∀ n, n ≠ s.cur.agent → n ≠ s.curTeam.nextAgent → t.curTeam.agent n = s.curTeam.agent n) ∧
    t.curTeam.region slot = { r with frags := frags, waiting := [], ended := r.ended ||| s.curAgent.view } ∧
    ∀ k, k ≠ slot → t.curTeam.region k = s.curTeam.region k
/-- The team join (R113, R249): the last fragment, the slot and the handles are gone; each participant with a live lane has popped its kind-2 entry,
restored k0 and entered the continuation, with the union of the views; a group without one has ended. -/
def teamJoins (s t : State) (slot : Nat) : Prop :=
  let u := s.curTeam
  let r := u.region slot
  let live (p : Nat) : Prop := (u.agent p).lanes &&& u.liveSet ≠ 0
  sameValues s t ∧ t.main = s.main ∧ t.columns = s.columns ∧ t.curTeam.shared = u.shared ∧
    cellHas t.curTeam.agents s.cur.agent = false ∧ cellHas t.curTeam.regions slot = false ∧ (∀ h ∈ r.handles, cellHas t.curTeam.handles h = false) ∧
    (∀ n, n ≠ s.cur.agent → n ∉ r.parts → t.curTeam.agent n = u.agent n) ∧ (∀ k, k ≠ slot → t.curTeam.region k = u.region k) ∧
    ∀ p ∈ r.parts,
      (¬live p → (u.agent p).kind = .group → cellHas t.curTeam.agents p = false) ∧
      (live p →
        let x := u.agent p
        let y := t.curTeam.agent p
        y.stack = x.stack.tail ∧ y.k0 = (x.stack.headD ⟨0, 0, 0, 0, 0⟩).set ∧ y.status = .ready ∧ y.lanes = x.lanes ∧
          entersAt s t ⟨s.cur.team, p⟩ r.cont ∧
          y.view = (r.parts.filter fun q => decide ((u.agent q).lanes &&& u.liveSet ≠ 0)).foldl (fun v q => v ||| (u.agent q).view) 0 ||| r.views |||
            r.ended ||| s.curAgent.view)
/-- A trap fragment of a region is gone, and nothing but the agent it left, that agent's block and the sets of the given descriptors has changed. -/
def trapFragmentLeaves (s t : State) (p : Nat) (gone : List DWord) : Prop :=
  registersAndCounters s t ∧ sameValues s t ∧ cellHas t.curTeam.agents s.cur.agent = false ∧
    (∀ n, n ≠ s.cur.agent → n ≠ p → t.curTeam.agent n = s.curTeam.agent n) ∧
    ∀ g n, (∀ d ∈ gone, handlesApart (s.kreg g n) d) → t.curTeam.resolve (t.kreg g n) = s.curTeam.resolve (s.kreg g n)

-- Rendezvous (R103).
/-- The rendezvous as it stands with the issuing agent's arrival: the open one that matches, or a new one. -/
def State.arrival (s : State) (new : Rdv) (same : Rdv → Bool) (contrib : LaneSet) : Rdv :=
  match s.curTeam.rdvs.find? same with
  | some r => { r with arrived := r.arrived ++ [(s.cur.agent, contrib)] }
  | none => { new with arrived := [(s.cur.agent, contrib)] }
/-- The agent has arrived and waits: its PC stays, and the rendezvous holds its arrival. -/
def waitsAt (i : Instr) (s : State) (new : Rdv) (same : Rdv → Bool) (contrib : LaneSet) : Prop :=
  ∃ t, exec i s = .next t ∧ onlyTeam s t ∧ sameValues s t ∧ sameSets s t ∧ t.curAgent = { s.curAgent with status := .rdv } ∧
    (∀ n, n ≠ s.cur.agent → t.curTeam.agent n = s.curTeam.agent n) ∧
    { t.curTeam with groups := s.curTeam.groups, agents := s.curTeam.agents, handles := s.curTeam.handles, rdvs := s.curTeam.rdvs } = s.curTeam ∧
    t.curTeam.rdvs = (s.curTeam.rdvs.filter fun r => some r != s.curTeam.rdvs.find? same) ++ [s.arrival new same contrib]
/-- The participants of a rendezvous that completes: distinct agents of the team outside every trap. -/
def Team.participants (t : Team) (r : Rdv) : Prop :=
  (r.arrived.map (·.1)).Nodup ∧ ∀ p ∈ r.arrived, cellHas t.agents p.1 = true ∧ (t.agent p.1).info = none
/-- Every participant goes on together, one word further, with the union of the participants' views (R249). -/
def goOnTogether (s t : State) (r : Rdv) : Prop :=
  sameValues s t ∧ t.main = s.main ∧ t.columns = s.columns ∧ t.curTeam.shared = s.curTeam.shared ∧ r ∉ t.curTeam.rdvs ∧ sameAgents s t ∧
    ∀ p ∈ r.arrived,
      (t.curTeam.agent p.1).pc = (s.curTeam.agent p.1).pc + 1 ∧ (t.curTeam.agent p.1).rest = (s.curTeam.agent p.1).rest - 1 ∧
      (t.curTeam.agent p.1).status = .ready ∧
      (t.curTeam.agent p.1).view = r.arrived.foldl (fun v q => v ||| (s.curTeam.agent q.1).view) 0
/-- The members that a set has in a group. -/
def membersIn (e : LaneSet) (g : Nat) : Nat := ((List.range 32).filter fun l => e.getLsbD (32 * g + l)).length
/-- The fragments of a half over the members e (R111): a placed group makes one of its own; the packed groups, in ascending order and each whole, fill
fragments of at most 32 lanes, a new one where the next group would pass them, for the slots of the packed groups. -/
def formation (policy : BitVec 2) (lanesN half : Nat) (e : LaneSet) (l : List FragPlan) : Prop :=
  let packs (g : Nat) : Bool := policy = 1 || (policy ≠ 2 && decide (2 * membersIn e g < lanesN))
  let packed := (groupsOf e).filter packs
  let size (b : List Nat) : Nat := (b.map (membersIn e)).sum
  ∃ bundles : List (List Nat), bundles.flatten = packed ∧ (∀ b ∈ bundles, b ≠ [] ∧ size b ≤ 32) ∧
    (∀ i, i + 1 < bundles.length → 32 < size (bundles[i]?.getD []) + membersIn e ((bundles[i + 1]?.getD []).headD 0)) ∧
    l = (((groupsOf e).filter fun g => !packs g).map fun g => ⟨half, [g], e &&& groupLanes g, false⟩) ++
      bundles.map fun b => ⟨half, packed, b.foldl (fun (x : LaneSet) g => x ||| (e &&& groupLanes g)) 0, true⟩
/-- The hosts of fragments in turn, each the lowest free slot among its own (R111, R116); none for a fragment that waits. -/
def hostsOf (taken : List Nat) : List FragPlan → List (Option Nat)
  | [] => []
  | p :: ps => match p.hosts.find? fun h => !taken.contains h with
    | some h => some h :: hostsOf (h :: taken) ps
    | none => none :: hostsOf taken ps
/-- A team region has opened (R110, R111, R116): every participant waits in it under a kind-2 entry for the continuation, with the region's set for
its k0, and every lane of the halves that a participant holds is a fragment's or waits for a host. The fragments are those of each half in turn, as
its block and policy form them; each with a free host has begun there, and the others wait. -/
def teamRegionOpens (s t : State) (r : Rdv) (slot cont : Nat) (policy : BitVec 2) (halves : List LaneSet) (blocks : List Nat) : Prop :=
  sameValues s t ∧ t.main = s.main ∧ t.columns = s.columns ∧ t.curTeam.shared = s.curTeam.shared ∧ r ∉ t.curTeam.rdvs ∧
    cellHas t.curTeam.regions slot = true ∧
    (t.curTeam.region slot).members = halves ∧ (t.curTeam.region slot).cont = cont ∧ (t.curTeam.region slot).parts = r.arrived.map (·.1) ∧
    (let held := r.arrived.foldl (fun (x : LaneSet) p => x ||| (s.curTeam.agent p.1).lanes) 0
     let all := halves.foldl (fun (x e : LaneSet) => x ||| e) 0
     (t.curTeam.region slot).waiting.foldl (fun (x : LaneSet) p => x ||| p.lanes)
       ((t.curTeam.region slot).frags.foldl (fun (x : LaneSet) f => x ||| (t.curTeam.agent f).lanes) 0) = all &&& held ∧
     let o := t.curTeam.region slot
     o.blocks = blocks ∧ o.descs.map t.curTeam.resolve = halves ∧
     o.masks = (blocks.map fun b => match s.headerAt s.curTeam b with | some h => hdrLive h | none => 0) ∧
     o.budget = ((groupsOf all).map fun g => (s.curTeam.group g).budget).foldl min 256 ∧
     o.views = r.arrived.foldl (fun v p => v ||| (s.curTeam.agent p.1).view) 0 ∧
     ∃ parts : List (List FragPlan), parts.length = halves.length ∧
       (∀ j, j < halves.length → formation policy s.curTeam.lanesN j (halves[j]?.getD 0 &&& held) (parts[j]?.getD [])) ∧
       let hosts := hostsOf [] parts.flatten
       let begun := (parts.flatten.zip hosts).filterMap fun p => p.2.map fun h => (p.1, h)
       o.waiting = ((parts.flatten.zip hosts).filter fun p => p.2.isNone).map (·.1) ∧ o.frags.length = begun.length ∧
         ∀ p ∈ o.frags.zip begun, fragmentBegins s t o slot p.2.1 p.2.2 p.1) ∧
    ∀ p ∈ r.arrived,
      (t.curTeam.agent p.1).status = .region ∧ t.curTeam.resolve (t.curTeam.agent p.1).k0 = halves.foldl (fun (x e : LaneSet) => x ||| e) 0 ∧
      (t.curTeam.agent p.1).stack = ⟨(s.curTeam.agent p.1).k0, cont, 2, policy, BitVec.ofNat 4 slot⟩ :: (s.curTeam.agent p.1).stack

/-- An agent may issue, and the checks over the vector registers an instruction names pass (R112, R130, R193). -/
def State.ready (s : State) (regs : List Nat) (scalarDst : Bool) : Prop := s.canIssue = true ∧ s.regFault regs scalarDst = none

/-- A read of one byte of a place: shared memory of a team, an overpass column, or main memory, here or at another module, by physical address. -/
def State.peek (s : State) : Place → Nat → Byte
  | .shared t, a => readByte (s.team t).shared a
  | .column t c, a => readByte (s.column (48 * t + c)).bytes a
  | .main, a => readByte s.main a
  | .peer m, a => readByte (s.peer m).memory a

end Sys2Proof.Machine
end

