-- ==== Sys2Proof/Safety/Arith.lean ====
section
/-! DEFINITION. The value tables of statements about lane and scalar instructions: for each constructor, what its rule computes from the operands
at width 32 or 64, or from encodings. -/

namespace Sys2Proof.Claims
open Sys2Proof.Machine

-- Integers (R79): every result is taken modulo 2^w.
def int2Table : List ((Int2 → Instr) × ((w : Nat) → BitVec w → BitVec w → BitVec w)) :=
  [(.iadd, fun w a b => .ofInt w (a.toInt + b.toInt)),
   (.isub, fun w a b => .ofInt w (a.toInt - b.toInt)),
   (.imul, fun w a b => .ofInt w (a.toInt * b.toInt)),
   (.imulhiS, fun w a b => .ofInt w (a.toInt * b.toInt / 2 ^ w)),
   (.imulhiN, fun w a b => .ofNat w (a.toNat * b.toNat / 2 ^ w)),
   (.iminS, fun w a b => .ofInt w (min a.toInt b.toInt)),
   (.iminN, fun w a b => .ofNat w (min a.toNat b.toNat)),
   (.imaxS, fun w a b => .ofInt w (max a.toInt b.toInt)),
   (.imaxN, fun w a b => .ofNat w (max a.toNat b.toNat)),
   (.and, fun _ a b => a &&& b),
   (.or, fun _ a b => a ||| b),
   (.xor, fun _ a b => a ^^^ b),
   (.shl, fun w a b => .ofNat w (a.toNat * 2 ^ b.toNat)),
   (.shr, fun w a b => .ofNat w (a.toNat / 2 ^ b.toNat)),
   (.sar, fun w a b => .ofInt w (a.toInt / 2 ^ b.toNat)),
   (.rotl, fun w a b => .ofNat w (a.toNat * 2 ^ (b.toNat % w) + a.toNat / 2 ^ (w - b.toNat % w))),
   (.bfxS, fun _ a b => intBfxS a b),
   (.bfxN, fun _ a b => intBfxN a b)]
def int1Table : List ((Int1 → Instr) × ((w : Nat) → BitVec w → BitVec w)) :=
  [(.iabs, fun w a => .ofNat w a.toInt.natAbs),
   (.ineg, fun w a => .ofInt w (-a.toInt)),
   (.not, fun w a => .ofInt w (-a.toInt - 1)),
   (.popc, fun w a => .ofNat w ((List.range w).filter a.getLsbD).length),
   (.clz, fun w a => .ofNat w (w - Nat.size a.toNat)),
   (.brev, fun _ a => a.reverse)]
def int3Table : List ((Int3 → Instr) × ((w : Nat) → BitVec w → BitVec w → BitVec w → BitVec w)) :=
  [(.imad, fun w a b c => .ofInt w (a.toInt * b.toInt + c.toInt)),
   (.bfi, fun _ a b c => intBfi a b c),
   (.sel, fun w a b c => if c = .ofNat w 0 then b else a)]

-- F32 (R82), by exact values and one rounding (R60).
def f32 (a : Word) : Machine.Num := decodeFloat .f32 a.toNat
def toF32 (rm : Rm) (x : Machine.Num) : Word := BitVec.ofNat 32 (roundNum .f32 rm x)
def flt2Table : List ((Flt2 → Instr) × (Rm → Word → Word → Word)) :=
  [(.fadd, fun rm a b => toF32 rm (exactSum rm [f32 a, f32 b])),
   (.fsub, fun rm a b => toF32 rm (exactSum rm [f32 a, (f32 b).neg])),
   (.fmul, fun rm a b => toF32 rm ((f32 a).mul (f32 b)))]
/-- The magnitude of the F32 encoding z without its sign (R54, R55), with 2^128 for that of ∞, where the next one would be. -/
def f32Mag (z : Nat) : ℚ :=
  if z < 2 ^ 23 then (z : ℚ) * 2 ^ (-149 : Int) else ((2 ^ 23 + z % 2 ^ 23 : Nat) : ℚ) * 2 ^ (((z / 2 ^ 23 : Nat) : Int) - 150)
/-- The encoding y is the exact magnitude x, with its sign, rounded under a mode (R60, R61): the nearest magnitude, the even encoding on a tie; the largest
finite one not above x; or the least one not below it. -/
def roundsTo (rm : Rm) (neg : Bool) (x : ℝ) (y : Nat) : Prop :=
  ∃ b ≤ infBits .f32, y = withSign .f32 neg b ∧
    (rm = 0 → ∀ z ≤ infBits .f32, |(f32Mag b : ℝ) - x| ≤ |(f32Mag z : ℝ) - x| ∧ (z ≠ b → |(f32Mag b : ℝ) - x| = |(f32Mag z : ℝ) - x| → b % 2 = 0)) ∧
    (rm = 1 ∨ (rm = 2 ∧ neg = true) ∨ (rm = 3 ∧ neg = false) →
      b ≤ maxFinite .f32 ∧ (f32Mag b : ℝ) ≤ x ∧ ∀ z ≤ maxFinite .f32, (f32Mag z : ℝ) ≤ x → z ≤ b) ∧
    ((rm = 2 ∧ neg = false) ∨ (rm = 3 ∧ neg = true) → (x ≤ (f32Mag b : ℝ) ∨ b = infBits .f32) ∧ ∀ z < b, (f32Mag z : ℝ) < x)
def fltMMTable : List ((FltMM → Instr) × Bool) := [(.fmin, false), (.fmax, true)]
def fltUnTable : List ((FltUn → Instr) × (Rm → Nat → Nat)) :=
  [(.frcp, fltRcp), (.frsq, fltRsq), (.fsqrt, fltSqrt), (.fexp2, fltExp2), (.flog2, fltLog2), (.fsin, fltSin), (.fcos, fltCos)]
def fma32 (rm : Rm) (a b c : Word) : Word := toF32 rm (exactSum rm [(f32 a).mul (f32 b), f32 c])
def minMax32 (greatest : Bool) (a b : Word) : Word := BitVec.ofNat 32 (fltMinMax .f32 greatest a.toNat b.toNat)

-- F64 (R85).
def f64 (a : DWord) : Machine.Num := decodeFloat .f64 a.toNat
def toF64 (rm : Rm) (x : Machine.Num) : DWord := BitVec.ofNat 64 (roundNum .f64 rm x)
def wide2Table : List ((Lane2 → Instr) × (Rm → DWord → DWord → DWord)) :=
  [(.dadd, fun rm a b => toF64 rm (exactSum rm [f64 a, f64 b])),
   (.dmul, fun rm a b => toF64 rm ((f64 a).mul (f64 b))),
   (.dmin, fun _ a b => BitVec.ofNat 64 (fltMinMax .f64 false a.toNat b.toNat)),
   (.dmax, fun _ a b => BitVec.ofNat 64 (fltMinMax .f64 true a.toNat b.toNat))]

-- Packed halves (R69, R86).
def halves (x : Word) : Nat × Nat := (x.toNat % 2 ^ 16, x.toNat / 2 ^ 16)
def packHalves (f : Nat → Nat → Nat) (a b : Word) : Word :=
  BitVec.ofNat 32 (f (halves a).1 (halves b).1 + 2 ^ 16 * f (halves a).2 (halves b).2)
def packHalves3 (f : Nat → Nat → Nat → Nat) (a b c : Word) : Word :=
  BitVec.ofNat 32 (f (halves a).1 (halves b).1 (halves c).1 + 2 ^ 16 * f (halves a).2 (halves b).2 (halves c).2)
def packed2Table : List ((Lane2 → Instr) × (Rm → Word → Word → Word)) :=
  [(.hadd2, fun rm => packHalves (fltAdd .h16 rm)), (.hmul2, fun rm => packHalves (fltMul .h16 rm)), (.badd2, fun rm => packHalves (fltAdd .b16 rm))]
/-- Dot products (R90): the exact sum of the elements' products and the addend, rounded once; the integer forms modulo 2^32. -/
def packed3Table : List ((Lane3 → Instr) × (Rm → Word → Word → Word → Word)) :=
  [(.hfma2, fun rm => packHalves3 (fltFma .h16 rm)), (.bfma2, fun rm => packHalves3 (fltFma .b16 rm)),
   (.dot2H16, fun rm a b c => .ofNat 32 (dotFloat .h16 rm a.toNat b.toNat c.toNat)),
   (.dot2B16, fun rm a b c => .ofNat 32 (dotFloat .b16 rm a.toNat b.toNat c.toNat)),
   (.dot4S8, fun _ a b c => .ofNat 32 (dotInt .s8 a.toNat b.toNat c.toNat)),
   (.dot4N8, fun _ a b c => .ofNat 32 (dotInt .n8 a.toNat b.toNat c.toNat)),
   (.dot4F8E4, fun rm a b c => .ofNat 32 (dotFloat .f8e4 rm a.toNat b.toNat c.toNat)),
   (.dot4F8E5, fun rm a b c => .ofNat 32 (dotFloat .f8e5 rm a.toNat b.toNat c.toNat)),
   (.dot8S4, fun _ a b c => .ofNat 32 (dotInt .s4 a.toNat b.toNat c.toNat)),
   (.dot8N4, fun _ a b c => .ofNat 32 (dotInt .n4 a.toNat b.toNat c.toNat)),
   (.dot8F4E2M1, fun rm a b c => .ofNat 32 (dotFloat .f4e2m1 rm a.toNat b.toNat c.toNat))]

-- Shuffles (R91).
/-- The lane a shuffle reads from, from the home lane index and the operand's 32 bits. -/
def shuffleTable : List ((KReg → VReg → VReg → LaneSrc → Instr) × (Nat → Word → Option Nat)) :=
  [(.shflIdx, fun _ n => some (n.toNat % 32)),
   (.shflUp, fun l n => if n.toNat ≤ l then some (l - n.toNat) else none),
   (.shflDown, fun l n => some (l + n.toNat)),
   (.shflXor, fun l n => some (Nat.xor l (n.toNat % 32)))]
/-- The value a shuffle gives a lane: register a of the source lane of its own group when that lane takes part, else its own. -/
def shuffled (s : State) (k : KReg) (a : VReg) (gl : Nat) (src : Option Nat) : Word :=
  match src with
  | some l => if l < 32 ∧ 32 * (gl / 32) + l ∈ s.lanes k then s.vreg (32 * (gl / 32) + l) a.toNat else s.vreg gl a.toNat
  | none => s.vreg gl a.toNat

-- Reductions (R71, R93).
/-- An operation on two words. -/
def two (op : RedOp) (rm : Rm) (a b : Word) : Word :=
  match op with
  | .add => .ofNat 32 (a.toNat + b.toNat)
  | .addF32 => toF32 rm (exactSum rm [f32 a, f32 b])
  | .minS32 => .ofInt 32 (min a.toInt b.toInt)
  | .minN32 => .ofNat 32 (min a.toNat b.toNat)
  | .minF32 => minMax32 false a b
  | .maxS32 => .ofInt 32 (max a.toInt b.toInt)
  | .maxN32 => .ofNat 32 (max a.toNat b.toNat)
  | .maxF32 => minMax32 true a b
  | .and => a &&& b
  | .or => a ||| b
  | .xor => a ^^^ b
/-- The identity of an operation. -/
def identity : RedOp → Word
  | .add | .addF32 | .or | .xor | .maxN32 => 0
  | .and | .minN32 => .ofNat 32 (2 ^ 32 - 1)
  | .minS32 => .ofInt 32 (2 ^ 31 - 1)
  | .maxS32 => .ofInt 32 (-2 ^ 31)
  | .minF32 => .ofNat 32 (infBits .f32)
  | .maxF32 => .ofNat 32 (withSign .f32 true (infBits .f32))
/-- A NaN becomes the canonical one. -/
def oneNan (x : Word) : Word := if f32 x = .nan then .ofNat 32 (canonNan .f32) else x
/-- Values combined in ascending order, from the first: the identity without any; an F32 operation over a single NaN gives the canonical one. -/
def foldWords (op : RedOp) (rm : Rm) : List Word → Word
  | [] => identity op
  | x :: xs => xs.foldl (two op rm) (if op = .minF32 ∨ op = .maxF32 ∨ op = .addF32 then oneNan x else x)
/-- One level of the tree over positions: neighbours are added, and a position without a value passes the other through. -/
def treeLevel (rm : Rm) : List (Option Word) → List (Option Word)
  | some a :: some b :: l => some (two .addF32 rm a b) :: treeLevel rm l
  | some a :: none :: l => some a :: treeLevel rm l
  | none :: b :: l => b :: treeLevel rm l
  | [a] => [a]
  | [] => []
/-- The sum of 32 positions by five levels (R71); +0 without values. -/
def treeOf (rm : Rm) (val : Nat → Option Word) : Word :=
  oneNan ((((treeLevel rm (treeLevel rm (treeLevel rm (treeLevel rm (treeLevel rm ((List.range 32).map val)))))).headD none)).getD 0)

-- Comparisons (R58, R99).
/-- A comparison of two values in their order, or of unordered ones. -/
def holds (c : Cmp) (o : Option Ordering) : Bool :=
  match c with
  | .eq => o == some .eq
  | .ne => o != some .eq
  | .lt => o == some .lt
  | .le => o == some .lt || o == some .eq
  | .gt => o == some .gt
  | .ge => o == some .gt || o == some .eq
/-- The order of two encodings of a floating-point type, none when either is NaN. -/
def floatOrder (t : Ty) (a b : Nat) : Option Ordering :=
  if decodeFloat t a = .nan ∨ decodeFloat t b = .nan then none else some (numCmp (decodeFloat t a) (decodeFloat t b))

end Sys2Proof.Claims
end

