-- ==== Sys2Proof/Safety/Access.lean ====
section
/-! DEFINITION. What statements about memory instructions are made of: which bytes an access covers, what an agent sees in them, what
accesses made in turn leave behind, and what an access leaves as it was. -/

namespace Sys2Proof.Machine

/-- The aging sweep has nothing to wait for in the next n releases of a group: no line holds a clock of its identity that they would outrun (R271). -/
def State.swept (s : State) (n : Nat) : Prop :=
  ∀ team g k, 0 < k → k ≤ n → ∀ p ∈ s.metaLines, s.outrun (s.ident team g) ((s.clocks team g).group + BitVec.ofNat 20 k) p = false
/-- Where a place's bytes are held: a team's shared memory, an overpass column by its number, main memory, or that of another module. -/
def placeKey : Place → Nat × Nat
  | .shared t => (0, t)
  | .column t c => (1, 48 * t + c)
  | .main => (2, 0)
  | .peer m => (3, m)
/-- A byte lies in n bytes from an address of a place, or in the column that mirrors the place during a move (R230). -/
def State.covers (s : State) (spot : Place × Nat) (n : Nat) (p : Place) (a : Nat) : Bool :=
  (placeKey p == placeKey spot.1 || (s.mirrorOf spot.1).any fun q => placeKey p == placeKey q) && decide (spot.2 ≤ a) && decide (a < spot.2 + n)
/-- Every byte reads as before. -/
def sameBytes (s t : State) : Prop := ∀ p a, t.peek p a = s.peek p a
/-- The newest write recorded of each byte is the byte itself. -/
def State.recorded (s : State) (p : Place) (a n : Nat) : Prop := ∀ i < n, ∀ w h, s.histAt p (a + i) = w :: h → w.val = s.peek p (a + i)
/-- What the issuing agent sees in n bytes: its group's own held writes, the last first, and memory where none lies (R301). -/
def State.sees (s : State) (p : Place) (a n : Nat) : List Byte :=
  (List.range n).map fun i =>
    match s.curGroup.held.reverse.find? fun h => s.heldPlace s.cur.team h == p && decide (h.addr ≤ a + i) && decide (a + i < h.addr + h.bytes.length) with
    | some h => (h.bytes[a + i - h.addr]?).getD 0
    | none => s.peek p (a + i)

/-- No earlier write, and for a write no earlier read, of the granules of an access conflicts with it unordered (R251). -/
def State.raceFree (s : State) (c : Acc) : Prop :=
  s.unorderedWrite c c.granules = false ∧ (c.write = true → ∀ g ∈ c.granules, ∀ r ∈ s.readsAt c.place g, c.races r.ev r.marked r.who = false)
/-- An access stands in no race, and no storage error lies in what it reads (R251, R319). -/
def State.unopposed (s : State) (c : Acc) : Prop := s.raceFree c ∧ (c.read = true → s.badAt c.place c.addr c.size = false)

/-- A group without what accesses move: clocks, what it observed and published, and held writes (R264, R265, R301). -/
def Group.still (g : Group) : Group := { g.bare with clock := 0, vec := [], rel := none, wide := none, held := [] }
/-- Nothing has changed but bytes, registers, the agents, the records of order and race detection, and what f leaves out of a group. -/
def accessFrame (f : Group → Group) (s t : State) : Prop :=
  { t with teams := s.teams, cores := s.cores, clusters := s.clusters, launches := s.launches, towers := s.towers, columns := s.columns,
           nextEvent := s.nextEvent, freeCount := s.freeCount } = s ∧
  { t.curTeam with
    groups := s.curTeam.groups, agents := s.curTeam.agents, handles := s.curTeam.handles, shared := s.curTeam.shared, full := s.curTeam.full,
    metas := s.curTeam.metas, hist := s.curTeam.hist, reads := s.curTeam.reads, tclock := s.curTeam.tclock, tvec := s.curTeam.tvec,
    modvec := s.curTeam.modvec, version := s.curTeam.version } = s.curTeam ∧
  (∀ g, f (t.curTeam.group g) = f (s.curTeam.group g)) ∧
  (∀ id, id ≠ s.cur.team → { t.team id with agents := (s.team id).agents } = s.team id) ∧
  (∀ l, { t.launch l with counters := (s.launch l).counters } = s.launch l) ∧
  (∀ c, { t.cluster c with epoch := (s.cluster c).epoch } = s.cluster c)
/-- An access instruction has changed nothing but bytes, registers, the agents, and the records of order and race detection. -/
def onlyAccess (s t : State) : Prop := accessFrame Group.still s t
/-- Scalar, saturation and set registers are as before; the set registers keep their sets. -/
def sameScalars (s t : State) : Prop :=
  (∀ g n, cellGet 0 (t.curTeam.group g).s n = cellGet 0 (s.curTeam.group g).s n) ∧ (∀ g, (t.curTeam.group g).sat = (s.curTeam.group g).sat) ∧
    (s.reissues = false → sameSets s t)
/-- The agent goes on behind an instruction of n words, when it is no re-issued one of a trap fragment. -/
def goesOn (s t : State) (n : Nat) : Prop :=
  s.reissues = false → t.curAgent.pc = s.curAgent.pc + n ∧ t.curAgent.rest = s.curAgent.rest - n ∧ sameAgents s t

/-- The checks of a format-M lane instruction pass for every member, and no stop holds it, or it has issued and no lane has made its access; its agent has a
lane (R157). -/
def State.accessReady (s : State) (l : LayoutRef) (slots : List MSlot) (spaces : List Nat) (size : Nat) (k : KReg) (regs : List Nat) : Prop :=
  let r := s.laneLayout l
  s.canIssue = true ∧ s.curTeam.own s.cur.agent (s.curTeam.k0Set s.cur.agent) ≠ 0 ∧ match s.curAgent.issued with
    | none => mCheck r (s.handleOf l) slots spaces (fun x => x.size == size) size = none ∧
        s.regFault (regs ++ mRegs r slots) false = none ∧ (∀ gl ∈ s.lanes k, s.boundsFail s.curTeam r size (s.mCoords r slots gl) = none) ∧
        s.stopArmed s.cur 2 = false
    | some i => i.done = [] ∧ i.lines = [] ∧ i.wrote = false ∧ s.curAgent.struck = []
/-- The accesses of every member are unopposed, their bytes recorded, none lies in a column that mirrors another's, and no sweep is awaited. -/
def State.lanesFree (s : State) (m : MemOp) (read write : Bool) (lanes : List Nat) : Prop :=
  let spot := s.laneSpot (s.laneLayout m.l) m.size m.slots
  s.swept 1024 ∧ ∀ gl ∈ lanes, s.unopposed (m.acc s (s.laneLayout m.l) gl read write) ∧ s.recorded (spot gl).1 (spot gl).2 m.size ∧
    ∀ q, s.mirrorOf (spot gl).1 = some q → ∀ j ∈ lanes, placeKey q ≠ placeKey (spot j).1
def State.accessFree (s : State) (m : MemOp) (read write : Bool) (k : KReg) : Prop := s.lanesFree m read write (s.lanes k)

/-- What read-modify-writes made in turn read first, and the memory they leave (R160). -/
def State.inTurn (s : State) (spot : Nat → Place × Nat) (n : Nat) (new : Nat → List Byte → Option (List Byte)) :
    List Nat → (Place → Nat → Byte) → List (Nat × List Byte) × (Place → Nat → Byte)
  | [], mem => ([], mem)
  | gl :: ls, mem =>
    let old := (List.range n).map fun i => mem (spot gl).1 ((spot gl).2 + i)
    let mem' : Place → Nat → Byte := match new gl old with
      | some bs => fun p a => if s.covers (spot gl) n p a then (bs[a - (spot gl).2]?).getD 0 else mem p a
      | none => mem
    let r := s.inTurn spot n new ls mem'
    ((gl, old) :: r.1, r.2)

/-- Another agent's watch of a line that is written is met (R172). -/
def State.watchMet (s t : State) (spot : Place × Nat) (n : Nat) : Prop :=
  ∀ team b w, ¬(team = s.cur.team ∧ b = s.cur.agent) → ((s.team team).agent b).watch = some w →
    (∃ l, (spot.1, l) ∈ w.lines ∧ spot.2 / 64 ≤ l ∧ l ≤ (spot.2 + n - 1) / 64) → ((t.team team).agent b).watch = some { w with hit := true }
/-- An instruction's members have performed their writes in turn, by home lane index (R159, R160; those of one index by group slot, log 96): memory is what
the turns leave and no other byte has changed, the full bits of the granules written in shared memory are set, and the watches of other agents are
met. -/
def performed (s t : State) (m : MemOp) (k : KReg) (new : Nat → List Byte → Option (List Byte)) : Prop :=
  let spot := s.laneSpot (s.laneLayout m.l) m.size m.slots
  let out := s.inTurn spot m.size new (homeOrder (s.lanes k)) s.peek
  onlyAccess s t ∧ sameScalars s t ∧ goesOn s t 1 ∧ (∀ g, (t.curTeam.group g).held = (s.curTeam.group g).held) ∧
    (∀ p a, t.peek p a = out.2 p a) ∧
    (∀ p a, (∀ gl ∈ s.lanes k, s.covers (spot gl) m.size p a = false) → t.peek p a = s.peek p a) ∧
    (∀ a, cellHas t.curTeam.full a = (cellHas s.curTeam.full a ||
      out.1.any fun x => (new x.1 x.2).isSome && (spot x.1).1 == .shared s.cur.team && (spot x.1).2 / 16 == a)) ∧
    (s.reissues = false → ∀ x ∈ out.1, (new x.1 x.2).isSome = true → s.watchMet t (spot x.1) m.size)
def performs (i : Instr) (s t : State) (m : MemOp) (k : KReg) (new : Nat → List Byte → Option (List Byte)) : Prop :=
  exec i s = .next t ∧ performed s t m k new

/-- An atomic operation's new value at a width (R160). -/
def atomTable (op : AtomOp) (bits old v c : Nat) : Option Nat :=
  let sx (x : Nat) : Int := (BitVec.ofNat bits x).toInt
  match op with
  | .add => some ((old + v) % 2 ^ bits)
  | .addF32 => some (fltAdd .f32 0 old v)
  | .minS => some (if sx v < sx old then v else old)
  | .minN => some (min old v)
  | .maxS => some (if sx old < sx v then v else old)
  | .maxN => some (max old v)
  | .and => some (Nat.land old v)
  | .or => some (Nat.lor old v)
  | .xor => some (Nat.xor old v)
  | .xchg => some v
  | .cas => if old = c then some v else none

-- Layout records (R144 to R150).
/-- The element size in bytes by a type code (R145). -/
def codeSize (code : Nat) : Nat :=
  if code = 0 then 8 else if code = 1 ∨ code = 4 ∨ code = 5 then 4 else if code = 2 ∨ code = 3 ∨ code = 6 ∨ code = 7 then 2
  else if code ∈ [10, 11, 14, 15, 16] then 64 else 1
/-- The cause of the layout fault of a record that an instruction names (R148), by the bits of R144; 0 without one. elem: the instruction accepts its
element size and type. -/
def layoutCause (x : BitVec 256) (h : Nat) (spaces : List Nat) (elem : Bool) (size : Nat) : Nat :=
  let f (lo n : Nat) : Nat := bitsOf x lo n
  let n := f 55 2 + 1
  let space := f 62 2
  let field := if space = 0 then 19 else if space = 1 then 22 else if space = 2 then 26 else 48
  if 127 < h ∨ f 64 16 = 0 then 1
  else if f 48 4 ≠ 0 ∨ 2 ^ field ≤ f 0 48 ∨
      (∃ j : Fin 4, (j.val < n ∧ f (64 + 16 * j) 16 = 0) ∨ (n ≤ j.val ∧ (f (64 + 16 * j) 16 ≠ 0 ∨ f (128 + 32 * j) 32 ≠ 0))) ∨
      16 < f 57 5 ∨ (codeSize (f 57 5) = 64 ∧ space ≠ 3) ∨ 4 < f 52 3 ∨ (f 52 3 ≠ 0 ∧ space ≠ 0) then 2
  else if space ∉ spaces then 3
  else if elem = false then 4
  else if f 0 48 % size ≠ 0 then 5
  else 0
/-- The layout fault with a cause, and the coordinate-count fault with the slot that failed (R148, R149, R310). -/
def layoutFaultOf (cause h : Nat) : Raise := { kind := 10, cause := cause, d0 := BitVec.ofNat 64 h }
def countFaultOf (x : BitVec 256) (h slot : Nat) : Raise :=
  { kind := 11, d0 := BitVec.ofNat 64 (h % 2 ^ 7 + (bitsOf x 55 2 + 1) * 2 ^ 8 + slot * 2 ^ 12) }
/-- The slot that fails the count, of the slots given by whether each is zero: one that the record needs and the form lacks, or one beyond the extents that
is not zero. -/
def countSlot (x : BitVec 256) (zero : List Bool) : Option Nat :=
  if zero.length < bitsOf x 55 2 + 1 then some zero.length
  else (List.range zero.length).find? fun j => decide (bitsOf x 55 2 < j) && zero[j]? == some false
/-- The checks of a record and of its slots: the fault that they raise. -/
def recordFault (x : BitVec 256) (h : Nat) (spaces : List Nat) (elem : Bool) (size : Nat) (zero : List Bool) : Option Raise :=
  let c := layoutCause x h spaces elem size
  if c ≠ 0 then some (layoutFaultOf c h) else (countSlot x zero).map (countFaultOf x h)
def zeroD (d : DSlot) : Bool := d == .lit 0
def zeroM (m : MSlot) : Bool := m == .v 0

-- Accesses of an agent as a whole (R104, R169).
/-- The address an agent's own access names, and where its byte i lies. -/
def State.ownAddr (s : State) (m : MArgs) : Int := let l := s.laneLayout m.l; l.addr l.size (s.mCoords l m.slots 0)
def State.ownSpot (s : State) (m : MArgs) (i : Nat) : Place × Nat := s.placeAt s.cur.team (s.laneLayout m.l) ((s.ownAddr m).toNat + i)
/-- Its access, under its lowest lane in the host group. -/
def State.ownAcc (s : State) (m : MArgs) (o : Ord) (n : Nat) (read write : Bool) : Acc :=
  let p := s.ownSpot m 0
  s.laneAcc ⟨s.handleOf m.l, s.mCoords (s.laneLayout m.l) m.slots 0, 0, o, false⟩ p.1 (p.2 / n * n) n s.agentLane read write
/-- The checks of an agent's own access of n bytes pass, no stop holds it, no sweep is awaited, and it is unopposed and recorded. -/
def State.ownReady (s : State) (m : MArgs) (o : Ord) (n : Nat) (spaces : List Nat) (read write : Bool) : Prop :=
  let l := s.laneLayout m.l
  let c := s.ownAcc m o n read write
  s.canIssue = true ∧ mCheck l (s.handleOf m.l) m.slots spaces (fun _ => true) l.size = none ∧ mRegs l m.slots = [] ∧ s.ownAddr m % n = 0 ∧
    s.blockBounds l (s.mCoords l m.slots 0) n = none ∧ s.stopArmed s.cur 2 = false ∧ s.swept 1 ∧ s.unopposed c ∧ s.recorded c.place c.addr n
/-- The agent waits in its instruction, which keeps the records it read at issue (R146): nothing but that has changed. -/
def waitsOn (i : Instr) (s : State) (recs : List (Nat × BitVec 256)) : Prop :=
  ∃ t, exec i s = .next t ∧ onlyRegisters s t ∧ sameValues s t ∧ sameSets s t ∧ (s.curAgent.issued.isSome = true → t = s) ∧
    (s.curAgent.issued = none → t.curAgent.issued = some ⟨recs, [], [], [], false⟩) ∧ (∀ n, n ≠ s.cur.agent → t.curTeam.agent n = s.curTeam.agent n) ∧
    { t.curAgent with issued := none, struck := [], before := [] } = { s.curAgent with issued := none, struck := [], before := [] }
/-- The n bytes as the agent sees them, in the order of their addresses. -/
def State.ownBytes (s : State) (m : MArgs) (n : Nat) : List Byte :=
  (List.range n).flatMap fun i => let p := s.ownSpot m i; s.sees p.1 p.2 1
/-- The n bytes have been written where they lie, and no other byte of memory (R230: and in a column that mirrors theirs). -/
def ownWritten (s t : State) (m : MArgs) (n : Nat) (bs : List Byte) : Prop :=
  (∀ i < n, let p := s.ownSpot m i; t.peek p.1 p.2 = (bs[i]?).getD 0) ∧
    ∀ p a, (∀ i < n, s.covers (s.ownSpot m i) 1 p a = false) → t.peek p a = s.peek p a

-- Milestone instructions (R162, R163, R233, R315).
/-- The next step of a milestone instruction performs element i under the records given: it has begun with them, or its checks pass, no watch holds
it, and it starts there. -/
def Tile.at (T : Tile) (s : State) (i : Nat) (recs : List (Nat × BitVec 256)) : Prop :=
  s.canIssue = true ∧ i < T.n ∧ match s.curAgent.progress with
    | some p => p = (i, recs) ∧ s.issuedNow.done = []
    | none => s.curAgent.issued = none ∧ recs = T.descs.map (fun d => (s.handleOf d.l, (s.curTeam.record T.reader (s.handleOf d.l)).raw)) ∧
        firstFault [s.msFault T.op T.n recs, T.check s (recs.map fun p => ⟨p.2⟩), s.regFault T.regs false] = none ∧ s.stopArmed s.cur 2 = false ∧ i = s.msStart
/-- Whether a lane takes no part: it was struck, or fails the bounds check of some element at the start. -/
def Tile.out (T : Tile) (s : State) (recs : List (Nat × BitVec 256)) (gl : Nat) : Bool :=
  (s.curAgent.struck.any fun p => p.1 == gl) ||
    (s.curAgent.progress.isNone && T.perLane && (T.bounds s (recs.map fun p => ⟨p.2⟩) gl 0 T.n).isSome)
def Tile.members (T : Tile) (s : State) (recs : List (Nat × BitVec 256)) : List Nat := (s.lanes T.k).filter fun gl => !T.out s recs gl
/-- This step is not the last, or the instruction can retire behind it: no lane is out, and its agent has a lane. -/
def Tile.clear (T : Tile) (s : State) (i : Nat) (recs : List (Nat × BitVec 256)) : Prop :=
  (i + 1 < T.n ∧ T.members s recs ≠ []) ∨
    (s.curAgent.struck = [] ∧ (∀ gl ∈ s.lanes T.k, T.out s recs gl = false) ∧
      s.curTeam.own s.cur.agent (s.curTeam.k0Set s.cur.agent) ≠ 0)
/-- The step leaves scalar, set and saturation registers, and either notes that the element is done or, behind the last one, goes on two words
further with the milestone cleared. -/
def Tile.advances (T : Tile) (s t : State) (i : Nat) (recs : List (Nat × BitVec 256)) : Prop :=
  accessFrame (fun g => { g.still with ms := 0 }) s t ∧ sameScalars s t ∧
    (∀ g, (t.curTeam.group g).ms = if g = s.curAgent.host ∧ ¬(i + 1 < T.n ∧ T.members s recs ≠ []) then 0 else (s.curTeam.group g).ms) ∧
    (if i + 1 < T.n ∧ T.members s recs ≠ [] then
      t.curAgent.progress = some (i + 1, recs) ∧ t.curAgent.pc = s.curAgent.pc ∧ t.curAgent.rest = s.curAgent.rest
     else goesOn s t 2)
/-- The element accesses of every member are unopposed and recorded. -/
def Tile.free (T : Tile) (s : State) (i : Nat) (recs : List (Nat × BitVec 256)) (read write : Bool) : Prop :=
  ∀ gl ∈ T.members s recs, ∀ p ∈ T.spots s (recs.map fun p => ⟨p.2⟩) i gl,
    let c := s.tileAcc p.1 p.2.1 p.2.2.1 p.2.2.2 i gl read write
    s.unopposed c ∧ s.recorded c.place c.addr c.size ∧ s.boundsFail s.curTeam p.1 p.1.size p.2.2.1 = none
/-- The bytes of an element's parts, in turn, as the agent sees them. -/
def Tile.value (T : Tile) (s : State) (i : Nat) (recs : List (Nat × BitVec 256)) (gl : Nat) : Nat :=
  bytesWord ((T.spots s (recs.map fun p => ⟨p.2⟩) i gl).flatMap fun p =>
    let q := s.elemAt s.cur.team p.1 (p.1.addr p.1.size p.2.2.1).toNat p.2.2.2
    s.sees q.1 q.2.1 p.2.2.2)
/-- The step writes f of each member to one register, and no byte of memory. -/
def Tile.loads (T : Tile) (i : Instr) (s : State) (e d : Nat) (recs : List (Nat × BitVec 256)) (f : Nat → Word) : Prop :=
  ∃ t, Machine.exec i s = .next t ∧ T.advances s t e recs ∧ sameBytes s t ∧ (∀ g, (t.curTeam.group g).held = (s.curTeam.group g).held) ∧
    ∀ gl r, t.vreg gl r = if gl ∈ T.members s recs ∧ r = d then f gl else s.vreg gl r

/-- Writes made in turn, by home lane index: what each writes, from what is read where the reading of it stands, and the bytes they leave. -/
def State.writesInTurn (s : State) (src dst : Nat → Place × Nat) (n : Nat) (f : Nat → List Byte → List Byte) :
    List Nat → (Place → Nat → Byte) → List (Nat × List Byte) × (Place → Nat → Byte)
  | [], mem => ([], mem)
  | gl :: ls, mem =>
    let bs := f gl ((List.range n).map fun i => mem (src gl).1 ((src gl).2 + i))
    let r := s.writesInTurn src dst n f ls fun p a => if s.covers (dst gl) n p a then (bs[a - (dst gl).2]?).getD 0 else mem p a
    ((gl, bs) :: r.1, r.2)
/-- The step writes its members' bytes: to memory and nowhere else, or, in a determinate launch, to the writes its group holds (R301). -/
def Tile.stores (T : Tile) (i : Instr) (s : State) (e : Nat) (recs : List (Nat × BitVec 256)) (src dst : Nat → Place × Nat) (n : Nat)
    (f : Nat → List Byte → List Byte) : Prop :=
  let out := s.writesInTurn src dst n f (homeOrder (T.members s recs)) fun p a => ((s.sees p a 1)[0]?).getD 0
  ∃ t, Machine.exec i s = .next t ∧ T.advances s t e recs ∧ (∀ gl r, t.vreg gl r = s.vreg gl r) ∧
    (if s.curLaunch.determinate then sameBytes s t ∧ (∀ g, g ≠ s.curAgent.host → (t.curTeam.group g).held = (s.curTeam.group g).held) ∧
      ∃ new, (t.curTeam.group s.curAgent.host).held = s.curGroup.held ++ new ∧
        new.map (fun h => (h.place, h.addr, h.bytes)) = out.1.map fun x => ((dst x.1).1, (dst x.1).2, x.2)
     else (∀ p a, t.peek p a = out.2 p a) ∧
      ∀ p a, (∀ gl ∈ T.members s recs, s.covers (dst gl) n p a = false) → t.peek p a = s.peek p a)
/-- The group sees memory itself where it is written at once, and no member reads a column that mirrors what another writes. -/
def State.plainView (s : State) (lanes : List Nat) (src dst : Nat → Place × Nat) : Prop :=
  (s.curLaunch.determinate = true ∨ s.curGroup.held = []) ∧ ∀ gl ∈ lanes, ∀ q, s.mirrorOf (dst gl).1 = some q → ∀ j ∈ lanes, placeKey q ≠ placeKey (src j).1

end Sys2Proof.Machine
end

