-- ==== Sys2Proof/Safety/Engines.lean ====
section
/-! DEFINITION. What statements about copies, chunks and matrix commands are made of. -/

namespace Sys2Proof.Machine

/-- A team but for the groups' registers and clocks, its agents, its handles, its copies with their outcomes, and its clocks. -/
def Team.butCopies (t u : Team) : Prop :=
  { u with groups := t.groups, agents := t.agents, handles := t.handles, copies := t.copies, nextCopy := t.nextCopy, store := t.store, lost := t.lost,
           tclock := t.tclock, tvec := t.tvec } = t ∧ ∀ g, (u.group g).still = (t.group g).still
/-- A copy has been offered: only the agent's team, and the queue and stall count of cores, have changed. -/
def copyFrame (s t : State) (team : Nat) : Prop :=
  { t with teams := s.teams, cores := s.cores, nextEvent := s.nextEvent, freeCount := s.freeCount } = s ∧ (s.team team).butCopies (t.team team) ∧
    (∀ gl r, (t.team team).vreg gl r = (s.team team).vreg gl r) ∧
    ∀ g n, cellGet 0 ((t.team team).group g).s n = cellGet 0 ((s.team team).group g).s n ∧
      cellGet 0 ((t.team team).group g).k n = cellGet 0 ((s.team team).group g).k n
/-- The copy c is accepted under its number (R201, R210): it carries its producer's identity, clocks, vectors and view, and has joined its core's
queue. -/
def copyAccepted (s t : State) (a : AgentRef) (id : Nat) (c : Copy) : Prop :=
  let u := s.team a.team
  let x := s.agent a
  cellGet Copy.blank (t.team a.team).copies id =
      { c with accepted := true, order := s.nextEvent, ident := s.ident a.team x.host, clocks := s.clocks a.team x.host,
               gvec := (u.group x.host).vec, tvec := u.tvec, view := x.view, snaps := x.carried } ∧
    (t.core u.core).queue = (s.core u.core).queue ++ [(a.team, id)] ∧
    (c.kind ≠ .cpym → ∀ q, q ≠ a.team → t.team q = s.team q) ∧
    (c.kind = .cpym → ∀ p ∈ s.writeTeams a.team c, p.2 ≠ a.team →
      (cellGet Copy.blank (t.team p.2).copies (s.team p.2).nextCopy).remote = some (a.team, id))
/-- A checked copy is accepted when its team and core have room, and otherwise its agent waits with it. -/
def offers (i : Instr) (s u : State) (c : Copy) : Prop :=
  let id := s.curTeam.nextCopy
  (s.copyRoom s.cur.team = true → ∃ t, exec i s = .next t ∧ copyFrame s t s.cur.team ∧ goesOn s t 2 ∧ copyAccepted u t s.cur id c) ∧
  (s.copyRoom s.cur.team = false → ∃ t, exec i s = .next t ∧ copyFrame s t s.cur.team ∧ t.curAgent.status = .accept id ∧
    t.curAgent.pc = s.curAgent.pc ∧ cellGet Copy.blank t.curTeam.copies id = c)

-- The checks of copies (R206, R234).
def copyFaultOf (cause n : Nat) : Raise := { kind := 20, cause := cause, d0 := BitVec.ofNat 64 n }
/-- The whole bounds fault with the dimension that failed, 4 for the address range. -/
def wholeBoundsOf (d : Nat) : Raise := { kind := 12, cause := 2, d0 := BitVec.ofNat 64 d }
/-- The least or the greatest address of a tile's elements (R147, R202). -/
def tileEnd (l : Layout) (size : Nat) (cs dims : List Nat) (least : Bool) : Int :=
  (l.base : Int) + size * ((List.range cs.length).map fun j =>
    l.stride j * (((cs[j]?).getD 0 + if decide (l.stride j < 0) = least then (dims[j]?).getD 1 - 1 else 0 : Nat) : Int)).sum
/-- Both ends of a tile lie within the bounds of its space (R150). -/
def State.tileWithin (s : State) (l : Layout) (size : Nat) (cs dims : List Nat) : Bool :=
  [true, false].all fun b => s.rangeOk s.curTeam l.space (tileEnd l size cs dims b) size
/-- Order 3: the destination, the source and the bitmap record. -/
def Copy.recordFaults (c : Copy) (f : CpyArgs) : Option Raise :=
  let n (x : BitVec 256) : Nat := bitsOf x 55 2 + 1
  let d := bitsOf c.dst 57 5
  let k := bitsOf c.src 57 5
  let plain (code : Nat) : Bool := codeSize code != 64
  let format : Bool := [1, 2, 3, 8, 9, 10, 11, 12, 13, 14, 15, 16].contains k
  firstFault
    [recordFault c.dst c.hd (if c.kind = .cpym then [0] else [0, 1, 2, 3])
       (if c.kind = .cpyx ∧ format = true then d == if plain k then k else 9 else plain d) (codeSize d) (f.dst.slots.map zeroD),
     if c.kind = .cpyx then recordFault c.src c.hs [3] (n c.src == 1 && format) 64 (f.src.slots.map zeroD)
     else recordFault c.src c.hs [0, 1, 2, 3] (plain k && codeSize k == codeSize d && n c.src == n c.dst) (codeSize k) (f.src.slots.map zeroD),
     recordFault c.bitmap c.hb [0] (codeSize (bitsOf c.bitmap 57 5) == 4) 4 [zeroD f.slot]]
/-- Order 4: coordinates, and the addresses of both tiles; of cpyx the blocks that its source needs, once its expand word can be read. -/
def State.boundsFaults (s : State) (c : Copy) : Option Raise :=
  let d := Layout.mk c.dst
  let k := Layout.mk c.src
  let dims := tileDims d c.dc
  let need (j : Nat) : Nat := if c.kind = .cpyx then (if s.expandOk c && bitsOf (BitVec.ofNat 32 (s.expandWord c)) 8 2 != 3 then
      blockCount c.format (product dims) c.span else 1) else (dims[j]?).getD 1
  firstFault
    [((List.range c.dc.length).find? fun j => decide (d.ext j ≤ (c.dc[j]?).getD 0)).map wholeBoundsOf,
     ((List.range c.sc.length).find? fun j => decide (k.ext j < (c.sc[j]?).getD 0 + need j)).map wholeBoundsOf,
     if s.tileWithin d d.size c.dc dims && (c.kind == .cpyx || s.tileWithin k k.size c.sc dims) then none else some (wholeBoundsOf 4)]
/-- Orders 6 and 7: the run with its expand word, and the words of the run in the run of a copy or delivery that is incomplete at a team. -/
def State.runFaults (s : State) (c : Copy) : Option Raise :=
  let b := Layout.mk c.bitmap
  let first := if c.kind = .cpyx then c.run - 1 else c.run
  firstFault
    [if b.ext 0 < c.run + c.runWords then some (copyFaultOf 3 0) else none,
     if [first, c.run + c.runWords - 1].all fun j => s.rangeOk s.curTeam 0 ((b.base : Int) + 4 * (j * b.stride 0)) 4 then none else some (wholeBoundsOf 4)]
def clashFault (c : Copy) (t : Team) : Option Raise :=
  ((List.range c.runWords).find? fun j => t.copies.any fun p => p.2.accepted && p.2.words.contains (wordAddr ⟨c.bitmap⟩ (c.run + j) / 4)).map fun j =>
    copyFaultOf 4 (c.run + j)
/-- Orders 2 to 7 of R206, the first to fail. -/
def State.copyFaults (s : State) (c : Copy) (f : CpyArgs) : Option Raise :=
  firstFault
    [if s.curAgent.host = (s.nodeOf s.curTeam).producer then none else some (copyFaultOf 1 0), c.recordFaults f, s.boundsFaults c,
     if 4096 < c.chunks then some (copyFaultOf 2 0) else none, s.runFaults c, clashFault c s.curTeam]
/-- Where byte k of a tile of the issuing team stands before translation: an element of n bytes after another, dimension 0 fastest (R147, R202). -/
def State.tileByte (s : State) (l : Layout) (cs dims : List Nat) (n k : Nat) : Place × Nat :=
  let a := l.addr n (List.zipWith (· + ·) cs (offsetsOf dims (k / n)))
  if l.space = 3 then (.main, (a % 2 ^ 64).toNat + k % n) else s.placeAt s.cur.team l (a.toNat + k % n)
/-- Order 8: tile byte k lies in the run or the expand word, or its byte of the destination is a byte of the source. -/
def State.tileMeets (s : State) (c : Copy) (k : Nat) : Prop :=
  let d := Layout.mk c.dst
  let e := Layout.mk c.src
  let dims := tileDims d c.dc
  let first := if c.kind = .cpyx then c.run - 1 else c.run
  let inRun (q : Place × Nat) : Prop := ∃ j, first ≤ j ∧ j < c.run + c.runWords ∧ q.1 = .shared s.cur.team ∧ wordAddr ⟨c.bitmap⟩ j ≤ q.2 ∧
    q.2 < wordAddr ⟨c.bitmap⟩ j + 4
  let src (j : Nat) : Place × Nat := if c.kind = .cpyx then s.tileByte e c.sc [blockCount c.format (product dims) c.span] 64 j
    else s.tileByte e c.sc dims d.size j
  let srcBytes := if c.kind = .cpyx then 64 * blockCount c.format (product dims) c.span else d.size * product dims
  (k < d.size * product dims ∧ (inRun (s.tileByte d c.dc dims d.size k) ∨ ∃ j < srcBytes, s.tileByte d c.dc dims d.size k = src j)) ∨
    (k < srcBytes ∧ inRun (src k))
/-- Orders 10 to 12 of R234: the position mask, the named positions' teams, and their runs. -/
def State.targetFaults (s : State) (c : Copy) (mask : Nat) : Option Raise :=
  let cl := s.cluster s.curTeam.cluster
  let named := (List.range 12).filter fun p => mask / 2 ^ p % 2 == 1
  let at_ (p : Nat) : Option Nat := s.teamAt s.curTeam.cluster p
  firstFault
    [if mask % 2 ^ 12 = 0 ∨ 2 ^ 12 ≤ mask ∨ (∃ p ∈ named, cl.w * cl.h ≤ p) then some (copyFaultOf 7 0) else none,
     if ∃ p ∈ named, at_ p = none ∨ (∃ q, at_ p = some q ∧ (s.team q).status = .ended) then some (copyFaultOf 8 0) else none,
     named.findSome? fun p => match at_ p with
       | some q => if q = s.cur.team then none else clashFault c (s.team q)
       | none => none]

-- Chunks.
/-- The bytes of a chunk's source, and those of its destination in a team, when all translate and lie in this module. -/
def State.srcSpots (s : State) (team : Nat) (c : Copy) (i : Nat) (l : List Spot) : Prop :=
  s.allSpots (s.team team) false (s.srcParts team c (c.range i).1 (c.range i).2) = (l, none) ∧ ∀ p ∈ l, p.far = false
def State.dstSpots (s : State) (team target : Nat) (c : Copy) (i : Nat) (l : List Spot) : Prop :=
  s.allSpots (s.team team) true (s.dstParts target c (c.range i).1 (c.range i).2) = (l, none) ∧ ∀ p ∈ l, p.far = false
/-- Bytes that an engine reads for a copy: no race and no storage error. -/
def State.readsFreely (s : State) (team id : Nat) (c : Copy) (l : List Spot) (view : View) : Prop :=
  ∀ p ∈ l, s.raceFree (s.copyAcc c team id p 1 false view) ∧ s.badAt p.place p.addr 1 = false
/-- The address of a chunk's run word in a team's shared memory. -/
def Copy.bitWord (c : Copy) (i : Nat) : Nat := wordAddr c.bl (c.run + i / 32)
/-- Bytes that an engine writes for a copy, with run words of some teams: no race, none twice, none in a run word or in a column that mirrors another's,
and one key for each line of main memory. -/
def State.writesFreely (s : State) (team id : Nat) (c : Copy) (i : Nat) (dst : List Spot) (bits : List Nat) (view : View) : Prop :=
  (∀ p ∈ dst, s.raceFree (s.copyAcc c team id p 1 true view) ∧
    (∀ b ∈ bits, s.covers (.shared b, c.bitWord i) 4 p.place p.addr = false) ∧
    (∀ m, s.mirrorOf p.place = some m → ∀ q ∈ dst, placeKey m ≠ placeKey q.place) ∧
    ∀ q ∈ dst, p.place = .main → q.place = .main → p.addr / 64 = q.addr / 64 → p.key = q.key) ∧
  (dst.map fun p => (placeKey p.place, p.addr)).Nodup ∧ bits.Nodup ∧
  ∀ b ∈ bits, s.raceFree (c.bitAcc team id b i c.view)
/-- The bytes stand where they were to go, bit i of the run word of each of some teams is set (R205), and no other byte of memory has changed. -/
def landed (s t : State) (c : Copy) (i : Nat) (dst : List Spot) (bytes : List Byte) (bits : List Nat) : Prop :=
  (∀ x ∈ dst.zip bytes, t.byteAt x.1.key x.1.place x.1.addr = x.2) ∧
  (∀ b ∈ bits, let word (u : State) : Nat := bytesWord ((List.range 4).map fun j => u.peek (.shared b) (c.bitWord i + j))
    word t = Nat.lor (word s) (2 ^ (i % 32))) ∧
  (∀ p a, p ≠ .main → (∀ x ∈ dst, s.covers (x.place, x.addr) 1 p a = false) → (∀ b ∈ bits, s.covers (.shared b, c.bitWord i) 4 p a = false) →
    t.peek p a = s.peek p a) ∧
  ∀ a, (∀ x ∈ dst, x.place = .main → x.addr ≠ a ∧ (x.addr / 64 = a / 64 → cellGet 0 s.lineKeys (a / 64) = s.keyOf x.key)) →
    t.peek .main a = s.peek .main a
/-- The chunk counts as landed: its copy says so, or is complete and kept as such. -/
def chunkDone (s t : State) (team id i : Nat) : Prop :=
  let c := cellGet Copy.blank (s.team team).copies id
  if (List.range c.chunks).all fun j => j == i || c.landed.contains j then
    cellHas (t.team team).copies id = false ∧ ∃ d ∈ (t.team team).done, d.order = c.order ∧ i ∈ d.landed
  else i ∈ (cellGet Copy.blank (t.team team).copies id).landed
/-- A started chunk whose turn it is: its copy lives and is no delivery, no earlier copy is in its way, and nothing of it is on the way. -/
def State.chunkTurn (s : State) (team id i : Nat) : Prop :=
  let c := cellGet Copy.blank (s.team team).copies id
  s.copyLives team id = true ∧ c.remote = none ∧ i < c.started ∧ i < c.chunks ∧ i ∉ c.landed ∧ s.inOrder team c i = true ∧
    s.mustWait team c (s.chunkReads team c i) (if c.kind = .cpym then [] else s.chunkWrites team c i) = false ∧ cellHas c.fetched i = false ∧
    s.requestsOf (team, id, i) = []
/-- The same in a team that does not drain. -/
def State.chunkReady (s : State) (team id i : Nat) : Prop := s.chunkTurn team id i ∧ (s.team team).status ≠ .draining
/-- Source block n of an expand copy (R217, R218). -/
def State.blockBytes (s : State) (team : Nat) (c : Copy) (n : Nat) : List Byte :=
  let cs := [c.sc.headD 0 + n]
  match s.partSpots (s.team team) false 0 cs (s.piecesAt team c.sl (c.sl.addr 64 cs) 64) with
  | .ok l => l.map fun p => s.byteAt p.key p.place p.addr
  | .error _ => []
/-- Tile byte k of an expand copy: the elements of its destination element, each the source element times 2 to its block's scale less 127 and the
copy's exponent, converted to the destination's format to nearest (R68, R218). -/
def State.expandedByte (s : State) (team : Nat) (c : Copy) (k : Nat) : Byte :=
  let d := c.format
  let z := c.dl.size
  let per := if d.bits = 4 then 2 else 1
  let part (j : Nat) : Nat :=
    let n := per * (k / z) + j
    let bs := s.blockBytes team c (n / c.span)
    match Ty.ofCode ((bs.headD 0).toNat % 32) with
    | some f =>
      let x := decodeNum f (bytesWord (bs.drop 2) / 2 ^ (f.bits * (n % c.span)) % 2 ^ f.bits)
      (convNum d 0 (x.scale ((((bs[1]?).getD 0).toNat : Int) - 127 - c.exponent))).bits
    | none => 0
  BitVec.ofNat 8 ((part 0 + if per = 2 then part 1 * 2 ^ d.bits else 0) / 2 ^ (8 * (k % z)))

-- Matrix commands.
/-- The checks at the arrival of an mma (R188, R195): the partial-set fault, and gang faults 1, 2, 4 and 3. -/
def State.arrivalFaults (s : State) (f : MmaArgs) : Option Raise :=
  let gangFaultOf (cause n pc : Nat) : Raise := { kind := 18, cause := cause, d0 := BitVec.ofNat 64 n, d1 := BitVec.ofNat 64 pc }
  let named : List Nat := (s.curGroup.gang.map fun g => g.slots).getD []
  let gang (g : Nat) : Option (BitVec 2 × List Nat × Option QReg) := (s.curTeam.group g).gang.map fun x => (x.shape, x.slots, x.queue)
  firstFault
    [if s.fullSet then none else some { kind := 7, d0 := s.curTeam.k0Desc s.cur.agent, d1 := dw s.curGroup.live.toNat },
     if s.curGroup.gang.isNone then some (gangFaultOf 1 0 0) else none,
     (named.find? fun n => gang n != gang s.curAgent.host).map fun n => gangFaultOf 2 n 0,
     (named.find? fun n => (s.curTeam.group n).live == 0).map fun n => gangFaultOf 4 n 0,
     (s.curGroup.gang.bind s.curTeam.latchOf).bind fun l =>
       if l.args.fmt = f.fmt ∧ l.args.id = f.id ∧ l.args.n = f.n ∧ l.args.p0 = f.p0 ∧ l.args.p1 = f.p1 ∧ l.layout = s.handleOf f.a.l ∧
         l.coords = f.a.slots.map s.dCoord then none else some (gangFaultOf 3 0 l.pc)]
/-- A member names a register in its 32 accumulators, or in its B range (R178, R179). -/
def Latch.names (l : Latch) (m : Nat × Nat × Nat) (r : Nat) : Bool :=
  let b := if l.gang.shape = 1 then (l.args.n.toNat + 1) / 2 else l.args.n.toNat
  (decide (m.2.1 ≤ r) && decide (r < m.2.1 + 32)) || (decide (m.2.2 ≤ r) && decide (r < m.2.2 + b))
/-- The checks of a closed latch but the operands' (R188): the record of A and its bounds, and the ranges of each member. -/
def State.latchRecordFaults (s : State) (l : Latch) : Option Raise :=
  let x := s.curTeam.record .matrix l.layout
  let code := (mmaTy l.args.fmt).code
  let narrow : Bool := [10, 11, 14, 15, 16].contains code
  let k := (mmaTy l.args.fmt).perReg * l.args.n.toNat - 1
  let dims := [(if (mmaTy l.args.fmt).bits = 4 then k / 2 else k) + 1, 16 * l.gang.slots.length, 1, 1]
  let used := l.coords.take (bitsOf x.raw 55 2 + 1)
  let b := if l.gang.shape = 1 then (l.args.n.toNat + 1) / 2 else l.args.n.toNat
  let bad (m : Nat × Nat × Nat) : Bool :=
    let limit := min 256 (s.curTeam.group m.1).budget
    decide (limit < m.2.1 + 32) || (decide (0 < b) && (decide (limit < m.2.2 + b) || (decide (m.2.2 < m.2.1 + 32) && decide (m.2.1 < m.2.2 + b))))
  firstFault
    [recordFault x.raw l.layout [0, 1, 2] (decide (1 ≤ bitsOf x.raw 55 2) && bitsOf x.raw 57 5 == if narrow then 9 else code) (codeSize (bitsOf x.raw 57 5))
       (l.args.a.slots.map zeroD),
     ((List.range used.length).find? fun j => decide (x.ext j < (used[j]?).getD 0 + (dims[j]?).getD 1)).map wholeBoundsOf,
     if s.tileWithin x x.size used (dims.take used.length) then none else some (wholeBoundsOf 4),
     if l.arrived.any bad then some (illegal 6) else none]
/-- A member's register in its unfenced set (R189), and a register of a member that a command pends which is no predecessor (R193). -/
def State.unfencedIn (s : State) (l : Latch) (m : Nat × Nat × Nat) (r : Nat) : Prop :=
  m ∈ l.arrived ∧ r < 256 ∧ l.names m r = true ∧ (s.curTeam.group m.1).unfenced.getLsbD r = true
def State.pendingIn (s : State) (l : Latch) (m : Nat × Nat × Nat) (r : Nat) (id : BitVec 6) : Prop :=
  m ∈ l.arrived ∧ l.names m r = true ∧ ∃ c ∈ s.curTeam.cmds, m.1 ∈ c.gang.slots ∧ c.id = id ∧ r ∈ c.regsOf m.1 ∧
    ¬(c.leader = l.leader ∧ (some id = l.args.p0 ∨ some id = l.args.p1))
/-- The checks of a closed latch in the order of R188: its record, bounds and ranges; then operand fences, pending operands, and an id in use, each with the
register it names. -/
def latchChecked (s : State) (l : Latch) : Prop :=
  (∀ r, s.latchRecordFaults l = some r → s.latchFault l = some r) ∧
  (s.latchRecordFaults l = none →
    (∀ m r, s.unfencedIn l m r → ∃ m r, s.unfencedIn l m r ∧ s.latchFault l = some { kind := 17, d0 := BitVec.ofNat 64 m.1, d1 := BitVec.ofNat 64 r }) ∧
    ((∀ m r, ¬s.unfencedIn l m r) →
      (∀ m r id, s.pendingIn l m r id →
        ∃ m r id, s.pendingIn l m r id ∧ s.latchFault l = some { kind := 16, d0 := BitVec.ofNat 64 r, d1 := BitVec.ofNat 64 id.toNat }) ∧
      ((∀ m r id, ¬s.pendingIn l m r id) → s.latchFault l = if ∃ c ∈ s.curTeam.cmds, l.leader ∈ c.gang.slots ∧ c.id = l.args.id ∧ c.leader = l.leader then
        some { kind := 18, cause := 5, d0 := BitVec.ofNat 64 l.args.id.toNat } else none)))
/-- Only one team, and the stall count of cores, have changed, and in the team only groups, agents, handles, commands and latches. -/
def matrixFrame (s t : State) (team : Nat) : Prop :=
  { t with teams := s.teams, cores := s.cores, nextEvent := s.nextEvent } = s ∧ (∀ q, q ≠ team → t.team q = s.team q) ∧
    { t.team team with groups := (s.team team).groups, agents := (s.team team).agents, handles := (s.team team).handles,
                       cmds := (s.team team).cmds, latches := (s.team team).latches } = s.team team
/-- No vector, scalar, set or saturation register of a team has changed. -/
def sameRegisters (s t : State) (team : Nat) : Prop :=
  (∀ gl r, (t.team team).vreg gl r = (s.team team).vreg gl r) ∧
    ∀ g, (∀ n, cellGet 0 ((t.team team).group g).s n = cellGet 0 ((s.team team).group g).s n ∧
      cellGet 0 ((t.team team).group g).k n = cellGet 0 ((s.team team).group g).k n) ∧ ((t.team team).group g).sat = ((s.team team).group g).sat
/-- The accumulators after a K-step group (R72, R179, R181): each element of a member's C becomes the old one plus the products of its row of A and its
column of B, rounded once or exact modulo 2^32, and no other vector register changes. -/
def stepLands (s t : State) (team : Nat) (c : Cmd) (reads : List (List Nat)) : Prop :=
  let old := s.team team
  let ty := mmaTy c.fmt
  let k := ty.perReg
  let full : Bool := c.gang.shape == 1
  let column (j : Nat) : Nat :=
    let g := (c.gang.slots[j / if full then 16 else 32]?).getD 0
    let vb := ((c.ranges.find? fun m => m.1 == g).map fun m => m.2.2).getD 0
    if full then (old.vreg (32 * g + 16 * (c.elem % 2) + j % 16) (vb + c.elem / 2)).toNat else (old.vreg (32 * g + j % 32) (vb + c.elem)).toNat
  let value (m : Nat × Nat × Nat) (i j : Nat) : Word :=
    let row := ((reads[(c.gang.slots.idxOf? m.1).getD 0]?).getD []).drop (k * i) |>.take k
    let acc := (old.vreg (32 * m.1 + j % 32) (m.2.1 + 2 * i + j / 32)).toNat
    if isFloat ty then
      BitVec.ofNat 32 (sumRound .f32 0 (decodeFloat .f32 acc :: row.zipIdx.map fun a => (decodeFloat ty a.1).mul (decodeFloat ty (elemOf ty (column j) a.2))))
    else BitVec.ofInt 32 (acc + (row.zipIdx.map fun (a : Nat × Nat) => decodeInt ty a.1 * decodeInt ty (elemOf ty (column j) a.2)).sum)
  (∀ m ∈ c.ranges, ∀ i < 16, ∀ j < 64, (t.team team).vreg (32 * m.1 + j % 32) (m.2.1 + 2 * i + j / 32) = value m i j) ∧
    ∀ gl r, (∀ m ∈ c.ranges, ¬(gl / 32 = m.1 ∧ m.2.1 ≤ r ∧ r < m.2.1 + 32)) → (t.team team).vreg gl r = old.vreg gl r
/-- The piece of A that the array of member p reads of a K-step group at a byte still to be read: no race and no storage error. -/
def State.aReadsFreely (s : State) (team : Nat) (c : Cmd) (p group k : Nat) : Prop :=
  ∀ sp ∈ c.piece p group (s.aSpots team c p group) k, s.raceFree (s.aAcc team c ((c.gang.slots[p]?).getD 0) group sp 1) ∧ s.badAt sp.place sp.addr 1 = false

end Sys2Proof.Machine
end

