-- ==== Sys2Proof/Safety/Traps.lean ====
section
/-! DEFINITION. What statements about traps are made of: entering a handler, the fragment a fault leaves, and what tret restores. -/

namespace Sys2Proof.Machine

/-- A trap of a host group can be delivered: its kernel has a handler, its stack takes the frame, and the depth stays within 4 (R307). -/
def State.canDeliver (s : State) (team host depth : Nat) : Prop :=
  (s.kernelOf (s.team team)).handler ≠ none ∧ 0x8400 + 256 ≤ ((s.team team).group host).sp.toNat ∧ depth ≤ 4
/-- A fragment's delivery at a depth (R307 to R309): 256 bytes lower the stack holds s8 to s31, the PC, the block's rest, the depth, the kind, the
milestone and the switchback depth; s8 to s31 hold the trap record; sr.ms holds the milestone, that of a command in its leader (R198). -/
def delivered (s t : State) (team host depth : Nat) (i : TrapInfo) (swd : Nat) : Prop :=
  let u := s.team team
  let g := u.group host
  let h := (t.team team).group host
  let sp := g.sp.toNat - 256
  let word (o : Nat) : Nat := bytesWord (readBytes h.spill (sp + o) 8)
  let reg (n : Nat) : DWord := cellGet 0 h.s n
  let low := (((List.range 32).filter fun x => groupPart i.lanes x != 0).head?).getD host
  h.sp.toNat = sp ∧ ((t.team team).group (i.owner.getD host)).ms = i.ms ∧
  (∀ j < 24, word (8 * j) = (cellGet 0 g.s (8 + j)).toNat) ∧
  word 0xC0 = (i.pc + i.rest * 2 ^ 32 + depth * 2 ^ 44 + i.kind * 2 ^ 48) % 2 ^ 64 ∧ word 0xC8 = i.ms.toNat ∧ word 0xD0 = swd % 2 ^ 64 ∧
  (∀ j < 5, word (0xD8 + 8 * j) = 0) ∧ (∀ b, ¬(sp ≤ b ∧ b < sp + 256) → readByte h.spill b = readByte g.spill b) ∧
  reg 8 = BitVec.ofNat 64 (i.kind + i.cause * 2 ^ 16 + depth * 2 ^ 24 + i.pc * 2 ^ 32) ∧ reg 9 = i.word ∧
  reg 10 = BitVec.ofNat 64 (groupPart i.lanes low + low * 2 ^ 32) ∧ reg 11 = i.ms ∧ reg 12 = i.d0 ∧ reg 13 = i.d1 ∧ reg 14 = BitVec.ofNat 64 i.tick ∧
  reg 15 = BitVec.ofNat 64 (u.index.toNat + host * 2 ^ 32 + u.node * 2 ^ 40) ∧
  (∀ j < 16, reg (16 + j) = BitVec.ofNat 64 (i.record.toNat / 2 ^ (64 * j))) ∧
  ∀ n, n < 8 ∨ 32 ≤ n → reg n = cellGet 0 g.s n
/-- What a trap leaves: bytes of every memory, vector registers, saturation flags, the registers of other groups, and the milestones but that of the group
whose milestone it delivers. -/
def trapFrameOk (s t : State) (team host owner : Nat) : Prop :=
  sameBytes s t ∧ (∀ gl r, (t.team team).vreg gl r = (s.team team).vreg gl r) ∧
    ∀ g, ((t.team team).group g).sat = ((s.team team).group g).sat ∧
      (g ≠ host → (∀ n, cellGet 0 ((t.team team).group g).s n = cellGet 0 ((s.team team).group g).s n) ∧
        ((t.team team).group g).sp = ((s.team team).group g).sp ∧ ((t.team team).group g).spill = ((s.team team).group g).spill) ∧
      (g ≠ owner → ((t.team team).group g).ms = ((s.team team).group g).ms)
/-- No limit holds one more trap fragment (R45, R114): 112 are pending, and 16 of several groups are pending or in their handlers. -/
def Team.takesTrap (t : Team) : Prop :=
  t.pendingTraps.length + 1 ≤ 112 ∧ (t.agents.filter fun p => p.2.holdsTrap).length + 1 ≤ 16 ∧ t.noneHeld
/-- The issuing agent's lanes have formed a trap fragment for a fault at a word (R117): it holds the lanes and what the fault says. Inside a region
it waits for the region's join; outside, the agent waits for it, and the first one is delivered at once, or kills its launch when it cannot be
(R307). -/
def trapped (s t : State) (lanes : LaneSet) (f : Raise) (word : DWord) (pc rest : Nat) (retired : Bool) : Prop :=
  let u := s.curTeam
  let x := s.curAgent
  let id := u.nextAgent
  let y := t.curTeam.agent id
  let inside : Bool := x.stack.length != 0 || (match x.kind with | .group => false | .fragment _ => true | .trap _ _ => x.inRegion)
  let first := (u.children s.cur.agent).isEmpty
  trapFrameOk s t s.cur.team x.host (f.owner.getD x.host) ∧ cellHas t.curTeam.agents id = true ∧ t.curTeam.nextAgent = id + 1 ∧
    y.kind = .trap (x.trapHome s.cur.agent).1 (x.trapHome s.cur.agent).2.1 ∧ y.host = x.host ∧ y.lanes = lanes ∧ y.inRegion = inside ∧
    t.curTeam.resolve y.k0 = lanes ∧
    (∀ g n, handlesApart (s.kreg g n) y.k0 → handlesApart (s.kreg g n) x.k0 → t.curTeam.resolve (s.kreg g n) = u.resolve (s.kreg g n)) ∧
    ∃ i, y.info = some i ∧ i.kind = f.kind ∧ i.cause = f.cause ∧ i.d0 = f.d0 ∧ i.d1 = f.d1 ∧ i.ms = f.ms ∧ i.record = f.record ∧ i.owner = f.owner ∧ i.word = word ∧
      i.pc = pc ∧ i.rest = rest ∧ i.lanes = lanes ∧ i.retired = retired ∧ i.tick = s.teamTick u ∧
      (inside = true ∨ first = false → y.status = .pending ∧ y.depth = x.depth ∧
        ∀ n, cellGet 0 (t.curTeam.group x.host).s n = cellGet 0 s.curGroup.s n) ∧
      (inside = false → t.curAgent.lanes = x.lanes &&& ~~~lanes ∧ t.curAgent.status = .trapWait) ∧
      (inside = false → first = true → x.kind = .group →
        (s.canDeliver s.cur.team x.host (x.depth + 1) → delivered s t s.cur.team x.host (x.depth + 1) i 0 ∧ y.status = .ready ∧ y.depth = x.depth + 1 ∧
          ∀ h, (s.kernelOf u).handler = some h → entersAt s t ⟨s.cur.team, id⟩ h) ∧
        (¬s.canDeliver s.cur.team x.host (x.depth + 1) →
          (t.launch u.launch).kill = some ⟨2, pc, u.index, u.node, x.host, f.kind⟩))

-- Returning (R309, R313).
/-- A word of the frame at the issuing agent's stack pointer. -/
def State.frameWord (s : State) (o : Nat) : Nat := bytesWord (readBytes s.curGroup.spill (s.sp + o) 8)
/-- Its fields. -/
def State.framePc (s : State) : Nat := s.frameWord 0xC0 % 2 ^ 32
def State.frameRest (s : State) : Nat := s.frameWord 0xC0 / 2 ^ 32 % 2 ^ 12
def State.frameKind (s : State) : Nat := s.frameWord 0xC0 / 2 ^ 48
/-- The frame is one that a return accepts: its depth and switchback depth are the agent's, its rest and PC are in range, its reserved bits are 0. -/
def State.frameGood (s : State) : Bool :=
  decide (s.frameWord 0xC0 / 2 ^ 44 % 16 = s.curAgent.depth) && decide (s.frameWord 0xD0 = s.swdOf s.cur) && decide (s.swdOf s.cur < 2 ^ 11) &&
    decide (s.frameRest ≤ 1023) && decide (s.framePc < (s.objectOf s.curTeam).words) && (List.range 5).all fun j => s.frameWord (0xD8 + 8 * j) == 0
/-- What every return restores: s8 to s31 of the host from the frame, and its stack pointer; nothing else of the vector and scalar registers and no byte of
memory changes. -/
def unframed (s t : State) (team : Nat) : Prop :=
  sameBytes s t ∧ (∀ gl r, (t.team team).vreg gl r = (s.team team).vreg gl r) ∧
    ∀ g, ((t.team team).group g).sat = ((s.team team).group g).sat ∧
      ((t.team team).group g).sp.toNat = (if g = s.curAgent.host then s.sp + 256 else ((s.team team).group g).sp.toNat) ∧
      ∀ n, cellGet 0 ((t.team team).group g).s n = if g = s.curAgent.host ∧ 8 ≤ n ∧ n < 32 then BitVec.ofNat 64 (s.frameWord (8 * (n - 8)))
        else cellGet 0 ((s.team team).group g).s n
/-- The same, with the milestone of its owner's group (R198) kept or cleared, and set registers that keep their sets. -/
def restored (s t : State) (team owner : Nat) (cleared : Bool) : Prop :=
  unframed s t team ∧
    (∀ g, ((t.team team).group g).ms = if g = owner ∧ cleared = true then 0 else ((s.team team).group g).ms) ∧
    ∀ g n, handlesApart (s.kreg g n) s.curAgent.k0 → (t.team team).resolve (cellGet 0 ((t.team team).group g).k n) = s.curTeam.resolve (s.kreg g n)
/-- The fragment goes on at a PC, within its region, one trap shallower. -/
def goesOnAt (s t : State) (pc rest : Nat) : Prop :=
  t.cur = s.cur ∧ t.curAgent.pc = pc ∧ t.curAgent.rest = rest ∧ t.curAgent.depth = s.curAgent.depth - 1 ∧ t.curAgent.lanes = s.curAgent.lanes
/-- The fragment is gone, and the agent it left has its lanes back and goes on at a PC. -/
def rejoined (s t : State) (p pc rest : Nat) : Prop :=
  t.cur = ⟨s.cur.team, p⟩ ∧ cellHas t.curTeam.agents s.cur.agent = false ∧ t.curAgent.status = .ready ∧ t.curAgent.pc = pc ∧ t.curAgent.rest = rest ∧
    t.curAgent.lanes = (s.curTeam.agent p).lanes ||| s.curAgent.lanes ∧ t.curAgent.view = (s.curTeam.agent p).view ||| s.curAgent.view


-- tret.complete (R275, R313).
/-- The state in which tret.complete performs the racing access: retired, with the frame's registers restored and the agent before the instruction that
raced. -/
def State.atRace (s : State) : State := ((s.retire {}).unframe (s.frame s.cur)).again (s.frame s.cur)
/-- The race that the hardware finds at an access. -/
def State.raceOf (s : State) (c : Acc) : Option Race := (s.judge s.linesNow c).1
/-- An access that a handler may complete: the hardware finds its race, or none is left; what it reads can be read, and is recorded. -/
def State.opens (s : State) (c : Acc) : Prop :=
  ((s.raceOf c).isSome = true ∨ s.raceFree c) ∧ (c.read = true → s.badAt c.place c.addr c.size = false) ∧ s.recorded c.place c.addr c.size
/-- The accessor's vector entry for the other party of a race has been raised to the stored clock (R275): to no more where the access neither acquires nor
releases. -/
def raised (s t : State) (c : Acc) : Prop :=
  ∀ r, s.raceOf c = some r →
    let x := r.other
    let entry (u : State) : Nat := (u.viewOf { c with gvec := ((u.team c.team).group c.group).vec, tvec := (u.team c.team).tvec } x.ident).1.toNat
    let clock := if bitsOf x.ident 5 13 = bitsOf c.ident 5 13 then x.gclk.toNat else x.tclk.toNat
    max (entry s) clock ≤ entry t ∧ (c.acq = none → c.rel = none → entry t = max (entry s) clock)
/-- A lane's write stands: in memory, or, in a determinate launch when it is unmarked, among its group's held writes (R301). -/
def stored (s t : State) (spot : Place × Nat) (marked : Bool) (bs : List Byte) : Prop :=
  if s.curLaunch.determinate = true ∧ marked = false then sameBytes s t ∧
    ∃ h, (t.curTeam.group s.curAgent.host).held = s.curGroup.held ++ [h] ∧ h.place = spot.1 ∧ h.addr = spot.2 ∧ h.bytes = bs
  else ∀ p a, t.peek p a = if s.covers spot bs.length p a then (bs[a - spot.2]?).getD 0 else s.peek p a
/-- tret.complete completes a lane instruction of format M for its one lane: the access ends by what done says, and the vector is raised. -/
def completesLane (s : State) (m : MemOp) (spaces : List Nat) (k : KReg) (regs : List Nat) (gl : Nat) (read write : Bool) (done : State → State → Prop) : Prop :=
  let v := s.atRace
  let c := m.acc v (v.laneLayout m.l) gl read write
  v.accessReady m.l m.slots spaces m.size k regs → v.curAgent.issued = none → v.swept 1024 → v.lanes k = [gl] → v.opens c →
    ∃ t, exec .tretComplete s = .next t ∧ onlyAccess v t ∧ sameScalars v t ∧ goesOn v t 1 ∧ raised v t c ∧ done v t
/-- The same of an agent's own access. -/
def completesOwn (s : State) (m : MArgs) (o : Ord) (n : Nat) (spaces : List Nat) (read write : Bool) (done : State → State → Prop) : Prop :=
  let v := s.atRace
  let l := v.laneLayout m.l
  let c := v.ownAcc m o n read write
  v.canIssue = true → v.curAgent.issued = none → mCheck l (v.handleOf m.l) m.slots spaces (fun _ => true) l.size = none → mRegs l m.slots = [] →
    v.ownAddr m % n = 0 → v.blockBounds l (v.mCoords l m.slots 0) n = none → v.stopArmed v.cur 2 = false → v.swept 1 → v.opens c →
    ∃ t, exec .tretComplete s = .next t ∧ onlyAccess v t ∧ (∀ gl r, t.vreg gl r = v.vreg gl r) ∧ goesOn v t 1 ∧ raised v t c ∧ done v t
/-- The struck element of a milestone instruction can be performed again for its one lane: the milestone names it, its records are those it was stopped with,
and its checks pass. -/
def Tile.reopens (T : Tile) (v : State) (ms i gl : Nat) (recs : List (Nat × BitVec 256)) : Prop :=
  ms % 2 ^ 8 = 0x80 + (T.op - 0x140) ∧ ms / 2 ^ 40 = i ∧ i < T.n ∧ v.curGroup.msRecords = recs ∧
    recs = T.descs.map (fun d => (v.handleOf d.l, (v.curTeam.record T.reader (v.handleOf d.l)).raw)) ∧
    T.check v (recs.map fun p => ⟨p.2⟩) = none ∧ v.regFault T.regs false = none ∧ v.lanes T.k = [gl] ∧
    (T.perLane = true → T.bounds v (recs.map fun p => ⟨p.2⟩) gl 0 T.n = none)
/-- tret.complete performs that element, and the instruction goes on from the next one. -/
def completesElement (s : State) (i : Nat) (recs : List (Nat × BitVec 256)) (done : State → State → Prop) : Prop :=
  let v := s.atRace
  ∃ t, exec .tretComplete s = .next t ∧ t.curAgent.progress = some (i + 1, recs) ∧ t.curAgent.pc = v.curAgent.pc ∧ t.curAgent.rest = v.curAgent.rest ∧
    sameScalars v t ∧ done v t
/-- One register of one lane has been written, and no byte. -/
def lanePut (s t : State) (gl d : Nat) (x : Word) : Prop :=
  sameBytes s t ∧ ∀ g r, t.vreg g r = if g = gl ∧ r = d then x else s.vreg g r

end Sys2Proof.Machine
end

