-- ==== Sys2Proof/Safety/Races.lean ====
section
/-! DEFINITION. What statements about accesses that fault or race are made of: the trap fragments that an instruction's lanes form, the races that the
hardware finds and their records, and the coverage losses. -/

namespace Sys2Proof.Machine

-- Faults of lanes (R117, R157).
/-- The team has room for n more trap fragments, of one group or of several, and none is held (R45, R114). -/
def Team.takesTraps (t : Team) (n : Nat) : Prop :=
  t.pendingTraps.length + n ≤ 112 ∧ (t.agents.filter fun p => p.2.holdsTrap).length + n ≤ 16 ∧ t.noneHeld
/-- The issuing agent has a lane, is not one that re-issues an instruction outside every region, and can form two fragments. -/
def State.takesFaults (s : State) : Prop :=
  s.canIssue = true ∧ s.agentsOk = true ∧ s.curTeam.own s.cur.agent (s.curTeam.k0Set s.cur.agent) ≠ 0 ∧ s.reissues = false ∧ s.curTeam.takesTraps 2
/-- Its instruction begins, and no watch stop is armed. -/
def State.begins (s : State) : Prop := s.takesFaults ∧ s.curAgent.issued = none ∧ s.curAgent.struck = [] ∧ s.stopArmed s.cur 2 = false
/-- Lanes of an instruction of n words have formed these trap fragments, in this order: the next agents of the team, which stand for the faults with the
instruction complete for its other lanes; a group outside every region goes on without those lanes once they are back (R117). -/
def formed (s t : State) (n : Nat) (l : List (LaneSet × Raise)) : Prop :=
  let x := s.curAgent
  (∀ j f, l[j]? = some f → let id := s.curTeam.nextAgent + j
    let y := t.curTeam.agent id
    cellHas t.curTeam.agents id = true ∧ y.kind = .trap (x.trapHome s.cur.agent).1 (x.trapHome s.cur.agent).2.1 ∧ y.host = x.host ∧ y.lanes = f.1 ∧
      t.curTeam.resolve y.k0 = f.1 ∧
      ∃ i, y.info = some i ∧ (i.kind, i.cause, i.d0, i.d1, i.ms, i.record) = (f.2.kind, f.2.cause, f.2.d0, f.2.d1, f.2.ms, f.2.record) ∧ i.lanes = f.1 ∧
        i.word = s.wordAt s.cur x.pc ∧ i.pc = x.pc ∧ i.rest = x.rest - n ∧ i.retired = true) ∧
  (x.kind = .group → x.stack = [] → t.curAgent.lanes = l.foldl (fun z f => z &&& ~~~f.1) x.lanes ∧ t.curAgent.status = .trapWait ∧ t.curAgent.pc = x.pc + n ∧
    t.curAgent.rest = x.rest - n)
/-- No byte of memory and no vector register has changed. -/
def sameData (s t : State) : Prop := sameBytes s t ∧ ∀ gl r, t.vreg gl r = s.vreg gl r

/-- n bytes from an address lie in the range of a space (R150), whose columns are bound (R226, R229). -/
def State.inRange (s : State) (space : Nat) (a : Int) (n : Nat) : Prop :=
  let bound (p : Nat) : Prop := (s.columnOf s.curTeam p).isSome = true
  (space = 0 → 0 ≤ a ∧ a + n ≤ s.curTeam.sharedSize) ∧ (space = 1 → 0 ≤ a ∧ a + n ≤ 2 ^ 22 ∧ bound s.curTeam.position) ∧
    (space = 2 → 0 ≤ a ∧ a < 2 ^ 26 ∧ a % 2 ^ 22 + n ≤ 2 ^ 22 ∧ bound (a.toNat / 2 ^ 22))
/-- An element of n bytes fails the bounds check in a dimension, the lowest that fails, or by its address, 4 (R150). -/
def State.fails (s : State) (l : Layout) (n : Nat) (cs : List Nat) (d : Nat) : Prop :=
  let beyond (j : Nat) : Prop := ∃ c, cs[j]? = some c ∧ bitsOf l.raw (64 + 16 * j) 16 ≤ c
  (beyond d ∧ ∀ j < d, ¬beyond j) ∨ (d = 4 ∧ (∀ j < cs.length, ¬beyond j) ∧ ¬s.inRange (bitsOf l.raw 62 2) (l.addr n cs) n)
def boundsRaise (d e : Nat) : Raise := { kind := 12, cause := 1, d0 := dw d, d1 := dw e }

/-- The whole checks of a lane instruction of format M, in their order: the record and the count of its slots, and then the registers (R157). -/
def lanesChecked (i : Instr) (s : State) (m : MemOp) (spaces : List Nat) (regs : List Nat) : Prop :=
  let l := s.laneLayout m.l
  let named := recordFault l.raw (s.handleOf m.l) spaces (codeSize (bitsOf l.raw 57 5) == m.size) m.size (m.slots.map zeroM)
  s.canIssue = true → s.curAgent.issued = none →
    (∀ f, named = some f → exec i s = .next (s.raise f)) ∧
    (∀ f, named = none → s.stopArmed s.cur 2 = false → s.regFault (regs ++ mRegs l m.slots) false = some f → exec i s = .next (s.raise f))
/-- Those checks pass, and out tells which members fail the bounds check. -/
def State.lanesPass (s : State) (m : MemOp) (spaces : List Nat) (k : KReg) (regs : List Nat) (out : Nat → Bool) : Prop :=
  let l := s.laneLayout m.l
  s.begins ∧ recordFault l.raw (s.handleOf m.l) spaces (codeSize (bitsOf l.raw 57 5) == m.size) m.size (m.slots.map zeroM) = none ∧
    s.regFault (regs ++ mRegs l m.slots) false = none ∧
    ∀ gl ∈ s.lanes k, out gl = true ↔ ∃ d, s.fails l m.size (s.mCoords l m.slots gl) d
/-- The fragment of the members that fail the bounds check, with the dimension of the lowest of them (log 127); none where all pass. -/
def State.boundsPart (s : State) (m : MemOp) (k : KReg) (out : Nat → Bool) (l : List (LaneSet × Raise)) : Prop :=
  let bad := (s.lanes k).filter out
  (bad = [] ∧ l = []) ∨ ∃ low d, low ∈ bad ∧ (∀ gl ∈ bad, low ≤ gl) ∧ s.fails (s.laneLayout m.l) m.size (s.mCoords (s.laneLayout m.l) m.slots low) d ∧
    l = [(laneUnion bad, boundsRaise d 0)]
/-- The members that fail the bounds check form one trap fragment, and the others make their accesses, with what done says. -/
def strikesBounds (i : Instr) (s : State) (m : MemOp) (spaces : List Nat) (k : KReg) (regs : List Nat) (ready : List Nat → Prop)
    (done : State → List Nat → Prop) : Prop :=
  ∀ out l, s.lanesPass m spaces k regs out → s.boundsPart m k out l → l ≠ [] → ready ((s.lanes k).filter fun gl => !out gl) →
    ∃ t, exec i s = .next t ∧ formed s t 1 l ∧ done t ((s.lanes k).filter fun gl => !out gl)
/-- What memory holds after the accesses of some lanes, made in turn (R159). -/
def turnsTaken (s t : State) (m : MemOp) (new : Nat → List Byte → Option (List Byte)) (lanes : List Nat) : Prop :=
  ∀ p a, t.peek p a = (s.inTurn (s.laneSpot (s.laneLayout m.l) m.size m.slots) m.size new (homeOrder lanes) s.peek).2 p a

-- Races (R251, R270, R272).
/-- The accessor's view of a stored party: by its group in its team, by its position in its cluster, and elsewhere by the module vector (R270). -/
def State.viewEntry (s : State) (c : Acc) (x : BitVec 18) : BitVec 20 :=
  if bitsOf x 5 13 = bitsOf c.ident 5 13 then cellGet 0 c.gvec (bitsOf x 0 5)
  else if bitsOf x 9 9 = bitsOf c.ident 9 9 then cellGet 0 c.tvec (bitsOf x 5 4)
  else cellGet 0 (cellGet blankEntry (s.team c.team).modvec (bitsOf x 9 9)).tclks (bitsOf x 5 4)
/-- The stored clock of the same level, and its party's floor. -/
def Stored.clockFor (x : Stored) (c : Acc) : BitVec 20 := if bitsOf x.ident 5 13 = bitsOf c.ident 5 13 then x.gclk else x.tclk
def State.floorFor (s : State) (c : Acc) (x : Stored) : BitVec 20 :=
  let f := cellGet (0, 0) s.floors x.ident.toNat
  if bitsOf x.ident 5 13 = bitsOf c.ident 5 13 then f.1 else f.2
/-- Clocks compare for a stored access of another party, or of an engine, that lies above its floor. -/
def State.compares (s : State) (c : Acc) (x : Stored) : Prop :=
  x.ident ≠ 0x3FFFF ∧ (s.floorFor c x).toNat < (x.clockFor c).toNat ∧ ¬(x.ident = c.ident ∧ x.engine = false)
/-- It is not ordered before the access. -/
def State.unordered (s : State) (c : Acc) (x : Stored) : Prop := s.compares c x ∧ 2 ^ 19 ≤ (s.viewEntry c x.ident - x.clockFor c).toNat
/-- An event stands for a stored access, belongs to another agent, and is not ordered before the access (R251). -/
def Acc.meets (c : Acc) (x : Stored) (ev : Nat) (marked : Bool) (w : Who) : Prop :=
  w.ident = x.ident ∧ w.clock = x.gclk ∧ w.engine.isSome = x.engine ∧ ¬(w.team = c.team ∧ w.agent = c.agent) ∧ inView c.view ev = false ∧
    ¬(marked = true ∧ c.marked = true)
/-- A granule of an access in its first line. -/
def Acc.granule (c : Acc) (g : Nat) : Prop := c.addr / 16 ≤ g ∧ g ≤ (c.addr + c.size - 1) / 16 ∧ g / 4 = c.addr / 64
/-- A stored access of a granule is checked: marks do not exempt it, nor a full/empty form. -/
def Acc.checked (c : Acc) (g : Nat) (x : Stored) : Prop :=
  c.granule g ∧ x.mask.testBit (g % 4) = true ∧ c.ident ≠ 0x3FFFF ∧ c.fe = false ∧ ¬(x.scope ≠ 0 ∧ c.marked = true)
/-- The hardware finds a lane's access racing, at a granule of its first line: with the line's writer, or, for a write that no racing writer opposes, with its
first reader epoch. -/
def State.finds (s : State) (c : Acc) (kind : Nat) (x : Stored) : Prop :=
  let m := s.metaAt c.place (c.addr / 64)
  ∃ g, c.checked g x ∧ s.unordered c x ∧
    ((x = m.stored ∧ kind = (if c.read then 0 else 1) ∧ ∃ a w, a / 16 = g ∧ w ∈ s.histAt c.place a ∧ c.meets x w.ev w.marked w.who) ∨
     (c.write = true ∧ kind = 2 ∧ (∀ h, c.granule h → m.wmask.toNat.testBit (h % 4) = false) ∧
       s.storedReader (s.placeTower c.place (c.addr / 64 * 64)) m.reader0 = some x ∧ ∃ r, r ∈ s.readsAt c.place g ∧ c.meets x r.ev r.marked r.who))
/-- A line as records and faults name it. -/
def Acc.lineName (c : Acc) : Nat := c.addr / 64 * 64 + match c.place with
  | .column _ col => col * 2 ^ 58
  | _ => 0
/-- The race record of a lane's access (R276). -/
def State.recordIs (s : State) (r : BitVec 1024) (c : Acc) (kind : Nat) (x : Stored) (trapped : Bool) : Prop :=
  let f (lo n : Nat) : Nat := bitsOf r lo n
  f 0 16 = kind + (if trapped then 4 else 0) + (if (s.holder x.ident).isSome then 0 else 8) ∧
    f 16 4 = (if c.write then (if c.read then 2 else 1) else 0) ∧ f 20 4 = (if x.engine then (if x.write then 4 else 3) else if x.write then 1 else 0) ∧
    f 24 4 = c.mask (c.addr / 64) % 16 ∧ f 28 4 = x.mask % 16 ∧ f 32 4 = c.scope % 16 ∧ f 36 4 = x.scope.toNat ∧
    f 40 8 = (match c.place with | .shared _ => 0 | .column _ _ => 1 | _ => 2) ∧ f 48 8 = c.handle % 128 ∧ f 56 8 = c.lane % 2 ^ 8 ∧
    (∀ j < 4, f (64 + 16 * j) 16 = (c.coords[j]?).getD 0 % 2 ^ 16) ∧ f 128 64 = c.lineName % 2 ^ 64 ∧ f 192 64 = (c.pc + min c.elem 255 * 2 ^ 32) % 2 ^ 64 ∧
    f 256 192 = bytesWord (s.nameOf c.team c.group) ∧
    f 448 192 = bytesWord (match s.holder x.ident with | some h => s.nameOf h.1 (bitsOf x.ident 0 5) | none => nameBytes 0 0 0 (bitsOf x.ident 0 5)) ∧
    f 640 64 = c.clocks.group.toNat + c.clocks.team.toNat * 2 ^ 20 + c.clocks.epoch.toNat * 2 ^ 40 ∧
    f 704 64 = x.gclk.toNat + x.tclk.toNat * 2 ^ 20 + x.ident.toNat * 2 ^ 40 ∧
    f 768 64 = c.ident.toNat + (s.viewEntry c x.ident).toNat * 2 ^ 18 ∧
    f 832 64 = (s.launch (s.team c.team).launch).sequence % 2 ^ 64 ∧ f 896 128 = 0

/-- The storage-error fault of an access (R156, R310). -/
def Acc.storage (c : Acc) (ms : DWord) : Raise :=
  { kind := 14, cause := match c.place with | .column _ _ => 2 | _ => 1, d0 := dw c.lineName, d1 := dw c.elem, ms := ms }
/-- In a trap mode a racing access is not performed: its lane takes the race fault with the record, which counts in its launch (R275); a row that cannot be
read is a storage error (R156). The fragment stands behind those of its instruction that are formed before. -/
def takesFault (i : Instr) (s : State) (n : Nat) (c : Acc) (gl : Nat) (ms : DWord) (before : List (LaneSet × Raise)) : Prop :=
  let li := s.curTeam.launch
  (2 ≤ (s.curTeam.group c.group).rmode.toNat → cellHas s.launches li = true → ∀ kind x, s.finds c kind x →
    ∃ t r, exec i s = .next t ∧ sameData s t ∧ s.recordIs r c kind x true ∧ (t.launch li).sequence = (s.launch li).sequence + 1 ∧
      formed s t n (before ++ [(laneUnion [gl], { kind := 13, ms := ms, record := r })])) ∧
  (c.read = true → s.raceFree c → s.badAt c.place c.addr c.size = true →
    ∃ t, exec i s = .next t ∧ sameData s t ∧ formed s t n (before ++ [(laneUnion [gl], c.storage ms)]))
/-- The same for the one member of a lane instruction that passes the bounds check, behind the fragment of those that fail it. -/
def strikesLane (i : Instr) (s : State) (m : MemOp) (spaces : List Nat) (k : KReg) (regs : List Nat) (read write : Bool) : Prop :=
  ∀ out l gl, s.lanesPass m spaces k regs out → s.boundsPart m k out l → ((s.lanes k).filter fun gl => !out gl) = [gl] →
    takesFault i s 1 (m.acc s (s.laneLayout m.l) gl read write) gl 0 l

/-- In report mode the access is performed, and its record appended to the race log ring, behind which the producer index moves; where the ring is full the
record is dropped and counted (R276). done: what the access leaves elsewhere than in main memory. -/
def reports (i : Instr) (s : State) (c : Acc) (done : State → Prop) : Prop :=
  let li := s.curTeam.launch
  let l := s.launch li
  (s.curTeam.group c.group).rmode = 1 → cellHas s.launches li = true → (c.read = true → s.badAt c.place c.addr c.size = false) →
    ∀ kind x u idx, s.finds c kind x → s.devRead l.vi l.ring 16 = .ok (u, idx) →
      let p := bytesWord (idx.take 8)
      let q := bytesWord (idx.drop 8)
      let old := cellGet 0 l.counters 9
      (2 ^ l.ringLog ≤ p - q → ∃ t, exec i s = .next t ∧ done t ∧ t.main = s.main ∧
        cellGet 0 (t.launch li).counters 9 = (if old = 0xFFFFFFFF then old else old + 1)) ∧
      (p - q < 2 ^ l.ringLog → ∃ r, s.recordIs r c kind x false ∧
        ∀ v w, s.devWrite l.vi (l.ring + 128 + 128 * (p % 2 ^ l.ringLog)) (wordBytes r.toNat 128) = .ok v →
          v.devWrite l.vi l.ring (wordBytes (p + 1) 8) = .ok w →
          ∃ t, exec i s = .next t ∧ done t ∧ t.main = w.main ∧ (t.launch li).records = l.records + 1 ∧ (t.launch li).sequence = l.sequence + 1)
/-- Bytes that a racing read may return (R252): each that of a write that no other write in the reader's view overtakes, where there is one. -/
def State.mayRead (s : State) (c : Acc) (bs : List Byte) : Prop :=
  bs.length = c.size ∧ ∀ i < c.size, let h := s.histAt c.place (c.addr + i)
    (h = [] → bs[i]? = some (s.peek c.place (c.addr + i))) ∧
    let fresh (w : ByteWrite) : Prop := ∀ x ∈ h, inView c.view x.ev = true → x.ev ≠ w.ev → inView x.view w.ev = false
    ((∃ w ∈ h, fresh w) → ∃ w ∈ h, bs[i]? = some w.val ∧ fresh w)

-- Coverage losses (R274).
/-- A counter of the issuing agent's launch has counted one loss. -/
def lost (s t : State) (n : Nat) : Prop :=
  let old := cellGet 0 s.curLaunch.counters n
  cellGet 0 (t.launch s.curTeam.launch).counters n = if old = 0xFFFFFFFF then old else old + 1
def kept (s t : State) (n : Nat) : Prop := cellGet 0 (t.launch s.curTeam.launch).counters n = cellGet 0 s.curLaunch.counters n
/-- What a plain write counts: a set overflow bit that it meets, and other granules of an unordered writer that its line forgets. -/
def writeLosses (s t : State) (c : Acc) : Prop :=
  let m := s.metaAt c.place (c.addr / 64)
  let forgets : Prop := ¬(m.writer = c.ident ∧ m.wgclk = c.clocks.group) ∧ s.unordered c m.stored ∧
    ∃ b < 4, m.wmask.toNat.testBit b = true ∧ ∀ g, c.granule g → g % 4 ≠ b
  (m.overflow = true → lost s t 0) ∧ (m.overflow = false → kept s t 0) ∧ (forgets → lost s t 4) ∧ (¬forgets → kept s t 4)
/-- What a plain read counts against the writer of its granule: an order by the clock window alone; a trap fragment and its remainder; an order by team
clock where the writer's group has made no release at cluster scope or wider. -/
def readLosses (s t : State) (c : Acc) : Prop :=
  let x := (s.metaAt c.place (c.addr / 64)).stored
  let v := s.viewEntry c x.ident
  let others : Prop := ∃ a w, a / 64 = c.addr / 64 ∧ c.granule (a / 16) ∧ x.mask.testBit (a / 16 % 4) = true ∧ w ∈ s.histAt c.place a ∧ w.who.ident = x.ident ∧
    w.who.clock = x.gclk ∧ w.who.engine.isSome = x.engine ∧ ¬(w.who.team = c.team ∧ w.who.agent = c.agent)
  ∀ g, c.checked g x →
    (others → s.compares c x → (v - x.clockFor c).toNat < 2 ^ 19 → v.toNat < (x.clockFor c).toNat → lost s t 2) ∧
    (x.ident = c.ident → x.ident ≠ 0x3FFFF → x.engine = false → (∃ a w, a / 16 = g ∧ w ∈ s.histAt c.place a ∧ c.meets x w.ev w.marked w.who) →
      lost s t 5) ∧
    (others → s.compares c x → (v - x.clockFor c).toNat < 2 ^ 19 → bitsOf x.ident 5 13 ≠ bitsOf c.ident 5 13 →
      (∃ h, s.holder x.ident = some h ∧ ((s.team h.1).group h.2).wide = none) → lost s t 7)

-- Accesses of an agent as a whole (R104, R168).
/-- The whole checks of an agent's own access of n bytes, in their order: the record and its count, the registers, the alignment and the bounds. -/
def ownChecked (i : Instr) (s : State) (m : MArgs) (n : Nat) (spaces : List Nat) (early : Prop) : Prop :=
  let l := s.laneLayout m.l
  let h := s.handleOf m.l
  let named := recordFault l.raw h spaces true (codeSize (bitsOf l.raw 57 5)) (m.slots.map zeroM)
  s.canIssue = true → s.curAgent.issued = none →
    (∀ f, named = some f → exec i s = .next (s.raise f)) ∧
    (named = none → s.stopArmed s.cur 2 = false →
      (mRegs l m.slots ≠ [] → exec i s = .next (s.raise { kind := 1, cause := 6 })) ∧
      (mRegs l m.slots = [] →
        (s.ownAddr m % n ≠ 0 → exec i s = .next (s.raise (layoutFaultOf 6 h))) ∧
        (s.ownAddr m % n = 0 → early → ∀ d,
          ((∃ c, (s.mCoords l m.slots 0)[d]? = some c ∧ bitsOf l.raw (64 + 16 * d) 16 ≤ c) ∧
              (∀ j < d, ∀ c, (s.mCoords l m.slots 0)[j]? = some c → c < bitsOf l.raw (64 + 16 * j) 16)) ∨
            (d = 4 ∧ (∀ j c, (s.mCoords l m.slots 0)[j]? = some c → c < bitsOf l.raw (64 + 16 * j) 16) ∧
              ¬s.inRange (bitsOf l.raw 62 2) (s.ownAddr m) n) →
          exec i s = .next (s.raise { kind := 12, cause := 2, d0 := dw d }))))
/-- An agent's own access that races under a trap mode, or reads a row that cannot be read, is a whole fault of its agent (log 128). -/
def strikesOwn (i : Instr) (s : State) (m : MArgs) (o : Ord) (n : Nat) (spaces : List Nat) (read write : Bool) : Prop :=
  let l := s.laneLayout m.l
  let c := s.ownAcc m o n read write
  let li := s.curTeam.launch
  let raises (f : Raise) (seq : Nat) : Prop := ∃ u, exec i s = .next (u.raise f) ∧ sameBytes s u ∧ sameValues s u ∧ (u.launch li).sequence = seq
  s.canIssue = true → s.curAgent.issued = none → mCheck l (s.handleOf m.l) m.slots spaces (fun _ => true) l.size = none → mRegs l m.slots = [] →
    s.ownAddr m % n = 0 → s.blockBounds l (s.mCoords l m.slots 0) n = none → s.stopArmed s.cur 2 = false →
    (2 ≤ (s.curTeam.group c.group).rmode.toNat → cellHas s.launches li = true → ∀ kind x, s.finds c kind x →
      ∃ r, s.recordIs r c kind x true ∧ raises { kind := 13, record := r } ((s.launch li).sequence + 1)) ∧
    (read = true → s.raceFree c → s.badAt c.place c.addr c.size = true → raises (c.storage 0) (s.launch li).sequence)

-- Milestone instructions (R163, R315).
/-- The record check of a descriptor of a milestone instruction (R148, R149). -/
def descFault (s : State) (r : Reader) (d : Desc) (spaces : List Nat) (elem : BitVec 256 → Bool) : Option Raise :=
  let x := (s.curTeam.record r (s.handleOf d.l)).raw
  recordFault x (s.handleOf d.l) spaces (elem x) (codeSize (bitsOf x 57 5)) (d.slots.map zeroD)
/-- A milestone instruction that starts afresh raises the first fault of its records, and else the first whole fault of the checks that follow. -/
def milestoneChecked (i : Instr) (s : State) (named after : Option Raise) : Prop :=
  s.canIssue = true → s.curAgent.progress = none → s.curGroup.ms = 0 →
    (∀ f, named = some f → exec i s = .next (s.raise f)) ∧
    (∀ f, named = none → s.stopArmed s.cur 2 = false → after = some f → exec i s = .next (s.raise f))
/-- Lanes that all fail the bounds check form one trap fragment, with the dimension and element of the lowest of them (R150, log 127). -/
def Tile.strikesAll (T : Tile) (i : Instr) (s : State) : Prop :=
  let recs := T.descs.map fun d => (s.handleOf d.l, (s.curTeam.record T.reader (s.handleOf d.l)).raw)
  let ls := recs.map fun p => (⟨p.2⟩ : Layout)
  let first (gl e d : Nat) : Prop := e < T.n ∧
    (∃ (j : Nat) (p : Layout × Nat × List Nat × Nat), (T.spots s ls e gl)[j]? = some p ∧ s.fails p.1 p.1.size p.2.2.1 d ∧
      ∀ h < j, ∀ q : Layout × Nat × List Nat × Nat, (T.spots s ls e gl)[h]? = some q → ∀ d, ¬s.fails q.1 q.1.size q.2.2.1 d) ∧
    ∀ a < e, ∀ q ∈ T.spots s ls a gl, ∀ d, ¬s.fails q.1 q.1.size q.2.2.1 d
  s.begins → T.perLane = true → s.curAgent.progress = none → s.curGroup.ms = 0 → T.check s ls = none → s.regFault T.regs false = none → s.lanes T.k ≠ [] →
    (∀ gl ∈ s.lanes T.k, ∃ e d, first gl e d) → ∀ low e d, low ∈ s.lanes T.k → (∀ gl ∈ s.lanes T.k, low ≤ gl) → first low e d →
    ∃ t, Machine.exec i s = .next t ∧ sameData s t ∧ formed s t 2 [(laneUnion (s.lanes T.k), boundsRaise d e)]
/-- The whole bounds check of rows (R233): the dimension that fails, or 4 for the address range. -/
def rowsFail (f : LayerArgs) (s : State) (l : Layout) (d : Nat) : Prop :=
  let c (j : Nat) : Nat := ((s.dCoords l f.desc)[j]?).getD 0
  let e (j : Nat) : Nat := bitsOf l.raw (64 + 16 * j) 16
  let q := 128 / l.size
  let n := bitsOf l.raw 55 2 + 1
  let beyond (j : Nat) : Prop := (j = 0 ∧ e 0 < c 0 + (if n = 1 then q * f.n.toNat else q)) ∨ (j = 1 ∧ 1 < n ∧ e 1 ≤ c 1 + f.n.toNat - 1) ∨ (2 ≤ j ∧ j < n ∧ e j ≤ c j)
  (beyond d ∧ ∀ j < d, ¬beyond j) ∨
    (d = 4 ∧ (∀ j < 4, ¬beyond j) ∧ ¬∀ i < f.n.toNat, s.inRange (bitsOf l.raw 62 2) (l.addr l.size (rowCoords f s l i)) 128)
/-- The milestone of an element (R315). -/
def Tile.milestone (T : Tile) (s : State) (e : Nat) : DWord := dw (0x80 + (T.op - 0x140) + s.curAgent.pc * 2 ^ 8 + e * 2 ^ 40)
/-- The one member of a milestone instruction faults at element e, whose milestone its fragment has. -/
def Tile.strikes (T : Tile) (i : Instr) (s : State) (e : Nat) (recs : List (Nat × BitVec 256)) (gl : Nat) (c : Acc) : Prop :=
  s.takesFaults → s.curAgent.struck = [] → s.curAgent.before = [] → T.at s e recs → s.lanes T.k = [gl] → T.out s recs gl = false →
    takesFault i s 2 c gl (T.milestone s e) []

end Sys2Proof.Machine
end

