-- ==== Sys2Proof/Safety/World.lean ====
section
/-! DEFINITION. What statements about the device's own accesses and records are made of: the bytes that an interface reaches through cached
translations, completion and trace records, and what an event leaves as it was. -/

namespace Sys2Proof.Machine

/-- A cached translation of an interface, of a page of 64 KiB or more, lets the device read, or write, a virtual address (R317, R329), and memory of this module stands there (R325). -/
def State.reaches (s : State) (vi a : Nat) (write : Bool) : Prop :=
  a < 2 ^ 48 ∧ ∃ x, ((s.vi vi).tlb.find? fun x => x.1 == a / 2 ^ x.2.1) = some x ∧ 16 ≤ x.2.1 ∧ bitsOf x.2.2 (if write then 2 else 3) 1 = 1 ∧
    let pa := bitsOf x.2.2 12 36 * 2 ^ 12 + a % 2 ^ x.2.1
    pa < 2 ^ 47 ∧ s.populated pa = true
/-- The physical address of a virtual one, and the key slot. -/
def State.phys (s : State) (vi a : Nat) : Nat × Nat :=
  match s.translate vi a true with
  | .ok p => p
  | .error _ => (0, 0)
/-- Bytes from an address upward. -/
def bytesFrom (a : Nat) (bs : List Byte) : List (Nat × Byte) := bs.zipIdx.map fun x => (a + x.2, x.1)
/-- The device can write bytes at virtual addresses: each through a cached translation that allows it, none in a code word (R37), no two in one place, and
with one key for the bytes of a line. -/
def State.writable (s : State) (vi : Nat) (l : List (Nat × Byte)) : Prop :=
  (∀ x ∈ l, s.reaches vi x.1 true ∧ s.inCode (s.phys vi x.1).1 1 = false) ∧ (l.map fun x => (s.phys vi x.1).1).Nodup ∧
    ∀ x ∈ l, ∀ y ∈ l, (s.phys vi x.1).1 / 64 = (s.phys vi y.1).1 / 64 → s.keyOf (s.phys vi x.1).2 = s.keyOf (s.phys vi y.1).2
/-- The bytes stand in main memory, each under its key, and every other byte is as before, but for those of a line that stood under another key
(R330). -/
def wrote (s t : State) (vi : Nat) (l : List (Nat × Byte)) : Prop :=
  (∀ x ∈ l, let p := s.phys vi x.1; t.readKeyed p.2 p.1 = x.2) ∧
    ∀ a, (∀ x ∈ l, let p := s.phys vi x.1; p.1 ≠ a ∧ (p.1 / 64 = a / 64 → cellGet 0 s.lineKeys (a / 64) = s.keyOf p.2)) → t.peek .main a = s.peek .main a
/-- Nothing of an interface has changed but its indices, its interrupt bits, its traffic counters, its block counters, and its trace. -/
def Vi.counted (v w : Vi) : Prop :=
  { w with consumer := v.consumer, irq := v.irq, mt := v.mt, counters := v.counters, wmProd := v.wmProd, wmDropped := v.wmDropped } = v
/-- Nothing has changed but main memory and what interfaces count. -/
def deviceFrame (s t : State) : Prop :=
  { t with main := s.main, lineKeys := s.lineKeys, mainHist := s.mainHist, vis := s.vis } = s ∧ ∀ v, (s.vi v).counted (t.vi v)

/-- A trace record (R337): kind, flags, core, clock, voltage, tick, name, payload. -/
def State.traceRecord (s : State) (kind flags core : Nat) (name payload : List Byte) : List Byte :=
  let mhz := (s.core core).mhz
  (wordBytes kind 1 ++ wordBytes flags 1 ++ wordBytes core 2 ++ wordBytes mhz 2 ++ wordBytes (Config.millivolts mhz).toNat 2 ++
    wordBytes s.tick 8 ++ name ++ payload ++ List.replicate 24 0).take 64
/-- The records that a record with some bytes puts into the ring of an interface: a drop record comes first after drops. -/
def State.traceRecords (s : State) (vi flags core : Nat) (name record : List Byte) : List (List Byte) :=
  if (s.vi vi).wmDropped = 0 then [record] else [s.traceRecord 8 flags core name (wordBytes (s.vi vi).wmDropped 4), record]
/-- The bytes written with them: each record at its slot, and the producer index below the ring. -/
def State.traceWrites (s : State) (vi : Nat) (records : List (List Byte)) : List (Nat × Byte) :=
  let v := s.vi vi
  let base := bitsOf v.wmRing 12 52 * 2 ^ 12
  (records.zipIdx.flatMap fun r => bytesFrom (base + 64 * ((v.wmProd.toNat + r.2) % 2 ^ 32 % 2 ^ bitsOf v.wmRing 0 5)) r.1) ++
    bytesFrom ((base + 2 ^ 64 - 16) % 2 ^ 64) (wordBytes ((v.wmProd.toNat + records.length) % 2 ^ 32) 8)
/-- The trace of an interface is active (R335). -/
def Vi.traces (v : Vi) : Prop := bitsOf v.wmCtl 0 1 = 1 ∧ 4 ≤ bitsOf v.wmRing 0 5 ∧ bitsOf v.wmRing 0 5 ≤ 20
/-- Its ring takes one more record, after a drop record where records were dropped (R337): neither of them finds the ring full. -/
def Vi.takes (v : Vi) : Prop :=
  (v.wmProd - v.wmCons).toNat ≠ 2 ^ bitsOf v.wmRing 0 5 ∧ (v.wmDropped ≠ 0 → (v.wmProd + 1 - v.wmCons).toNat ≠ 2 ^ bitsOf v.wmRing 0 5)

end Sys2Proof.Machine
end

