-- ==== Sys2Proof/Certificates/Slice0/Obligations.lean ====
section
/-! DEFINITION. The statements about the model, in the order: encodings, the step, invariants, and the instruction families. -/

open Sys2Proof Sys2Proof.Machine Sys2Proof.Claims

-- Encodings.
/-- The decoder reads every well-formed instruction back from its code words, with every operand (R19 to R36). -/
def Obligations.DecodeOfEncode : Prop :=
  ∀ i : Instr, i.wf = true → encode i ≠ [] → (encode i).length = i.words ∧ decode ((encode i).headD 0) (encode i)[1]? = .ok i

/-- What the decoder accepts is well-formed, and is the only code word, or pair of code words, of its instruction: no bit is dropped. -/
def Obligations.EncodeOfDecode : Prop :=
  ∀ (w e : DWord) (i : Instr), decode w (some e) = .ok i → i.wf = true ∧ encode i = [w, e].take i.words

-- The step.
/-- When the schedule gives the turn to an agent that may move, no stop holds it, it stands inside a block, and the words at its PC decode to an instruction,
the step is exec of that instruction in the state of the turn, in which the spill lines it uses are the most recent of its core's open pool; in a determinate
launch, when the instruction ends no leg. A turn given to one lane of an agent makes that lane's access alone (R242); one given to an event is exec of that
event; one given to the outside world is what the world does. Taking a turn moves the schedule and the tick on, and notes when groups were last not eligible
(R136). Where the spec leaves a point open, this states the model's choice: logs 1, 101 and 117. -/
def Obligations.StepRunsTurns : Prop :=
  (∀ (s : State) (ticks : Nat) (a : AgentRef) (rest : List Turn) (i : Instr),
     s.schedule = ⟨ticks, .agent a⟩ :: rest →
     let u : State := { s.pass ticks rest with cur := a }
     u.mayMove = true → u.atPcStop = false → u.curAgent.rest ≠ 0 →
     (∃ w, u.codeWord u.curTeam u.curAgent.pc = .ok w ∧
       ((i.words = 1 ∧ decode w none = .ok i) ∨
         (i.words = 2 ∧ 2 ≤ u.curAgent.rest ∧ ∃ e, u.codeWord u.curTeam (u.curAgent.pc + 1) = .ok e ∧ decode w (some e) = .ok i))) →
     (u.curLaunch.determinate = true → u.curAgent.progress.isSome = true ∨ u.endsLeg i = false) →
     step s = exec i (u.useLines a i)) ∧
  (∀ (s : State) (ticks : Nat) (rest : List Turn),
     (∀ a gl, s.schedule = ⟨ticks, .lane a gl⟩ :: rest → step s = .next ((s.pass ticks rest).laneMove a gl)) ∧
     (∀ i, isEvent i = true → s.schedule = ⟨ticks, .event i⟩ :: rest → step s = exec i (s.pass ticks rest)) ∧
     (∀ w, s.schedule = ⟨ticks, .world w⟩ :: rest → step s = .next ((s.pass ticks rest).world w)) ∧
     { s.pass ticks rest with teams := s.teams } = { s with schedule := rest, tick := s.tick + ticks } ∧
     (s.pass ticks rest).teams.map (·.1) = s.teams.map (·.1) ∧
     ∀ id, { (s.pass ticks rest).team id with groups := [] } = { s.team id with groups := [] } ∧
       ∀ g, { ((s.pass ticks rest).team id).group g with idleAt := 0 } = { (s.team id).group g with idleAt := 0 })

/-- An agent that has issued the last word of its block falls through (R31): a header with a length other than 0 is consumed, which adds to its counter when
the header and wm.ctl say so; any other word, and the end of a kernel, is an illegal-instruction fault with cause 2. Where the spec leaves a point open, this
states the model's choice: log 100. -/
def Obligations.FallThroughConsumesHeader : Prop :=
  ∀ (s : State) (ticks : Nat) (a : AgentRef) (rest : List Turn), s.schedule = ⟨ticks, .agent a⟩ :: rest →
    let u : State := { s.pass ticks rest with cur := a }
    let pc := u.curAgent.pc
    u.mayMove = true → u.atPcStop = false → u.curAgent.rest = 0 →
    (∀ h, u.kernelEnds u.curTeam pc = false → u.headerAt u.curTeam pc = some h → hdrLength h ≠ 0 →
      ∃ t, step s = .next t ∧ t.curAgent = { u.curAgent with pc := pc + 1, rest := hdrLength h } ∧ t.main = u.main ∧
        (∀ v, (t.vi v).counters = if v = u.viOf u.curTeam ∧ hdrCen h = true ∧ bitsOf (u.vi v).wmCtl 1 1 = 1 then
          cellSet 0 (u.vi v).counters (hdrCidx h) (cellGet 0 (u.vi v).counters (hdrCidx h) + 1) else (u.vi v).counters)) ∧
    ((u.kernelEnds u.curTeam pc = true ∨ (∃ w, u.codeWord u.curTeam pc = .ok w) ∧ ∀ h, u.headerAt u.curTeam pc = some h → hdrLength h = 0) →
      step s = .next (u.raiseAt a (illegal 2) true))

/-- Every step of every state answers a next state: no state stops the machine, with a fault or a refusal. Where the spec leaves a point open, this states the
model's choice: log 6. -/
def Obligations.StepAlwaysAnswers : Prop := ∀ s : State, ∃ t, step s = .next t

-- Invariants.
/-- Main memory, every team's shared memory and spill stacks, and every overpass column stay in canonical form: addresses strictly rise, and no entry holds
what an unlisted address reads as. -/
def Obligations.MemoriesStayCanonical : Prop :=
  ∀ s t : State, s.main.wf = true → s.teamMemoryOk = true → step s = .next t → t.main.wf = true ∧ t.teamMemoryOk = true

/-- The spill pointers of a team stay within their region, 0x8400 to 0xC000 (R47), while it is not evicted, when system software may write its image; the
agents of every team have numbers below the next one the team gives out, and no node of a loaded object has more than 32 groups. Where the spec leaves a point
open, this states the model's choice: logs 83 and 90. -/
def Obligations.SpillPointersAndAgentNumbersStay : Prop :=
  ∀ s t : State, step s = .next t →
    (∀ id, (s.team id).status ≠ .evicted → (s.team id).spillPointersOk = true → (t.team id).spillPointersOk = true) ∧
      (s.agentsOk = true → t.agentsOk = true)

/-- The state after reset: every memory is in canonical form and main memory lists nothing, no team, launch, interface or request exists, the tick and the
error log are at their start, and all 24 ports are in use. Where the spec leaves a point open, this states the model's choice: logs 3 and 10. -/
def Obligations.ResetState : Prop :=
  State.reset.main = [] ∧ State.reset.main.wf = true ∧ State.reset.teamMemoryOk = true ∧ State.reset.spillPointersOk = true ∧
    State.reset.agentsOk = true ∧
    State.reset.teams = [] ∧ State.reset.launches = [] ∧ State.reset.vis = [] ∧ State.reset.requests = [] ∧ State.reset.keys = [] ∧
    State.reset.tick = 0 ∧ State.reset.errorLog = [] ∧ State.reset.ports = List.range 24

/-- Three words from the worked encodings of chapter 02 decode as they say, and the headers of negate and sumup have the fields they say. -/
def Obligations.WorkedEncodings : Prop :=
  decodeTableWord 64 0x1480418040000002 = some (.test .lt .n32 0 6 1 (.imm 2)) ∧
    decodeTableWord 64 0x1480018040000000 = some (.test .lt .n32 0 6 1 (.v 0)) ∧
    decodeTableWord 64 0x9100810080040000 = some (.ld .s16 0 2 ⟨1, .handle 1, 0, .v 1, .v 0, .v 0⟩) ∧
    hdrLength 0xFF80400020006000 = 2 ∧ hdrLive 0xFF80400020006000 = 1 ∧ hdrCont 0xFF80400020006000 = 3 ∧ hdrCen 0xFF80400020006000 = false ∧
    hdrLength 0xFF811FFFE0000403 = 8 ∧ hdrLive 0xFF811FFFE0000403 = 0xFFFF ∧ hdrCont 0xFF811FFFE0000403 = 0 ∧
    hdrCen 0xFF811FFFE0000403 = true ∧ hdrCidx 0xFF811FFFE0000403 = 3

-- Issue checks.
/-- The faults over the vector registers an instruction names, in their order (R130, R112, R98, R193): a register at or past the budget is an illegal
instruction with cause 6, a register outside the live mask of a team region is region fault 2, a scalar destination in a team region is region fault 3, and a
pending matrix operand is fault 16. A lane or scalar-destination instruction that meets one takes no effect but that fault. Where the spec leaves a point
open, this states the model's choice: log 26. -/
def Obligations.RegisterFaultsInOrder : Prop :=
  ∀ (s : State) (k : KReg) (d a : VReg) (e : SReg), s.canIssue = true →
    let budget := s.budgetOf s.cur
    let use (l : List Nat) : Bool := l.all fun r => decide (r < budget)
    (use [d.toNat, a.toNat] = false → exec (.shflNx k d a) s = .next (s.raise (illegal 6))) ∧
    (use [a.toNat] = false → exec (.bcastScalar k e a (.lit 0)) s = .next (s.raise (illegal 6))) ∧
    (∀ m b, s.curAgent.live = some (m, b) → use [d.toNat, a.toNat] = true →
      (m.getLsbD (d.toNat / 16) = false → exec (.shflNx k d a) s = .next (s.raise (regionFault 2 (dw d.toNat)))) ∧
      (m.getLsbD (d.toNat / 16) = true → m.getLsbD (a.toNat / 16) = false →
        exec (.shflNx k d a) s = .next (s.raise (regionFault 2 (dw a.toNat)))) ∧
      (m.getLsbD (a.toNat / 16) = true → exec (.bcastScalar k e a (.lit 0)) s = .next (s.raise (regionFault 3 0)))) ∧
    (∀ p, (s.curAgent.live = none ∨ ∃ m b, s.curAgent.live = some (m, b) ∧ m.getLsbD (d.toNat / 16) = true ∧ m.getLsbD (a.toNat / 16) = true) →
      use [d.toNat, a.toNat] = true → s.curTeam.pendingOn s.curAgent.host [d.toNat, a.toNat] = some p →
      exec (.shflNx k d a) s = .next (s.raise { kind := 16, d0 := dw p.1, d1 := dw p.2.toNat }))

-- Integers.
/-- The one-source, two-source and three-source integer instructions and prm, in every lane and scalar form (R73, R74, R79, R80, R81); and the byte that each
nibble of B selects in prm. -/
def Obligations.IntegerResults : Prop :=
  (∀ p ∈ int2Table, ∀ s : State,
     (∀ (k : KReg) (d a : VReg) (b : LaneSrc), s.ready (d.toNat :: a.toNat :: b.regs) false →
       laneCompletes (p.1 (.lane k d a b)) s k d fun gl => p.2 32 (s.vreg gl a.toNat) (s.laneInt gl b)) ∧
     (∀ (d a : SReg) (b : ScalSrc), s.canIssue = true →
       scalarCompletes (p.1 (.scalar d a b)) s d (p.2 64 (s.sreg a.toNat) (s.scalInt b)))) ∧
  (∀ s : State,
     (∀ p ∈ int1Table,
       (∀ (k : KReg) (d : VReg) (a : UnSrc), s.ready (d.toNat :: a.regs) false →
         laneCompletes (p.1 (.lane k d a)) s k d fun gl => p.2 32 (s.laneUnInt gl a)) ∧
       (∀ (d : SReg) (a : ScalSrc), s.canIssue = true → scalarCompletes (p.1 (.scalar d a)) s d (p.2 64 (s.scalInt a)))) ∧
     (∀ p ∈ int3Table,
       (∀ (k : KReg) (d a : VReg) (b c : RegSrc), s.ready (d.toNat :: a.toNat :: (b.regs ++ c.regs)) false →
         laneCompletes (p.1 (.lane k d a b c)) s k d fun gl => p.2 32 (s.vreg gl a.toNat) (s.laneReg gl b) (s.laneReg gl c)) ∧
       (∀ (d a b c : SReg), s.canIssue = true →
         scalarCompletes (p.1 (.scalar d a b c)) s d (p.2 64 (s.sreg a.toNat) (s.sreg b.toNat) (s.sreg c.toNat)))) ∧
     (∀ (k : KReg) (d a : VReg) (b c : RegSrc), s.ready (d.toNat :: a.toNat :: (b.regs ++ c.regs)) false →
       laneCompletes (.prm (.lane k d a b c)) s k d fun gl => prmLane (s.vreg gl a.toNat) (s.laneReg gl b) (s.laneReg gl c)) ∧
     (∀ (k : KReg) (d a : VReg) (x : BitVec 28), s.ready [d.toNat, a.toNat] false →
       laneCompletes (.prm (.laneImm k d a x)) s k d fun gl => prmLane (s.vreg gl a.toNat) (x.signExtend 32) 0) ∧
     (∀ (d a b c : SReg), s.canIssue = true →
       scalarCompletes (.prm (.scalar d a b c)) s d (prmScalar (s.sreg a.toNat) (s.sreg b.toNat) (s.sreg c.toNat))) ∧
     (∀ (d a : SReg) (x : BitVec 28), s.canIssue = true →
       scalarCompletes (.prm (.scalarImm d a x)) s d (prmScalar (s.sreg a.toNat) (x.signExtend 64) 0))) ∧
  (∀ (a b c : Word) (j : Nat), j < 4 →
     let n := b.toNat / 2 ^ (4 * j) % 16
     (prmLane a b c).toNat / 2 ^ (8 * j) % 256 =
       if n < 4 then a.toNat / 2 ^ (8 * n) % 256 else if n < 8 then c.toNat / 2 ^ (8 * (n - 4)) % 256 else 0) ∧
  ∀ (a b c : DWord) (j : Nat), j < 8 →
    let n := b.toNat / 2 ^ (4 * j) % 16
    (prmScalar a b c).toNat / 2 ^ (8 * j) % 256 = if n < 8 then a.toNat / 2 ^ (8 * n) % 256 else c.toNat / 2 ^ (8 * (n - 8)) % 256

/-- bfx and bfi (R80): their lane and scalar forms, and the bits of their results at widths 32 and 64. With a position and a length taken from the control
value and cut to the width, bfx.n gives the field, bfx.s the field with its top bit carried upwards (0 for a length of 0), and bfi the first source with the
field replaced. -/
def Obligations.BitFieldBits : Prop :=
  (∀ w : Nat, w = 32 ∨ w = 64 → ∀ (a b ctl : BitVec w) (i : Nat), i < w →
      let pos := min (ctl.toNat % 256) w
      let len := min (ctl.toNat / 256 % 256) (w - pos)
      (intBfxN a ctl).getLsbD i = (decide (i < len) && a.getLsbD (pos + i)) ∧
      (intBfxS a ctl).getLsbD i = (if i < len then a.getLsbD (pos + i) else decide (len ≠ 0) && a.getLsbD (pos + len - 1)) ∧
      (intBfi a b ctl).getLsbD i = (if pos ≤ i ∧ i < pos + len then b.getLsbD (i - pos) else a.getLsbD i)) ∧
  ∀ s : State,
    (∀ (k : KReg) (d a : VReg) (b : LaneSrc), s.ready (d.toNat :: a.toNat :: b.regs) false →
      laneCompletes (.bfxN (.lane k d a b)) s k d (fun gl => intBfxN (s.vreg gl a.toNat) (s.laneInt gl b)) ∧
        laneCompletes (.bfxS (.lane k d a b)) s k d fun gl => intBfxS (s.vreg gl a.toNat) (s.laneInt gl b)) ∧
    (∀ (d a : SReg) (b : ScalSrc), s.canIssue = true →
      scalarCompletes (.bfxN (.scalar d a b)) s d (intBfxN (s.sreg a.toNat) (s.scalInt b)) ∧
        scalarCompletes (.bfxS (.scalar d a b)) s d (intBfxS (s.sreg a.toNat) (s.scalInt b))) ∧
    (∀ (k : KReg) (d a : VReg) (b c : RegSrc), s.ready (d.toNat :: a.toNat :: (b.regs ++ c.regs)) false →
      laneCompletes (.bfi (.lane k d a b c)) s k d fun gl => intBfi (s.vreg gl a.toNat) (s.laneReg gl b) (s.laneReg gl c)) ∧
    ∀ d a b c : SReg, s.canIssue = true →
      scalarCompletes (.bfi (.scalar d a b c)) s d (intBfi (s.sreg a.toNat) (s.sreg b.toNat) (s.sreg c.toNat))

-- Floating point.
/-- fadd, fsub, fmul, ffma, fmin and fmax in their lane and scalar forms (R82): the exact result rounded once; a scalar form clears the upper half. -/
def Obligations.SinglePrecisionArithmetic : Prop :=
  ∀ s : State,
    (∀ p ∈ flt2Table, ∀ rm : Rm,
      (∀ (k : KReg) (d a : VReg) (b : LaneSrc), s.ready (d.toNat :: a.toNat :: b.regs) false →
        laneCompletes (p.1 (.lane k d a b rm)) s k d fun gl => p.2 rm (s.vreg gl a.toNat) (s.laneFlt gl b)) ∧
      (∀ (d a : SReg) (b : ScalSrc), s.canIssue = true →
        scalarCompletes (p.1 (.scalar d a b rm)) s d ((p.2 rm (s.slow a) (s.scalFlt b)).setWidth 64))) ∧
    (∀ rm : Rm,
      (∀ (k : KReg) (d a : VReg) (b c : RegSrc), s.ready (d.toNat :: a.toNat :: (b.regs ++ c.regs)) false →
        laneCompletes (.ffma (.lane k d a b c rm)) s k d fun gl => fma32 rm (s.vreg gl a.toNat) (s.laneReg gl b) (s.laneReg gl c)) ∧
      (∀ (d a b c : SReg), s.canIssue = true →
        scalarCompletes (.ffma (.scalar d a b c rm)) s d ((fma32 rm (s.slow a) (s.slow b) (s.slow c)).setWidth 64))) ∧
    (∀ p ∈ fltMMTable,
      (∀ (k : KReg) (d a : VReg) (b : LaneSrc), s.ready (d.toNat :: a.toNat :: b.regs) false →
        laneCompletes (p.1 (.lane k d a b)) s k d fun gl => minMax32 p.2 (s.vreg gl a.toNat) (s.laneFlt gl b)) ∧
      (∀ (d a : SReg) (b : ScalSrc), s.canIssue = true →
        scalarCompletes (p.1 (.scalar d a b)) s d ((minMax32 p.2 (s.slow a) (s.scalFlt b)).setWidth 64)))

/-- The unary F32 instructions, fscale and fclass (R82, R84): their lane forms; the class bit of every encoding; and the correct rounding, in every mode, of
the reciprocal, the roots and the scaled value of a finite operand other than zero (R60, R61). Where the spec leaves a point open, this states the model's
choice: log 29. -/
def Obligations.SinglePrecisionUnary : Prop :=
  (∀ a < 2 ^ 32,
    let e := a / 2 ^ 23 % 2 ^ 8
    let f := a % 2 ^ 23
    let neg := 2 ^ 31 ≤ a
    fltClass a = 2 ^ (if e = 255 ∧ f ≠ 0 then 0 else if e = 255 then (if neg then 1 else 8) else if e ≠ 0 then (if neg then 2 else 7)
      else if f ≠ 0 then (if neg then 3 else 6) else if neg then 4 else 5)) ∧
  (∀ (rm : Rm) (a m : Nat) (neg : Bool) (e : Int), decodeFloat .f32 a = .fin neg m e → m ≠ 0 →
    let x : ℝ := m * 2 ^ e
    roundsTo rm neg x⁻¹ (fltRcp rm a) ∧ (∀ n : Int, roundsTo rm neg (x * 2 ^ n) (fltScale rm a n)) ∧
      (neg = false → roundsTo rm false (Real.sqrt x) (fltSqrt rm a) ∧ roundsTo rm false (Real.sqrt x)⁻¹ (fltRsq rm a))) ∧
  ∀ s : State,
    (∀ p ∈ fltUnTable, ∀ f : FltUn, s.ready (f.d.toNat :: f.a.regs) false →
      laneCompletes (p.1 f) s f.k f.d fun gl => BitVec.ofNat 32 (p.2 f.rm (s.laneUnFlt gl f.a).toNat)) ∧
    (∀ (k : KReg) (d a : VReg) (b : LaneSrc) (rm : Rm), s.ready (d.toNat :: a.toNat :: b.regs) false →
      laneCompletes (.fscale k d a b rm) s k d fun gl => BitVec.ofNat 32 (fltScale rm (s.vreg gl a.toNat).toNat (s.laneInt gl b).toInt)) ∧
    (∀ (k : KReg) (d : VReg) (a : UnSrc), s.ready (d.toNat :: a.regs) false →
      laneCompletes (.fclass k d a) s k d fun gl => BitVec.ofNat 32 (fltClass (s.laneUnFlt gl a).toNat))

/-- The double, packed and dot-product instructions (R85, R86, R90). -/
def Obligations.DoublePackedAndDot : Prop :=
  ∀ s : State,
    (∀ p ∈ wide2Table, ∀ f : Lane2, s.ready (pairRegs f.d.toNat ++ pairRegs f.a.toNat ++ f.b.pairs) false →
      pairCompletes (p.1 f) s f.k f.d fun gl => p.2 f.rm (s.vpair gl f.a.toNat) (s.lanePair gl f.b)) ∧
    (∀ f : Lane3, s.ready (pairRegs f.d.toNat ++ pairRegs f.a.toNat ++ f.b.pairs ++ f.c.pairs) false →
      pairCompletes (.dfma f) s f.k f.d fun gl =>
        toF64 f.rm (exactSum f.rm [(f64 (s.vpair gl f.a.toNat)).mul (f64 (s.lanePair gl f.b)), f64 (s.lanePair gl f.c)])) ∧
    (∀ p ∈ packed2Table, ∀ f : Lane2, s.ready (f.d.toNat :: f.a.toNat :: f.b.regs) false →
      laneCompletes (p.1 f) s f.k f.d fun gl => p.2 f.rm (s.vreg gl f.a.toNat) (s.laneReg gl f.b)) ∧
    (∀ p ∈ packed3Table, ∀ f : Lane3, s.ready (f.d.toNat :: f.a.toNat :: (f.b.regs ++ f.c.regs)) false →
      laneCompletes (p.1 f) s f.k f.d fun gl => p.2 f.rm (s.vreg gl f.a.toNat) (s.laneReg gl f.b) (s.laneReg gl f.c))

/-- A NaN operand makes the canonical NaN of the format the result of every sum, product, fused product, minimum and maximum (R57); and the special operands
of the long F32 instructions (R83): zeros, infinities, NaN, and values below −0, in every rounding mode. -/
def Obligations.SpecialFloatOperands : Prop :=
  (∀ t ∈ [Ty.f64, .f32, .h16, .b16], ∀ (rm : Rm) (a b c : Nat),
     (decodeFloat t a = .nan ∨ decodeFloat t b = .nan →
       fltAdd t rm a b = canonNan t ∧ fltSub t rm a b = canonNan t ∧ fltMul t rm a b = canonNan t ∧ fltFma t rm a b c = canonNan t ∧
         fltMinMax t false a b = canonNan t ∧ fltMinMax t true a b = canonNan t) ∧
     (decodeFloat t c = .nan → fltFma t rm a b c = canonNan t)) ∧
  (∀ (rm : Rm) (a : Nat),
     (decodeFloat .f32 a = .nan → fltRcp rm a = canonNan .f32 ∧ fltRsq rm a = canonNan .f32 ∧ fltSqrt rm a = canonNan .f32 ∧
       fltExp2 rm a = canonNan .f32 ∧ fltLog2 rm a = canonNan .f32 ∧ fltSin rm a = canonNan .f32 ∧ fltCos rm a = canonNan .f32 ∧
      ∀ n : Int, fltScale rm a n = canonNan .f32) ∧
     (∀ (neg : Bool) (e : Int), decodeFloat .f32 a = .fin neg 0 e → fltRcp rm a = withSign .f32 neg (infBits .f32) ∧
       fltRsq rm a = withSign .f32 neg (infBits .f32) ∧ fltSqrt rm a = withSign .f32 neg 0 ∧ fltExp2 rm a = 0x3F800000 ∧
       fltLog2 rm a = withSign .f32 true (infBits .f32) ∧ fltSin rm a = withSign .f32 neg 0 ∧ fltCos rm a = 0x3F800000 ∧
       ∀ n : Int, fltScale rm a n = withSign .f32 neg 0) ∧
     (∀ neg : Bool, decodeFloat .f32 a = .inf neg → fltRcp rm a = withSign .f32 neg 0 ∧ fltSin rm a = canonNan .f32 ∧ fltCos rm a = canonNan .f32 ∧
       ∀ n : Int, fltScale rm a n = withSign .f32 neg (infBits .f32)) ∧
     (decodeFloat .f32 a = .inf false → fltRsq rm a = 0 ∧ fltSqrt rm a = infBits .f32 ∧ fltExp2 rm a = infBits .f32 ∧ fltLog2 rm a = infBits .f32) ∧
     (decodeFloat .f32 a = .inf true → fltRsq rm a = canonNan .f32 ∧ fltSqrt rm a = canonNan .f32 ∧ fltExp2 rm a = 0 ∧ fltLog2 rm a = canonNan .f32) ∧
     (∀ (m : Nat) (e : Int), m ≠ 0 → decodeFloat .f32 a = .fin true m e →
       fltRsq rm a = canonNan .f32 ∧ fltSqrt rm a = canonNan .f32 ∧ fltLog2 rm a = canonNan .f32) ∧
     (∀ (neg : Bool) (m : Nat) (e : Int), decodeFloat .f32 a = .fin neg m e →
       (0 ≤ e ∨ 2 ^ (-e).toNat ∣ m → fltSin rm a = withSign .f32 neg 0) ∧
       (∀ n : Nat, e < 0 → m = (2 * n + 1) * 2 ^ ((-e).toNat - 1) → fltCos rm a = 0)) ∧
     fltLog2 rm 0x3F800000 = 0 ∧ fltRcp 0 1 = infBits .f32 ∧ fltRcp 1 1 = maxFinite .f32)

/-- Rounding of a positive magnitude m · 2^e to a format (R60), before the range is looked at: the result n · 2^q lies on the side the mode asks for, less
than one step of 2^q away, and under RN at most half a step away, with n even on a tie. A finite value of a format, rounded to that format under any mode, is
delivered unchanged. -/
def Obligations.Rounding : Prop :=
  (∀ t : Ty, isFloat t = true → ∀ (rm : Rm) (neg : Bool) (m : Nat) (e : Int), 0 < m →
     let r := roundMag t rm neg ⟨m, e, false⟩
     let x : ℚ := m * 2 ^ e
     let step : ℚ := 2 ^ r.2
     let y : ℚ := r.1 * step
     (rm = 0 → |y - x| ≤ step / 2 ∧ (|y - x| = step / 2 → r.1 % 2 = 0)) ∧
     (rm = 1 ∨ (rm = 2 ∧ neg = true) ∨ (rm = 3 ∧ neg = false) → y ≤ x ∧ x < y + step) ∧
     ((rm = 2 ∧ neg = false) ∨ (rm = 3 ∧ neg = true) → x ≤ y ∧ y < x + step)) ∧
  (∀ t : Ty, isFloat t = true → ∀ (rm : Rm) (x : Nat), x < 2 ^ t.bits → ∀ (neg : Bool) (m : Nat) (e : Int), decodeFloat t x = .fin neg m e →
     roundNum t rm (.fin neg m e) = x)

-- Conversions and draws.
/-- cvt and cvt.sr (R87, R88): each member's element is the source value converted under the mode, or with the 16 random bits of B; the other elements of the
destination register stay, and sr.sat[0] of each home group with a saturating lane is set (R62, R64). -/
def Obligations.ConversionResults : Prop :=
  ∀ s : State,
    (∀ (k : KReg) (dst src : Ty) (rm : Rm) (d a : VReg) (jd js : BitVec 3), (Instr.cvt k dst src rm d a jd js).wf = true →
      s.ready (typedRegs dst d ++ typedRegs src a) false →
      convCompletes (.cvt k dst src rm d a jd js) s k dst d jd.toNat fun gl => convNum dst rm (decodeNum src (s.typedSource gl src a js.toNat))) ∧
    (∀ (k : KReg) (dst : Ty) (wide : Bool) (d a : VReg) (b : RegSrc) (hi : Bool) (jd : BitVec 3), (Instr.cvtSr k dst wide d a b hi jd).wf = true →
      s.ready (d.toNat :: (typedRegs (if wide then .f64 else .f32) a ++ b.regs)) false →
      convCompletes (.cvtSr k dst wide d a b hi jd) s k dst d jd.toNat fun gl =>
        convStochastic dst ((s.laneReg gl b).toNat / (if hi then 2 ^ 16 else 1) % 2 ^ 16)
          (decodeFloat (if wide then .f64 else .f32) (s.typedSource gl (if wide then .f64 else .f32) a 0)))

/-- The ends of conversion (R62): a NaN source gives the canonical NaN or, without one, 0 and saturation; an infinity gives the infinity or the largest value
and saturation; a finite value that rounds inside the range gives the rounded value and never saturates, and one outside gives the end of the range on its
side and saturates. -/
def Obligations.ConversionEnds : Prop :=
  ∀ (t : Ty) (rm : Rm),
    convNum t rm .nan = (if hasNan t then ⟨canonNan t, false⟩ else ⟨0, true⟩) ∧
    (∀ neg, convNum t rm (.inf neg) = if hasInf t then ⟨withSign t neg (infBits t), false⟩
      else if isFloat t then ⟨withSign t neg (maxFinite t), true⟩ else ⟨intEnd t neg, true⟩) ∧
    (∀ (neg : Bool) (m : Nat) (e : Int), isFloat t = true → (convNum t rm (.fin neg m e)).sat = true →
      (convNum t rm (.fin neg m e)).bits = withSign t neg (maxFinite t)) ∧
    (∀ (neg : Bool) (m : Nat) (e : Int), isFloat t = true → m ≠ 0 →
      let r := roundMag t rm neg ⟨m, e, false⟩
      let c := convNum t rm (.fin neg m e)
      (∀ (big : Nat) (f : Int), decodeFloat t (maxFinite t) = .fin false big f → (c.sat = true ↔ (big : ℚ) * 2 ^ f < r.1 * 2 ^ r.2)) ∧
      (c.sat = false → ∃ (n : Nat) (f : Int), decodeFloat t c.bits = .fin neg n f ∧ (n : ℚ) * 2 ^ f = r.1 * 2 ^ r.2)) ∧
    (∀ (neg : Bool) (m : Nat) (e : Int), isFloat t = false → m ≠ 0 →
      let x : ℚ := (if neg then -1 else 1) * m * 2 ^ e
      let lo : Int := if intSigned t then -2 ^ (t.bits - 1) else 0
      let hi : Int := if intSigned t then 2 ^ (t.bits - 1) - 1 else 2 ^ t.bits - 1
      ∃ n : Int,
        (rm = 0 → |n - x| ≤ 1 / 2 ∧ (|n - x| = 1 / 2 → n % 2 = 0)) ∧
        (rm = 1 → |(n : ℚ)| ≤ |x| ∧ |x| < |(n : ℚ)| + 1 ∧ 0 ≤ n * x) ∧
        (rm = 2 → x ≤ n ∧ n < x + 1) ∧ (rm = 3 → n ≤ x ∧ x < n + 1) ∧
        convNum t rm (.fin neg m e) = if lo ≤ n ∧ n ≤ hi then ⟨(n % 2 ^ t.bits).toNat, false⟩ else
          ⟨((if neg then lo else hi) % 2 ^ t.bits).toNat, true⟩) ∧
    (∀ i : Int, isFloat t = false → -(2 : Int) ^ (t.bits - 1) ≤ i → i < 2 ^ t.bits →
      convNum t rm (.fin (decide (i < 0)) i.natAbs 0) =
        if intSigned t then (if i < 2 ^ (t.bits - 1) then ⟨(i % 2 ^ t.bits).toNat, false⟩ else ⟨2 ^ (t.bits - 1) - 1, true⟩)
        else if i < 0 then ⟨0, true⟩ else ⟨i.toNat, false⟩)

/-- rnd (R89): each member's destination is the generator's word of its counter and the scalar key; the generator's six rounds are those of the rule. -/
def Obligations.RandomDraw : Prop :=
  ∀ (s : State) (k : KReg) (d a : VReg) (b : SReg), s.ready [d.toNat, a.toNat] false →
    laneCompletes (.rnd k d a b) s k d (fun gl => draw (s.vreg gl a.toNat) (s.sreg b.toNat)) ∧
      ∀ (x : Word) (key : DWord), draw x key = (List.range 6).foldl (fun (y : Word) i =>
        let m := (key.toNat / (if i % 2 = 0 then 1 else 2 ^ 32)) % 2 ^ 32
        let y1 := (y.toNat + m + 0x9E3779B9 * (i + 1)) % 2 ^ 32
        let y2 := Nat.xor y1 (y1 / 2 ^ 15) * 0x2C1B3C6D % 2 ^ 32
        let y3 := Nat.xor y2 (y2 / 2 ^ 12) * 0x297A2D39 % 2 ^ 32
        BitVec.ofNat 32 (Nat.xor y3 (y3 / 2 ^ 15))) x

-- Cross-lane instructions.
/-- The shuffles and bcast (R91, R92): each member gets register a of its source lane, or its own when the source takes no part; .nx and .pv read the next
member above or below in the home group. The scalar bcast outside a team region writes the lane's value, or 0 when the lane takes no part. -/
def Obligations.ShufflesAndBroadcasts : Prop :=
  ∀ (s : State) (k : KReg) (d a : VReg),
    (∀ p ∈ shuffleTable, ∀ b : LaneSrc, s.ready (d.toNat :: a.toNat :: b.regs) false →
      laneCompletes (p.1 k d a b) s k d fun gl => shuffled s k a gl (p.2 (gl % 32) (s.laneInt gl b))) ∧
    (s.ready [d.toNat, a.toNat] false →
      (∃ up : Nat → Nat, laneCompletes (.shflNx k d a) s k d (fun gl => s.vreg (up gl) a.toNat) ∧ ∀ gl ∈ s.lanes k,
        (up gl = gl ∧ ∀ m ∈ s.lanes k, m / 32 = gl / 32 → m ≤ gl) ∨
        (up gl ∈ s.lanes k ∧ up gl / 32 = gl / 32 ∧ gl < up gl ∧ ∀ m ∈ s.lanes k, m / 32 = gl / 32 → m ≤ gl ∨ up gl ≤ m)) ∧
      (∃ down : Nat → Nat, laneCompletes (.shflPv k d a) s k d (fun gl => s.vreg (down gl) a.toNat) ∧ ∀ gl ∈ s.lanes k,
        (down gl = gl ∧ ∀ m ∈ s.lanes k, m / 32 = gl / 32 → gl ≤ m) ∨
        (down gl ∈ s.lanes k ∧ down gl / 32 = gl / 32 ∧ down gl < gl ∧ ∀ m ∈ s.lanes k, m / 32 = gl / 32 → gl ≤ m ∨ m ≤ down gl)) ∧
      (∀ l : BitVec 5, laneCompletes (.bcast k d a (.lit l)) s k d fun gl => shuffled s k a gl (some l.toNat)) ∧
      (∀ r : SReg, laneCompletes (.bcast k d a (.s r)) s k d fun gl => shuffled s k a gl (some ((s.sreg r.toNat).toNat % 32)))) ∧
    (∀ e : SReg, s.ready [a.toNat] true →
      (∀ l : BitVec 5, completes (.bcastScalar k e a (.lit l)) s s.vreg (fun n => if n = e.toNat then
        (if 32 * s.curAgent.host + l.toNat ∈ s.lanes k then (s.vreg (32 * s.curAgent.host + l.toNat) a.toNat).setWidth 64 else 0) else s.sreg n) s.sats) ∧
      (∀ r : SReg, completes (.bcastScalar k e a (.s r)) s s.vreg (fun n => if n = e.toNat then
        (let gl := 32 * s.curAgent.host + (s.sreg r.toNat).toNat % 32
         if gl ∈ s.lanes k then (s.vreg gl a.toNat).setWidth 64 else 0) else s.sreg n) s.sats))

/-- red (R93, R71): every member gets the combination of register a over the members of its home group; the scalar form, outside a team region, gets that of
the group, extended, and the identity without members. red.add.f32 sums by the fixed tree over lane positions. redx (R94): the extreme value and the lowest
home lane index that holds it, a NaN before every number; without members the scalar form gives the identity and 0xFFFFFFFF. scan (R95): each member gets the
combination, in ascending lane order, of register a over the members of its home group up to itself, or below itself in the exclusive form. -/
def Obligations.ReductionsAndScans : Prop :=
  (∀ (s : State) (op : RedOp) (rm : Rm) (k : KReg) (a : VReg),
     let value (l : List Nat) : Word := if op = .addF32 then treeOf rm (fun i => (l.find? fun m => m % 32 == i).map fun m => s.vreg m a.toNat)
       else foldWords op rm (l.map fun m => s.vreg m a.toNat)
     (∀ d : VReg, s.ready [d.toNat, a.toNat] false →
       laneCompletes (.red op rm k (.v d) a) s k d fun gl => value ((s.lanes k).filter fun m => m / 32 == gl / 32)) ∧
     (∀ d : SReg, s.ready [a.toNat] true →
       scalarCompletes (.red op rm k (.s d) a) s d
         (if op = .minS32 ∨ op = .maxS32 then (value (s.lanes k)).signExtend 64 else (value (s.lanes k)).setWidth 64))) ∧
  (∀ (s : State) (op : RedxOp) (k : KReg) (a : VReg),
     let isF : Bool := op = .minF32 ∨ op = .maxF32
     let nan (m : Nat) : Bool := isF && decodeFloat .f32 (s.vreg m a.toNat).toNat == .nan
     let value (l : List Nat) : Word := foldWords (redxRed op) 0 (l.map fun m => s.vreg m a.toNat)
     let index (l : List Nat) : Word := match l.find? fun m => if l.any nan then nan m else s.vreg m a.toNat == value l with
       | some m => BitVec.ofNat 32 (m % 32)
       | none => 0xFFFFFFFF
     let home (gl : Nat) : List Nat := (s.lanes k).filter fun m => m / 32 == gl / 32
     (∀ d b : VReg, s.ready [d.toNat, b.toNat, a.toNat] false →
       completes (.redx op k (.v d b) a) s (fun gl r => if gl ∈ s.lanes k ∧ r = b.toNat then index (home gl)
         else if gl ∈ s.lanes k ∧ r = d.toNat then value (home gl) else s.vreg gl r) s.sreg s.sats) ∧
     (∀ d b : SReg, s.ready [a.toNat] true →
       completes (.redx op k (.s d b) a) s s.vreg (fun n => if n = b.toNat then (index (s.lanes k)).setWidth 64
         else if n = d.toNat then (if op = .minS32 ∨ op = .maxS32 then (value (s.lanes k)).signExtend 64 else (value (s.lanes k)).setWidth 64)
         else s.sreg n) s.sats)) ∧
  (∀ (s : State) (op : RedOp) (ex : Bool) (rm : Rm) (k : KReg) (d a : VReg), s.ready [d.toNat, a.toNat] false →
     laneCompletes (.scan op ex rm k d a) s k d fun gl =>
       foldWords op rm (((s.lanes k).filter fun m => m / 32 == gl / 32 && (if ex then decide (m < gl) else decide (m ≤ gl))).map
         fun m => s.vreg m a.toNat))

-- Sets.
/-- test (R99): the members whose operands compare, signed, unsigned or by R58, in canonical form. -/
def Obligations.TestBuildsSet : Prop :=
  ∀ (s : State) (c : Cmp) (k d : KReg) (a : VReg), d ≠ 0 →
    let members (f : Nat → Bool) : LaneSet := laneUnion ((s.lanes k).filter f)
    (∀ b : LaneSrc, s.ready (a.toNat :: b.regs) false →
      setCompletes (.test c .s32 k d a b) s d (members fun gl => holds c (some (compare (s.vreg gl a.toNat).toInt (s.laneInt gl b).toInt))) ∧
      setCompletes (.test c .n32 k d a b) s d (members fun gl => holds c (some (compare (s.vreg gl a.toNat).toNat (s.laneInt gl b).toNat))) ∧
      setCompletes (.test c .f32 k d a b) s d (members fun gl => holds c (floatOrder .f32 (s.vreg gl a.toNat).toNat (s.laneFlt gl b).toNat))) ∧
    (∀ b : VReg, s.ready (pairRegs a.toNat ++ pairRegs b.toNat) false →
      setCompletes (.test c .f64 k d a (.v b)) s d
        (members fun gl => holds c (floatOrder .f64 (s.vpair gl a.toNat).toNat (s.vpair gl b.toNat).toNat))) ∧
    (∀ b : SReg, s.ready (pairRegs a.toNat) false →
      setCompletes (.test c .f64 k d a (.s b)) s d
        (members fun gl => holds c (floatOrder .f64 (s.vpair gl a.toNat).toNat (s.sreg b.toNat).toNat)))

/-- The set algebra on whole sets, kcount and kmatch (R97, R100, R101). -/
def Obligations.SetAlgebra : Prop :=
  ∀ (s : State) (k d a b : KReg) (e : SReg) (v : VReg), d ≠ 0 →
    (s.canIssue = true →
      setCompletes (.kall d) s d (laneUnion ((List.range 1024).filter fun gl =>
        s.curTeam.liveSet.getLsbD gl && s.curAgent.homes.contains (gl / 32))) ∧
      setCompletes (.kunion d a b) s d (s.kset a.toNat ||| s.kset b.toNat) ∧
      setCompletes (.kinter d a b) s d (s.kset a.toNat &&& s.kset b.toNat) ∧
      setCompletes (.kdiff d a b) s d (s.kset a.toNat &&& ~~~(s.kset b.toNat)) ∧
      setCompletes (.kfirst d a) s d (s.kset a.toNat &&& -(s.kset a.toNat)) ∧
      setCompletes (.kmov d a) s d (s.kset a.toNat) ∧
      scalarCompletes (.kcount e a) s e (BitVec.ofNat 64 (laneList (s.kset a.toNat)).length)) ∧
    (s.ready [v.toNat] false → setCompletes (.kmatch k d v false) s d
      (laneUnion ((s.lanes k).filter fun gl => s.vreg gl v.toNat == s.vreg ((s.lanes k).headD 0) v.toNat))) ∧
    (s.ready [v.toNat, v.toNat + 1] false → setCompletes (.kmatch k d v true) s d
      (laneUnion ((s.lanes k).filter fun gl => s.vpair gl v.toNat == s.vpair ((s.lanes k).headD 0) v.toNat)))

-- Control flow.
/-- nop, yield and the branches (R32, R119, R120): a branch whose target is no header faults with cause 7; otherwise it enters the target's block when its
condition holds and goes on at the next word when not; the hint changes nothing. -/
def Obligations.BranchesGoWhereTheySay : Prop :=
  ∀ (s : State) (hint : BitVec 2) (r : SReg) (ka : KReg) (off : BitVec 16), s.canIssue = true →
    let pc := (((s.curAgent.pc : Int) + off.toInt) % 2 ^ 32).toNat
    transfers .nop s none ∧ transfers .yield s none ∧
    (∀ h : BitVec 2, exec (.br h r off) s = exec (.br hint r off) s ∧ exec (.bnz h ka off) s = exec (.bnz hint ka off) s ∧
      exec (.bz h ka off) s = exec (.bz hint ka off) s) ∧
    ((s.headerAt s.curTeam pc).isSome = false →
      exec (.br hint r off) s = .next (s.raise (illegal 7)) ∧ exec (.bnz hint ka off) s = .next (s.raise (illegal 7)) ∧
        exec (.bz hint ka off) s = .next (s.raise (illegal 7))) ∧
    ((s.headerAt s.curTeam pc).isSome = true →
      transfers (.br hint r off) s (if s.sreg r.toNat = 0 then none else some pc) ∧
      transfers (.bnz hint ka off) s (if s.kset ka.toNat = 0 then none else some pc) ∧
      transfers (.bz hint ka off) s (if s.kset ka.toNat = 0 then some pc else none))

/-- call and ret (R47, R121, R122): call checks its target and the stack, stores the return record below sr.sp and enters the target's block; ret checks the
stack, the record and the switchback depth, frees the record and goes on where it says. -/
def Obligations.CallAndReturn : Prop :=
  ∀ (s : State) (off : BitVec 16), s.canIssue = true →
    let pc := (((s.curAgent.pc : Int) + off.toInt) % 2 ^ 32).toNat
    let host := s.curAgent.host
    ((s.headerAt s.curTeam pc).isSome = false → exec (.call off) s = .next (s.raise (illegal 7))) ∧
    ((s.headerAt s.curTeam pc).isSome = true → s.sp < 0x8400 + 8 → exec (.call off) s = .next (s.raise { kind := 2, d0 := dw s.sp })) ∧
    ((s.headerAt s.curTeam pc).isSome = true → 0x8400 + 8 ≤ s.sp →
      ∃ t, exec (.call off) s = .next t ∧ onlyStack s t ∧ sameValues s t ∧
        (t.curTeam.group host).sp.toNat = s.sp - 8 ∧
        (∀ g a, t.spillByte g a = if g = host ∧ s.sp - 8 ≤ a ∧ a < s.sp then
            BitVec.ofNat 8 ((s.swdOf s.cur * 2 ^ 42 + (s.curAgent.rest - 1) * 2 ^ 32 + (s.curAgent.pc + 1)) / 2 ^ (8 * (a - (s.sp - 8))))
          else s.spillByte g a) ∧
        (s.reissues = false → sameSets s t ∧ sameAgents s t ∧ enters s t pc)) ∧
    let f := bytesWord (readBytes s.curGroup.spill s.sp 8)
    (0xC000 < s.sp + 8 → exec .ret s = .next (s.raise { kind := 2, d0 := dw s.sp })) ∧
    (s.sp + 8 ≤ 0xC000 → f / 2 ^ 53 ≠ 0 ∨ (s.objectOf s.curTeam).words ≤ f % 2 ^ 32 → exec .ret s = .next (s.raise (illegal 7))) ∧
    (s.sp + 8 ≤ 0xC000 → f / 2 ^ 53 = 0 → f % 2 ^ 32 < (s.objectOf s.curTeam).words →
      (f / 2 ^ 42 % 2 ^ 11 ≠ s.swdOf s.cur → exec .ret s = .next (s.raise (regionFault 5 0))) ∧
      (f / 2 ^ 42 % 2 ^ 11 = s.swdOf s.cur →
        ∃ t, exec .ret s = .next t ∧ onlyStack s t ∧ sameValues s t ∧ t.vis = s.vis ∧
          (t.curTeam.group host).sp.toNat = s.sp + 8 ∧ (∀ g a, t.spillByte g a = s.spillByte g a) ∧
          (s.reissues = false → sameSets s t ∧ sameAgents s t ∧ t.curAgent.pc = f % 2 ^ 32 ∧ t.curAgent.rest = f / 2 ^ 32 % 2 ^ 10)))

/-- apply and the local apply2 (R32, R105 to R107, R114, R116): the checks in their order, the switchback overflow before the entry-handle fault, the no-op
over empty sets, and the entries, the entry set and the block of the region that opens. Where the spec leaves a point open, this states the model's choice:
logs 26 and 125. -/
def Obligations.LocalRegionsOpen : Prop :=
  ∀ (s : State) (policy : BitVec 2) (ka kb : KReg) (off0 : BitVec 16) (off1 : BitVec 15), s.canIssue = true →
    let p0 := (((s.curAgent.pc : Int) + off0.toInt) % 2 ^ 32).toNat
    let p1 := (((s.curAgent.pc : Int) + off1.toInt) % 2 ^ 32).toNat
    let e := s.members ka.toNat
    let kt := s.kset ka.toNat
    let kf := s.kset kb.toNat
    let swd := s.swdOf s.cur
    let wide (x : LaneSet) : Nat := if 1 < (groupsOf x).length then 1 else 0
    (s.contOf s.curTeam p0 = none → exec (.apply ka off0) s = .next (s.raise (illegal 7)) ∧
      exec (.applyT policy ka off0) s = .next (s.raise (illegal 7)) ∧ exec (.apply2 ka kb off0 off1) s = .next (s.raise (illegal 7))) ∧
    (∀ c, s.contOf s.curTeam p0 = some c →
      (e = 0 → transfers (.apply ka off0) s (some c) ∧ transfers (.applyT policy ka off0) s (some c)) ∧
      (e ≠ 0 → 1032 < swd + 1 → exec (.apply ka off0) s = .next (s.raise { kind := 4, d0 := dw swd })) ∧
      (e ≠ 0 → swd + 1 ≤ 1032 → wide e ≠ 0 → 16 < s.curTeam.entrySets + wide e →
        exec (.apply ka off0) s = .next (s.raise { kind := 5, d0 := dw s.curTeam.entrySets })) ∧
      (e ≠ 0 → swd + 1 ≤ 1032 → wide e = 0 ∨ s.curTeam.entrySets + wide e ≤ 16 →
        ∃ t, exec (.apply ka off0) s = .next t ∧ registersAndCounters s t ∧ sameValues s t ∧
          (s.reissues = false → opensRegion s t [⟨s.curAgent.k0, c, 1, 0, 0⟩] e p0)) ∧
      (s.contOf s.curTeam p1 ≠ some c → exec (.apply2 ka kb off0 off1) s = .next (s.raise (illegal 7))) ∧
      (s.contOf s.curTeam p1 = some c →
        (kt &&& kf ≠ 0 → exec (.apply2 ka kb off0 off1) s = .next (s.raise (regionFault 4 0))) ∧
        (kt = 0 → kf = 0 → transfers (.apply2 ka kb off0 off1) s (some c)) ∧
        (kt &&& kf = 0 → (kt ||| kf) &&& ~~~s.curAgent.lanes = 0 → kt ||| kf ≠ 0 →
          let n := if kt ≠ 0 ∧ kf ≠ 0 then 2 else 1
          (1032 < swd + n → exec (.apply2 ka kb off0 off1) s = .next (s.raise { kind := 4, d0 := dw swd })) ∧
          (swd + n ≤ 1032 → wide kt ≠ 0 ∨ wide kf ≠ 0 → 16 < s.curTeam.entrySets + 1 →
            exec (.apply2 ka kb off0 off1) s = .next (s.raise { kind := 5, d0 := dw s.curTeam.entrySets }))) ∧
        (kt &&& kf = 0 → (kt ||| kf) &&& ~~~s.curAgent.lanes = 0 → (wide kt = 0 ∧ wide kf = 0) ∨ s.curTeam.entrySets + 1 ≤ 16 →
          swd + (if kt ≠ 0 ∧ kf ≠ 0 then 2 else 1) ≤ 1032 →
          (kt = 0 → kf ≠ 0 → ∃ t, exec (.apply2 ka kb off0 off1) s = .next t ∧ registersAndCounters s t ∧ sameValues s t ∧
            (s.reissues = false → opensRegion s t [⟨s.curAgent.k0, c, 1, 0, 0⟩] kf p1)) ∧
          (kt ≠ 0 → kf = 0 → ∃ t, exec (.apply2 ka kb off0 off1) s = .next t ∧ registersAndCounters s t ∧ sameValues s t ∧
            (s.reissues = false → opensRegion s t [⟨s.curAgent.k0, c, 1, 0, 0⟩] kt p0)) ∧
          (kt ≠ 0 → kf ≠ 0 → ∃ t half, exec (.apply2 ka kb off0 off1) s = .next t ∧ registersAndCounters s t ∧ sameValues s t ∧
            (s.reissues = false → opensRegion s t [⟨half, p1, 3, 0, 0⟩, ⟨s.curAgent.k0, c, 1, 0, 0⟩] kt p0 ∧
              (handlesApart half t.curAgent.k0 → t.curTeam.canonicalFor s.curAgent.host half kf))))))

/-- join (R108, R113, R117, R118): without an open region, or with a reserved entry kind, region fault 1; with a pending trap fragment of the region the agent
waits; a kind-1 entry restores k0 and the continuation; a pending half with members runs in the canonical form of those it still has, and one without members
is passed over. A fragment that joins is gone, and its host takes a fragment that waits; the last one brings the team join. A trap fragment of a region gives
its lanes back to the agent it left, whose own join takes effect after the last of them. -/
def Obligations.JoinLeavesRegion : Prop :=
  ∀ s : State, s.canIssue = true →
    (s.curAgent.stack = [] → s.curAgent.kind = .group → exec .join s = .next (s.raise (regionFault 1 0))) ∧
    (∀ x rest, s.curAgent.stack = x :: rest → x.kind = 0 ∨ 3 < x.kind → exec .join s = .next (s.raise (regionFault 1 0))) ∧
    (∀ x rest, s.curAgent.stack = x :: rest → 1 ≤ x.kind → x.kind ≤ 3 → s.reissues = false →
      s.curTeam.traps s.cur.agent (rest.length + 1) ≠ [] →
        ∃ t, exec .join s = .next t ∧ onlyRegisters s t ∧ sameValues s t ∧ sameSets s t ∧ sameAgents s t ∧ t.curAgent.status = .join ∧ t.curAgent.stack = x :: rest) ∧
    (∀ x rest, s.curAgent.stack = x :: rest → s.reissues = false → s.curTeam.traps s.cur.agent (rest.length + 1) = [] →
      s.curTeam.noneDead s.cur.agent s.curTeam.liveSet →
      (x.kind = 1 → ∃ t, exec .join s = .next t ∧ registersAndCounters s t ∧ sameValues s t ∧ leavesRegion s t x.set rest x.pc [s.curAgent.k0]) ∧
      (x.kind = 3 → handlesApart x.set s.curAgent.k0 →
        let half := s.curTeam.resolve x.set &&& s.curAgent.lanes
        (half ≠ 0 → ∃ t k0, exec .join s = .next t ∧ registersAndCounters s t ∧ sameValues s t ∧
          leavesRegion s t k0 rest x.pc [s.curAgent.k0, x.set] ∧ t.curTeam.canonicalFor s.curAgent.host k0 (s.curTeam.resolve x.set)) ∧
        (half = 0 → ∀ y rest', rest = y :: rest' → y.kind = 1 →
          ∃ t, exec .join s = .next t ∧ registersAndCounters s t ∧ sameValues s t ∧ leavesRegion s t y.set rest' y.pc [s.curAgent.k0, x.set]))) ∧
    (∀ slot, s.curAgent.kind = .fragment slot → s.curAgent.stack = [] → s.reissues = false →
      let r := s.curTeam.region slot
      let others := r.frags.filter (· ≠ s.cur.agent)
      (s.curTeam.traps s.cur.agent 0 ≠ [] →
        ∃ t, exec .join s = .next t ∧ onlyRegisters s t ∧ sameValues s t ∧ sameSets s t ∧ sameAgents s t ∧ t.curAgent.status = .join ∧ t.curAgent.stack = []) ∧
      (s.curTeam.traps s.cur.agent 0 = [] → s.curTeam.noneDead s.cur.agent s.curTeam.liveSet →
        (others ≠ [] → r.waiting = [] → ∃ t, exec .join s = .next t ∧ fragmentLeaves s t slot others ∧ t.vis = s.vis) ∧
        (∀ p h, r.waiting = [p] → (p.hosts.find? fun h => !(others.map fun f => (s.curTeam.agent f).host).contains h) = some h →
          p.lanes &&& s.curTeam.liveSet ≠ 0 → s.curTeam.agentsOk = true →
          ∃ t, exec .join s = .next t ∧ fragmentLeaves s t slot (others ++ [s.curTeam.nextAgent]) ∧ fragmentBegins s t r slot p h s.curTeam.nextAgent) ∧
        (others = [] → r.waiting = [] → r.parts.Nodup → s.swept r.parts.length →
          (∀ p ∈ r.parts, p ≠ s.cur.agent ∧ cellHas s.curTeam.agents p = true ∧
            ((s.curTeam.agent p).kind = .group ∨ (s.curTeam.agent p).lanes &&& s.curTeam.liveSet ≠ 0)) →
          ∃ t, exec .join s = .next t ∧ teamJoins s t slot))) ∧
    ∀ p d, s.curAgent.kind = .trap p d → s.curAgent.stack = [] → s.reissues = false →
      (s.curAgent.inRegion = false → exec .join s = .next (s.raise (regionFault 1 0))) ∧
      (s.curAgent.inRegion = true → p ≠ s.cur.agent → cellHas s.curTeam.agents p = true → s.curTeam.noneHeld →
        s.curTeam.noneDead s.cur.agent s.curTeam.liveSet →
        let x := s.curTeam.agent p
        let back : Agent :=
          { x with
            lanes := x.lanes ||| s.curAgent.lanes
            view := x.view ||| s.curAgent.view
            seen := x.seen ++ s.curAgent.seen
            seenIds := x.seenIds ++ s.curAgent.seenIds }
        let last : Prop := x.status = .join ∧ x.stack.length = d ∧ ∀ q ∈ s.curTeam.traps p d, q.1 = s.cur.agent
        (¬last → ∃ t, exec .join s = .next t ∧ trapFragmentLeaves s t p [s.curAgent.k0] ∧ t.vis = s.vis ∧ t.curTeam.agent p = back) ∧
        (∀ y rest, last → x.stack = y :: rest → y.kind = 1 →
          ∃ t, exec .join s = .next t ∧ trapFragmentLeaves s t p [s.curAgent.k0, x.k0] ∧ entersAt s t ⟨s.cur.team, p⟩ y.pc ∧
            { t.curTeam.agent p with pc := x.pc, rest := x.rest } = { back with stack := rest, k0 := y.set, status := .ready }))

-- Rendezvous.
/-- bar, cbar in a cluster of one core, and kgather.t (R102, R103, R124, R167): a saturation of 3, a partial set and a mismatch fault, in that order; the last
arrival lets every participant go on with the union of the views, and after kgather.t with the union of the contributions; an earlier one waits. Where the
spec leaves a point open, this states the model's choice: log 27. -/
def Obligations.TeamRendezvous : Prop :=
  ∀ (s : State) (d a : KReg), s.canIssue = true → d ≠ 0 →
    let pc := s.curAgent.pc
    let same (k : RdvKind) (r : Rdv) : Bool := r.kind == k && r.pc == pc
    let new (k : RdvKind) (dest : Nat) : Rdv := ⟨k, pc, 0, 0, s.curTeam.k0Desc s.cur.agent, 0, dest, 0, []⟩
    (s.curGroup.sat = 3 → exec .bar s = .next (s.raise { kind := 9, d0 := 3 }) ∧ exec .cbar s = .next (s.raise { kind := 9, d0 := 3 })) ∧
    (s.fullSet = false →
      let f : Raise := { kind := 7, d0 := s.curTeam.k0Desc s.cur.agent, d1 := dw s.curGroup.live.toNat }
      exec (.kgatherT d a) s = .next (s.raise f) ∧ (s.curGroup.sat ≠ 3 → exec .bar s = .next (s.raise f) ∧ exec .cbar s = .next (s.raise f))) ∧
    (s.fullSet = true → s.curGroup.sat ≠ 3 →
      (∀ f, s.rdvFault (same .bar) false = some f → exec .bar s = .next (s.raise f)) ∧
      (∀ f, s.rdvFault (same .gather) false = some f → exec (.kgatherT d a) s = .next (s.raise f)) ∧
      (s.rdvFault (same .bar) false = none →
        let r := s.arrival (new .bar 0) (same .bar) 0
        (s.curTeam.complete r = false → waitsAt .bar s (new .bar 0) (same .bar) 0) ∧
        (s.curTeam.complete r = true → s.curTeam.participants r → s.swept r.arrived.length → ∃ t, exec .bar s = .next t ∧ goOnTogether s t r)) ∧
      (s.oneCore = true → s.rdvFault (same .cbar) false = none →
        let r := s.arrival (new .cbar 0) (same .cbar) 0
        (s.curTeam.complete r = false → waitsAt .cbar s (new .cbar 0) (same .cbar) 0) ∧
        (s.curTeam.complete r = true → s.curTeam.participants r → s.swept r.arrived.length → ∃ t, exec .cbar s = .next t ∧ goOnTogether s t r)) ∧
      (s.rdvFault (same .gather) false = none →
        let r := s.arrival (new .gather d.toNat) (same .gather) (s.members a.toNat)
        (s.curTeam.complete r = false → waitsAt (.kgatherT d a) s (new .gather d.toNat) (same .gather) (s.members a.toNat)) ∧
        (s.curTeam.complete r = true → s.curTeam.participants r → s.swept r.arrived.length → ∃ t, exec (.kgatherT d a) s = .next t ∧ goOnTogether s t r ∧
          ∀ p ∈ r.arrived, let h := (s.curTeam.agent p.1).host
            (∀ q ∈ r.arrived, (s.curTeam.agent q.1).host ≠ h → handlesApart (s.kreg (s.curTeam.agent q.1).host r.blockA) (t.kreg h r.blockA)) →
            t.curTeam.resolve (t.kreg h r.blockA) = r.arrived.foldl (fun (x : LaneSet) q => x ||| q.2) 0 &&& s.curTeam.liveSet)))

/-- apply.t and the team apply2 (R103, R105, R110, R111, R114, R116): an arrival that does not complete the rendezvous waits; the last one opens the region
when a slot and its team-form entry sets are left (for an apply2 E and each half of more than one group) and no live register is a pending matrix operand.
Where the spec leaves a point open, this states the model's choice: log 23. -/
def Obligations.TeamRegionsOpen : Prop :=
  ∀ (s : State) (policy : BitVec 2) (ka kb : KReg) (off0 : BitVec 16) (off1 : BitVec 15), s.canIssue = true → s.curTeam.agentsOk = true →
    let pc := s.curAgent.pc
    let p0 := (((pc : Int) + off0.toInt) % 2 ^ 32).toNat
    let p1 := (((pc : Int) + off1.toInt) % 2 ^ 32).toNat
    let kt := s.kset ka.toNat
    let kf := s.kset kb.toNat
    let live := s.curTeam.liveSet
    let desc (u : State) : DWord := if ka = 0 then s.curTeam.k0Desc s.cur.agent else cellGet 0 u.curGroup.k ka.toNat
    let wide (x : LaneSet) : Nat := if 1 < (groupsOf x).length then 1 else 0
    let free (r : Rdv) (n : Nat) (l : List Nat) : Prop := s.curTeam.freeSlot ≠ 16 ∧ s.curTeam.entrySets + n ≤ 16 ∧ s.curTeam.handles.length ≤ 4080 ∧
      s.swept r.arrived.length ∧
      ∀ p ∈ r.arrived, s.curTeam.pendingOn (s.curTeam.agent p.1).host
        ((List.range 256).filter fun v => l.any fun b => ((s.headerAt s.curTeam b).map fun h => (hdrLive h).getLsbD (v / 16)).getD false) = none
    ∀ c, s.contOf s.curTeam p0 = some c → s.swdOf s.cur + 1 ≤ 1032 →
      (s.members ka.toNat ≠ 0 →
        let same (r : Rdv) : Bool := r.kind == .applyT && r.pc == pc && (r.setA &&& live) == kt
        let new : Rdv := ⟨.applyT, pc, kt, 0, desc (s.clearK ka.toNat), policy, p0, 0, []⟩
        let r := s.arrival new same 0
        (∀ f, s.rdvFault same false = some f → exec (.applyT policy ka off0) s = .next (s.raise f)) ∧
        (s.rdvFault same false = none → s.curTeam.complete r = false → waitsAt (.applyT policy ka off0) s new same 0) ∧
        (s.rdvFault same false = none → s.curTeam.complete r = true → r.blockA = p0 → s.curTeam.participants r → free r 1 [p0] →
          ∃ t, exec (.applyT policy ka off0) s = .next t ∧ teamRegionOpens s t r s.curTeam.freeSlot c r.policy [kt] [p0])) ∧
      (s.contOf s.curTeam p1 = some c → kt &&& kf = 0 → (kt ||| kf) &&& s.curAgent.lanes ≠ 0 → (kt ||| kf) &&& ~~~s.curAgent.lanes ≠ 0 →
        let same (r : Rdv) : Bool := r.kind == .apply2 && r.pc == pc && (r.setA &&& live) == kt && (r.setB &&& live) == kf
        let new : Rdv := ⟨.apply2, pc, kt, kf, desc ((s.clearK ka.toNat).clearK kb.toNat), 0, p0, p1, []⟩
        let r := s.arrival new same 0
        (∀ f, s.rdvFault same false = some f → exec (.apply2 ka kb off0 off1) s = .next (s.raise f)) ∧
        (s.rdvFault same false = none → s.curTeam.complete r = false → waitsAt (.apply2 ka kb off0 off1) s new same 0) ∧
        (s.rdvFault same false = none → s.curTeam.complete r = true → r.blockA = p0 → r.blockB = p1 → s.curTeam.participants r →
          kt ≠ 0 → kf ≠ 0 → free r (1 + wide kt + wide kf) [p0, p1] →
          ∃ t, exec (.apply2 ka kb off0 off1) s = .next t ∧ teamRegionOpens s t r s.curTeam.freeSlot c 0 [kt, kf] [p0, p1]))

/-- cbar in a cluster of more than one core (R238, R249): an arrival that leaves a live lane of the cluster without arrival waits; the last one lets every
agent that arrived go on, one word further, with the union of the views, and ends the rendezvous. Where the spec leaves a point open, this states the model's
choice: log 77. -/
def Obligations.ClusterRendezvous : Prop :=
  ∀ s : State, s.canIssue = true → s.oneCore = false → s.curGroup.sat ≠ 3 → s.fullSet = true →
    s.rdvFault (fun r => r.kind == .cbar && r.pc == s.curAgent.pc) true = none →
    let c := s.curTeam.cluster
    let all := (s.cluster c).arrived ++ [(s.cur.team, s.cur.agent, s.tick)]
    let covered : Bool := (s.cluster c).teams.all fun t =>
      ((s.team t).liveSet &&& ~~~(all.foldl (fun (l : LaneSet) p => if p.1 = t then l ||| ((s.team t).agent p.2.1).lanes else l) 0)) == 0
    (covered = false → ∃ t, exec .cbar s = .next t ∧ sameValues s t ∧ sameSets s t ∧ t.main = s.main ∧ t.columns = s.columns ∧
      (t.cluster c).arrived = all ∧ (t.cluster c).rdv.isSome = true ∧ t.curAgent = { s.curAgent with status := .rdv }) ∧
    (covered = true → (all.map fun p => (p.1, p.2.1)).Nodup → s.swept all.length →
      (∀ p ∈ all, cellHas (s.team p.1).agents p.2.1 = true ∧ ((s.team p.1).agent p.2.1).info = none) →
      ∃ t, exec .cbar s = .next t ∧ sameValues s t ∧ t.main = s.main ∧ t.columns = s.columns ∧ (t.cluster c).rdv = none ∧ (t.cluster c).arrived = [] ∧
        ∀ p ∈ all, let old := (s.team p.1).agent p.2.1
          let new := (t.team p.1).agent p.2.1
          new.pc = old.pc + 1 ∧ new.rest = old.rest - 1 ∧ new.status = .ready ∧
            new.view = all.foldl (fun v q => v ||| ((s.team q.1).agent q.2.1).view) 0)

/-- exit (R109, R196): over an empty set it only retires; otherwise the members leave sr.live, and where no group ends, no rendezvous is open and the agent
keeps a member of its k0, nothing else changes and the agent goes on. A stopped matrix command of a group that would end is raised first. -/
def Obligations.ExitEndsLanes : Prop :=
  ∀ (s : State) (k : KReg), s.canIssue = true →
    let e := s.members k.toNat
    let ended := s.curTeam.ending e
    (e = 0 → transfers (.exit k) s none) ∧
    (∀ c, ended.findSome? s.curTeam.stoppedFor = some c → exec (.exit k) s = .next (s.raise c.raise)) ∧
    (ended.findSome? s.curTeam.stoppedFor = none → (∀ g ∈ ended, ∀ c ∈ s.curTeam.unwaited g, c.state = .complete) →
      ∃ t, exec (.exit k) s = .next t ∧ (t.team s.cur.team).liveSet &&& e = 0 ∧ t.main = s.main) ∧
    (e ≠ 0 → ended = [] → s.curTeam.rdvs = [] → (s.cluster s.curTeam.cluster).rdv = none → s.reissues = false →
      s.curTeam.k0Set s.cur.agent &&& s.curAgent.lanes &&& ~~~e ≠ 0 → s.curTeam.noneDead s.cur.agent (s.curTeam.liveSet &&& ~~~e) →
      ∃ t, exec (.exit k) s = .next t ∧ onlyTeam s t ∧ sameValues s t ∧ t.curAgent.pc = s.curAgent.pc + 1 ∧ t.curAgent.rest = s.curAgent.rest - 1 ∧
        t.curTeam.liveSet = s.curTeam.liveSet &&& ~~~e ∧ t.curTeam.shared = s.curTeam.shared ∧
        ∀ g, { (t.curTeam.group g).bare with live := 0 } = { (s.curTeam.group g).bare with live := 0 })

/-- await (R172, R298, R302): without a watch it answers 2, with a hit 0, with its time passed 1, and otherwise it waits from the tick and the commit of its
issue; AWAIT_TIMEOUT ends a wait whose time has passed in a launch that is not determinate. Where the spec leaves a point open, this states the model's
choice: log 31. -/
def Obligations.AwaitAnswers : Prop :=
  ∀ (s : State) (d : SReg) (ticks : BitVec 31), s.canIssue = true → (∀ i, s.curAgent.info = some i → i.redo = false) →
    let answer (n : Nat) : Prop := scalarCompletes (.await d ticks) s d (BitVec.ofNat 64 n)
    (s.curAgent.watch = none → answer 2) ∧
    (∀ w, s.curAgent.watch = some w → w.hit = true → answer 0) ∧
    (∀ w t c, s.curAgent.watch = some w → w.hit = false → s.curAgent.status = .await t c →
      let passed := if s.curLaunch.determinate then s.curLaunch.commits - c else s.tick - t
      (ticks ≠ 0 → ticks.toNat ≤ passed → answer 1 ∧
        ((s.wordAt s.cur s.curAgent.pc).toNat = wC 0x00C 0 d.toNat 0 ticks.toNat → s.curLaunch.determinate = false →
          scalarCompletes (.awaitTimeout s.cur) s d 1)) ∧
      (ticks = 0 ∨ passed < ticks.toNat → exec (.await d ticks) s = .next s)) ∧
    (∀ w, s.curAgent.watch = some w → w.hit = false → s.curAgent.status = .ready →
      exec (.await d ticks) s = .next (s.modCur fun x => { x with status := .await s.tick s.curLaunch.commits }))

/-- push (R47, R164): the stack takes the registers in ascending order below sr.sp, a vector register by the positions of the host slot, a set register as its
whole image; a push that would pass the lower end faults. Where the spec leaves a point open, this states the model's choice: log 104. -/
def Obligations.PushStoresRegisters : Prop :=
  ∀ (s : State) (kind : RegKind) (a : VReg) (n : BitVec 5), pushPopOk false kind a n = true → s.ready (stackRegs kind a n) false →
    let size := if kind = .scalar then 8 else 128
    let sp := s.sp - size * n.toNat
    (s.sp < 0x8400 + size * n.toNat → exec (.push kind a n) s = .next (s.raise { kind := 2, d0 := dw s.sp })) ∧
    (0x8400 + size * n.toNat ≤ s.sp → ∃ t, exec (.push kind a n) s = .next t ∧ onlyStack s t ∧ sameValues s t ∧ t.vis = s.vis ∧
      (t.curTeam.group s.curAgent.host).sp.toNat = sp ∧
      (∀ g b, ¬(g = s.curAgent.host ∧ sp ≤ b ∧ b < s.sp) → t.spillByte g b = s.spillByte g b) ∧
      (∀ i < n.toNat, let at_ := sp + size * i
        let word (b m : Nat) : Nat := bytesWord (readBytes (t.curTeam.group s.curAgent.host).spill b m)
        match kind with
        | .vector => ∀ p < 32, word (at_ + 4 * p) 4 = (s.vreg (s.laneAtPos p) (a.toNat + i)).toNat
        | .scalar => word at_ 8 = (s.sreg (a.toNat + i)).toNat
        | .set => word at_ 128 = (s.kset (a.toNat + i)).toNat) ∧
      (s.reissues = false → sameSets s t ∧ goesOn s t 1))

/-- pop (R47, R164): the registers come back from sr.sp upward, a vector register for the members of k0, a set register without exited members; the stack
keeps its bytes; a pop that would pass the upper end faults. -/
def Obligations.PopLoadsRegisters : Prop :=
  ∀ (s : State) (kind : RegKind) (a : VReg) (n : BitVec 5), pushPopOk true kind a n = true → s.ready (stackRegs kind a n) false →
    let size := if kind = .scalar then 8 else 128
    let word (b m : Nat) : Nat := bytesWord (readBytes s.curGroup.spill b m)
    let host := s.curAgent.host
    (0xC000 < s.sp + size * n.toNat → exec (.pop kind a n) s = .next (s.raise { kind := 2, d0 := dw s.sp })) ∧
    (s.sp + size * n.toNat ≤ 0xC000 → ∃ t, exec (.pop kind a n) s = .next t ∧ onlyStack s t ∧ t.vis = s.vis ∧
      (t.curTeam.group host).sp.toNat = s.sp + size * n.toNat ∧ (∀ g b, t.spillByte g b = s.spillByte g b) ∧
      (∀ g, (t.curTeam.group g).sat = (s.curTeam.group g).sat) ∧
      (∀ gl r, t.vreg gl r = if kind = .vector ∧ gl ∈ s.lanes 0 ∧ a.toNat ≤ r ∧ r < a.toNat + n.toNat
        then BitVec.ofNat 32 (word (s.sp + 128 * (r - a.toNat) + 4 * s.posOf gl) 4) else s.vreg gl r) ∧
      (∀ g m, cellGet 0 (t.curTeam.group g).s m = if kind = .scalar ∧ g = host ∧ a.toNat ≤ m ∧ m < a.toNat + n.toNat
        then BitVec.ofNat 64 (word (s.sp + 8 * (m - a.toNat)) 8) else cellGet 0 (s.curTeam.group g).s m) ∧
      goesOn s t 1 ∧
      (s.reissues = false →
        (kind ≠ .set → sameSets s t) ∧
        (kind = .set → ∀ i < n.toNat,
          (∀ j, i < j → j < n.toNat → handlesApart (s.kreg host (a.toNat + j)) (t.kreg host (a.toNat + i)) ∧
            handlesApart (t.kreg host (a.toNat + j)) (t.kreg host (a.toNat + i))) →
          t.curTeam.canonicalFor host (t.kreg host (a.toNat + i)) (BitVec.ofNat 1024 (word (s.sp + 128 * i) 128) &&& s.curTeam.liveSet))))

-- Memory instructions of lanes.
/-- ld, ld.fe and ld.take (R155, R159, R172): each member's register, or pair, gets the element its group sees, extended as the form says; memory stays; the
lines read become the watch. The full/empty forms wait while a granule is empty, under the record they issued with, and ld.take empties its granules. The
whole checks come first; members beyond the bounds form a trap fragment, and behind it a race under a trap mode and a storage error form theirs (R117, R148 to
R150, R157, R275); a race in report mode is logged, and the read returns what R252 lets it (R276); reads count coverage losses (R274). Where the spec leaves a
point open, this states the model's choice: logs 34, 96, 101 and 127. -/
def Obligations.LoadsReadMemory : Prop :=
  ∀ (s : State) (w : LdW) (k : KReg) (d : VReg) (m : MArgs),
    let n := match w with | .s8 | .n8 => 1 | .s16 | .n16 => 2 | .w32 => 4 | .w64 => 8
    let l := s.laneLayout m.l
    let spot := s.laneSpot l n m.slots
    let x (gl : Nat) : DWord := leWord (orient (s.laneSwap l n m.slots gl) (s.sees (spot gl).1 (spot gl).2 n))
    let value (gl r : Nat) : Word := match w with
      | .s8 => BitVec.ofInt 32 ((x gl).setWidth 8).toInt
      | .s16 => BitVec.ofInt 32 ((x gl).setWidth 16).toInt
      | _ => if r = d.toNat then (x gl).setWidth 32 else (x gl >>> 32).setWidth 32
    let loads (i : Instr) (taken : Bool) : Prop := ∃ t, exec i s = .next t ∧ onlyAccess s t ∧ sameScalars s t ∧ goesOn s t 1 ∧ sameBytes s t ∧
      (∀ g, (t.curTeam.group g).held = (s.curTeam.group g).held) ∧ (∀ gl r, t.vreg gl r = s.newLanes k (dataRegs (w == .w64) d) value gl r) ∧
      (∀ a, cellHas t.curTeam.full a = (cellHas s.curTeam.full a && !(taken && (s.lanes k).any fun gl => (spot gl).2 / 16 == a))) ∧
      (s.reissues = false → s.lanes k ≠ [] → ∃ y, t.curAgent.watch = some y ∧ y.hit = false ∧
        ∀ p b, (p, b) ∈ y.lines ↔ ∃ gl ∈ s.lanes k, (spot gl).1 = p ∧ (spot gl).2 / 64 ≤ b ∧ b ≤ ((spot gl).2 + n - 1) / 64)
    (s.accessReady m.l m.slots [0, 1, 2] n k (dataRegs (w == .w64) d) → s.accessFree (mOp m n false) true false k → loads (.ld w k d m) false) ∧
    (s.accessReady m.l m.slots [0] n k (dataRegs (w == .w64) d) →
      let full : Bool := (s.lanes k).all fun gl => cellHas s.curTeam.full ((spot gl).2 / 16)
      (full = false → waitsOn (.ldFe w k d m) s [(s.handleOf m.l, l.raw)] ∧ waitsOn (.ldTake w k d m) s [(s.handleOf m.l, l.raw)]) ∧
      (full = true → s.accessFree (mOp m n true) true false k → loads (.ldFe w k d m) false ∧ loads (.ldTake w k d m) true)) ∧
    -- faults and races
    (let regs := dataRegs (w == .w64) d
     let wide := w == .w64
     let some_ (t : State) (lanes : List Nat) (taken : Bool) : Prop := sameBytes s t ∧
       (∀ gl r, t.vreg gl r = if gl ∈ lanes ∧ (r = d.toNat ∨ (wide = true ∧ r = d.toNat + 1)) then value gl r else s.vreg gl r) ∧
       ∀ a, cellHas t.curTeam.full a = (cellHas s.curTeam.full a && !(taken && lanes.any fun gl => (spot gl).2 / 16 == a))
     let filled (lanes : List Nat) : Prop := s.lanesFree (mOp m n true) true false lanes ∧ ∀ gl ∈ lanes, cellHas s.curTeam.full ((spot gl).2 / 16) = true
     lanesChecked (.ld w k d m) s (mOp m n false) [0, 1, 2] regs ∧ lanesChecked (.ldFe w k d m) s (mOp m n true) [0] regs ∧
       lanesChecked (.ldTake w k d m) s (mOp m n true) [0] regs ∧
       strikesBounds (.ld w k d m) s (mOp m n false) [0, 1, 2] k regs (s.lanesFree (mOp m n false) true false) (fun t good => some_ t good false) ∧
       strikesBounds (.ldFe w k d m) s (mOp m n true) [0] k regs filled (fun t good => some_ t good false) ∧
       strikesBounds (.ldTake w k d m) s (mOp m n true) [0] k regs filled (fun t good => some_ t good true) ∧
       strikesLane (.ld w k d m) s (mOp m n false) [0, 1, 2] k regs true false ∧ strikesLane (.ldFe w k d m) s (mOp m n true) [0] k regs true false ∧
       strikesLane (.ldTake w k d m) s (mOp m n true) [0] k regs true false) ∧
    (∀ gl, s.lanes k = [gl] → s.accessReady m.l m.slots [0, 1, 2] n k (dataRegs (w == .w64) d) → s.curAgent.issued = none →
      let c := (mOp m n false).acc s l gl true false
      reports (.ld w k d m) s c (fun t => (∀ p a, p ≠ .main → t.peek p a = s.peek p a) ∧
        (∀ g r, ¬(g = gl ∧ (r = d.toNat ∨ (w = .w64 ∧ r = d.toNat + 1))) → t.vreg g r = s.vreg g r) ∧
        (c.marked = false → s.curLaunch.determinate = false → s.curGroup.held = [] → s.recorded c.place c.addr n →
          ∃ bs, s.mayRead c bs ∧ t.vreg gl d.toNat = match w with
            | .s8 => BitVec.ofInt 32 ((BitVec.ofNat 8 (bytesWord bs)).toInt)
            | .s16 => BitVec.ofInt 32 ((BitVec.ofNat 16 (bytesWord (orient (s.laneSwap l n m.slots gl) bs))).toInt)
            | _ => BitVec.ofNat 32 (bytesWord (orient (s.laneSwap l n m.slots gl) bs)))) ∧
      (cellHas s.launches s.curTeam.launch = true → s.badAt c.place c.addr n = false → ∃ t, exec (.ld w k d m) s = .next t ∧ readLosses s t c))

/-- st (R159, R301): the members store their registers, or pairs, in ascending order of home lane index; in a determinate launch an unmarked store is held for
its group and memory stays. Its whole checks, the fragments of its members, a race under each mode, and the losses that a write counts are as for ld (R117,
R148 to R150, R157, R272, R274 to R276). Where the spec leaves a point open, this states the model's choice: logs 31, 34, 96, 101 and 127. -/
def Obligations.StoresWriteMemory : Prop :=
  ∀ (s : State) (w : StW) (k : KReg) (d : VReg) (m : MArgs),
    let n := match w with | .w8 => 1 | .w16 => 2 | .w32 => 4 | .w64 => 8
    let l := s.laneLayout m.l
    let spot := s.laneSpot l n m.slots
    let bytes (gl : Nat) : List Byte :=
      orient (s.laneSwap l n m.slots gl) (wordBytes ((s.vreg gl d.toNat).toNat + if w = .w64 then (s.vreg gl (d.toNat + 1)).toNat * 2 ^ 32 else 0) n)
    s.accessReady m.l m.slots [0, 1, 2] n k (dataRegs (w == .w64) d) →
      (s.curLaunch.determinate = false ∨ m.os ≠ 0 → s.accessFree (mOp m n false) false true k →
        ∃ t, performs (.st w k d m) s t (mOp m n false) k (fun gl _ => some (bytes gl)) ∧ ∀ gl r, t.vreg gl r = s.vreg gl r) ∧
      (s.curLaunch.determinate = true → m.os = 0 →
        ∃ t, exec (.st w k d m) s = .next t ∧ onlyAccess s t ∧ sameScalars s t ∧ goesOn s t 1 ∧ sameBytes s t ∧
          (∀ gl r, t.vreg gl r = s.vreg gl r) ∧ (∀ g, g ≠ s.curAgent.host → (t.curTeam.group g).held = (s.curTeam.group g).held) ∧
          ∃ new, (t.curTeam.group s.curAgent.host).held = s.curGroup.held ++ new ∧
            new.map (fun h => (h.place, h.addr, h.bytes)) = (homeOrder (s.lanes k)).map fun gl => ((spot gl).1, (spot gl).2, bytes gl)) ∧
    (let i := Instr.st w k d m
     let regs := dataRegs (w == .w64) d
     let op := mOp m n false
     let wrote (t : State) (lanes : List Nat) : Prop := turnsTaken s t op (fun gl _ => some (bytes gl)) lanes ∧ ∀ gl r, t.vreg gl r = s.vreg gl r
     lanesChecked i s op [0, 1, 2] regs ∧
       (s.curLaunch.determinate = false ∨ m.os ≠ 0 →
         strikesBounds i s op [0, 1, 2] k regs (s.lanesFree op false true) wrote ∧ strikesLane i s op [0, 1, 2] k regs false true ∧
         ∀ gl, s.lanes k = [gl] → s.accessReady m.l m.slots [0, 1, 2] n k regs → s.curAgent.issued = none →
           let c := op.acc s l gl false true
           reports i s c (fun t => (∀ p a, p ≠ .main → t.peek p a = if s.covers (spot gl) n p a then ((bytes gl)[a - (spot gl).2]?).getD 0 else s.peek p a) ∧
             ∀ gl r, t.vreg gl r = s.vreg gl r) ∧
           (s.raceFree c → c.ident ≠ 0x3FFFF → cellHas s.launches s.curTeam.launch = true → ∃ t, exec i s = .next t ∧ writeLosses s t c)))

/-- atom (R160, R161): in ascending order of home lane index each member reads its element, writes the operation's value, except where cas fails, and receives
what it read. Its whole checks, the fragments of its members and its races are as for ld (R117, R148 to R150, R157, R275, R276). Where the spec leaves a point
open, this states the model's choice: logs 34, 96, 101 and 127. -/
def Obligations.AtomicsUpdateMemory : Prop :=
  ∀ (s : State) (op : AtomOp) (f : AtomArgs), (Instr.atom op f).wf = true →
    let n := if f.wide then 8 else 4
    let l := s.laneLayout f.l
    let spot := s.laneSpot l n [f.c0, f.c1]
    let sw (gl : Nat) : Bool := s.laneSwap l n [f.c0, f.c1] gl
    let value (gl : Nat) (r : VReg) : Nat := (s.vreg gl r.toNat).toNat + if f.wide then (s.vreg gl (r.toNat + 1)).toNat * 2 ^ 32 else 0
    let new (gl : Nat) (old : List Byte) : Option (List Byte) :=
      (atomTable op (8 * n) (bytesWord (orient (sw gl) old)) (value gl f.d) (value gl f.c)).map fun y => orient (sw gl) (wordBytes y n)
    let got (t : State) (lanes : List Nat) : Prop :=
      ∀ gl r, t.vreg gl r = match (s.inTurn spot n new (homeOrder lanes) s.peek).1.find? fun x => x.1 == gl with
        | some x => if r = f.d.toNat ∨ (f.wide = true ∧ r = f.d.toNat + 1) then
            BitVec.ofNat 32 (bytesWord (orient (sw gl) x.2) / (if r = f.d.toNat then 1 else 2 ^ 32)) else s.vreg gl r
        | none => s.vreg gl r
    (s.accessReady f.l [f.c0, f.c1] [0, 1, 2] n f.k (atomRegs op f) → s.accessFree (atomMem f) true true f.k →
      ∃ t, performs (.atom op f) s t (atomMem f) f.k new ∧ got t (s.lanes f.k)) ∧
    lanesChecked (.atom op f) s (atomMem f) [0, 1, 2] (atomRegs op f) ∧
    strikesBounds (.atom op f) s (atomMem f) [0, 1, 2] f.k (atomRegs op f) (s.lanesFree (atomMem f) true true)
      (fun t good => turnsTaken s t (atomMem f) new good ∧ got t good) ∧
    strikesLane (.atom op f) s (atomMem f) [0, 1, 2] f.k (atomRegs op f) true true ∧
    ∀ gl, s.lanes f.k = [gl] → s.accessReady f.l [f.c0, f.c1] [0, 1, 2] n f.k (atomRegs op f) → s.curAgent.issued = none →
      let c := (atomMem f).acc s l gl true true
      s.recorded c.place c.addr n →
      reports (.atom op f) s c (fun t => got t [gl] ∧
        ∀ p a, p ≠ .main → t.peek p a = (s.inTurn spot n new [gl] s.peek).2 p a)

/-- kld and kst (R104): kld reads the 128-byte image its group sees, faults with the lowest bit beyond the team's shape, and otherwise writes the set without
exited members, with the line as its watch; kst writes the image of the set. Their checks run in their order, each a whole fault, and so are a race under a
trap mode and a storage error (R148 to R150, R157, R275). Where the spec leaves a point open, this states the model's choice: logs 102, 126 and 128. -/
def Obligations.SetImagesInMemory : Prop :=
  ∀ (s : State) (d : KReg) (m : MArgs),
    (d ≠ 0 → s.ownReady m (ordOf m.os) 128 [0, 1, 2] true false →
      let img := bytesWord (s.ownBytes m 128)
      let outside (i : Nat) : Bool := img.testBit i && (decide (s.curTeam.groupsN ≤ i / 32) || decide (s.curTeam.lanesN ≤ i % 32))
      ((∀ i < 1024, outside i = false) → ∃ t, exec (.kld d m) s = .next t ∧ onlyAccess s t ∧ sameBytes s t ∧ sameValues s t ∧
        goesOn s t 1 ∧ (s.reissues = false →
          t.curTeam.canonicalFor s.curAgent.host (t.kreg s.curAgent.host d.toNat) (BitVec.ofNat 1024 img &&& s.curTeam.liveSet) ∧ otherSets s t d ∧
          t.curAgent.watch.isSome = true)) ∧
      (∀ i < 1024, outside i = true → (∀ j < i, outside j = false) →
        ∃ u, exec (.kld d m) s = .next (u.raise { kind := 8, d0 := dw i }) ∧ onlyAccess s u ∧ sameBytes s u ∧ sameValues s u)) ∧
    (s.ownReady m (ordOf m.os) 128 [0, 1, 2] false true → (s.curLaunch.determinate = false ∨ m.os ≠ 0) →
      ∃ t, exec (.kst d m) s = .next t ∧ onlyAccess s t ∧ sameValues s t ∧ (s.reissues = false → sameSets s t) ∧ goesOn s t 1 ∧
        ownWritten s t m 128 (wordBytes (s.kset d.toNat).toNat 128)) ∧
    (s.ownReady m (ordOf m.os) 128 [0, 1, 2] false true → s.curLaunch.determinate = true → m.os = 0 →
      ∃ t, exec (.kst d m) s = .next t ∧ onlyAccess s t ∧ sameValues s t ∧ (s.reissues = false → sameSets s t) ∧ goesOn s t 1 ∧ sameBytes s t ∧
        ∃ h, (t.curTeam.group s.curAgent.host).held = s.curGroup.held ++ [h] ∧
          ∀ i < 128, let p := s.ownSpot m i; h.place = p.1 ∧ (h.bytes[p.2 - h.addr]?).getD 0 = ((wordBytes (s.kset d.toNat).toNat 128)[i]?).getD 0) ∧
    ownChecked (.kld d m) s m 128 [0, 1, 2] True ∧ ownChecked (.kst d m) s m 128 [0, 1, 2] True ∧
    strikesOwn (.kld d m) s m (ordOf m.os) 128 [0, 1, 2] true false ∧
    (s.curLaunch.determinate = false ∨ m.os ≠ 0 → strikesOwn (.kst d m) s m (ordOf m.os) 128 [0, 1, 2] false true)

/-- pbar.arrive and pbar.wait (R168 to R171): a granule of no valid form faults and stays; an arrival lowers the pending count, and the last one reloads it
and advances the phase; a wait holds while the phase is the one given; both give the phase read. Their checks run in their order, each a whole fault, and so
are a race under a trap mode and a storage error (R148 to R150, R157, R275). Where the spec leaves a point open, this states the model's choice: logs 102, 103
and 128. -/
def Obligations.PhaseBarriers : Prop :=
  ∀ (s : State) (d : SReg) (m : MArgs),
    let at_ (i : Nat) : Byte := let p := s.ownSpot m i; s.peek p.1 p.2
    let field (i n : Nat) : Nat := bytesWord ((List.range n).map fun j => at_ (i + j))
    let expected := field 0 2
    let pending := field 4 4
    let phase := field 8 4
    let cause := if expected = 0 then 1 else if pending = 0 ∨ expected < pending then 2 else if field 2 2 ≠ 0 ∨ field 12 4 ≠ 0 then 3 else 0
    let fault : Raise := { kind := 15, cause := cause, d0 := dw (field 0 8), d1 := dw (field 8 8) }
    let order (arrive : Bool) : Ord := if m.os = 0 then (if arrive then ⟨none, some 0, 1⟩ else ⟨some 0, none, 1⟩) else ordOf m.os
    let done (i : Instr) (t : State) : Prop := exec i s = .next t ∧ onlyAccess s t ∧ (∀ gl r, t.vreg gl r = s.vreg gl r) ∧ goesOn s t 1 ∧
      (s.reissues = false → sameSets s t) ∧ (∀ g, (t.curTeam.group g).sat = (s.curTeam.group g).sat) ∧
      ∀ g x, cellGet 0 (t.curTeam.group g).s x = if g = s.curAgent.host ∧ x = d.toNat then dw phase else cellGet 0 (s.curTeam.group g).s x
    (s.ownReady m (order true) 16 [0] true true → s.curAgent.issued = none →
      (s.curGroup.sat = 3 → exec (.pbarArrive d m) s = .next (s.raise { kind := 9, d0 := 3 })) ∧
      (s.curGroup.sat ≠ 3 → s.fullSet = false →
        exec (.pbarArrive d m) s = .next (s.raise { kind := 7, d0 := s.curTeam.k0Desc s.cur.agent, d1 := dw s.curGroup.live.toNat })) ∧
      (s.curGroup.sat ≠ 3 → s.fullSet = true →
        (cause ≠ 0 → exec (.pbarArrive d m) s = .next (s.raise fault)) ∧
        (cause = 0 → ∃ t, done (.pbarArrive d m) t ∧ ownWritten s t m 16
          (wordBytes expected 4 ++ wordBytes (if pending = 1 then expected else pending - 1) 4 ++
            wordBytes (if pending = 1 then (phase + 1) % 2 ^ 32 else phase) 4 ++ [0, 0, 0, 0])))) ∧
    (s.ownReady m (order false) 16 [0] true false →
      (cause ≠ 0 → exec (.pbarWait d m) s = .next (s.raise fault)) ∧
      (cause = 0 → phase = (s.sreg d.toNat).toNat % 2 ^ 32 → waitsOn (.pbarWait d m) s [(s.handleOf m.l, (s.laneLayout m.l).raw)]) ∧
      (cause = 0 → phase ≠ (s.sreg d.toNat).toNat % 2 ^ 32 → ∃ t, done (.pbarWait d m) t ∧ sameBytes s t)) ∧
    (let l := s.laneLayout m.l
     let p := s.ownSpot m 0
     let unread := s.badAt p.1 (p.2 / 16 * 16) 16
     let early : Prop := s.inRange (bitsOf l.raw 62 2) (s.ownAddr m) 16 → unread = true ∨ cause = 0
     (s.curGroup.sat ≠ 3 → s.fullSet = true → ownChecked (.pbarArrive d m) s m 16 [0] early ∧
       (unread = true ∨ cause = 0 → strikesOwn (.pbarArrive d m) s m (order true) 16 [0] true true)) ∧
     ownChecked (.pbarWait d m) s m 16 [0] early ∧
     (unread = true ∨ (cause = 0 ∧ phase ≠ (s.sreg d.toNat).toNat % 2 ^ 32) → strikesOwn (.pbarWait d m) s m (order false) 16 [0] true false))

/-- tld, tred, gather and lld (R162, R163, R233): a step gives every member its element: tld the bytes of one register, tred the sum, exact modulo 2^32 or
rounded to nearest, gather the element its index register names, lld its 4 bytes of a 128-byte row. The whole checks come first; lanes that fail the bounds
check, race under a trap mode or read a row that cannot be read form a trap fragment, with the milestone of the element (R148 to R150, R157, R163, R275).
Where the spec leaves a point open, this states the model's choice: logs 13, 34, 96, 101 and 127. -/
def Obligations.TileLoads : Prop :=
  ∀ (s : State) (i : Nat) (recs : List (Nat × BitVec 256)),
    (∀ f : TileArgs, let T := tldTile f s
      T.at s i recs → T.clear s i recs → T.free s i recs true false →
        T.loads (.tld f) s i (f.d.toNat + i) recs fun gl => BitVec.ofNat 32 (T.value s i recs gl)) ∧
    (∀ f : TileArgs, let T := tredTile f s
      T.at s i recs → T.clear s i recs → T.free s i recs true false →
        T.loads (.tred f) s i f.d.toNat recs fun gl =>
          if ∃ r, recs.head? = some r ∧ bitsOf r.2 57 5 = Ty.f32.code then BitVec.ofNat 32 (fltAdd .f32 0 (s.vreg gl f.d.toNat).toNat (T.value s i recs gl))
          else BitVec.ofNat 32 ((s.vreg gl f.d.toNat).toNat + T.value s i recs gl)) ∧
    (∀ f : GatherArgs, let T := gatherTile f s
      f.e.toNat + f.n.toNat ≤ 256 → T.at s i recs → T.clear s i recs → T.free s i recs true false →
        T.loads (.gather f) s i (f.d.toNat + i) recs fun gl => BitVec.ofNat 32 (T.value s i recs gl)) ∧
    (∀ f : LayerArgs, let T := lldTile f s
      T.at s i recs → T.clear s i recs → ∀ l h, recs = [(h, l)] →
        let spot (gl : Nat) := s.placeAt s.cur.team ⟨l⟩ (((⟨l⟩ : Layout).addr (⟨l⟩ : Layout).size (rowCoords f s ⟨l⟩ i)).toNat + 4 * (gl % 32))
        (∀ gl ∈ T.members s recs, s.unopposed (layerAcc f s ⟨l⟩ i gl true false) ∧ s.recorded (spot gl).1 (spot gl).2 4) →
        T.loads (.lld f) s i (f.d.toNat + i) recs fun gl => BitVec.ofNat 32 (bytesWord (s.sees (spot gl).1 (spot gl).2 4))) ∧
    -- faults and races
    (let code (x : BitVec 256) : Nat := bitsOf x 57 5
     let spans (d e : VReg) (n : Nat) : List Nat := (List.range n).map (d.toNat + ·) ++ (List.range n).map (e.toNat + ·)
     let first (T : Tile) (gl : Nat) (f : Acc → Prop) : Prop := ∀ p rest, T.spots s (recs.map fun p => ⟨p.2⟩) i gl = p :: rest →
       f (s.tileAcc p.1 p.2.1 p.2.2.1 p.2.2.2 i gl true false)
     (∀ f : TileArgs, let regs := (List.range f.n.toNat).map (f.d.toNat + ·)
       milestoneChecked (.tld f) s (descFault s (.lane s.cur.agent) f.desc [0, 1, 2] fun x => codeSize (code x) ∈ [1, 2, 4]) (s.regFault regs false) ∧
       (tldTile f s).strikesAll (.tld f) s ∧ (∀ gl, first (tldTile f s) gl fun c => (tldTile f s).strikes (.tld f) s i recs gl c) ∧
       milestoneChecked (.tred f) s (descFault s (.lane s.cur.agent) f.desc [0, 1, 2] fun x => code x ∈ [1, 4, 5]) (s.regFault [f.d.toNat] false) ∧
       (tredTile f s).strikesAll (.tred f) s ∧ ∀ gl, first (tredTile f s) gl fun c => (tredTile f s).strikes (.tred f) s i recs gl c) ∧
     (∀ f : GatherArgs, f.e.toNat + f.n.toNat ≤ 256 →
       milestoneChecked (.gather f) s (descFault s (.lane s.cur.agent) f.desc [0, 1, 2] fun x => codeSize (code x) == 4)
         (s.regFault (spans f.d f.e f.n.toNat) false) ∧
       (gatherTile f s).strikesAll (.gather f) s ∧ ∀ gl, first (gatherTile f s) gl fun c => (gatherTile f s).strikes (.gather f) s i recs gl c) ∧
     ∀ f : LayerArgs, let T := lldTile f s
       let x := (s.curTeam.record (.layer s.cur.agent) (s.handleOf f.desc.l))
       let h := s.handleOf f.desc.l
       let row := x.addr x.size (rowCoords f s x 0) % 128
       let regs := s.regFault ((List.range f.n.toNat).map (f.d.toNat + ·)) false
       (∀ after, ((row ≠ 0 ∧ after = layoutFaultOf 6 h) ∨ (row = 0 ∧ regs = some after) ∨
           (row = 0 ∧ regs = none ∧ ∃ d, rowsFail f s x d ∧ after = { kind := 12, cause := 2, d0 := dw d })) →
         milestoneChecked (.lld f) s (descFault s (.layer s.cur.agent) f.desc [1, 2] fun y => bitsOf y 128 32 == 1) (some after)) ∧
       ∀ l gl, recs = [(h, l)] → T.strikes (.lld f) s i recs gl (layerAcc f s ⟨l⟩ i gl true false))

/-- ttr, scatter and lst (R162, R163, R233): a step stores every member's element, in ascending order of home lane index: ttr what its source element holds
then, scatter a register at the element its index register names, lst 4 bytes of a 128-byte row. The whole checks, and the fragments of lanes that fail the
bounds check, race or read a row that cannot be read, are as for the tile loads (R148 to R150, R157, R275). Where the spec leaves a point open, this states
the model's choice: logs 13, 34, 96, 101 and 127. -/
def Obligations.TileStores : Prop :=
  ∀ (s : State) (i : Nat) (recs : List (Nat × BitVec 256)),
    (∀ f : TtrArgs, let T := ttrTile f s
      T.at s i recs → T.clear s i recs → ∀ ld lsrc hd hs, recs = [(hd, ld), (hs, lsrc)] →
        let cs := tileCoords ⟨lsrc⟩ (s.dCoords ⟨lsrc⟩ f.src)
        let cd := tileCoords ⟨ld⟩ (s.dCoords ⟨ld⟩ f.dst)
        let n := (⟨ld⟩ : Layout).size
        let src (gl : Nat) := s.elemAt s.cur.team ⟨lsrc⟩ ((⟨lsrc⟩ : Layout).addr n (cs (gl % 32) i 0)).toNat n
        let dst (gl : Nat) := s.elemAt s.cur.team ⟨ld⟩ ((⟨ld⟩ : Layout).addr n (cd i (gl % 32) 0)).toNat n
        (⟨lsrc⟩ : Layout).size = n →
        (∀ gl ∈ T.members s recs, s.unopposed (s.tileAcc ⟨lsrc⟩ (s.handleOf f.src.l) (cs (gl % 32) i 0) n i gl true false) ∧
          s.unopposed (s.tileAcc ⟨ld⟩ (s.handleOf f.dst.l) (cd i (gl % 32) 0) n i gl false true) ∧ s.recorded (src gl).1 (src gl).2.1 n) →
        s.plainView (T.members s recs) (fun gl => ((src gl).1, (src gl).2.1)) (fun gl => ((dst gl).1, (dst gl).2.1)) →
        T.stores (.ttr f) s i recs (fun gl => ((src gl).1, (src gl).2.1)) (fun gl => ((dst gl).1, (dst gl).2.1)) n
          fun gl bs => orient (dst gl).2.2 (orient (src gl).2.2 bs)) ∧
    (∀ f : GatherArgs, let T := scatterTile f s
      f.e.toNat + f.n.toNat ≤ 256 → T.at s i recs → T.clear s i recs → T.free s i recs false true → ∀ l h, recs = [(h, l)] →
        let spot (gl : Nat) := s.elemAt s.cur.team ⟨l⟩ ((⟨l⟩ : Layout).addr 4 (match s.dCoords ⟨l⟩ f.desc with
          | c0 :: rest => (c0 + (s.vreg gl (f.e.toNat + i)).toNat) :: rest
          | [] => [])).toNat 4
        (⟨l⟩ : Layout).size = 4 → s.plainView [] (fun _ => (.main, 0)) (fun _ => (.main, 0)) →
        T.stores (.scatter f) s i recs (fun gl => ((spot gl).1, (spot gl).2.1)) (fun gl => ((spot gl).1, (spot gl).2.1)) 4
          fun gl _ => wordBytes (s.vreg gl (f.d.toNat + i)).toNat 4) ∧
    (∀ f : LayerArgs, let T := lstTile f s
      T.at s i recs → T.clear s i recs → ∀ l h, recs = [(h, l)] → s.plainView [] (fun _ => (.main, 0)) (fun _ => (.main, 0)) →
        let spot (gl : Nat) := s.placeAt s.cur.team ⟨l⟩ (((⟨l⟩ : Layout).addr (⟨l⟩ : Layout).size (rowCoords f s ⟨l⟩ i)).toNat + 4 * (gl % 32))
        (∀ gl ∈ T.members s recs, s.unopposed (layerAcc f s ⟨l⟩ i gl false true)) →
        T.stores (.lst f) s i recs spot spot 4 fun gl _ => wordBytes (s.vreg gl (f.d.toNat + i)).toNat 4) ∧
    -- faults and races
    (let code (x : BitVec 256) : Nat := bitsOf x 57 5
     let span (r : VReg) (n : Nat) : List Nat := (List.range n).map (r.toNat + ·)
     (∀ f : TtrArgs, let T := ttrTile f s
       let raw (d : Desc) := (s.curTeam.record (.lane s.cur.agent) (s.handleOf d.l)).raw
       let elem (x : BitVec 256) : Bool := decide (1 ≤ bitsOf x 55 2) && code (raw f.dst) == code (raw f.src)
       let named (d : Desc) : Option Raise := descFault s (.lane s.cur.agent) d [0, 1, 2] elem
       milestoneChecked (.ttr f) s (match named f.dst with | some x => some x | none => named f.src) (s.regFault [] false) ∧ T.strikesAll (.ttr f) s ∧
       ∀ gl p rest, T.spots s (recs.map fun p => ⟨p.2⟩) i gl = p :: rest → T.strikes (.ttr f) s i recs gl (s.tileAcc p.1 p.2.1 p.2.2.1 p.2.2.2 i gl true false)) ∧
     (∀ f : GatherArgs, let T := scatterTile f s
       f.e.toNat + f.n.toNat ≤ 256 →
       milestoneChecked (.scatter f) s (descFault s (.lane s.cur.agent) f.desc [0, 1, 2] fun x => codeSize (code x) == 4)
         (s.regFault (span f.d f.n.toNat ++ span f.e f.n.toNat) false) ∧ T.strikesAll (.scatter f) s ∧
       (s.curLaunch.determinate = false → ∀ gl p, T.spots s (recs.map fun p => ⟨p.2⟩) i gl = [p] →
         T.strikes (.scatter f) s i recs gl (s.tileAcc p.1 p.2.1 p.2.2.1 4 i gl false true))) ∧
     ∀ f : LayerArgs, let T := lstTile f s
       let h := s.handleOf f.desc.l
       let x := s.curTeam.record (.layer s.cur.agent) h
       let row := x.addr x.size (rowCoords f s x 0) % 128
       let regs := s.regFault (span f.d f.n.toNat) false
       (∀ after, ((row ≠ 0 ∧ after = layoutFaultOf 6 h) ∨ (row = 0 ∧ regs = some after) ∨
           (row = 0 ∧ regs = none ∧ ∃ d, rowsFail f s x d ∧ after = { kind := 12, cause := 2, d0 := dw d })) →
         milestoneChecked (.lst f) s (descFault s (.layer s.cur.agent) f.desc [1, 2] fun y => bitsOf y 128 32 == 1) (some after)) ∧
       (s.curLaunch.determinate = false → ∀ l gl, recs = [(h, l)] → T.strikes (.lst f) s i recs gl (layerAcc f s ⟨l⟩ i gl false true)))

/-- lrec, lfence, LAYOUT_CACHE_FILL and fence (R165, R166, R259; R239, R247, R264): lrec writes the record that the agent's own lane instructions read next,
while every other reader keeps what it read; lfence, and a fill for one reader, bring readers to the table's record; a fence acquires what the agent has seen,
keeps the release of its view for its later writes, and advances the clock of each home group. -/
def Obligations.LayoutRecordsAndFences : Prop :=
  ∀ s : State,
    (∀ (a : SReg) (h : BitVec 7), s.canIssue = true →
      let w (i : Nat) : DWord := s.sreg (a.toNat + i)
      ∃ t, exec (.lrec a h) s = .next t ∧ onlyTeam s t ∧ sameValues s t ∧ goesOn s t 1 ∧ (s.reissues = false → sameSets s t) ∧
        { t.curTeam with groups := s.curTeam.groups, agents := s.curTeam.agents, handles := s.curTeam.handles, layouts := s.curTeam.layouts,
                         caches := s.curTeam.caches, lrecs := s.curTeam.lrecs } = s.curTeam ∧
        (∀ g, (t.curTeam.group g).bare = (s.curTeam.group g).bare) ∧
        t.curTeam.record (.lane s.cur.agent) h.toNat = ⟨w 3 ++ w 2 ++ w 1 ++ w 0⟩ ∧
        (∀ r ∈ s.curTeam.readers, r ≠ .lane s.cur.agent → t.curTeam.record r h.toNat = s.curTeam.record r h.toNat) ∧
        ∀ r x, x ≠ h.toNat → t.curTeam.record r x = s.curTeam.record r x) ∧
    (s.canIssue = true →
      ∃ t, exec .lfence s = .next t ∧ onlyTeam s t ∧ sameValues s t ∧ goesOn s t 1 ∧ (s.reissues = false → sameSets s t) ∧
        { t.curTeam with groups := s.curTeam.groups, agents := s.curTeam.agents, handles := s.curTeam.handles, caches := s.curTeam.caches,
                         lrecs := s.curTeam.lrecs } = s.curTeam ∧
        (∀ g, (t.curTeam.group g).bare = (s.curTeam.group g).bare) ∧
        ∀ r x, t.curTeam.record r x = if (s.cur.agent, x) ∈ s.curTeam.lrecs then ⟨cellGet 0 s.curTeam.layouts x⟩ else s.curTeam.record r x) ∧
    (∀ (team : Nat) (r : Reader) (h : BitVec 7), cellHas s.teams team = true →
      ∃ t, exec (.layoutCacheFill team r h) s = .next t ∧ { t with teams := s.teams } = s ∧ (∀ i, i ≠ team → t.team i = s.team i) ∧
        { t.team team with caches := (s.team team).caches } = s.team team ∧
        ∀ r' x, (t.team team).record r' x = if r' = r ∧ x = h.toNat then ⟨cellGet 0 (s.team team).layouts x⟩ else (s.team team).record r' x) ∧
    (∀ sc : Scope, s.canIssue = true → s.swept 1 →
      ∃ t, exec (.fence sc) s = .next t ∧ onlyAccess s t ∧ sameBytes s t ∧ sameScalars s t ∧ goesOn s t 1 ∧ (∀ gl r, t.vreg gl r = s.vreg gl r) ∧
        (∀ g, (t.curTeam.group g).clock = if g ∈ s.curAgent.homes then (s.curTeam.group g).clock + 1 else (s.curTeam.group g).clock) ∧
        (s.reissues = false → t.curAgent.view = mergeSnaps s.curAgent.view s.curAgent.seen (s.locOf s.cur.team) sc.code ∧
          t.curAgent.relSnap = some ⟨sc.code, t.curAgent.view, s.locOf s.cur.team⟩))

-- The streamer.
/-- cpy, cpyx, cpym, COPY_ACCEPT and bmwait (R201, R202, R204, R206, R210, R212, R213, R215, R217, R234, R235): the checks of a copy run in the order of R206
and R234; a checked copy, with its records, its chunks of 512 bytes and its run, is accepted or waits; cpyx reads its expand word first; bmwait waits for its
mask's bits on the record it issued with, and then observes the chunks they stand for and gives their status word; a word that cannot be read is its storage
error. Where the spec leaves a point open, this states the model's choice: logs 62, 63, 64 and 128. -/
def Obligations.CopiesAreAcceptedAndAwaited : Prop :=
  ∀ (s : State) (f : CpyArgs), s.canIssue = true → s.swept 1 →
    (∀ k m, let c := s.draftCopy k f m
      c.dst = (s.curTeam.record .streamer (s.handleOf f.dst.l)).raw ∧ c.src = (s.curTeam.record .streamer (s.handleOf f.src.l)).raw ∧
      c.chunks = (c.dl.size * (c.dc.zipIdx.map fun p => c.dl.ext p.2 - p.1).foldl (· * ·) 1 + 511) / 512 ∧ c.runWords = (c.chunks + 31) / 32 ∧
      c.accepted = false ∧ c.started = 0 ∧ c.landed = [] ∧
      s.copyChecks c f = firstFault [s.copyFaults c f, s.copyOverlap c] ∧ (k = .cpym → s.copyTargets c m = s.targetFaults c m) ∧
      (s.copyFaults c f = none → (s.copyOverlap c = none → ∀ b, ¬s.tileMeets c b) ∧
        ∀ r, s.copyOverlap c = some r → ∃ b, r = copyFaultOf 5 b ∧ (k ≠ .cpyx → s.tileMeets c b ∧ ∀ x < b, ¬s.tileMeets c x))) ∧
    (s.stopArmed s.cur 2 = false →
      (let c := s.draftCopy .cpy f 0
       (∀ r, s.copyChecks c f = some r → exec (.cpy f) s = .next (s.raise r)) ∧ (s.copyChecks c f = none → offers (.cpy f) s s c)) ∧
      (∀ mask : SReg, let m := (s.sreg mask.toNat).toNat
       let c := s.draftCopy .cpym f m
       (∀ r, firstFault [s.copyChecks c f, s.copyTargets c m] = some r → exec (.cpym f mask) s = .next (s.raise r)) ∧
       (s.copyChecks c f = none → s.copyTargets c m = none →
         (s.copyRoom s.cur.team = true → ∃ t, exec (.cpym f mask) s = .next t ∧ goesOn s t 2 ∧ sameBytes s t ∧ copyAccepted s t s.cur s.curTeam.nextCopy c) ∧
         (s.copyRoom s.cur.team = false → ∃ t, exec (.cpym f mask) s = .next t ∧ copyFrame s t s.cur.team ∧
           t.curAgent.status = .accept s.curTeam.nextCopy ∧ cellGet Copy.blank t.curTeam.copies s.curTeam.nextCopy = c))) ∧
      (let c := s.draftCopy .cpyx f 0
       let a := wordAddr c.bl (c.run - 1)
       let acc := s.laneAcc ⟨c.hb, [c.run - 1], 0, Ord.plain, false⟩ (.shared s.cur.team) a 4 s.agentLane true false
       let x := bytesWord (s.sees (.shared s.cur.team) a 4)
       s.copyChecks c f = none → s.unopposed acc → s.recorded acc.place a 4 →
         (x / 2 ^ 10 ≠ 0 ∨ x / 2 ^ 8 % 4 = 3 → ∃ u, onlyAccess s u ∧ sameBytes s u ∧ exec (.cpyx f) s = .next (u.raise { kind := 20, cause := 6 })) ∧
         (x / 2 ^ 10 = 0 → x / 2 ^ 8 % 4 ≠ 3 → s.copyRoom s.cur.team = true →
           ∃ t u, exec (.cpyx f) s = .next t ∧ goesOn s t 2 ∧ sameBytes s t ∧ onlyAccess s u ∧
             copyAccepted u t s.cur s.curTeam.nextCopy
               { c with exponent := (BitVec.ofNat 8 (x % 256)).toInt, span := if x / 2 ^ 8 % 4 = 0 then 62 else if x / 2 ^ 8 % 4 = 1 then 82 else 124 }) ∧
         (x / 2 ^ 10 = 0 → x / 2 ^ 8 % 4 ≠ 3 → s.copyRoom s.cur.team = false →
           ∃ t, exec (.cpyx f) s = .next t ∧ sameBytes s t ∧ (∀ gl r, t.vreg gl r = s.vreg gl r) ∧ t.curAgent.status = .accept s.curTeam.nextCopy ∧
             t.curAgent.pc = s.curAgent.pc ∧ cellGet Copy.blank t.curTeam.copies s.curTeam.nextCopy =
               { c with exponent := (BitVec.ofNat 8 (x % 256)).toInt, span := if x / 2 ^ 8 % 4 = 0 then 62 else if x / 2 ^ 8 % 4 = 1 then 82 else 124 })) ∧
      (let c := s.draftCopy .cpyx f 0
       ∀ r, s.copyChecks c f = some r → exec (.cpyx f) s = .next (s.raise r))) ∧
    (∀ (a : AgentRef) (id : Nat), (s.agent a).status = .accept id → s.runs a.team = true → cellHas (s.team a.team).agents a.agent = true →
      (s.launch (s.team a.team).launch).determinate = false → (s.agent a).info = none →
      (s.copyRoom a.team = false → exec (.copyAccept a) s = .next s) ∧
      (s.copyRoom a.team = true → (cellGet Copy.blank (s.team a.team).copies id).kind ≠ .cpym →
        ∃ t, exec (.copyAccept a) s = .next t ∧ copyFrame s t a.team ∧ copyAccepted s t a id (cellGet Copy.blank (s.team a.team).copies id) ∧
          (t.agent a).pc = (s.agent a).pc + 2 ∧ (t.agent a).status = .ready) ∧
      (s.copyRoom a.team = true → (cellGet Copy.blank (s.team a.team).copies id).kind = .cpym →
        ∃ t, exec (.copyAccept a) s = .next t ∧ sameBytes s t ∧ copyAccepted s t a id (cellGet Copy.blank (s.team a.team).copies id) ∧
          (t.agent a).pc = (s.agent a).pc + 2 ∧ (t.agent a).status = .ready)) ∧
    (∀ (la : BitVec 4) (d : SReg) (bm : LayoutRef) (slot : DSlot) (mask : Word) (l : Layout),
      let h := s.handleOf bm
      let w := s.dCoord slot
      let a := wordAddr l w
      let i : Instr := .bmwait la d bm slot mask
      let lost := s.curTeam.lost.contains (a / 4)
      let gives (status : DWord) (sat : Bool) (view : View) : Prop := ∃ t, exec i s = .next t ∧ goesOn s t 2 ∧ (s.reissues = false → sameSets s t) ∧
        { t with teams := s.teams, cores := s.cores } = s ∧ (∀ q, q ≠ s.cur.team → t.team q = s.team q) ∧
        { t.curTeam with groups := s.curTeam.groups, agents := s.curTeam.agents, handles := s.curTeam.handles, copies := s.curTeam.copies,
                         store := s.curTeam.store, tvec := s.curTeam.tvec } = s.curTeam ∧
        (∀ g, (t.curTeam.group g).still = (s.curTeam.group g).still) ∧ (∀ gl r, t.vreg gl r = s.vreg gl r) ∧
        (∀ g n, cellGet 0 (t.curTeam.group g).s n = if g = s.curAgent.host ∧ n = d.toNat then status else cellGet 0 (s.curTeam.group g).s n) ∧
        (∀ g, (t.curTeam.group g).sat = if g = s.curAgent.host ∧ sat = true then s.sats g ||| 1 else s.sats g) ∧
        (s.reissues = false → t.curAgent.view = view)
      ((s.curAgent.issued = none ∧ l = s.curTeam.record .streamer h ∧ recordCheck l h [0] (fun l => l.size == 4) 4 [slot] = none ∧ s.blockBounds l [w] 4 = none) ∨
        ∃ i x, s.curAgent.issued = some i ∧ i.recs.head? = some (x, l.raw)) →
        let x := readLE s.curTeam.shared a 4
        (s.badAt (.shared s.cur.team) a 4 = true →
          exec i s = .next ((if s.curAgent.issued.isNone then s.modCur fun y => { y with issued := some ⟨[(h, l.raw)], [], [], [], false⟩ } else s).raise
            { kind := 14, cause := 1, d0 := BitVec.ofNat 64 (64 * (a / 64)) })) ∧
        (s.badAt (.shared s.cur.team) a 4 = false →
        (Nat.land x mask.toNat ≠ mask.toNat → waitsOn i s [(h, l.raw)]) ∧
        (Nat.land x mask.toNat = mask.toNat → mask = 0 ∨ s.curTeam.namedCopy (a / 4) = none → gives 0 lost s.curAgent.view) ∧
        (∀ c, Nat.land x mask.toNat = mask.toNat → mask ≠ 0 → s.curTeam.namedCopy (a / 4) = some c →
          let owned := c.owned (a / 4) mask.toNat
          let out (j : Nat) := s.curTeam.outcomeOf c j
          let fails := owned.filter fun j => (out j).code != 0
          (s.curGroup.rmode.toNat < 2 ∨ (∀ j ∈ fails, (out j).code ≠ 6) →
            gives (match fails with
              | j :: more => BitVec.ofNat 64 ((out j).code + j * 2 ^ 8 + (if !more.isEmpty || lost then 2 ^ 20 else 0) +
                  (if (out j).code ≤ 2 then (out j).page.toNat else 0) * 2 ^ 32)
              | [] => if lost then BitVec.ofNat 64 (8 + owned.headD 0 * 2 ^ 8 + 2 ^ 20) else 0)
              (lost || owned.any fun j => (out j).sat) (owned.foldl (fun v j => v ||| (cellGet Obs.blank c.obs j).view) (s.curAgent.view ||| c.view))) ∧
          (2 ≤ s.curGroup.rmode.toNat → ∀ j, fails.find? (fun j => (out j).code == 6) = some j →
            ∃ u, { u with teams := s.teams } = s ∧ sameBytes s u ∧ exec i s = .next (u.raise { kind := 13, record := (out j).record })))))

/-- The streamer's steps (R203, R205, R207, R208, R218, R220, R235, R236): a slice of four chunks starts from the first queue of the round with work and
credit, while a queue whose credit is spent keeps what is left of it; a chunk lands by its destination bytes becoming its source's, or the converted elements
of its blocks, and the bit of its run; the last one of a draining team ends the team; a cpym's chunk reads alone, and its delivery lands in its position's
team, or is counted when that team has ended. Where the spec leaves a point open, this states the model's choice: logs 14, 67 and 107. -/
def Obligations.EnginesMoveBytes : Prop :=
  ∀ s : State,
    (∀ (core j : Nat) (r : Nat × Nat) (rest : List (Nat × Nat)),
      let k := s.core core
      let c := (k.visit + 4 - j) % 4
      k.visit < 4 → j < 4 → (∀ i < j, s.queueOf core ((k.visit + 4 - i) % 4) = []) → s.queueOf core c = r :: rest →
      let x := s.copyOf r
      let d := cellGet 0 k.deficits c + if j = 0 ∧ k.paid = true then 0 else 2048 * 2 ^ c
      let z := min (512 * x.started + 2048) x.tileBytes - 512 * x.started
      z ≤ d → ∃ t, exec (.sliceStart core) s = .next t ∧ sameBytes s t ∧ t.copyOf r = { x with started := min x.chunks (x.started + 4) } ∧
        (t.core core).visit = c ∧ (t.core core).queue = k.queue.filter (· != r) ++ (if x.chunks ≤ x.started + 4 then [] else [r]) ∧
        cellGet 0 (t.core core).deficits c = if (t.queueOf core c).isEmpty then 0 else d - z) ∧
    (∀ (core j : Nat) (p r : Nat × Nat) (ps rest : List (Nat × Nat)),
      let k := s.core core
      let c := (k.visit + 4 - j) % 4
      let size (r : Nat × Nat) : Nat := let x := s.copyOf r
                                       min (512 * x.started + 2048) x.tileBytes - 512 * x.started
      k.visit < 4 → k.paid = true → s.queueOf core k.visit = p :: ps → cellGet 0 k.deficits k.visit < size p →
      1 ≤ j → j ≤ 4 → (∀ i, 1 ≤ i → i < j → s.queueOf core ((k.visit + 4 - i) % 4) = []) → s.queueOf core c = r :: rest →
      let x := s.copyOf r
      ∃ t, exec (.sliceStart core) s = .next t ∧ sameBytes s t ∧ t.copyOf r = { x with started := min x.chunks (x.started + 4) } ∧
        (t.core core).visit = c ∧ (t.core core).queue = k.queue.filter (· != r) ++ (if x.chunks ≤ x.started + 4 then [] else [r]) ∧
        (c ≠ k.visit → cellGet 0 (t.core core).deficits k.visit = cellGet 0 k.deficits k.visit) ∧
        cellGet 0 (t.core core).deficits c = if (t.queueOf core c).isEmpty then 0 else cellGet 0 k.deficits c + 2048 * 2 ^ c - size r) ∧
    (∀ (team id i : Nat) (src dst : List Spot),
      let c := cellGet Copy.blank (s.team team).copies id
      let view := c.view ||| s.overlapView team c (s.chunkReads team c i) []
      let bytes := src.map fun p => s.byteAt p.key p.place p.addr
      s.chunkTurn team id i → (s.team team).status = .draining → (∀ g ∈ (s.team team).groups, g.2.live = 0) → c.kind = .cpy →
      s.srcSpots team c i src → s.dstSpots team team c i dst → s.readsFreely team id c src view →
      s.writesFreely team id c i dst [team] (s.landView team team c i) →
        ∃ t, exec (.chunkLand team id i) s = .next t ∧ (∀ x ∈ dst.zip bytes, x.1.place = .main → t.byteAt x.1.key x.1.place x.1.addr = x.2) ∧
          if (∀ p ∈ (s.team team).ownCopies, p.1 = id) ∧ ∀ j < c.chunks, j = i ∨ j ∈ c.landed then
            cellHas t.teams team = false ∨ (t.team team).status = .ended
          else (t.team team).status = .draining ∧ chunkDone s t team id i ∧ landed s t c i dst bytes [team]) ∧
    (∀ (team id i : Nat) (src dst : List Spot),
      let c := cellGet Copy.blank (s.team team).copies id
      let view := c.view ||| s.overlapView team c (s.chunkReads team c i) []
      let bytes := src.map fun p => s.byteAt p.key p.place p.addr
      s.chunkReady team id i → s.srcSpots team c i src → s.dstSpots team team c i dst → s.readsFreely team id c src view →
      (c.kind = .cpym → ∃ t, exec (.chunkLand team id i) s = .next t ∧ sameBytes s t ∧
        let f := cellGet Fetch.blank (cellGet Copy.blank (t.team team).copies id).fetched i
        f.bytes = bytes.map some ∧ f.out = Outcome.none ∧ f.near = false) ∧
      (s.writesFreely team id c i dst [team] (s.landView team team c i) →
        (c.kind = .cpy → ∃ t, exec (.chunkLand team id i) s = .next t ∧ chunkDone s t team id i ∧ landed s t c i dst bytes [team]) ∧
        (c.kind = .cpyx → 0 < c.span → (∀ n ∈ c.blocks (c.range i).1 (c.range i).2, (blockFormat (s.blockBytes team c n) c.span).isSome = true) →
          ∃ t, exec (.chunkLand team id i) s = .next t ∧ chunkDone s t team id i ∧
            landed s t c i dst ((List.range ((c.range i).2 - (c.range i).1)).map fun k => s.expandedByte team c ((c.range i).1 + k)) [team]))) ∧
    (∀ (team id i position q : Nat) (tag : Nat × BitVec 32) (bytes : List Byte) (dst : List Spot),
      let t := s.team team
      let c := cellGet Copy.blank t.copies id
      let f := cellGet Fetch.blank c.fetched i
      let last : Bool := c.targets.all fun p => p.1 == position || (c.deliveryAt i p.1).isSome
      let done (u : State) (code : Nat) : Prop := if last then chunkDone s u team id i
        else ∃ d ∈ (cellGet Copy.blank (u.team team).copies id).delivered, d.chunk = i ∧ d.position = position ∧ d.out.code = code
      s.copyLives team id = true → c.remote = none → c.kind = .cpym → i < c.chunks → i ∉ c.landed → t.status ≠ .draining →
      s.teamAt t.cluster position = some q → c.targets.find? (fun p => p.1 == position) = some tag →
      cellHas c.fetched i = true → c.deliveryAt i position = none →
      (∀ r ∈ s.requestsOf (team, id, i), r.2.state = .acked ∧ r.2.answer ≠ .abandoned) →
      s.inOrder team c i = true → s.mustWait team c [] (s.chunkWrites q c i) = false →
      ((s.team q).status = .ended ∨ (s.team q).gen ≠ tag.2 → (last = true → s.raceFree (c.bitAcc team id team i c.view)) →
        ∃ u, exec (.deliveryLand team id i position) s = .next u ∧ landed s u c i [] [] (if last then [team] else []) ∧ done u 7 ∧
          (u.launch t.launch).dropped.toNat = min ((s.launch t.launch).dropped.toNat + 1) (2 ^ 32 - 1)) ∧
      ((s.team q).status ≠ .ended → (s.team q).gen = tag.2 → f.out = Outcome.none → f.near = false → f.bytes = bytes.map some → bytes.length = dst.length →
        s.dstSpots team q c i dst →
        let bits := (if q = team then [] else [q]) ++ if last then [team] else []
        s.writesFreely team id c i dst bits (s.landView team q c i) →
        ∃ u, exec (.deliveryLand team id i position) s = .next u ∧ landed s u c i dst bytes bits ∧ done u 0))

/-- A move of an overpass column (R226, R230, R231): one that is due, or that system software starts by its table, marks every entry bound to the column,
those of stacked clusters among them, copies it row by row, abandons it at a storage error, and ends with the entries naming the new column, which holds the
bytes. Where the spec leaves a point open, this states the model's choice: logs 33, 36, 51 and 110. -/
def Obligations.ColumnMoves : Prop :=
  ∀ (s : State) (tower p q : Nat), tower < 4 → p < 48 → q < 48 → p ≠ q →
    let entries (t : State) (c : Nat) : List ColEntry := (t.cluster c).binding
    let rename (a b : Nat) (x y : ColEntry) : Prop := y = if x.col = p ∧ x.state = a then (if b = 2 then ⟨p, q, 2⟩ else if b = 1 then ⟨p, 0, 1⟩ else ⟨q, 0, 1⟩) else x
    let renamed (t : State) (a b : Nat) : Prop := ∀ c, (s.cluster c).tower = tower →
      (entries t c).length = (entries s c).length ∧ ∀ x ∈ (entries s c).zip (entries t c), rename a b x.1 x.2
    let others (t : State) : Prop := ∀ n, n ≠ 48 * tower + p → n ≠ 48 * tower + q → (t.column n).bytes = (s.column n).bytes
    let starts (i : Instr) : Prop := ∃ t, exec i s = .next t ∧ renamed t 1 2 ∧ (t.tower tower).move = some (p, q, 0) ∧
      t.column (48 * tower + p) = s.column (48 * tower + p) ∧ (t.column (48 * tower + q)).bytes = [] ∧ others t ∧ t.main = s.main
    ((s.tower tower).move = none → (∀ c ∈ s.clusters, c.2.holds tower q = false) → s.columnDegraded tower q = false →
      (s.moveDue tower p q = true → starts (.moveStart tower p q)) ∧
      ∀ (c n : Nat) (x : DWord) (e : ColEntry), cellHas s.clusters c = true → (s.cluster c).tower = tower → (s.cluster c).binding[n]? = some e →
        e.col = p → e.state = 1 → bitsOf x 0 6 = p → bitsOf x 6 6 = q → bitsOf x 12 2 = 2 → starts (.registerWrite (.columnTable c n x))) ∧
    (∀ row, (s.tower tower).move = some (p, q, row) → row < 32768 →
      (s.badAt (.column tower p) (128 * row) 128 = false → ∃ t, exec (.moveRowCopy tower) s = .next t ∧ (t.tower tower).move = some (p, q, row + 1) ∧
        t.clusters = s.clusters ∧ t.main = s.main ∧ others t ∧ t.column (48 * tower + p) = s.column (48 * tower + p) ∧
        ∀ a, readByte (t.column (48 * tower + q)).bytes a =
          readByte (s.column (48 * tower + if 128 * row ≤ a ∧ a < 128 * row + 128 then p else q)).bytes a) ∧
      (s.badAt (.column tower p) (128 * row) 128 = true → ∃ t, exec (.moveRowCopy tower) s = .next t ∧ (t.tower tower).move = none ∧ renamed t 2 1 ∧
        t.column (48 * tower + p) = s.column (48 * tower + p) ∧ others t ∧ t.main = s.main ∧ t.errorLog = s.errorLog ++ [(7, 48 * tower + p)])) ∧
    ((s.tower tower).move = some (p, q, 32768) →
      ∃ t, exec (.moveSwitch tower) s = .next t ∧ (t.tower tower).move = none ∧ renamed t 2 3 ∧ (t.column (48 * tower + p)).bytes = [] ∧
        (t.column (48 * tower + q)).bytes = (s.column (48 * tower + q)).bytes ∧
        (t.column (48 * tower + q)).metas = (s.column (48 * tower + p)).metas ∧ others t ∧ t.main = s.main)

-- The matrix engine.
/-- gang, mfence.opr, mma and the waits (R175, R176, R188 to R192): gang binds or releases the group's gang and its queue; mma waits in the latch, and the
last member's arrival creates the command with what the members named; a wait holds until the commands are complete, and then marks them; a stopped command is
its leader's fault. Where the spec leaves a point open, this states the model's choice: logs 7, 24 and 129. -/
def Obligations.MatrixCommandsIssue : Prop :=
  ∀ s : State, s.canIssue = true →
    let host := s.curAgent.host
    let part : Raise := { kind := 7, d0 := s.curTeam.k0Desc s.cur.agent, d1 := dw s.curGroup.live.toNat }
    (s.fullSet = false → ∀ (g : GangArgs) (f : MmaArgs) (id : BitVec 6) (d : SReg) (q : QReg),
      exec (.gang g) s = .next (s.raise part) ∧ exec .mfenceOpr s = .next (s.raise part) ∧ exec (.mma f) s = .next (s.raise part) ∧
        exec (.mwait id) s = .next (s.raise part) ∧ exec .mwaitAll s = .next (s.raise part) ∧ exec (.mwaitPop d q) s = .next (s.raise part)) ∧
    (s.fullSet = true →
      (∀ g : GangArgs,
        let slots := gangSlots g
        let y := s.curGroup.unbindGang
        let binds (gang : Option Gang) (queue : Nat → DWord) : Prop := ∃ t, exec (.gang g) s = .next t ∧ matrixFrame s t s.cur.team ∧
          sameRegisters s t s.cur.team ∧ goesOn s t 1 ∧ t.curTeam.cmds = s.curTeam.cmds ∧ t.curTeam.latches = s.curTeam.latches ∧
          (∀ x, x ≠ host → (t.curTeam.group x).bare = (s.curTeam.group x).bare) ∧ (t.curTeam.group host).gang = gang ∧
          (∀ n, cellGet 0 (t.curTeam.group host).q n = queue n) ∧
          { (t.curTeam.group host).bare with gang := none, q := [], tokens := [] } = { s.curGroup.bare with gang := none, q := [], tokens := [] }
        (s.curTeam.cmdsOf host ≠ [] → exec (.gang g) s = .next (s.raise { kind := 18, cause := 6 })) ∧
        (s.curTeam.cmdsOf host = [] → g.shape = 0 → binds none (cellGet 0 y.q)) ∧
        (s.curTeam.cmdsOf host = [] → g.shape ≠ 0 →
          let bad : Bool := decide (s.curTeam.lanesN < 32) || slots.any (fun n => decide (s.curTeam.groupsN ≤ n)) || !slots.contains host
          (bad = true → exec (.gang g) s = .next (s.raise { kind := 18, cause := 7 })) ∧
          (bad = false → ∀ q, g.q = some q → cellGet 0 y.q q.toNat ≠ 0 → exec (.gang g) s = .next (s.raise { kind := 18, cause := 8, d0 := dw q.toNat })) ∧
          (bad = false → (∀ q, g.q = some q → cellGet 0 y.q q.toNat = 0) →
            binds (some ⟨g.shape, slots, g.q⟩) fun n => if g.q.any (fun q => q.toNat == n) then 2 ^ 9 else cellGet 0 y.q n))) ∧
      (∃ t, exec .mfenceOpr s = .next t ∧ onlyTeam s t ∧ sameRegisters s t s.cur.team ∧ goesOn s t 1 ∧ (t.curTeam.group host).unfenced = 0 ∧
        ∀ g, (t.curTeam.group g).bare = (s.curTeam.group g).bare) ∧
      (∀ f : MmaArgs,
        s.mmaArrival f = s.arrivalFaults f ∧ (∀ l, latchChecked s l) ∧
        (∀ r, s.mmaArrival f = some r → exec (.mma f) s = .next (s.raise r)) ∧
        (∀ g, s.mmaArrival f = none → s.curGroup.gang = some g →
          let arrived := ((s.curTeam.latchOf g).map fun l => l.arrived).getD [] ++ [(host, f.c.toNat, f.b.toNat)]
          let all : Bool := g.slots.all fun n => arrived.any fun m => m.1 == n
          (all = false → ∃ t, exec (.mma f) s = .next t ∧ matrixFrame s t s.cur.team ∧ sameRegisters s t s.cur.team ∧ t.curTeam.cmds = s.curTeam.cmds ∧
            t.curAgent = { s.curAgent with status := .latch } ∧ ∃ l ∈ t.curTeam.latches, l.gang.same g = true ∧ l.arrived = arrived) ∧
          (all = true → s.curLaunch.determinate = false → ∀ l : Latch, l = (match s.curTeam.latchOf g with
              | some x => { x with arrived := arrived }
              | none => ⟨g.slots.foldl min 31, g, f, s.handleOf f.a.l, f.a.slots.map s.dCoord, s.curAgent.pc, arrived⟩) →
            s.latchFault l = none → ∃ t c, exec (.mma f) s = .next t ∧ matrixFrame s t s.cur.team ∧ sameRegisters s t s.cur.team ∧
              t.curTeam.cmds = s.curTeam.cmds ++ [c] ∧ (∀ x ∈ t.curTeam.latches, x ≠ l) ∧ t.curAgent = { s.curAgent with status := .latch } ∧
              c.id = l.args.id ∧ c.leader = l.leader ∧ c.state = .checked ∧ c.fmt = l.args.fmt ∧ c.n = l.args.n.toNat ∧ c.ranges = arrived ∧
              c.pids = l.args.p0.toList ++ l.args.p1.toList ∧ c.layout = l.layout ∧ c.arec = (s.curTeam.record .matrix l.layout).raw ∧
              c.coords = l.coords ∧ c.elem = 0 ∧ c.part = [] ∧ c.met = none ∧ c.waited = []))) ∧
      (∀ c, s.curTeam.stoppedFor host = some c → ∀ (id : BitVec 6) (d : SReg) (q : QReg),
        exec (.mwait id) s = .next (s.raise c.raise) ∧ exec .mwaitAll s = .next (s.raise c.raise) ∧ exec (.mwaitPop d q) s = .next (s.raise c.raise)) ∧
      (s.curTeam.stoppedFor host = none → (s.curTeam.cmds.map fun c => (c.leader, c.id)).Nodup →
        let returns (i : Instr) (cs : List Cmd) (scalar : Nat → DWord) : Prop := ∃ t, exec i s = .next t ∧ matrixFrame s t s.cur.team ∧ goesOn s t 1 ∧
          (s.reissues = false → sameSets s t) ∧ (∀ gl r, t.vreg gl r = s.vreg gl r) ∧ (∀ g, (t.curTeam.group g).sat = (s.curTeam.group g).sat) ∧
          (∀ g n, cellGet 0 (t.curTeam.group g).s n = if g = host then scalar n else cellGet 0 (s.curTeam.group g).s n) ∧
          (∀ g, { (t.curTeam.group g).still with tokens := [] } = { (s.curTeam.group g).still with tokens := [] }) ∧
          t.curTeam.cmds = (s.curTeam.cmds.map fun c => if c ∈ cs then { c with waited := c.waited ++ [host] } else c).filter
            fun c => !(c.state == .complete && c.gang.slots.all fun g => c.waited.contains g)
        let mine := s.curTeam.unwaited host
        (∀ id : BitVec 6, let cs := mine.filter fun c => c.id == id
          ((∃ c ∈ cs, c.state ≠ .complete) → exec (.mwait id) s = .next s) ∧ ((∀ c ∈ cs, c.state = .complete) → returns (.mwait id) cs s.sreg)) ∧
        ((∃ c ∈ mine, c.state ≠ .complete) → exec .mwaitAll s = .next s) ∧ ((∀ c ∈ mine, c.state = .complete) → returns .mwaitAll mine s.sreg) ∧
        (∀ (d : SReg) (q : QReg) (g : Gang), s.curGroup.gang = some g →
          (g.queue ≠ some q → exec (.mwaitPop d q) s = .next (s.raise { kind := 18, cause := 8, d0 := dw q.toNat })) ∧
          (g.queue = some q → cellGet [] s.curGroup.tokens q.toNat = [] → exec (.mwaitPop d q) s = .next s) ∧
          (∀ x more, g.queue = some q → cellGet [] s.curGroup.tokens q.toNat = x :: more →
            returns (.mwaitPop d q) (mine.filter fun c => c.state == .complete && c.token == x) fun n => if n = d.toNat then x else s.sreg n))))

/-- The matrix engine's steps (R72, R179 to R185, R191, R199): a checked command is accepted when the sequencer has room, and its members go on; the earliest
ready command whose arrays are free starts; each member's array reads its 16 rows of a K-step group in pieces of 128 bytes, in any order from the latch's
close to completion (R242, R258); a group of an executing command lands once its bytes are read; the last one lands with the command's completion, which gives
every bound queue a token. Where the spec leaves a point open, this states the model's choice: logs 14 and 73. -/
def Obligations.MatrixEngineRuns : Prop :=
  ∀ (s : State) (team leader : Nat) (id : BitVec 6) (c : Cmd), s.runs team = true → (s.team team).cmd leader id = some c →
    let u := s.team team
    let now (t : State) := (t.team team).cmd leader id
    (c.state = .checked → c.queued = false → (s.launch u.launch).determinate = false →
      let busy := ((s.coreCmds u.core).filter fun d => !d.queued && (d.state == .waiting || d.state == .executing || d.state == .stopped)).length
      (64 ≤ busy → exec (.commandAccept team leader id) s = .next s) ∧
      (busy < 64 → (c.ranges.map fun m => m.1).Nodup → (∀ m ∈ c.ranges, cellHas u.agents m.1 = true ∧ (u.agent m.1).info = none) →
        ∃ t, exec (.commandAccept team leader id) s = .next t ∧ matrixFrame s t team ∧ sameRegisters s t team ∧
          (now t).map (fun d => d.state) = some .waiting ∧
          (now t).map (fun d => d.preds) = some ((u.cmds.filter fun d => d.leader == leader && c.pids.contains d.id).map fun d => d.order) ∧
          ∀ m ∈ c.ranges, ((t.team team).agent m.1).pc = (u.agent m.1).pc + 2 ∧ ((t.team team).agent m.1).status = .ready)) ∧
    (c.ready u = true → s.cmdTurn team c = true →
      let free (d : Cmd) : Prop := ∀ e ∈ s.coreCmds u.core, e.state = .executing → ∀ q ∈ d.quarters, q ∉ e.quarters
      free c → (∀ p ∈ s.teams, p.2.core = u.core → s.runs p.1 = true → ∀ d ∈ p.2.cmds, d.ready p.2 = true → free d → c.order ≤ d.order) →
        ∃ t, exec (.commandStart team leader id) s = .next t ∧
          ((∀ m ∈ c.ranges, ∀ r, (m.2.1 ≤ r ∧ r < m.2.1 + 32) ∨ (m.2.2 ≤ r ∧ r < m.2.2 + bRange c.gang.full c.n) → s.lineHere team m.1 r = true) →
            matrixFrame s t team ∧ sameRegisters s t team) ∧
          now t = some (if c.recheck = true ∧ (u.record .matrix c.layout).raw ≠ c.arec then { c with state := .stopped, fault := some (3, 0), recheck := false }
            else { c with state := .executing, recheck := false })) ∧
    (∀ p group k : Nat, c.state = .checked ∨ c.state = .waiting ∨ c.state = .executing → c.queued = false → u.mismatched c = false →
      p < c.gang.slots.length → c.elem ≤ group → group < c.n → c.met = none → s.cmdTurn team c = true → s.pieceTurn team c p group k = true →
      (c.ranges.map fun m => m.1).Nodup → s.aReadsFreely team c p group k →
        let part := c.part ++ (c.piece p group (s.aSpots team c p group) k).map fun x => ((p, group), x.place, x.addr, s.byteAt x.key x.place x.addr)
        let now (t : State) := (now t).map fun d => (d.elem, d.part, d.met, d.state)
        ∃ t, exec (.matrixARead team leader ⟨id, p, group, k⟩) s = .next t ∧ sameBytes s t ∧
          (∀ g n, cellGet 0 ((t.team team).group g).s n = cellGet 0 ((s.team team).group g).s n) ∧
          match s.stepReads team { c with part := part } with
          | some reads =>
            if c.state = .executing ∧ c.elem + 1 ≠ c.n then
              stepLands s t team c reads ∧ now t = some (c.elem + 1, part.filter (fun b => decide (c.elem < b.1.2)), none, .executing)
            else (∀ gl r, (t.team team).vreg gl r = u.vreg gl r) ∧ now t = some (c.elem, part, none, c.state)
          | none => (∀ gl r, (t.team team).vreg gl r = u.vreg gl r) ∧ now t = some (c.elem, part, none, c.state)) ∧
    (c.state = .executing → s.cmdTurn team c = true → (c.ranges.map fun m => m.1).Nodup →
      (∀ reads, c.elem + 1 = c.n → s.stepReads team c = some reads → c.gang.slots.Nodup →
        ∃ t, exec (.commandComplete team leader id) s = .next t ∧ matrixFrame s t team ∧ stepLands s t team c reads ∧
          (now t).map (fun d => (d.elem, d.part, d.met, d.state)) = some (c.n, [], none, .complete) ∧
          (∀ g n, cellGet 0 ((t.team team).group g).s n = cellGet 0 (u.group g).s n) ∧
          ∀ g q, cellGet [] ((t.team team).group g).tokens q = if g ∈ c.gang.slots ∧ (u.group g).gang.any (fun x => x.queue.any fun y => y.toNat == q)
            then cellGet [] (u.group g).tokens q ++ [BitVec.ofNat 64 (c.id.toNat + c.n * 2 ^ 8)] else cellGet [] (u.group g).tokens q))

-- Traps.
/-- Traps form fragments (R36, R117, R306 to R311): trap and bkpt strike their members and retire for the others; a whole fault, that of a word that does not
decode among them, strikes all of the agent's k0 before any effect; a fragment is delivered at once outside every region, or when its turn has come. Where the
spec leaves a point open, this states the model's choice: logs 26 and 97. -/
def Obligations.TrapsFormFragments : Prop :=
  ∀ s : State,
    (s.canIssue = true → s.agentsOk = true → s.curTeam.takesTrap → s.reissues = false →
      let x := s.curAgent
      let w := s.wordAt s.cur x.pc
      let k0 := s.curTeam.k0Set s.cur.agent &&& x.lanes
      let soft (i : Instr) (k : KReg) (kind : Nat) (code : BitVec 16) : Prop :=
        (s.lanes k ≠ [] → s.curTeam.own s.cur.agent (s.curTeam.k0Set s.cur.agent) ≠ 0 → ∃ t, exec i s = .next t ∧ trapped s t (laneUnion (s.lanes k)) { kind := kind, d0 := dw code.toNat } w x.pc (x.rest - 1) true ∧
          (x.kind = .group → x.stack = [] → t.curAgent.pc = x.pc + 1 ∧ t.curAgent.rest = x.rest - 1)) ∧
        (s.lanes k = [] → s.curTeam.own s.cur.agent (s.curTeam.k0Set s.cur.agent) ≠ 0 → transfers i s none)
      (∀ k code, soft (.trap k code) k 25 code ∧ (s.stopArmed s.cur 3 = false → soft (.bkpt k code) k 26 code) ∧
        (s.stopArmed s.cur 3 = true → exec (.bkpt k code) s = .next (s.stopHold s.cur 3 0))) ∧
      (∀ f : Raise, trapped s (s.raise f) k0 f w x.pc (x.rest - wordCount w) false) ∧
      (∀ (cause : BitVec 3) (word : DWord), ∃ t, exec (.unassignedOpcodeIssue cause word) s = .next t ∧
        trapped s t k0 { kind := 1, cause := cause.toNat } word x.pc (x.rest - wordCount word) false)) ∧
    (∀ (a : AgentRef) (i : TrapInfo), s.runs a.team = true → cellHas (s.team a.team).agents a.agent = true → (s.agent a).status = .pending →
      (s.agent a).info = some i → i.lanes = (s.agent a).lanes →
      let x := s.agent a
      ((s.team a.team).turnOf a.agent x = false → exec (.trapDelivery a) s = .next s) ∧
      ((s.team a.team).turnOf a.agent x = true → s.canDeliver a.team x.host (x.depth + 1) →
        ∃ t, exec (.trapDelivery a) s = .next t ∧ trapFrameOk s t a.team x.host (i.owner.getD x.host) ∧ delivered s t a.team x.host (x.depth + 1) i (s.swdOf a) ∧
          (t.agent a).status = .ready ∧ (t.agent a).depth = x.depth + 1 ∧ (t.agent a).lanes = x.lanes ∧
          ∀ h, (s.kernelOf (s.team a.team)).handler = some h → entersAt s t a h) ∧
      ((s.team a.team).turnOf a.agent x = true → ¬s.canDeliver a.team x.host (x.depth + 1) →
        ∃ t, exec (.trapDelivery a) s = .next t ∧ sameBytes s t ∧
          (t.launch (s.team a.team).launch).kill = some ⟨2, i.pc, (s.team a.team).index, (s.team a.team).node, x.host, i.kind⟩))

/-- Returns from a trap (R47, R117, R196, R275, R313, R314): outside a handler, and on a stack or frame that does not fit, they fault; tret re-issues the
instruction, or goes on behind a trap or bkpt; tret.skip goes on behind it with sr.ms cleared; both resume or abandon a stopped command; tret.complete stands
before the instruction with the frame's registers back, performs the racing access of its lane, or of its agent, at the address that it has there, or the
struck element of a milestone instruction, and raises the vector entry for the other party. Where the spec leaves a point open, this states the model's
choice: logs 60 and 134. -/
def Obligations.ReturnsFromTraps : Prop :=
  ∀ s : State, s.canIssue = true →
    let x := s.curAgent
    let fault (i : Instr) (f : Raise) : Prop := exec i s = .next (s.raise f)
    let handler (c : Nat) : Raise := { kind := 24, cause := c }
    (x.inHandler = false → fault .tret (handler 1) ∧ fault .tretSkip (handler 1) ∧ fault .tretComplete (handler 1) ∧ fault .tkill (handler 1) ∧
      fault .tpass (handler 1)) ∧
    (x.inHandler = true →
      (0xC000 < s.sp + 256 → fault .tret { kind := 2, d0 := dw s.sp } ∧ fault .tretSkip { kind := 2, d0 := dw s.sp } ∧
        fault .tretComplete { kind := 2, d0 := dw s.sp }) ∧
      (s.sp + 256 ≤ 0xC000 → s.frameKind ≠ 13 ∨ s.curGroup.rmode ≠ 3 → fault .tretComplete (handler 2)) ∧
      (s.sp + 256 ≤ 0xC000 → s.frameGood = false → fault .tret (handler 3) ∧ fault .tretSkip (handler 3) ∧
        (s.frameKind = 13 → s.curGroup.rmode = 3 → fault .tretComplete (handler 3))) ∧
      (∀ (p d : Nat) (i : TrapInfo), x.kind = .trap p d → x.info = some i → i.redo = false → s.sp + 256 ≤ 0xC000 → s.frameGood = true →
        s.curTeam.noneHeld →
        let pc := s.framePc
        let w := s.wordAt s.cur pc
        let rest := if i.atHeader = true ∧ i.pc = pc then 0 else s.frameRest + wordCount w
        let owner := i.owner.getD x.host
        let back (t : State) (cleared : Bool) : Prop := restored s t s.cur.team owner cleared
        let lone : Prop := x.inRegion = false ∧ p ≠ s.cur.agent ∧ cellHas s.curTeam.agents p = true ∧ (s.curTeam.agent p).kind = .group ∧
          ∀ q ∈ s.curTeam.children p, q.1 = s.cur.agent
        (s.frameKind ≠ 19 →
          (x.inRegion = true →
            (∃ t, exec .tret s = .next t ∧ back t false ∧ (if isSoftTrap w then goesOnAt s t (pc + wordCount w) s.frameRest else goesOnAt s t pc rest)) ∧
            ∃ t, exec .tretSkip s = .next t ∧ back t true ∧ goesOnAt s t (pc + wordCount w) s.frameRest) ∧
          (x.inRegion = false → i.retired = true → isSoftTrap w = false → ∃ t, exec .tret s = .next t ∧ back t false ∧ goesOnAt s t pc rest ∧
            t.curAgent.info = some { i with redo := true, retired := false, delivered := false }) ∧
          (lone → i.retired = false →
            (isSoftTrap w = false → ∃ t, exec .tret s = .next t ∧ back t false ∧ rejoined s t p pc rest) ∧
            ∃ t, exec .tretSkip s = .next t ∧ back t true ∧ rejoined s t p (pc + wordCount w) s.frameRest) ∧
          (lone → i.retired = true →
            (isSoftTrap w = true → ∃ t, exec .tret s = .next t ∧ back t false ∧ rejoined s t p (s.curTeam.agent p).pc (s.curTeam.agent p).rest) ∧
            ∃ t, exec .tretSkip s = .next t ∧ back t true ∧ rejoined s t p (s.curTeam.agent p).pc (s.curTeam.agent p).rest)) ∧
        (s.frameKind = 19 → x.inRegion = true ∨ lone → ∀ c, s.curTeam.stoppedAt owner (BitVec.ofNat 64 (s.frameWord 0xC8)) = some c → (s.curTeam.cmds.map fun c => (c.leader, c.id)).Nodup →
          (∃ t, exec .tret s = .next t ∧ back t true ∧
            t.curTeam.cmd c.leader c.id = some { c with state := .waiting, fault := none, recheck := c.recheck || c.fault.any fun f => f.1 == 3 }) ∧
          ∃ t, exec .tretSkip s = .next t ∧ back t true ∧ t.curTeam.cmd c.leader c.id = none) ∧
        (s.frameKind = 13 → s.curGroup.rmode = 3 →
          let v := s.atRace
          let ms := s.frameWord 0xC8
          let e := ms / 2 ^ 40
          (x.inRegion = true ∨ i.retired = true → back v false ∧ goesOnAt s v pc rest) ∧
          (lone → i.retired = false → back v false ∧ rejoined s v p pc rest) ∧
          (∀ (f : StW) (k : KReg) (d : VReg) (m : MArgs) (gl : Nat), s.instrAt pc = some (.st f k d m) →
            let n := match f with | .w8 => 1 | .w16 => 2 | .w32 => 4 | .w64 => 8
            let l := v.laneLayout m.l
            completesLane s (mOp m n false) [0, 1, 2] k (dataRegs (f == .w64) d) gl false true fun v t => (∀ g r, t.vreg g r = v.vreg g r) ∧
              stored v t (v.laneSpot l n m.slots gl) (m.os != 0) (orient (v.laneSwap l n m.slots gl)
                (wordBytes ((v.vreg gl d.toNat).toNat + if f = .w64 then (v.vreg gl (d.toNat + 1)).toNat * 2 ^ 32 else 0) n))) ∧
          (∀ (f : LdW) (k : KReg) (d : VReg) (m : MArgs) (gl : Nat), s.instrAt pc = some (.ld f k d m) →
            let n := match f with | .s8 | .n8 => 1 | .s16 | .n16 => 2 | .w32 => 4 | .w64 => 8
            let l := v.laneLayout m.l
            let spot := v.laneSpot l n m.slots gl
            let y : DWord := leWord (orient (v.laneSwap l n m.slots gl) (v.sees spot.1 spot.2 n))
            completesLane s (mOp m n false) [0, 1, 2] k (dataRegs (f == .w64) d) gl true false fun v t => sameBytes v t ∧
              ∀ g r, t.vreg g r = if g = gl ∧ r ∈ dataRegs (f == .w64) d then (match f with
                | .s8 => BitVec.ofInt 32 (y.setWidth 8).toInt
                | .s16 => BitVec.ofInt 32 (y.setWidth 16).toInt
                | _ => if r = d.toNat then y.setWidth 32 else (y >>> 32).setWidth 32) else v.vreg g r) ∧
          (∀ (op : AtomOp) (f : AtomArgs) (gl : Nat), (Instr.atom op f).wf = true → s.instrAt pc = some (.atom op f) →
            let n := if f.wide then 8 else 4
            let l := v.laneLayout f.l
            let spot := v.laneSpot l n [f.c0, f.c1] gl
            let sw := v.laneSwap l n [f.c0, f.c1] gl
            let value (r : VReg) : Nat := (v.vreg gl r.toNat).toNat + if f.wide then (v.vreg gl (r.toNat + 1)).toNat * 2 ^ 32 else 0
            let old := (List.range n).map fun j => v.peek spot.1 (spot.2 + j)
            completesLane s (atomMem f) [0, 1, 2] f.k (atomRegs op f) gl true true fun v t =>
              (∀ g r, t.vreg g r = if g = gl ∧ r ∈ dataRegs f.wide f.d then
                BitVec.ofNat 32 (bytesWord (orient sw old) / if r = f.d.toNat then 1 else 2 ^ 32) else v.vreg g r) ∧
              match atomTable op (8 * n) (bytesWord (orient sw old)) (value f.d) (value f.c) with
                | some y => stored v t spot true (orient sw (wordBytes y n))
                | none => sameBytes v t) ∧
          (∀ (d : KReg) (m : MArgs), s.instrAt pc = some (.kld d m) → d ≠ 0 →
            let img := bytesWord (v.ownBytes m 128)
            (∀ j < 1024, img.testBit j = true → j / 32 < v.curTeam.groupsN ∧ j % 32 < v.curTeam.lanesN) →
            completesOwn s m (ordOf m.os) 128 [0, 1, 2] true false fun v t => sameBytes v t ∧ (v.reissues = false →
              t.curTeam.canonicalFor v.curAgent.host (t.kreg v.curAgent.host d.toNat) (BitVec.ofNat 1024 img &&& v.curTeam.liveSet))) ∧
          (∀ (a : KReg) (m : MArgs), s.instrAt pc = some (.kst a m) → v.curLaunch.determinate = false ∨ m.os ≠ 0 →
            completesOwn s m (ordOf m.os) 128 [0, 1, 2] false true fun v t => ownWritten v t m 128 (wordBytes (v.kset a.toNat).toNat 128)) ∧
          (∀ (d : SReg) (m : MArgs),
            let field (j n : Nat) : Nat := bytesWord ((List.range n).map fun b => let q := v.ownSpot m (j + b); v.peek q.1 q.2)
            let valid : Prop := 0 < field 4 4 ∧ field 4 4 ≤ field 0 2 ∧ field 2 2 = 0 ∧ field 12 4 = 0
            let gives (v t : State) : Prop := ∀ g n, cellGet 0 (t.curTeam.group g).s n =
              if g = v.curAgent.host ∧ n = d.toNat then dw (field 8 4) else cellGet 0 (v.curTeam.group g).s n
            (s.instrAt pc = some (.pbarArrive d m) → v.curGroup.sat ≠ 3 → v.fullSet = true → valid →
              completesOwn s m (if m.os = 0 then ⟨none, some 0, 1⟩ else ordOf m.os) 16 [0] true true fun v t => gives v t ∧ ownWritten v t m 16
                (wordBytes (field 0 2) 4 ++ wordBytes (if field 4 4 = 1 then field 0 2 else field 4 4 - 1) 4 ++
                  wordBytes (if field 4 4 = 1 then (field 8 4 + 1) % 2 ^ 32 else field 8 4) 4 ++ [0, 0, 0, 0])) ∧
            (s.instrAt pc = some (.pbarWait d m) → valid → field 8 4 ≠ (v.sreg d.toNat).toNat % 2 ^ 32 →
              completesOwn s m (if m.os = 0 then ⟨some 0, none, 1⟩ else ordOf m.os) 16 [0] true false fun v t => gives v t ∧ sameBytes v t)) ∧
          (∀ (gl : Nat) (recs : List (Nat × BitVec 256)), v.swept 1024 →
            let ls : List Layout := recs.map fun p => ⟨p.2⟩
            let one (T : Tile) (write : Bool) (done : Acc → State → State → Prop) : Prop := T.reopens v ms e gl recs → ∀ q, T.spots v ls e gl = [q] →
              let c := v.tileAcc q.1 q.2.1 q.2.2.1 q.2.2.2 e gl (!write) write
              v.opens c → completesElement s e recs fun v t => raised v t c ∧ done c v t
            let value (T : Tile) : Nat := T.value v e recs gl
            (∀ f : TileArgs, s.instrAt pc = some (.tld f) →
              one (tldTile f v) false fun _ v t => lanePut v t gl (f.d.toNat + e) (BitVec.ofNat 32 (value (tldTile f v)))) ∧
            (∀ f : TileArgs, s.instrAt pc = some (.tred f) →
              one (tredTile f v) false fun _ v t => lanePut v t gl f.d.toNat
                (if ∃ r, recs.head? = some r ∧ bitsOf r.2 57 5 = Ty.f32.code then BitVec.ofNat 32 (fltAdd .f32 0 (v.vreg gl f.d.toNat).toNat (value (tredTile f v)))
                 else BitVec.ofNat 32 ((v.vreg gl f.d.toNat).toNat + value (tredTile f v)))) ∧
            (∀ f : GatherArgs, s.instrAt pc = some (.gather f) →
              one (gatherTile f v) false fun _ v t => lanePut v t gl (f.d.toNat + e) (BitVec.ofNat 32 (value (gatherTile f v)))) ∧
            (∀ f : GatherArgs, s.instrAt pc = some (.scatter f) →
              one (scatterTile f v) true fun c v t => (∀ g r, t.vreg g r = v.vreg g r) ∧
                stored v t (c.place, c.addr) false (wordBytes (v.vreg gl (f.d.toNat + e)).toNat 4)) ∧
            (∀ f : TtrArgs, s.instrAt pc = some (.ttr f) → (ttrTile f v).reopens v ms e gl recs → ∀ src dst, (ttrTile f v).spots v ls e gl = [src, dst] →
              let r := v.tileAcc src.1 src.2.1 src.2.2.1 src.2.2.2 e gl true false
              let c := v.tileAcc dst.1 dst.2.1 dst.2.2.1 dst.2.2.2 e gl false true
              v.opens r → v.unopposed c → completesElement s e recs fun v t => raised v t r ∧ (∀ g r, t.vreg g r = v.vreg g r) ∧
                stored v t (c.place, c.addr) false (orient (v.tileSwap dst) (orient (v.tileSwap src) (v.sees r.place r.addr r.size)))) ∧
            (∀ f : LayerArgs, (s.instrAt pc = some (.lld f) → (lldTile f v).reopens v ms e gl recs → ∀ l, ls = [l] →
                let c := layerAcc f v l e gl true false
                v.opens c → completesElement s e recs fun v t => raised v t c ∧
                  lanePut v t gl (f.d.toNat + e) (BitVec.ofNat 32 (bytesWord (v.sees c.place c.addr 4)))) ∧
              (s.instrAt pc = some (.lst f) → (lstTile f v).reopens v ms e gl recs → ∀ l, ls = [l] →
                let c := layerAcc f v l e gl false true
                v.opens c → completesElement s e recs fun v t => raised v t c ∧ (∀ g r, t.vreg g r = v.vreg g r) ∧
                  stored v t (c.place, c.addr) false (wordBytes (v.vreg gl (f.d.toNat + e)).toNat 4)))))))

/-- Every return from a trap completes (R313, R314): in a handler whose fragment does not re-issue an instruction, on a stack and a frame that fit, tret and
tret.skip restore s8 to s31 and the stack pointer, and clear the milestone of a stopped command or a skipped instruction; tret.complete, for a race in mode 3,
takes the frame from the stack, or forms a new fragment where the instruction it completes traps again (what it restores and performs is in ReturnsFromTraps);
tkill kills the launch with status 1, the trap's PC and its kind; tpass stops the fragment behind it and asks for the eviction of its cluster. Where the spec
leaves a point open, this states the model's choice: log 59. -/
def Obligations.TrapReturnsComplete : Prop :=
  ∀ s : State, s.canIssue = true → s.curAgent.inHandler = true → s.reissues = false →
    let x := s.curAgent
    let owner := (x.info.bind fun i => i.owner).getD x.host
    let cleared (t : State) (b : Bool) : Prop :=
      ∀ g, ((t.team s.cur.team).group g).ms = if g = owner ∧ b = true then 0 else (s.curTeam.group g).ms
    (s.sp + 256 ≤ 0xC000 → s.frameGood = true →
      (∃ t, exec .tret s = .next t ∧ unframed s t s.cur.team ∧ cleared t (s.frameKind == 19)) ∧
      (∃ t, exec .tretSkip s = .next t ∧ unframed s t s.cur.team ∧ cleared t true) ∧
      (s.frameKind = 13 → s.curGroup.rmode = 3 → ∃ t, exec .tretComplete s = .next t ∧
        let sp := ((t.team s.cur.team).group x.host).sp.toNat
        (x.inRegion = true → sp = s.sp + 256) ∧ (sp = s.sp + 256 ∨ s.curTeam.nextAgent < (t.team s.cur.team).nextAgent))) ∧
    (∃ t, exec .tkill s = .next t ∧ sameBytes s t ∧
      (t.launch s.curTeam.launch).kill = some ⟨1, s.framePc, s.curTeam.index, s.curTeam.node, x.host, s.frameKind⟩) ∧
    ∃ t, exec .tpass s = .next t ∧ sameBytes s t ∧ t.curAgent.status = .passed ∧ t.curAgent.pc = x.pc + 1 ∧ t.curAgent.rest = x.rest - 1 ∧
      ∀ q ∈ (s.cluster s.curTeam.cluster).teams, (s.team q).status = .resident → (t.team q).preempt = true

-- Special registers, roles, records of work and trace.
/-- rsr, wsr and rmode (R40 to R43, R278): rsr reads the table of special registers, by lane or as a whole; wsr writes sr.sat or ms; rmode writes every
group's race mode, and a mode other than 0 in a launch of mode 0 is an illegal instruction with cause 6. Where the spec leaves a point open, this states the
model's choice: log 60. -/
def Obligations.SpecialRegisters : Prop :=
  ∀ s : State, s.canIssue = true →
    let u := s.curTeam
    let x := s.curAgent
    let g := s.curGroup
    let host := x.host
    let registers : List DWord := [0, dw host, u.index.setWidth 64, dw u.node, dw u.logical, dw u.position, u.gen.setWidth 64, g.live.setWidth 64,
      g.sat.setWidth 64, dw (if s.curLaunch.determinate then s.curLaunch.commits else s.tick - s.curLaunch.start), g.sp.setWidth 64, dw (s.swdOf s.cur),
      g.ms, g.rmode.setWidth 64]
    let inGroups (t : State) (f : Nat → Group → Group) : Prop := onlyTeam s t ∧ sameValues s t ∧
      { t.curTeam with groups := u.groups, agents := u.agents, handles := u.handles } = u ∧ (∀ h, (t.curTeam.group h).bare = f h (u.group h).bare) ∧
      goesOn s t 1 ∧ (s.reissues = false → sameSets s t)
    (∀ (k : KReg) (d : VReg) (hi : Bool) (n : BitVec 4), s.ready [d.toNat] false →
      laneCompletes (.rsr (.lane k d hi n)) s k d fun gl =>
        let y := if n = 0 then dw (gl % 32) else if n = 1 then dw (gl / 32) else (registers[n.toNat]?).getD 0
        if hi then (y >>> 32).setWidth 32 else y.setWidth 32) ∧
    (∀ (d : SReg) (n : BitVec 4), n ≠ 0 → scalarCompletes (.rsr (.scalar d n)) s d ((registers[n.toNat]?).getD 0)) ∧
    (∀ a : SReg,
      completes (.wsr a 8) s s.vreg s.sreg (fun h => if h = host then (s.sreg a.toNat).setWidth 2 else s.sats h) ∧
      ∃ t, exec (.wsr a 12) s = .next t ∧ inGroups t fun h y => if h = host then { y with ms := s.sreg a.toNat } else y) ∧
    ∀ mode : BitVec 2,
      (mode ≠ 0 → s.curLaunch.mode = 0 → exec (.rmode mode) s = .next (s.raise (illegal 6))) ∧
      (mode = 0 ∨ s.curLaunch.mode ≠ 0 →
        ∃ t, exec (.rmode mode) s = .next t ∧ inGroups t fun h y => if cellHas u.groups h then { y with rmode := mode } else y)

/-- emit and rolesw (R294, R295): emit on an unbound queue or of more records than the bin holds faults, waits while the bin lacks room, and appends the
records in one step, each with the agent's view as a release; rolesw checks, waits for the group's copies and commands, and enters the row's entry with its
budget and priority, without a gang. Where the spec leaves a point open, this states the model's choice: logs 7 and 21. -/
def Obligations.EmitAndRolesw : Prop :=
  ∀ s : State, s.canIssue = true →
    let u := s.curTeam
    let x := s.curAgent
    let host := x.host
    let o := s.objectOf u
    (∀ f : EmitForm,
      let q := match f with | .lane _ _ q => q | .scalar _ q => q
      let regs := match f with | .lane _ a _ => (List.range 16).map fun j => a.toNat + j | .scalar _ _ => []
      let recs : List Rec :=
        let rec_ (bits : Nat) (g : Nat) : Rec := ⟨BitVec.ofNat 512 bits, s.tick, [⟨3, x.view, s.locOf s.cur.team⟩], some (s.cur.team, ⟨s.ident s.cur.team g, (u.group g).clock, true, none⟩)⟩
        match f with
        | .lane k a _ => (s.lanes k).map fun gl => rec_ ((List.range 16).map fun j => (s.vreg gl (a.toNat + j)).toNat * 2 ^ (32 * j)).sum (gl / 32)
        | .scalar a _ => [rec_ ((List.range 8).map fun j => (s.sreg (a.toNat + j)).toNat * 2 ^ (64 * j)).sum host]
      let bound := cellGet 0 s.curGroup.q q.toNat
      let fault (c : Nat) : Prop := exec (.emit f) s = .next (s.raise { kind := 21, cause := c, d0 := dw q.toNat })
      s.ready regs false →
        (bound.getLsbD 8 = false → fault 1) ∧
        (∀ node, bound.getLsbD 8 = true → node = bitsOf bound 0 4 →
          let cap := ((o.nodes[node]?).getD Node.blank).cap
          let b := s.curLaunch.bin node
          let writes := recs.zipIdx.flatMap fun r => bytesFrom (binAddr s.curLaunch o node (b.appended + r.2)) (wordBytes r.1.bytes.toNat 64)
          (cap < recs.length → fault 2) ∧
          (recs = [] → completes (.emit f) s s.vreg s.sreg s.sats) ∧
          (recs ≠ [] → recs.length ≤ cap → cap < b.recs.length + recs.length → exec (.emit f) s = .next s) ∧
          (recs ≠ [] → b.recs.length + recs.length ≤ cap → node < s.curLaunch.queues.length → s.writable s.curLaunch.vi writes → s.swept 1 →
            ∃ t, exec (.emit f) s = .next t ∧ goesOn s t 1 ∧ sameValues s t ∧ (s.reissues = false → sameSets s t) ∧
              wrote s t s.curLaunch.vi writes ∧ t.columns = s.columns ∧ (∀ id, (t.team id).shared = (s.team id).shared) ∧
              (∀ g, (t.curTeam.group g).still = (u.group g).still) ∧
              t.curLaunch.bin node = { b with recs := b.recs ++ recs, appended := b.appended + recs.length } ∧
              ∀ m, m ≠ node → t.curLaunch.bin m = s.curLaunch.bin m))) ∧
    ∀ row : BitVec 3,
      let roles := (s.nodeOf u).roles
      let r := (roles[row.toNat]?).getD Role.blank
      let copies := u.ownCopies.filter fun p => p.2.group == host
      let fault (c : Nat) : Prop := exec (.rolesw row) s = .next (s.raise { kind := 22, cause := c, d0 := dw row.toNat })
      (s.fullSet = false → exec (.rolesw row) s = .next (s.raise { kind := 7, d0 := u.k0Desc s.cur.agent, d1 := dw s.curGroup.live.toNat })) ∧
      (s.fullSet = true →
        (roles.length ≤ row.toNat → fault 1) ∧
        (row.toNat < roles.length → (s.curGroup.placed < r.vregs → fault 2) ∧
          (r.vregs ≤ s.curGroup.placed → (s.swdOf s.cur ≠ 0 → fault 3) ∧
            (s.swdOf s.cur = 0 →
              (copies ≠ [] → exec (.rolesw row) s = .next s) ∧
              (∀ c, copies = [] → u.stoppedFor host = some c → exec (.rolesw row) s = .next (s.raise c.raise)) ∧
              (copies = [] → u.stoppedFor host = none → (∃ c ∈ u.unwaited host, c.state ≠ .complete) → exec (.rolesw row) s = .next s) ∧
              (copies = [] → u.stoppedFor host = none → (∀ c ∈ u.unwaited host, c.state = .complete) →
                ∃ t, exec (.rolesw row) s = .next t ∧ sameBytes s t ∧ sameValues s t ∧
                  (∀ g, let y := t.curTeam.group g
                    (y.row, y.budget, y.priority) = if g = host then (row.toNat, r.vregs, r.prio)
                      else ((u.group g).row, (u.group g).budget, (u.group g).priority)) ∧
                  (t.curTeam.group host).gang = none ∧
                  (∀ g n, cellGet 0 (t.curTeam.group g).q n = if g = host ∧ s.curGroup.gang.any (fun y => y.queue.any fun z => z.toNat == n) = true then 0
                    else cellGet 0 (u.group g).q n) ∧
                  (s.reissues = false → sameSets s t ∧ entersAt s t s.cur r.entry))))))

/-- trec (R335, R337, R340): without an active trace it only goes on; with one, a kind-1 record with its value, PC, code and commit number enters the ring at
its slot, after a drop record where records were dropped, and the producer index follows; a record that finds the ring full is counted as dropped. Where the
spec leaves a point open, this states the model's choice: log 85. -/
def Obligations.TraceRecords : Prop :=
  ∀ (s : State) (a : SReg) (code : BitVec 16), s.canIssue = true →
    let l := s.curLaunch
    let vi := s.vi l.vi
    let core := s.curTeam.core
    let name := wordBytes l.owner.toNat 8 ++ wordBytes l.number.toNat 4 ++ wordBytes s.curTeam.index.toNat 4 ++ wordBytes s.curAgent.host 8
    let flags := (if l.determinate then 1 else 0) + if ∃ c ∈ vi.captures, c.1 = core / 128 % 4 then 2 else 0
    let record := s.traceRecord 1 flags core name (wordBytes (s.sreg a.toNat).toNat 8 ++ wordBytes s.curAgent.pc 4 ++ wordBytes code.toNat 4 ++
      wordBytes (if l.determinate then l.commits else 0) 8)
    let records := s.traceRecords l.vi flags core name record
    let goes (t : State) (v : Vi) : Prop := exec (.trec a code) s = .next t ∧ sameValues s t ∧ goesOn s t 1 ∧ (s.reissues = false → sameSets s t) ∧
      onlyRegisters s { t with vis := s.vis, main := s.main, lineKeys := s.lineKeys, mainHist := s.mainHist } ∧
      ∀ w, t.vi w = if w = l.vi then v else s.vi w
    (∃ t, exec (.trec a code) s = .next t ∧ goesOn s t 1 ∧ sameValues s t) ∧ (¬vi.traces → transfers (.trec a code) s none) ∧
    (vi.traces → vi.takes → s.writable l.vi (s.traceWrites l.vi records) →
      ∃ t, goes t { vi with wmProd := vi.wmProd + BitVec.ofNat 32 records.length, wmDropped := 0 } ∧ wrote s t l.vi (s.traceWrites l.vi records)) ∧
    (vi.traces → ¬vi.takes → ∃ t, goes t { vi with wmDropped := vi.wmDropped + 1 } ∧ t.main = s.main ∧ t.lineKeys = s.lineKeys)

-- Launches.
/-- The submission ring and its packets (R279 to R282, R285, R286, R292, R296): doorbells are accepted or discarded; a packet is taken once it may start; a
launch packet is rejected with its lowest cause or starts its launch; a load packet places its object under a new handle; an unload packet frees a handle; a
packet that is not a running launch posts its completion record. Where the spec leaves a point open, this states the model's choice: logs 17, 18, 19, 39, 50,
51 and 123. -/
def Obligations.PacketsAreTaken : Prop :=
  ∀ (s : State) (vi : Nat),
    let v := s.vi vi
    let viOnly (t : State) (w : Vi) : Prop := { t with vis := s.vis } = s ∧ ∀ x, t.vi x = if x = vi then w else s.vi x
    let slot := v.ringbase.toNat + 128 * (v.consumer.toNat % 2 ^ v.ringsize.toNat)
    (∀ d : Word, cellHas s.vis vi = false → exec (.doorbell vi d) s = .next s) ∧
    (∀ d : Word, cellHas s.vis vi = true →
      (v.ringsize = 0 → ∃ t, exec (.doorbell vi d) s = .next t ∧ viOnly { t with errorLog := s.errorLog } { v with irq := v.irq ||| 4 } ∧
        t.errorLog = s.errorLog ++ [(1, vi)]) ∧
      (v.ringsize ≠ 0 →
        ((d - v.doorbell).toNat < 2 ^ 31 → (d - v.consumer).toNat ≤ 2 ^ v.ringsize.toNat →
          ∃ t, exec (.doorbell vi d) s = .next t ∧ viOnly t { v with doorbell := d }) ∧
        (2 ^ 31 ≤ (d - v.doorbell).toNat ∨ 2 ^ v.ringsize.toNat < (d - v.consumer).toNat →
          ∃ t, exec (.doorbell vi d) s = .next t ∧ viOnly t { v with irq := v.irq ||| 4 }))) ∧
    (v.ringsize = 0 ∨ v.consumer = v.doorbell → ∀ i ∈ [Instr.launchPacket vi, .loadPacket vi, .unloadPacket vi], exec i s = .next s) ∧
    (v.ringsize ≠ 0 → v.consumer ≠ v.doorbell →
      (∀ c, s.readVirt vi slot 128 = .error c → ∃ t, exec (.launchPacket vi) s = .next t ∧ deviceFrame s { t with errorLog := s.errorLog } ∧
        t.main = s.main ∧ (t.vi vi).consumer = v.consumer + 1 ∧ t.errorLog = s.errorLog ++ [(2, vi)]) ∧
      (∀ bs, s.readVirt vi slot 128 = .ok bs →
        let f (o n : Nat) : Nat := bytesWord ((bs.drop o).take n)
        let bits (o lo n : Nat) : Nat := f o 8 / 2 ^ lo % 2 ^ n
        let zero (o n : Nat) : Bool := f o n == 0
        let kind := f 0 1
        let mode := bits 1 4 2
        let h := f 8 8
        let o := s.object h
        let known : Bool := cellHas s.objects h && o.vi == vi
        let waits : Bool := bits 1 0 1 == 1 && s.launches.any fun l => l.2.vi == vi && l.2.number == v.consumer - 1
        let record (cause handle : Nat) : List Byte :=
          wordBytes (f 72 8) 8 ++ [BitVec.ofNat 8 kind, if cause = 0 then 0 else 4, BitVec.ofNat 8 cause, 0] ++ wordBytes 0 4 ++ wordBytes s.tick 8 ++
            wordBytes s.tick 8 ++ List.replicate 64 0 ++ wordBytes handle 8 ++ List.replicate 24 0
        let answers (i : Instr) (cause handle : Nat) (g : State → Prop) : Prop := s.writable vi (bytesFrom (f 64 8) (record cause handle)) →
          ∃ t, exec i s = .next t ∧ (t.vi vi).consumer = v.consumer + 1 ∧ (t.vi vi).irq = v.irq ||| 1 ∧ g t ∧
            wrote s t vi (bytesFrom (f 64 8) (record cause handle))
        (waits = true → ∀ i ∈ [Instr.launchPacket vi, .loadPacket vi, .unloadPacket vi], exec i s = .next s) ∧
        (waits = false →
          (kind ≠ 2 → exec (.loadPacket vi) s = .next s) ∧ (kind ≠ 3 → exec (.unloadPacket vi) s = .next s) ∧
          (kind = 2 ∨ kind = 3 → exec (.launchPacket vi) s = .next s) ∧
          (kind ≠ 2 → kind ≠ 3 →
            let slotSize := ((o.nodes.map fun n => 0xC2000 + 0x10000 * n.groups).foldl max 0 + 0xFFFF) / 0x10000 * 0x10000
            let area (a align n : Nat) : Bool := a % align == 0 && s.mapped vi a n && !s.overCode vi a n
            let size := f 48 8 % 2 ^ 5
            let causes : List (Nat × Bool) :=
              [(1, kind != 1 || bits 1 7 1 != 0 || bits 2 4 4 != 0 || !zero 3 5 || !zero 20 4 || !zero 36 4 || (mode != 0 && bits 48 5 7 != 0) ||
                  f 16 4 == 0 || f 16 4 == 2 ^ 32 - 1),
               (2, !known), (3, decide (o.nodes.length ≤ bits 2 0 4)),
               (4, f 32 4 == 0 || !area (f 24 8) 0x10000 (slotSize * f 32 4) || !area (f 40 8) 0x1000 (64 * (o.nodes.map fun n => n.cap).sum) ||
                  !area (f 64 8) 128 128 || (mode != 0 && (size == 0 || decide (20 < size) || !area (bits 48 12 52 * 2 ^ 12) 0x1000 (128 + 128 * 2 ^ size) ||
                    !area (f 56 8) 0x10000 (0x8000 * f 32 4)))),
               (5, bits 1 2 1 == 1 && !(s.partition v.partition).locked),
               (6, mode != 0 && bits 1 6 1 == 0 && (s.partition v.partition).shadow.isNone)]
            let l : Launch :=
              { Launch.blank with
                lockLost := (s.partition v.partition).locked && (s.partition v.partition).grid.any fun c => (s.tower (c / 128 % 4)).thermal
                vi := vi, number := v.consumer, serial := bits 1 0 1 == 1, determinate := bits 1 1 1 == 1, locked := bits 1 2 1 == 1,
                overpass := bits 1 3 1 == 1, mode := BitVec.ofNat 2 mode, cached := bits 1 6 1 == 1, entry := bits 2 0 4, object := h, grid := f 16 4,
                context := f 24 8, slots := f 32 4, bins := f 40 8, ring := bits 48 12 52 * 2 ^ 12, ringLog := size, vectors := f 56 8,
                completion := f 64 8, tag := BitVec.ofNat 64 (f 72 8), args := BitVec.ofNat 384 (f 80 48), owner := v.wmOwner, start := s.tick,
                queues := o.nodes.map fun _ => ⟨[], 0, 0⟩ }
            match causes.find? fun c => c.2 with
            | some c => answers (.launchPacket vi) c.1 0 fun t => deviceFrame s t
            | none => ∃ u, deviceFrame s { u with launches := s.launches, nextLaunch := s.nextLaunch } ∧ (¬v.traces → u.main = s.main) ∧
                (u.vi vi).consumer = v.consumer + 1 ∧ u.launches = cellPut s.launches s.nextLaunch l ∧ u.nextLaunch = s.nextLaunch + 1 ∧
                exec (.launchPacket vi) s = .next (if l.determinate then u.dispatchAll s.nextLaunch 4096 else u)) ∧
          (kind = 2 →
            let image := f 8 8
            let size := f 16 8
            let place := f 24 8
            let malformed : Bool := bits 1 1 7 != 0 || !zero 2 6 || !zero 32 32 || !zero 80 48
            (malformed = true → answers (.loadPacket vi) 1 0 fun t => deviceFrame s t) ∧
            (malformed = false → f 64 8 % 128 = 0 →
              (∀ c, s.readVirt vi image size = .error c → answers (.loadPacket vi) 8 0 fun t => deviceFrame s t) ∧
              (∀ img, s.readVirt vi image size = .ok img →
                let g (o n : Nat) : Nat := bytesWord ((img.drop o).take n)
                let sound : Bool := image % 64 == 0 && place % 0x10000 == 0 && decide (64 ≤ size) && imageOk img size && s.mapped vi place (g 16 8) &&
                  !s.overCode vi place (g 16 8)
                (imageOk img size = true → g 0 4 = 0x30534C57 ∧ g 4 2 = 1 ∧ 4 ≤ g 6 2 ∧ g 6 2 ≤ 7 ∧ g 8 8 = size ∧ g 16 8 % 0x10000 = 0 ∧
                  1 ≤ g 24 4 ∧ g 24 4 ≤ 2 ^ 31 ∧ 1 ≤ g 28 2 ∧ g 28 2 ≤ 4096 ∧ 1 ≤ g 30 2 ∧ g 30 2 ≤ 16 ∧ g 32 2 ≤ 4095 ∧ (sectionBytes img 1).length = 8 * g 24 4) ∧
                (sound = false → answers (.loadPacket vi) 8 0 fun t => deviceFrame s t) ∧
                (sound = true →
                  let writes := bytesFrom place (sectionBytes img 1) ++
                    (regionsOf img).1.flatMap fun r => bytesFrom (place + r.1) (((sectionBytes img 5).drop r.2.1).take r.2.2)
                  s.writable vi (writes ++ bytesFrom (f 64 8) (record 0 s.nextObject)) →
                    ∃ t, exec (.loadPacket vi) s = .next t ∧ deviceFrame s { t with objects := s.objects, nextObject := s.nextObject } ∧
                      (t.vi vi).consumer = v.consumer + 1 ∧ (t.vi vi).irq = v.irq ||| 1 ∧
                      wrote s t vi (writes ++ bytesFrom (f 64 8) (record 0 s.nextObject)) ∧ t.nextObject = s.nextObject + 1 ∧
                      (∀ x, x ≠ s.nextObject → t.object x = s.object x) ∧ cellHas t.objects s.nextObject = true ∧
                      let y := t.object s.nextObject
                      y.vi = vi ∧ y.placement = place ∧ y.size = g 16 8 ∧ y.words = g 24 4 ∧ y.kernels.length = g 28 2 ∧ y.nodes.length = g 30 2 ∧
                      ∀ i < g 30 2, let n := (y.nodes[i]?).getD Node.blank
                        let e (o n : Nat) : Nat := bytesWord (((sectionBytes img 4).drop (256 * i + o)).take n)
                        n.kernel = e 0 2 ∧ n.groups = e 2 1 ∧ n.lanes = e 3 1 ∧ n.shm = e 6 1 ∧ n.w = e 7 1 % 16 ∧ n.h = e 7 1 / 16 % 8 ∧ n.cap = e 8 4 ∧
                          n.coalesce = e 12 2 ∧ n.timer = e 16 4)))) ∧
          (kind = 3 →
            let malformed : Bool := bits 1 1 7 != 0 || !zero 2 6 || !zero 16 16 || !zero 32 32 || !zero 80 48
            let used : Bool := s.launches.any fun l => l.2.object == h
            (malformed = true → answers (.unloadPacket vi) 1 0 fun t => deviceFrame s t) ∧
            (malformed = false → known = false → answers (.unloadPacket vi) 2 0 fun t => deviceFrame s t) ∧
            (malformed = false → known = true → f 64 8 % 128 = 0 →
              (used = true → answers (.unloadPacket vi) 7 0 fun t => deviceFrame s t) ∧
              (used = false → answers (.unloadPacket vi) 0 0 fun t =>
                deviceFrame s { t with objects := s.objects } ∧ cellHas t.objects h = false ∧ ∀ x, x ≠ h → t.object x = s.object x))))))

/-- A launch's work (R289 to R293, R296, R298, R301 to R304, R341): entry records enter the entry bin; the dispatcher returns evicted clusters first, and
forms the teams of a ready node from its oldest records, with the registers of a team's start; an expired bin timer makes it act; a commit follows its groups'
effects with its count and new legs; a launch that is over posts its record and is gone. Where the spec leaves a point open, this states the model's choice:
logs 7, 15, 16, 21, 53, 54, 82, 85, 90, 108, 114 and 119. -/
def Obligations.LaunchesRun : Prop :=
  ∀ (s : State) (li : Nat),
    let l := s.launch li
    let o := s.object l.object
    let node (n : Nat) : Node := (o.nodes[n]?).getD Node.blank
    let part := s.partition (s.vi l.vi).partition
    let alive : Bool := cellHas s.launches li && l.kill == none
    let dispatches (i : Instr) : Prop :=
      (∀ u, keysRise s.clusters = true → s.placeEvicted li = some u → exec i s = .next u ∧
        ∃ c, (s.cluster c).launch = li ∧ ∀ t ∈ (s.cluster c).teams, (s.team t).status = .evicted → (s.team t).held = false →
          let x := u.team t
          x.status = .resident ∧ x.writeBack = true ∧ x.since = s.tick ∧
            let same : Bool := x.core == (s.team t).core
            (∀ g, cellHas (s.team t).groups g = true →
              { x.group g with missing := [], issuedAt := 0 } = { ((s.loadImage t).team t).group g with missing := [], issuedAt := 0 } ∧
              ∀ n, n ∈ (x.group g).missing ↔ (n < ((s.team t).group g).placed ∨ (256 ≤ n ∧ n < 264)) ∧
                ¬(same = true ∧ ⟨t, g, n⟩ ∈ (s.core x.core).pool)) ∧
            ∀ bs, s.readVirt (s.viOf (s.team t)) (s.imageBase (s.team t) + 0x1000) (0x81000 + 0x10000 * (s.team t).groupsN) = .ok bs →
              ∀ g < (s.team t).groupsN, cellHas (s.team t).groups g = true → ∀ n < 64,
                cellGet 0 (x.group g).s n = BitVec.ofNat 64 (bytesWord ((bs.drop (0x81000 + 0x10000 * g + 0x8000 + 8 * n)).take 8))) ∧
      (s.placeEvicted li = none →
        let chosen := (s.readyNodes li).findSome? fun n => (s.placeFor li n).map fun r => (n, r)
        (chosen = none → exec i s = .next s) ∧
        (∀ n place, chosen = some (n, place) → n < l.queues.length →
          let d := node n
          let b := l.bin n
          b.recs ≠ [] ∧ (∀ m, some m ∈ d.succ → (l.bin m).recs.length < (node m).cap) ∧
          ∃ t, exec i s = .next t ∧ t.nextTeam = s.nextTeam + place.length ∧
            ((t.launch li).bin n).recs = b.recs.drop (d.coalesce * place.length) ∧ ((t.launch li).bin n).formed = b.formed + place.length ∧
            (t.launch li).formed = l.formed + place.length ∧ (∀ m, m ≠ n → (t.launch li).bin m = l.bin m) ∧
            ∀ p logical, place[p]? = some logical →
              let x := t.team (s.nextTeam + p)
              let recs := (b.recs.drop (d.coalesce * p)).take d.coalesce
              (x.launch, x.node, x.cluster, x.position) = (li, n, s.nextCluster, p) ∧ x.index = BitVec.ofNat 32 (b.formed + p) ∧
              x.gen = BitVec.ofNat 32 (l.formed + p) ∧ (x.groupsN, x.lanesN, x.sharedSize) = (d.groups, d.lanes, 4096 * d.shm) ∧ x.shared = [] ∧
              x.status = .resident ∧ x.logical = logical ∧ x.core = part.physical logical ∧ x.since = s.tick ∧
              x.ctxSlot < l.slots ∧ x.ctxSlot ∉ l.usedSlots ∧ x.ctxSlot ∈ (t.launch li).usedSlots ∧
              ∀ g < d.groups,
                let y := x.group g
                let a := x.agent g
                let r := d.startRole recs g
                let record : BitVec 512 := match recs[g]? with | some z => z.bytes | none => BitVec.allOnes 512
                (∀ k, cellGet 0 y.v k = 0) ∧
                (∀ k, cellGet 0 y.s k = if k < 8 then BitVec.ofNat 64 (bitsOf record (64 * k) 64) else if k = 56 then dw o.placement
                  else if k = 57 then dw o.data0 else if k = 58 then dw o.size else if k = 59 then l.number.setWidth 64 else if k = 60 then dw x.ctxSlot else 0) ∧
                (∀ k, 1 ≤ k → k < 16 → cellGet 0 y.k k = localDesc g 0) ∧
                (∀ k, cellGet 0 y.q k = match (d.succ[k]?).join with | some m => qBin m | none => 0) ∧
                y.live = BitVec.ofNat 32 (2 ^ d.lanes - 1) ∧ y.sat = 0 ∧ y.sp = 0xC000 ∧ y.ms = 0 ∧ y.rmode = l.mode ∧ y.gang = none ∧
                (y.budget, y.placed, y.priority) = (r.vregs, r.vregs, r.prio) ∧
                a.kind = .group ∧ a.host = g ∧ a.lanes = BitVec.ofNat 1024 ((2 ^ d.lanes - 1) * 2 ^ (32 * g)) ∧ a.k0 = localDesc g (2 ^ d.lanes - 1) ∧
                a.stack = [] ∧ a.status = .ready ∧
                (a.pc, a.rest) = match s.objectWord o r.entry with
                  | .ok h => if r.entry < o.words ∧ isHeader h = true ∧ hdrLength h ≠ 0 then (r.entry + 1, hdrLength h) else (r.entry, 0)
                  | .error _ => (r.entry, 0)))
    -- entry records
    (alive = true → l.determinate = false →
      let room : Bool := decide (l.nextEntry < l.grid) && decide ((l.bin l.entry).recs.length < (node l.entry).cap)
      let record := l.nextEntry + l.grid * 2 ^ 32 + l.tag.toNat * 2 ^ 64 + l.args.toNat * 2 ^ 128
      let writes := bytesFrom (binAddr l o l.entry (l.bin l.entry).appended) (wordBytes (record % 2 ^ 512) 64)
      (room = false → exec (.entryRecordEnter li) s = .next s) ∧
      (room = true → l.entry < l.queues.length → s.writable l.vi writes →
        ∃ t, exec (.entryRecordEnter li) s = .next t ∧ deviceFrame s { t with launches := s.launches } ∧ wrote s t l.vi writes ∧
          (∀ x, x ≠ li → t.launch x = s.launch x) ∧
          { t.launch li with queues := l.queues } = { l with nextEntry := l.nextEntry + 1 } ∧
          ∀ m, (t.launch li).bin m = if m = l.entry then
            ⟨(l.bin m).recs ++ [⟨BitVec.ofNat 512 record, s.tick, [], none⟩], (l.bin m).appended + 1, (l.bin m).formed⟩ else l.bin m)) ∧
    -- dispatch
    (alive = true → l.determinate = false → l.held = false → dispatches (.dispatchPlace li)) ∧
    (alive = false ∨ l.determinate = true ∨ l.held = true → exec (.dispatchPlace li) s = .next s) ∧
    (alive = false ∨ l.determinate = true → exec (.entryRecordEnter li) s = .next s) ∧
    (∀ n r more, alive = true → l.determinate = false → l.held = false → (l.bin n).recs = r :: more → (node n).timer ≠ 0 →
      (r.since + (node n).timer ≤ s.tick → dispatches (.binTimerExpiry li n)) ∧
      (s.tick < r.since + (node n).timer → exec (.binTimerExpiry li n) s = .next s)) ∧
    -- commits of a determinate launch
    (alive = true → l.determinate = true → s.legsEnded li = true → s.openCopies li = [] → s.openCmds li = [] → s.saving li = false → s.filling li = false →
      s.legGroups li ≠ [] →
      let u := (s.legGroups li).foldl (fun (x : State) g => x.commitGroup g.1 g.2) s
      ∃ t, exec (.commit li) s = .next t ∧ (u.lives li = false → t = u) ∧
        (u.lives li = true → (t.launch li).commits = (u.launch li).commits + 1 ∧
          ∀ id g, (t.team id).launch = li → cellHas t.teams id = true → ((t.team id).group g).legEnded = false ∧ ((t.team id).group g).legCount = 0)) ∧
    -- completion
    (let v := s.vi l.vi
     let done : Bool := decide (l.grid ≤ l.nextEntry) && (l.queues.all fun b => b.recs.isEmpty) && s.teams.all fun t => t.2.launch != li
     (alive = true → done = false → exec (.launchComplete li) s = .next s) ∧
     (alive = true → done = true →
        let counts := v.counters.map fun c => (bitsOf v.wmCbase 13 51 * 2 ^ 13 + 8 * c.1, c.2)
        let record := wordBytes l.tag.toNat 8 ++ [1, 0, 0, if l.lockLost then (if l.determinate then 3 else 1) else if l.determinate then 2 else 0] ++
          wordBytes (min l.formed (2 ^ 32 - 1)) 4 ++ wordBytes l.start 8 ++ wordBytes s.tick 8 ++ wordBytes l.dropped.toNat 4 ++
          wordBytes l.unobserved.toNat 4 ++ wordBytes l.records.toNat 4 ++ ((List.range 10).flatMap fun i => wordBytes (cellGet 0 l.counters i).toNat 4) ++
          List.replicate 44 0
        let name := wordBytes l.owner.toNat 8 ++ wordBytes l.number.toNat 4 ++ wordBytes 0xFFFFFFFF 4 ++ wordBytes 0xFF 8
        let core := Config.systemCore
        let flags := (if l.determinate then 1 else 0) + if ∃ c ∈ v.captures, c.1 = core / 128 % 4 then 2 else 0
        let records := s.traceRecords l.vi flags core name (s.traceRecord 6 flags core name [2, 0])
        let old (a : Nat) : Nat := bytesWord ((List.range 8).map fun i => let p := s.phys l.vi (a + i); s.readKeyed p.2 p.1)
        ∀ traced : List (Nat × Byte), (v.traces ∧ v.takes → traced = s.traceWrites l.vi records) → (¬(v.traces ∧ v.takes) → traced = []) →
          let writes := (counts.flatMap fun c => bytesFrom c.1 (wordBytes (old c.1 + c.2.toNat) 8)) ++ bytesFrom l.completion record ++ traced
          s.writable l.vi writes → (∀ c ∈ counts, ∀ i < 8, s.reaches l.vi (c.1 + i) false) →
            ∃ t, exec (.launchComplete li) s = .next t ∧ deviceFrame s { t with launches := s.launches } ∧ wrote s t l.vi writes ∧
              (t.vi l.vi).irq = v.irq ||| 1 ∧ (t.vi l.vi).counters = [] ∧ cellHas t.launches li = false ∧ ∀ x, x ≠ li → t.launch x = s.launch x) ∧
     (∀ k, cellHas s.launches li = true → l.kill = some k →
        ∃ t, exec (.launchComplete li) s = .next t ∧ cellHas t.launches li = false ∧
          (s.writable l.vi (bytesFrom l.completion (List.replicate 128 0)) → ((t.vi l.vi).irq).getLsbD 0 = true ∧
            (¬v.traces → v.counters = [] →
              let at_ (i : Nat) : Byte := let p := s.phys l.vi (l.completion + i); t.readKeyed p.2 p.1
              at_ 8 = 1 ∧ at_ 9 = BitVec.ofNat 8 k.status ∧ (k.status ≠ 3 → (List.range 12).map (fun i => at_ (84 + i)) =
                wordBytes k.pc 4 ++ wordBytes k.team.toNat 4 ++ wordBytes (k.node % 16 + k.group % 32 * 2 ^ 8 + k.kind % 2 ^ 16 * 2 ^ 16) 4)))))

-- Residency.
/-- Residency (R44 to R46, R132 to R134, R136, R298, R299, R314, R315, R317, R320): pre-emption stops a cluster at a stopping point and leaves milestones;
shared memory goes to the save pool and comes back; an evicted team's image holds its tables and lines, and takes writes; missing lines are filled; a group
that waits long is boosted; a stalled core swaps teams; a walk's leaf is cached. Where the spec leaves a point open, this states the model's choice: logs 20,
51, 56, 57, 58, 61, 80, 82, 83, 109, 111, 112, 113, 115, 116, 117, 118, 120, 131 and 136. -/
def Obligations.ResidencyIsKept : Prop :=
  ∀ (s : State) (team : Nat),
    let x := s.team team
    let li := x.launch
    let vi := s.viOf x
    let pn := s.partitionOf x
    let part := s.partition pn
    let base := s.imageBase x
    let teamOnly (t : State) : Prop := deviceFrame s { t with teams := s.teams } ∧ ∀ q, q ≠ team → t.team q = s.team q
    let alive : Bool := cellHas s.teams team && cellHas s.launches li && (s.launch li).kill == none
    let calm : Prop := (s.core x.core).swap = none
    -- stopping
    (s.runs team = false ∨ (s.launch li).determinate = true ∨ s.stoppable team = false ∨ (∀ q ∈ s.clusterOf team, (s.team q).preempt = false) →
      exec (.preemptionStop team) s = .next s) ∧
    (s.runs team = true → (s.launch li).determinate = false → s.stoppable team = true → (∃ q ∈ s.clusterOf team, (s.team q).preempt = true) →
      ∃ t, exec (.preemptionStop team) s = .next t ∧ (calm →
        { t with teams := s.teams, clusters := s.clusters, cores := s.cores, launches := s.launches, main := s.main, lineKeys := s.lineKeys,
                 mainHist := s.mainHist, vis := s.vis } = s ∧
        (∀ q, q ∉ s.clusterOf team ∨ (s.team q).status ≠ .resident → t.team q = s.team q) ∧
        ∀ q ∈ s.clusterOf team, (s.team q).status = .resident →
          let a := s.team q
          let b := t.team q
          b.status = .stopped ∧ b.preempt = false ∧ b.sharedSaved = a.writeBack ∧ b.shared = a.shared ∧ b.layouts = a.layouts ∧ b.poolAt = a.poolAt ∧
          b.latches = [] ∧ (∀ c ∈ b.cmds, c.state ≠ .executing ∧ c.state ≠ .checked) ∧
          ((∀ c ∈ a.cmds, c.state ≠ .executing) → ∀ gl r, b.vreg gl r = a.vreg gl r) ∧
          (∀ g, (∀ n, cellGet 0 (b.group g).s n = cellGet 0 (a.group g).s n ∧ cellGet 0 (b.group g).k n = cellGet 0 (a.group g).k n) ∧
            (b.group g).sp = (a.group g).sp ∧ (b.group g).sat = (a.group g).sat ∧ (b.group g).spill = (a.group g).spill ∧
            ((∀ n, (a.agent n).host = g → (a.agent n).progress = none) → (b.group g).ms = (a.group g).ms)) ∧
          ∀ n, let y := a.agent n
            let z := b.agent n
            (z.kind, z.host, z.lanes, z.k0, z.pc, z.rest, z.stack, z.info) = (y.kind, y.host, y.lanes, y.k0, y.pc, y.rest, y.stack, y.info) ∧
            z.progress = none ∧ z.issued = none ∧ z.watch = none ∧ (z.status = match y.status with
              | .accept _ | .latch | .await _ _ => .ready
              | .rdv => if s.atBar ⟨q, n⟩ = true then .ready else .rdv
              | w => w) ∧
            ∀ i recs, y.progress = some (i, recs) → (∀ m, m ≠ n → (a.agent m).host = y.host → (a.agent m).progress = none) →
              (b.group y.host).ms = BitVec.ofNat 64 (0x80 + (fOp (s.wordAt ⟨q, n⟩ y.pc).toNat - 0x140) + y.pc * 2 ^ 8 + i * 2 ^ 40) ∧
              (b.group y.host).msRecords = recs)) ∧
    -- the save pool
    (let ready : Bool := cellHas s.teams team && x.status == .stopped && !x.sharedSaved && s.quiet team
     let size := x.sharedSize + (x.sharedSize + 127) / 128 + 12 * ((x.sharedSize + 63) / 64)
     let full : List Byte := (List.range ((x.sharedSize + 127) / 128)).map fun k =>
       BitVec.ofNat 8 (((List.range 8).map fun i => if cellHas x.full (8 * k + i) then 2 ^ i else 0).sum)
     let image : List Byte := ((List.range x.sharedSize).map fun i => readByte x.shared i) ++ full ++
       (List.range ((x.sharedSize + 63) / 64)).flatMap fun l => (s.metaAt (.shared team) l).bytes
     (ready = false ∨ s.poolGap pn size = none → exec (.savePoolSave team) s = .next s) ∧
     (∀ o, ready = true → s.poolGap pn size = some o →
        let writes := bytesFrom (part.poolBase + o) image
        image.length = size ∧ o + size ≤ part.poolSize ∧
        (∀ y ∈ s.poolTaken pn, size = 0 ∨ y.2 = 0 ∨ o + size ≤ y.1 ∨ y.1 + y.2 ≤ o) ∧
        (s.writable vi writes → ∃ t, exec (.savePoolSave team) s = .next t ∧ (calm → teamOnly t ∧ wrote s t vi writes ∧
          t.team team = { x with sharedSaved := true, poolAt := some o })))) ∧
    (s.runs team = false ∨ x.writeBack = false → exec (.sharedMemoryWriteBack team) s = .next s) ∧
    (s.runs team = true → x.writeBack = true →
      let bits := (x.sharedSize + 127) / 128
      let size := x.sharedSize + bits + 12 * ((x.sharedSize + 63) / 64)
      (∀ c, s.readVirt vi (part.poolBase + x.poolAt.getD 0) size = .error c → ∃ t, exec (.sharedMemoryWriteBack team) s = .next t ∧
        t.teams = s.teams ∧ (t.launch li).kill = some ⟨2, 0, 0, 0, 0, 0⟩) ∧
      (∀ bs, s.readVirt vi (part.poolBase + x.poolAt.getD 0) size = .ok bs → ∃ t, exec (.sharedMemoryWriteBack team) s = .next t ∧ teamOnly t ∧
        t.main = s.main ∧ { t.team team with shared := x.shared, hist := x.hist, full := x.full, metas := x.metas } = { x with writeBack := false, poolAt := none } ∧
        (∀ i, readByte (t.team team).shared i = if i < x.sharedSize then bs.getD i 0 else readByte x.shared i) ∧
        (∀ k, cellHas (t.team team).full k = if k < 8 * bits then (bs.getD (x.sharedSize + k / 8) 0).getLsbD (k % 8) else cellHas x.full k) ∧
        ∀ l, t.metaAt (.shared team) l = s.metaAt (.shared team) l ∨ (l < (x.sharedSize + 63) / 64 ∧
          t.metaAt (.shared team) l = LineMeta.ofBytes ((bs.drop (x.sharedSize + bits + 12 * l)).take 12)))) ∧
    -- the context image
    (let ready : Bool := alive && x.status == .stopped && x.sharedSaved && s.quiet team
     let writes := (s.saves team).flatMap fun p => bytesFrom (base + p.1) p.2
     let saved (o : Nat) (bs : List Byte) : Prop := (o, bs) ∈ s.saves team ∨ (x.linesSaved = true ∧ s.readVirt vi (base + o) bs.length = .ok bs)
     (ready = false → exec (.teamEvicted team) s = .next s) ∧
     (ready = true → (∀ p ∈ (s.core x.core).pool, p.team = team →
         saved (0x82000 + 0x10000 * p.group + 128 * p.line) (((s.sectionImage team p.group).drop (128 * p.line)).take 128)) ∧
       (∀ j < 32, saved (0x1000 + 128 * j) ((List.range 4).flatMap fun i => wordBytes (cellGet 0 x.layouts (4 * j + i)).toNat 32)) ∧
       (∀ j < 4096, let struck := x.struckOf j
         saved (0x2000 + 128 * j) (wordBytes (cellGet 0 x.handles j &&& ~~~struck).toNat 128) ∧
           ((∀ a ∈ x.agents, ∀ h i, a.2.kind ≠ .trap h i) → struck = 0))) ∧
     (ready = true → s.writable vi writes → ∃ t, exec (.teamEvicted team) s = .next t ∧ wrote s t vi writes ∧ teamOnly { t with escalations := s.escalations } ∧
        (let passed := x.agents.filter fun a => a.2.status == .passed
         let gone := { x with status := .evicted, linesSaved := true, evictedAt := s.tick }
         (passed = [] ∨ x.escalated = true → t.team team = gone ∧ t.escalations = s.escalations) ∧
         (passed ≠ [] → x.escalated = false → t.team team = { gone with escalated := true } ∧ (t.vi vi).irq = (s.vi vi).irq ||| 2 ∧
           t.escalations = s.escalations ++ passed.map fun a => (team, readBytes (x.group a.2.host).spill (x.group a.2.host).sp.toNat 256))))) ∧
    (∀ g, let y := x.group g
      let word (o n : Nat) : Nat := bytesWord (((s.sectionImage team g).drop o).take n)
      (∀ r < 256, ∀ l < 32, word (128 * r + 4 * l) 4 = (x.vreg (32 * g + l) r).toNat) ∧ (∀ n < 64, word (0x8000 + 8 * n) 8 = (cellGet 0 y.s n).toNat) ∧
      word 0x8200 8 = (x.k0Desc g).toNat ∧ (∀ n < 16, 0 < n → word (0x8200 + 8 * n) 8 = (cellGet 0 y.k n).toNat) ∧
      (∀ n < 8, word (0x8280 + 8 * n) 8 = (cellGet 0 y.q n).toNat) ∧ word (0x82C0 + 8 * 4) 8 = x.core % 2 ^ 64 ∧ word (0x82C0 + 8 * 7) 8 = y.live.toNat ∧
      word (0x82C0 + 8 * 8) 8 = y.sat.toNat ∧ word (0x82C0 + 8 * 9) 8 = s.tick % 2 ^ 64 ∧ word (0x82C0 + 8 * 10) 8 = y.sp.toNat ∧
      word (0x82C0 + 8 * 12) 8 = y.ms.toNat ∧ (∀ o, 0x8400 ≤ o → o < 0xC000 → word o 1 = (readByte y.spill o).toNat) ∧
      ∀ j < 1024, word (0xC000 + 16 * j) 16 = match (x.spilled g)[j]? with
        | some e => e.set.toNat * 2 ^ 64 + e.pc % 2 ^ 32 * 2 ^ 32 + e.kind % 16 * 2 ^ 28 + e.policy.toNat * 2 ^ 26 + e.slot.toNat * 2 ^ 22
        | none => 0) ∧
    (∀ offset bytes,
      (cellHas s.teams team = false ∨ x.status = .ended → exec (.imageWrite team offset bytes) s = .next s) ∧
      (cellHas s.teams team = true → x.status ≠ .ended → x.status ≠ .evicted → ∃ t, exec (.imageWrite team offset bytes) s = .next t ∧
        { t with errorLog := s.errorLog } = s ∧ t.errorLog = s.errorLog ++ [(13, team)]) ∧
      (cellHas s.teams team = true → x.status = .evicted →
        let mask (o : Nat) : Byte := if 0x82000 ≤ o ∧ o < 0x82000 + 0x10000 * x.groupsN then imageBits ((o - 0x82000) % 0x10000) else 0xFF
        let writes := bytesFrom (base + offset) (bytes.zipIdx.map fun b => b.1 &&& mask (offset + b.2))
        let hit (p : PoolLine) : Prop := p.team = team ∧ 0x82000 + 0x10000 * p.group + 128 * p.line < offset + bytes.length ∧
          offset < 0x82000 + 0x10000 * p.group + 128 * p.line + 128 ∧ bytes ≠ []
        (∀ o, (o < 0x82C0 ∨ 0x8400 ≤ o → imageBits o = 0xFF) ∧ (0x8330 ≤ o → o < 0x8400 → imageBits o = 0)) ∧
        ∃ t, exec (.imageWrite team offset bytes) s = .next t ∧
          { t with cores := s.cores, main := s.main, lineKeys := s.lineKeys, mainHist := s.mainHist } = s ∧ (s.writable vi writes → wrote s t vi writes) ∧
          ∀ c, { t.core c with pool := [] } = { s.core c with pool := [] } ∧ ∀ p, p ∈ (t.core c).pool ↔ p ∈ (s.core c).pool ∧ ¬hit p)) ∧
    -- register fills and priority
    (∀ g line, let y := x.group g
      let at_ := base + 0x82000 + 0x10000 * g + 128 * line
      (s.runs team = false ∨ s.wanted team g line = false → exec (.registerFill team g line) s = .next s) ∧
      (s.runs team = true → s.wanted team g line = true → (∀ i < 128, s.reaches vi (at_ + i) false) →
        ∃ t, exec (.registerFill team g line) s = .next t ∧
          let pa := match s.translate vi at_ false with | .ok p => p.1 | .error _ => 0
          let roomy : Prop := ∀ q < 4, (s.pool x.core q).length ≤ s.poolRoom x.core q
          (s.badAt .main pa 128 = true → (t.launch li).kill = some ⟨2, 0, x.index, x.node, g, 14⟩ ∧ t.teams = s.teams) ∧
          (s.badAt .main pa 128 = false → line < 264 → (∀ q, q ≠ team → t.team q = s.team q) ∧ (roomy → teamOnly t ∧ t.main = s.main) ∧
            { t.team team with groups := x.groups } = x ∧
            ∀ h, (t.team team).group h = if h = g then { y with missing := y.missing.filter fun n => n != line } else x.group h) ∧
          (s.badAt .main pa 128 = false → 264 ≤ line → t.teams = s.teams ∧
            (0 < s.poolRoom x.core (g % 4) → (t.core x.core).pool.head? = some ⟨team, g, line⟩)))) ∧
    (∀ g, let y := x.group g
      let due : Prop := s.runs team = true ∧ 64 ≤ (s.tick - max y.issuedAt y.idleAt) * (s.core x.core).mhz / 250 ∧
        ∃ a ∈ x.agents, a.2.host = g ∧ s.eligible ⟨team, a.1⟩ = true
      (¬due → exec (.priorityBoost team g) s = .next s) ∧
      (due → ∃ t, exec (.priorityBoost team g) s = .next t ∧ { t with teams := s.teams } = s ∧
        (∀ q, q ≠ team → t.team q = s.team q) ∧ { t.team team with groups := x.groups } = x ∧
        ∀ h, (t.team team).group h = if h = g then { y with boosted := true } else x.group h)) ∧
    -- the stalled-residency rule
    (∀ core, let k := s.core core
      (k.stall < 4096 → exec (.stallCountExpiry core) s = .next s) ∧
      let free := s.modCore core fun y => { y with swap := none }
      let searches : Prop := ∃ t, exec (.stallCountExpiry core) s = .next t ∧ (t.core core).stall = 0 ∧
        ∀ p logical c more, s.gridOf core = some p → (s.partition p).logicalOf core = some logical → s.swapCandidates s.cycleCounted p logical = c :: more →
          keysRise s.teams = true → c.1 ∈ (s.cluster c.2.cluster).teams → c.2.position = 0 →
            let victims := s.victims p logical c.2.launch
            ∀ n, ((List.range (victims.length + 1)).find? fun n =>
                free.fits p logical (s.needOf c.2) (c.1 :: (victims.take n).map fun v => v.1) (s.launch c.2.launch).determinate) = some n →
              (((t.team c.1).status = .resident ∧ (t.team c.1).logical = logical ∧ (t.team c.1).since = s.tick) ∨
                (t.core core).swap = some (c.1, logical) ∨ (t.launch c.2.launch).kill ≠ none) ∧
              ∀ v ∈ victims.take n, v.1 ∈ s.clusterOf v.1 →
                ((t.team v.1).status = .stopped ∨ (t.team v.1).preempt = true) ∧ (s.stoppable v.1 = true → (t.team v.1).status = .stopped)
      (4096 ≤ k.stall → k.swap = none → searches) ∧
      (∀ u logical, 4096 ≤ k.stall → k.swap = some (u, logical) → let y := s.team u
        let waits : Prop := y.status = .evicted ∧ y.held = false ∧ y.escalated = false ∧ s.mayPlace y.launch = true
        let fits : Bool := s.fits (s.partitionOf y) logical (s.needOf y) [u] (s.launch y.launch).determinate
        let giving : Prop := ∃ q ∈ s.teams, q.2.core = core ∧ ((q.2.status = .resident ∧ q.2.preempt = true) ∨ q.2.status = .stopped)
        (waits → fits = false → giving → ∃ t, exec (.stallCountExpiry core) s = .next t ∧ { t with cores := s.cores } = s ∧
          ∀ c, t.core c = if c = core then { k with stall := 0 } else s.core c) ∧
        (waits → fits = false → ¬giving → searches) ∧
        (¬waits → (∀ q ∈ s.teams, q.2.core = core → q.2.status = .resident → q.2.since ≠ s.tick) → searches) ∧
        (waits → fits = true → u ∈ s.clusterOf u → y.position = 0 → (s.partition (s.partitionOf y)).physical logical = core → keysRise s.teams = true →
          cellHas s.teams u = true →
          ∃ t, exec (.stallCountExpiry core) s = .next t ∧ (t.team u).status = .resident ∧ (t.team u).logical = logical))) ∧
    -- page walks
    (∀ v va, let leaf := s.walk va walkLevels (s.vi v).root.toNat
      (cellHas s.vis v = false ∨ 2 ^ 48 ≤ va ∨ ((s.vi v).tlb.any fun y => y.1 == va / 2 ^ y.2.1) = true ∨ (∃ c, leaf = .error c) → exec (.pageWalk v va) s = .next s) ∧
      (∀ bits e, cellHas s.vis v = true → va < 2 ^ 48 → ((s.vi v).tlb.any fun y => y.1 == va / 2 ^ y.2.1) = false → leaf = .ok (bits, e) →
        ∃ t, exec (.pageWalk v va) s = .next t ∧ { t with vis := s.vis } = s ∧
          (∀ w, t.vi w = if w = v then { s.vi v with tlb := (s.vi v).tlb ++ [(va / 2 ^ bits, bits, BitVec.ofNat 64 e)] } else s.vi w) ∧
          ∀ w, t.translate v va w = s.translate v va w) ∧
      (∀ e1 e2 e3 e4 : Nat, let table (e : Nat) : Prop := e % 4 = 1 ∧ e / 2 ^ 11 % 2 = 0 ∧ e / 2 ^ 48 = 0
        let entry (t i : Nat) : Nat := readLE s.main (t + 8 * i) 8
        let next (e : Nat) : Nat := e / 2 ^ 12 * 2 ^ 12
        e1 = entry (s.vi v).root.toNat (va / 2 ^ 39 % 2 ^ 9) → e2 = entry (next e1) (va / 2 ^ 30 % 2 ^ 9) → e3 = entry (next e2) (va / 2 ^ 21 % 2 ^ 9) →
        e4 = entry (next e3) (va / 2 ^ 16 % 2 ^ 5) → table e1 → table e2 → table e3 → e4 % 4 = 3 → e4 / 2 ^ 11 % 2 = 0 → e4 / 2 ^ 48 = 0 → next e4 % 2 ^ 16 = 0 →
        leaf = .ok (16, e4)))

-- The module.
/-- Interface registers, the tables of system software, and control requests (R226, R303, R314, R321, R327, R328, R332, R335, R347): a privileged or
unprivileged write has its register's effect; a request takes effect once, and completes with its result. Where the spec leaves a point open, this states the
model's choice: logs 35, 36, 37, 40 and 51. -/
def Obligations.InterfacesAnswer : Prop :=
  ∀ (s : State) (vi : Nat),
    let v := s.vi vi
    let live : Bool := s.launches.any fun l => l.2.vi == vi && l.2.kill == none
    let viOnly (t : State) (w : Vi) : Prop := { t with vis := s.vis } = s ∧ ∀ x, t.vi x = if x = vi then w else s.vi x
    let logged (i : Instr) (code arg : Nat) : Prop := ∃ t, exec i s = .next t ∧ { t with errorLog := s.errorLog } = s ∧ t.errorLog = s.errorLog ++ [(code, arg)]
    let alters (i : Instr) (w : Vi) : Prop := ∃ t, exec i s = .next t ∧ viOnly t w
    -- registers
    (cellHas s.vis vi = false → (∀ p off x, exec (.registerWrite (.vi vi p off x)) s = .next s) ∧ ∀ i, exec (.mtCounterWrite vi i) s = .next s) ∧
    (cellHas s.vis vi = true → ∀ x : DWord,
      let w (off : BitVec 12) : Instr := .registerWrite (.vi vi true off x)
      (∀ p : Bool, alters (.registerWrite (.vi vi p 0x020 x)) { v with irq := v.irq &&& ~~~(x.setWidth 8) } ∧
        ∃ t, exec (.registerWrite (.vi vi p 0x010 x)) s = .next t ∧ exec (.doorbell vi (x.setWidth 32)) s = .next t) ∧
      (∀ off : BitVec 12, off ≠ 0x010 → off ≠ 0x020 → exec (.registerWrite (.vi vi false off x)) s = .next s) ∧
      (∀ r ∈ ([(0x028, { v with root := x }), (0x038, { v with arg := x }), (0x100, { v with wmCtl := x &&& 0xF }), (0x118, { v with wmCons := x.setWidth 32 }),
          (0x130, { v with wmStop := x &&& 0x7FFFFFFFF }), (0x138, { v with wmSarg := x }), (0x140, { v with wmWatch := x }),
          (0x148, { v with wmWlen := x.setWidth 32 })] : List (BitVec 12 × Vi)), alters (w r.1) r.2) ∧
      (∀ r ∈ ([(0x000, 4, { v with ringbase := x &&& 0xFFFFFFFFFFFFF000, consumer := 0, doorbell := 0 }), (0x108, 5, { v with wmRing := x &&& 0xFFFFFFFFFFFFF01F }),
          (0x120, 5, { v with wmOwner := x }), (0x128, 5, { v with wmCbase := x &&& 0xFFFFFFFFFFFFE000 })] : List (BitVec 12 × Nat × Vi)),
        (live = false → alters (w r.1) r.2.2) ∧ (live = true → logged (w r.1) r.2.1 vi)) ∧
      (let n := x.toNat % 256
       (n = 0 ∨ (4 ≤ n ∧ n ≤ 16) → (live = false → alters (w 0x008) { v with ringsize := x.setWidth 8, consumer := 0, doorbell := 0 }) ∧ (live = true → logged (w 0x008) 4 vi)) ∧
       (n ≠ 0 → n < 4 ∨ 16 < n → logged (w 0x008) 3 vi)) ∧
      (v.ctl.getLsbD 63 = true → exec (w 0x030) s = .next s) ∧
      (v.ctl.getLsbD 63 = false → ∃ t, exec (w 0x030) s = .next t ∧ viOnly { t with controls := s.controls } { v with ctl := BitVec.ofNat 64 (2 ^ 63 + x.toNat % 256) } ∧
        ∀ y, cellGet ⟨0, 0, none⟩ t.controls y = if y = vi then ⟨x.toNat % 256, v.arg, none⟩ else cellGet ⟨0, 0, none⟩ s.controls y) ∧
      (∀ i : BitVec 3, i ≠ 7 → ∀ e ∈ [Instr.mtCounterWrite vi i, w (0x040 + 8 * i.setWidth 12)], ∃ t, exec e s = .next t ∧ { t with vis := s.vis } = s ∧
        (∀ y, { t.vi y with mt := (s.vi y).mt } = s.vi y) ∧
        ∀ y j, cellGet 0 (t.vi y).mt j = if y = vi ∧ j = i.toNat then 0 else cellGet 0 (s.vi y).mt j) ∧
      (∀ off : BitVec 12, 0x150 ≤ off.toNat ∨ off = 0x018 ∨ off = 0x110 ∨ (0x078 ≤ off.toNat ∧ off.toNat < 0x100) → exec (w off) s = .next s)) ∧
    -- tables
    (∀ (c p : Nat) (x : DWord), let b := (s.cluster c).binding
      let bad (e : ColEntry) : Bool := e.state == 2 || bitsOf x 12 2 == 3 || decide (48 ≤ bitsOf x 0 6) ||
        (bitsOf x 12 2 == 2 && !(e.state == 1 && bitsOf x 0 6 == e.col && s.canMove (s.cluster c).tower e.col (bitsOf x 6 6)))
      (cellHas s.clusters c = false ∨ (∀ e, b[p]? = some e → bad e = true) → exec (.registerWrite (.columnTable c p x)) s = .next s) ∧
      (∀ e, cellHas s.clusters c = true → b[p]? = some e → bad e = false → bitsOf x 12 2 ≠ 2 → ∃ t, exec (.registerWrite (.columnTable c p x)) s = .next t ∧
        t.teams = s.teams ∧ t.main = s.main ∧ { t.cluster c with binding := b } = s.cluster c ∧ (∀ d, d ≠ c → t.cluster d = s.cluster d) ∧
        (t.cluster c).binding = b.set p ⟨bitsOf x 0 6, bitsOf x 6 6, BitVec.ofNat 2 (bitsOf x 12 2)⟩)) ∧
    (∀ p logical physical : Nat, let part := s.partition p
      let i : Instr := .registerWrite (.remap p logical physical)
      (part.grid.length ≤ logical ∨ physical ∉ part.grid → logged i 6 p) ∧
      (logical < part.grid.length → physical ∈ part.grid → ∃ t, exec i s = .next t ∧ { t with partitions := s.partitions, teams := s.teams } = s ∧
        { t.partition p with remap := part.remap } = part ∧ (∀ q, q ≠ p → t.partition q = s.partition q) ∧
        (∀ n < part.grid.length, (t.partition p).physical n = if n = logical then physical else part.physical n) ∧
        ∀ q, { t.team q with preempt := (s.team q).preempt } = s.team q ∧
          (part.physical logical ≠ physical → keysRise s.teams = true → cellHas s.teams q = true → s.partitionOf (s.team q) = p → (s.team q).logical = logical →
            (s.team q).status = .resident → q ∈ s.clusterOf q → (t.team q).preempt = true))) ∧
    (∀ (p w : Nat) (x : DWord), let i : Instr := .registerWrite (.aperture p w x)
      (4096 ≤ w ∨ cellHas s.partitions p = false → exec i s = .next s) ∧
      (w < 4096 → cellHas s.partitions p = true → ∃ t, exec i s = .next t ∧ { t with partitions := s.partitions } = s ∧ (∀ q, { t.partition q with apertures := [] } = { s.partition q with apertures := [] }) ∧
        ∀ q y, cellGet 0 (t.partition q).apertures y = if q = p ∧ y = w then x &&& 0xFFFFFFFFF001FFFF else cellGet 0 (s.partition q).apertures y)) ∧
    -- requests
    (let ask := cellGet ⟨0, 0, some 0⟩ s.controls vi
     let arg := ask.arg
     let mine (li : Nat) : Prop := cellHas s.launches li = true ∧ (s.launch li).vi = vi ∧ (s.launch li).kill = none
     let tagged (li : Nat) : Prop := mine li ∧ (s.launch li).tag = arg
     let unless_ (i : Instr) (code : Nat) : Prop := ask.code ≠ code ∨ ask.result ≠ none → exec i s = .next s
     let grants (i : Instr) (code : Nat) (result : Prop) (f : State → Prop) : Prop := ask.code = code → ask.result = none → ∃ t n, exec i s = .next t ∧
       (n = 0 ∨ n = 1) ∧ (n = 0 ↔ result) ∧ (∀ y, cellGet ⟨0, 0, some 0⟩ t.controls y = if y = vi then ⟨code, arg, some n⟩ else cellGet ⟨0, 0, some 0⟩ s.controls y) ∧ f t
     let holdable (li : Nat) : Prop := mine li ∧ ((s.launch li).nextEntry < (s.launch li).grid ∨ (∃ b ∈ (s.launch li).queues, b.recs ≠ []) ∨
       ∃ p ∈ s.teams, p.2.launch = li ∧ p.2.status ≠ .draining ∧ p.2.status ≠ .ended)
     let holds (t : State) (q : Nat) : Prop := ((s.team q).status = .resident → (t.team q).preempt = true) ∧
       ((s.team q).status ≠ .draining → (s.team q).status ≠ .ended → (t.team q).held = true)
     let held (t : State) (which : Nat → Prop) : Prop := { t with teams := s.teams, launches := s.launches, controls := s.controls } = s ∧
       (∀ q, { t.team q with held := (s.team q).held, preempt := (s.team q).preempt } = s.team q) ∧
       (∀ li, { t.launch li with held := (s.launch li).held } = s.launch li) ∧
       ∀ li, which li → (t.launch li).held = true ∧ ∀ q, cellHas s.teams q = true → (s.team q).launch = li → q ∈ s.clusterOf q → holds t q
     let named (q : Nat) : Prop := cellHas s.teams q = true ∧ mine (s.team q).launch ∧ (s.team q).index.toNat = arg.toNat % 2 ^ 32 ∧
       (s.team q).node = bitsOf arg 32 4 ∧ bitsOf (s.launch (s.team q).launch).tag 0 24 = bitsOf arg 40 24 ∧ (s.team q).status ≠ .draining ∧
       (s.team q).status ≠ .ended
     keysRise s.launches = true → keysRise s.teams = true →
      unless_ (.ctlPreemptInterface vi) 1 ∧ grants (.ctlPreemptInterface vi) 1 (∃ li, holdable li) (fun t => held t holdable) ∧
      unless_ (.ctlPreemptLaunch vi arg) 2 ∧
      grants (.ctlPreemptLaunch vi arg) 2 (∃ li, tagged li ∧ holdable li) (fun t => held t fun li => tagged li ∧ holdable li) ∧
      (unless_ (.ctlPreemptTeam vi arg) 3 ∧
       grants (.ctlPreemptTeam vi arg) 3 (∃ q, named q) fun t => { t with teams := s.teams, controls := s.controls } = s ∧
         (∀ q, { t.team q with held := (s.team q).held, preempt := (s.team q).preempt } = s.team q) ∧ ∀ q, named q → ∀ m ∈ s.clusterOf q, holds t m) ∧
      (let wanted (li : Nat) : Prop := mine li ∧ (arg = 0 ∨ (s.launch li).tag = arg)
       let kept (q : Nat) : Prop := cellHas s.teams q = true ∧ wanted (s.team q).launch ∧ (s.team q).held = true
       unless_ (.ctlRelease vi arg) 4 ∧
       grants (.ctlRelease vi arg) 4 ((∃ q, kept q) ∨ ∃ li, wanted li ∧ (s.launch li).held = true) fun t =>
         { t with teams := s.teams, launches := s.launches, controls := s.controls } = s ∧
         (∀ q, (kept q → t.team q = { s.team q with held := false }) ∧ (¬kept q → t.team q = s.team q)) ∧
         ∀ li, (wanted li → t.launch li = { s.launch li with held := false }) ∧ (¬wanted li → t.launch li = s.launch li)) ∧
      unless_ (.ctlInvalidate vi arg) 5 ∧
      grants (.ctlInvalidate vi arg) 5 True (fun t => viOnly { t with controls := s.controls }
        { v with tlb := if arg = 0 then [] else v.tlb.filter fun y => y.1 != arg.toNat / 2 ^ y.2.1 }) ∧
      (let up (q : Nat) : Prop := cellHas s.teams q = true ∧ tagged (s.team q).launch ∧ (s.team q).escalated = true
       unless_ (.ctlReleaseEscalated vi arg) 6 ∧
       grants (.ctlReleaseEscalated vi arg) 6 (∃ q, up q) fun t => { t with teams := s.teams, controls := s.controls } = s ∧
         ∀ q, (¬up q → t.team q = s.team q) ∧ (up q → { t.team q with escalated := true, agents := (s.team q).agents } = s.team q ∧ (t.team q).escalated = false ∧
           ∀ a, (t.team q).agent a = if ((s.team q).agent a).status = .passed then { (s.team q).agent a with status := .ready } else (s.team q).agent a)) ∧
      unless_ (.ctlAbort vi arg) 7 ∧
      grants (.ctlAbort vi arg) 7 (∃ li, tagged li) (fun t => { t with launches := s.launches, controls := s.controls } = s ∧
        ∀ li, (tagged li → t.launch li = { s.launch li with kill := some ⟨3, 0, 0, 0, 0, 0⟩ }) ∧ (¬tagged li → t.launch li = s.launch li)) ∧
      (let part := s.partition v.partition
       let bins (c : Nat) : List Byte := (List.range 4).flatMap fun q => (List.range 32).flatMap fun j =>
         wordBytes (if j < 28 then (cellGet 0 (s.core c).histogram (32 * q + j)).toNat else 0) 4
       let writes := (List.range part.grid.length).flatMap fun n => bytesFrom (v.wmCbase.toNat + 8192 + 512 * n) (bins (part.physical n))
       unless_ (.ctlWriteHistograms vi) 8 ∧
       grants (.ctlWriteHistograms vi) 8 (v.wmCbase ≠ 0) fun t => (v.wmCbase = 0 → { t with controls := s.controls } = s) ∧
         (v.wmCbase ≠ 0 → deviceFrame s { t with cores := s.cores, controls := s.controls } ∧ (s.writable vi writes → wrote s t vi writes) ∧
           ∀ c, t.core c = if c ∈ part.grid then { s.core c with histogram := [] } else s.core c)) ∧
      -- completion
      (let done (n : Nat) : Prop := ∃ t, exec (.ctlRequestComplete vi) s = .next t ∧ viOnly { t with controls := s.controls } { v with ctl := BitVec.ofNat 64 (n * 2 ^ 56 + ask.code) } ∧
         cellHas t.controls vi = false
       let asks (q : Nat) : Prop := (cellHas s.teams q = true ∧ ((ask.code = 1 ∧ mine (s.team q).launch) ∨ (ask.code = 2 ∧ tagged (s.team q).launch))) ∨
         (ask.code = 3 ∧ named q)
       let left : Prop := (∃ li, holdable li ∧ (ask.code = 1 ∨ (ask.code = 2 ∧ tagged li))) ∨ (ask.code = 3 ∧ ∃ q, named q)
       (cellHas s.controls vi = false → exec (.ctlRequestComplete vi) s = .next s) ∧
       (cellHas s.controls vi = true →
         (ask.result = none → (1 ≤ ask.code ∧ ask.code ≤ 8 → exec (.ctlRequestComplete vi) s = .next s) ∧ (ask.code = 0 ∨ 8 < ask.code → done 2)) ∧
         (∀ n, ask.result = some n →
           (4 ≤ ask.code → done n) ∧
           (ask.code ≤ 3 → (∃ q, asks q ∧ s.runs q = true ∧ (s.team q).preempt = true) → exec (.ctlRequestComplete vi) s = .next s) ∧
           (1 ≤ ask.code → ask.code ≤ 3 → (∀ q, asks q → s.runs q = true → (s.team q).preempt = false) → (left → done n) ∧ (¬left → done 1))))))

/-- What the module does of itself (R142, R267 to R271, R318, R330, R331, R333, R334, R338, R344): clocks, throttles, sleep and banks; the sweep and the
eviction of race metadata; a system call that a stop names; the boot, reports, and keys. Where the spec leaves a point open, this states the model's choice:
logs 10, 11, 12, 28, 38, 39, 42, 51, 121, 122 and 137. -/
def Obligations.ModuleKeepsItself : Prop :=
  ∀ s : State,
    let target (t : State) (c : Nat) : Nat :=
      min (if (t.gridOf c).any (fun p => (t.partition p).locked) = true then 800 else min (t.core c).nextMhz (t.core c).ceiling)
        (if (t.tower (c / 128 % 4)).thermal = true then 600 else 1350)
    let inTower (tower c : Nat) : Prop := c / 128 = tower ∧ c % 8 < 6
    let locked (c : Nat) : Prop := (s.gridOf c).any (fun p => (s.partition p).locked) = true
    let clocked (t : State) (which : Nat → Prop) (f : Core → Core) : Prop :=
      (∀ c, which c → (t.core c).mhz = target t c ∧ { t.core c with mhz := (s.core c).mhz } = f (s.core c)) ∧ ∀ c, ¬which c → t.core c = s.core c
    let captured (t : State) : Prop := { t with main := s.main, lineKeys := s.lineKeys, mainHist := s.mainHist, vis := s.vis } = s ∧
      ∀ v, (s.vi v).counted { t.vi v with captures := (s.vi v).captures }
    -- clocks and throttles
    (∀ c, ∃ t, exec (.clockChange c) s = .next t ∧ deviceFrame s { t with cores := s.cores } ∧
      ∀ d, t.core d = if d = c then { s.core c with mhz := target s c } else s.core d) ∧
    (∀ n, let w := s.tower n
      let towerOnly (t : State) (x : Tower) : Prop := ∀ m, t.tower m = if m = n then x else s.tower m
      let throttles : Prop := w.powerLimit < w.watts ∧ ∃ c, inTower n c ∧ ¬locked c
      let hot : Prop := w.dieLimit < w.die ∨ w.outletLimit < w.outlet
      let cool : Prop := w.die + 5 ≤ w.dieLimit ∧ w.outlet + 5 ≤ w.outletLimit
      let begins (t : State) (now : Prop) (cause : Nat) : Prop := keysRise s.vis = true → ∀ v m, m ∈ (t.vi v).captures ↔
        m ∈ (s.vi v).captures ∨ (now ∧ m = (n, cause) ∧ cellHas s.vis v = true ∧ (s.vi v).wmCtl.getLsbD 2 = true)
      let ends (t : State) (now : Prop) (cause : Nat) : Prop := keysRise s.vis = true → ∀ v m, m ∈ (t.vi v).captures ↔
        m ∈ (s.vi v).captures ∧ ¬(now ∧ m = (n, cause))
      (s.tick < w.stepped + 250 ∨ 4 ≤ n → exec (.powerThrottleStep n) s = .next s) ∧
      (w.stepped + 250 ≤ s.tick → n < 4 →
        (throttles → ∃ t, exec (.powerThrottleStep n) s = .next t ∧ captured { t with cores := s.cores, towers := s.towers } ∧
          clocked t (inTower n) (fun k => { k with ceiling := max 600 (min k.ceiling k.mhz - 50) }) ∧ begins t (w.powered = false) 2 ∧
          towerOnly t { w with powered := true, stepped := s.tick, capturing := if w.powered then w.capturing else true }) ∧
        (w.watts < w.powerLimit → (∃ c, inTower n c ∧ (s.core c).ceiling < 1350) →
          ∃ t, exec (.powerThrottleStep n) s = .next t ∧ captured { t with cores := s.cores, towers := s.towers } ∧
            clocked t (inTower n) (fun k => { k with ceiling := min 1350 (k.ceiling + 50) }) ∧ ends t (w.powered = true) 2 ∧
            towerOnly t { w with powered := false, stepped := s.tick, capturing := if w.powered then w.thermal else w.capturing }) ∧
        (¬throttles → (w.watts < w.powerLimit → ∀ c, inTower n c → 1350 ≤ (s.core c).ceiling) → exec (.powerThrottleStep n) s = .next s)) ∧
      (¬hot ∨ w.thermal = true ∨ 4 ≤ n → exec (.thermalThrottle n) s = .next s) ∧
      (hot → w.thermal = false → n < 4 → keysRise s.launches = true → ∃ t, exec (.thermalThrottle n) s = .next t ∧
        captured { t with cores := s.cores, towers := s.towers, launches := s.launches } ∧ clocked t (inTower n) (fun k => k) ∧ begins t True 3 ∧
        towerOnly t { w with thermal := true, capturing := true } ∧
        ∀ li, let part := s.partition (s.vi (s.launch li).vi).partition
          t.launch li = if cellHas s.launches li = true ∧ part.locked = true ∧
              part.grid.any (fun c => c / 128 % 4 == n || (s.tower (c / 128 % 4)).thermal) = true
            then { s.launch li with lockLost := true } else s.launch li) ∧
      (w.thermal = false ∨ ¬cool → exec (.thermalThrottleRelease n) s = .next s) ∧
      (w.thermal = true → cool → ∃ t, exec (.thermalThrottleRelease n) s = .next t ∧
        captured { t with cores := s.cores, towers := s.towers } ∧ clocked t (inTower n) (fun k => k) ∧ ends t True 3 ∧
        towerOnly t { w with thermal := false, capturing := w.powered })) ∧
    (let overheats : Prop := s.coolant = false ∨ ∃ w ∈ s.towers, w.2.dieStop < w.2.die ∨ w.2.outletStop < w.2.outlet
     (¬overheats → exec .coolantLoss s = .next s) ∧
     (overheats → ∃ t, exec .coolantLoss s = .next t ∧ { t with launches := s.launches, boot := s.boot } = s ∧ t.boot = .stopped ∧
      ∀ li, t.launch li = if cellHas s.launches li = true ∧ (s.launch li).kill = none then { s.launch li with kill := some ⟨3, 0, 0, 0, 0, 0⟩ } else s.launch li)) ∧
    (∀ p, let part := s.partition p
      let live : Bool := s.launches.any fun l => (s.vi l.2.vi).partition == p
      (part.wantLocked = none ∨ live = true → exec (.clockModeChange p) s = .next s) ∧
      (∀ x, part.wantLocked = some x → live = false → ∃ t, exec (.clockModeChange p) s = .next t ∧
        deviceFrame s { t with cores := s.cores, partitions := s.partitions } ∧ (∀ q, q ≠ p → t.partition q = s.partition q) ∧
        t.partition p = { part with locked := x, wantLocked := none } ∧ (∀ c, c ∉ part.grid → t.core c = s.core c) ∧
        ∀ c ∈ part.grid, (t.core c).nextMhz = 1200 ∧ (t.core c).mhz = target t c)) ∧
    (∀ c, let k := s.core c
      let idle : Bool := !k.asleep && decide (k.idleSince + 16384 ≤ s.tick) && !(s.teams.any fun t => t.2.core == c && t.2.status == .resident)
      (idle = false → exec (.sleepEnter c) s = .next s) ∧
      (idle = true → ∃ t, exec (.sleepEnter c) s = .next t ∧ deviceFrame s { t with cores := s.cores } ∧
        ∀ d, t.core d = if d = c then { k with asleep := true } else s.core d)) ∧
    -- banks
    (∀ a, ((s.bank a).rebuilding = false → exec (.bankRebuildDone a) s = .next s) ∧
      ((s.bank a).rebuilding = true → ∃ t, exec (.bankRebuildDone a) s = .next t ∧ { t with banks := s.banks, errorLog := s.errorLog } = s ∧
        (∀ b, t.bank b = if b = a then
          { s.bank a with rebuilding := false, spareUsed := true, retired := (s.bank a).retired.drop 1,
                          ticks := (s.bank a).ticks.filter fun x => x.1 != (s.bank a).retired.headD 0 } else s.bank b) ∧
        t.errorLog = s.errorLog ++ [(10, (s.bank a).retired.headD 0)])) ∧
    -- race metadata
    (∀ (place : Place) (line : Nat), let m := s.metaAt place line
      let tower := s.placeTower place (64 * line)
      let old (x : BitVec 18) (clk : BitVec 20) : Bool := x != 0x3FFFF && decide (2 ^ 18 ≤ (s.clockNow x - clk).toNat)
      let oldReader (e : Epoch) : Bool := (s.storedReader tower e).any fun x => old x.ident x.gclk
      let w : Bool := old m.writer m.wgclk
      let more (t : State) (li i : Nat) : Prop := cellHas s.launches li = true → let c := cellGet 0 (s.launch li).counters i
        cellGet 0 (t.launch li).counters i = if c = 0xFFFFFFFF then c else c + 1
      (m.reader0.token ≠ m.reader1.token ∨ m.reader0.token = 0x7FF → ∃ t, exec (.agingSweep place line) s = .next t ∧ sameBytes s t ∧
        (∀ p l, placeKey p ≠ placeKey place ∨ l ≠ line → t.metaAt p l = s.metaAt p l) ∧
        (let n := t.metaAt place line
         (n.writer, n.wgclk, n.wtclk, n.scope, n.wmask, n.engine) =
           (if w then (0x3FFFF, 0, 0, 0, 0, false) else (m.writer, m.wgclk, m.wtclk, m.scope, m.wmask, m.engine)) ∧
         n.overflow = m.overflow ∧ n.reader0 = (if oldReader m.reader0 then ⟨0, 0x7FF⟩ else m.reader0) ∧
         n.reader1 = if oldReader m.reader1 then ⟨0, 0x7FF⟩ else m.reader1) ∧
        ∀ h, s.holder m.writer = some h → w = true → oldReader m.reader0 = false → oldReader m.reader1 = false → more t (s.team h.1).launch 3) ∧
      (let n := s.metaAt .main line
       let ids := n.writer :: ([n.reader0, n.reader1].filterMap (s.storedReader (s.placeTower .main (64 * line)))).map fun x => x.ident
       let launch := ids.findSome? fun x => (s.holder x).map fun h => (s.team h.1).launch
       ((∀ li, launch = some li → (s.launch li).cached = false) → exec (.metadataEvict line) s = .next s) ∧
       (∀ li, launch = some li → (s.launch li).cached = true → ∃ t, exec (.metadataEvict line) s = .next t ∧ sameBytes s t ∧ more t li 1 ∧
         t.metaAt .main line = ⟨0x3FFFF, 0, 0, 0, 0, false, false, ⟨0, 0x7FF⟩, ⟨0, 0x7FF⟩⟩ ∧ ∀ l, l ≠ line → t.metaAt .main l = s.metaAt .main l))) ∧
    -- system calls
    (∀ (vi : Nat) (process thread : Word), let v := s.vi vi
      let owner : DWord := thread ++ process
      let named : Bool := v.wmCtl.getLsbD 3 && bitsOf v.wmStop 0 3 == 4 && v.wmSarg == owner && !v.halted.contains owner
      (named = false → exec (.syscallStop vi process thread) s = .next s) ∧
      (named = true → ∃ t, exec (.syscallStop vi process thread) s = .next t ∧
        { t with vis := s.vis, main := s.main, lineKeys := s.lineKeys, mainHist := s.mainHist } = s ∧
        ∀ w, (t.vi w).halted = if w = vi then v.halted ++ [owner] else (s.vi w).halted)) ∧
    -- boot, reports and keys
    (let good (r : FlashRec) : Bool := Config.signatureGood (shake256 r.bytes) r.signature && decide (s.rollback ≤ r.version)
     let firmware : Bool := (s.flash.any fun r => r.type == 0) && s.flash.all fun r => r.type != 0 || good r
     ∃ t, exec .resetBoot s = .next t ∧ t.teams = [] ∧ t.launches = [] ∧ t.clusters = [] ∧ t.requests = [] ∧ t.objects = [] ∧ t.keys = [] ∧ t.tick = 0 ∧
       t.errorLog = [] ∧ t.main = s.main ∧ t.flash = s.flash ∧ t.seed = s.seed ∧ t.rollback = s.rollback ∧ t.schedule = s.schedule ∧
       (firmware = false → t.boot = .recovery 0 ∧ t.partitions = [] ∧ t.vis = []) ∧
       (firmware = true →
         (∀ before r after, s.flash = before ++ r :: after → (∀ x ∈ before, x.type = 0 ∨ good x = true) → r.type ≠ 0 → good r = false →
           t.boot = .recovery r.type ∧ t.partitions = [] ∧ t.vis = []) ∧
         ((∀ r ∈ s.flash, good r = true) →
           let m := Config.configuredModule s.flash % 768
           let met : Bool := s.peers.any fun p => p.1 == m
           t.boot = .running ∧ t.identity = Config.identityKey s.seed ∧ t.module = m ∧
           t.peers = ((s.peers.filter fun p => decide (p.1 < 768)).map fun p => (p.1, if met then { p.2 with linkUp := false } else p.2)) ∧
           (∀ p, cellHas t.partitions p = true → let y := t.partition p
             p < 16 ∧ (y.remap, y.wantLocked, y.apertures, y.flows, y.reach) = ([], none, [], [], []) ∧ y.booted = y.systemCores ∧ (∀ c ∈ y.grid, coreOk c = true) ∧
             (∀ c ∈ y.grid, (t.core c).mhz = if y.locked then 800 else 1200) ∧
             ∀ q, q ≠ p → cellHas t.partitions q = true → let z := t.partition q
               (∀ c ∈ y.grid, c ∉ z.grid) ∧ (∀ k ∈ y.keySlots, k ∉ z.keySlots) ∧ (∀ k ∈ y.systemCores, k ∉ z.systemCores) ∧
               ∀ a ∈ y.ranges ++ y.shadow.toList, ∀ b ∈ z.ranges ++ z.shadow.toList, a.1 + a.2 ≤ b.1 ∨ b.1 + b.2 ≤ a.1) ∧
           (∀ p y rest, Config.configuredPartitions s.flash = (p, y) :: rest → p < 16 → (t.partition p).grid = y.grid.eraseDups.filter coreOk ∧
             (t.partition p).ranges = y.ranges ∧ (t.partition p).shadow = y.shadow ∧ (t.partition p).systemCores = y.systemCores ∧
             (t.partition p).image = y.image ∧ (t.partition p).locked = y.locked) ∧
           (∀ v, cellHas t.vis v = true → v < 128 ∧ ∃ p, (v, p) ∈ Config.configuredVis s.flash ∧ t.vi v = { Vi.blank with partition := p }) ∧
           (∀ v p, (v, p) ∈ Config.configuredVis s.flash → v < 128 → cellHas t.vis v = true) ∧
           (∀ n < 4, let limits := Config.configuredLimits s.flash n
             let stops := Config.configuredStops s.flash n
             t.tower n = { Tower.blank with dieLimit := limits.1, outletLimit := limits.2, dieStop := stops.1, outletStop := stops.2 }) ∧
           (∀ x ∈ t.tier, 2 ^ 39 ≤ x.1 ∧ x.1 + x.2 ≤ 2 ^ 47 ∧ x ∈ Config.configuredTier s.flash) ∧ (t.tier.map fun x => x.2).sum ≤ 6144 * 10 ^ 9))) ∧
    (∀ (p : Nat) (nonce : BitVec 256),
      let report := wordBytes nonce.toNat 32 ++ (s.flash.flatMap fun r => shake256 r.bytes) ++ shake256 (s.partition p).image ++ wordBytes p 1
      (s.boot ≠ .running ∨ cellHas s.partitions p = false → exec (.attest p nonce) s = .next s) ∧
      (s.boot = .running → cellHas s.partitions p = true → ∃ t, exec (.attest p nonce) s = .next t ∧ { t with attested := s.attested } = s ∧
        t.attested = some (report, Config.signReport s.identity report))) ∧
    ∀ (slot : BitVec 7) (key : BitVec 512), ∃ t, exec (.keyLoad slot key) s = .next t ∧ { t with keys := s.keys } = s ∧
      ∀ n, t.keyOf n = if n = slot.toNat then key else s.keyOf n

/-- Bluevo (R225, R240, R277, R347 to R355): a request takes effect once and in its order, refused, raced or performed; its acknowledgement frees it; an
unanswered one is abandoned; lost ones are sent again; remote atomics are single steps; flow and routing tables change when nothing is in flight. Where the
spec leaves a point open, this states the model's choice: logs 12, 41, 44, 45, 46, 47, 48, 49, 51, 70, 107 and 123. -/
def Obligations.FabricCarriesRequests : Prop :=
  ∀ s : State,
    -- requests
    (∀ id, let r := s.request id
      let waiting : Bool := cellHas s.requests id && r.state == .held && r.transit
      let now (t : State) : Request := t.request id
      let others (t : State) : Prop := ∀ x, x ≠ id → t.request x = s.request x
      let kept : Bool := match r.chunk with
        | some k => cellHas s.teams k.1 && cellHas (s.team k.1).copies k.2.1
        | none => true
      let runs (f : State → Prop) : Prop := ∃ t, exec (.remoteRequest id) s = .next t ∧ others t ∧ f t
      let answered (t : State) (x : ReqState) : Prop := (now t).state = x ∧ (now t).answer = x
      let within (l : List Reach) (a : Nat) (write : Bool) : Prop :=
        ∃ y ∈ l, y.source = r.source ∧ y.base ≤ a ∧ a < y.base + y.size ∧ (if write then y.write else y.read) = true
      let takes (a : Nat) (write : Bool) : Prop := if r.dest = s.module
        then a < 2 ^ 47 ∧ s.populated a = true ∧ ∃ p ∈ s.partitions, within p.2.reach a write ∧ (∃ y ∈ p.2.ranges, y.1 ≤ a ∧ a < y.1 + y.2) ∧
          s.forbidden p.1 a 1 write = false
        else cellHas s.peers r.dest = true ∧ within (s.peer r.dest).reach a write ∧ a < (s.peer r.dest).size
      let ok : Prop := (r.dest = s.module ∨ cellHas s.peers r.dest = true) ∧ (∀ x ∈ r.reads, takes x.1 false) ∧ ∀ x ∈ r.writes, takes x.1 true
      let turn (q : Request) : Bool := s.requests.all fun p => !p.2.precedes q
      (waiting = false ∨ turn r = false → exec (.remoteRequest id) s = .next s) ∧
      (∀ q : Request, q.precedes r = true ↔ q.state = .held ∧ q.source = r.source ∧ q.dest = r.dest ∧ ∃ a ∈ q.flows, ∃ b ∈ r.flows,
        ((a.kind = 0 ∧ b.kind = 0 ∧ q.core = r.core ∧ q.order < r.order ∧ ∃ x ∈ a.lines, x ∈ b.lines) ∨
         (a.kind = 1 ∧ b.kind = 1 ∧ q.partition = r.partition ∧ a.flow = b.flow ∧ a.seq < b.seq) ∨
         (q.epoch < r.epoch ∧ a.kind = b.kind ∧
           ((a.kind = 0 ∧ ∃ x ∈ a.lanes, x ∈ b.lanes) ∨ (a.kind = 1 ∧ q.partition = r.partition ∧ a.flow = b.flow))))) ∧
      (waiting = true → turn r = true →
        (¬ok → runs fun t => answered t .refused ∧ { t with requests := s.requests } = s) ∧
        -- a request of this module's own: the last of its chunk's to be taken makes the chunk's step
        (∀ team n i, ok → r.chunk = some (team, n, i) → keysRise s.requests = true →
          let mine (q : Request) : Prop := q.chunk = some (team, n, i)
          let last : Prop := ∀ q ∈ s.requests, mine q.2 → q.2.state ≠ .held ∨ ((q.1 = id ∨ q.2.arrived = true) ∧ turn q.2 = true)
          (¬last → runs fun t => { t with requests := s.requests } = s ∧ now t = { r with arrived := true }) ∧
          (last →
            let c := cellGet Copy.blank (s.team team).copies n
            let rs : List Request := (s.requests.filter fun q => q.2.chunk == some (team, n, i) && q.2.state == .held).map fun q => q.2
            ∃ t, exec (.remoteRequest id) s = .next t ∧
              (∀ x, ¬(mine (s.request x) ∧ (s.request x).state = .held ∧ cellHas s.requests x = true) → t.request x = s.request x) ∧
              (∀ x, mine (s.request x) → (s.request x).state = .held → cellHas s.requests x = true →
                (t.request x).state = (t.request x).answer ∧ ((t.request x).answer = .performed ∨ ((t.request x).answer = .raced ∧
                  t.main = s.main ∧ ∀ m, (t.peer m).memory = (s.peer m).memory))) ∧
              (∀ m a, (∀ q ∈ rs, q.dest = m → ∀ y ∈ q.led, y.1 = true → y.2.2 ≠ a) → readByte (t.peer m).memory a = readByte (s.peer m).memory a) ∧
              ∀ src dst : List Spot,
                let at_ (write : Bool) (l : List Spot) : List Spot := l.map fun p => (s.reach rs write p).getD p
                s.copyLives team n = true → c.kind = .cpy →
                s.allSpots (s.team team) false (s.srcParts team c (c.range i).1 (c.range i).2) = (src, none) →
                s.allSpots (s.team team) true (s.dstParts team c (c.range i).1 (c.range i).2) = (dst, none) →
                (∀ p ∈ src, (s.reach rs false p).isSome = true) → (∀ p ∈ dst, (s.reach rs true p).isSome = true) → (∀ p ∈ at_ true dst, p.far = false) →
                s.readsFreely team n c (at_ false src) (c.view ||| s.overlapView team c (s.chunkReads team c i) []) →
                s.writesFreely team n c i (at_ true dst) [] (s.landView team team c i) →
                ((∃ p ∈ at_ true dst, ∃ m, p.place = .peer m) → c.ident = 0x3FFFF ∨ s.copyMode team c = 0) →
                landed s t c i (at_ true dst) ((at_ false src).map fun p => s.byteAt p.key p.place p.addr) [] ∧
                  ∀ x, mine (s.request x) → (s.request x).state = .held → cellHas s.requests x = true → (t.request x).answer = .performed)) ∧
        -- another module's: its step is its own
        (ok → r.chunk = none → r.dest ≠ s.module → exec (.remoteRequest id) s = .next s) ∧
        (ok → r.chunk = none → r.dest = s.module →
          let key := (Config.remoteKeySlot r.source).toNat
          let known : Prop := ∀ x ∈ r.reads, ∀ j < 16, ∀ w ∈ s.histAt .main (x.1 / 16 * 16 + j), inView r.view w.ev = true
          let got : List (Option Byte) := r.reads.map fun x => if s.badAt .main x.1 1 = true then none else some (s.readKeyed key x.1)
          (r.writes = [] → runs fun t => answered t .performed ∧ t.main = s.main ∧ (known → (now t).answers = got)) ∧
          ((r.writes.map fun x => x.1).Nodup → r.bytes.length = r.writes.length → runs fun t => (known → (now t).answers = got) ∧
            ((answered t .performed ∧ (∀ x ∈ r.writes.zip r.bytes, ∀ b, x.2 = some b → t.readKeyed key x.1.1 = b) ∧
              ∀ a, (∀ x ∈ r.writes, x.1 ≠ a ∧ (x.1 / 64 = a / 64 → cellGet 0 s.lineKeys (a / 64) = s.keyOf key)) → t.peek .main a = s.peek .main a) ∨
            (answered t .raced ∧ 2 ≤ r.mode.toNat ∧ r.ident ≠ 0x3FFFF ∧ t.main = s.main ∧ (now t).race.isSome = true))))) ∧
      -- acknowledgements
      (let done : Bool := cellHas s.requests id && r.transit && (r.state == .performed || r.state == .refused || r.state == .raced)
       (done = false → exec (.remoteAck id) s = .next s) ∧
       (done = true → ∃ t, exec (.remoteAck id) s = .next t ∧ { t with requests := s.requests, vis := s.vis } = s ∧ others t ∧
          (kept = true → now t = { r with state := .acked }) ∧ (kept = false → cellHas t.requests id = false) ∧
          (∀ v, { t.vi v with mt := (s.vi v).mt } = s.vi v) ∧
          ∀ v i, cellGet 0 (t.vi v).mt i = match r.chunk with
            | some k => if r.dest ≠ s.module ∧ r.answer = .performed ∧ v = s.viOf (s.team k.1) ∧ i = 5
                then BitVec.ofNat 64 (min ((cellGet 0 (s.vi v).mt i).toNat + r.answers.length) (2 ^ 64 - 1)) else cellGet 0 (s.vi v).mt i
            | none => cellGet 0 (s.vi v).mt i)) ∧
      (let late : Bool := cellHas s.requests id && r.state != .acked && decide (r.sentAt + 2 ^ 20 ≤ s.tick)
       (late = false → exec (.requestAbandon id) s = .next s) ∧
       (late = true → ∃ t, exec (.requestAbandon id) s = .next t ∧ { t with requests := s.requests } = s ∧ others t ∧
         (kept = true → now t = { r with state := .acked, answer := .abandoned }) ∧ (kept = false → cellHas t.requests id = false)))) ∧
    (∀ p, ((s.peer p).linkUp = false → exec (.linkReplay p) s = .next s) ∧
      ((s.peer p).linkUp = true → ∃ t, exec (.linkReplay p) s = .next t ∧ { t with requests := s.requests } = s ∧
        ∀ x, cellHas t.requests x = cellHas s.requests x ∧ (cellHas s.requests x = true → t.request x =
          if ((s.request x).dest = p ∨ (s.request x).source = p) ∧ (s.request x).state ≠ .acked then { s.request x with transit := true } else s.request x))) ∧
    -- remote atomics
    (∀ (op : RemoteOp) (source dest a : Nat) (v c : DWord),
      let i := Instr.remoteAtomic op ⟨source, dest⟩ a v c
      let key := (Config.remoteKeySlot source).toNat
      let both (l : List Reach) (a : Nat) : Prop := (∃ y ∈ l, y.source = source ∧ y.base ≤ a ∧ a < y.base + y.size ∧ y.write = true) ∧
        ∃ y ∈ l, y.source = source ∧ y.base ≤ a ∧ a < y.base + y.size ∧ y.read = true
      let here (b : Nat) (write : Bool) : Prop := ∃ p ∈ s.partitions, (∃ y ∈ p.2.ranges, y.1 ≤ b ∧ b < y.1 + y.2) ∧ s.forbidden p.1 b 1 write = false ∧
        ∃ y ∈ p.2.reach, y.source = source ∧ y.base ≤ b ∧ b < y.base + y.size ∧ (if write then y.write else y.read) = true
      let linked (m : Nat) : Prop := m = s.module ∨ (m < 768 ∧ cellHas s.peers m = true ∧ (s.peer m).linkUp = true)
      let ok : Prop := if dest = s.module
        then linked source ∧
          ∀ j < 8, a + j < 2 ^ 47 ∧ s.populated (a + j) = true ∧ here (a + j) true ∧ here (a + j) false
        else source = s.module ∧ linked dest ∧ a + 8 ≤ (s.peer dest).size ∧
          ∀ j < 8, both (s.peer dest).reach (a + j)
      let at_ (t : State) (b : Nat) : Byte := if dest = s.module then t.readKeyed key b else readByte (t.peer dest).memory b
      let word (t : State) : Nat := bytesWord ((List.range 8).map fun j => at_ t (a + j))
      let old : DWord := BitVec.ofNat 64 (word s)
      let new := match op with
        | .add => old + v
        | .or => old ||| v
        | .xchg => v
        | .cas => if old = c then v else old
      (¬ok → exec i s = .next s) ∧
      (ok → ∃ t, exec i s = .next t ∧ t.requests = s.requests ∧ t.remoteOld = some (source, old) ∧ word t = new.toNat ∧
        (∀ m, (m ≠ dest ∨ dest = s.module) → t.peer m = s.peer m) ∧ (dest ≠ s.module → t.main = s.main ∧ ∀ b, (b < a ∨ a + 8 ≤ b) → at_ t b = at_ s b) ∧
        (dest = s.module → ∀ b, (∀ j < 8, a + j ≠ b ∧ ((a + j) / 64 = b / 64 → cellGet 0 s.lineKeys (b / 64) = s.keyOf key)) →
          t.peek .main b = s.peek .main b))) ∧
    -- tables
    (∀ (p : Nat) (flow : BitVec 6) (x : DWord),
      let busy : Prop := ∃ w ∈ (s.partition p).apertures, bitsOf w.2 0 1 = 1 ∧ bitsOf w.2 1 6 = flow.toNat ∧
        ∃ r ∈ s.requests, r.2.source = s.module ∧ r.2.partition = p ∧ r.2.state ≠ .acked ∧ ∃ y ∈ r.2.led, (y.2.1 - 2 ^ 47) / 2 ^ 35 = w.1
      (cellHas s.partitions p = false → exec (.flowTableWrite p flow x) s = .next s) ∧
      (cellHas s.partitions p = true → busy → ∃ t, exec (.flowTableWrite p flow x) s = .next t ∧ { t with errorLog := s.errorLog } = s ∧
        t.errorLog = s.errorLog ++ [(12, flow.toNat)]) ∧
      (cellHas s.partitions p = true → ¬busy → ∃ t, exec (.flowTableWrite p flow x) s = .next t ∧ { t with partitions := s.partitions } = s ∧
        (∀ q, { t.partition q with flows := [] } = { s.partition q with flows := [] }) ∧
        ∀ q y, cellGet 0 (t.partition q).flows y = if q = p ∧ y = flow.toNat then x &&& 3 else cellGet 0 (s.partition q).flows y)) ∧
    (let domain := s.module :: s.peers.map fun p => p.1
     let ready : Bool := !s.switched && domain.all fun m => cellHas s.nextRoutes m
     (∀ m table, (s.switched = true ∨ m ∉ domain → exec (.routeTableWrite m table) s = .next s) ∧
       (s.switched = false → m ∈ domain → ∃ t, exec (.routeTableWrite m table) s = .next t ∧ { t with nextRoutes := s.nextRoutes } = s ∧
         ∀ n, cellGet [] t.nextRoutes n = if n = m then table else cellGet [] s.nextRoutes n)) ∧
     (ready = false → exec .routeEpochSwitch s = .next s) ∧
     (ready = true → ∃ t, exec .routeEpochSwitch s = .next t ∧ { t with epoch := s.epoch, switched := false } = s ∧ t.epoch = s.epoch + 1 ∧ t.switched = true) ∧
     (let free : Bool := s.switched && s.requests.all fun r => r.2.state == .acked || decide (s.epoch ≤ r.2.epoch)
      (free = false → exec .routeEpochFree s = .next s) ∧
      (free = true → ∃ t, exec .routeEpochFree s = .next t ∧ { t with routes := s.routes, nextRoutes := s.nextRoutes, switched := true } = s ∧
        t.routes = s.nextRoutes ∧ t.nextRoutes = [] ∧ t.switched = false)) ∧
     (∀ port, let used (m : Cells (List (Nat × Nat))) : Prop := ∃ t ∈ m, t.1 = s.module ∧ ∃ x ∈ t.2, x.2 = port
       (s.switched = true ∨ used s.routes ∨ used s.nextRoutes → exec (.portRetire port) s = .next s) ∧
       (s.switched = false → ¬used s.routes → ¬used s.nextRoutes → ∃ t, exec (.portRetire port) s = .next t ∧ { t with ports := s.ports } = s ∧
         ∀ x, x ∈ t.ports ↔ x ∈ s.ports ∧ x ≠ port)) ∧
     ∀ tower e, let w := s.tower tower
       let becomes (x : Tower) : Prop := ∃ t, exec (.elevatorRetire tower e) s = .next t ∧ { t with towers := s.towers } = s ∧
         ∀ n, t.tower n = if n = tower then x else s.tower n
       let busy (team copy i : Nat) : Prop := ∃ t ∈ s.teams, t.1 = team ∧ (s.cluster t.2.cluster).tower = tower ∧
         ∃ c ∈ t.2.copies, c.1 = copy ∧ i < c.2.started ∧ i ∉ c.2.landed
       let drained : Prop := ∀ x ∈ w.meshTraffic, ¬busy x.1 x.2.1 x.2.2
       let others := w.meshRoutes.filter fun x => x != e
       (4 ≤ tower → exec (.elevatorRetire tower e) s = .next s) ∧
       (tower < 4 →
         (∀ routes, w.meshNext = some routes → (e ∈ routes → exec (.elevatorRetire tower e) s = .next s) ∧
           (e ∉ routes → ∃ traffic, (∀ team copy i, (team, copy, i) ∈ traffic ↔ busy team copy i) ∧
             becomes { w with meshRoutes := routes, meshNext := none, meshEpoch := w.meshEpoch + 1, meshTraffic := traffic })) ∧
         (w.meshNext = none →
           (¬drained ∨ (e ∈ w.meshRoutes ∧ others = []) → exec (.elevatorRetire tower e) s = .next s) ∧
           (drained → e ∈ w.meshRoutes → others ≠ [] → becomes { w with meshNext := some others }) ∧
           (drained → e ∉ w.meshRoutes → becomes { w with elevators := w.elevators.filter fun x => x != e, meshTraffic := [] }))))
end

