-- ==== Sys2Proof/Laws/Cells.lean ====
section
/-! SUPPORT. The laws of finite maps and byte memories: what a map reads after each update, and that every update of a
memory keeps its canonical form. -/

namespace Sys2Proof.Machine

variable {β : Type}

-- Reading a map.
@[simp] theorem cellGet_nil (d : β) (k : Nat) : cellGet d [] k = d := rfl
theorem cellGet_cons (d : β) (a : Nat) (x : β) (m : Cells β) (k : Nat) :
    cellGet d ((a, x) :: m) k = if a = k then x else cellGet d m k := rfl

@[simp] theorem cellGet_put_same (d : β) (m : Cells β) (k : Nat) (v : β) : cellGet d (cellPut m k v) k = v := by
  induction m with
  | nil => simp [cellPut, cellGet]
  | cons p m ih =>
    obtain ⟨a, x⟩ := p
    simp only [cellPut]
    split
    · rename_i h; simp [cellGet, Nat.ne_of_lt h, ih]
    · split <;> simp [cellGet]

theorem cellGet_put_other (d : β) (m : Cells β) {k j : Nat} (v : β) (h : j ≠ k) : cellGet d (cellPut m k v) j = cellGet d m j := by
  induction m with
  | nil => simp [cellPut, cellGet, h.symm]
  | cons p m ih =>
    obtain ⟨a, x⟩ := p
    simp only [cellPut]
    split
    · simp [cellGet, ih]
    · split
      · rename_i _ e; subst e; simp [cellGet, h.symm]
      · simp [cellGet, h.symm]

theorem cellGet_put (d : β) (m : Cells β) (k j : Nat) (v : β) : cellGet d (cellPut m k v) j = if j = k then v else cellGet d m j := by
  split
  · next h => subst h; simp
  · next h => exact cellGet_put_other d m v h

@[simp] theorem cellGet_del_same (d : β) (m : Cells β) (k : Nat) : cellGet d (cellDel m k) k = d := by
  induction m with
  | nil => rfl
  | cons p m ih =>
    obtain ⟨a, x⟩ := p
    by_cases h : a = k
    · simpa [cellDel, h] using ih
    · simpa [cellDel, h, cellGet] using ih

theorem cellGet_del_other (d : β) (m : Cells β) {k j : Nat} (h : j ≠ k) : cellGet d (cellDel m k) j = cellGet d m j := by
  induction m with
  | nil => rfl
  | cons p m ih =>
    obtain ⟨a, x⟩ := p
    by_cases e : a = k
    · subst e; simpa [cellDel, cellGet, h.symm] using ih
    · by_cases f : a = j
      · subst f; simp [cellDel, h, cellGet]
      · simpa [cellDel, e, cellGet, f] using ih

theorem cellGet_set [DecidableEq β] (d : β) (m : Cells β) (k j : Nat) (v : β) :
    cellGet d (cellSet d m k v) j = if j = k then v else cellGet d m j := by
  unfold cellSet
  split
  · next e =>
    split
    · next h => subst h; simp [e]
    · next h => exact cellGet_del_other d m h
  · exact cellGet_put d m k j v
@[simp] theorem cellGet_set_same [DecidableEq β] (d : β) (m : Cells β) (k : Nat) (v : β) : cellGet d (cellSet d m k v) k = v := by
  simp [cellGet_set]
theorem cellGet_set_other [DecidableEq β] (d : β) (m : Cells β) {k j : Nat} (v : β) (h : j ≠ k) :
    cellGet d (cellSet d m k v) j = cellGet d m j := by
  simp [cellGet_set, h]
theorem cellGet_mod (d : β) (m : Cells β) (k j : Nat) (f : β → β) :
    cellGet d (cellMod d m k f) j = if j = k then f (cellGet d m k) else cellGet d m j := cellGet_put d m k j _

-- Listed keys.
@[simp] theorem cellHas_put (m : Cells β) (k : Nat) (v : β) : cellHas (cellPut m k v) k = true := by
  induction m with
  | nil => simp [cellPut, cellHas]
  | cons p m ih =>
    obtain ⟨a, x⟩ := p
    simp only [cellPut]
    split
    · simp [cellHas, ih]
    · split <;> simp [cellHas]
theorem cellHas_put_other (m : Cells β) {k j : Nat} (v : β) (h : j ≠ k) : cellHas (cellPut m k v) j = cellHas m j := by
  induction m with
  | nil => simp [cellPut, cellHas, h.symm]
  | cons p m ih =>
    obtain ⟨a, x⟩ := p
    simp only [cellPut]
    split
    · simp [cellHas, ih]
    · split
      · rename_i _ e; subst e; simp [cellHas]
      · simp [cellHas, h.symm]

-- The canonical form.
/-- Every key of a map lies above a bound. -/
theorem keysRise_cons {a : Nat} {x : β} {m : Cells β} : keysRise ((a, x) :: m) = true ↔ (∀ p ∈ m, a < p.1) ∧ keysRise m = true := by
  induction m generalizing a x with
  | nil => simp [keysRise]
  | cons q m ih =>
    obtain ⟨b, y⟩ := q
    simp only [keysRise, Bool.and_eq_true, decide_eq_true_eq, List.mem_cons, forall_eq_or_imp]
    constructor
    · rintro ⟨h, k⟩
      exact ⟨⟨h, fun p hp => Nat.lt_trans h ((ih.1 k).1 p hp)⟩, k⟩
    · rintro ⟨⟨h, -⟩, k⟩
      exact ⟨h, k⟩

theorem mem_cellPut {m : Cells β} {k : Nat} {v : β} {p : Nat × β} (h : p ∈ cellPut m k v) : p = (k, v) ∨ p ∈ m := by
  induction m with
  | nil => simpa [cellPut] using h
  | cons q m ih =>
    obtain ⟨a, x⟩ := q
    simp only [cellPut] at h
    split at h
    · rcases List.mem_cons.1 h with h | h
      · exact .inr (by simp [h])
      · exact (ih h).imp id (List.mem_cons_of_mem _)
    · split at h
      · rcases List.mem_cons.1 h with h | h
        · exact .inl h
        · exact .inr (List.mem_cons_of_mem _ h)
      · rcases List.mem_cons.1 h with h | h
        · exact .inl h
        · exact .inr h

theorem keysRise_put {m : Cells β} (k : Nat) (v : β) (h : keysRise m = true) : keysRise (cellPut m k v) = true := by
  induction m with
  | nil => rfl
  | cons q m ih =>
    obtain ⟨a, x⟩ := q
    obtain ⟨h1, h2⟩ := keysRise_cons.1 h
    simp only [cellPut]
    split
    · next e =>
      refine keysRise_cons.2 ⟨fun p hp => ?_, ih h2⟩
      rcases mem_cellPut hp with rfl | hp
      · exact e
      · exact h1 p hp
    · split
      · next _ e => subst e; exact keysRise_cons.2 ⟨h1, h2⟩
      · next e f =>
        refine keysRise_cons.2 ⟨fun p hp => ?_, h⟩
        rcases List.mem_cons.1 hp with rfl | hp
        · simp only; omega
        · have := h1 p hp; omega

theorem keysRise_filter {m : Cells β} (f : Nat × β → Bool) (h : keysRise m = true) : keysRise (m.filter f) = true := by
  induction m with
  | nil => rfl
  | cons q m ih =>
    obtain ⟨a, x⟩ := q
    obtain ⟨h1, h2⟩ := keysRise_cons.1 h
    rw [List.filter_cons]
    split
    · exact keysRise_cons.2 ⟨fun p hp => h1 p (List.mem_filter.1 hp).1, ih h2⟩
    · exact ih h2

/-- A memory keeps its canonical form when bytes are dropped from it. -/
theorem Memory.wf_filter {m : Memory} (f : Host.Cell → Bool) (h : m.wf = true) : Memory.wf (m.filter f) = true := by
  simp only [Memory.wf, Bool.and_eq_true, List.all_eq_true] at h ⊢
  exact ⟨keysRise_filter f h.1, fun c hc => h.2 c (List.mem_filter.1 hc).1⟩
@[simp] theorem Memory.wf_nil : Memory.wf [] = true := rfl

/-- A byte written keeps the canonical form: the byte an unlisted address reads as is not listed. -/
theorem writeByte_wf {m : Memory} (a : Nat) (b : Byte) (h : m.wf = true) : (writeByte m a b).wf = true := by
  unfold writeByte cellSet
  split
  · exact Memory.wf_filter _ h
  · next hb =>
    simp only [Memory.wf, Bool.and_eq_true, List.all_eq_true] at h ⊢
    refine ⟨keysRise_put a b h.1, fun c hc => ?_⟩
    rcases mem_cellPut hc with rfl | hc
    · simpa [unlistedByte] using hb
    · exact h.2 c hc
theorem writeBytes_wf {m : Memory} (a : Nat) (bs : List Byte) (h : m.wf = true) : (writeBytes m a bs).wf = true := by
  induction bs generalizing m a with
  | nil => exact h
  | cons b bs ih => exact ih (a + 1) (writeByte_wf a b h)

-- Reading memory after a write.
@[simp] theorem readByte_writeByte (m : Memory) (a j : Nat) (b : Byte) :
    readByte (writeByte m a b) j = if j = a then b else readByte m j := cellGet_set _ m a j b
/-- A run of bytes written reads back; every other byte is as before. -/
theorem readByte_writeBytes (m : Memory) (a j : Nat) (bs : List Byte) :
    readByte (writeBytes m a bs) j = if a ≤ j ∧ j < a + bs.length then (bs[j - a]?).getD 0 else readByte m j := by
  induction bs generalizing m a with
  | nil => simp [writeBytes, show ¬(a ≤ j ∧ j < a) from fun h => by omega]
  | cons b bs ih =>
    rw [writeBytes, ih, List.length_cons]
    by_cases h1 : a + 1 ≤ j ∧ j < a + 1 + bs.length
    · obtain ⟨k, rfl⟩ : ∃ k, j = a + 1 + k := ⟨j - (a + 1), by omega⟩
      rw [if_pos h1, if_pos (by omega), show a + 1 + k - (a + 1) = k by omega, show a + 1 + k - a = k + 1 by omega]
      rfl
    · rw [if_neg h1, readByte_writeByte]
      by_cases h2 : j = a
      · subst h2; simp
      · rw [if_neg h2, if_neg (by omega)]
theorem readBytes_length (m : Memory) (a n : Nat) : (readBytes m a n).length = n := by
  induction n generalizing a with
  | zero => rfl
  | succ n ih => simp [readBytes, ih]

-- Parts of the state.
theorem State.team_setTeam (s : State) (t j : Nat) (x : Team) : (s.setTeam t x).team j = if j = t then x else s.team j := cellGet_put _ _ t j x
@[simp] theorem State.team_setTeam_same (s : State) (t : Nat) (x : Team) : (s.setTeam t x).team t = x := by simp [State.team_setTeam]
theorem State.team_modTeam (s : State) (t j : Nat) (f : Team → Team) : (s.modTeam t f).team j = if j = t then f (s.team t) else s.team j :=
  State.team_setTeam s t j _
@[simp] theorem State.team_modTeam_same (s : State) (t : Nat) (f : Team → Team) : (s.modTeam t f).team t = f (s.team t) := by
  simp [State.team_modTeam]
theorem Team.group_modGroup (t : Team) (g j : Nat) (f : Group → Group) :
    (t.modGroup g f).group j = if j = g then f (t.group g) else t.group j := cellGet_put _ _ g j _
@[simp] theorem Team.group_modGroup_same (t : Team) (g : Nat) (f : Group → Group) : (t.modGroup g f).group g = f (t.group g) := by
  simp [Team.group_modGroup]
theorem Team.agent_modAgent (t : Team) (a j : Nat) (f : Agent → Agent) :
    (t.modAgent a f).agent j = if j = a ∧ cellHas t.agents a = true then f (t.agent a) else t.agent j := by
  unfold Team.modAgent Team.agent
  by_cases h : cellHas t.agents a = true
  · simp only [h, if_true, and_true]; exact cellGet_put _ _ a j _
  · simp [h]
theorem Team.agent_modAgent_same (t : Team) (a : Nat) (f : Agent → Agent) (h : cellHas t.agents a = true) : (t.modAgent a f).agent a = f (t.agent a) := by
  simp [Team.agent_modAgent, h]
theorem State.launch_modLaunch (s : State) (l j : Nat) (f : Launch → Launch) :
    (s.modLaunch l f).launch j = if j = l then f (s.launch l) else s.launch j := cellGet_put _ _ l j _
theorem State.cluster_modCluster (s : State) (c j : Nat) (f : Cluster → Cluster) :
    (s.modCluster c f).cluster j = if j = c then f (s.cluster c) else s.cluster j := cellGet_put _ _ c j _
theorem State.core_modCore (s : State) (c j : Nat) (f : Core → Core) :
    (s.modCore c f).core j = if j = c then f (s.core c) else s.core j := cellGet_set _ _ c j _
theorem State.tower_modTower (s : State) (c j : Nat) (f : Tower → Tower) :
    (s.modTower c f).tower j = if j = c then f (s.tower c) else s.tower j := cellGet_set _ _ c j _
theorem State.column_modColumn (s : State) (c j : Nat) (f : Column → Column) :
    (s.modColumn c f).column j = if j = c then f (s.column c) else s.column j := cellGet_set _ _ c j _
theorem State.vi_modVi (s : State) (v j : Nat) (f : Vi → Vi) : (s.modVi v f).vi j = if j = v then f (s.vi v) else s.vi j :=
  cellGet_put _ _ v j _
theorem State.partition_modPartition (s : State) (p j : Nat) (f : Partition → Partition) :
    (s.modPartition p f).partition j = if j = p then f (s.partition p) else s.partition j := cellGet_put _ _ p j _

end Sys2Proof.Machine
end

