-- ==== Sys2Proof/Laws/State.lean ====
section
/-! SUPPORT. One lemma per field of the state, and of a team, for each of its updates: a field that an update does not touch reads as
before. Each is true by rfl and a simp lemma, so that no proof unfolds a record update. -/

namespace Sys2Proof.Machine

-- State.setTeam.
@[simp] theorem State.setTeam_schedule (s : State) (t : Nat) (x : Team) : (s.setTeam t x).schedule = s.schedule := rfl
@[simp] theorem State.setTeam_cur (s : State) (t : Nat) (x : Team) : (s.setTeam t x).cur = s.cur := rfl
@[simp] theorem State.setTeam_rotation (s : State) (t : Nat) (x : Team) : (s.setTeam t x).rotation = s.rotation := rfl
@[simp] theorem State.setTeam_freeCount (s : State) (t : Nat) (x : Team) : (s.setTeam t x).freeCount = s.freeCount := rfl
@[simp] theorem State.setTeam_nextTeam (s : State) (t : Nat) (x : Team) : (s.setTeam t x).nextTeam = s.nextTeam := rfl
@[simp] theorem State.setTeam_nextCluster (s : State) (t : Nat) (x : Team) : (s.setTeam t x).nextCluster = s.nextCluster := rfl
@[simp] theorem State.setTeam_nextLaunch (s : State) (t : Nat) (x : Team) : (s.setTeam t x).nextLaunch = s.nextLaunch := rfl
@[simp] theorem State.setTeam_nextObject (s : State) (t : Nat) (x : Team) : (s.setTeam t x).nextObject = s.nextObject := rfl
@[simp] theorem State.setTeam_nextEvent (s : State) (t : Nat) (x : Team) : (s.setTeam t x).nextEvent = s.nextEvent := rfl
@[simp] theorem State.setTeam_nextRequest (s : State) (t : Nat) (x : Team) : (s.setTeam t x).nextRequest = s.nextRequest := rfl
@[simp] theorem State.setTeam_tick (s : State) (t : Nat) (x : Team) : (s.setTeam t x).tick = s.tick := rfl
@[simp] theorem State.setTeam_clusters (s : State) (t : Nat) (x : Team) : (s.setTeam t x).clusters = s.clusters := rfl
@[simp] theorem State.setTeam_launches (s : State) (t : Nat) (x : Team) : (s.setTeam t x).launches = s.launches := rfl
@[simp] theorem State.setTeam_objects (s : State) (t : Nat) (x : Team) : (s.setTeam t x).objects = s.objects := rfl
@[simp] theorem State.setTeam_cores (s : State) (t : Nat) (x : Team) : (s.setTeam t x).cores = s.cores := rfl
@[simp] theorem State.setTeam_towers (s : State) (t : Nat) (x : Team) : (s.setTeam t x).towers = s.towers := rfl
@[simp] theorem State.setTeam_columns (s : State) (t : Nat) (x : Team) : (s.setTeam t x).columns = s.columns := rfl
@[simp] theorem State.setTeam_main (s : State) (t : Nat) (x : Team) : (s.setTeam t x).main = s.main := rfl
@[simp] theorem State.setTeam_mainMeta (s : State) (t : Nat) (x : Team) : (s.setTeam t x).mainMeta = s.mainMeta := rfl
@[simp] theorem State.setTeam_mainHist (s : State) (t : Nat) (x : Team) : (s.setTeam t x).mainHist = s.mainHist := rfl
@[simp] theorem State.setTeam_mainReads (s : State) (t : Nat) (x : Team) : (s.setTeam t x).mainReads = s.mainReads := rfl
@[simp] theorem State.setTeam_lineKeys (s : State) (t : Nat) (x : Team) : (s.setTeam t x).lineKeys = s.lineKeys := rfl
@[simp] theorem State.setTeam_keys (s : State) (t : Nat) (x : Team) : (s.setTeam t x).keys = s.keys := rfl
@[simp] theorem State.setTeam_floors (s : State) (t : Nat) (x : Team) : (s.setTeam t x).floors = s.floors := rfl
@[simp] theorem State.setTeam_tier (s : State) (t : Nat) (x : Team) : (s.setTeam t x).tier = s.tier := rfl
@[simp] theorem State.setTeam_badLines (s : State) (t : Nat) (x : Team) : (s.setTeam t x).badLines = s.badLines := rfl
@[simp] theorem State.setTeam_banks (s : State) (t : Nat) (x : Team) : (s.setTeam t x).banks = s.banks := rfl
@[simp] theorem State.setTeam_vis (s : State) (t : Nat) (x : Team) : (s.setTeam t x).vis = s.vis := rfl
@[simp] theorem State.setTeam_controls (s : State) (t : Nat) (x : Team) : (s.setTeam t x).controls = s.controls := rfl
@[simp] theorem State.setTeam_partitions (s : State) (t : Nat) (x : Team) : (s.setTeam t x).partitions = s.partitions := rfl
@[simp] theorem State.setTeam_boot (s : State) (t : Nat) (x : Team) : (s.setTeam t x).boot = s.boot := rfl
@[simp] theorem State.setTeam_flash (s : State) (t : Nat) (x : Team) : (s.setTeam t x).flash = s.flash := rfl
@[simp] theorem State.setTeam_seed (s : State) (t : Nat) (x : Team) : (s.setTeam t x).seed = s.seed := rfl
@[simp] theorem State.setTeam_identity (s : State) (t : Nat) (x : Team) : (s.setTeam t x).identity = s.identity := rfl
@[simp] theorem State.setTeam_rollback (s : State) (t : Nat) (x : Team) : (s.setTeam t x).rollback = s.rollback := rfl
@[simp] theorem State.setTeam_attested (s : State) (t : Nat) (x : Team) : (s.setTeam t x).attested = s.attested := rfl
@[simp] theorem State.setTeam_errorLog (s : State) (t : Nat) (x : Team) : (s.setTeam t x).errorLog = s.errorLog := rfl
@[simp] theorem State.setTeam_escalations (s : State) (t : Nat) (x : Team) : (s.setTeam t x).escalations = s.escalations := rfl
@[simp] theorem State.setTeam_module (s : State) (t : Nat) (x : Team) : (s.setTeam t x).module = s.module := rfl
@[simp] theorem State.setTeam_peers (s : State) (t : Nat) (x : Team) : (s.setTeam t x).peers = s.peers := rfl
@[simp] theorem State.setTeam_requests (s : State) (t : Nat) (x : Team) : (s.setTeam t x).requests = s.requests := rfl
@[simp] theorem State.setTeam_routes (s : State) (t : Nat) (x : Team) : (s.setTeam t x).routes = s.routes := rfl
@[simp] theorem State.setTeam_nextRoutes (s : State) (t : Nat) (x : Team) : (s.setTeam t x).nextRoutes = s.nextRoutes := rfl
@[simp] theorem State.setTeam_epoch (s : State) (t : Nat) (x : Team) : (s.setTeam t x).epoch = s.epoch := rfl
@[simp] theorem State.setTeam_switched (s : State) (t : Nat) (x : Team) : (s.setTeam t x).switched = s.switched := rfl
@[simp] theorem State.setTeam_ports (s : State) (t : Nat) (x : Team) : (s.setTeam t x).ports = s.ports := rfl
@[simp] theorem State.setTeam_remoteOld (s : State) (t : Nat) (x : Team) : (s.setTeam t x).remoteOld = s.remoteOld := rfl
-- State.modTeam.
@[simp] theorem State.modTeam_schedule (s : State) (t : Nat) (f : Team → Team) : (s.modTeam t f).schedule = s.schedule := rfl
@[simp] theorem State.modTeam_cur (s : State) (t : Nat) (f : Team → Team) : (s.modTeam t f).cur = s.cur := rfl
@[simp] theorem State.modTeam_rotation (s : State) (t : Nat) (f : Team → Team) : (s.modTeam t f).rotation = s.rotation := rfl
@[simp] theorem State.modTeam_freeCount (s : State) (t : Nat) (f : Team → Team) : (s.modTeam t f).freeCount = s.freeCount := rfl
@[simp] theorem State.modTeam_nextTeam (s : State) (t : Nat) (f : Team → Team) : (s.modTeam t f).nextTeam = s.nextTeam := rfl
@[simp] theorem State.modTeam_nextCluster (s : State) (t : Nat) (f : Team → Team) : (s.modTeam t f).nextCluster = s.nextCluster := rfl
@[simp] theorem State.modTeam_nextLaunch (s : State) (t : Nat) (f : Team → Team) : (s.modTeam t f).nextLaunch = s.nextLaunch := rfl
@[simp] theorem State.modTeam_nextObject (s : State) (t : Nat) (f : Team → Team) : (s.modTeam t f).nextObject = s.nextObject := rfl
@[simp] theorem State.modTeam_nextEvent (s : State) (t : Nat) (f : Team → Team) : (s.modTeam t f).nextEvent = s.nextEvent := rfl
@[simp] theorem State.modTeam_nextRequest (s : State) (t : Nat) (f : Team → Team) : (s.modTeam t f).nextRequest = s.nextRequest := rfl
@[simp] theorem State.modTeam_tick (s : State) (t : Nat) (f : Team → Team) : (s.modTeam t f).tick = s.tick := rfl
@[simp] theorem State.modTeam_clusters (s : State) (t : Nat) (f : Team → Team) : (s.modTeam t f).clusters = s.clusters := rfl
@[simp] theorem State.modTeam_launches (s : State) (t : Nat) (f : Team → Team) : (s.modTeam t f).launches = s.launches := rfl
@[simp] theorem State.modTeam_objects (s : State) (t : Nat) (f : Team → Team) : (s.modTeam t f).objects = s.objects := rfl
@[simp] theorem State.modTeam_cores (s : State) (t : Nat) (f : Team → Team) : (s.modTeam t f).cores = s.cores := rfl
@[simp] theorem State.modTeam_towers (s : State) (t : Nat) (f : Team → Team) : (s.modTeam t f).towers = s.towers := rfl
@[simp] theorem State.modTeam_columns (s : State) (t : Nat) (f : Team → Team) : (s.modTeam t f).columns = s.columns := rfl
@[simp] theorem State.modTeam_main (s : State) (t : Nat) (f : Team → Team) : (s.modTeam t f).main = s.main := rfl
@[simp] theorem State.modTeam_mainMeta (s : State) (t : Nat) (f : Team → Team) : (s.modTeam t f).mainMeta = s.mainMeta := rfl
@[simp] theorem State.modTeam_mainHist (s : State) (t : Nat) (f : Team → Team) : (s.modTeam t f).mainHist = s.mainHist := rfl
@[simp] theorem State.modTeam_mainReads (s : State) (t : Nat) (f : Team → Team) : (s.modTeam t f).mainReads = s.mainReads := rfl
@[simp] theorem State.modTeam_lineKeys (s : State) (t : Nat) (f : Team → Team) : (s.modTeam t f).lineKeys = s.lineKeys := rfl
@[simp] theorem State.modTeam_keys (s : State) (t : Nat) (f : Team → Team) : (s.modTeam t f).keys = s.keys := rfl
@[simp] theorem State.modTeam_floors (s : State) (t : Nat) (f : Team → Team) : (s.modTeam t f).floors = s.floors := rfl
@[simp] theorem State.modTeam_tier (s : State) (t : Nat) (f : Team → Team) : (s.modTeam t f).tier = s.tier := rfl
@[simp] theorem State.modTeam_badLines (s : State) (t : Nat) (f : Team → Team) : (s.modTeam t f).badLines = s.badLines := rfl
@[simp] theorem State.modTeam_banks (s : State) (t : Nat) (f : Team → Team) : (s.modTeam t f).banks = s.banks := rfl
@[simp] theorem State.modTeam_vis (s : State) (t : Nat) (f : Team → Team) : (s.modTeam t f).vis = s.vis := rfl
@[simp] theorem State.modTeam_controls (s : State) (t : Nat) (f : Team → Team) : (s.modTeam t f).controls = s.controls := rfl
@[simp] theorem State.modTeam_partitions (s : State) (t : Nat) (f : Team → Team) : (s.modTeam t f).partitions = s.partitions := rfl
@[simp] theorem State.modTeam_boot (s : State) (t : Nat) (f : Team → Team) : (s.modTeam t f).boot = s.boot := rfl
@[simp] theorem State.modTeam_flash (s : State) (t : Nat) (f : Team → Team) : (s.modTeam t f).flash = s.flash := rfl
@[simp] theorem State.modTeam_seed (s : State) (t : Nat) (f : Team → Team) : (s.modTeam t f).seed = s.seed := rfl
@[simp] theorem State.modTeam_identity (s : State) (t : Nat) (f : Team → Team) : (s.modTeam t f).identity = s.identity := rfl
@[simp] theorem State.modTeam_rollback (s : State) (t : Nat) (f : Team → Team) : (s.modTeam t f).rollback = s.rollback := rfl
@[simp] theorem State.modTeam_attested (s : State) (t : Nat) (f : Team → Team) : (s.modTeam t f).attested = s.attested := rfl
@[simp] theorem State.modTeam_errorLog (s : State) (t : Nat) (f : Team → Team) : (s.modTeam t f).errorLog = s.errorLog := rfl
@[simp] theorem State.modTeam_escalations (s : State) (t : Nat) (f : Team → Team) : (s.modTeam t f).escalations = s.escalations := rfl
@[simp] theorem State.modTeam_module (s : State) (t : Nat) (f : Team → Team) : (s.modTeam t f).module = s.module := rfl
@[simp] theorem State.modTeam_peers (s : State) (t : Nat) (f : Team → Team) : (s.modTeam t f).peers = s.peers := rfl
@[simp] theorem State.modTeam_requests (s : State) (t : Nat) (f : Team → Team) : (s.modTeam t f).requests = s.requests := rfl
@[simp] theorem State.modTeam_routes (s : State) (t : Nat) (f : Team → Team) : (s.modTeam t f).routes = s.routes := rfl
@[simp] theorem State.modTeam_nextRoutes (s : State) (t : Nat) (f : Team → Team) : (s.modTeam t f).nextRoutes = s.nextRoutes := rfl
@[simp] theorem State.modTeam_epoch (s : State) (t : Nat) (f : Team → Team) : (s.modTeam t f).epoch = s.epoch := rfl
@[simp] theorem State.modTeam_switched (s : State) (t : Nat) (f : Team → Team) : (s.modTeam t f).switched = s.switched := rfl
@[simp] theorem State.modTeam_ports (s : State) (t : Nat) (f : Team → Team) : (s.modTeam t f).ports = s.ports := rfl
@[simp] theorem State.modTeam_remoteOld (s : State) (t : Nat) (f : Team → Team) : (s.modTeam t f).remoteOld = s.remoteOld := rfl
-- State.setCluster.
@[simp] theorem State.setCluster_schedule (s : State) (c : Nat) (x : Cluster) : (s.setCluster c x).schedule = s.schedule := rfl
@[simp] theorem State.setCluster_cur (s : State) (c : Nat) (x : Cluster) : (s.setCluster c x).cur = s.cur := rfl
@[simp] theorem State.setCluster_rotation (s : State) (c : Nat) (x : Cluster) : (s.setCluster c x).rotation = s.rotation := rfl
@[simp] theorem State.setCluster_freeCount (s : State) (c : Nat) (x : Cluster) : (s.setCluster c x).freeCount = s.freeCount := rfl
@[simp] theorem State.setCluster_nextTeam (s : State) (c : Nat) (x : Cluster) : (s.setCluster c x).nextTeam = s.nextTeam := rfl
@[simp] theorem State.setCluster_nextCluster (s : State) (c : Nat) (x : Cluster) : (s.setCluster c x).nextCluster = s.nextCluster := rfl
@[simp] theorem State.setCluster_nextLaunch (s : State) (c : Nat) (x : Cluster) : (s.setCluster c x).nextLaunch = s.nextLaunch := rfl
@[simp] theorem State.setCluster_nextObject (s : State) (c : Nat) (x : Cluster) : (s.setCluster c x).nextObject = s.nextObject := rfl
@[simp] theorem State.setCluster_nextEvent (s : State) (c : Nat) (x : Cluster) : (s.setCluster c x).nextEvent = s.nextEvent := rfl
@[simp] theorem State.setCluster_nextRequest (s : State) (c : Nat) (x : Cluster) : (s.setCluster c x).nextRequest = s.nextRequest := rfl
@[simp] theorem State.setCluster_tick (s : State) (c : Nat) (x : Cluster) : (s.setCluster c x).tick = s.tick := rfl
@[simp] theorem State.setCluster_teams (s : State) (c : Nat) (x : Cluster) : (s.setCluster c x).teams = s.teams := rfl
@[simp] theorem State.setCluster_launches (s : State) (c : Nat) (x : Cluster) : (s.setCluster c x).launches = s.launches := rfl
@[simp] theorem State.setCluster_objects (s : State) (c : Nat) (x : Cluster) : (s.setCluster c x).objects = s.objects := rfl
@[simp] theorem State.setCluster_cores (s : State) (c : Nat) (x : Cluster) : (s.setCluster c x).cores = s.cores := rfl
@[simp] theorem State.setCluster_towers (s : State) (c : Nat) (x : Cluster) : (s.setCluster c x).towers = s.towers := rfl
@[simp] theorem State.setCluster_columns (s : State) (c : Nat) (x : Cluster) : (s.setCluster c x).columns = s.columns := rfl
@[simp] theorem State.setCluster_main (s : State) (c : Nat) (x : Cluster) : (s.setCluster c x).main = s.main := rfl
@[simp] theorem State.setCluster_mainMeta (s : State) (c : Nat) (x : Cluster) : (s.setCluster c x).mainMeta = s.mainMeta := rfl
@[simp] theorem State.setCluster_mainHist (s : State) (c : Nat) (x : Cluster) : (s.setCluster c x).mainHist = s.mainHist := rfl
@[simp] theorem State.setCluster_mainReads (s : State) (c : Nat) (x : Cluster) : (s.setCluster c x).mainReads = s.mainReads := rfl
@[simp] theorem State.setCluster_lineKeys (s : State) (c : Nat) (x : Cluster) : (s.setCluster c x).lineKeys = s.lineKeys := rfl
@[simp] theorem State.setCluster_keys (s : State) (c : Nat) (x : Cluster) : (s.setCluster c x).keys = s.keys := rfl
@[simp] theorem State.setCluster_floors (s : State) (c : Nat) (x : Cluster) : (s.setCluster c x).floors = s.floors := rfl
@[simp] theorem State.setCluster_tier (s : State) (c : Nat) (x : Cluster) : (s.setCluster c x).tier = s.tier := rfl
@[simp] theorem State.setCluster_badLines (s : State) (c : Nat) (x : Cluster) : (s.setCluster c x).badLines = s.badLines := rfl
@[simp] theorem State.setCluster_banks (s : State) (c : Nat) (x : Cluster) : (s.setCluster c x).banks = s.banks := rfl
@[simp] theorem State.setCluster_vis (s : State) (c : Nat) (x : Cluster) : (s.setCluster c x).vis = s.vis := rfl
@[simp] theorem State.setCluster_controls (s : State) (c : Nat) (x : Cluster) : (s.setCluster c x).controls = s.controls := rfl
@[simp] theorem State.setCluster_partitions (s : State) (c : Nat) (x : Cluster) : (s.setCluster c x).partitions = s.partitions := rfl
@[simp] theorem State.setCluster_boot (s : State) (c : Nat) (x : Cluster) : (s.setCluster c x).boot = s.boot := rfl
@[simp] theorem State.setCluster_flash (s : State) (c : Nat) (x : Cluster) : (s.setCluster c x).flash = s.flash := rfl
@[simp] theorem State.setCluster_seed (s : State) (c : Nat) (x : Cluster) : (s.setCluster c x).seed = s.seed := rfl
@[simp] theorem State.setCluster_identity (s : State) (c : Nat) (x : Cluster) : (s.setCluster c x).identity = s.identity := rfl
@[simp] theorem State.setCluster_rollback (s : State) (c : Nat) (x : Cluster) : (s.setCluster c x).rollback = s.rollback := rfl
@[simp] theorem State.setCluster_attested (s : State) (c : Nat) (x : Cluster) : (s.setCluster c x).attested = s.attested := rfl
@[simp] theorem State.setCluster_errorLog (s : State) (c : Nat) (x : Cluster) : (s.setCluster c x).errorLog = s.errorLog := rfl
@[simp] theorem State.setCluster_escalations (s : State) (c : Nat) (x : Cluster) : (s.setCluster c x).escalations = s.escalations := rfl
@[simp] theorem State.setCluster_module (s : State) (c : Nat) (x : Cluster) : (s.setCluster c x).module = s.module := rfl
@[simp] theorem State.setCluster_peers (s : State) (c : Nat) (x : Cluster) : (s.setCluster c x).peers = s.peers := rfl
@[simp] theorem State.setCluster_requests (s : State) (c : Nat) (x : Cluster) : (s.setCluster c x).requests = s.requests := rfl
@[simp] theorem State.setCluster_routes (s : State) (c : Nat) (x : Cluster) : (s.setCluster c x).routes = s.routes := rfl
@[simp] theorem State.setCluster_nextRoutes (s : State) (c : Nat) (x : Cluster) : (s.setCluster c x).nextRoutes = s.nextRoutes := rfl
@[simp] theorem State.setCluster_epoch (s : State) (c : Nat) (x : Cluster) : (s.setCluster c x).epoch = s.epoch := rfl
@[simp] theorem State.setCluster_switched (s : State) (c : Nat) (x : Cluster) : (s.setCluster c x).switched = s.switched := rfl
@[simp] theorem State.setCluster_ports (s : State) (c : Nat) (x : Cluster) : (s.setCluster c x).ports = s.ports := rfl
@[simp] theorem State.setCluster_remoteOld (s : State) (c : Nat) (x : Cluster) : (s.setCluster c x).remoteOld = s.remoteOld := rfl
-- State.modCluster.
@[simp] theorem State.modCluster_schedule (s : State) (c : Nat) (f : Cluster → Cluster) : (s.modCluster c f).schedule = s.schedule := rfl
@[simp] theorem State.modCluster_cur (s : State) (c : Nat) (f : Cluster → Cluster) : (s.modCluster c f).cur = s.cur := rfl
@[simp] theorem State.modCluster_rotation (s : State) (c : Nat) (f : Cluster → Cluster) : (s.modCluster c f).rotation = s.rotation := rfl
@[simp] theorem State.modCluster_freeCount (s : State) (c : Nat) (f : Cluster → Cluster) : (s.modCluster c f).freeCount = s.freeCount := rfl
@[simp] theorem State.modCluster_nextTeam (s : State) (c : Nat) (f : Cluster → Cluster) : (s.modCluster c f).nextTeam = s.nextTeam := rfl
@[simp] theorem State.modCluster_nextCluster (s : State) (c : Nat) (f : Cluster → Cluster) : (s.modCluster c f).nextCluster = s.nextCluster := rfl
@[simp] theorem State.modCluster_nextLaunch (s : State) (c : Nat) (f : Cluster → Cluster) : (s.modCluster c f).nextLaunch = s.nextLaunch := rfl
@[simp] theorem State.modCluster_nextObject (s : State) (c : Nat) (f : Cluster → Cluster) : (s.modCluster c f).nextObject = s.nextObject := rfl
@[simp] theorem State.modCluster_nextEvent (s : State) (c : Nat) (f : Cluster → Cluster) : (s.modCluster c f).nextEvent = s.nextEvent := rfl
@[simp] theorem State.modCluster_nextRequest (s : State) (c : Nat) (f : Cluster → Cluster) : (s.modCluster c f).nextRequest = s.nextRequest := rfl
@[simp] theorem State.modCluster_tick (s : State) (c : Nat) (f : Cluster → Cluster) : (s.modCluster c f).tick = s.tick := rfl
@[simp] theorem State.modCluster_teams (s : State) (c : Nat) (f : Cluster → Cluster) : (s.modCluster c f).teams = s.teams := rfl
@[simp] theorem State.modCluster_launches (s : State) (c : Nat) (f : Cluster → Cluster) : (s.modCluster c f).launches = s.launches := rfl
@[simp] theorem State.modCluster_objects (s : State) (c : Nat) (f : Cluster → Cluster) : (s.modCluster c f).objects = s.objects := rfl
@[simp] theorem State.modCluster_cores (s : State) (c : Nat) (f : Cluster → Cluster) : (s.modCluster c f).cores = s.cores := rfl
@[simp] theorem State.modCluster_towers (s : State) (c : Nat) (f : Cluster → Cluster) : (s.modCluster c f).towers = s.towers := rfl
@[simp] theorem State.modCluster_columns (s : State) (c : Nat) (f : Cluster → Cluster) : (s.modCluster c f).columns = s.columns := rfl
@[simp] theorem State.modCluster_main (s : State) (c : Nat) (f : Cluster → Cluster) : (s.modCluster c f).main = s.main := rfl
@[simp] theorem State.modCluster_mainMeta (s : State) (c : Nat) (f : Cluster → Cluster) : (s.modCluster c f).mainMeta = s.mainMeta := rfl
@[simp] theorem State.modCluster_mainHist (s : State) (c : Nat) (f : Cluster → Cluster) : (s.modCluster c f).mainHist = s.mainHist := rfl
@[simp] theorem State.modCluster_mainReads (s : State) (c : Nat) (f : Cluster → Cluster) : (s.modCluster c f).mainReads = s.mainReads := rfl
@[simp] theorem State.modCluster_lineKeys (s : State) (c : Nat) (f : Cluster → Cluster) : (s.modCluster c f).lineKeys = s.lineKeys := rfl
@[simp] theorem State.modCluster_keys (s : State) (c : Nat) (f : Cluster → Cluster) : (s.modCluster c f).keys = s.keys := rfl
@[simp] theorem State.modCluster_floors (s : State) (c : Nat) (f : Cluster → Cluster) : (s.modCluster c f).floors = s.floors := rfl
@[simp] theorem State.modCluster_tier (s : State) (c : Nat) (f : Cluster → Cluster) : (s.modCluster c f).tier = s.tier := rfl
@[simp] theorem State.modCluster_badLines (s : State) (c : Nat) (f : Cluster → Cluster) : (s.modCluster c f).badLines = s.badLines := rfl
@[simp] theorem State.modCluster_banks (s : State) (c : Nat) (f : Cluster → Cluster) : (s.modCluster c f).banks = s.banks := rfl
@[simp] theorem State.modCluster_vis (s : State) (c : Nat) (f : Cluster → Cluster) : (s.modCluster c f).vis = s.vis := rfl
@[simp] theorem State.modCluster_controls (s : State) (c : Nat) (f : Cluster → Cluster) : (s.modCluster c f).controls = s.controls := rfl
@[simp] theorem State.modCluster_partitions (s : State) (c : Nat) (f : Cluster → Cluster) : (s.modCluster c f).partitions = s.partitions := rfl
@[simp] theorem State.modCluster_boot (s : State) (c : Nat) (f : Cluster → Cluster) : (s.modCluster c f).boot = s.boot := rfl
@[simp] theorem State.modCluster_flash (s : State) (c : Nat) (f : Cluster → Cluster) : (s.modCluster c f).flash = s.flash := rfl
@[simp] theorem State.modCluster_seed (s : State) (c : Nat) (f : Cluster → Cluster) : (s.modCluster c f).seed = s.seed := rfl
@[simp] theorem State.modCluster_identity (s : State) (c : Nat) (f : Cluster → Cluster) : (s.modCluster c f).identity = s.identity := rfl
@[simp] theorem State.modCluster_rollback (s : State) (c : Nat) (f : Cluster → Cluster) : (s.modCluster c f).rollback = s.rollback := rfl
@[simp] theorem State.modCluster_attested (s : State) (c : Nat) (f : Cluster → Cluster) : (s.modCluster c f).attested = s.attested := rfl
@[simp] theorem State.modCluster_errorLog (s : State) (c : Nat) (f : Cluster → Cluster) : (s.modCluster c f).errorLog = s.errorLog := rfl
@[simp] theorem State.modCluster_escalations (s : State) (c : Nat) (f : Cluster → Cluster) : (s.modCluster c f).escalations = s.escalations := rfl
@[simp] theorem State.modCluster_module (s : State) (c : Nat) (f : Cluster → Cluster) : (s.modCluster c f).module = s.module := rfl
@[simp] theorem State.modCluster_peers (s : State) (c : Nat) (f : Cluster → Cluster) : (s.modCluster c f).peers = s.peers := rfl
@[simp] theorem State.modCluster_requests (s : State) (c : Nat) (f : Cluster → Cluster) : (s.modCluster c f).requests = s.requests := rfl
@[simp] theorem State.modCluster_routes (s : State) (c : Nat) (f : Cluster → Cluster) : (s.modCluster c f).routes = s.routes := rfl
@[simp] theorem State.modCluster_nextRoutes (s : State) (c : Nat) (f : Cluster → Cluster) : (s.modCluster c f).nextRoutes = s.nextRoutes := rfl
@[simp] theorem State.modCluster_epoch (s : State) (c : Nat) (f : Cluster → Cluster) : (s.modCluster c f).epoch = s.epoch := rfl
@[simp] theorem State.modCluster_switched (s : State) (c : Nat) (f : Cluster → Cluster) : (s.modCluster c f).switched = s.switched := rfl
@[simp] theorem State.modCluster_ports (s : State) (c : Nat) (f : Cluster → Cluster) : (s.modCluster c f).ports = s.ports := rfl
@[simp] theorem State.modCluster_remoteOld (s : State) (c : Nat) (f : Cluster → Cluster) : (s.modCluster c f).remoteOld = s.remoteOld := rfl
-- State.setLaunch.
@[simp] theorem State.setLaunch_schedule (s : State) (l : Nat) (x : Launch) : (s.setLaunch l x).schedule = s.schedule := rfl
@[simp] theorem State.setLaunch_cur (s : State) (l : Nat) (x : Launch) : (s.setLaunch l x).cur = s.cur := rfl
@[simp] theorem State.setLaunch_rotation (s : State) (l : Nat) (x : Launch) : (s.setLaunch l x).rotation = s.rotation := rfl
@[simp] theorem State.setLaunch_freeCount (s : State) (l : Nat) (x : Launch) : (s.setLaunch l x).freeCount = s.freeCount := rfl
@[simp] theorem State.setLaunch_nextTeam (s : State) (l : Nat) (x : Launch) : (s.setLaunch l x).nextTeam = s.nextTeam := rfl
@[simp] theorem State.setLaunch_nextCluster (s : State) (l : Nat) (x : Launch) : (s.setLaunch l x).nextCluster = s.nextCluster := rfl
@[simp] theorem State.setLaunch_nextLaunch (s : State) (l : Nat) (x : Launch) : (s.setLaunch l x).nextLaunch = s.nextLaunch := rfl
@[simp] theorem State.setLaunch_nextObject (s : State) (l : Nat) (x : Launch) : (s.setLaunch l x).nextObject = s.nextObject := rfl
@[simp] theorem State.setLaunch_nextEvent (s : State) (l : Nat) (x : Launch) : (s.setLaunch l x).nextEvent = s.nextEvent := rfl
@[simp] theorem State.setLaunch_nextRequest (s : State) (l : Nat) (x : Launch) : (s.setLaunch l x).nextRequest = s.nextRequest := rfl
@[simp] theorem State.setLaunch_tick (s : State) (l : Nat) (x : Launch) : (s.setLaunch l x).tick = s.tick := rfl
@[simp] theorem State.setLaunch_teams (s : State) (l : Nat) (x : Launch) : (s.setLaunch l x).teams = s.teams := rfl
@[simp] theorem State.setLaunch_clusters (s : State) (l : Nat) (x : Launch) : (s.setLaunch l x).clusters = s.clusters := rfl
@[simp] theorem State.setLaunch_objects (s : State) (l : Nat) (x : Launch) : (s.setLaunch l x).objects = s.objects := rfl
@[simp] theorem State.setLaunch_cores (s : State) (l : Nat) (x : Launch) : (s.setLaunch l x).cores = s.cores := rfl
@[simp] theorem State.setLaunch_towers (s : State) (l : Nat) (x : Launch) : (s.setLaunch l x).towers = s.towers := rfl
@[simp] theorem State.setLaunch_columns (s : State) (l : Nat) (x : Launch) : (s.setLaunch l x).columns = s.columns := rfl
@[simp] theorem State.setLaunch_main (s : State) (l : Nat) (x : Launch) : (s.setLaunch l x).main = s.main := rfl
@[simp] theorem State.setLaunch_mainMeta (s : State) (l : Nat) (x : Launch) : (s.setLaunch l x).mainMeta = s.mainMeta := rfl
@[simp] theorem State.setLaunch_mainHist (s : State) (l : Nat) (x : Launch) : (s.setLaunch l x).mainHist = s.mainHist := rfl
@[simp] theorem State.setLaunch_mainReads (s : State) (l : Nat) (x : Launch) : (s.setLaunch l x).mainReads = s.mainReads := rfl
@[simp] theorem State.setLaunch_lineKeys (s : State) (l : Nat) (x : Launch) : (s.setLaunch l x).lineKeys = s.lineKeys := rfl
@[simp] theorem State.setLaunch_keys (s : State) (l : Nat) (x : Launch) : (s.setLaunch l x).keys = s.keys := rfl
@[simp] theorem State.setLaunch_floors (s : State) (l : Nat) (x : Launch) : (s.setLaunch l x).floors = s.floors := rfl
@[simp] theorem State.setLaunch_tier (s : State) (l : Nat) (x : Launch) : (s.setLaunch l x).tier = s.tier := rfl
@[simp] theorem State.setLaunch_badLines (s : State) (l : Nat) (x : Launch) : (s.setLaunch l x).badLines = s.badLines := rfl
@[simp] theorem State.setLaunch_banks (s : State) (l : Nat) (x : Launch) : (s.setLaunch l x).banks = s.banks := rfl
@[simp] theorem State.setLaunch_vis (s : State) (l : Nat) (x : Launch) : (s.setLaunch l x).vis = s.vis := rfl
@[simp] theorem State.setLaunch_controls (s : State) (l : Nat) (x : Launch) : (s.setLaunch l x).controls = s.controls := rfl
@[simp] theorem State.setLaunch_partitions (s : State) (l : Nat) (x : Launch) : (s.setLaunch l x).partitions = s.partitions := rfl
@[simp] theorem State.setLaunch_boot (s : State) (l : Nat) (x : Launch) : (s.setLaunch l x).boot = s.boot := rfl
@[simp] theorem State.setLaunch_flash (s : State) (l : Nat) (x : Launch) : (s.setLaunch l x).flash = s.flash := rfl
@[simp] theorem State.setLaunch_seed (s : State) (l : Nat) (x : Launch) : (s.setLaunch l x).seed = s.seed := rfl
@[simp] theorem State.setLaunch_identity (s : State) (l : Nat) (x : Launch) : (s.setLaunch l x).identity = s.identity := rfl
@[simp] theorem State.setLaunch_rollback (s : State) (l : Nat) (x : Launch) : (s.setLaunch l x).rollback = s.rollback := rfl
@[simp] theorem State.setLaunch_attested (s : State) (l : Nat) (x : Launch) : (s.setLaunch l x).attested = s.attested := rfl
@[simp] theorem State.setLaunch_errorLog (s : State) (l : Nat) (x : Launch) : (s.setLaunch l x).errorLog = s.errorLog := rfl
@[simp] theorem State.setLaunch_escalations (s : State) (l : Nat) (x : Launch) : (s.setLaunch l x).escalations = s.escalations := rfl
@[simp] theorem State.setLaunch_module (s : State) (l : Nat) (x : Launch) : (s.setLaunch l x).module = s.module := rfl
@[simp] theorem State.setLaunch_peers (s : State) (l : Nat) (x : Launch) : (s.setLaunch l x).peers = s.peers := rfl
@[simp] theorem State.setLaunch_requests (s : State) (l : Nat) (x : Launch) : (s.setLaunch l x).requests = s.requests := rfl
@[simp] theorem State.setLaunch_routes (s : State) (l : Nat) (x : Launch) : (s.setLaunch l x).routes = s.routes := rfl
@[simp] theorem State.setLaunch_nextRoutes (s : State) (l : Nat) (x : Launch) : (s.setLaunch l x).nextRoutes = s.nextRoutes := rfl
@[simp] theorem State.setLaunch_epoch (s : State) (l : Nat) (x : Launch) : (s.setLaunch l x).epoch = s.epoch := rfl
@[simp] theorem State.setLaunch_switched (s : State) (l : Nat) (x : Launch) : (s.setLaunch l x).switched = s.switched := rfl
@[simp] theorem State.setLaunch_ports (s : State) (l : Nat) (x : Launch) : (s.setLaunch l x).ports = s.ports := rfl
@[simp] theorem State.setLaunch_remoteOld (s : State) (l : Nat) (x : Launch) : (s.setLaunch l x).remoteOld = s.remoteOld := rfl
-- State.modLaunch.
@[simp] theorem State.modLaunch_schedule (s : State) (l : Nat) (f : Launch → Launch) : (s.modLaunch l f).schedule = s.schedule := rfl
@[simp] theorem State.modLaunch_cur (s : State) (l : Nat) (f : Launch → Launch) : (s.modLaunch l f).cur = s.cur := rfl
@[simp] theorem State.modLaunch_rotation (s : State) (l : Nat) (f : Launch → Launch) : (s.modLaunch l f).rotation = s.rotation := rfl
@[simp] theorem State.modLaunch_freeCount (s : State) (l : Nat) (f : Launch → Launch) : (s.modLaunch l f).freeCount = s.freeCount := rfl
@[simp] theorem State.modLaunch_nextTeam (s : State) (l : Nat) (f : Launch → Launch) : (s.modLaunch l f).nextTeam = s.nextTeam := rfl
@[simp] theorem State.modLaunch_nextCluster (s : State) (l : Nat) (f : Launch → Launch) : (s.modLaunch l f).nextCluster = s.nextCluster := rfl
@[simp] theorem State.modLaunch_nextLaunch (s : State) (l : Nat) (f : Launch → Launch) : (s.modLaunch l f).nextLaunch = s.nextLaunch := rfl
@[simp] theorem State.modLaunch_nextObject (s : State) (l : Nat) (f : Launch → Launch) : (s.modLaunch l f).nextObject = s.nextObject := rfl
@[simp] theorem State.modLaunch_nextEvent (s : State) (l : Nat) (f : Launch → Launch) : (s.modLaunch l f).nextEvent = s.nextEvent := rfl
@[simp] theorem State.modLaunch_nextRequest (s : State) (l : Nat) (f : Launch → Launch) : (s.modLaunch l f).nextRequest = s.nextRequest := rfl
@[simp] theorem State.modLaunch_tick (s : State) (l : Nat) (f : Launch → Launch) : (s.modLaunch l f).tick = s.tick := rfl
@[simp] theorem State.modLaunch_teams (s : State) (l : Nat) (f : Launch → Launch) : (s.modLaunch l f).teams = s.teams := rfl
@[simp] theorem State.modLaunch_clusters (s : State) (l : Nat) (f : Launch → Launch) : (s.modLaunch l f).clusters = s.clusters := rfl
@[simp] theorem State.modLaunch_objects (s : State) (l : Nat) (f : Launch → Launch) : (s.modLaunch l f).objects = s.objects := rfl
@[simp] theorem State.modLaunch_cores (s : State) (l : Nat) (f : Launch → Launch) : (s.modLaunch l f).cores = s.cores := rfl
@[simp] theorem State.modLaunch_towers (s : State) (l : Nat) (f : Launch → Launch) : (s.modLaunch l f).towers = s.towers := rfl
@[simp] theorem State.modLaunch_columns (s : State) (l : Nat) (f : Launch → Launch) : (s.modLaunch l f).columns = s.columns := rfl
@[simp] theorem State.modLaunch_main (s : State) (l : Nat) (f : Launch → Launch) : (s.modLaunch l f).main = s.main := rfl
@[simp] theorem State.modLaunch_mainMeta (s : State) (l : Nat) (f : Launch → Launch) : (s.modLaunch l f).mainMeta = s.mainMeta := rfl
@[simp] theorem State.modLaunch_mainHist (s : State) (l : Nat) (f : Launch → Launch) : (s.modLaunch l f).mainHist = s.mainHist := rfl
@[simp] theorem State.modLaunch_mainReads (s : State) (l : Nat) (f : Launch → Launch) : (s.modLaunch l f).mainReads = s.mainReads := rfl
@[simp] theorem State.modLaunch_lineKeys (s : State) (l : Nat) (f : Launch → Launch) : (s.modLaunch l f).lineKeys = s.lineKeys := rfl
@[simp] theorem State.modLaunch_keys (s : State) (l : Nat) (f : Launch → Launch) : (s.modLaunch l f).keys = s.keys := rfl
@[simp] theorem State.modLaunch_floors (s : State) (l : Nat) (f : Launch → Launch) : (s.modLaunch l f).floors = s.floors := rfl
@[simp] theorem State.modLaunch_tier (s : State) (l : Nat) (f : Launch → Launch) : (s.modLaunch l f).tier = s.tier := rfl
@[simp] theorem State.modLaunch_badLines (s : State) (l : Nat) (f : Launch → Launch) : (s.modLaunch l f).badLines = s.badLines := rfl
@[simp] theorem State.modLaunch_banks (s : State) (l : Nat) (f : Launch → Launch) : (s.modLaunch l f).banks = s.banks := rfl
@[simp] theorem State.modLaunch_vis (s : State) (l : Nat) (f : Launch → Launch) : (s.modLaunch l f).vis = s.vis := rfl
@[simp] theorem State.modLaunch_controls (s : State) (l : Nat) (f : Launch → Launch) : (s.modLaunch l f).controls = s.controls := rfl
@[simp] theorem State.modLaunch_partitions (s : State) (l : Nat) (f : Launch → Launch) : (s.modLaunch l f).partitions = s.partitions := rfl
@[simp] theorem State.modLaunch_boot (s : State) (l : Nat) (f : Launch → Launch) : (s.modLaunch l f).boot = s.boot := rfl
@[simp] theorem State.modLaunch_flash (s : State) (l : Nat) (f : Launch → Launch) : (s.modLaunch l f).flash = s.flash := rfl
@[simp] theorem State.modLaunch_seed (s : State) (l : Nat) (f : Launch → Launch) : (s.modLaunch l f).seed = s.seed := rfl
@[simp] theorem State.modLaunch_identity (s : State) (l : Nat) (f : Launch → Launch) : (s.modLaunch l f).identity = s.identity := rfl
@[simp] theorem State.modLaunch_rollback (s : State) (l : Nat) (f : Launch → Launch) : (s.modLaunch l f).rollback = s.rollback := rfl
@[simp] theorem State.modLaunch_attested (s : State) (l : Nat) (f : Launch → Launch) : (s.modLaunch l f).attested = s.attested := rfl
@[simp] theorem State.modLaunch_errorLog (s : State) (l : Nat) (f : Launch → Launch) : (s.modLaunch l f).errorLog = s.errorLog := rfl
@[simp] theorem State.modLaunch_escalations (s : State) (l : Nat) (f : Launch → Launch) : (s.modLaunch l f).escalations = s.escalations := rfl
@[simp] theorem State.modLaunch_module (s : State) (l : Nat) (f : Launch → Launch) : (s.modLaunch l f).module = s.module := rfl
@[simp] theorem State.modLaunch_peers (s : State) (l : Nat) (f : Launch → Launch) : (s.modLaunch l f).peers = s.peers := rfl
@[simp] theorem State.modLaunch_requests (s : State) (l : Nat) (f : Launch → Launch) : (s.modLaunch l f).requests = s.requests := rfl
@[simp] theorem State.modLaunch_routes (s : State) (l : Nat) (f : Launch → Launch) : (s.modLaunch l f).routes = s.routes := rfl
@[simp] theorem State.modLaunch_nextRoutes (s : State) (l : Nat) (f : Launch → Launch) : (s.modLaunch l f).nextRoutes = s.nextRoutes := rfl
@[simp] theorem State.modLaunch_epoch (s : State) (l : Nat) (f : Launch → Launch) : (s.modLaunch l f).epoch = s.epoch := rfl
@[simp] theorem State.modLaunch_switched (s : State) (l : Nat) (f : Launch → Launch) : (s.modLaunch l f).switched = s.switched := rfl
@[simp] theorem State.modLaunch_ports (s : State) (l : Nat) (f : Launch → Launch) : (s.modLaunch l f).ports = s.ports := rfl
@[simp] theorem State.modLaunch_remoteOld (s : State) (l : Nat) (f : Launch → Launch) : (s.modLaunch l f).remoteOld = s.remoteOld := rfl
-- State.modCore.
@[simp] theorem State.modCore_schedule (s : State) (c : Nat) (f : Core → Core) : (s.modCore c f).schedule = s.schedule := rfl
@[simp] theorem State.modCore_cur (s : State) (c : Nat) (f : Core → Core) : (s.modCore c f).cur = s.cur := rfl
@[simp] theorem State.modCore_rotation (s : State) (c : Nat) (f : Core → Core) : (s.modCore c f).rotation = s.rotation := rfl
@[simp] theorem State.modCore_freeCount (s : State) (c : Nat) (f : Core → Core) : (s.modCore c f).freeCount = s.freeCount := rfl
@[simp] theorem State.modCore_nextTeam (s : State) (c : Nat) (f : Core → Core) : (s.modCore c f).nextTeam = s.nextTeam := rfl
@[simp] theorem State.modCore_nextCluster (s : State) (c : Nat) (f : Core → Core) : (s.modCore c f).nextCluster = s.nextCluster := rfl
@[simp] theorem State.modCore_nextLaunch (s : State) (c : Nat) (f : Core → Core) : (s.modCore c f).nextLaunch = s.nextLaunch := rfl
@[simp] theorem State.modCore_nextObject (s : State) (c : Nat) (f : Core → Core) : (s.modCore c f).nextObject = s.nextObject := rfl
@[simp] theorem State.modCore_nextEvent (s : State) (c : Nat) (f : Core → Core) : (s.modCore c f).nextEvent = s.nextEvent := rfl
@[simp] theorem State.modCore_nextRequest (s : State) (c : Nat) (f : Core → Core) : (s.modCore c f).nextRequest = s.nextRequest := rfl
@[simp] theorem State.modCore_tick (s : State) (c : Nat) (f : Core → Core) : (s.modCore c f).tick = s.tick := rfl
@[simp] theorem State.modCore_teams (s : State) (c : Nat) (f : Core → Core) : (s.modCore c f).teams = s.teams := rfl
@[simp] theorem State.modCore_clusters (s : State) (c : Nat) (f : Core → Core) : (s.modCore c f).clusters = s.clusters := rfl
@[simp] theorem State.modCore_launches (s : State) (c : Nat) (f : Core → Core) : (s.modCore c f).launches = s.launches := rfl
@[simp] theorem State.modCore_objects (s : State) (c : Nat) (f : Core → Core) : (s.modCore c f).objects = s.objects := rfl
@[simp] theorem State.modCore_towers (s : State) (c : Nat) (f : Core → Core) : (s.modCore c f).towers = s.towers := rfl
@[simp] theorem State.modCore_columns (s : State) (c : Nat) (f : Core → Core) : (s.modCore c f).columns = s.columns := rfl
@[simp] theorem State.modCore_main (s : State) (c : Nat) (f : Core → Core) : (s.modCore c f).main = s.main := rfl
@[simp] theorem State.modCore_mainMeta (s : State) (c : Nat) (f : Core → Core) : (s.modCore c f).mainMeta = s.mainMeta := rfl
@[simp] theorem State.modCore_mainHist (s : State) (c : Nat) (f : Core → Core) : (s.modCore c f).mainHist = s.mainHist := rfl
@[simp] theorem State.modCore_mainReads (s : State) (c : Nat) (f : Core → Core) : (s.modCore c f).mainReads = s.mainReads := rfl
@[simp] theorem State.modCore_lineKeys (s : State) (c : Nat) (f : Core → Core) : (s.modCore c f).lineKeys = s.lineKeys := rfl
@[simp] theorem State.modCore_keys (s : State) (c : Nat) (f : Core → Core) : (s.modCore c f).keys = s.keys := rfl
@[simp] theorem State.modCore_floors (s : State) (c : Nat) (f : Core → Core) : (s.modCore c f).floors = s.floors := rfl
@[simp] theorem State.modCore_tier (s : State) (c : Nat) (f : Core → Core) : (s.modCore c f).tier = s.tier := rfl
@[simp] theorem State.modCore_badLines (s : State) (c : Nat) (f : Core → Core) : (s.modCore c f).badLines = s.badLines := rfl
@[simp] theorem State.modCore_banks (s : State) (c : Nat) (f : Core → Core) : (s.modCore c f).banks = s.banks := rfl
@[simp] theorem State.modCore_vis (s : State) (c : Nat) (f : Core → Core) : (s.modCore c f).vis = s.vis := rfl
@[simp] theorem State.modCore_controls (s : State) (c : Nat) (f : Core → Core) : (s.modCore c f).controls = s.controls := rfl
@[simp] theorem State.modCore_partitions (s : State) (c : Nat) (f : Core → Core) : (s.modCore c f).partitions = s.partitions := rfl
@[simp] theorem State.modCore_boot (s : State) (c : Nat) (f : Core → Core) : (s.modCore c f).boot = s.boot := rfl
@[simp] theorem State.modCore_flash (s : State) (c : Nat) (f : Core → Core) : (s.modCore c f).flash = s.flash := rfl
@[simp] theorem State.modCore_seed (s : State) (c : Nat) (f : Core → Core) : (s.modCore c f).seed = s.seed := rfl
@[simp] theorem State.modCore_identity (s : State) (c : Nat) (f : Core → Core) : (s.modCore c f).identity = s.identity := rfl
@[simp] theorem State.modCore_rollback (s : State) (c : Nat) (f : Core → Core) : (s.modCore c f).rollback = s.rollback := rfl
@[simp] theorem State.modCore_attested (s : State) (c : Nat) (f : Core → Core) : (s.modCore c f).attested = s.attested := rfl
@[simp] theorem State.modCore_errorLog (s : State) (c : Nat) (f : Core → Core) : (s.modCore c f).errorLog = s.errorLog := rfl
@[simp] theorem State.modCore_escalations (s : State) (c : Nat) (f : Core → Core) : (s.modCore c f).escalations = s.escalations := rfl
@[simp] theorem State.modCore_module (s : State) (c : Nat) (f : Core → Core) : (s.modCore c f).module = s.module := rfl
@[simp] theorem State.modCore_peers (s : State) (c : Nat) (f : Core → Core) : (s.modCore c f).peers = s.peers := rfl
@[simp] theorem State.modCore_requests (s : State) (c : Nat) (f : Core → Core) : (s.modCore c f).requests = s.requests := rfl
@[simp] theorem State.modCore_routes (s : State) (c : Nat) (f : Core → Core) : (s.modCore c f).routes = s.routes := rfl
@[simp] theorem State.modCore_nextRoutes (s : State) (c : Nat) (f : Core → Core) : (s.modCore c f).nextRoutes = s.nextRoutes := rfl
@[simp] theorem State.modCore_epoch (s : State) (c : Nat) (f : Core → Core) : (s.modCore c f).epoch = s.epoch := rfl
@[simp] theorem State.modCore_switched (s : State) (c : Nat) (f : Core → Core) : (s.modCore c f).switched = s.switched := rfl
@[simp] theorem State.modCore_ports (s : State) (c : Nat) (f : Core → Core) : (s.modCore c f).ports = s.ports := rfl
@[simp] theorem State.modCore_remoteOld (s : State) (c : Nat) (f : Core → Core) : (s.modCore c f).remoteOld = s.remoteOld := rfl
-- State.modTower.
@[simp] theorem State.modTower_schedule (s : State) (c : Nat) (f : Tower → Tower) : (s.modTower c f).schedule = s.schedule := rfl
@[simp] theorem State.modTower_cur (s : State) (c : Nat) (f : Tower → Tower) : (s.modTower c f).cur = s.cur := rfl
@[simp] theorem State.modTower_rotation (s : State) (c : Nat) (f : Tower → Tower) : (s.modTower c f).rotation = s.rotation := rfl
@[simp] theorem State.modTower_freeCount (s : State) (c : Nat) (f : Tower → Tower) : (s.modTower c f).freeCount = s.freeCount := rfl
@[simp] theorem State.modTower_nextTeam (s : State) (c : Nat) (f : Tower → Tower) : (s.modTower c f).nextTeam = s.nextTeam := rfl
@[simp] theorem State.modTower_nextCluster (s : State) (c : Nat) (f : Tower → Tower) : (s.modTower c f).nextCluster = s.nextCluster := rfl
@[simp] theorem State.modTower_nextLaunch (s : State) (c : Nat) (f : Tower → Tower) : (s.modTower c f).nextLaunch = s.nextLaunch := rfl
@[simp] theorem State.modTower_nextObject (s : State) (c : Nat) (f : Tower → Tower) : (s.modTower c f).nextObject = s.nextObject := rfl
@[simp] theorem State.modTower_nextEvent (s : State) (c : Nat) (f : Tower → Tower) : (s.modTower c f).nextEvent = s.nextEvent := rfl
@[simp] theorem State.modTower_nextRequest (s : State) (c : Nat) (f : Tower → Tower) : (s.modTower c f).nextRequest = s.nextRequest := rfl
@[simp] theorem State.modTower_tick (s : State) (c : Nat) (f : Tower → Tower) : (s.modTower c f).tick = s.tick := rfl
@[simp] theorem State.modTower_teams (s : State) (c : Nat) (f : Tower → Tower) : (s.modTower c f).teams = s.teams := rfl
@[simp] theorem State.modTower_clusters (s : State) (c : Nat) (f : Tower → Tower) : (s.modTower c f).clusters = s.clusters := rfl
@[simp] theorem State.modTower_launches (s : State) (c : Nat) (f : Tower → Tower) : (s.modTower c f).launches = s.launches := rfl
@[simp] theorem State.modTower_objects (s : State) (c : Nat) (f : Tower → Tower) : (s.modTower c f).objects = s.objects := rfl
@[simp] theorem State.modTower_cores (s : State) (c : Nat) (f : Tower → Tower) : (s.modTower c f).cores = s.cores := rfl
@[simp] theorem State.modTower_columns (s : State) (c : Nat) (f : Tower → Tower) : (s.modTower c f).columns = s.columns := rfl
@[simp] theorem State.modTower_main (s : State) (c : Nat) (f : Tower → Tower) : (s.modTower c f).main = s.main := rfl
@[simp] theorem State.modTower_mainMeta (s : State) (c : Nat) (f : Tower → Tower) : (s.modTower c f).mainMeta = s.mainMeta := rfl
@[simp] theorem State.modTower_mainHist (s : State) (c : Nat) (f : Tower → Tower) : (s.modTower c f).mainHist = s.mainHist := rfl
@[simp] theorem State.modTower_mainReads (s : State) (c : Nat) (f : Tower → Tower) : (s.modTower c f).mainReads = s.mainReads := rfl
@[simp] theorem State.modTower_lineKeys (s : State) (c : Nat) (f : Tower → Tower) : (s.modTower c f).lineKeys = s.lineKeys := rfl
@[simp] theorem State.modTower_keys (s : State) (c : Nat) (f : Tower → Tower) : (s.modTower c f).keys = s.keys := rfl
@[simp] theorem State.modTower_floors (s : State) (c : Nat) (f : Tower → Tower) : (s.modTower c f).floors = s.floors := rfl
@[simp] theorem State.modTower_tier (s : State) (c : Nat) (f : Tower → Tower) : (s.modTower c f).tier = s.tier := rfl
@[simp] theorem State.modTower_badLines (s : State) (c : Nat) (f : Tower → Tower) : (s.modTower c f).badLines = s.badLines := rfl
@[simp] theorem State.modTower_banks (s : State) (c : Nat) (f : Tower → Tower) : (s.modTower c f).banks = s.banks := rfl
@[simp] theorem State.modTower_vis (s : State) (c : Nat) (f : Tower → Tower) : (s.modTower c f).vis = s.vis := rfl
@[simp] theorem State.modTower_controls (s : State) (c : Nat) (f : Tower → Tower) : (s.modTower c f).controls = s.controls := rfl
@[simp] theorem State.modTower_partitions (s : State) (c : Nat) (f : Tower → Tower) : (s.modTower c f).partitions = s.partitions := rfl
@[simp] theorem State.modTower_boot (s : State) (c : Nat) (f : Tower → Tower) : (s.modTower c f).boot = s.boot := rfl
@[simp] theorem State.modTower_flash (s : State) (c : Nat) (f : Tower → Tower) : (s.modTower c f).flash = s.flash := rfl
@[simp] theorem State.modTower_seed (s : State) (c : Nat) (f : Tower → Tower) : (s.modTower c f).seed = s.seed := rfl
@[simp] theorem State.modTower_identity (s : State) (c : Nat) (f : Tower → Tower) : (s.modTower c f).identity = s.identity := rfl
@[simp] theorem State.modTower_rollback (s : State) (c : Nat) (f : Tower → Tower) : (s.modTower c f).rollback = s.rollback := rfl
@[simp] theorem State.modTower_attested (s : State) (c : Nat) (f : Tower → Tower) : (s.modTower c f).attested = s.attested := rfl
@[simp] theorem State.modTower_errorLog (s : State) (c : Nat) (f : Tower → Tower) : (s.modTower c f).errorLog = s.errorLog := rfl
@[simp] theorem State.modTower_escalations (s : State) (c : Nat) (f : Tower → Tower) : (s.modTower c f).escalations = s.escalations := rfl
@[simp] theorem State.modTower_module (s : State) (c : Nat) (f : Tower → Tower) : (s.modTower c f).module = s.module := rfl
@[simp] theorem State.modTower_peers (s : State) (c : Nat) (f : Tower → Tower) : (s.modTower c f).peers = s.peers := rfl
@[simp] theorem State.modTower_requests (s : State) (c : Nat) (f : Tower → Tower) : (s.modTower c f).requests = s.requests := rfl
@[simp] theorem State.modTower_routes (s : State) (c : Nat) (f : Tower → Tower) : (s.modTower c f).routes = s.routes := rfl
@[simp] theorem State.modTower_nextRoutes (s : State) (c : Nat) (f : Tower → Tower) : (s.modTower c f).nextRoutes = s.nextRoutes := rfl
@[simp] theorem State.modTower_epoch (s : State) (c : Nat) (f : Tower → Tower) : (s.modTower c f).epoch = s.epoch := rfl
@[simp] theorem State.modTower_switched (s : State) (c : Nat) (f : Tower → Tower) : (s.modTower c f).switched = s.switched := rfl
@[simp] theorem State.modTower_ports (s : State) (c : Nat) (f : Tower → Tower) : (s.modTower c f).ports = s.ports := rfl
@[simp] theorem State.modTower_remoteOld (s : State) (c : Nat) (f : Tower → Tower) : (s.modTower c f).remoteOld = s.remoteOld := rfl
-- State.modColumn.
@[simp] theorem State.modColumn_schedule (s : State) (c : Nat) (f : Column → Column) : (s.modColumn c f).schedule = s.schedule := rfl
@[simp] theorem State.modColumn_cur (s : State) (c : Nat) (f : Column → Column) : (s.modColumn c f).cur = s.cur := rfl
@[simp] theorem State.modColumn_rotation (s : State) (c : Nat) (f : Column → Column) : (s.modColumn c f).rotation = s.rotation := rfl
@[simp] theorem State.modColumn_freeCount (s : State) (c : Nat) (f : Column → Column) : (s.modColumn c f).freeCount = s.freeCount := rfl
@[simp] theorem State.modColumn_nextTeam (s : State) (c : Nat) (f : Column → Column) : (s.modColumn c f).nextTeam = s.nextTeam := rfl
@[simp] theorem State.modColumn_nextCluster (s : State) (c : Nat) (f : Column → Column) : (s.modColumn c f).nextCluster = s.nextCluster := rfl
@[simp] theorem State.modColumn_nextLaunch (s : State) (c : Nat) (f : Column → Column) : (s.modColumn c f).nextLaunch = s.nextLaunch := rfl
@[simp] theorem State.modColumn_nextObject (s : State) (c : Nat) (f : Column → Column) : (s.modColumn c f).nextObject = s.nextObject := rfl
@[simp] theorem State.modColumn_nextEvent (s : State) (c : Nat) (f : Column → Column) : (s.modColumn c f).nextEvent = s.nextEvent := rfl
@[simp] theorem State.modColumn_nextRequest (s : State) (c : Nat) (f : Column → Column) : (s.modColumn c f).nextRequest = s.nextRequest := rfl
@[simp] theorem State.modColumn_tick (s : State) (c : Nat) (f : Column → Column) : (s.modColumn c f).tick = s.tick := rfl
@[simp] theorem State.modColumn_teams (s : State) (c : Nat) (f : Column → Column) : (s.modColumn c f).teams = s.teams := rfl
@[simp] theorem State.modColumn_clusters (s : State) (c : Nat) (f : Column → Column) : (s.modColumn c f).clusters = s.clusters := rfl
@[simp] theorem State.modColumn_launches (s : State) (c : Nat) (f : Column → Column) : (s.modColumn c f).launches = s.launches := rfl
@[simp] theorem State.modColumn_objects (s : State) (c : Nat) (f : Column → Column) : (s.modColumn c f).objects = s.objects := rfl
@[simp] theorem State.modColumn_cores (s : State) (c : Nat) (f : Column → Column) : (s.modColumn c f).cores = s.cores := rfl
@[simp] theorem State.modColumn_towers (s : State) (c : Nat) (f : Column → Column) : (s.modColumn c f).towers = s.towers := rfl
@[simp] theorem State.modColumn_main (s : State) (c : Nat) (f : Column → Column) : (s.modColumn c f).main = s.main := rfl
@[simp] theorem State.modColumn_mainMeta (s : State) (c : Nat) (f : Column → Column) : (s.modColumn c f).mainMeta = s.mainMeta := rfl
@[simp] theorem State.modColumn_mainHist (s : State) (c : Nat) (f : Column → Column) : (s.modColumn c f).mainHist = s.mainHist := rfl
@[simp] theorem State.modColumn_mainReads (s : State) (c : Nat) (f : Column → Column) : (s.modColumn c f).mainReads = s.mainReads := rfl
@[simp] theorem State.modColumn_lineKeys (s : State) (c : Nat) (f : Column → Column) : (s.modColumn c f).lineKeys = s.lineKeys := rfl
@[simp] theorem State.modColumn_keys (s : State) (c : Nat) (f : Column → Column) : (s.modColumn c f).keys = s.keys := rfl
@[simp] theorem State.modColumn_floors (s : State) (c : Nat) (f : Column → Column) : (s.modColumn c f).floors = s.floors := rfl
@[simp] theorem State.modColumn_tier (s : State) (c : Nat) (f : Column → Column) : (s.modColumn c f).tier = s.tier := rfl
@[simp] theorem State.modColumn_badLines (s : State) (c : Nat) (f : Column → Column) : (s.modColumn c f).badLines = s.badLines := rfl
@[simp] theorem State.modColumn_banks (s : State) (c : Nat) (f : Column → Column) : (s.modColumn c f).banks = s.banks := rfl
@[simp] theorem State.modColumn_vis (s : State) (c : Nat) (f : Column → Column) : (s.modColumn c f).vis = s.vis := rfl
@[simp] theorem State.modColumn_controls (s : State) (c : Nat) (f : Column → Column) : (s.modColumn c f).controls = s.controls := rfl
@[simp] theorem State.modColumn_partitions (s : State) (c : Nat) (f : Column → Column) : (s.modColumn c f).partitions = s.partitions := rfl
@[simp] theorem State.modColumn_boot (s : State) (c : Nat) (f : Column → Column) : (s.modColumn c f).boot = s.boot := rfl
@[simp] theorem State.modColumn_flash (s : State) (c : Nat) (f : Column → Column) : (s.modColumn c f).flash = s.flash := rfl
@[simp] theorem State.modColumn_seed (s : State) (c : Nat) (f : Column → Column) : (s.modColumn c f).seed = s.seed := rfl
@[simp] theorem State.modColumn_identity (s : State) (c : Nat) (f : Column → Column) : (s.modColumn c f).identity = s.identity := rfl
@[simp] theorem State.modColumn_rollback (s : State) (c : Nat) (f : Column → Column) : (s.modColumn c f).rollback = s.rollback := rfl
@[simp] theorem State.modColumn_attested (s : State) (c : Nat) (f : Column → Column) : (s.modColumn c f).attested = s.attested := rfl
@[simp] theorem State.modColumn_errorLog (s : State) (c : Nat) (f : Column → Column) : (s.modColumn c f).errorLog = s.errorLog := rfl
@[simp] theorem State.modColumn_escalations (s : State) (c : Nat) (f : Column → Column) : (s.modColumn c f).escalations = s.escalations := rfl
@[simp] theorem State.modColumn_module (s : State) (c : Nat) (f : Column → Column) : (s.modColumn c f).module = s.module := rfl
@[simp] theorem State.modColumn_peers (s : State) (c : Nat) (f : Column → Column) : (s.modColumn c f).peers = s.peers := rfl
@[simp] theorem State.modColumn_requests (s : State) (c : Nat) (f : Column → Column) : (s.modColumn c f).requests = s.requests := rfl
@[simp] theorem State.modColumn_routes (s : State) (c : Nat) (f : Column → Column) : (s.modColumn c f).routes = s.routes := rfl
@[simp] theorem State.modColumn_nextRoutes (s : State) (c : Nat) (f : Column → Column) : (s.modColumn c f).nextRoutes = s.nextRoutes := rfl
@[simp] theorem State.modColumn_epoch (s : State) (c : Nat) (f : Column → Column) : (s.modColumn c f).epoch = s.epoch := rfl
@[simp] theorem State.modColumn_switched (s : State) (c : Nat) (f : Column → Column) : (s.modColumn c f).switched = s.switched := rfl
@[simp] theorem State.modColumn_ports (s : State) (c : Nat) (f : Column → Column) : (s.modColumn c f).ports = s.ports := rfl
@[simp] theorem State.modColumn_remoteOld (s : State) (c : Nat) (f : Column → Column) : (s.modColumn c f).remoteOld = s.remoteOld := rfl
-- State.modVi.
@[simp] theorem State.modVi_schedule (s : State) (v : Nat) (f : Vi → Vi) : (s.modVi v f).schedule = s.schedule := rfl
@[simp] theorem State.modVi_cur (s : State) (v : Nat) (f : Vi → Vi) : (s.modVi v f).cur = s.cur := rfl
@[simp] theorem State.modVi_rotation (s : State) (v : Nat) (f : Vi → Vi) : (s.modVi v f).rotation = s.rotation := rfl
@[simp] theorem State.modVi_freeCount (s : State) (v : Nat) (f : Vi → Vi) : (s.modVi v f).freeCount = s.freeCount := rfl
@[simp] theorem State.modVi_nextTeam (s : State) (v : Nat) (f : Vi → Vi) : (s.modVi v f).nextTeam = s.nextTeam := rfl
@[simp] theorem State.modVi_nextCluster (s : State) (v : Nat) (f : Vi → Vi) : (s.modVi v f).nextCluster = s.nextCluster := rfl
@[simp] theorem State.modVi_nextLaunch (s : State) (v : Nat) (f : Vi → Vi) : (s.modVi v f).nextLaunch = s.nextLaunch := rfl
@[simp] theorem State.modVi_nextObject (s : State) (v : Nat) (f : Vi → Vi) : (s.modVi v f).nextObject = s.nextObject := rfl
@[simp] theorem State.modVi_nextEvent (s : State) (v : Nat) (f : Vi → Vi) : (s.modVi v f).nextEvent = s.nextEvent := rfl
@[simp] theorem State.modVi_nextRequest (s : State) (v : Nat) (f : Vi → Vi) : (s.modVi v f).nextRequest = s.nextRequest := rfl
@[simp] theorem State.modVi_tick (s : State) (v : Nat) (f : Vi → Vi) : (s.modVi v f).tick = s.tick := rfl
@[simp] theorem State.modVi_teams (s : State) (v : Nat) (f : Vi → Vi) : (s.modVi v f).teams = s.teams := rfl
@[simp] theorem State.modVi_clusters (s : State) (v : Nat) (f : Vi → Vi) : (s.modVi v f).clusters = s.clusters := rfl
@[simp] theorem State.modVi_launches (s : State) (v : Nat) (f : Vi → Vi) : (s.modVi v f).launches = s.launches := rfl
@[simp] theorem State.modVi_objects (s : State) (v : Nat) (f : Vi → Vi) : (s.modVi v f).objects = s.objects := rfl
@[simp] theorem State.modVi_cores (s : State) (v : Nat) (f : Vi → Vi) : (s.modVi v f).cores = s.cores := rfl
@[simp] theorem State.modVi_towers (s : State) (v : Nat) (f : Vi → Vi) : (s.modVi v f).towers = s.towers := rfl
@[simp] theorem State.modVi_columns (s : State) (v : Nat) (f : Vi → Vi) : (s.modVi v f).columns = s.columns := rfl
@[simp] theorem State.modVi_main (s : State) (v : Nat) (f : Vi → Vi) : (s.modVi v f).main = s.main := rfl
@[simp] theorem State.modVi_mainMeta (s : State) (v : Nat) (f : Vi → Vi) : (s.modVi v f).mainMeta = s.mainMeta := rfl
@[simp] theorem State.modVi_mainHist (s : State) (v : Nat) (f : Vi → Vi) : (s.modVi v f).mainHist = s.mainHist := rfl
@[simp] theorem State.modVi_mainReads (s : State) (v : Nat) (f : Vi → Vi) : (s.modVi v f).mainReads = s.mainReads := rfl
@[simp] theorem State.modVi_lineKeys (s : State) (v : Nat) (f : Vi → Vi) : (s.modVi v f).lineKeys = s.lineKeys := rfl
@[simp] theorem State.modVi_keys (s : State) (v : Nat) (f : Vi → Vi) : (s.modVi v f).keys = s.keys := rfl
@[simp] theorem State.modVi_floors (s : State) (v : Nat) (f : Vi → Vi) : (s.modVi v f).floors = s.floors := rfl
@[simp] theorem State.modVi_tier (s : State) (v : Nat) (f : Vi → Vi) : (s.modVi v f).tier = s.tier := rfl
@[simp] theorem State.modVi_badLines (s : State) (v : Nat) (f : Vi → Vi) : (s.modVi v f).badLines = s.badLines := rfl
@[simp] theorem State.modVi_banks (s : State) (v : Nat) (f : Vi → Vi) : (s.modVi v f).banks = s.banks := rfl
@[simp] theorem State.modVi_controls (s : State) (v : Nat) (f : Vi → Vi) : (s.modVi v f).controls = s.controls := rfl
@[simp] theorem State.modVi_partitions (s : State) (v : Nat) (f : Vi → Vi) : (s.modVi v f).partitions = s.partitions := rfl
@[simp] theorem State.modVi_boot (s : State) (v : Nat) (f : Vi → Vi) : (s.modVi v f).boot = s.boot := rfl
@[simp] theorem State.modVi_flash (s : State) (v : Nat) (f : Vi → Vi) : (s.modVi v f).flash = s.flash := rfl
@[simp] theorem State.modVi_seed (s : State) (v : Nat) (f : Vi → Vi) : (s.modVi v f).seed = s.seed := rfl
@[simp] theorem State.modVi_identity (s : State) (v : Nat) (f : Vi → Vi) : (s.modVi v f).identity = s.identity := rfl
@[simp] theorem State.modVi_rollback (s : State) (v : Nat) (f : Vi → Vi) : (s.modVi v f).rollback = s.rollback := rfl
@[simp] theorem State.modVi_attested (s : State) (v : Nat) (f : Vi → Vi) : (s.modVi v f).attested = s.attested := rfl
@[simp] theorem State.modVi_errorLog (s : State) (v : Nat) (f : Vi → Vi) : (s.modVi v f).errorLog = s.errorLog := rfl
@[simp] theorem State.modVi_escalations (s : State) (v : Nat) (f : Vi → Vi) : (s.modVi v f).escalations = s.escalations := rfl
@[simp] theorem State.modVi_module (s : State) (v : Nat) (f : Vi → Vi) : (s.modVi v f).module = s.module := rfl
@[simp] theorem State.modVi_peers (s : State) (v : Nat) (f : Vi → Vi) : (s.modVi v f).peers = s.peers := rfl
@[simp] theorem State.modVi_requests (s : State) (v : Nat) (f : Vi → Vi) : (s.modVi v f).requests = s.requests := rfl
@[simp] theorem State.modVi_routes (s : State) (v : Nat) (f : Vi → Vi) : (s.modVi v f).routes = s.routes := rfl
@[simp] theorem State.modVi_nextRoutes (s : State) (v : Nat) (f : Vi → Vi) : (s.modVi v f).nextRoutes = s.nextRoutes := rfl
@[simp] theorem State.modVi_epoch (s : State) (v : Nat) (f : Vi → Vi) : (s.modVi v f).epoch = s.epoch := rfl
@[simp] theorem State.modVi_switched (s : State) (v : Nat) (f : Vi → Vi) : (s.modVi v f).switched = s.switched := rfl
@[simp] theorem State.modVi_ports (s : State) (v : Nat) (f : Vi → Vi) : (s.modVi v f).ports = s.ports := rfl
@[simp] theorem State.modVi_remoteOld (s : State) (v : Nat) (f : Vi → Vi) : (s.modVi v f).remoteOld = s.remoteOld := rfl
-- State.modPartition.
@[simp] theorem State.modPartition_schedule (s : State) (p : Nat) (f : Partition → Partition) : (s.modPartition p f).schedule = s.schedule := rfl
@[simp] theorem State.modPartition_cur (s : State) (p : Nat) (f : Partition → Partition) : (s.modPartition p f).cur = s.cur := rfl
@[simp] theorem State.modPartition_rotation (s : State) (p : Nat) (f : Partition → Partition) : (s.modPartition p f).rotation = s.rotation := rfl
@[simp] theorem State.modPartition_freeCount (s : State) (p : Nat) (f : Partition → Partition) : (s.modPartition p f).freeCount = s.freeCount := rfl
@[simp] theorem State.modPartition_nextTeam (s : State) (p : Nat) (f : Partition → Partition) : (s.modPartition p f).nextTeam = s.nextTeam := rfl
@[simp] theorem State.modPartition_nextCluster (s : State) (p : Nat) (f : Partition → Partition) : (s.modPartition p f).nextCluster = s.nextCluster := rfl
@[simp] theorem State.modPartition_nextLaunch (s : State) (p : Nat) (f : Partition → Partition) : (s.modPartition p f).nextLaunch = s.nextLaunch := rfl
@[simp] theorem State.modPartition_nextObject (s : State) (p : Nat) (f : Partition → Partition) : (s.modPartition p f).nextObject = s.nextObject := rfl
@[simp] theorem State.modPartition_nextEvent (s : State) (p : Nat) (f : Partition → Partition) : (s.modPartition p f).nextEvent = s.nextEvent := rfl
@[simp] theorem State.modPartition_nextRequest (s : State) (p : Nat) (f : Partition → Partition) : (s.modPartition p f).nextRequest = s.nextRequest := rfl
@[simp] theorem State.modPartition_tick (s : State) (p : Nat) (f : Partition → Partition) : (s.modPartition p f).tick = s.tick := rfl
@[simp] theorem State.modPartition_teams (s : State) (p : Nat) (f : Partition → Partition) : (s.modPartition p f).teams = s.teams := rfl
@[simp] theorem State.modPartition_clusters (s : State) (p : Nat) (f : Partition → Partition) : (s.modPartition p f).clusters = s.clusters := rfl
@[simp] theorem State.modPartition_launches (s : State) (p : Nat) (f : Partition → Partition) : (s.modPartition p f).launches = s.launches := rfl
@[simp] theorem State.modPartition_objects (s : State) (p : Nat) (f : Partition → Partition) : (s.modPartition p f).objects = s.objects := rfl
@[simp] theorem State.modPartition_cores (s : State) (p : Nat) (f : Partition → Partition) : (s.modPartition p f).cores = s.cores := rfl
@[simp] theorem State.modPartition_towers (s : State) (p : Nat) (f : Partition → Partition) : (s.modPartition p f).towers = s.towers := rfl
@[simp] theorem State.modPartition_columns (s : State) (p : Nat) (f : Partition → Partition) : (s.modPartition p f).columns = s.columns := rfl
@[simp] theorem State.modPartition_main (s : State) (p : Nat) (f : Partition → Partition) : (s.modPartition p f).main = s.main := rfl
@[simp] theorem State.modPartition_mainMeta (s : State) (p : Nat) (f : Partition → Partition) : (s.modPartition p f).mainMeta = s.mainMeta := rfl
@[simp] theorem State.modPartition_mainHist (s : State) (p : Nat) (f : Partition → Partition) : (s.modPartition p f).mainHist = s.mainHist := rfl
@[simp] theorem State.modPartition_mainReads (s : State) (p : Nat) (f : Partition → Partition) : (s.modPartition p f).mainReads = s.mainReads := rfl
@[simp] theorem State.modPartition_lineKeys (s : State) (p : Nat) (f : Partition → Partition) : (s.modPartition p f).lineKeys = s.lineKeys := rfl
@[simp] theorem State.modPartition_keys (s : State) (p : Nat) (f : Partition → Partition) : (s.modPartition p f).keys = s.keys := rfl
@[simp] theorem State.modPartition_floors (s : State) (p : Nat) (f : Partition → Partition) : (s.modPartition p f).floors = s.floors := rfl
@[simp] theorem State.modPartition_tier (s : State) (p : Nat) (f : Partition → Partition) : (s.modPartition p f).tier = s.tier := rfl
@[simp] theorem State.modPartition_badLines (s : State) (p : Nat) (f : Partition → Partition) : (s.modPartition p f).badLines = s.badLines := rfl
@[simp] theorem State.modPartition_banks (s : State) (p : Nat) (f : Partition → Partition) : (s.modPartition p f).banks = s.banks := rfl
@[simp] theorem State.modPartition_vis (s : State) (p : Nat) (f : Partition → Partition) : (s.modPartition p f).vis = s.vis := rfl
@[simp] theorem State.modPartition_controls (s : State) (p : Nat) (f : Partition → Partition) : (s.modPartition p f).controls = s.controls := rfl
@[simp] theorem State.modPartition_boot (s : State) (p : Nat) (f : Partition → Partition) : (s.modPartition p f).boot = s.boot := rfl
@[simp] theorem State.modPartition_flash (s : State) (p : Nat) (f : Partition → Partition) : (s.modPartition p f).flash = s.flash := rfl
@[simp] theorem State.modPartition_seed (s : State) (p : Nat) (f : Partition → Partition) : (s.modPartition p f).seed = s.seed := rfl
@[simp] theorem State.modPartition_identity (s : State) (p : Nat) (f : Partition → Partition) : (s.modPartition p f).identity = s.identity := rfl
@[simp] theorem State.modPartition_rollback (s : State) (p : Nat) (f : Partition → Partition) : (s.modPartition p f).rollback = s.rollback := rfl
@[simp] theorem State.modPartition_attested (s : State) (p : Nat) (f : Partition → Partition) : (s.modPartition p f).attested = s.attested := rfl
@[simp] theorem State.modPartition_errorLog (s : State) (p : Nat) (f : Partition → Partition) : (s.modPartition p f).errorLog = s.errorLog := rfl
@[simp] theorem State.modPartition_escalations (s : State) (p : Nat) (f : Partition → Partition) : (s.modPartition p f).escalations = s.escalations := rfl
@[simp] theorem State.modPartition_module (s : State) (p : Nat) (f : Partition → Partition) : (s.modPartition p f).module = s.module := rfl
@[simp] theorem State.modPartition_peers (s : State) (p : Nat) (f : Partition → Partition) : (s.modPartition p f).peers = s.peers := rfl
@[simp] theorem State.modPartition_requests (s : State) (p : Nat) (f : Partition → Partition) : (s.modPartition p f).requests = s.requests := rfl
@[simp] theorem State.modPartition_routes (s : State) (p : Nat) (f : Partition → Partition) : (s.modPartition p f).routes = s.routes := rfl
@[simp] theorem State.modPartition_nextRoutes (s : State) (p : Nat) (f : Partition → Partition) : (s.modPartition p f).nextRoutes = s.nextRoutes := rfl
@[simp] theorem State.modPartition_epoch (s : State) (p : Nat) (f : Partition → Partition) : (s.modPartition p f).epoch = s.epoch := rfl
@[simp] theorem State.modPartition_switched (s : State) (p : Nat) (f : Partition → Partition) : (s.modPartition p f).switched = s.switched := rfl
@[simp] theorem State.modPartition_ports (s : State) (p : Nat) (f : Partition → Partition) : (s.modPartition p f).ports = s.ports := rfl
@[simp] theorem State.modPartition_remoteOld (s : State) (p : Nat) (f : Partition → Partition) : (s.modPartition p f).remoteOld = s.remoteOld := rfl
-- State.modRequest.
@[simp] theorem State.modRequest_schedule (s : State) (r : Nat) (f : Request → Request) : (s.modRequest r f).schedule = s.schedule := rfl
@[simp] theorem State.modRequest_cur (s : State) (r : Nat) (f : Request → Request) : (s.modRequest r f).cur = s.cur := rfl
@[simp] theorem State.modRequest_rotation (s : State) (r : Nat) (f : Request → Request) : (s.modRequest r f).rotation = s.rotation := rfl
@[simp] theorem State.modRequest_freeCount (s : State) (r : Nat) (f : Request → Request) : (s.modRequest r f).freeCount = s.freeCount := rfl
@[simp] theorem State.modRequest_nextTeam (s : State) (r : Nat) (f : Request → Request) : (s.modRequest r f).nextTeam = s.nextTeam := rfl
@[simp] theorem State.modRequest_nextCluster (s : State) (r : Nat) (f : Request → Request) : (s.modRequest r f).nextCluster = s.nextCluster := rfl
@[simp] theorem State.modRequest_nextLaunch (s : State) (r : Nat) (f : Request → Request) : (s.modRequest r f).nextLaunch = s.nextLaunch := rfl
@[simp] theorem State.modRequest_nextObject (s : State) (r : Nat) (f : Request → Request) : (s.modRequest r f).nextObject = s.nextObject := rfl
@[simp] theorem State.modRequest_nextEvent (s : State) (r : Nat) (f : Request → Request) : (s.modRequest r f).nextEvent = s.nextEvent := rfl
@[simp] theorem State.modRequest_nextRequest (s : State) (r : Nat) (f : Request → Request) : (s.modRequest r f).nextRequest = s.nextRequest := rfl
@[simp] theorem State.modRequest_tick (s : State) (r : Nat) (f : Request → Request) : (s.modRequest r f).tick = s.tick := rfl
@[simp] theorem State.modRequest_teams (s : State) (r : Nat) (f : Request → Request) : (s.modRequest r f).teams = s.teams := rfl
@[simp] theorem State.modRequest_clusters (s : State) (r : Nat) (f : Request → Request) : (s.modRequest r f).clusters = s.clusters := rfl
@[simp] theorem State.modRequest_launches (s : State) (r : Nat) (f : Request → Request) : (s.modRequest r f).launches = s.launches := rfl
@[simp] theorem State.modRequest_objects (s : State) (r : Nat) (f : Request → Request) : (s.modRequest r f).objects = s.objects := rfl
@[simp] theorem State.modRequest_cores (s : State) (r : Nat) (f : Request → Request) : (s.modRequest r f).cores = s.cores := rfl
@[simp] theorem State.modRequest_towers (s : State) (r : Nat) (f : Request → Request) : (s.modRequest r f).towers = s.towers := rfl
@[simp] theorem State.modRequest_columns (s : State) (r : Nat) (f : Request → Request) : (s.modRequest r f).columns = s.columns := rfl
@[simp] theorem State.modRequest_main (s : State) (r : Nat) (f : Request → Request) : (s.modRequest r f).main = s.main := rfl
@[simp] theorem State.modRequest_mainMeta (s : State) (r : Nat) (f : Request → Request) : (s.modRequest r f).mainMeta = s.mainMeta := rfl
@[simp] theorem State.modRequest_mainHist (s : State) (r : Nat) (f : Request → Request) : (s.modRequest r f).mainHist = s.mainHist := rfl
@[simp] theorem State.modRequest_mainReads (s : State) (r : Nat) (f : Request → Request) : (s.modRequest r f).mainReads = s.mainReads := rfl
@[simp] theorem State.modRequest_lineKeys (s : State) (r : Nat) (f : Request → Request) : (s.modRequest r f).lineKeys = s.lineKeys := rfl
@[simp] theorem State.modRequest_keys (s : State) (r : Nat) (f : Request → Request) : (s.modRequest r f).keys = s.keys := rfl
@[simp] theorem State.modRequest_floors (s : State) (r : Nat) (f : Request → Request) : (s.modRequest r f).floors = s.floors := rfl
@[simp] theorem State.modRequest_tier (s : State) (r : Nat) (f : Request → Request) : (s.modRequest r f).tier = s.tier := rfl
@[simp] theorem State.modRequest_badLines (s : State) (r : Nat) (f : Request → Request) : (s.modRequest r f).badLines = s.badLines := rfl
@[simp] theorem State.modRequest_banks (s : State) (r : Nat) (f : Request → Request) : (s.modRequest r f).banks = s.banks := rfl
@[simp] theorem State.modRequest_vis (s : State) (r : Nat) (f : Request → Request) : (s.modRequest r f).vis = s.vis := rfl
@[simp] theorem State.modRequest_controls (s : State) (r : Nat) (f : Request → Request) : (s.modRequest r f).controls = s.controls := rfl
@[simp] theorem State.modRequest_partitions (s : State) (r : Nat) (f : Request → Request) : (s.modRequest r f).partitions = s.partitions := rfl
@[simp] theorem State.modRequest_boot (s : State) (r : Nat) (f : Request → Request) : (s.modRequest r f).boot = s.boot := rfl
@[simp] theorem State.modRequest_flash (s : State) (r : Nat) (f : Request → Request) : (s.modRequest r f).flash = s.flash := rfl
@[simp] theorem State.modRequest_seed (s : State) (r : Nat) (f : Request → Request) : (s.modRequest r f).seed = s.seed := rfl
@[simp] theorem State.modRequest_identity (s : State) (r : Nat) (f : Request → Request) : (s.modRequest r f).identity = s.identity := rfl
@[simp] theorem State.modRequest_rollback (s : State) (r : Nat) (f : Request → Request) : (s.modRequest r f).rollback = s.rollback := rfl
@[simp] theorem State.modRequest_attested (s : State) (r : Nat) (f : Request → Request) : (s.modRequest r f).attested = s.attested := rfl
@[simp] theorem State.modRequest_errorLog (s : State) (r : Nat) (f : Request → Request) : (s.modRequest r f).errorLog = s.errorLog := rfl
@[simp] theorem State.modRequest_escalations (s : State) (r : Nat) (f : Request → Request) : (s.modRequest r f).escalations = s.escalations := rfl
@[simp] theorem State.modRequest_module (s : State) (r : Nat) (f : Request → Request) : (s.modRequest r f).module = s.module := rfl
@[simp] theorem State.modRequest_peers (s : State) (r : Nat) (f : Request → Request) : (s.modRequest r f).peers = s.peers := rfl
@[simp] theorem State.modRequest_routes (s : State) (r : Nat) (f : Request → Request) : (s.modRequest r f).routes = s.routes := rfl
@[simp] theorem State.modRequest_nextRoutes (s : State) (r : Nat) (f : Request → Request) : (s.modRequest r f).nextRoutes = s.nextRoutes := rfl
@[simp] theorem State.modRequest_epoch (s : State) (r : Nat) (f : Request → Request) : (s.modRequest r f).epoch = s.epoch := rfl
@[simp] theorem State.modRequest_switched (s : State) (r : Nat) (f : Request → Request) : (s.modRequest r f).switched = s.switched := rfl
@[simp] theorem State.modRequest_ports (s : State) (r : Nat) (f : Request → Request) : (s.modRequest r f).ports = s.ports := rfl
@[simp] theorem State.modRequest_remoteOld (s : State) (r : Nat) (f : Request → Request) : (s.modRequest r f).remoteOld = s.remoteOld := rfl
-- State.log.
@[simp] theorem State.log_schedule (s : State) (c a : Nat) : (s.log c a).schedule = s.schedule := rfl
@[simp] theorem State.log_cur (s : State) (c a : Nat) : (s.log c a).cur = s.cur := rfl
@[simp] theorem State.log_rotation (s : State) (c a : Nat) : (s.log c a).rotation = s.rotation := rfl
@[simp] theorem State.log_freeCount (s : State) (c a : Nat) : (s.log c a).freeCount = s.freeCount := rfl
@[simp] theorem State.log_nextTeam (s : State) (c a : Nat) : (s.log c a).nextTeam = s.nextTeam := rfl
@[simp] theorem State.log_nextCluster (s : State) (c a : Nat) : (s.log c a).nextCluster = s.nextCluster := rfl
@[simp] theorem State.log_nextLaunch (s : State) (c a : Nat) : (s.log c a).nextLaunch = s.nextLaunch := rfl
@[simp] theorem State.log_nextObject (s : State) (c a : Nat) : (s.log c a).nextObject = s.nextObject := rfl
@[simp] theorem State.log_nextEvent (s : State) (c a : Nat) : (s.log c a).nextEvent = s.nextEvent := rfl
@[simp] theorem State.log_nextRequest (s : State) (c a : Nat) : (s.log c a).nextRequest = s.nextRequest := rfl
@[simp] theorem State.log_tick (s : State) (c a : Nat) : (s.log c a).tick = s.tick := rfl
@[simp] theorem State.log_teams (s : State) (c a : Nat) : (s.log c a).teams = s.teams := rfl
@[simp] theorem State.log_clusters (s : State) (c a : Nat) : (s.log c a).clusters = s.clusters := rfl
@[simp] theorem State.log_launches (s : State) (c a : Nat) : (s.log c a).launches = s.launches := rfl
@[simp] theorem State.log_objects (s : State) (c a : Nat) : (s.log c a).objects = s.objects := rfl
@[simp] theorem State.log_cores (s : State) (c a : Nat) : (s.log c a).cores = s.cores := rfl
@[simp] theorem State.log_towers (s : State) (c a : Nat) : (s.log c a).towers = s.towers := rfl
@[simp] theorem State.log_columns (s : State) (c a : Nat) : (s.log c a).columns = s.columns := rfl
@[simp] theorem State.log_main (s : State) (c a : Nat) : (s.log c a).main = s.main := rfl
@[simp] theorem State.log_mainMeta (s : State) (c a : Nat) : (s.log c a).mainMeta = s.mainMeta := rfl
@[simp] theorem State.log_mainHist (s : State) (c a : Nat) : (s.log c a).mainHist = s.mainHist := rfl
@[simp] theorem State.log_mainReads (s : State) (c a : Nat) : (s.log c a).mainReads = s.mainReads := rfl
@[simp] theorem State.log_lineKeys (s : State) (c a : Nat) : (s.log c a).lineKeys = s.lineKeys := rfl
@[simp] theorem State.log_keys (s : State) (c a : Nat) : (s.log c a).keys = s.keys := rfl
@[simp] theorem State.log_floors (s : State) (c a : Nat) : (s.log c a).floors = s.floors := rfl
@[simp] theorem State.log_tier (s : State) (c a : Nat) : (s.log c a).tier = s.tier := rfl
@[simp] theorem State.log_badLines (s : State) (c a : Nat) : (s.log c a).badLines = s.badLines := rfl
@[simp] theorem State.log_banks (s : State) (c a : Nat) : (s.log c a).banks = s.banks := rfl
@[simp] theorem State.log_vis (s : State) (c a : Nat) : (s.log c a).vis = s.vis := rfl
@[simp] theorem State.log_controls (s : State) (c a : Nat) : (s.log c a).controls = s.controls := rfl
@[simp] theorem State.log_partitions (s : State) (c a : Nat) : (s.log c a).partitions = s.partitions := rfl
@[simp] theorem State.log_boot (s : State) (c a : Nat) : (s.log c a).boot = s.boot := rfl
@[simp] theorem State.log_flash (s : State) (c a : Nat) : (s.log c a).flash = s.flash := rfl
@[simp] theorem State.log_seed (s : State) (c a : Nat) : (s.log c a).seed = s.seed := rfl
@[simp] theorem State.log_identity (s : State) (c a : Nat) : (s.log c a).identity = s.identity := rfl
@[simp] theorem State.log_rollback (s : State) (c a : Nat) : (s.log c a).rollback = s.rollback := rfl
@[simp] theorem State.log_attested (s : State) (c a : Nat) : (s.log c a).attested = s.attested := rfl
@[simp] theorem State.log_escalations (s : State) (c a : Nat) : (s.log c a).escalations = s.escalations := rfl
@[simp] theorem State.log_module (s : State) (c a : Nat) : (s.log c a).module = s.module := rfl
@[simp] theorem State.log_peers (s : State) (c a : Nat) : (s.log c a).peers = s.peers := rfl
@[simp] theorem State.log_requests (s : State) (c a : Nat) : (s.log c a).requests = s.requests := rfl
@[simp] theorem State.log_routes (s : State) (c a : Nat) : (s.log c a).routes = s.routes := rfl
@[simp] theorem State.log_nextRoutes (s : State) (c a : Nat) : (s.log c a).nextRoutes = s.nextRoutes := rfl
@[simp] theorem State.log_epoch (s : State) (c a : Nat) : (s.log c a).epoch = s.epoch := rfl
@[simp] theorem State.log_switched (s : State) (c a : Nat) : (s.log c a).switched = s.switched := rfl
@[simp] theorem State.log_ports (s : State) (c a : Nat) : (s.log c a).ports = s.ports := rfl
@[simp] theorem State.log_remoteOld (s : State) (c a : Nat) : (s.log c a).remoteOld = s.remoteOld := rfl
-- State.modAgent.
@[simp] theorem State.modAgent_schedule (s : State) (a : AgentRef) (f : Agent → Agent) : (s.modAgent a f).schedule = s.schedule := rfl
@[simp] theorem State.modAgent_cur (s : State) (a : AgentRef) (f : Agent → Agent) : (s.modAgent a f).cur = s.cur := rfl
@[simp] theorem State.modAgent_rotation (s : State) (a : AgentRef) (f : Agent → Agent) : (s.modAgent a f).rotation = s.rotation := rfl
@[simp] theorem State.modAgent_freeCount (s : State) (a : AgentRef) (f : Agent → Agent) : (s.modAgent a f).freeCount = s.freeCount := rfl
@[simp] theorem State.modAgent_nextTeam (s : State) (a : AgentRef) (f : Agent → Agent) : (s.modAgent a f).nextTeam = s.nextTeam := rfl
@[simp] theorem State.modAgent_nextCluster (s : State) (a : AgentRef) (f : Agent → Agent) : (s.modAgent a f).nextCluster = s.nextCluster := rfl
@[simp] theorem State.modAgent_nextLaunch (s : State) (a : AgentRef) (f : Agent → Agent) : (s.modAgent a f).nextLaunch = s.nextLaunch := rfl
@[simp] theorem State.modAgent_nextObject (s : State) (a : AgentRef) (f : Agent → Agent) : (s.modAgent a f).nextObject = s.nextObject := rfl
@[simp] theorem State.modAgent_nextEvent (s : State) (a : AgentRef) (f : Agent → Agent) : (s.modAgent a f).nextEvent = s.nextEvent := rfl
@[simp] theorem State.modAgent_nextRequest (s : State) (a : AgentRef) (f : Agent → Agent) : (s.modAgent a f).nextRequest = s.nextRequest := rfl
@[simp] theorem State.modAgent_tick (s : State) (a : AgentRef) (f : Agent → Agent) : (s.modAgent a f).tick = s.tick := rfl
@[simp] theorem State.modAgent_clusters (s : State) (a : AgentRef) (f : Agent → Agent) : (s.modAgent a f).clusters = s.clusters := rfl
@[simp] theorem State.modAgent_launches (s : State) (a : AgentRef) (f : Agent → Agent) : (s.modAgent a f).launches = s.launches := rfl
@[simp] theorem State.modAgent_objects (s : State) (a : AgentRef) (f : Agent → Agent) : (s.modAgent a f).objects = s.objects := rfl
@[simp] theorem State.modAgent_cores (s : State) (a : AgentRef) (f : Agent → Agent) : (s.modAgent a f).cores = s.cores := rfl
@[simp] theorem State.modAgent_towers (s : State) (a : AgentRef) (f : Agent → Agent) : (s.modAgent a f).towers = s.towers := rfl
@[simp] theorem State.modAgent_columns (s : State) (a : AgentRef) (f : Agent → Agent) : (s.modAgent a f).columns = s.columns := rfl
@[simp] theorem State.modAgent_main (s : State) (a : AgentRef) (f : Agent → Agent) : (s.modAgent a f).main = s.main := rfl
@[simp] theorem State.modAgent_mainMeta (s : State) (a : AgentRef) (f : Agent → Agent) : (s.modAgent a f).mainMeta = s.mainMeta := rfl
@[simp] theorem State.modAgent_mainHist (s : State) (a : AgentRef) (f : Agent → Agent) : (s.modAgent a f).mainHist = s.mainHist := rfl
@[simp] theorem State.modAgent_mainReads (s : State) (a : AgentRef) (f : Agent → Agent) : (s.modAgent a f).mainReads = s.mainReads := rfl
@[simp] theorem State.modAgent_lineKeys (s : State) (a : AgentRef) (f : Agent → Agent) : (s.modAgent a f).lineKeys = s.lineKeys := rfl
@[simp] theorem State.modAgent_keys (s : State) (a : AgentRef) (f : Agent → Agent) : (s.modAgent a f).keys = s.keys := rfl
@[simp] theorem State.modAgent_floors (s : State) (a : AgentRef) (f : Agent → Agent) : (s.modAgent a f).floors = s.floors := rfl
@[simp] theorem State.modAgent_tier (s : State) (a : AgentRef) (f : Agent → Agent) : (s.modAgent a f).tier = s.tier := rfl
@[simp] theorem State.modAgent_badLines (s : State) (a : AgentRef) (f : Agent → Agent) : (s.modAgent a f).badLines = s.badLines := rfl
@[simp] theorem State.modAgent_banks (s : State) (a : AgentRef) (f : Agent → Agent) : (s.modAgent a f).banks = s.banks := rfl
@[simp] theorem State.modAgent_vis (s : State) (a : AgentRef) (f : Agent → Agent) : (s.modAgent a f).vis = s.vis := rfl
@[simp] theorem State.modAgent_controls (s : State) (a : AgentRef) (f : Agent → Agent) : (s.modAgent a f).controls = s.controls := rfl
@[simp] theorem State.modAgent_partitions (s : State) (a : AgentRef) (f : Agent → Agent) : (s.modAgent a f).partitions = s.partitions := rfl
@[simp] theorem State.modAgent_boot (s : State) (a : AgentRef) (f : Agent → Agent) : (s.modAgent a f).boot = s.boot := rfl
@[simp] theorem State.modAgent_flash (s : State) (a : AgentRef) (f : Agent → Agent) : (s.modAgent a f).flash = s.flash := rfl
@[simp] theorem State.modAgent_seed (s : State) (a : AgentRef) (f : Agent → Agent) : (s.modAgent a f).seed = s.seed := rfl
@[simp] theorem State.modAgent_identity (s : State) (a : AgentRef) (f : Agent → Agent) : (s.modAgent a f).identity = s.identity := rfl
@[simp] theorem State.modAgent_rollback (s : State) (a : AgentRef) (f : Agent → Agent) : (s.modAgent a f).rollback = s.rollback := rfl
@[simp] theorem State.modAgent_attested (s : State) (a : AgentRef) (f : Agent → Agent) : (s.modAgent a f).attested = s.attested := rfl
@[simp] theorem State.modAgent_errorLog (s : State) (a : AgentRef) (f : Agent → Agent) : (s.modAgent a f).errorLog = s.errorLog := rfl
@[simp] theorem State.modAgent_escalations (s : State) (a : AgentRef) (f : Agent → Agent) : (s.modAgent a f).escalations = s.escalations := rfl
@[simp] theorem State.modAgent_module (s : State) (a : AgentRef) (f : Agent → Agent) : (s.modAgent a f).module = s.module := rfl
@[simp] theorem State.modAgent_peers (s : State) (a : AgentRef) (f : Agent → Agent) : (s.modAgent a f).peers = s.peers := rfl
@[simp] theorem State.modAgent_requests (s : State) (a : AgentRef) (f : Agent → Agent) : (s.modAgent a f).requests = s.requests := rfl
@[simp] theorem State.modAgent_routes (s : State) (a : AgentRef) (f : Agent → Agent) : (s.modAgent a f).routes = s.routes := rfl
@[simp] theorem State.modAgent_nextRoutes (s : State) (a : AgentRef) (f : Agent → Agent) : (s.modAgent a f).nextRoutes = s.nextRoutes := rfl
@[simp] theorem State.modAgent_epoch (s : State) (a : AgentRef) (f : Agent → Agent) : (s.modAgent a f).epoch = s.epoch := rfl
@[simp] theorem State.modAgent_switched (s : State) (a : AgentRef) (f : Agent → Agent) : (s.modAgent a f).switched = s.switched := rfl
@[simp] theorem State.modAgent_ports (s : State) (a : AgentRef) (f : Agent → Agent) : (s.modAgent a f).ports = s.ports := rfl
@[simp] theorem State.modAgent_remoteOld (s : State) (a : AgentRef) (f : Agent → Agent) : (s.modAgent a f).remoteOld = s.remoteOld := rfl
-- State.modGroupOf.
@[simp] theorem State.modGroupOf_schedule (s : State) (a : AgentRef) (f : Group → Group) : (s.modGroupOf a f).schedule = s.schedule := rfl
@[simp] theorem State.modGroupOf_cur (s : State) (a : AgentRef) (f : Group → Group) : (s.modGroupOf a f).cur = s.cur := rfl
@[simp] theorem State.modGroupOf_rotation (s : State) (a : AgentRef) (f : Group → Group) : (s.modGroupOf a f).rotation = s.rotation := rfl
@[simp] theorem State.modGroupOf_freeCount (s : State) (a : AgentRef) (f : Group → Group) : (s.modGroupOf a f).freeCount = s.freeCount := rfl
@[simp] theorem State.modGroupOf_nextTeam (s : State) (a : AgentRef) (f : Group → Group) : (s.modGroupOf a f).nextTeam = s.nextTeam := rfl
@[simp] theorem State.modGroupOf_nextCluster (s : State) (a : AgentRef) (f : Group → Group) : (s.modGroupOf a f).nextCluster = s.nextCluster := rfl
@[simp] theorem State.modGroupOf_nextLaunch (s : State) (a : AgentRef) (f : Group → Group) : (s.modGroupOf a f).nextLaunch = s.nextLaunch := rfl
@[simp] theorem State.modGroupOf_nextObject (s : State) (a : AgentRef) (f : Group → Group) : (s.modGroupOf a f).nextObject = s.nextObject := rfl
@[simp] theorem State.modGroupOf_nextEvent (s : State) (a : AgentRef) (f : Group → Group) : (s.modGroupOf a f).nextEvent = s.nextEvent := rfl
@[simp] theorem State.modGroupOf_nextRequest (s : State) (a : AgentRef) (f : Group → Group) : (s.modGroupOf a f).nextRequest = s.nextRequest := rfl
@[simp] theorem State.modGroupOf_tick (s : State) (a : AgentRef) (f : Group → Group) : (s.modGroupOf a f).tick = s.tick := rfl
@[simp] theorem State.modGroupOf_clusters (s : State) (a : AgentRef) (f : Group → Group) : (s.modGroupOf a f).clusters = s.clusters := rfl
@[simp] theorem State.modGroupOf_launches (s : State) (a : AgentRef) (f : Group → Group) : (s.modGroupOf a f).launches = s.launches := rfl
@[simp] theorem State.modGroupOf_objects (s : State) (a : AgentRef) (f : Group → Group) : (s.modGroupOf a f).objects = s.objects := rfl
@[simp] theorem State.modGroupOf_cores (s : State) (a : AgentRef) (f : Group → Group) : (s.modGroupOf a f).cores = s.cores := rfl
@[simp] theorem State.modGroupOf_towers (s : State) (a : AgentRef) (f : Group → Group) : (s.modGroupOf a f).towers = s.towers := rfl
@[simp] theorem State.modGroupOf_columns (s : State) (a : AgentRef) (f : Group → Group) : (s.modGroupOf a f).columns = s.columns := rfl
@[simp] theorem State.modGroupOf_main (s : State) (a : AgentRef) (f : Group → Group) : (s.modGroupOf a f).main = s.main := rfl
@[simp] theorem State.modGroupOf_mainMeta (s : State) (a : AgentRef) (f : Group → Group) : (s.modGroupOf a f).mainMeta = s.mainMeta := rfl
@[simp] theorem State.modGroupOf_mainHist (s : State) (a : AgentRef) (f : Group → Group) : (s.modGroupOf a f).mainHist = s.mainHist := rfl
@[simp] theorem State.modGroupOf_mainReads (s : State) (a : AgentRef) (f : Group → Group) : (s.modGroupOf a f).mainReads = s.mainReads := rfl
@[simp] theorem State.modGroupOf_lineKeys (s : State) (a : AgentRef) (f : Group → Group) : (s.modGroupOf a f).lineKeys = s.lineKeys := rfl
@[simp] theorem State.modGroupOf_keys (s : State) (a : AgentRef) (f : Group → Group) : (s.modGroupOf a f).keys = s.keys := rfl
@[simp] theorem State.modGroupOf_floors (s : State) (a : AgentRef) (f : Group → Group) : (s.modGroupOf a f).floors = s.floors := rfl
@[simp] theorem State.modGroupOf_tier (s : State) (a : AgentRef) (f : Group → Group) : (s.modGroupOf a f).tier = s.tier := rfl
@[simp] theorem State.modGroupOf_badLines (s : State) (a : AgentRef) (f : Group → Group) : (s.modGroupOf a f).badLines = s.badLines := rfl
@[simp] theorem State.modGroupOf_banks (s : State) (a : AgentRef) (f : Group → Group) : (s.modGroupOf a f).banks = s.banks := rfl
@[simp] theorem State.modGroupOf_vis (s : State) (a : AgentRef) (f : Group → Group) : (s.modGroupOf a f).vis = s.vis := rfl
@[simp] theorem State.modGroupOf_controls (s : State) (a : AgentRef) (f : Group → Group) : (s.modGroupOf a f).controls = s.controls := rfl
@[simp] theorem State.modGroupOf_partitions (s : State) (a : AgentRef) (f : Group → Group) : (s.modGroupOf a f).partitions = s.partitions := rfl
@[simp] theorem State.modGroupOf_boot (s : State) (a : AgentRef) (f : Group → Group) : (s.modGroupOf a f).boot = s.boot := rfl
@[simp] theorem State.modGroupOf_flash (s : State) (a : AgentRef) (f : Group → Group) : (s.modGroupOf a f).flash = s.flash := rfl
@[simp] theorem State.modGroupOf_seed (s : State) (a : AgentRef) (f : Group → Group) : (s.modGroupOf a f).seed = s.seed := rfl
@[simp] theorem State.modGroupOf_identity (s : State) (a : AgentRef) (f : Group → Group) : (s.modGroupOf a f).identity = s.identity := rfl
@[simp] theorem State.modGroupOf_rollback (s : State) (a : AgentRef) (f : Group → Group) : (s.modGroupOf a f).rollback = s.rollback := rfl
@[simp] theorem State.modGroupOf_attested (s : State) (a : AgentRef) (f : Group → Group) : (s.modGroupOf a f).attested = s.attested := rfl
@[simp] theorem State.modGroupOf_errorLog (s : State) (a : AgentRef) (f : Group → Group) : (s.modGroupOf a f).errorLog = s.errorLog := rfl
@[simp] theorem State.modGroupOf_escalations (s : State) (a : AgentRef) (f : Group → Group) : (s.modGroupOf a f).escalations = s.escalations := rfl
@[simp] theorem State.modGroupOf_module (s : State) (a : AgentRef) (f : Group → Group) : (s.modGroupOf a f).module = s.module := rfl
@[simp] theorem State.modGroupOf_peers (s : State) (a : AgentRef) (f : Group → Group) : (s.modGroupOf a f).peers = s.peers := rfl
@[simp] theorem State.modGroupOf_requests (s : State) (a : AgentRef) (f : Group → Group) : (s.modGroupOf a f).requests = s.requests := rfl
@[simp] theorem State.modGroupOf_routes (s : State) (a : AgentRef) (f : Group → Group) : (s.modGroupOf a f).routes = s.routes := rfl
@[simp] theorem State.modGroupOf_nextRoutes (s : State) (a : AgentRef) (f : Group → Group) : (s.modGroupOf a f).nextRoutes = s.nextRoutes := rfl
@[simp] theorem State.modGroupOf_epoch (s : State) (a : AgentRef) (f : Group → Group) : (s.modGroupOf a f).epoch = s.epoch := rfl
@[simp] theorem State.modGroupOf_switched (s : State) (a : AgentRef) (f : Group → Group) : (s.modGroupOf a f).switched = s.switched := rfl
@[simp] theorem State.modGroupOf_ports (s : State) (a : AgentRef) (f : Group → Group) : (s.modGroupOf a f).ports = s.ports := rfl
@[simp] theorem State.modGroupOf_remoteOld (s : State) (a : AgentRef) (f : Group → Group) : (s.modGroupOf a f).remoteOld = s.remoteOld := rfl
-- State.modCurTeam.
@[simp] theorem State.modCurTeam_schedule (s : State) (f : Team → Team) : (s.modCurTeam f).schedule = s.schedule := rfl
@[simp] theorem State.modCurTeam_cur (s : State) (f : Team → Team) : (s.modCurTeam f).cur = s.cur := rfl
@[simp] theorem State.modCurTeam_rotation (s : State) (f : Team → Team) : (s.modCurTeam f).rotation = s.rotation := rfl
@[simp] theorem State.modCurTeam_freeCount (s : State) (f : Team → Team) : (s.modCurTeam f).freeCount = s.freeCount := rfl
@[simp] theorem State.modCurTeam_nextTeam (s : State) (f : Team → Team) : (s.modCurTeam f).nextTeam = s.nextTeam := rfl
@[simp] theorem State.modCurTeam_nextCluster (s : State) (f : Team → Team) : (s.modCurTeam f).nextCluster = s.nextCluster := rfl
@[simp] theorem State.modCurTeam_nextLaunch (s : State) (f : Team → Team) : (s.modCurTeam f).nextLaunch = s.nextLaunch := rfl
@[simp] theorem State.modCurTeam_nextObject (s : State) (f : Team → Team) : (s.modCurTeam f).nextObject = s.nextObject := rfl
@[simp] theorem State.modCurTeam_nextEvent (s : State) (f : Team → Team) : (s.modCurTeam f).nextEvent = s.nextEvent := rfl
@[simp] theorem State.modCurTeam_nextRequest (s : State) (f : Team → Team) : (s.modCurTeam f).nextRequest = s.nextRequest := rfl
@[simp] theorem State.modCurTeam_tick (s : State) (f : Team → Team) : (s.modCurTeam f).tick = s.tick := rfl
@[simp] theorem State.modCurTeam_clusters (s : State) (f : Team → Team) : (s.modCurTeam f).clusters = s.clusters := rfl
@[simp] theorem State.modCurTeam_launches (s : State) (f : Team → Team) : (s.modCurTeam f).launches = s.launches := rfl
@[simp] theorem State.modCurTeam_objects (s : State) (f : Team → Team) : (s.modCurTeam f).objects = s.objects := rfl
@[simp] theorem State.modCurTeam_cores (s : State) (f : Team → Team) : (s.modCurTeam f).cores = s.cores := rfl
@[simp] theorem State.modCurTeam_towers (s : State) (f : Team → Team) : (s.modCurTeam f).towers = s.towers := rfl
@[simp] theorem State.modCurTeam_columns (s : State) (f : Team → Team) : (s.modCurTeam f).columns = s.columns := rfl
@[simp] theorem State.modCurTeam_main (s : State) (f : Team → Team) : (s.modCurTeam f).main = s.main := rfl
@[simp] theorem State.modCurTeam_mainMeta (s : State) (f : Team → Team) : (s.modCurTeam f).mainMeta = s.mainMeta := rfl
@[simp] theorem State.modCurTeam_mainHist (s : State) (f : Team → Team) : (s.modCurTeam f).mainHist = s.mainHist := rfl
@[simp] theorem State.modCurTeam_mainReads (s : State) (f : Team → Team) : (s.modCurTeam f).mainReads = s.mainReads := rfl
@[simp] theorem State.modCurTeam_lineKeys (s : State) (f : Team → Team) : (s.modCurTeam f).lineKeys = s.lineKeys := rfl
@[simp] theorem State.modCurTeam_keys (s : State) (f : Team → Team) : (s.modCurTeam f).keys = s.keys := rfl
@[simp] theorem State.modCurTeam_floors (s : State) (f : Team → Team) : (s.modCurTeam f).floors = s.floors := rfl
@[simp] theorem State.modCurTeam_tier (s : State) (f : Team → Team) : (s.modCurTeam f).tier = s.tier := rfl
@[simp] theorem State.modCurTeam_badLines (s : State) (f : Team → Team) : (s.modCurTeam f).badLines = s.badLines := rfl
@[simp] theorem State.modCurTeam_banks (s : State) (f : Team → Team) : (s.modCurTeam f).banks = s.banks := rfl
@[simp] theorem State.modCurTeam_vis (s : State) (f : Team → Team) : (s.modCurTeam f).vis = s.vis := rfl
@[simp] theorem State.modCurTeam_controls (s : State) (f : Team → Team) : (s.modCurTeam f).controls = s.controls := rfl
@[simp] theorem State.modCurTeam_partitions (s : State) (f : Team → Team) : (s.modCurTeam f).partitions = s.partitions := rfl
@[simp] theorem State.modCurTeam_boot (s : State) (f : Team → Team) : (s.modCurTeam f).boot = s.boot := rfl
@[simp] theorem State.modCurTeam_flash (s : State) (f : Team → Team) : (s.modCurTeam f).flash = s.flash := rfl
@[simp] theorem State.modCurTeam_seed (s : State) (f : Team → Team) : (s.modCurTeam f).seed = s.seed := rfl
@[simp] theorem State.modCurTeam_identity (s : State) (f : Team → Team) : (s.modCurTeam f).identity = s.identity := rfl
@[simp] theorem State.modCurTeam_rollback (s : State) (f : Team → Team) : (s.modCurTeam f).rollback = s.rollback := rfl
@[simp] theorem State.modCurTeam_attested (s : State) (f : Team → Team) : (s.modCurTeam f).attested = s.attested := rfl
@[simp] theorem State.modCurTeam_errorLog (s : State) (f : Team → Team) : (s.modCurTeam f).errorLog = s.errorLog := rfl
@[simp] theorem State.modCurTeam_escalations (s : State) (f : Team → Team) : (s.modCurTeam f).escalations = s.escalations := rfl
@[simp] theorem State.modCurTeam_module (s : State) (f : Team → Team) : (s.modCurTeam f).module = s.module := rfl
@[simp] theorem State.modCurTeam_peers (s : State) (f : Team → Team) : (s.modCurTeam f).peers = s.peers := rfl
@[simp] theorem State.modCurTeam_requests (s : State) (f : Team → Team) : (s.modCurTeam f).requests = s.requests := rfl
@[simp] theorem State.modCurTeam_routes (s : State) (f : Team → Team) : (s.modCurTeam f).routes = s.routes := rfl
@[simp] theorem State.modCurTeam_nextRoutes (s : State) (f : Team → Team) : (s.modCurTeam f).nextRoutes = s.nextRoutes := rfl
@[simp] theorem State.modCurTeam_epoch (s : State) (f : Team → Team) : (s.modCurTeam f).epoch = s.epoch := rfl
@[simp] theorem State.modCurTeam_switched (s : State) (f : Team → Team) : (s.modCurTeam f).switched = s.switched := rfl
@[simp] theorem State.modCurTeam_ports (s : State) (f : Team → Team) : (s.modCurTeam f).ports = s.ports := rfl
@[simp] theorem State.modCurTeam_remoteOld (s : State) (f : Team → Team) : (s.modCurTeam f).remoteOld = s.remoteOld := rfl
-- State.modCur.
@[simp] theorem State.modCur_schedule (s : State) (f : Agent → Agent) : (s.modCur f).schedule = s.schedule := rfl
@[simp] theorem State.modCur_cur (s : State) (f : Agent → Agent) : (s.modCur f).cur = s.cur := rfl
@[simp] theorem State.modCur_rotation (s : State) (f : Agent → Agent) : (s.modCur f).rotation = s.rotation := rfl
@[simp] theorem State.modCur_freeCount (s : State) (f : Agent → Agent) : (s.modCur f).freeCount = s.freeCount := rfl
@[simp] theorem State.modCur_nextTeam (s : State) (f : Agent → Agent) : (s.modCur f).nextTeam = s.nextTeam := rfl
@[simp] theorem State.modCur_nextCluster (s : State) (f : Agent → Agent) : (s.modCur f).nextCluster = s.nextCluster := rfl
@[simp] theorem State.modCur_nextLaunch (s : State) (f : Agent → Agent) : (s.modCur f).nextLaunch = s.nextLaunch := rfl
@[simp] theorem State.modCur_nextObject (s : State) (f : Agent → Agent) : (s.modCur f).nextObject = s.nextObject := rfl
@[simp] theorem State.modCur_nextEvent (s : State) (f : Agent → Agent) : (s.modCur f).nextEvent = s.nextEvent := rfl
@[simp] theorem State.modCur_nextRequest (s : State) (f : Agent → Agent) : (s.modCur f).nextRequest = s.nextRequest := rfl
@[simp] theorem State.modCur_tick (s : State) (f : Agent → Agent) : (s.modCur f).tick = s.tick := rfl
@[simp] theorem State.modCur_clusters (s : State) (f : Agent → Agent) : (s.modCur f).clusters = s.clusters := rfl
@[simp] theorem State.modCur_launches (s : State) (f : Agent → Agent) : (s.modCur f).launches = s.launches := rfl
@[simp] theorem State.modCur_objects (s : State) (f : Agent → Agent) : (s.modCur f).objects = s.objects := rfl
@[simp] theorem State.modCur_cores (s : State) (f : Agent → Agent) : (s.modCur f).cores = s.cores := rfl
@[simp] theorem State.modCur_towers (s : State) (f : Agent → Agent) : (s.modCur f).towers = s.towers := rfl
@[simp] theorem State.modCur_columns (s : State) (f : Agent → Agent) : (s.modCur f).columns = s.columns := rfl
@[simp] theorem State.modCur_main (s : State) (f : Agent → Agent) : (s.modCur f).main = s.main := rfl
@[simp] theorem State.modCur_mainMeta (s : State) (f : Agent → Agent) : (s.modCur f).mainMeta = s.mainMeta := rfl
@[simp] theorem State.modCur_mainHist (s : State) (f : Agent → Agent) : (s.modCur f).mainHist = s.mainHist := rfl
@[simp] theorem State.modCur_mainReads (s : State) (f : Agent → Agent) : (s.modCur f).mainReads = s.mainReads := rfl
@[simp] theorem State.modCur_lineKeys (s : State) (f : Agent → Agent) : (s.modCur f).lineKeys = s.lineKeys := rfl
@[simp] theorem State.modCur_keys (s : State) (f : Agent → Agent) : (s.modCur f).keys = s.keys := rfl
@[simp] theorem State.modCur_floors (s : State) (f : Agent → Agent) : (s.modCur f).floors = s.floors := rfl
@[simp] theorem State.modCur_tier (s : State) (f : Agent → Agent) : (s.modCur f).tier = s.tier := rfl
@[simp] theorem State.modCur_badLines (s : State) (f : Agent → Agent) : (s.modCur f).badLines = s.badLines := rfl
@[simp] theorem State.modCur_banks (s : State) (f : Agent → Agent) : (s.modCur f).banks = s.banks := rfl
@[simp] theorem State.modCur_vis (s : State) (f : Agent → Agent) : (s.modCur f).vis = s.vis := rfl
@[simp] theorem State.modCur_controls (s : State) (f : Agent → Agent) : (s.modCur f).controls = s.controls := rfl
@[simp] theorem State.modCur_partitions (s : State) (f : Agent → Agent) : (s.modCur f).partitions = s.partitions := rfl
@[simp] theorem State.modCur_boot (s : State) (f : Agent → Agent) : (s.modCur f).boot = s.boot := rfl
@[simp] theorem State.modCur_flash (s : State) (f : Agent → Agent) : (s.modCur f).flash = s.flash := rfl
@[simp] theorem State.modCur_seed (s : State) (f : Agent → Agent) : (s.modCur f).seed = s.seed := rfl
@[simp] theorem State.modCur_identity (s : State) (f : Agent → Agent) : (s.modCur f).identity = s.identity := rfl
@[simp] theorem State.modCur_rollback (s : State) (f : Agent → Agent) : (s.modCur f).rollback = s.rollback := rfl
@[simp] theorem State.modCur_attested (s : State) (f : Agent → Agent) : (s.modCur f).attested = s.attested := rfl
@[simp] theorem State.modCur_errorLog (s : State) (f : Agent → Agent) : (s.modCur f).errorLog = s.errorLog := rfl
@[simp] theorem State.modCur_escalations (s : State) (f : Agent → Agent) : (s.modCur f).escalations = s.escalations := rfl
@[simp] theorem State.modCur_module (s : State) (f : Agent → Agent) : (s.modCur f).module = s.module := rfl
@[simp] theorem State.modCur_peers (s : State) (f : Agent → Agent) : (s.modCur f).peers = s.peers := rfl
@[simp] theorem State.modCur_requests (s : State) (f : Agent → Agent) : (s.modCur f).requests = s.requests := rfl
@[simp] theorem State.modCur_routes (s : State) (f : Agent → Agent) : (s.modCur f).routes = s.routes := rfl
@[simp] theorem State.modCur_nextRoutes (s : State) (f : Agent → Agent) : (s.modCur f).nextRoutes = s.nextRoutes := rfl
@[simp] theorem State.modCur_epoch (s : State) (f : Agent → Agent) : (s.modCur f).epoch = s.epoch := rfl
@[simp] theorem State.modCur_switched (s : State) (f : Agent → Agent) : (s.modCur f).switched = s.switched := rfl
@[simp] theorem State.modCur_ports (s : State) (f : Agent → Agent) : (s.modCur f).ports = s.ports := rfl
@[simp] theorem State.modCur_remoteOld (s : State) (f : Agent → Agent) : (s.modCur f).remoteOld = s.remoteOld := rfl
-- State.modCurGroup.
@[simp] theorem State.modCurGroup_schedule (s : State) (f : Group → Group) : (s.modCurGroup f).schedule = s.schedule := rfl
@[simp] theorem State.modCurGroup_cur (s : State) (f : Group → Group) : (s.modCurGroup f).cur = s.cur := rfl
@[simp] theorem State.modCurGroup_rotation (s : State) (f : Group → Group) : (s.modCurGroup f).rotation = s.rotation := rfl
@[simp] theorem State.modCurGroup_freeCount (s : State) (f : Group → Group) : (s.modCurGroup f).freeCount = s.freeCount := rfl
@[simp] theorem State.modCurGroup_nextTeam (s : State) (f : Group → Group) : (s.modCurGroup f).nextTeam = s.nextTeam := rfl
@[simp] theorem State.modCurGroup_nextCluster (s : State) (f : Group → Group) : (s.modCurGroup f).nextCluster = s.nextCluster := rfl
@[simp] theorem State.modCurGroup_nextLaunch (s : State) (f : Group → Group) : (s.modCurGroup f).nextLaunch = s.nextLaunch := rfl
@[simp] theorem State.modCurGroup_nextObject (s : State) (f : Group → Group) : (s.modCurGroup f).nextObject = s.nextObject := rfl
@[simp] theorem State.modCurGroup_nextEvent (s : State) (f : Group → Group) : (s.modCurGroup f).nextEvent = s.nextEvent := rfl
@[simp] theorem State.modCurGroup_nextRequest (s : State) (f : Group → Group) : (s.modCurGroup f).nextRequest = s.nextRequest := rfl
@[simp] theorem State.modCurGroup_tick (s : State) (f : Group → Group) : (s.modCurGroup f).tick = s.tick := rfl
@[simp] theorem State.modCurGroup_clusters (s : State) (f : Group → Group) : (s.modCurGroup f).clusters = s.clusters := rfl
@[simp] theorem State.modCurGroup_launches (s : State) (f : Group → Group) : (s.modCurGroup f).launches = s.launches := rfl
@[simp] theorem State.modCurGroup_objects (s : State) (f : Group → Group) : (s.modCurGroup f).objects = s.objects := rfl
@[simp] theorem State.modCurGroup_cores (s : State) (f : Group → Group) : (s.modCurGroup f).cores = s.cores := rfl
@[simp] theorem State.modCurGroup_towers (s : State) (f : Group → Group) : (s.modCurGroup f).towers = s.towers := rfl
@[simp] theorem State.modCurGroup_columns (s : State) (f : Group → Group) : (s.modCurGroup f).columns = s.columns := rfl
@[simp] theorem State.modCurGroup_main (s : State) (f : Group → Group) : (s.modCurGroup f).main = s.main := rfl
@[simp] theorem State.modCurGroup_mainMeta (s : State) (f : Group → Group) : (s.modCurGroup f).mainMeta = s.mainMeta := rfl
@[simp] theorem State.modCurGroup_mainHist (s : State) (f : Group → Group) : (s.modCurGroup f).mainHist = s.mainHist := rfl
@[simp] theorem State.modCurGroup_mainReads (s : State) (f : Group → Group) : (s.modCurGroup f).mainReads = s.mainReads := rfl
@[simp] theorem State.modCurGroup_lineKeys (s : State) (f : Group → Group) : (s.modCurGroup f).lineKeys = s.lineKeys := rfl
@[simp] theorem State.modCurGroup_keys (s : State) (f : Group → Group) : (s.modCurGroup f).keys = s.keys := rfl
@[simp] theorem State.modCurGroup_floors (s : State) (f : Group → Group) : (s.modCurGroup f).floors = s.floors := rfl
@[simp] theorem State.modCurGroup_tier (s : State) (f : Group → Group) : (s.modCurGroup f).tier = s.tier := rfl
@[simp] theorem State.modCurGroup_badLines (s : State) (f : Group → Group) : (s.modCurGroup f).badLines = s.badLines := rfl
@[simp] theorem State.modCurGroup_banks (s : State) (f : Group → Group) : (s.modCurGroup f).banks = s.banks := rfl
@[simp] theorem State.modCurGroup_vis (s : State) (f : Group → Group) : (s.modCurGroup f).vis = s.vis := rfl
@[simp] theorem State.modCurGroup_controls (s : State) (f : Group → Group) : (s.modCurGroup f).controls = s.controls := rfl
@[simp] theorem State.modCurGroup_partitions (s : State) (f : Group → Group) : (s.modCurGroup f).partitions = s.partitions := rfl
@[simp] theorem State.modCurGroup_boot (s : State) (f : Group → Group) : (s.modCurGroup f).boot = s.boot := rfl
@[simp] theorem State.modCurGroup_flash (s : State) (f : Group → Group) : (s.modCurGroup f).flash = s.flash := rfl
@[simp] theorem State.modCurGroup_seed (s : State) (f : Group → Group) : (s.modCurGroup f).seed = s.seed := rfl
@[simp] theorem State.modCurGroup_identity (s : State) (f : Group → Group) : (s.modCurGroup f).identity = s.identity := rfl
@[simp] theorem State.modCurGroup_rollback (s : State) (f : Group → Group) : (s.modCurGroup f).rollback = s.rollback := rfl
@[simp] theorem State.modCurGroup_attested (s : State) (f : Group → Group) : (s.modCurGroup f).attested = s.attested := rfl
@[simp] theorem State.modCurGroup_errorLog (s : State) (f : Group → Group) : (s.modCurGroup f).errorLog = s.errorLog := rfl
@[simp] theorem State.modCurGroup_escalations (s : State) (f : Group → Group) : (s.modCurGroup f).escalations = s.escalations := rfl
@[simp] theorem State.modCurGroup_module (s : State) (f : Group → Group) : (s.modCurGroup f).module = s.module := rfl
@[simp] theorem State.modCurGroup_peers (s : State) (f : Group → Group) : (s.modCurGroup f).peers = s.peers := rfl
@[simp] theorem State.modCurGroup_requests (s : State) (f : Group → Group) : (s.modCurGroup f).requests = s.requests := rfl
@[simp] theorem State.modCurGroup_routes (s : State) (f : Group → Group) : (s.modCurGroup f).routes = s.routes := rfl
@[simp] theorem State.modCurGroup_nextRoutes (s : State) (f : Group → Group) : (s.modCurGroup f).nextRoutes = s.nextRoutes := rfl
@[simp] theorem State.modCurGroup_epoch (s : State) (f : Group → Group) : (s.modCurGroup f).epoch = s.epoch := rfl
@[simp] theorem State.modCurGroup_switched (s : State) (f : Group → Group) : (s.modCurGroup f).switched = s.switched := rfl
@[simp] theorem State.modCurGroup_ports (s : State) (f : Group → Group) : (s.modCurGroup f).ports = s.ports := rfl
@[simp] theorem State.modCurGroup_remoteOld (s : State) (f : Group → Group) : (s.modCurGroup f).remoteOld = s.remoteOld := rfl
-- State.setSreg.
@[simp] theorem State.setSreg_schedule (s : State) (n : Nat) (x : DWord) : (s.setSreg n x).schedule = s.schedule := rfl
@[simp] theorem State.setSreg_cur (s : State) (n : Nat) (x : DWord) : (s.setSreg n x).cur = s.cur := rfl
@[simp] theorem State.setSreg_rotation (s : State) (n : Nat) (x : DWord) : (s.setSreg n x).rotation = s.rotation := rfl
@[simp] theorem State.setSreg_freeCount (s : State) (n : Nat) (x : DWord) : (s.setSreg n x).freeCount = s.freeCount := rfl
@[simp] theorem State.setSreg_nextTeam (s : State) (n : Nat) (x : DWord) : (s.setSreg n x).nextTeam = s.nextTeam := rfl
@[simp] theorem State.setSreg_nextCluster (s : State) (n : Nat) (x : DWord) : (s.setSreg n x).nextCluster = s.nextCluster := rfl
@[simp] theorem State.setSreg_nextLaunch (s : State) (n : Nat) (x : DWord) : (s.setSreg n x).nextLaunch = s.nextLaunch := rfl
@[simp] theorem State.setSreg_nextObject (s : State) (n : Nat) (x : DWord) : (s.setSreg n x).nextObject = s.nextObject := rfl
@[simp] theorem State.setSreg_nextEvent (s : State) (n : Nat) (x : DWord) : (s.setSreg n x).nextEvent = s.nextEvent := rfl
@[simp] theorem State.setSreg_nextRequest (s : State) (n : Nat) (x : DWord) : (s.setSreg n x).nextRequest = s.nextRequest := rfl
@[simp] theorem State.setSreg_tick (s : State) (n : Nat) (x : DWord) : (s.setSreg n x).tick = s.tick := rfl
@[simp] theorem State.setSreg_clusters (s : State) (n : Nat) (x : DWord) : (s.setSreg n x).clusters = s.clusters := rfl
@[simp] theorem State.setSreg_launches (s : State) (n : Nat) (x : DWord) : (s.setSreg n x).launches = s.launches := rfl
@[simp] theorem State.setSreg_objects (s : State) (n : Nat) (x : DWord) : (s.setSreg n x).objects = s.objects := rfl
@[simp] theorem State.setSreg_cores (s : State) (n : Nat) (x : DWord) : (s.setSreg n x).cores = s.cores := rfl
@[simp] theorem State.setSreg_towers (s : State) (n : Nat) (x : DWord) : (s.setSreg n x).towers = s.towers := rfl
@[simp] theorem State.setSreg_columns (s : State) (n : Nat) (x : DWord) : (s.setSreg n x).columns = s.columns := rfl
@[simp] theorem State.setSreg_main (s : State) (n : Nat) (x : DWord) : (s.setSreg n x).main = s.main := rfl
@[simp] theorem State.setSreg_mainMeta (s : State) (n : Nat) (x : DWord) : (s.setSreg n x).mainMeta = s.mainMeta := rfl
@[simp] theorem State.setSreg_mainHist (s : State) (n : Nat) (x : DWord) : (s.setSreg n x).mainHist = s.mainHist := rfl
@[simp] theorem State.setSreg_mainReads (s : State) (n : Nat) (x : DWord) : (s.setSreg n x).mainReads = s.mainReads := rfl
@[simp] theorem State.setSreg_lineKeys (s : State) (n : Nat) (x : DWord) : (s.setSreg n x).lineKeys = s.lineKeys := rfl
@[simp] theorem State.setSreg_keys (s : State) (n : Nat) (x : DWord) : (s.setSreg n x).keys = s.keys := rfl
@[simp] theorem State.setSreg_floors (s : State) (n : Nat) (x : DWord) : (s.setSreg n x).floors = s.floors := rfl
@[simp] theorem State.setSreg_tier (s : State) (n : Nat) (x : DWord) : (s.setSreg n x).tier = s.tier := rfl
@[simp] theorem State.setSreg_badLines (s : State) (n : Nat) (x : DWord) : (s.setSreg n x).badLines = s.badLines := rfl
@[simp] theorem State.setSreg_banks (s : State) (n : Nat) (x : DWord) : (s.setSreg n x).banks = s.banks := rfl
@[simp] theorem State.setSreg_vis (s : State) (n : Nat) (x : DWord) : (s.setSreg n x).vis = s.vis := rfl
@[simp] theorem State.setSreg_controls (s : State) (n : Nat) (x : DWord) : (s.setSreg n x).controls = s.controls := rfl
@[simp] theorem State.setSreg_partitions (s : State) (n : Nat) (x : DWord) : (s.setSreg n x).partitions = s.partitions := rfl
@[simp] theorem State.setSreg_boot (s : State) (n : Nat) (x : DWord) : (s.setSreg n x).boot = s.boot := rfl
@[simp] theorem State.setSreg_flash (s : State) (n : Nat) (x : DWord) : (s.setSreg n x).flash = s.flash := rfl
@[simp] theorem State.setSreg_seed (s : State) (n : Nat) (x : DWord) : (s.setSreg n x).seed = s.seed := rfl
@[simp] theorem State.setSreg_identity (s : State) (n : Nat) (x : DWord) : (s.setSreg n x).identity = s.identity := rfl
@[simp] theorem State.setSreg_rollback (s : State) (n : Nat) (x : DWord) : (s.setSreg n x).rollback = s.rollback := rfl
@[simp] theorem State.setSreg_attested (s : State) (n : Nat) (x : DWord) : (s.setSreg n x).attested = s.attested := rfl
@[simp] theorem State.setSreg_errorLog (s : State) (n : Nat) (x : DWord) : (s.setSreg n x).errorLog = s.errorLog := rfl
@[simp] theorem State.setSreg_escalations (s : State) (n : Nat) (x : DWord) : (s.setSreg n x).escalations = s.escalations := rfl
@[simp] theorem State.setSreg_module (s : State) (n : Nat) (x : DWord) : (s.setSreg n x).module = s.module := rfl
@[simp] theorem State.setSreg_peers (s : State) (n : Nat) (x : DWord) : (s.setSreg n x).peers = s.peers := rfl
@[simp] theorem State.setSreg_requests (s : State) (n : Nat) (x : DWord) : (s.setSreg n x).requests = s.requests := rfl
@[simp] theorem State.setSreg_routes (s : State) (n : Nat) (x : DWord) : (s.setSreg n x).routes = s.routes := rfl
@[simp] theorem State.setSreg_nextRoutes (s : State) (n : Nat) (x : DWord) : (s.setSreg n x).nextRoutes = s.nextRoutes := rfl
@[simp] theorem State.setSreg_epoch (s : State) (n : Nat) (x : DWord) : (s.setSreg n x).epoch = s.epoch := rfl
@[simp] theorem State.setSreg_switched (s : State) (n : Nat) (x : DWord) : (s.setSreg n x).switched = s.switched := rfl
@[simp] theorem State.setSreg_ports (s : State) (n : Nat) (x : DWord) : (s.setSreg n x).ports = s.ports := rfl
@[simp] theorem State.setSreg_remoteOld (s : State) (n : Nat) (x : DWord) : (s.setSreg n x).remoteOld = s.remoteOld := rfl
-- State.writeLanes.
@[simp] theorem State.writeLanes_schedule (s : State) (l : List Nat) (r : Nat) (f : Nat → Word) : (s.writeLanes l r f).schedule = s.schedule := rfl
@[simp] theorem State.writeLanes_cur (s : State) (l : List Nat) (r : Nat) (f : Nat → Word) : (s.writeLanes l r f).cur = s.cur := rfl
@[simp] theorem State.writeLanes_rotation (s : State) (l : List Nat) (r : Nat) (f : Nat → Word) : (s.writeLanes l r f).rotation = s.rotation := rfl
@[simp] theorem State.writeLanes_freeCount (s : State) (l : List Nat) (r : Nat) (f : Nat → Word) : (s.writeLanes l r f).freeCount = s.freeCount := rfl
@[simp] theorem State.writeLanes_nextTeam (s : State) (l : List Nat) (r : Nat) (f : Nat → Word) : (s.writeLanes l r f).nextTeam = s.nextTeam := rfl
@[simp] theorem State.writeLanes_nextCluster (s : State) (l : List Nat) (r : Nat) (f : Nat → Word) : (s.writeLanes l r f).nextCluster = s.nextCluster := rfl
@[simp] theorem State.writeLanes_nextLaunch (s : State) (l : List Nat) (r : Nat) (f : Nat → Word) : (s.writeLanes l r f).nextLaunch = s.nextLaunch := rfl
@[simp] theorem State.writeLanes_nextObject (s : State) (l : List Nat) (r : Nat) (f : Nat → Word) : (s.writeLanes l r f).nextObject = s.nextObject := rfl
@[simp] theorem State.writeLanes_nextEvent (s : State) (l : List Nat) (r : Nat) (f : Nat → Word) : (s.writeLanes l r f).nextEvent = s.nextEvent := rfl
@[simp] theorem State.writeLanes_nextRequest (s : State) (l : List Nat) (r : Nat) (f : Nat → Word) : (s.writeLanes l r f).nextRequest = s.nextRequest := rfl
@[simp] theorem State.writeLanes_tick (s : State) (l : List Nat) (r : Nat) (f : Nat → Word) : (s.writeLanes l r f).tick = s.tick := rfl
@[simp] theorem State.writeLanes_clusters (s : State) (l : List Nat) (r : Nat) (f : Nat → Word) : (s.writeLanes l r f).clusters = s.clusters := rfl
@[simp] theorem State.writeLanes_launches (s : State) (l : List Nat) (r : Nat) (f : Nat → Word) : (s.writeLanes l r f).launches = s.launches := rfl
@[simp] theorem State.writeLanes_objects (s : State) (l : List Nat) (r : Nat) (f : Nat → Word) : (s.writeLanes l r f).objects = s.objects := rfl
@[simp] theorem State.writeLanes_cores (s : State) (l : List Nat) (r : Nat) (f : Nat → Word) : (s.writeLanes l r f).cores = s.cores := rfl
@[simp] theorem State.writeLanes_towers (s : State) (l : List Nat) (r : Nat) (f : Nat → Word) : (s.writeLanes l r f).towers = s.towers := rfl
@[simp] theorem State.writeLanes_columns (s : State) (l : List Nat) (r : Nat) (f : Nat → Word) : (s.writeLanes l r f).columns = s.columns := rfl
@[simp] theorem State.writeLanes_main (s : State) (l : List Nat) (r : Nat) (f : Nat → Word) : (s.writeLanes l r f).main = s.main := rfl
@[simp] theorem State.writeLanes_mainMeta (s : State) (l : List Nat) (r : Nat) (f : Nat → Word) : (s.writeLanes l r f).mainMeta = s.mainMeta := rfl
@[simp] theorem State.writeLanes_mainHist (s : State) (l : List Nat) (r : Nat) (f : Nat → Word) : (s.writeLanes l r f).mainHist = s.mainHist := rfl
@[simp] theorem State.writeLanes_mainReads (s : State) (l : List Nat) (r : Nat) (f : Nat → Word) : (s.writeLanes l r f).mainReads = s.mainReads := rfl
@[simp] theorem State.writeLanes_lineKeys (s : State) (l : List Nat) (r : Nat) (f : Nat → Word) : (s.writeLanes l r f).lineKeys = s.lineKeys := rfl
@[simp] theorem State.writeLanes_keys (s : State) (l : List Nat) (r : Nat) (f : Nat → Word) : (s.writeLanes l r f).keys = s.keys := rfl
@[simp] theorem State.writeLanes_floors (s : State) (l : List Nat) (r : Nat) (f : Nat → Word) : (s.writeLanes l r f).floors = s.floors := rfl
@[simp] theorem State.writeLanes_tier (s : State) (l : List Nat) (r : Nat) (f : Nat → Word) : (s.writeLanes l r f).tier = s.tier := rfl
@[simp] theorem State.writeLanes_badLines (s : State) (l : List Nat) (r : Nat) (f : Nat → Word) : (s.writeLanes l r f).badLines = s.badLines := rfl
@[simp] theorem State.writeLanes_banks (s : State) (l : List Nat) (r : Nat) (f : Nat → Word) : (s.writeLanes l r f).banks = s.banks := rfl
@[simp] theorem State.writeLanes_vis (s : State) (l : List Nat) (r : Nat) (f : Nat → Word) : (s.writeLanes l r f).vis = s.vis := rfl
@[simp] theorem State.writeLanes_controls (s : State) (l : List Nat) (r : Nat) (f : Nat → Word) : (s.writeLanes l r f).controls = s.controls := rfl
@[simp] theorem State.writeLanes_partitions (s : State) (l : List Nat) (r : Nat) (f : Nat → Word) : (s.writeLanes l r f).partitions = s.partitions := rfl
@[simp] theorem State.writeLanes_boot (s : State) (l : List Nat) (r : Nat) (f : Nat → Word) : (s.writeLanes l r f).boot = s.boot := rfl
@[simp] theorem State.writeLanes_flash (s : State) (l : List Nat) (r : Nat) (f : Nat → Word) : (s.writeLanes l r f).flash = s.flash := rfl
@[simp] theorem State.writeLanes_seed (s : State) (l : List Nat) (r : Nat) (f : Nat → Word) : (s.writeLanes l r f).seed = s.seed := rfl
@[simp] theorem State.writeLanes_identity (s : State) (l : List Nat) (r : Nat) (f : Nat → Word) : (s.writeLanes l r f).identity = s.identity := rfl
@[simp] theorem State.writeLanes_rollback (s : State) (l : List Nat) (r : Nat) (f : Nat → Word) : (s.writeLanes l r f).rollback = s.rollback := rfl
@[simp] theorem State.writeLanes_attested (s : State) (l : List Nat) (r : Nat) (f : Nat → Word) : (s.writeLanes l r f).attested = s.attested := rfl
@[simp] theorem State.writeLanes_errorLog (s : State) (l : List Nat) (r : Nat) (f : Nat → Word) : (s.writeLanes l r f).errorLog = s.errorLog := rfl
@[simp] theorem State.writeLanes_escalations (s : State) (l : List Nat) (r : Nat) (f : Nat → Word) : (s.writeLanes l r f).escalations = s.escalations := rfl
@[simp] theorem State.writeLanes_module (s : State) (l : List Nat) (r : Nat) (f : Nat → Word) : (s.writeLanes l r f).module = s.module := rfl
@[simp] theorem State.writeLanes_peers (s : State) (l : List Nat) (r : Nat) (f : Nat → Word) : (s.writeLanes l r f).peers = s.peers := rfl
@[simp] theorem State.writeLanes_requests (s : State) (l : List Nat) (r : Nat) (f : Nat → Word) : (s.writeLanes l r f).requests = s.requests := rfl
@[simp] theorem State.writeLanes_routes (s : State) (l : List Nat) (r : Nat) (f : Nat → Word) : (s.writeLanes l r f).routes = s.routes := rfl
@[simp] theorem State.writeLanes_nextRoutes (s : State) (l : List Nat) (r : Nat) (f : Nat → Word) : (s.writeLanes l r f).nextRoutes = s.nextRoutes := rfl
@[simp] theorem State.writeLanes_epoch (s : State) (l : List Nat) (r : Nat) (f : Nat → Word) : (s.writeLanes l r f).epoch = s.epoch := rfl
@[simp] theorem State.writeLanes_switched (s : State) (l : List Nat) (r : Nat) (f : Nat → Word) : (s.writeLanes l r f).switched = s.switched := rfl
@[simp] theorem State.writeLanes_ports (s : State) (l : List Nat) (r : Nat) (f : Nat → Word) : (s.writeLanes l r f).ports = s.ports := rfl
@[simp] theorem State.writeLanes_remoteOld (s : State) (l : List Nat) (r : Nat) (f : Nat → Word) : (s.writeLanes l r f).remoteOld = s.remoteOld := rfl
-- State.setK.
@[simp] theorem State.setK_schedule (s : State) (k : Nat) (x : LaneSet) : (s.setK k x).schedule = s.schedule := rfl
@[simp] theorem State.setK_cur (s : State) (k : Nat) (x : LaneSet) : (s.setK k x).cur = s.cur := rfl
@[simp] theorem State.setK_rotation (s : State) (k : Nat) (x : LaneSet) : (s.setK k x).rotation = s.rotation := rfl
@[simp] theorem State.setK_freeCount (s : State) (k : Nat) (x : LaneSet) : (s.setK k x).freeCount = s.freeCount := rfl
@[simp] theorem State.setK_nextTeam (s : State) (k : Nat) (x : LaneSet) : (s.setK k x).nextTeam = s.nextTeam := rfl
@[simp] theorem State.setK_nextCluster (s : State) (k : Nat) (x : LaneSet) : (s.setK k x).nextCluster = s.nextCluster := rfl
@[simp] theorem State.setK_nextLaunch (s : State) (k : Nat) (x : LaneSet) : (s.setK k x).nextLaunch = s.nextLaunch := rfl
@[simp] theorem State.setK_nextObject (s : State) (k : Nat) (x : LaneSet) : (s.setK k x).nextObject = s.nextObject := rfl
@[simp] theorem State.setK_nextEvent (s : State) (k : Nat) (x : LaneSet) : (s.setK k x).nextEvent = s.nextEvent := rfl
@[simp] theorem State.setK_nextRequest (s : State) (k : Nat) (x : LaneSet) : (s.setK k x).nextRequest = s.nextRequest := rfl
@[simp] theorem State.setK_tick (s : State) (k : Nat) (x : LaneSet) : (s.setK k x).tick = s.tick := rfl
@[simp] theorem State.setK_clusters (s : State) (k : Nat) (x : LaneSet) : (s.setK k x).clusters = s.clusters := rfl
@[simp] theorem State.setK_launches (s : State) (k : Nat) (x : LaneSet) : (s.setK k x).launches = s.launches := rfl
@[simp] theorem State.setK_objects (s : State) (k : Nat) (x : LaneSet) : (s.setK k x).objects = s.objects := rfl
@[simp] theorem State.setK_cores (s : State) (k : Nat) (x : LaneSet) : (s.setK k x).cores = s.cores := rfl
@[simp] theorem State.setK_towers (s : State) (k : Nat) (x : LaneSet) : (s.setK k x).towers = s.towers := rfl
@[simp] theorem State.setK_columns (s : State) (k : Nat) (x : LaneSet) : (s.setK k x).columns = s.columns := rfl
@[simp] theorem State.setK_main (s : State) (k : Nat) (x : LaneSet) : (s.setK k x).main = s.main := rfl
@[simp] theorem State.setK_mainMeta (s : State) (k : Nat) (x : LaneSet) : (s.setK k x).mainMeta = s.mainMeta := rfl
@[simp] theorem State.setK_mainHist (s : State) (k : Nat) (x : LaneSet) : (s.setK k x).mainHist = s.mainHist := rfl
@[simp] theorem State.setK_mainReads (s : State) (k : Nat) (x : LaneSet) : (s.setK k x).mainReads = s.mainReads := rfl
@[simp] theorem State.setK_lineKeys (s : State) (k : Nat) (x : LaneSet) : (s.setK k x).lineKeys = s.lineKeys := rfl
@[simp] theorem State.setK_keys (s : State) (k : Nat) (x : LaneSet) : (s.setK k x).keys = s.keys := rfl
@[simp] theorem State.setK_floors (s : State) (k : Nat) (x : LaneSet) : (s.setK k x).floors = s.floors := rfl
@[simp] theorem State.setK_tier (s : State) (k : Nat) (x : LaneSet) : (s.setK k x).tier = s.tier := rfl
@[simp] theorem State.setK_badLines (s : State) (k : Nat) (x : LaneSet) : (s.setK k x).badLines = s.badLines := rfl
@[simp] theorem State.setK_banks (s : State) (k : Nat) (x : LaneSet) : (s.setK k x).banks = s.banks := rfl
@[simp] theorem State.setK_vis (s : State) (k : Nat) (x : LaneSet) : (s.setK k x).vis = s.vis := rfl
@[simp] theorem State.setK_controls (s : State) (k : Nat) (x : LaneSet) : (s.setK k x).controls = s.controls := rfl
@[simp] theorem State.setK_partitions (s : State) (k : Nat) (x : LaneSet) : (s.setK k x).partitions = s.partitions := rfl
@[simp] theorem State.setK_boot (s : State) (k : Nat) (x : LaneSet) : (s.setK k x).boot = s.boot := rfl
@[simp] theorem State.setK_flash (s : State) (k : Nat) (x : LaneSet) : (s.setK k x).flash = s.flash := rfl
@[simp] theorem State.setK_seed (s : State) (k : Nat) (x : LaneSet) : (s.setK k x).seed = s.seed := rfl
@[simp] theorem State.setK_identity (s : State) (k : Nat) (x : LaneSet) : (s.setK k x).identity = s.identity := rfl
@[simp] theorem State.setK_rollback (s : State) (k : Nat) (x : LaneSet) : (s.setK k x).rollback = s.rollback := rfl
@[simp] theorem State.setK_attested (s : State) (k : Nat) (x : LaneSet) : (s.setK k x).attested = s.attested := rfl
@[simp] theorem State.setK_errorLog (s : State) (k : Nat) (x : LaneSet) : (s.setK k x).errorLog = s.errorLog := rfl
@[simp] theorem State.setK_escalations (s : State) (k : Nat) (x : LaneSet) : (s.setK k x).escalations = s.escalations := rfl
@[simp] theorem State.setK_module (s : State) (k : Nat) (x : LaneSet) : (s.setK k x).module = s.module := rfl
@[simp] theorem State.setK_peers (s : State) (k : Nat) (x : LaneSet) : (s.setK k x).peers = s.peers := rfl
@[simp] theorem State.setK_requests (s : State) (k : Nat) (x : LaneSet) : (s.setK k x).requests = s.requests := rfl
@[simp] theorem State.setK_routes (s : State) (k : Nat) (x : LaneSet) : (s.setK k x).routes = s.routes := rfl
@[simp] theorem State.setK_nextRoutes (s : State) (k : Nat) (x : LaneSet) : (s.setK k x).nextRoutes = s.nextRoutes := rfl
@[simp] theorem State.setK_epoch (s : State) (k : Nat) (x : LaneSet) : (s.setK k x).epoch = s.epoch := rfl
@[simp] theorem State.setK_switched (s : State) (k : Nat) (x : LaneSet) : (s.setK k x).switched = s.switched := rfl
@[simp] theorem State.setK_ports (s : State) (k : Nat) (x : LaneSet) : (s.setK k x).ports = s.ports := rfl
@[simp] theorem State.setK_remoteOld (s : State) (k : Nat) (x : LaneSet) : (s.setK k x).remoteOld = s.remoteOld := rfl
-- State.writePairs.
@[simp] theorem State.writePairs_schedule (s : State) (l : List Nat) (r : Nat) (f : Nat → DWord) : (s.writePairs l r f).schedule = s.schedule := rfl
@[simp] theorem State.writePairs_cur (s : State) (l : List Nat) (r : Nat) (f : Nat → DWord) : (s.writePairs l r f).cur = s.cur := rfl
@[simp] theorem State.writePairs_rotation (s : State) (l : List Nat) (r : Nat) (f : Nat → DWord) : (s.writePairs l r f).rotation = s.rotation := rfl
@[simp] theorem State.writePairs_freeCount (s : State) (l : List Nat) (r : Nat) (f : Nat → DWord) : (s.writePairs l r f).freeCount = s.freeCount := rfl
@[simp] theorem State.writePairs_nextTeam (s : State) (l : List Nat) (r : Nat) (f : Nat → DWord) : (s.writePairs l r f).nextTeam = s.nextTeam := rfl
@[simp] theorem State.writePairs_nextCluster (s : State) (l : List Nat) (r : Nat) (f : Nat → DWord) : (s.writePairs l r f).nextCluster = s.nextCluster := rfl
@[simp] theorem State.writePairs_nextLaunch (s : State) (l : List Nat) (r : Nat) (f : Nat → DWord) : (s.writePairs l r f).nextLaunch = s.nextLaunch := rfl
@[simp] theorem State.writePairs_nextObject (s : State) (l : List Nat) (r : Nat) (f : Nat → DWord) : (s.writePairs l r f).nextObject = s.nextObject := rfl
@[simp] theorem State.writePairs_nextEvent (s : State) (l : List Nat) (r : Nat) (f : Nat → DWord) : (s.writePairs l r f).nextEvent = s.nextEvent := rfl
@[simp] theorem State.writePairs_nextRequest (s : State) (l : List Nat) (r : Nat) (f : Nat → DWord) : (s.writePairs l r f).nextRequest = s.nextRequest := rfl
@[simp] theorem State.writePairs_tick (s : State) (l : List Nat) (r : Nat) (f : Nat → DWord) : (s.writePairs l r f).tick = s.tick := rfl
@[simp] theorem State.writePairs_clusters (s : State) (l : List Nat) (r : Nat) (f : Nat → DWord) : (s.writePairs l r f).clusters = s.clusters := rfl
@[simp] theorem State.writePairs_launches (s : State) (l : List Nat) (r : Nat) (f : Nat → DWord) : (s.writePairs l r f).launches = s.launches := rfl
@[simp] theorem State.writePairs_objects (s : State) (l : List Nat) (r : Nat) (f : Nat → DWord) : (s.writePairs l r f).objects = s.objects := rfl
@[simp] theorem State.writePairs_cores (s : State) (l : List Nat) (r : Nat) (f : Nat → DWord) : (s.writePairs l r f).cores = s.cores := rfl
@[simp] theorem State.writePairs_towers (s : State) (l : List Nat) (r : Nat) (f : Nat → DWord) : (s.writePairs l r f).towers = s.towers := rfl
@[simp] theorem State.writePairs_columns (s : State) (l : List Nat) (r : Nat) (f : Nat → DWord) : (s.writePairs l r f).columns = s.columns := rfl
@[simp] theorem State.writePairs_main (s : State) (l : List Nat) (r : Nat) (f : Nat → DWord) : (s.writePairs l r f).main = s.main := rfl
@[simp] theorem State.writePairs_mainMeta (s : State) (l : List Nat) (r : Nat) (f : Nat → DWord) : (s.writePairs l r f).mainMeta = s.mainMeta := rfl
@[simp] theorem State.writePairs_mainHist (s : State) (l : List Nat) (r : Nat) (f : Nat → DWord) : (s.writePairs l r f).mainHist = s.mainHist := rfl
@[simp] theorem State.writePairs_mainReads (s : State) (l : List Nat) (r : Nat) (f : Nat → DWord) : (s.writePairs l r f).mainReads = s.mainReads := rfl
@[simp] theorem State.writePairs_lineKeys (s : State) (l : List Nat) (r : Nat) (f : Nat → DWord) : (s.writePairs l r f).lineKeys = s.lineKeys := rfl
@[simp] theorem State.writePairs_keys (s : State) (l : List Nat) (r : Nat) (f : Nat → DWord) : (s.writePairs l r f).keys = s.keys := rfl
@[simp] theorem State.writePairs_floors (s : State) (l : List Nat) (r : Nat) (f : Nat → DWord) : (s.writePairs l r f).floors = s.floors := rfl
@[simp] theorem State.writePairs_tier (s : State) (l : List Nat) (r : Nat) (f : Nat → DWord) : (s.writePairs l r f).tier = s.tier := rfl
@[simp] theorem State.writePairs_badLines (s : State) (l : List Nat) (r : Nat) (f : Nat → DWord) : (s.writePairs l r f).badLines = s.badLines := rfl
@[simp] theorem State.writePairs_banks (s : State) (l : List Nat) (r : Nat) (f : Nat → DWord) : (s.writePairs l r f).banks = s.banks := rfl
@[simp] theorem State.writePairs_vis (s : State) (l : List Nat) (r : Nat) (f : Nat → DWord) : (s.writePairs l r f).vis = s.vis := rfl
@[simp] theorem State.writePairs_controls (s : State) (l : List Nat) (r : Nat) (f : Nat → DWord) : (s.writePairs l r f).controls = s.controls := rfl
@[simp] theorem State.writePairs_partitions (s : State) (l : List Nat) (r : Nat) (f : Nat → DWord) : (s.writePairs l r f).partitions = s.partitions := rfl
@[simp] theorem State.writePairs_boot (s : State) (l : List Nat) (r : Nat) (f : Nat → DWord) : (s.writePairs l r f).boot = s.boot := rfl
@[simp] theorem State.writePairs_flash (s : State) (l : List Nat) (r : Nat) (f : Nat → DWord) : (s.writePairs l r f).flash = s.flash := rfl
@[simp] theorem State.writePairs_seed (s : State) (l : List Nat) (r : Nat) (f : Nat → DWord) : (s.writePairs l r f).seed = s.seed := rfl
@[simp] theorem State.writePairs_identity (s : State) (l : List Nat) (r : Nat) (f : Nat → DWord) : (s.writePairs l r f).identity = s.identity := rfl
@[simp] theorem State.writePairs_rollback (s : State) (l : List Nat) (r : Nat) (f : Nat → DWord) : (s.writePairs l r f).rollback = s.rollback := rfl
@[simp] theorem State.writePairs_attested (s : State) (l : List Nat) (r : Nat) (f : Nat → DWord) : (s.writePairs l r f).attested = s.attested := rfl
@[simp] theorem State.writePairs_errorLog (s : State) (l : List Nat) (r : Nat) (f : Nat → DWord) : (s.writePairs l r f).errorLog = s.errorLog := rfl
@[simp] theorem State.writePairs_escalations (s : State) (l : List Nat) (r : Nat) (f : Nat → DWord) : (s.writePairs l r f).escalations = s.escalations := rfl
@[simp] theorem State.writePairs_module (s : State) (l : List Nat) (r : Nat) (f : Nat → DWord) : (s.writePairs l r f).module = s.module := rfl
@[simp] theorem State.writePairs_peers (s : State) (l : List Nat) (r : Nat) (f : Nat → DWord) : (s.writePairs l r f).peers = s.peers := rfl
@[simp] theorem State.writePairs_requests (s : State) (l : List Nat) (r : Nat) (f : Nat → DWord) : (s.writePairs l r f).requests = s.requests := rfl
@[simp] theorem State.writePairs_routes (s : State) (l : List Nat) (r : Nat) (f : Nat → DWord) : (s.writePairs l r f).routes = s.routes := rfl
@[simp] theorem State.writePairs_nextRoutes (s : State) (l : List Nat) (r : Nat) (f : Nat → DWord) : (s.writePairs l r f).nextRoutes = s.nextRoutes := rfl
@[simp] theorem State.writePairs_epoch (s : State) (l : List Nat) (r : Nat) (f : Nat → DWord) : (s.writePairs l r f).epoch = s.epoch := rfl
@[simp] theorem State.writePairs_switched (s : State) (l : List Nat) (r : Nat) (f : Nat → DWord) : (s.writePairs l r f).switched = s.switched := rfl
@[simp] theorem State.writePairs_ports (s : State) (l : List Nat) (r : Nat) (f : Nat → DWord) : (s.writePairs l r f).ports = s.ports := rfl
@[simp] theorem State.writePairs_remoteOld (s : State) (l : List Nat) (r : Nat) (f : Nat → DWord) : (s.writePairs l r f).remoteOld = s.remoteOld := rfl
-- State.countMt.
@[simp] theorem State.countMt_schedule (s : State) (v i n : Nat) : (s.countMt v i n).schedule = s.schedule := rfl
@[simp] theorem State.countMt_cur (s : State) (v i n : Nat) : (s.countMt v i n).cur = s.cur := rfl
@[simp] theorem State.countMt_rotation (s : State) (v i n : Nat) : (s.countMt v i n).rotation = s.rotation := rfl
@[simp] theorem State.countMt_freeCount (s : State) (v i n : Nat) : (s.countMt v i n).freeCount = s.freeCount := rfl
@[simp] theorem State.countMt_nextTeam (s : State) (v i n : Nat) : (s.countMt v i n).nextTeam = s.nextTeam := rfl
@[simp] theorem State.countMt_nextCluster (s : State) (v i n : Nat) : (s.countMt v i n).nextCluster = s.nextCluster := rfl
@[simp] theorem State.countMt_nextLaunch (s : State) (v i n : Nat) : (s.countMt v i n).nextLaunch = s.nextLaunch := rfl
@[simp] theorem State.countMt_nextObject (s : State) (v i n : Nat) : (s.countMt v i n).nextObject = s.nextObject := rfl
@[simp] theorem State.countMt_nextEvent (s : State) (v i n : Nat) : (s.countMt v i n).nextEvent = s.nextEvent := rfl
@[simp] theorem State.countMt_nextRequest (s : State) (v i n : Nat) : (s.countMt v i n).nextRequest = s.nextRequest := rfl
@[simp] theorem State.countMt_tick (s : State) (v i n : Nat) : (s.countMt v i n).tick = s.tick := rfl
@[simp] theorem State.countMt_teams (s : State) (v i n : Nat) : (s.countMt v i n).teams = s.teams := rfl
@[simp] theorem State.countMt_clusters (s : State) (v i n : Nat) : (s.countMt v i n).clusters = s.clusters := rfl
@[simp] theorem State.countMt_launches (s : State) (v i n : Nat) : (s.countMt v i n).launches = s.launches := rfl
@[simp] theorem State.countMt_objects (s : State) (v i n : Nat) : (s.countMt v i n).objects = s.objects := rfl
@[simp] theorem State.countMt_cores (s : State) (v i n : Nat) : (s.countMt v i n).cores = s.cores := rfl
@[simp] theorem State.countMt_towers (s : State) (v i n : Nat) : (s.countMt v i n).towers = s.towers := rfl
@[simp] theorem State.countMt_columns (s : State) (v i n : Nat) : (s.countMt v i n).columns = s.columns := rfl
@[simp] theorem State.countMt_main (s : State) (v i n : Nat) : (s.countMt v i n).main = s.main := rfl
@[simp] theorem State.countMt_mainMeta (s : State) (v i n : Nat) : (s.countMt v i n).mainMeta = s.mainMeta := rfl
@[simp] theorem State.countMt_mainHist (s : State) (v i n : Nat) : (s.countMt v i n).mainHist = s.mainHist := rfl
@[simp] theorem State.countMt_mainReads (s : State) (v i n : Nat) : (s.countMt v i n).mainReads = s.mainReads := rfl
@[simp] theorem State.countMt_lineKeys (s : State) (v i n : Nat) : (s.countMt v i n).lineKeys = s.lineKeys := rfl
@[simp] theorem State.countMt_keys (s : State) (v i n : Nat) : (s.countMt v i n).keys = s.keys := rfl
@[simp] theorem State.countMt_floors (s : State) (v i n : Nat) : (s.countMt v i n).floors = s.floors := rfl
@[simp] theorem State.countMt_tier (s : State) (v i n : Nat) : (s.countMt v i n).tier = s.tier := rfl
@[simp] theorem State.countMt_badLines (s : State) (v i n : Nat) : (s.countMt v i n).badLines = s.badLines := rfl
@[simp] theorem State.countMt_banks (s : State) (v i n : Nat) : (s.countMt v i n).banks = s.banks := rfl
@[simp] theorem State.countMt_controls (s : State) (v i n : Nat) : (s.countMt v i n).controls = s.controls := rfl
@[simp] theorem State.countMt_partitions (s : State) (v i n : Nat) : (s.countMt v i n).partitions = s.partitions := rfl
@[simp] theorem State.countMt_boot (s : State) (v i n : Nat) : (s.countMt v i n).boot = s.boot := rfl
@[simp] theorem State.countMt_flash (s : State) (v i n : Nat) : (s.countMt v i n).flash = s.flash := rfl
@[simp] theorem State.countMt_seed (s : State) (v i n : Nat) : (s.countMt v i n).seed = s.seed := rfl
@[simp] theorem State.countMt_identity (s : State) (v i n : Nat) : (s.countMt v i n).identity = s.identity := rfl
@[simp] theorem State.countMt_rollback (s : State) (v i n : Nat) : (s.countMt v i n).rollback = s.rollback := rfl
@[simp] theorem State.countMt_attested (s : State) (v i n : Nat) : (s.countMt v i n).attested = s.attested := rfl
@[simp] theorem State.countMt_errorLog (s : State) (v i n : Nat) : (s.countMt v i n).errorLog = s.errorLog := rfl
@[simp] theorem State.countMt_escalations (s : State) (v i n : Nat) : (s.countMt v i n).escalations = s.escalations := rfl
@[simp] theorem State.countMt_module (s : State) (v i n : Nat) : (s.countMt v i n).module = s.module := rfl
@[simp] theorem State.countMt_peers (s : State) (v i n : Nat) : (s.countMt v i n).peers = s.peers := rfl
@[simp] theorem State.countMt_requests (s : State) (v i n : Nat) : (s.countMt v i n).requests = s.requests := rfl
@[simp] theorem State.countMt_routes (s : State) (v i n : Nat) : (s.countMt v i n).routes = s.routes := rfl
@[simp] theorem State.countMt_nextRoutes (s : State) (v i n : Nat) : (s.countMt v i n).nextRoutes = s.nextRoutes := rfl
@[simp] theorem State.countMt_epoch (s : State) (v i n : Nat) : (s.countMt v i n).epoch = s.epoch := rfl
@[simp] theorem State.countMt_switched (s : State) (v i n : Nat) : (s.countMt v i n).switched = s.switched := rfl
@[simp] theorem State.countMt_ports (s : State) (v i n : Nat) : (s.countMt v i n).ports = s.ports := rfl
@[simp] theorem State.countMt_remoteOld (s : State) (v i n : Nat) : (s.countMt v i n).remoteOld = s.remoteOld := rfl
-- State.writeKeyed.
@[simp] theorem State.writeKeyed_schedule (s : State) (k a : Nat) (b : Byte) : (s.writeKeyed k a b).schedule = s.schedule := rfl
@[simp] theorem State.writeKeyed_cur (s : State) (k a : Nat) (b : Byte) : (s.writeKeyed k a b).cur = s.cur := rfl
@[simp] theorem State.writeKeyed_rotation (s : State) (k a : Nat) (b : Byte) : (s.writeKeyed k a b).rotation = s.rotation := rfl
@[simp] theorem State.writeKeyed_freeCount (s : State) (k a : Nat) (b : Byte) : (s.writeKeyed k a b).freeCount = s.freeCount := rfl
@[simp] theorem State.writeKeyed_nextTeam (s : State) (k a : Nat) (b : Byte) : (s.writeKeyed k a b).nextTeam = s.nextTeam := rfl
@[simp] theorem State.writeKeyed_nextCluster (s : State) (k a : Nat) (b : Byte) : (s.writeKeyed k a b).nextCluster = s.nextCluster := rfl
@[simp] theorem State.writeKeyed_nextLaunch (s : State) (k a : Nat) (b : Byte) : (s.writeKeyed k a b).nextLaunch = s.nextLaunch := rfl
@[simp] theorem State.writeKeyed_nextObject (s : State) (k a : Nat) (b : Byte) : (s.writeKeyed k a b).nextObject = s.nextObject := rfl
@[simp] theorem State.writeKeyed_nextEvent (s : State) (k a : Nat) (b : Byte) : (s.writeKeyed k a b).nextEvent = s.nextEvent := rfl
@[simp] theorem State.writeKeyed_nextRequest (s : State) (k a : Nat) (b : Byte) : (s.writeKeyed k a b).nextRequest = s.nextRequest := rfl
@[simp] theorem State.writeKeyed_tick (s : State) (k a : Nat) (b : Byte) : (s.writeKeyed k a b).tick = s.tick := rfl
@[simp] theorem State.writeKeyed_teams (s : State) (k a : Nat) (b : Byte) : (s.writeKeyed k a b).teams = s.teams := rfl
@[simp] theorem State.writeKeyed_clusters (s : State) (k a : Nat) (b : Byte) : (s.writeKeyed k a b).clusters = s.clusters := rfl
@[simp] theorem State.writeKeyed_launches (s : State) (k a : Nat) (b : Byte) : (s.writeKeyed k a b).launches = s.launches := rfl
@[simp] theorem State.writeKeyed_objects (s : State) (k a : Nat) (b : Byte) : (s.writeKeyed k a b).objects = s.objects := rfl
@[simp] theorem State.writeKeyed_cores (s : State) (k a : Nat) (b : Byte) : (s.writeKeyed k a b).cores = s.cores := rfl
@[simp] theorem State.writeKeyed_towers (s : State) (k a : Nat) (b : Byte) : (s.writeKeyed k a b).towers = s.towers := rfl
@[simp] theorem State.writeKeyed_columns (s : State) (k a : Nat) (b : Byte) : (s.writeKeyed k a b).columns = s.columns := rfl
@[simp] theorem State.writeKeyed_mainMeta (s : State) (k a : Nat) (b : Byte) : (s.writeKeyed k a b).mainMeta = s.mainMeta := rfl
@[simp] theorem State.writeKeyed_mainHist (s : State) (k a : Nat) (b : Byte) : (s.writeKeyed k a b).mainHist = s.mainHist := rfl
@[simp] theorem State.writeKeyed_mainReads (s : State) (k a : Nat) (b : Byte) : (s.writeKeyed k a b).mainReads = s.mainReads := rfl
@[simp] theorem State.writeKeyed_keys (s : State) (k a : Nat) (b : Byte) : (s.writeKeyed k a b).keys = s.keys := rfl
@[simp] theorem State.writeKeyed_floors (s : State) (k a : Nat) (b : Byte) : (s.writeKeyed k a b).floors = s.floors := rfl
@[simp] theorem State.writeKeyed_tier (s : State) (k a : Nat) (b : Byte) : (s.writeKeyed k a b).tier = s.tier := rfl
@[simp] theorem State.writeKeyed_badLines (s : State) (k a : Nat) (b : Byte) : (s.writeKeyed k a b).badLines = s.badLines := rfl
@[simp] theorem State.writeKeyed_banks (s : State) (k a : Nat) (b : Byte) : (s.writeKeyed k a b).banks = s.banks := rfl
@[simp] theorem State.writeKeyed_vis (s : State) (k a : Nat) (b : Byte) : (s.writeKeyed k a b).vis = s.vis := rfl
@[simp] theorem State.writeKeyed_controls (s : State) (k a : Nat) (b : Byte) : (s.writeKeyed k a b).controls = s.controls := rfl
@[simp] theorem State.writeKeyed_partitions (s : State) (k a : Nat) (b : Byte) : (s.writeKeyed k a b).partitions = s.partitions := rfl
@[simp] theorem State.writeKeyed_boot (s : State) (k a : Nat) (b : Byte) : (s.writeKeyed k a b).boot = s.boot := rfl
@[simp] theorem State.writeKeyed_flash (s : State) (k a : Nat) (b : Byte) : (s.writeKeyed k a b).flash = s.flash := rfl
@[simp] theorem State.writeKeyed_seed (s : State) (k a : Nat) (b : Byte) : (s.writeKeyed k a b).seed = s.seed := rfl
@[simp] theorem State.writeKeyed_identity (s : State) (k a : Nat) (b : Byte) : (s.writeKeyed k a b).identity = s.identity := rfl
@[simp] theorem State.writeKeyed_rollback (s : State) (k a : Nat) (b : Byte) : (s.writeKeyed k a b).rollback = s.rollback := rfl
@[simp] theorem State.writeKeyed_attested (s : State) (k a : Nat) (b : Byte) : (s.writeKeyed k a b).attested = s.attested := rfl
@[simp] theorem State.writeKeyed_errorLog (s : State) (k a : Nat) (b : Byte) : (s.writeKeyed k a b).errorLog = s.errorLog := rfl
@[simp] theorem State.writeKeyed_escalations (s : State) (k a : Nat) (b : Byte) : (s.writeKeyed k a b).escalations = s.escalations := rfl
@[simp] theorem State.writeKeyed_module (s : State) (k a : Nat) (b : Byte) : (s.writeKeyed k a b).module = s.module := rfl
@[simp] theorem State.writeKeyed_peers (s : State) (k a : Nat) (b : Byte) : (s.writeKeyed k a b).peers = s.peers := rfl
@[simp] theorem State.writeKeyed_requests (s : State) (k a : Nat) (b : Byte) : (s.writeKeyed k a b).requests = s.requests := rfl
@[simp] theorem State.writeKeyed_routes (s : State) (k a : Nat) (b : Byte) : (s.writeKeyed k a b).routes = s.routes := rfl
@[simp] theorem State.writeKeyed_nextRoutes (s : State) (k a : Nat) (b : Byte) : (s.writeKeyed k a b).nextRoutes = s.nextRoutes := rfl
@[simp] theorem State.writeKeyed_epoch (s : State) (k a : Nat) (b : Byte) : (s.writeKeyed k a b).epoch = s.epoch := rfl
@[simp] theorem State.writeKeyed_switched (s : State) (k a : Nat) (b : Byte) : (s.writeKeyed k a b).switched = s.switched := rfl
@[simp] theorem State.writeKeyed_ports (s : State) (k a : Nat) (b : Byte) : (s.writeKeyed k a b).ports = s.ports := rfl
@[simp] theorem State.writeKeyed_remoteOld (s : State) (k a : Nat) (b : Byte) : (s.writeKeyed k a b).remoteOld = s.remoteOld := rfl
-- Team.setGroup.
@[simp] theorem Team.setGroup_launch (t : Team) (g : Nat) (x : Group) : (t.setGroup g x).launch = t.launch := rfl
@[simp] theorem Team.setGroup_node (t : Team) (g : Nat) (x : Group) : (t.setGroup g x).node = t.node := rfl
@[simp] theorem Team.setGroup_index (t : Team) (g : Nat) (x : Group) : (t.setGroup g x).index = t.index := rfl
@[simp] theorem Team.setGroup_gen (t : Team) (g : Nat) (x : Group) : (t.setGroup g x).gen = t.gen := rfl
@[simp] theorem Team.setGroup_groupsN (t : Team) (g : Nat) (x : Group) : (t.setGroup g x).groupsN = t.groupsN := rfl
@[simp] theorem Team.setGroup_lanesN (t : Team) (g : Nat) (x : Group) : (t.setGroup g x).lanesN = t.lanesN := rfl
@[simp] theorem Team.setGroup_cluster (t : Team) (g : Nat) (x : Group) : (t.setGroup g x).cluster = t.cluster := rfl
@[simp] theorem Team.setGroup_position (t : Team) (g : Nat) (x : Group) : (t.setGroup g x).position = t.position := rfl
@[simp] theorem Team.setGroup_ctxSlot (t : Team) (g : Nat) (x : Group) : (t.setGroup g x).ctxSlot = t.ctxSlot := rfl
@[simp] theorem Team.setGroup_status (t : Team) (g : Nat) (x : Group) : (t.setGroup g x).status = t.status := rfl
@[simp] theorem Team.setGroup_core (t : Team) (g : Nat) (x : Group) : (t.setGroup g x).core = t.core := rfl
@[simp] theorem Team.setGroup_logical (t : Team) (g : Nat) (x : Group) : (t.setGroup g x).logical = t.logical := rfl
@[simp] theorem Team.setGroup_teamSlot (t : Team) (g : Nat) (x : Group) : (t.setGroup g x).teamSlot = t.teamSlot := rfl
@[simp] theorem Team.setGroup_since (t : Team) (g : Nat) (x : Group) : (t.setGroup g x).since = t.since := rfl
@[simp] theorem Team.setGroup_evictedAt (t : Team) (g : Nat) (x : Group) : (t.setGroup g x).evictedAt = t.evictedAt := rfl
@[simp] theorem Team.setGroup_held (t : Team) (g : Nat) (x : Group) : (t.setGroup g x).held = t.held := rfl
@[simp] theorem Team.setGroup_preempt (t : Team) (g : Nat) (x : Group) : (t.setGroup g x).preempt = t.preempt := rfl
@[simp] theorem Team.setGroup_linesSaved (t : Team) (g : Nat) (x : Group) : (t.setGroup g x).linesSaved = t.linesSaved := rfl
@[simp] theorem Team.setGroup_sharedSaved (t : Team) (g : Nat) (x : Group) : (t.setGroup g x).sharedSaved = t.sharedSaved := rfl
@[simp] theorem Team.setGroup_writeBack (t : Team) (g : Nat) (x : Group) : (t.setGroup g x).writeBack = t.writeBack := rfl
@[simp] theorem Team.setGroup_poolAt (t : Team) (g : Nat) (x : Group) : (t.setGroup g x).poolAt = t.poolAt := rfl
@[simp] theorem Team.setGroup_escalated (t : Team) (g : Nat) (x : Group) : (t.setGroup g x).escalated = t.escalated := rfl
@[simp] theorem Team.setGroup_agents (t : Team) (g : Nat) (x : Group) : (t.setGroup g x).agents = t.agents := rfl
@[simp] theorem Team.setGroup_nextAgent (t : Team) (g : Nat) (x : Group) : (t.setGroup g x).nextAgent = t.nextAgent := rfl
@[simp] theorem Team.setGroup_layouts (t : Team) (g : Nat) (x : Group) : (t.setGroup g x).layouts = t.layouts := rfl
@[simp] theorem Team.setGroup_caches (t : Team) (g : Nat) (x : Group) : (t.setGroup g x).caches = t.caches := rfl
@[simp] theorem Team.setGroup_lrecs (t : Team) (g : Nat) (x : Group) : (t.setGroup g x).lrecs = t.lrecs := rfl
@[simp] theorem Team.setGroup_handles (t : Team) (g : Nat) (x : Group) : (t.setGroup g x).handles = t.handles := rfl
@[simp] theorem Team.setGroup_rdvs (t : Team) (g : Nat) (x : Group) : (t.setGroup g x).rdvs = t.rdvs := rfl
@[simp] theorem Team.setGroup_regions (t : Team) (g : Nat) (x : Group) : (t.setGroup g x).regions = t.regions := rfl
@[simp] theorem Team.setGroup_sharedSize (t : Team) (g : Nat) (x : Group) : (t.setGroup g x).sharedSize = t.sharedSize := rfl
@[simp] theorem Team.setGroup_shared (t : Team) (g : Nat) (x : Group) : (t.setGroup g x).shared = t.shared := rfl
@[simp] theorem Team.setGroup_full (t : Team) (g : Nat) (x : Group) : (t.setGroup g x).full = t.full := rfl
@[simp] theorem Team.setGroup_metas (t : Team) (g : Nat) (x : Group) : (t.setGroup g x).metas = t.metas := rfl
@[simp] theorem Team.setGroup_hist (t : Team) (g : Nat) (x : Group) : (t.setGroup g x).hist = t.hist := rfl
@[simp] theorem Team.setGroup_reads (t : Team) (g : Nat) (x : Group) : (t.setGroup g x).reads = t.reads := rfl
@[simp] theorem Team.setGroup_copies (t : Team) (g : Nat) (x : Group) : (t.setGroup g x).copies = t.copies := rfl
@[simp] theorem Team.setGroup_nextCopy (t : Team) (g : Nat) (x : Group) : (t.setGroup g x).nextCopy = t.nextCopy := rfl
@[simp] theorem Team.setGroup_done (t : Team) (g : Nat) (x : Group) : (t.setGroup g x).done = t.done := rfl
@[simp] theorem Team.setGroup_store (t : Team) (g : Nat) (x : Group) : (t.setGroup g x).store = t.store := rfl
@[simp] theorem Team.setGroup_lost (t : Team) (g : Nat) (x : Group) : (t.setGroup g x).lost = t.lost := rfl
@[simp] theorem Team.setGroup_cmds (t : Team) (g : Nat) (x : Group) : (t.setGroup g x).cmds = t.cmds := rfl
@[simp] theorem Team.setGroup_latches (t : Team) (g : Nat) (x : Group) : (t.setGroup g x).latches = t.latches := rfl
@[simp] theorem Team.setGroup_tclock (t : Team) (g : Nat) (x : Group) : (t.setGroup g x).tclock = t.tclock := rfl
@[simp] theorem Team.setGroup_tvec (t : Team) (g : Nat) (x : Group) : (t.setGroup g x).tvec = t.tvec := rfl
@[simp] theorem Team.setGroup_modvec (t : Team) (g : Nat) (x : Group) : (t.setGroup g x).modvec = t.modvec := rfl
@[simp] theorem Team.setGroup_version (t : Team) (g : Nat) (x : Group) : (t.setGroup g x).version = t.version := rfl
-- Team.modGroup.
@[simp] theorem Team.modGroup_launch (t : Team) (g : Nat) (f : Group → Group) : (t.modGroup g f).launch = t.launch := rfl
@[simp] theorem Team.modGroup_node (t : Team) (g : Nat) (f : Group → Group) : (t.modGroup g f).node = t.node := rfl
@[simp] theorem Team.modGroup_index (t : Team) (g : Nat) (f : Group → Group) : (t.modGroup g f).index = t.index := rfl
@[simp] theorem Team.modGroup_gen (t : Team) (g : Nat) (f : Group → Group) : (t.modGroup g f).gen = t.gen := rfl
@[simp] theorem Team.modGroup_groupsN (t : Team) (g : Nat) (f : Group → Group) : (t.modGroup g f).groupsN = t.groupsN := rfl
@[simp] theorem Team.modGroup_lanesN (t : Team) (g : Nat) (f : Group → Group) : (t.modGroup g f).lanesN = t.lanesN := rfl
@[simp] theorem Team.modGroup_cluster (t : Team) (g : Nat) (f : Group → Group) : (t.modGroup g f).cluster = t.cluster := rfl
@[simp] theorem Team.modGroup_position (t : Team) (g : Nat) (f : Group → Group) : (t.modGroup g f).position = t.position := rfl
@[simp] theorem Team.modGroup_ctxSlot (t : Team) (g : Nat) (f : Group → Group) : (t.modGroup g f).ctxSlot = t.ctxSlot := rfl
@[simp] theorem Team.modGroup_status (t : Team) (g : Nat) (f : Group → Group) : (t.modGroup g f).status = t.status := rfl
@[simp] theorem Team.modGroup_core (t : Team) (g : Nat) (f : Group → Group) : (t.modGroup g f).core = t.core := rfl
@[simp] theorem Team.modGroup_logical (t : Team) (g : Nat) (f : Group → Group) : (t.modGroup g f).logical = t.logical := rfl
@[simp] theorem Team.modGroup_teamSlot (t : Team) (g : Nat) (f : Group → Group) : (t.modGroup g f).teamSlot = t.teamSlot := rfl
@[simp] theorem Team.modGroup_since (t : Team) (g : Nat) (f : Group → Group) : (t.modGroup g f).since = t.since := rfl
@[simp] theorem Team.modGroup_evictedAt (t : Team) (g : Nat) (f : Group → Group) : (t.modGroup g f).evictedAt = t.evictedAt := rfl
@[simp] theorem Team.modGroup_held (t : Team) (g : Nat) (f : Group → Group) : (t.modGroup g f).held = t.held := rfl
@[simp] theorem Team.modGroup_preempt (t : Team) (g : Nat) (f : Group → Group) : (t.modGroup g f).preempt = t.preempt := rfl
@[simp] theorem Team.modGroup_linesSaved (t : Team) (g : Nat) (f : Group → Group) : (t.modGroup g f).linesSaved = t.linesSaved := rfl
@[simp] theorem Team.modGroup_sharedSaved (t : Team) (g : Nat) (f : Group → Group) : (t.modGroup g f).sharedSaved = t.sharedSaved := rfl
@[simp] theorem Team.modGroup_writeBack (t : Team) (g : Nat) (f : Group → Group) : (t.modGroup g f).writeBack = t.writeBack := rfl
@[simp] theorem Team.modGroup_poolAt (t : Team) (g : Nat) (f : Group → Group) : (t.modGroup g f).poolAt = t.poolAt := rfl
@[simp] theorem Team.modGroup_escalated (t : Team) (g : Nat) (f : Group → Group) : (t.modGroup g f).escalated = t.escalated := rfl
@[simp] theorem Team.modGroup_agents (t : Team) (g : Nat) (f : Group → Group) : (t.modGroup g f).agents = t.agents := rfl
@[simp] theorem Team.modGroup_nextAgent (t : Team) (g : Nat) (f : Group → Group) : (t.modGroup g f).nextAgent = t.nextAgent := rfl
@[simp] theorem Team.modGroup_layouts (t : Team) (g : Nat) (f : Group → Group) : (t.modGroup g f).layouts = t.layouts := rfl
@[simp] theorem Team.modGroup_caches (t : Team) (g : Nat) (f : Group → Group) : (t.modGroup g f).caches = t.caches := rfl
@[simp] theorem Team.modGroup_lrecs (t : Team) (g : Nat) (f : Group → Group) : (t.modGroup g f).lrecs = t.lrecs := rfl
@[simp] theorem Team.modGroup_handles (t : Team) (g : Nat) (f : Group → Group) : (t.modGroup g f).handles = t.handles := rfl
@[simp] theorem Team.modGroup_rdvs (t : Team) (g : Nat) (f : Group → Group) : (t.modGroup g f).rdvs = t.rdvs := rfl
@[simp] theorem Team.modGroup_regions (t : Team) (g : Nat) (f : Group → Group) : (t.modGroup g f).regions = t.regions := rfl
@[simp] theorem Team.modGroup_sharedSize (t : Team) (g : Nat) (f : Group → Group) : (t.modGroup g f).sharedSize = t.sharedSize := rfl
@[simp] theorem Team.modGroup_shared (t : Team) (g : Nat) (f : Group → Group) : (t.modGroup g f).shared = t.shared := rfl
@[simp] theorem Team.modGroup_full (t : Team) (g : Nat) (f : Group → Group) : (t.modGroup g f).full = t.full := rfl
@[simp] theorem Team.modGroup_metas (t : Team) (g : Nat) (f : Group → Group) : (t.modGroup g f).metas = t.metas := rfl
@[simp] theorem Team.modGroup_hist (t : Team) (g : Nat) (f : Group → Group) : (t.modGroup g f).hist = t.hist := rfl
@[simp] theorem Team.modGroup_reads (t : Team) (g : Nat) (f : Group → Group) : (t.modGroup g f).reads = t.reads := rfl
@[simp] theorem Team.modGroup_copies (t : Team) (g : Nat) (f : Group → Group) : (t.modGroup g f).copies = t.copies := rfl
@[simp] theorem Team.modGroup_nextCopy (t : Team) (g : Nat) (f : Group → Group) : (t.modGroup g f).nextCopy = t.nextCopy := rfl
@[simp] theorem Team.modGroup_done (t : Team) (g : Nat) (f : Group → Group) : (t.modGroup g f).done = t.done := rfl
@[simp] theorem Team.modGroup_store (t : Team) (g : Nat) (f : Group → Group) : (t.modGroup g f).store = t.store := rfl
@[simp] theorem Team.modGroup_lost (t : Team) (g : Nat) (f : Group → Group) : (t.modGroup g f).lost = t.lost := rfl
@[simp] theorem Team.modGroup_cmds (t : Team) (g : Nat) (f : Group → Group) : (t.modGroup g f).cmds = t.cmds := rfl
@[simp] theorem Team.modGroup_latches (t : Team) (g : Nat) (f : Group → Group) : (t.modGroup g f).latches = t.latches := rfl
@[simp] theorem Team.modGroup_tclock (t : Team) (g : Nat) (f : Group → Group) : (t.modGroup g f).tclock = t.tclock := rfl
@[simp] theorem Team.modGroup_tvec (t : Team) (g : Nat) (f : Group → Group) : (t.modGroup g f).tvec = t.tvec := rfl
@[simp] theorem Team.modGroup_modvec (t : Team) (g : Nat) (f : Group → Group) : (t.modGroup g f).modvec = t.modvec := rfl
@[simp] theorem Team.modGroup_version (t : Team) (g : Nat) (f : Group → Group) : (t.modGroup g f).version = t.version := rfl
-- Team.setAgent.
@[simp] theorem Team.setAgent_launch (t : Team) (a : Nat) (x : Agent) : (t.setAgent a x).launch = t.launch := rfl
@[simp] theorem Team.setAgent_node (t : Team) (a : Nat) (x : Agent) : (t.setAgent a x).node = t.node := rfl
@[simp] theorem Team.setAgent_index (t : Team) (a : Nat) (x : Agent) : (t.setAgent a x).index = t.index := rfl
@[simp] theorem Team.setAgent_gen (t : Team) (a : Nat) (x : Agent) : (t.setAgent a x).gen = t.gen := rfl
@[simp] theorem Team.setAgent_groupsN (t : Team) (a : Nat) (x : Agent) : (t.setAgent a x).groupsN = t.groupsN := rfl
@[simp] theorem Team.setAgent_lanesN (t : Team) (a : Nat) (x : Agent) : (t.setAgent a x).lanesN = t.lanesN := rfl
@[simp] theorem Team.setAgent_cluster (t : Team) (a : Nat) (x : Agent) : (t.setAgent a x).cluster = t.cluster := rfl
@[simp] theorem Team.setAgent_position (t : Team) (a : Nat) (x : Agent) : (t.setAgent a x).position = t.position := rfl
@[simp] theorem Team.setAgent_ctxSlot (t : Team) (a : Nat) (x : Agent) : (t.setAgent a x).ctxSlot = t.ctxSlot := rfl
@[simp] theorem Team.setAgent_status (t : Team) (a : Nat) (x : Agent) : (t.setAgent a x).status = t.status := rfl
@[simp] theorem Team.setAgent_core (t : Team) (a : Nat) (x : Agent) : (t.setAgent a x).core = t.core := rfl
@[simp] theorem Team.setAgent_logical (t : Team) (a : Nat) (x : Agent) : (t.setAgent a x).logical = t.logical := rfl
@[simp] theorem Team.setAgent_teamSlot (t : Team) (a : Nat) (x : Agent) : (t.setAgent a x).teamSlot = t.teamSlot := rfl
@[simp] theorem Team.setAgent_since (t : Team) (a : Nat) (x : Agent) : (t.setAgent a x).since = t.since := rfl
@[simp] theorem Team.setAgent_evictedAt (t : Team) (a : Nat) (x : Agent) : (t.setAgent a x).evictedAt = t.evictedAt := rfl
@[simp] theorem Team.setAgent_held (t : Team) (a : Nat) (x : Agent) : (t.setAgent a x).held = t.held := rfl
@[simp] theorem Team.setAgent_preempt (t : Team) (a : Nat) (x : Agent) : (t.setAgent a x).preempt = t.preempt := rfl
@[simp] theorem Team.setAgent_linesSaved (t : Team) (a : Nat) (x : Agent) : (t.setAgent a x).linesSaved = t.linesSaved := rfl
@[simp] theorem Team.setAgent_sharedSaved (t : Team) (a : Nat) (x : Agent) : (t.setAgent a x).sharedSaved = t.sharedSaved := rfl
@[simp] theorem Team.setAgent_writeBack (t : Team) (a : Nat) (x : Agent) : (t.setAgent a x).writeBack = t.writeBack := rfl
@[simp] theorem Team.setAgent_poolAt (t : Team) (a : Nat) (x : Agent) : (t.setAgent a x).poolAt = t.poolAt := rfl
@[simp] theorem Team.setAgent_escalated (t : Team) (a : Nat) (x : Agent) : (t.setAgent a x).escalated = t.escalated := rfl
@[simp] theorem Team.setAgent_groups (t : Team) (a : Nat) (x : Agent) : (t.setAgent a x).groups = t.groups := rfl
@[simp] theorem Team.setAgent_nextAgent (t : Team) (a : Nat) (x : Agent) : (t.setAgent a x).nextAgent = t.nextAgent := rfl
@[simp] theorem Team.setAgent_layouts (t : Team) (a : Nat) (x : Agent) : (t.setAgent a x).layouts = t.layouts := rfl
@[simp] theorem Team.setAgent_caches (t : Team) (a : Nat) (x : Agent) : (t.setAgent a x).caches = t.caches := rfl
@[simp] theorem Team.setAgent_lrecs (t : Team) (a : Nat) (x : Agent) : (t.setAgent a x).lrecs = t.lrecs := rfl
@[simp] theorem Team.setAgent_handles (t : Team) (a : Nat) (x : Agent) : (t.setAgent a x).handles = t.handles := rfl
@[simp] theorem Team.setAgent_rdvs (t : Team) (a : Nat) (x : Agent) : (t.setAgent a x).rdvs = t.rdvs := rfl
@[simp] theorem Team.setAgent_regions (t : Team) (a : Nat) (x : Agent) : (t.setAgent a x).regions = t.regions := rfl
@[simp] theorem Team.setAgent_sharedSize (t : Team) (a : Nat) (x : Agent) : (t.setAgent a x).sharedSize = t.sharedSize := rfl
@[simp] theorem Team.setAgent_shared (t : Team) (a : Nat) (x : Agent) : (t.setAgent a x).shared = t.shared := rfl
@[simp] theorem Team.setAgent_full (t : Team) (a : Nat) (x : Agent) : (t.setAgent a x).full = t.full := rfl
@[simp] theorem Team.setAgent_metas (t : Team) (a : Nat) (x : Agent) : (t.setAgent a x).metas = t.metas := rfl
@[simp] theorem Team.setAgent_hist (t : Team) (a : Nat) (x : Agent) : (t.setAgent a x).hist = t.hist := rfl
@[simp] theorem Team.setAgent_reads (t : Team) (a : Nat) (x : Agent) : (t.setAgent a x).reads = t.reads := rfl
@[simp] theorem Team.setAgent_copies (t : Team) (a : Nat) (x : Agent) : (t.setAgent a x).copies = t.copies := rfl
@[simp] theorem Team.setAgent_nextCopy (t : Team) (a : Nat) (x : Agent) : (t.setAgent a x).nextCopy = t.nextCopy := rfl
@[simp] theorem Team.setAgent_done (t : Team) (a : Nat) (x : Agent) : (t.setAgent a x).done = t.done := rfl
@[simp] theorem Team.setAgent_store (t : Team) (a : Nat) (x : Agent) : (t.setAgent a x).store = t.store := rfl
@[simp] theorem Team.setAgent_lost (t : Team) (a : Nat) (x : Agent) : (t.setAgent a x).lost = t.lost := rfl
@[simp] theorem Team.setAgent_cmds (t : Team) (a : Nat) (x : Agent) : (t.setAgent a x).cmds = t.cmds := rfl
@[simp] theorem Team.setAgent_latches (t : Team) (a : Nat) (x : Agent) : (t.setAgent a x).latches = t.latches := rfl
@[simp] theorem Team.setAgent_tclock (t : Team) (a : Nat) (x : Agent) : (t.setAgent a x).tclock = t.tclock := rfl
@[simp] theorem Team.setAgent_tvec (t : Team) (a : Nat) (x : Agent) : (t.setAgent a x).tvec = t.tvec := rfl
@[simp] theorem Team.setAgent_modvec (t : Team) (a : Nat) (x : Agent) : (t.setAgent a x).modvec = t.modvec := rfl
@[simp] theorem Team.setAgent_version (t : Team) (a : Nat) (x : Agent) : (t.setAgent a x).version = t.version := rfl
-- Team.modAgent.
@[simp] theorem Team.modAgent_launch (t : Team) (a : Nat) (f : Agent → Agent) : (t.modAgent a f).launch = t.launch := rfl
@[simp] theorem Team.modAgent_node (t : Team) (a : Nat) (f : Agent → Agent) : (t.modAgent a f).node = t.node := rfl
@[simp] theorem Team.modAgent_index (t : Team) (a : Nat) (f : Agent → Agent) : (t.modAgent a f).index = t.index := rfl
@[simp] theorem Team.modAgent_gen (t : Team) (a : Nat) (f : Agent → Agent) : (t.modAgent a f).gen = t.gen := rfl
@[simp] theorem Team.modAgent_groupsN (t : Team) (a : Nat) (f : Agent → Agent) : (t.modAgent a f).groupsN = t.groupsN := rfl
@[simp] theorem Team.modAgent_lanesN (t : Team) (a : Nat) (f : Agent → Agent) : (t.modAgent a f).lanesN = t.lanesN := rfl
@[simp] theorem Team.modAgent_cluster (t : Team) (a : Nat) (f : Agent → Agent) : (t.modAgent a f).cluster = t.cluster := rfl
@[simp] theorem Team.modAgent_position (t : Team) (a : Nat) (f : Agent → Agent) : (t.modAgent a f).position = t.position := rfl
@[simp] theorem Team.modAgent_ctxSlot (t : Team) (a : Nat) (f : Agent → Agent) : (t.modAgent a f).ctxSlot = t.ctxSlot := rfl
@[simp] theorem Team.modAgent_status (t : Team) (a : Nat) (f : Agent → Agent) : (t.modAgent a f).status = t.status := rfl
@[simp] theorem Team.modAgent_core (t : Team) (a : Nat) (f : Agent → Agent) : (t.modAgent a f).core = t.core := rfl
@[simp] theorem Team.modAgent_logical (t : Team) (a : Nat) (f : Agent → Agent) : (t.modAgent a f).logical = t.logical := rfl
@[simp] theorem Team.modAgent_teamSlot (t : Team) (a : Nat) (f : Agent → Agent) : (t.modAgent a f).teamSlot = t.teamSlot := rfl
@[simp] theorem Team.modAgent_since (t : Team) (a : Nat) (f : Agent → Agent) : (t.modAgent a f).since = t.since := rfl
@[simp] theorem Team.modAgent_evictedAt (t : Team) (a : Nat) (f : Agent → Agent) : (t.modAgent a f).evictedAt = t.evictedAt := rfl
@[simp] theorem Team.modAgent_held (t : Team) (a : Nat) (f : Agent → Agent) : (t.modAgent a f).held = t.held := rfl
@[simp] theorem Team.modAgent_preempt (t : Team) (a : Nat) (f : Agent → Agent) : (t.modAgent a f).preempt = t.preempt := rfl
@[simp] theorem Team.modAgent_linesSaved (t : Team) (a : Nat) (f : Agent → Agent) : (t.modAgent a f).linesSaved = t.linesSaved := rfl
@[simp] theorem Team.modAgent_sharedSaved (t : Team) (a : Nat) (f : Agent → Agent) : (t.modAgent a f).sharedSaved = t.sharedSaved := rfl
@[simp] theorem Team.modAgent_writeBack (t : Team) (a : Nat) (f : Agent → Agent) : (t.modAgent a f).writeBack = t.writeBack := rfl
@[simp] theorem Team.modAgent_poolAt (t : Team) (a : Nat) (f : Agent → Agent) : (t.modAgent a f).poolAt = t.poolAt := rfl
@[simp] theorem Team.modAgent_escalated (t : Team) (a : Nat) (f : Agent → Agent) : (t.modAgent a f).escalated = t.escalated := rfl
@[simp] theorem Team.modAgent_groups (t : Team) (a : Nat) (f : Agent → Agent) : (t.modAgent a f).groups = t.groups := rfl
@[simp] theorem Team.modAgent_nextAgent (t : Team) (a : Nat) (f : Agent → Agent) : (t.modAgent a f).nextAgent = t.nextAgent := rfl
@[simp] theorem Team.modAgent_layouts (t : Team) (a : Nat) (f : Agent → Agent) : (t.modAgent a f).layouts = t.layouts := rfl
@[simp] theorem Team.modAgent_caches (t : Team) (a : Nat) (f : Agent → Agent) : (t.modAgent a f).caches = t.caches := rfl
@[simp] theorem Team.modAgent_lrecs (t : Team) (a : Nat) (f : Agent → Agent) : (t.modAgent a f).lrecs = t.lrecs := rfl
@[simp] theorem Team.modAgent_handles (t : Team) (a : Nat) (f : Agent → Agent) : (t.modAgent a f).handles = t.handles := rfl
@[simp] theorem Team.modAgent_rdvs (t : Team) (a : Nat) (f : Agent → Agent) : (t.modAgent a f).rdvs = t.rdvs := rfl
@[simp] theorem Team.modAgent_regions (t : Team) (a : Nat) (f : Agent → Agent) : (t.modAgent a f).regions = t.regions := rfl
@[simp] theorem Team.modAgent_sharedSize (t : Team) (a : Nat) (f : Agent → Agent) : (t.modAgent a f).sharedSize = t.sharedSize := rfl
@[simp] theorem Team.modAgent_shared (t : Team) (a : Nat) (f : Agent → Agent) : (t.modAgent a f).shared = t.shared := rfl
@[simp] theorem Team.modAgent_full (t : Team) (a : Nat) (f : Agent → Agent) : (t.modAgent a f).full = t.full := rfl
@[simp] theorem Team.modAgent_metas (t : Team) (a : Nat) (f : Agent → Agent) : (t.modAgent a f).metas = t.metas := rfl
@[simp] theorem Team.modAgent_hist (t : Team) (a : Nat) (f : Agent → Agent) : (t.modAgent a f).hist = t.hist := rfl
@[simp] theorem Team.modAgent_reads (t : Team) (a : Nat) (f : Agent → Agent) : (t.modAgent a f).reads = t.reads := rfl
@[simp] theorem Team.modAgent_copies (t : Team) (a : Nat) (f : Agent → Agent) : (t.modAgent a f).copies = t.copies := rfl
@[simp] theorem Team.modAgent_nextCopy (t : Team) (a : Nat) (f : Agent → Agent) : (t.modAgent a f).nextCopy = t.nextCopy := rfl
@[simp] theorem Team.modAgent_done (t : Team) (a : Nat) (f : Agent → Agent) : (t.modAgent a f).done = t.done := rfl
@[simp] theorem Team.modAgent_store (t : Team) (a : Nat) (f : Agent → Agent) : (t.modAgent a f).store = t.store := rfl
@[simp] theorem Team.modAgent_lost (t : Team) (a : Nat) (f : Agent → Agent) : (t.modAgent a f).lost = t.lost := rfl
@[simp] theorem Team.modAgent_cmds (t : Team) (a : Nat) (f : Agent → Agent) : (t.modAgent a f).cmds = t.cmds := rfl
@[simp] theorem Team.modAgent_latches (t : Team) (a : Nat) (f : Agent → Agent) : (t.modAgent a f).latches = t.latches := rfl
@[simp] theorem Team.modAgent_tclock (t : Team) (a : Nat) (f : Agent → Agent) : (t.modAgent a f).tclock = t.tclock := rfl
@[simp] theorem Team.modAgent_tvec (t : Team) (a : Nat) (f : Agent → Agent) : (t.modAgent a f).tvec = t.tvec := rfl
@[simp] theorem Team.modAgent_modvec (t : Team) (a : Nat) (f : Agent → Agent) : (t.modAgent a f).modvec = t.modvec := rfl
@[simp] theorem Team.modAgent_version (t : Team) (a : Nat) (f : Agent → Agent) : (t.modAgent a f).version = t.version := rfl
-- Team.setVreg.
@[simp] theorem Team.setVreg_launch (t : Team) (l r : Nat) (x : Word) : (t.setVreg l r x).launch = t.launch := rfl
@[simp] theorem Team.setVreg_node (t : Team) (l r : Nat) (x : Word) : (t.setVreg l r x).node = t.node := rfl
@[simp] theorem Team.setVreg_index (t : Team) (l r : Nat) (x : Word) : (t.setVreg l r x).index = t.index := rfl
@[simp] theorem Team.setVreg_gen (t : Team) (l r : Nat) (x : Word) : (t.setVreg l r x).gen = t.gen := rfl
@[simp] theorem Team.setVreg_groupsN (t : Team) (l r : Nat) (x : Word) : (t.setVreg l r x).groupsN = t.groupsN := rfl
@[simp] theorem Team.setVreg_lanesN (t : Team) (l r : Nat) (x : Word) : (t.setVreg l r x).lanesN = t.lanesN := rfl
@[simp] theorem Team.setVreg_cluster (t : Team) (l r : Nat) (x : Word) : (t.setVreg l r x).cluster = t.cluster := rfl
@[simp] theorem Team.setVreg_position (t : Team) (l r : Nat) (x : Word) : (t.setVreg l r x).position = t.position := rfl
@[simp] theorem Team.setVreg_ctxSlot (t : Team) (l r : Nat) (x : Word) : (t.setVreg l r x).ctxSlot = t.ctxSlot := rfl
@[simp] theorem Team.setVreg_status (t : Team) (l r : Nat) (x : Word) : (t.setVreg l r x).status = t.status := rfl
@[simp] theorem Team.setVreg_core (t : Team) (l r : Nat) (x : Word) : (t.setVreg l r x).core = t.core := rfl
@[simp] theorem Team.setVreg_logical (t : Team) (l r : Nat) (x : Word) : (t.setVreg l r x).logical = t.logical := rfl
@[simp] theorem Team.setVreg_teamSlot (t : Team) (l r : Nat) (x : Word) : (t.setVreg l r x).teamSlot = t.teamSlot := rfl
@[simp] theorem Team.setVreg_since (t : Team) (l r : Nat) (x : Word) : (t.setVreg l r x).since = t.since := rfl
@[simp] theorem Team.setVreg_evictedAt (t : Team) (l r : Nat) (x : Word) : (t.setVreg l r x).evictedAt = t.evictedAt := rfl
@[simp] theorem Team.setVreg_held (t : Team) (l r : Nat) (x : Word) : (t.setVreg l r x).held = t.held := rfl
@[simp] theorem Team.setVreg_preempt (t : Team) (l r : Nat) (x : Word) : (t.setVreg l r x).preempt = t.preempt := rfl
@[simp] theorem Team.setVreg_linesSaved (t : Team) (l r : Nat) (x : Word) : (t.setVreg l r x).linesSaved = t.linesSaved := rfl
@[simp] theorem Team.setVreg_sharedSaved (t : Team) (l r : Nat) (x : Word) : (t.setVreg l r x).sharedSaved = t.sharedSaved := rfl
@[simp] theorem Team.setVreg_writeBack (t : Team) (l r : Nat) (x : Word) : (t.setVreg l r x).writeBack = t.writeBack := rfl
@[simp] theorem Team.setVreg_poolAt (t : Team) (l r : Nat) (x : Word) : (t.setVreg l r x).poolAt = t.poolAt := rfl
@[simp] theorem Team.setVreg_escalated (t : Team) (l r : Nat) (x : Word) : (t.setVreg l r x).escalated = t.escalated := rfl
@[simp] theorem Team.setVreg_agents (t : Team) (l r : Nat) (x : Word) : (t.setVreg l r x).agents = t.agents := rfl
@[simp] theorem Team.setVreg_nextAgent (t : Team) (l r : Nat) (x : Word) : (t.setVreg l r x).nextAgent = t.nextAgent := rfl
@[simp] theorem Team.setVreg_layouts (t : Team) (l r : Nat) (x : Word) : (t.setVreg l r x).layouts = t.layouts := rfl
@[simp] theorem Team.setVreg_caches (t : Team) (l r : Nat) (x : Word) : (t.setVreg l r x).caches = t.caches := rfl
@[simp] theorem Team.setVreg_lrecs (t : Team) (l r : Nat) (x : Word) : (t.setVreg l r x).lrecs = t.lrecs := rfl
@[simp] theorem Team.setVreg_handles (t : Team) (l r : Nat) (x : Word) : (t.setVreg l r x).handles = t.handles := rfl
@[simp] theorem Team.setVreg_rdvs (t : Team) (l r : Nat) (x : Word) : (t.setVreg l r x).rdvs = t.rdvs := rfl
@[simp] theorem Team.setVreg_regions (t : Team) (l r : Nat) (x : Word) : (t.setVreg l r x).regions = t.regions := rfl
@[simp] theorem Team.setVreg_sharedSize (t : Team) (l r : Nat) (x : Word) : (t.setVreg l r x).sharedSize = t.sharedSize := rfl
@[simp] theorem Team.setVreg_shared (t : Team) (l r : Nat) (x : Word) : (t.setVreg l r x).shared = t.shared := rfl
@[simp] theorem Team.setVreg_full (t : Team) (l r : Nat) (x : Word) : (t.setVreg l r x).full = t.full := rfl
@[simp] theorem Team.setVreg_metas (t : Team) (l r : Nat) (x : Word) : (t.setVreg l r x).metas = t.metas := rfl
@[simp] theorem Team.setVreg_hist (t : Team) (l r : Nat) (x : Word) : (t.setVreg l r x).hist = t.hist := rfl
@[simp] theorem Team.setVreg_reads (t : Team) (l r : Nat) (x : Word) : (t.setVreg l r x).reads = t.reads := rfl
@[simp] theorem Team.setVreg_copies (t : Team) (l r : Nat) (x : Word) : (t.setVreg l r x).copies = t.copies := rfl
@[simp] theorem Team.setVreg_nextCopy (t : Team) (l r : Nat) (x : Word) : (t.setVreg l r x).nextCopy = t.nextCopy := rfl
@[simp] theorem Team.setVreg_done (t : Team) (l r : Nat) (x : Word) : (t.setVreg l r x).done = t.done := rfl
@[simp] theorem Team.setVreg_store (t : Team) (l r : Nat) (x : Word) : (t.setVreg l r x).store = t.store := rfl
@[simp] theorem Team.setVreg_lost (t : Team) (l r : Nat) (x : Word) : (t.setVreg l r x).lost = t.lost := rfl
@[simp] theorem Team.setVreg_cmds (t : Team) (l r : Nat) (x : Word) : (t.setVreg l r x).cmds = t.cmds := rfl
@[simp] theorem Team.setVreg_latches (t : Team) (l r : Nat) (x : Word) : (t.setVreg l r x).latches = t.latches := rfl
@[simp] theorem Team.setVreg_tclock (t : Team) (l r : Nat) (x : Word) : (t.setVreg l r x).tclock = t.tclock := rfl
@[simp] theorem Team.setVreg_tvec (t : Team) (l r : Nat) (x : Word) : (t.setVreg l r x).tvec = t.tvec := rfl
@[simp] theorem Team.setVreg_modvec (t : Team) (l r : Nat) (x : Word) : (t.setVreg l r x).modvec = t.modvec := rfl
@[simp] theorem Team.setVreg_version (t : Team) (l r : Nat) (x : Word) : (t.setVreg l r x).version = t.version := rfl

end Sys2Proof.Machine
end

