-- ==== Sys2Proof/Laws/Retire.lean ====
section
/-! SUPPORT. What the shared operations of issue can do: the writes of registers, the clearing of set descriptors, the retiring of an
instruction, and the lane and scalar effects built from them. -/

namespace Sys2Proof.Machine

-- Issue.
/-- An instruction that names vector registers answers its body's state when the agent may issue and its checks pass. -/
theorem issue_ready {s : State} {regs : List Nat} {sc : Bool} (h : s.ready regs sc) (body : State → State) :
    s.issue regs sc body = .next (body s) := by simp [State.issue, h.1, h.2]
theorem issue_fault {s : State} {regs : List Nat} {sc : Bool} (h : s.canIssue = true) {f : Raise} (hf : s.regFault regs sc = some f)
    (body : State → State) : s.issue regs sc body = .next (s.raise f) := by simp [State.issue, h, hf]
theorem issuePlain_ready {s : State} (h : s.canIssue = true) (body : State → State) : s.issuePlain body = .next (body s) := by
  simp [State.issuePlain, h]
theorem issueChecked_ready {s : State} (h : s.canIssue = true) {check : State → Option Raise} (hc : check s = none) (body : State → State) :
    s.issueChecked check body = .next (body s) := by simp [State.issueChecked, State.issuePlain, h, hc]
theorem issueChecked_fault {s : State} (h : s.canIssue = true) {check : State → Option Raise} {f : Raise} (hc : check s = some f)
    (body : State → State) : s.issueChecked check body = .next (s.raise f) := by simp [State.issueChecked, State.issuePlain, h, hc]

-- The issuing agent after an update of its team.
@[simp] theorem State.curTeam_modCurTeam (s : State) (f : Team → Team) : (s.modCurTeam f).curTeam = f s.curTeam := by
  simp [State.curTeam, State.modCurTeam]
@[simp] theorem State.curTeam_setTeam (s : State) (x : Team) : (s.setTeam s.cur.team x).curTeam = x := by simp [State.curTeam]
@[simp] theorem State.curTeam_modCur (s : State) (f : Agent → Agent) : (s.modCur f).curTeam = s.curTeam.modAgent s.cur.agent f := by
  simp [State.modCur]
@[simp] theorem State.curTeam_modCurGroup (s : State) (f : Group → Group) : (s.modCurGroup f).curTeam = s.curTeam.modGroup s.curAgent.host f := by
  simp [State.modCurGroup]
theorem State.onlyTeam_refl (s : State) : onlyTeam s s := ⟨rfl, fun _ _ => rfl⟩
theorem onlyTeam_trans {s t u : State} (h : onlyTeam s t) (k : onlyTeam t u) : onlyTeam s u := by
  obtain ⟨h1, h2⟩ := h
  obtain ⟨k1, k2⟩ := k
  have hc : t.cur = s.cur := by have := congrArg State.cur h1; exact this
  refine ⟨?_, fun id hi => ?_⟩
  · rw [← h1, ← k1]
  · rw [k2 id (by rw [hc]; exact hi), h2 id hi]
theorem onlyTeam_modTeam (s : State) (f : Team → Team) : onlyTeam s (s.modTeam s.cur.team f) :=
  ⟨rfl, fun id h => by simp [State.team_modTeam, h]⟩
theorem onlyTeam_modCore (s : State) (c : Nat) (f : Core → Core) : onlyTeam s (s.modCore c f) := ⟨rfl, fun _ _ => rfl⟩
theorem onlyTeam_cur {s t : State} (h : onlyTeam s t) : t.cur = s.cur := by have := congrArg State.cur h.1; exact this

-- Writes of lanes.
/-- A lane's registers are found by group and by position in the group. -/
theorem vreg_key {gl gl' r r' : Nat} : (gl / 32 = gl' / 32 ∧ 32 * r + gl % 32 = 32 * r' + gl' % 32) ↔ gl = gl' ∧ r = r' := by omega
theorem Team.vreg_setVreg (t : Team) (gl r gl' r' : Nat) (x : Word) :
    (t.setVreg gl r x).vreg gl' r' = if gl' = gl ∧ r' = r then x else t.vreg gl' r' := by
  unfold Team.vreg Team.setVreg
  rw [Team.group_modGroup]
  by_cases h : gl' / 32 = gl / 32
  · rw [if_pos h]
    simp only [cellGet_set, h]
    by_cases h2 : 32 * r' + gl' % 32 = 32 * r + gl % 32
    · rw [if_pos h2, if_pos (vreg_key.1 ⟨h, h2⟩)]
    · rw [if_neg h2, if_neg fun e => h2 (by obtain ⟨rfl, rfl⟩ := e; rfl)]
  · rw [if_neg h, if_neg fun e => h (by rw [e.1])]
/-- A write of lanes: the lanes of the list get their values in the register, and every other register of a lane is as before. -/
theorem Team.vreg_writeLanes (t : Team) (r : Nat) (f : Nat → Word) (l : List Nat) (gl r' : Nat) :
    (t.writeLanes r f l).vreg gl r' = if gl ∈ l ∧ r' = r then f gl else t.vreg gl r' := by
  induction l generalizing t with
  | nil => simp [Team.writeLanes]
  | cons a l ih =>
    rw [Team.writeLanes, ih, Team.vreg_setVreg]
    by_cases h : r' = r
    · subst h
      by_cases h1 : gl ∈ l
      · simp [h1]
      · by_cases h2 : gl = a
        · subst h2; simp [h1]
        · simp [h1, h2]
    · simp [h]
/-- What a write of lanes leaves of a group: all but its vector registers and its unfenced set. -/
theorem Team.group_writeLanes (t : Team) (r : Nat) (f : Nat → Word) (l : List Nat) (g : Nat) :
    ∃ v u, (t.writeLanes r f l).group g = { t.group g with v := v, unfenced := u } := by
  induction l generalizing t with
  | nil => exact ⟨_, _, rfl⟩
  | cons a l ih =>
    obtain ⟨v, u, h⟩ := ih (t.setVreg a r (f a))
    rw [Team.writeLanes, h, Team.setVreg, Team.group_modGroup]
    split
    · next e => subst e; exact ⟨_, _, rfl⟩
    · exact ⟨_, _, rfl⟩
theorem Team.writeLanes_keeps (t : Team) (r : Nat) (f : Nat → Word) (l : List Nat) : { t.writeLanes r f l with groups := t.groups } = t := by
  induction l generalizing t with
  | nil => rfl
  | cons a l ih =>
    have h := ih (t.setVreg a r (f a))
    rw [Team.writeLanes]
    calc { (t.setVreg a r (f a)).writeLanes r f l with groups := t.groups }
        = { ({ (t.setVreg a r (f a)).writeLanes r f l with groups := (t.setVreg a r (f a)).groups } : Team) with groups := t.groups } := rfl
      _ = t := by rw [h]; rfl

-- Handles and trap fragments.
/-- Two teams differ in their agents and set handles alone. -/
def Team.near (t u : Team) : Prop := { u with agents := t.agents, handles := t.handles } = t
theorem Team.near_refl (t : Team) : t.near t := rfl
theorem Team.near_trans {t u w : Team} (h : t.near u) (k : u.near w) : t.near w := by
  have e := congrArg (fun x : Team => ({ x with agents := t.agents, handles := t.handles } : Team)) k
  unfold Team.near at h ⊢
  rw [← h]
  exact e
theorem Team.near_groups {t u : Team} (h : t.near u) : u.groups = t.groups := by have := congrArg Team.groups h; exact this
theorem Team.near_group {t u : Team} (h : t.near u) (g : Nat) : u.group g = t.group g := by
  unfold Team.group; rw [Team.near_groups h]
theorem Team.near_modAgent (t : Team) (a : Nat) (f : Agent → Agent) : t.near (t.modAgent a f) := rfl
theorem Team.near_release (t : Team) (d : DWord) : t.near (t.release d) := by
  unfold Team.release; split <;> rfl
theorem Team.near_canonical (t : Team) (g : Nat) (x : LaneSet) : t.near (t.canonical g x).1 := by
  unfold Team.canonical
  split <;> rfl
/-- Trap fragments that become pending change agents, and take handles. -/
theorem Team.near_admitTraps (t : Team) : t.near t.admitTraps := by
  unfold Team.admitTraps
  suffices h : ∀ (l : List (Nat × Agent)) (u : Team), t.near u → t.near (l.foldl _ u) from h _ t (Team.near_refl t)
  intro l
  induction l with
  | nil => exact fun u h => h
  | cons p l ih =>
    refine fun u h => ih _ ?_
    dsimp only
    split
    · exact Team.near_trans h (Team.near_trans (Team.near_canonical u _ _) (Team.near_modAgent _ _ _))
    · exact h
theorem Team.near_dropAgent (t : Team) (a : Nat) : t.near (t.dropAgent a) := by
  unfold Team.dropAgent
  split
  · have h := Team.near_release t (t.agent a).k0
    generalize t.release (t.agent a).k0 = u at h ⊢
    exact Team.near_trans h (Team.near_trans (u := { u with agents := cellDel t.agents a }) rfl (Team.near_admitTraps _))
  · rfl
theorem Team.near_takeBack (t : Team) (a p : Nat) : t.near (t.takeBack a p) := Team.near_trans (Team.near_dropAgent t a) rfl
/-- A rejoin changes agents and frees handles, and nothing else of the team. -/
theorem Team.near_rejoin (n : Nat) (t : Team) (a : Nat) : t.near (t.rejoin a n) := by
  induction n generalizing t a with
  | zero => rfl
  | succ n ih =>
    unfold Team.rejoin
    split
    · next p _ _ =>
      have h := Team.near_takeBack t a p
      have k := Team.near_trans h (Team.near_modAgent _ p fun x => { x with status := .ready })
      dsimp only
      split
      · exact h
      · split
        · split
          · exact Team.near_trans k (ih _ _)
          · exact k
        · exact k
    · rfl

-- Retiring.
/-- What retiring may change of a group: the tick of its last issue, its boost, its spinning and its leg. -/
def Group.retired (g : Group) (i : Nat) (b sp l : Bool) (n : Nat) : Group :=
  { g with issuedAt := i, boosted := b, spinning := sp, legEnded := l, legCount := n }
/-- Two teams differ in their agents and set handles, and in what retiring may change of their groups. -/
def Team.calm (t u : Team) : Prop :=
  { u with agents := t.agents, handles := t.handles, groups := t.groups } = t ∧ ∀ g, ∃ i b sp l n, u.group g = (t.group g).retired i b sp l n
theorem Team.calm_near {t u : Team} (h : t.near u) : t.calm u := by
  refine ⟨?_, fun g => ⟨_, _, _, _, _, Team.near_group h g⟩⟩
  have e := Team.near_groups h
  unfold Team.near at h
  rw [← e]; exact h
theorem Team.calm_trans {t u w : Team} (h : t.calm u) (k : u.calm w) : t.calm w := by
  obtain ⟨h1, h2⟩ := h
  obtain ⟨k1, k2⟩ := k
  refine ⟨?_, fun g => ?_⟩
  · have e := congrArg (fun x : Team => ({ x with agents := t.agents, handles := t.handles, groups := t.groups } : Team)) k1
    exact e.trans h1
  · obtain ⟨i, b, sp, l, n, e⟩ := h2 g
    obtain ⟨i', b', sp', l', n', e'⟩ := k2 g
    exact ⟨i', b', sp', l', n', by rw [e', e]; rfl⟩
/-- Two states differ outside the stall counts in a calm change of the issuing team. -/
def State.calm (s t : State) : Prop := onlyTeam s t ∧ s.curTeam.calm t.curTeam
theorem State.calm_trans {s t u : State} (h : s.calm t) (k : t.calm u) : s.calm u :=
  ⟨onlyTeam_trans h.1 k.1, Team.calm_trans h.2 k.2⟩
theorem State.calm_modCurTeam (s : State) (f : Team → Team) (h : s.curTeam.calm (f s.curTeam)) : s.calm (s.modTeam s.cur.team f) :=
  ⟨onlyTeam_modTeam s f, by simpa [State.curTeam] using h⟩
theorem State.calm_modCore (s : State) (c : Nat) (f : Core → Core) : s.calm (s.modCore c f) :=
  ⟨onlyTeam_modCore s c f, Team.calm_near (Team.near_refl _)⟩

/-- The group's part of retiring. -/
def Group.retireIn (g : Group) (tick : Nat) (spin det : Bool) (r : Ret) : Group :=
  { g with
    boosted := false
    issuedAt := tick
    spinning := spin
    legCount := g.legCount + 1
    legEnded := g.legEnded || (det && (r.legEnd || decide (1024 ≤ g.legCount + 1))) }
/-- The agent's part. -/
def Agent.retireIn (x : Agent) (r : Ret) : Agent :=
  { x.idle with
    pc := x.pc + r.words
    rest := x.rest - r.words
    info := x.info.map fun i => if i.redo then { i with retired := true } else i }
/-- The end of a fragment whose instruction was re-issued (R117). -/
def State.endReissue (s' : State) (cur : AgentRef) : State :=
  match (s'.agent cur).info with
  | some i => if i.redo && (s'.agent cur).status == .ready then s'.modTeam cur.team fun t => t.rejoin cur.agent 8 else s'
  | none => s'
/-- The group's and the agent's part together, and the stall count. -/
def State.retireParts (s : State) (r : Ret) (sp det c : Bool) : State :=
  (fun s' : State => if c then s'.modCore s.curTeam.core fun k => { k with stall := 0 } else s')
    ((s.modTeam s.cur.team fun t => t.modGroup s.curAgent.host fun g => g.retireIn s.tick sp det r).modTeam s.cur.team fun t =>
      t.modAgent s.cur.agent fun x => x.retireIn r)
/-- The retiring of an instruction in steps: the group, the agent, the stall count, and the rejoin of a re-issuing fragment. -/
theorem retire_eq (s : State) (r : Ret) : ∃ (sp det c : Bool), s.retire r = (s.retireParts r sp det c).endReissue s.cur := by
  refine ⟨s.curGroup.spinning && !r.endsSpin, s.curLaunch.determinate, r.counted && !(s.curGroup.spinning && !r.endsSpin), rfl⟩

theorem calm_endReissue {s t : State} (h : s.calm t) : s.calm (t.endReissue s.cur) := by
  have c : t.cur = s.cur := onlyTeam_cur h.1
  unfold State.endReissue
  split
  · split
    · refine State.calm_trans h ?_
      rw [← c]
      exact State.calm_modCurTeam t _ (Team.calm_near (Team.near_rejoin _ _ _))
    · exact h
  · exact h

theorem calm_retireParts (s : State) (r : Ret) (sp det c : Bool) : s.calm (s.retireParts r sp det c) := by
  unfold State.retireParts
  have h1 : s.calm (s.modTeam s.cur.team fun t => t.modGroup s.curAgent.host fun g => g.retireIn s.tick sp det r) := by
    refine State.calm_modCurTeam s _ ⟨rfl, fun g => ?_⟩
    rw [Team.group_modGroup]
    split
    · next e => subst e; exact ⟨_, _, _, _, _, rfl⟩
    · exact ⟨_, _, _, _, _, rfl⟩
  generalize hs1 : (s.modTeam s.cur.team fun t => t.modGroup s.curAgent.host fun g => g.retireIn s.tick sp det r) = s1 at *
  have c1 : s1.cur = s.cur := onlyTeam_cur h1.1
  have h2 : s.calm (s1.modTeam s.cur.team fun t => t.modAgent s.cur.agent fun x => x.retireIn r) := by
    refine State.calm_trans h1 ?_
    rw [← c1]
    exact State.calm_modCurTeam s1 _ (Team.calm_near (Team.near_modAgent _ _ _))
  generalize (s1.modTeam s.cur.team fun t => t.modAgent s.cur.agent fun x => x.retireIn r) = s2 at *
  dsimp only
  split
  · exact State.calm_trans h2 (State.calm_modCore _ _ _)
  · exact h2

/-- Retiring changes the issuing team's agents and handles, the leg and the spinning of its host group, and a stall count; nothing else. -/
theorem retire_calm (s : State) (r : Ret) : s.calm (s.retire r) := by
  obtain ⟨sp, det, c, h⟩ := retire_eq s r
  rw [h]
  exact calm_endReissue (calm_retireParts s r sp det c)

theorem agent_modGroup (t : Team) (g : Nat) (f : Group → Group) (a : Nat) : (t.modGroup g f).agent a = t.agent a := rfl
theorem team_modCore (s : State) (c : Nat) (f : Core → Core) (t : Nat) : (s.modCore c f).team t = s.team t := rfl

theorem retireParts_agent (s : State) (r : Ret) (sp det c : Bool) (hc : cellHas s.curTeam.agents s.cur.agent = true) : (s.retireParts r sp det c).agent s.cur = s.curAgent.retireIn r := by
  unfold State.retireParts
  dsimp only
  have hc' : cellHas ((s.team s.cur.team).modGroup s.curAgent.host fun g => g.retireIn s.tick sp det r).agents s.cur.agent = true := hc
  split
  · simp only [State.agent, team_modCore, State.team_modTeam_same]
    rw [Team.agent_modAgent_same _ _ _ hc']; rfl
  · simp only [State.agent, State.team_modTeam_same]
    rw [Team.agent_modAgent_same _ _ _ hc']; rfl
/-- Without a re-issued instruction the last step of retiring does nothing. -/
theorem retire_plain (s : State) (r : Ret) (hc : cellHas s.curTeam.agents s.cur.agent = true) (h : s.reissues = false) : ∃ (sp det c : Bool), s.retire r = s.retireParts r sp det c := by
  obtain ⟨sp, det, c, e⟩ := retire_eq s r
  refine ⟨sp, det, c, ?_⟩
  rw [e]
  unfold State.endReissue
  rw [retireParts_agent _ _ _ _ _ hc]
  unfold State.reissues at h
  simp only [Agent.retireIn]
  cases hi : s.curAgent.info with
  | none => rfl
  | some i =>
    rw [hi] at h
    by_cases hr : i.redo <;> simp_all [Agent.idle]
/-- The agent after retiring, when no re-issued instruction retires with it. -/
theorem retire_agent (s : State) (r : Ret) (ha : cellHas s.curTeam.agents s.cur.agent = true) (h : s.reissues = false) : (s.retire r).curAgent = s.curAgent.retireIn r := by
  obtain ⟨sp, det, c, e⟩ := retire_plain s r ha h
  rw [e]
  have k := retireParts_agent s r sp det c ha
  have hc : (s.retireParts r sp det c).cur = s.cur := onlyTeam_cur (calm_retireParts s r sp det c).1
  rw [← hc] at k
  rw [← k]; rfl
/-- Without a re-issued instruction, retiring keeps every set handle. -/
theorem retire_handles (s : State) (r : Ret) (ha : cellHas s.curTeam.agents s.cur.agent = true) (h : s.reissues = false) : (s.retire r).curTeam.handles = s.curTeam.handles := by
  obtain ⟨sp, det, c, e⟩ := retire_plain s r ha h
  rw [e]
  have hc : (s.retireParts r sp det c).cur = s.cur := onlyTeam_cur (calm_retireParts s r sp det c).1
  unfold State.curTeam
  rw [hc]
  unfold State.retireParts
  dsimp only
  split
  · rw [team_modCore, State.team_modTeam_same, State.team_modTeam_same]; rfl
  · rw [State.team_modTeam_same, State.team_modTeam_same]; rfl

-- What retiring leaves of the registers.
theorem Group.bare_retired (g : Group) (i : Nat) (b sp l : Bool) (n : Nat) : (g.retired i b sp l n).bare = g.bare := rfl
theorem calm_registers {s t : State} (h : s.calm t) : onlyRegisters s t := by
  obtain ⟨h1, h2, h3⟩ := h
  refine ⟨h1, ?_, fun g => ?_⟩
  · have e := congrArg (fun x : Team => ({ x with agents := s.curTeam.agents, handles := s.curTeam.handles } : Team)) h2
    exact e
  · obtain ⟨i, b, sp, l, n, e⟩ := h3 g
    rw [e]; rfl
theorem onlyRegisters_refl (s : State) : onlyRegisters s s := ⟨State.onlyTeam_refl s, rfl, fun _ => rfl⟩
theorem onlyRegisters_trans {s t u : State} (h : onlyRegisters s t) (k : onlyRegisters t u) : onlyRegisters s u := by
  refine ⟨onlyTeam_trans h.1 k.1, ?_, fun g => (k.2.2 g).trans (h.2.2 g)⟩
  have e := congrArg (fun x : Team =>
    ({ x with groups := s.curTeam.groups, agents := s.curTeam.agents, handles := s.curTeam.handles } : Team)) k.2.1
  exact e.trans h.2.1
/-- Retiring leaves every register that a program reads: vector, scalar and set registers, and the saturation flag. -/
theorem calm_group {s t : State} (h : s.calm t) (g : Nat) :
    (t.curTeam.group g).v = (s.curTeam.group g).v ∧ (t.curTeam.group g).s = (s.curTeam.group g).s ∧
      (t.curTeam.group g).k = (s.curTeam.group g).k ∧ (t.curTeam.group g).sat = (s.curTeam.group g).sat ∧
      (t.curTeam.group g).live = (s.curTeam.group g).live := by
  obtain ⟨i, b, sp, l, n, e⟩ := h.2.2 g
  rw [e]; exact ⟨rfl, rfl, rfl, rfl, rfl⟩
theorem calm_vreg {s t : State} (h : s.calm t) (gl r : Nat) : t.vreg gl r = s.vreg gl r := by
  unfold State.vreg Team.vreg
  rw [(calm_group h _).1]

-- The live set.
/-- Where a group's live lanes stand in a team's live set. -/
def livePart (g : Nat) (x : Group) : LaneSet := BitVec.ofNat 1024 (x.live.toNat * 2 ^ (32 * g))
theorem LaneSet.zero_or (x : LaneSet) : 0 ||| x = x := by simp
theorem LaneSet.or_left (x y : LaneSet) : x ||| (x ||| y) = x ||| y := by rw [← BitVec.or_assoc, BitVec.or_self]
theorem Team.liveSet_eq (t : Team) : t.liveSet = t.groups.foldl (fun a p => a ||| livePart p.1 p.2) 0 := rfl
theorem liveFold_or (m : Cells Group) (a : LaneSet) :
    m.foldl (fun a p => a ||| livePart p.1 p.2) a = a ||| m.foldl (fun a p => a ||| livePart p.1 p.2) 0 := by
  induction m generalizing a with
  | nil => simp
  | cons p m ih =>
    simp only [List.foldl_cons]
    rw [ih, ih (0 ||| _)]
    simp [BitVec.or_assoc]
/-- A group's live lanes are part of the live set. -/
theorem liveFold_has (m : Cells Group) (g : Nat) :
    livePart g (cellGet Group.blank m g) ||| m.foldl (fun a p => a ||| livePart p.1 p.2) 0 = m.foldl (fun a p => a ||| livePart p.1 p.2) 0 := by
  induction m with
  | nil => simp [livePart, Group.blank]
  | cons p m ih =>
    obtain ⟨a, x⟩ := p
    simp only [List.foldl_cons]
    rw [liveFold_or, cellGet_cons]
    split
    · next h => subst h; rw [LaneSet.zero_or, LaneSet.or_left]
    · rw [LaneSet.zero_or, ← BitVec.or_assoc, BitVec.or_comm (livePart g _), BitVec.or_assoc, ih]
theorem liveFold_put (m : Cells Group) (g : Nat) (x : Group) (h : x.live = (cellGet Group.blank m g).live) :
    (cellPut m g x).foldl (fun a p => a ||| livePart p.1 p.2) 0 = m.foldl (fun a p => a ||| livePart p.1 p.2) 0 := by
  have hp : livePart g x = livePart g (cellGet Group.blank m g) := by unfold livePart; rw [h]
  induction m with
  | nil =>
    simp only [cellPut, List.foldl_cons, List.foldl_nil]
    rw [hp]; simp [livePart, Group.blank]
  | cons p m ih =>
    obtain ⟨a, y⟩ := p
    simp only [cellPut]
    split
    · next h1 =>
      rw [cellGet_cons, if_neg (Nat.ne_of_lt h1)] at h hp
      simp only [List.foldl_cons]
      rw [liveFold_or, ih h hp, ← liveFold_or]
    · split
      · next h2 =>
        rw [cellGet_cons, if_pos h2] at hp
        subst h2
        simp only [List.foldl_cons]
        rw [hp]
      · have e := liveFold_has ((a, y) :: m) g
        rw [List.foldl_cons, liveFold_or, LaneSet.zero_or, hp, e]
/-- The live set changes only with a group's live lanes. -/
theorem Team.liveSet_modGroup (t : Team) (g : Nat) (f : Group → Group) (h : (f (t.group g)).live = (t.group g).live) :
    (t.modGroup g f).liveSet = t.liveSet := liveFold_put t.groups g (f (t.group g)) h
theorem Team.liveSet_writeLanes (t : Team) (r : Nat) (f : Nat → Word) (l : List Nat) : (t.writeLanes r f l).liveSet = t.liveSet := by
  induction l generalizing t with
  | nil => rfl
  | cons a l ih => rw [Team.writeLanes, ih]; exact Team.liveSet_modGroup t _ _ rfl
theorem Team.liveSet_groups {t u : Team} (h : u.groups = t.groups) : u.liveSet = t.liveSet := by unfold Team.liveSet; rw [h]

end Sys2Proof.Machine
end

