-- ==== Sys2Proof/Laws/Sets.lean ====
section
/-! SUPPORT. Set descriptors: the forms of one, what it names, and that the clearing of exited members changes no set (06 R49 to R52, R97). -/

namespace Sys2Proof.Machine

theorem bitsOf_lt (x : DWord) (lo n : Nat) : bitsOf x lo n < 2 ^ n := by
  unfold bitsOf fld; exact Nat.mod_lt _ (Nat.two_pow_pos n)
theorem countBits_le (x n : Nat) : countBits x n ≤ n := by
  induction n with
  | zero => simp [countBits]
  | succ n ih => simp only [countBits]; have := Nat.mod_lt (x / 2 ^ n) (y := 2) (by omega); omega
theorem sum_le_mul (l : List Nat) (b : Nat) (h : ∀ x ∈ l, x ≤ b) : l.sum ≤ l.length * b := by
  induction l with
  | nil => simp
  | cons a l ih =>
    have h1 := h a (by simp)
    have h2 := ih fun x hx => h x (by simp [hx])
    simp only [List.sum_cons, List.length_cons, Nat.add_mul]; omega
theorem population_le (x : LaneSet) : population x ≤ 1024 := by
  unfold population
  refine (sum_le_mul _ 32 ?_).trans (by simp)
  intro y hy
  simp only [List.mem_map] at hy
  obtain ⟨g, -, rfl⟩ := hy
  split
  · omega
  · exact countBits_le _ _
theorem teamDesc_form (p h : Nat) (hp : p ≤ 1024) (hh : h < 2 ^ 12) : isTeamForm (teamDesc p h) = true ∧ bitsOf (teamDesc p h) 0 12 = h := by
  have e : (teamDesc p h).toNat = 2 ^ 63 + p * 2 ^ 32 + h := by
    unfold teamDesc; rw [BitVec.toNat_ofNat, Nat.mod_eq_of_lt (by omega)]
  unfold isTeamForm bitsOf fld
  rw [e]
  refine ⟨by rw [beq_iff_eq]; omega, by omega⟩
theorem localDesc_form (g m : Nat) (hg : g < 32) (hm : m < 2 ^ 32) :
    isTeamForm (localDesc g m) = false ∧ bitsOf (localDesc g m) 0 32 = m ∧ bitsOf (localDesc g m) 32 5 = g := by
  have e : (localDesc g m).toNat = g * 2 ^ 32 + m := by
    unfold localDesc; rw [BitVec.toNat_ofNat, Nat.mod_eq_of_lt (by omega)]
  unfold isTeamForm bitsOf fld
  rw [e]
  refine ⟨by rw [beq_eq_false_iff_ne]; omega, by omega, by omega⟩
theorem groupPart_lt (x : LaneSet) (g : Nat) : groupPart x g < 2 ^ 32 := by unfold groupPart fld; exact Nat.mod_lt _ (Nat.two_pow_pos 32)
/-- A part of one group, cut out of a set and put back. -/
theorem part_and (m g : Nat) (hg : g < 32) (hm : m < 2 ^ 32) (l : LaneSet) :
    BitVec.ofNat 1024 (groupPart (BitVec.ofNat 1024 (m * 2 ^ (32 * g)) &&& l) g * 2 ^ (32 * g)) &&& l =
      BitVec.ofNat 1024 (m * 2 ^ (32 * g)) &&& l := by
  have hb : m * 2 ^ (32 * g) < 2 ^ 1024 := by
    calc m * 2 ^ (32 * g) < 2 ^ 32 * 2 ^ (32 * g) := Nat.mul_lt_mul_of_pos_right hm (Nat.two_pow_pos _)
      _ = 2 ^ (32 + 32 * g) := by rw [Nat.pow_add]
      _ ≤ 2 ^ 1024 := Nat.pow_le_pow_right (by omega) (by omega)
  apply BitVec.eq_of_getLsbD_eq
  intro i hi
  simp only [BitVec.getLsbD_and, BitVec.getLsbD_ofNat, hi, decide_true, Bool.true_and, groupPart, fld]
  simp only [← Nat.shiftLeft_eq, Nat.testBit_shiftLeft, Nat.testBit_mod_two_pow, Nat.testBit_div_two_pow, BitVec.toNat_and,
    BitVec.toNat_ofNat, Nat.testBit_and]
  by_cases h1 : 32 * g ≤ i
  · have : i - 32 * g + 32 * g = i := by omega
    simp only [h1, decide_true, Bool.true_and, this]
    by_cases h2 : i - 32 * g < 32
    · simp [h2, hi, BitVec.getLsbD]
    · have h3 : m.testBit (i - 32 * g) = false := Nat.testBit_lt_two_pow (hm.trans_le (Nat.pow_le_pow_right (by omega) (by omega)))
      simp [h2, h3]
  · simp [h1]

theorem Team.resolve_team (t : Team) (d : DWord) (h : isTeamForm d = true) : t.resolve d = cellGet 0 t.handles (bitsOf d 0 12) &&& t.liveSet := by
  unfold Team.resolve; rw [if_pos h]
theorem Team.resolve_local (t : Team) (d : DWord) (h : isTeamForm d = false) :
    t.resolve d = BitVec.ofNat 1024 (bitsOf d 0 32 * 2 ^ (32 * bitsOf d 32 5)) &&& t.liveSet := by
  unfold Team.resolve; rw [if_neg (by simp [h])]
/-- What a descriptor names rests on the handles and the live lanes alone. -/
theorem Team.resolve_congr {t u : Team} (h : u.handles = t.handles) (l : u.liveSet = t.liveSet) (d : DWord) : u.resolve d = t.resolve d := by
  unfold Team.resolve; rw [h, l]
theorem Team.clearDesc_groups (t : Team) (d : DWord) : (t.clearDesc d).1.groups = t.groups := by
  unfold Team.clearDesc; dsimp only; split <;> rfl
theorem Team.clearDesc_agents (t : Team) (d : DWord) : (t.clearDesc d).1.agents = t.agents := by
  unfold Team.clearDesc; dsimp only; split <;> rfl
theorem Team.clearDesc_near (t : Team) (d : DWord) : t.near (t.clearDesc d).1 := by
  unfold Team.clearDesc; dsimp only; split <;> rfl
theorem Team.clearDesc_team (t : Team) (d : DWord) (h : isTeamForm d = true) : t.clearDesc d =
    ({ t with handles := cellPut t.handles (bitsOf d 0 12) (t.resolve d) }, teamDesc (population (t.resolve d)) (bitsOf d 0 12)) := by
  unfold Team.clearDesc; dsimp only; rw [if_pos h]
theorem Team.clearDesc_local (t : Team) (d : DWord) (h : isTeamForm d = false) : t.clearDesc d =
    (t, localDesc (bitsOf d 32 5) (groupPart (t.resolve d) (bitsOf d 32 5))) := by
  unfold Team.clearDesc; dsimp only; rw [if_neg (by simp [h])]
theorem Team.resolve_putHandle (t : Team) (d d' : DWord) (h : isTeamForm d = true) :
    Team.resolve { t with handles := cellPut t.handles (bitsOf d 0 12) (t.resolve d) } d' = t.resolve d' := by
  cases h' : isTeamForm d' with
  | false => rw [Team.resolve_local _ _ h', Team.resolve_local _ _ h']; rfl
  | true =>
    rw [Team.resolve_team _ _ h', Team.resolve_team t _ h']
    show cellGet 0 (cellPut t.handles _ _) _ &&& t.liveSet = _
    rw [cellGet_put]
    split
    · next e => rw [e, Team.resolve_team t _ h, BitVec.and_assoc, BitVec.and_self]
    · rfl
/-- The clearing of exited members changes no set. -/
theorem Team.resolve_clearDesc (t : Team) (d d' : DWord) : (t.clearDesc d).1.resolve d' = t.resolve d' := by
  cases h : isTeamForm d with
  | true => rw [Team.clearDesc_team _ _ h]; exact Team.resolve_putHandle t d d' h
  | false => rw [Team.clearDesc_local _ _ h]
/-- The descriptor with exited members cleared names the same set. -/
theorem Team.resolve_clearDesc_new (t : Team) (d : DWord) : t.resolve (t.clearDesc d).2 = t.resolve d := by
  cases h : isTeamForm d with
  | true =>
    have f := teamDesc_form (population (t.resolve d)) (bitsOf d 0 12) (population_le _) (bitsOf_lt _ _ _)
    rw [Team.clearDesc_team _ _ h]
    rw [Team.resolve_team _ _ f.1, f.2, Team.resolve_team _ _ h]
  | false =>
    have hg : bitsOf d 32 5 < 32 := bitsOf_lt _ _ _
    have f := localDesc_form (bitsOf d 32 5) (groupPart (t.resolve d) (bitsOf d 32 5)) hg (groupPart_lt _ _)
    rw [Team.clearDesc_local _ _ h]
    rw [Team.resolve_local _ _ f.1, f.2.1, f.2.2, Team.resolve_local _ _ h]
    exact part_and _ _ hg (bitsOf_lt _ _ _) _

theorem Team.clearEntry_near (t : Team) (a : Nat) : t.near (t.clearEntry a) := by
  unfold Team.clearEntry; dsimp only; split <;> rfl
theorem Team.clearEntry_groups (t : Team) (a : Nat) : (t.clearEntry a).groups = t.groups := Team.near_groups (Team.clearEntry_near t a)
theorem Team.clearEntry_agents (t : Team) (a : Nat) : (t.clearEntry a).agents = t.agents := by
  unfold Team.clearEntry; dsimp only; split <;> rfl
/-- The clearing of an entry set's image changes no set. -/
theorem Team.resolve_clearEntry (t : Team) (a : Nat) (d : DWord) : (t.clearEntry a).resolve d = t.resolve d := by
  unfold Team.clearEntry
  dsimp only
  split
  · next h =>
    have f : isTeamForm (t.agent a).k0 = true := by simp_all
    rw [← Team.resolve_team t _ f]
    exact Team.resolve_putHandle t _ d f
  · rfl

/-- The clearing before a read of a set register: nothing changes, or the image of the agent's entry set does, or the team's handle and the register's
descriptor do. -/
theorem State.clearK_cases (s : State) (k : Nat) : s.clearK k = s ∨ s.clearK k = s.modTeam s.cur.team (fun t => t.clearEntry s.cur.agent) ∨
    s.clearK k = s.modTeam s.cur.team fun t => (t.clearDesc (cellGet 0 s.curGroup.k k)).1.modGroup s.curAgent.host fun g =>
      { g with k := cellSet 0 g.k k (t.clearDesc (cellGet 0 s.curGroup.k k)).2 } := by
  unfold State.clearK
  split
  · split
    · exact Or.inr (Or.inl rfl)
    · exact Or.inl rfl
  · dsimp only
    split
    · exact Or.inl rfl
    · exact Or.inr (Or.inr rfl)

end Sys2Proof.Machine
end

