-- ==== Sys2Proof/Laws/Lanes.lean ====
section
/-! SUPPORT. The lane and scalar effects of an instruction that writes registers alone: each completes, with its result and its frame. -/

namespace Sys2Proof.Machine

/-- From s to t only registers, set images and agents change, the agents are the same, and every set register names its set. -/
structure Quiet (s t : State) : Prop where
  only : onlyRegisters s t
  agents : t.curTeam.agents = s.curTeam.agents
  sets : sameSets s t
  sat : ∀ g, (t.curTeam.group g).sat = (s.curTeam.group g).sat

theorem Quiet.cur {s t : State} (h : Quiet s t) : t.cur = s.cur := onlyTeam_cur h.only.1
theorem Quiet.curAgent {s t : State} (h : Quiet s t) : t.curAgent = s.curAgent := by
  unfold State.curAgent Team.agent; rw [h.agents, h.cur]
theorem Quiet.refl (s : State) : Quiet s s := ⟨onlyRegisters_refl s, rfl, fun _ _ => rfl, fun _ => rfl⟩
theorem Quiet.trans {s t u : State} (h : Quiet s t) (k : Quiet t u) : Quiet s u :=
  ⟨onlyRegisters_trans h.only k.only, k.agents.trans h.agents, fun g n => (k.sets g n).trans (h.sets g n), fun g => (k.sat g).trans (h.sat g)⟩

/-- An update of the issuing team that touches one group's registers and the handles. -/
theorem onlyRegisters_modTeam (s : State) (f : Team → Team)
    (h : { f s.curTeam with groups := s.curTeam.groups, agents := s.curTeam.agents, handles := s.curTeam.handles } = s.curTeam)
    (k : ∀ g, ((f s.curTeam).group g).bare = (s.curTeam.group g).bare) : onlyRegisters s (s.modTeam s.cur.team f) := by
  have e : (s.modTeam s.cur.team f).curTeam = f s.curTeam := State.curTeam_modCurTeam s f
  exact ⟨onlyTeam_modTeam s f, by rw [e]; exact h, by rw [e]; exact k⟩

/-- The clearing of exited members from a set register before it is read. -/
theorem quiet_clearK (s : State) (k : Nat) : Quiet s (s.clearK k) ∧ (∀ gl r, (s.clearK k).vreg gl r = s.vreg gl r) ∧
    ∀ g, ((s.clearK k).curTeam.group g).s = (s.curTeam.group g).s := by
  rcases State.clearK_cases s k with h | h | h
  · rw [h]; exact ⟨Quiet.refl s, fun _ _ => rfl, fun _ => rfl⟩
  · rw [h]
    have e : (s.modTeam s.cur.team fun t => t.clearEntry s.cur.agent).curTeam = s.curTeam.clearEntry s.cur.agent := State.curTeam_modCurTeam s _
    have gr : ∀ g, (s.curTeam.clearEntry s.cur.agent).group g = s.curTeam.group g := Team.near_group (Team.clearEntry_near s.curTeam _)
    refine ⟨⟨onlyRegisters_modTeam s _ ?_ fun g => by rw [gr], ?_, fun g n => ?_, fun g => ?_⟩, fun gl r => ?_, fun g => ?_⟩
    · have := Team.clearEntry_near s.curTeam s.cur.agent
      unfold Team.near at this
      conv_rhs => rw [← this]
      rw [Team.clearEntry_groups]
    · rw [e]; exact Team.clearEntry_agents _ _
    · rw [e, gr]; exact Team.resolve_clearEntry _ _ _
    · rw [e, gr]
    · unfold State.vreg Team.vreg; rw [e, gr]
    · rw [e, gr]
  · rw [h]
    generalize hd : cellGet 0 s.curGroup.k k = d
    have hk : cellGet 0 (s.curTeam.group s.curAgent.host).k k = d := hd
    generalize hg : s.curAgent.host = g0 at hk
    have e := State.curTeam_modCurTeam s fun t => (t.clearDesc d).1.modGroup g0 fun g => { g with k := cellSet 0 g.k k (t.clearDesc d).2 }
    unfold State.modCurTeam at e
    have gr : ∀ g, ((s.curTeam.clearDesc d).1.group g) = s.curTeam.group g := Team.near_group (Team.clearDesc_near s.curTeam d)
    have nr : { (s.curTeam.clearDesc d).1 with groups := s.curTeam.groups, agents := s.curTeam.agents, handles := s.curTeam.handles } = s.curTeam := by
      have := Team.clearDesc_near s.curTeam d
      unfold Team.near at this
      conv_rhs => rw [← this]
      rw [Team.clearDesc_groups]
    refine ⟨⟨onlyRegisters_modTeam s _ nr fun g => ?_, ?_, fun g n => ?_, fun g => ?_⟩, fun gl r => ?_, fun g => ?_⟩
    · rw [Team.group_modGroup, gr, gr]; split
      · next h => subst h; rfl
      · rfl
    · rw [e]; exact Team.clearDesc_agents _ _
    · rw [e]
      have lv : ((s.curTeam.clearDesc d).1.modGroup g0 fun g => { g with k := cellSet 0 g.k k (s.curTeam.clearDesc d).2 }).liveSet = s.curTeam.liveSet :=
        (Team.liveSet_modGroup _ _ _ rfl).trans (Team.liveSet_groups (Team.clearDesc_groups _ _))
      have rs : ∀ x, ((s.curTeam.clearDesc d).1.modGroup g0 fun g => { g with k := cellSet 0 g.k k (s.curTeam.clearDesc d).2 }).resolve x = s.curTeam.resolve x := by
        intro x
        rw [← Team.resolve_clearDesc s.curTeam d x]
        refine Team.resolve_congr ?_ (Team.liveSet_modGroup (s.curTeam.clearDesc d).1 g0 _ rfl) x
        rfl
      rw [rs, Team.group_modGroup, gr, gr]
      split
      · next h =>
        subst h
        show s.curTeam.resolve (cellGet 0 (cellSet 0 _ k _) n) = _
        rw [cellGet_set]
        split
        · next h2 => rw [h2, hk]; exact Team.resolve_clearDesc_new _ _
        · rfl
      · rfl
    · rw [e, Team.group_modGroup, gr, gr]; split
      · next h => subst h; rfl
      · rfl
    · unfold State.vreg Team.vreg
      rw [e, Team.group_modGroup, gr, gr]; split
      · next h => rw [h]
      · rfl
    · rw [e, Team.group_modGroup, gr, gr]; split
      · next h => subst h; rfl
      · rfl

theorem Group.bare_writes (g : Group) (v : Cells Word) (u : BitVec 256) : ({ g with v := v, unfenced := u } : Group).bare = g.bare := rfl

/-- A write of one register of a list of lanes. -/
theorem quiet_writeLanes (s : State) (l : List Nat) (r : Nat) (f : Nat → Word) : Quiet s (s.writeLanes l r f) ∧
    (∀ gl r', (s.writeLanes l r f).vreg gl r' = if gl ∈ l ∧ r' = r then f gl else s.vreg gl r') ∧
    ∀ g, ((s.writeLanes l r f).curTeam.group g).s = (s.curTeam.group g).s := by
  have e : (s.writeLanes l r f).curTeam = s.curTeam.writeLanes r f l := State.curTeam_modCurTeam s _
  have kp := Team.writeLanes_keeps s.curTeam r f l
  have ag : (s.curTeam.writeLanes r f l).agents = s.curTeam.agents := by have := congrArg Team.agents kp; exact this
  have hd : (s.curTeam.writeLanes r f l).handles = s.curTeam.handles := by have := congrArg Team.handles kp; exact this
  refine ⟨⟨onlyRegisters_modTeam s _ ?_ fun g => ?_, by rw [e, ag], fun g n => ?_, fun g => ?_⟩, fun gl r' => ?_, fun g => ?_⟩
  · rw [← ag, ← hd]; exact kp
  · obtain ⟨v, u, h⟩ := Team.group_writeLanes s.curTeam r f l g
    rw [h]; rfl
  · obtain ⟨v, u, h⟩ := Team.group_writeLanes s.curTeam r f l g
    rw [e, h]
    exact Team.resolve_congr hd (Team.liveSet_writeLanes _ _ _ _) _
  · obtain ⟨v, u, h⟩ := Team.group_writeLanes s.curTeam r f l g
    rw [e, h]
  · unfold State.vreg; rw [e]; exact Team.vreg_writeLanes _ _ _ _ _ _
  · obtain ⟨v, u, h⟩ := Team.group_writeLanes s.curTeam r f l g
    rw [e, h]

/-- A write of one scalar register of the host group. -/
theorem quiet_setSreg (s : State) (n : Nat) (x : DWord) : Quiet s (s.setSreg n x) ∧ (∀ gl r, (s.setSreg n x).vreg gl r = s.vreg gl r) ∧
    ∀ g m, cellGet 0 ((s.setSreg n x).curTeam.group g).s m =
      if g = s.curAgent.host ∧ m = n then x else cellGet 0 (s.curTeam.group g).s m := by
  have e : (s.setSreg n x).curTeam = s.curTeam.modGroup s.curAgent.host fun g => { g with s := cellSet 0 g.s n x } :=
    State.curTeam_modCurTeam s _
  have hg : ∀ g, (s.setSreg n x).curTeam.group g =
      if g = s.curAgent.host then { s.curTeam.group g with s := cellSet 0 (s.curTeam.group g).s n x } else s.curTeam.group g := by
    intro g
    rw [e, Team.group_modGroup]
    split
    · next h => rw [h]
    · rfl
  refine ⟨⟨onlyRegisters_modTeam s _ rfl fun g => ?_, by rw [e]; rfl, fun g m => ?_, fun g => ?_⟩, fun gl r => ?_, fun g m => ?_⟩
  · rw [← e, hg]; split <;> rfl
  · have hr : ∀ d, (s.setSreg n x).curTeam.resolve d = s.curTeam.resolve d := by
      intro d; rw [e]; refine Team.resolve_congr ?_ (Team.liveSet_modGroup s.curTeam s.curAgent.host _ rfl) d; rfl
    rw [hr, hg]; split <;> rfl
  · rw [hg]; split <;> rfl
  · unfold State.vreg Team.vreg; rw [hg]; split <;> rfl
  · rw [hg]
    split
    · next h => simp only [h, true_and]; exact cellGet_set 0 _ n m x
    · next h => simp [h]

/-- The issuing team after retiring, when no re-issued instruction retires with it. -/
theorem retire_curTeam (s : State) (r : Ret) (ha : cellHas s.curTeam.agents s.cur.agent = true) (h : s.reissues = false) : ∃ sp det : Bool,
    (s.retire r).curTeam = (s.curTeam.modGroup s.curAgent.host fun g => g.retireIn s.tick sp det r).modAgent s.cur.agent fun x => x.retireIn r := by
  obtain ⟨sp, det, c, e⟩ := retire_plain s r ha h
  refine ⟨sp, det, ?_⟩
  have hc : (s.retire r).cur = s.cur := onlyTeam_cur (retire_calm s r).1
  unfold State.curTeam at *
  rw [hc, e]
  unfold State.retireParts
  dsimp only
  split
  · rw [team_modCore, State.team_modTeam_same, State.team_modTeam_same]
  · rw [State.team_modTeam_same, State.team_modTeam_same]
/-- Retiring keeps the live set and, without a re-issued instruction, the set each set register names. -/
theorem retire_sets (s : State) (r : Ret) (ha : cellHas s.curTeam.agents s.cur.agent = true) (h : s.reissues = false) : sameSets s (s.retire r) := by
  intro g n
  rw [(calm_group (retire_calm s r) g).2.2.1]
  refine Team.resolve_congr (retire_handles s r ha h) ?_ _
  obtain ⟨sp, det, ec⟩ := retire_curTeam s r ha h
  rw [ec]
  refine (Team.liveSet_groups (t := s.curTeam.modGroup s.curAgent.host fun g => g.retireIn s.tick sp det r) rfl).trans ?_
  exact Team.liveSet_modGroup s.curTeam _ _ rfl
/-- Without a re-issued instruction retiring keeps every agent's lanes, entry set and regions. -/
theorem retire_agents (s : State) (r : Ret) (ha : cellHas s.curTeam.agents s.cur.agent = true) (h : s.reissues = false) : sameAgents s (s.retire r) := by
  intro n
  obtain ⟨sp, det, ec⟩ := retire_curTeam s r ha h
  rw [ec]
  have hm : cellHas (s.curTeam.modGroup s.curAgent.host fun g => g.retireIn s.tick sp det r).agents s.cur.agent = true := ha
  rw [Team.agent_modAgent]
  split
  · next e => rw [e.1]; rfl
  · rfl

/-- An instruction that ends in writes of registers and in retiring completes: what it leaves is what the writes leave. -/
theorem completes_retire {i : Instr} {s t : State} {v : Nat → Nat → Word} {x : Nat → DWord} {sat : Nat → BitVec 2} (r : Ret) (hr : r.words = 1)
    (hc : s.canIssue = true) (e : exec i s = .next (t.retire r)) (o : onlyRegisters s t) (a : t.curTeam.agents = s.curTeam.agents) (k : sameSets s t)
    (hv : ∀ gl n, t.vreg gl n = v gl n)
    (hx : ∀ g n, cellGet 0 (t.curTeam.group g).s n = if g = s.curAgent.host then x n else cellGet 0 (s.curTeam.group g).s n)
    (hs : ∀ g, (t.curTeam.group g).sat = sat g) : completes i s v x sat := by
  have c := retire_calm t r
  have ca : t.curAgent = s.curAgent := by
    unfold State.curAgent Team.agent; rw [a, onlyTeam_cur o.1]
  refine ⟨_, e, onlyRegisters_trans o (calm_registers c), fun gl n => (calm_vreg c gl n).trans (hv gl n), fun g n => ?_, fun g => ?_, fun h => ?_⟩
  · rw [(calm_group c g).2.1]; exact hx g n
  · rw [(calm_group c g).2.2.2.1]; exact hs g
  · have ha : cellHas t.curTeam.agents t.cur.agent = true := by
      rw [a, onlyTeam_cur o.1]; unfold State.canIssue at hc; simp only [Bool.and_eq_true] at hc; exact hc.2
    have ht : t.reissues = false := by unfold State.reissues at *; rw [ca]; exact h
    rw [retire_agent t r ha ht, ca]
    refine ⟨by simp [Agent.retireIn, hr], by simp [Agent.retireIn, hr], fun g n => (retire_sets t r ha ht g n).trans (k g n), fun n => ?_⟩
    rw [retire_agents t r ha ht n]
    exact congrArg Agent.settled (by unfold Team.agent; rw [a])

/-- A lane effect completes. -/
theorem laneOp_completes {i : Instr} {s : State} {k : KReg} {d : VReg} {f : Nat → Word} (hc : s.canIssue = true) (e : exec i s = .next (s.laneOp k d f)) :
    laneCompletes i s k d f := by
  obtain ⟨q1, v1, x1⟩ := quiet_clearK s k.toNat
  obtain ⟨q2, v2, x2⟩ := quiet_writeLanes (s.clearK k.toNat) (s.lanes k) d.toNat f
  have q := q1.trans q2
  refine completes_retire {} rfl hc e q.only q.agents q.sets (fun gl r => ?_) (fun g n => ?_) fun g => q.sat g
  · rw [v2, v1]; unfold State.newLanes; simp only [List.mem_singleton]
  · rw [x2, x1]; split
    · next h => rw [h]; rfl
    · rfl

/-- A pair effect completes. -/
theorem pairOp_completes {i : Instr} {s : State} {k : KReg} {d : VReg} {f : Nat → DWord} (hc : s.canIssue = true) (e : exec i s = .next (s.pairOp k d f)) :
    pairCompletes i s k d f := by
  obtain ⟨q1, v1, x1⟩ := quiet_clearK s k.toNat
  obtain ⟨q2, v2, x2⟩ := quiet_writeLanes (s.clearK k.toNat) (s.lanes k) d.toNat fun gl => (f gl).setWidth 32
  obtain ⟨q3, v3, x3⟩ := quiet_writeLanes ((s.clearK k.toNat).writeLanes (s.lanes k) d.toNat fun gl => (f gl).setWidth 32) (s.lanes k) (d.toNat + 1)
    fun gl => (f gl >>> 32).setWidth 32
  have q := (q1.trans q2).trans q3
  refine completes_retire {} rfl hc e q.only q.agents q.sets (fun gl r => ?_) (fun g n => ?_) fun g => q.sat g
  · refine (v3 gl r).trans ?_
    rw [v2, v1]; unfold State.newLanes
    by_cases h1 : gl ∈ s.lanes k
    · by_cases h2 : r = d.toNat
      · subst h2; simp [h1]
      · by_cases h3 : r = d.toNat + 1
        · subst h3; simp [h1]
        · simp [h2, h3]
    · simp [h1]
  · refine (congrArg (fun m => cellGet 0 m n) (x3 g)).trans ?_
    rw [x2, x1]; split
    · next h => rw [h]; rfl
    · rfl

/-- A scalar effect completes. -/
theorem scalOp_completes {i : Instr} {s : State} {d : SReg} {x : DWord} (hc : s.canIssue = true) (e : exec i s = .next (s.scalOp d x)) : scalarCompletes i s d x := by
  obtain ⟨q, v1, x1⟩ := quiet_setSreg s d.toNat x
  refine completes_retire {} rfl hc e q.only q.agents q.sets (fun gl r => v1 gl r) (fun g n => ?_) fun g => q.sat g
  rw [x1]
  by_cases h1 : g = s.curAgent.host
  · subst h1
    by_cases h2 : n = d.toNat
    · subst h2; simp
    · simp [h2]; rfl
  · simp [h1]

end Sys2Proof.Machine
end

