-- ==== Sys2Proof/Laws/PerInstr.lean ====
section
/-! SUPPORT. Every instruction's encoding has as many code words as the instruction occupies, and an event or a row of unassigned words has none: one
lemma for each constructor. -/

namespace Sys2Proof.Laws.WordCount

open Sys2Proof

/-- The encoding is empty, or has the instruction's number of words (R19, R28). -/
def Statement (i : Instr) : Prop := encode i = [] ∨ (encode i).length = i.words

/-- An encoding of one word, or of none. -/
theorem one {i : Instr} (h : (encodeNat i).length ≤ 1) (w : i.words = 1) : Statement i := by
  unfold Statement encode
  rw [w]
  rcases e : encodeNat i with _ | ⟨x, l⟩
  · exact .inl rfl
  · right
    rw [e] at h
    simp only [List.length_map, List.length_cons] at h ⊢
    omega
/-- An encoding of two words. -/
theorem two {i : Instr} (h : (encodeNat i).length = 2) (w : i.words = 2) : Statement i := by
  unfold Statement encode
  rw [w, List.length_map, h]
  exact .inr rfl

theorem nop : Statement .nop := one (Nat.le_refl 1) rfl
theorem br : ∀ x0 x1 x2, Statement (.br x0 x1 x2) := fun _ _ _ => one (Nat.le_refl 1) rfl
theorem bnz : ∀ x0 x1 x2, Statement (.bnz x0 x1 x2) := fun _ _ _ => one (Nat.le_refl 1) rfl
theorem bz : ∀ x0 x1 x2, Statement (.bz x0 x1 x2) := fun _ _ _ => one (Nat.le_refl 1) rfl
theorem call : ∀ x0, Statement (.call x0) := fun _ => one (Nat.le_refl 1) rfl
theorem ret : Statement .ret := one (Nat.le_refl 1) rfl
theorem apply : ∀ x0 x1, Statement (.apply x0 x1) := fun _ _ => one (Nat.le_refl 1) rfl
theorem applyT : ∀ x0 x1 x2, Statement (.applyT x0 x1 x2) := fun _ _ _ => one (Nat.le_refl 1) rfl
theorem apply2 : ∀ x0 x1 x2 x3, Statement (.apply2 x0 x1 x2 x3) := fun _ _ _ _ => one (Nat.le_refl 1) rfl
theorem join : Statement .join := one (Nat.le_refl 1) rfl
theorem exit : ∀ x0, Statement (.exit x0) := fun _ => one (Nat.le_refl 1) rfl
theorem await : ∀ x0 x1, Statement (.await x0 x1) := fun _ _ => one (Nat.le_refl 1) rfl
theorem awaitTimeout : ∀ x0, Statement (.awaitTimeout x0) := fun _ => one (Nat.zero_le 1) rfl
theorem yield : Statement .yield := one (Nat.le_refl 1) rfl
theorem trap : ∀ x0 x1, Statement (.trap x0 x1) := fun _ _ => one (Nat.le_refl 1) rfl
theorem bkpt : ∀ x0 x1, Statement (.bkpt x0 x1) := fun _ _ => one (Nat.le_refl 1) rfl
theorem tret : Statement .tret := one (Nat.le_refl 1) rfl
theorem tretSkip : Statement .tretSkip := one (Nat.le_refl 1) rfl
theorem tretComplete : Statement .tretComplete := one (Nat.le_refl 1) rfl
theorem tkill : Statement .tkill := one (Nat.le_refl 1) rfl
theorem tpass : Statement .tpass := one (Nat.le_refl 1) rfl
theorem trapDelivery : ∀ x0, Statement (.trapDelivery x0) := fun _ => one (Nat.zero_le 1) rfl
theorem test : ∀ x0 x1 x2 x3 x4 x5, Statement (.test x0 x1 x2 x3 x4 x5) := fun _ _ _ _ _ _ => one (Nat.le_refl 1) rfl
theorem kall : ∀ x0, Statement (.kall x0) := fun _ => one (Nat.le_refl 1) rfl
theorem kunion : ∀ x0 x1 x2, Statement (.kunion x0 x1 x2) := fun _ _ _ => one (Nat.le_refl 1) rfl
theorem kinter : ∀ x0 x1 x2, Statement (.kinter x0 x1 x2) := fun _ _ _ => one (Nat.le_refl 1) rfl
theorem kdiff : ∀ x0 x1 x2, Statement (.kdiff x0 x1 x2) := fun _ _ _ => one (Nat.le_refl 1) rfl
theorem kcount : ∀ x0 x1, Statement (.kcount x0 x1) := fun _ _ => one (Nat.le_refl 1) rfl
theorem kfirst : ∀ x0 x1, Statement (.kfirst x0 x1) := fun _ _ => one (Nat.le_refl 1) rfl
theorem kmatch : ∀ x0 x1 x2 x3, Statement (.kmatch x0 x1 x2 x3) := fun _ _ _ _ => one (Nat.le_refl 1) rfl
theorem kgatherT : ∀ x0 x1, Statement (.kgatherT x0 x1) := fun _ _ => one (Nat.le_refl 1) rfl
theorem kmov : ∀ x0 x1, Statement (.kmov x0 x1) := fun _ _ => one (Nat.le_refl 1) rfl
theorem kld : ∀ x0 x1, Statement (.kld x0 x1) := fun _ _ => one (Nat.le_refl 1) rfl
theorem kst : ∀ x0 x1, Statement (.kst x0 x1) := fun _ _ => one (Nat.le_refl 1) rfl
theorem iadd : ∀ x0, Statement (.iadd x0) := fun _ => one (Nat.le_refl 1) rfl
theorem isub : ∀ x0, Statement (.isub x0) := fun _ => one (Nat.le_refl 1) rfl
theorem imul : ∀ x0, Statement (.imul x0) := fun _ => one (Nat.le_refl 1) rfl
theorem imulhiS : ∀ x0, Statement (.imulhiS x0) := fun _ => one (Nat.le_refl 1) rfl
theorem imulhiN : ∀ x0, Statement (.imulhiN x0) := fun _ => one (Nat.le_refl 1) rfl
theorem imad : ∀ x0, Statement (.imad x0) := fun _ => one (Nat.le_refl 1) rfl
theorem iminS : ∀ x0, Statement (.iminS x0) := fun _ => one (Nat.le_refl 1) rfl
theorem iminN : ∀ x0, Statement (.iminN x0) := fun _ => one (Nat.le_refl 1) rfl
theorem imaxS : ∀ x0, Statement (.imaxS x0) := fun _ => one (Nat.le_refl 1) rfl
theorem imaxN : ∀ x0, Statement (.imaxN x0) := fun _ => one (Nat.le_refl 1) rfl
theorem iabs : ∀ x0, Statement (.iabs x0) := fun _ => one (Nat.le_refl 1) rfl
theorem ineg : ∀ x0, Statement (.ineg x0) := fun _ => one (Nat.le_refl 1) rfl
theorem and : ∀ x0, Statement (.and x0) := fun _ => one (Nat.le_refl 1) rfl
theorem or : ∀ x0, Statement (.or x0) := fun _ => one (Nat.le_refl 1) rfl
theorem xor : ∀ x0, Statement (.xor x0) := fun _ => one (Nat.le_refl 1) rfl
theorem not : ∀ x0, Statement (.not x0) := fun _ => one (Nat.le_refl 1) rfl
theorem shl : ∀ x0, Statement (.shl x0) := fun _ => one (Nat.le_refl 1) rfl
theorem shr : ∀ x0, Statement (.shr x0) := fun _ => one (Nat.le_refl 1) rfl
theorem sar : ∀ x0, Statement (.sar x0) := fun _ => one (Nat.le_refl 1) rfl
theorem rotl : ∀ x0, Statement (.rotl x0) := fun _ => one (Nat.le_refl 1) rfl
theorem popc : ∀ x0, Statement (.popc x0) := fun _ => one (Nat.le_refl 1) rfl
theorem clz : ∀ x0, Statement (.clz x0) := fun _ => one (Nat.le_refl 1) rfl
theorem brev : ∀ x0, Statement (.brev x0) := fun _ => one (Nat.le_refl 1) rfl
theorem bfxS : ∀ x0, Statement (.bfxS x0) := fun _ => one (Nat.le_refl 1) rfl
theorem bfxN : ∀ x0, Statement (.bfxN x0) := fun _ => one (Nat.le_refl 1) rfl
theorem bfi : ∀ x0, Statement (.bfi x0) := fun _ => one (Nat.le_refl 1) rfl
theorem prm : ∀ x0, Statement (.prm x0) := fun _ => one (Nat.le_refl 1) rfl
theorem sel : ∀ x0, Statement (.sel x0) := fun _ => one (Nat.le_refl 1) rfl
theorem fadd : ∀ x0, Statement (.fadd x0) := fun _ => one (Nat.le_refl 1) rfl
theorem fsub : ∀ x0, Statement (.fsub x0) := fun _ => one (Nat.le_refl 1) rfl
theorem fmul : ∀ x0, Statement (.fmul x0) := fun _ => one (Nat.le_refl 1) rfl
theorem ffma : ∀ x0, Statement (.ffma x0) := fun _ => one (Nat.le_refl 1) rfl
theorem fmin : ∀ x0, Statement (.fmin x0) := fun _ => one (Nat.le_refl 1) rfl
theorem fmax : ∀ x0, Statement (.fmax x0) := fun _ => one (Nat.le_refl 1) rfl
theorem frcp : ∀ x0, Statement (.frcp x0) := fun _ => one (Nat.le_refl 1) rfl
theorem frsq : ∀ x0, Statement (.frsq x0) := fun _ => one (Nat.le_refl 1) rfl
theorem fsqrt : ∀ x0, Statement (.fsqrt x0) := fun _ => one (Nat.le_refl 1) rfl
theorem fexp2 : ∀ x0, Statement (.fexp2 x0) := fun _ => one (Nat.le_refl 1) rfl
theorem flog2 : ∀ x0, Statement (.flog2 x0) := fun _ => one (Nat.le_refl 1) rfl
theorem fsin : ∀ x0, Statement (.fsin x0) := fun _ => one (Nat.le_refl 1) rfl
theorem fcos : ∀ x0, Statement (.fcos x0) := fun _ => one (Nat.le_refl 1) rfl
theorem fscale : ∀ x0 x1 x2 x3 x4, Statement (.fscale x0 x1 x2 x3 x4) := fun _ _ _ _ _ => one (Nat.le_refl 1) rfl
theorem fclass : ∀ x0 x1 x2, Statement (.fclass x0 x1 x2) := fun _ _ _ => one (Nat.le_refl 1) rfl
theorem dadd : ∀ x0, Statement (.dadd x0) := fun _ => one (Nat.le_refl 1) rfl
theorem dmul : ∀ x0, Statement (.dmul x0) := fun _ => one (Nat.le_refl 1) rfl
theorem dfma : ∀ x0, Statement (.dfma x0) := fun _ => one (Nat.le_refl 1) rfl
theorem dmin : ∀ x0, Statement (.dmin x0) := fun _ => one (Nat.le_refl 1) rfl
theorem dmax : ∀ x0, Statement (.dmax x0) := fun _ => one (Nat.le_refl 1) rfl
theorem hadd2 : ∀ x0, Statement (.hadd2 x0) := fun _ => one (Nat.le_refl 1) rfl
theorem hmul2 : ∀ x0, Statement (.hmul2 x0) := fun _ => one (Nat.le_refl 1) rfl
theorem hfma2 : ∀ x0, Statement (.hfma2 x0) := fun _ => one (Nat.le_refl 1) rfl
theorem badd2 : ∀ x0, Statement (.badd2 x0) := fun _ => one (Nat.le_refl 1) rfl
theorem bfma2 : ∀ x0, Statement (.bfma2 x0) := fun _ => one (Nat.le_refl 1) rfl
theorem cvt : ∀ x0 x1 x2 x3 x4 x5 x6 x7, Statement (.cvt x0 x1 x2 x3 x4 x5 x6 x7) := fun _ _ _ _ _ _ _ _ => one (Nat.le_refl 1) rfl
theorem cvtSr : ∀ x0 x1 x2 x3 x4 x5 x6 x7, Statement (.cvtSr x0 x1 x2 x3 x4 x5 x6 x7) := fun _ _ _ _ _ _ _ _ => one (Nat.le_refl 1) rfl
theorem rnd : ∀ x0 x1 x2 x3, Statement (.rnd x0 x1 x2 x3) := fun _ _ _ _ => one (Nat.le_refl 1) rfl
theorem dot2H16 : ∀ x0, Statement (.dot2H16 x0) := fun _ => one (Nat.le_refl 1) rfl
theorem dot2B16 : ∀ x0, Statement (.dot2B16 x0) := fun _ => one (Nat.le_refl 1) rfl
theorem dot4S8 : ∀ x0, Statement (.dot4S8 x0) := fun _ => one (Nat.le_refl 1) rfl
theorem dot4N8 : ∀ x0, Statement (.dot4N8 x0) := fun _ => one (Nat.le_refl 1) rfl
theorem dot4F8E4 : ∀ x0, Statement (.dot4F8E4 x0) := fun _ => one (Nat.le_refl 1) rfl
theorem dot4F8E5 : ∀ x0, Statement (.dot4F8E5 x0) := fun _ => one (Nat.le_refl 1) rfl
theorem dot8S4 : ∀ x0, Statement (.dot8S4 x0) := fun _ => one (Nat.le_refl 1) rfl
theorem dot8N4 : ∀ x0, Statement (.dot8N4 x0) := fun _ => one (Nat.le_refl 1) rfl
theorem dot8F4E2M1 : ∀ x0, Statement (.dot8F4E2M1 x0) := fun _ => one (Nat.le_refl 1) rfl
theorem shflIdx : ∀ x0 x1 x2 x3, Statement (.shflIdx x0 x1 x2 x3) := fun _ _ _ _ => one (Nat.le_refl 1) rfl
theorem shflUp : ∀ x0 x1 x2 x3, Statement (.shflUp x0 x1 x2 x3) := fun _ _ _ _ => one (Nat.le_refl 1) rfl
theorem shflDown : ∀ x0 x1 x2 x3, Statement (.shflDown x0 x1 x2 x3) := fun _ _ _ _ => one (Nat.le_refl 1) rfl
theorem shflXor : ∀ x0 x1 x2 x3, Statement (.shflXor x0 x1 x2 x3) := fun _ _ _ _ => one (Nat.le_refl 1) rfl
theorem shflNx : ∀ x0 x1 x2, Statement (.shflNx x0 x1 x2) := fun _ _ _ => one (Nat.le_refl 1) rfl
theorem shflPv : ∀ x0 x1 x2, Statement (.shflPv x0 x1 x2) := fun _ _ _ => one (Nat.le_refl 1) rfl
theorem bcast : ∀ x0 x1 x2 x3, Statement (.bcast x0 x1 x2 x3)
  | _, _, _, .lit _ | _, _, _, .s _ => one (Nat.le_refl 1) rfl
theorem bcastScalar : ∀ x0 x1 x2 x3, Statement (.bcastScalar x0 x1 x2 x3)
  | _, _, _, .lit _ | _, _, _, .s _ => one (Nat.le_refl 1) rfl
theorem red : ∀ x0 x1 x2 x3 x4, Statement (.red x0 x1 x2 x3 x4)
  | _, _, _, .v _, _ | _, _, _, .s _, _ => one (Nat.le_refl 1) rfl
theorem redx : ∀ x0 x1 x2 x3, Statement (.redx x0 x1 x2 x3)
  | _, _, .v _ _, _ | _, _, .s _ _, _ => one (Nat.le_refl 1) rfl
theorem scan : ∀ x0 x1 x2 x3 x4 x5, Statement (.scan x0 x1 x2 x3 x4 x5) := fun _ _ _ _ _ _ => one (Nat.le_refl 1) rfl
theorem ld : ∀ x0 x1 x2 x3, Statement (.ld x0 x1 x2 x3) := fun _ _ _ _ => one (Nat.le_refl 1) rfl
theorem ldFe : ∀ x0 x1 x2 x3, Statement (.ldFe x0 x1 x2 x3) := fun _ _ _ _ => one (Nat.le_refl 1) rfl
theorem ldTake : ∀ x0 x1 x2 x3, Statement (.ldTake x0 x1 x2 x3) := fun _ _ _ _ => one (Nat.le_refl 1) rfl
theorem st : ∀ x0 x1 x2 x3, Statement (.st x0 x1 x2 x3) := fun _ _ _ _ => one (Nat.le_refl 1) rfl
theorem atom : ∀ x0 x1, Statement (.atom x0 x1) := fun _ _ => one (Nat.le_refl 1) rfl
theorem tld : ∀ x0, Statement (.tld x0) := fun _ => two rfl rfl
theorem tred : ∀ x0, Statement (.tred x0) := fun _ => two rfl rfl
theorem ttr : ∀ x0, Statement (.ttr x0) := fun _ => two rfl rfl
theorem gather : ∀ x0, Statement (.gather x0) := fun _ => two rfl rfl
theorem scatter : ∀ x0, Statement (.scatter x0) := fun _ => two rfl rfl
theorem lld : ∀ x0, Statement (.lld x0) := fun _ => two rfl rfl
theorem lst : ∀ x0, Statement (.lst x0) := fun _ => two rfl rfl
theorem push : ∀ x0 x1 x2, Statement (.push x0 x1 x2) := fun _ _ _ => one (Nat.le_refl 1) rfl
theorem pop : ∀ x0 x1 x2, Statement (.pop x0 x1 x2) := fun _ _ _ => one (Nat.le_refl 1) rfl
theorem lrec : ∀ x0 x1, Statement (.lrec x0 x1) := fun _ _ => one (Nat.le_refl 1) rfl
theorem lfence : Statement .lfence := one (Nat.le_refl 1) rfl
theorem layoutCacheFill : ∀ x0 x1 x2, Statement (.layoutCacheFill x0 x1 x2) := fun _ _ _ => one (Nat.zero_le 1) rfl
theorem fence : ∀ x0, Statement (.fence x0) := fun _ => one (Nat.le_refl 1) rfl
theorem bar : Statement .bar := one (Nat.le_refl 1) rfl
theorem cbar : Statement .cbar := one (Nat.le_refl 1) rfl
theorem clockChange : ∀ x0, Statement (.clockChange x0) := fun _ => one (Nat.zero_le 1) rfl
theorem pbarArrive : ∀ x0 x1, Statement (.pbarArrive x0 x1) := fun _ _ => one (Nat.le_refl 1) rfl
theorem pbarWait : ∀ x0 x1, Statement (.pbarWait x0 x1) := fun _ _ => one (Nat.le_refl 1) rfl
theorem bmwait : ∀ x0 x1 x2 x3 x4, Statement (.bmwait x0 x1 x2 x3 x4) := fun _ _ _ _ _ => two rfl rfl
theorem cpy : ∀ x0, Statement (.cpy x0) := fun _ => two rfl rfl
theorem cpyx : ∀ x0, Statement (.cpyx x0) := fun _ => two rfl rfl
theorem cpym : ∀ x0 x1, Statement (.cpym x0 x1) := fun _ _ => two rfl rfl
theorem copyAccept : ∀ x0, Statement (.copyAccept x0) := fun _ => one (Nat.zero_le 1) rfl
theorem sliceStart : ∀ x0, Statement (.sliceStart x0) := fun _ => one (Nat.zero_le 1) rfl
theorem chunkLand : ∀ x0 x1 x2, Statement (.chunkLand x0 x1 x2) := fun _ _ _ => one (Nat.zero_le 1) rfl
theorem deliveryLand : ∀ x0 x1 x2 x3, Statement (.deliveryLand x0 x1 x2 x3) := fun _ _ _ _ => one (Nat.zero_le 1) rfl
theorem gang : ∀ x0, Statement (.gang x0) := fun _ => one (Nat.le_refl 1) rfl
theorem mma : ∀ x0, Statement (.mma x0) := fun _ => two rfl rfl
theorem commandAccept : ∀ x0 x1 x2, Statement (.commandAccept x0 x1 x2) := fun _ _ _ => one (Nat.zero_le 1) rfl
theorem commandStart : ∀ x0 x1 x2, Statement (.commandStart x0 x1 x2) := fun _ _ _ => one (Nat.zero_le 1) rfl
theorem matrixARead : ∀ x0 x1 x2, Statement (.matrixARead x0 x1 x2) := fun _ _ _ => one (Nat.zero_le 1) rfl
theorem commandComplete : ∀ x0 x1 x2, Statement (.commandComplete x0 x1 x2) := fun _ _ _ => one (Nat.zero_le 1) rfl
theorem mfenceOpr : Statement .mfenceOpr := one (Nat.le_refl 1) rfl
theorem mwait : ∀ x0, Statement (.mwait x0) := fun _ => one (Nat.le_refl 1) rfl
theorem mwaitAll : Statement .mwaitAll := one (Nat.le_refl 1) rfl
theorem mwaitPop : ∀ x0 x1, Statement (.mwaitPop x0 x1) := fun _ _ => one (Nat.le_refl 1) rfl
theorem emit : ∀ x0, Statement (.emit x0)
  | .lane _ _ _ | .scalar _ _ => one (Nat.le_refl 1) rfl
theorem rolesw : ∀ x0, Statement (.rolesw x0) := fun _ => one (Nat.le_refl 1) rfl
theorem rsr : ∀ x0, Statement (.rsr x0)
  | .lane _ _ _ _ | .scalar _ _ => one (Nat.le_refl 1) rfl
theorem wsr : ∀ x0 x1, Statement (.wsr x0 x1) := fun _ _ => one (Nat.le_refl 1) rfl
theorem rmode : ∀ x0, Statement (.rmode x0) := fun _ => one (Nat.le_refl 1) rfl
theorem trec : ∀ x0 x1, Statement (.trec x0 x1) := fun _ _ => one (Nat.le_refl 1) rfl
theorem priorityBoost : ∀ x0 x1, Statement (.priorityBoost x0 x1) := fun _ _ => one (Nat.zero_le 1) rfl
theorem registerFill : ∀ x0 x1 x2, Statement (.registerFill x0 x1 x2) := fun _ _ _ => one (Nat.zero_le 1) rfl
theorem pageWalk : ∀ x0 x1, Statement (.pageWalk x0 x1) := fun _ _ => one (Nat.zero_le 1) rfl
theorem doorbell : ∀ x0 x1, Statement (.doorbell x0 x1) := fun _ _ => one (Nat.zero_le 1) rfl
theorem launchPacket : ∀ x0, Statement (.launchPacket x0) := fun _ => one (Nat.zero_le 1) rfl
theorem loadPacket : ∀ x0, Statement (.loadPacket x0) := fun _ => one (Nat.zero_le 1) rfl
theorem unloadPacket : ∀ x0, Statement (.unloadPacket x0) := fun _ => one (Nat.zero_le 1) rfl
theorem entryRecordEnter : ∀ x0, Statement (.entryRecordEnter x0) := fun _ => one (Nat.zero_le 1) rfl
theorem binTimerExpiry : ∀ x0 x1, Statement (.binTimerExpiry x0 x1) := fun _ _ => one (Nat.zero_le 1) rfl
theorem dispatchPlace : ∀ x0, Statement (.dispatchPlace x0) := fun _ => one (Nat.zero_le 1) rfl
theorem stallCountExpiry : ∀ x0, Statement (.stallCountExpiry x0) := fun _ => one (Nat.zero_le 1) rfl
theorem preemptionStop : ∀ x0, Statement (.preemptionStop x0) := fun _ => one (Nat.zero_le 1) rfl
theorem teamEvicted : ∀ x0, Statement (.teamEvicted x0) := fun _ => one (Nat.zero_le 1) rfl
theorem savePoolSave : ∀ x0, Statement (.savePoolSave x0) := fun _ => one (Nat.zero_le 1) rfl
theorem commit : ∀ x0, Statement (.commit x0) := fun _ => one (Nat.zero_le 1) rfl
theorem launchComplete : ∀ x0, Statement (.launchComplete x0) := fun _ => one (Nat.zero_le 1) rfl
theorem ctlPreemptInterface : ∀ x0, Statement (.ctlPreemptInterface x0) := fun _ => one (Nat.zero_le 1) rfl
theorem ctlPreemptLaunch : ∀ x0 x1, Statement (.ctlPreemptLaunch x0 x1) := fun _ _ => one (Nat.zero_le 1) rfl
theorem ctlPreemptTeam : ∀ x0 x1, Statement (.ctlPreemptTeam x0 x1) := fun _ _ => one (Nat.zero_le 1) rfl
theorem ctlRelease : ∀ x0 x1, Statement (.ctlRelease x0 x1) := fun _ _ => one (Nat.zero_le 1) rfl
theorem ctlInvalidate : ∀ x0 x1, Statement (.ctlInvalidate x0 x1) := fun _ _ => one (Nat.zero_le 1) rfl
theorem ctlReleaseEscalated : ∀ x0 x1, Statement (.ctlReleaseEscalated x0 x1) := fun _ _ => one (Nat.zero_le 1) rfl
theorem ctlAbort : ∀ x0 x1, Statement (.ctlAbort x0 x1) := fun _ _ => one (Nat.zero_le 1) rfl
theorem ctlWriteHistograms : ∀ x0, Statement (.ctlWriteHistograms x0) := fun _ => one (Nat.zero_le 1) rfl
theorem ctlRequestComplete : ∀ x0, Statement (.ctlRequestComplete x0) := fun _ => one (Nat.zero_le 1) rfl
theorem mtCounterWrite : ∀ x0 x1, Statement (.mtCounterWrite x0 x1) := fun _ _ => one (Nat.zero_le 1) rfl
theorem registerWrite : ∀ x0, Statement (.registerWrite x0) := fun _ => one (Nat.zero_le 1) rfl
theorem imageWrite : ∀ x0 x1 x2, Statement (.imageWrite x0 x1 x2) := fun _ _ _ => one (Nat.zero_le 1) rfl
theorem moveStart : ∀ x0 x1 x2, Statement (.moveStart x0 x1 x2) := fun _ _ _ => one (Nat.zero_le 1) rfl
theorem moveRowCopy : ∀ x0, Statement (.moveRowCopy x0) := fun _ => one (Nat.zero_le 1) rfl
theorem moveSwitch : ∀ x0, Statement (.moveSwitch x0) := fun _ => one (Nat.zero_le 1) rfl
theorem agingSweep : ∀ x0 x1, Statement (.agingSweep x0 x1) := fun _ _ => one (Nat.zero_le 1) rfl
theorem metadataEvict : ∀ x0, Statement (.metadataEvict x0) := fun _ => one (Nat.zero_le 1) rfl
theorem bankRebuildDone : ∀ x0, Statement (.bankRebuildDone x0) := fun _ => one (Nat.zero_le 1) rfl
theorem powerThrottleStep : ∀ x0, Statement (.powerThrottleStep x0) := fun _ => one (Nat.zero_le 1) rfl
theorem thermalThrottle : ∀ x0, Statement (.thermalThrottle x0) := fun _ => one (Nat.zero_le 1) rfl
theorem coolantLoss : Statement .coolantLoss := one (Nat.zero_le 1) rfl
theorem clockModeChange : ∀ x0, Statement (.clockModeChange x0) := fun _ => one (Nat.zero_le 1) rfl
theorem sleepEnter : ∀ x0, Statement (.sleepEnter x0) := fun _ => one (Nat.zero_le 1) rfl
theorem syscallStop : ∀ x0 x1 x2, Statement (.syscallStop x0 x1 x2) := fun _ _ _ => one (Nat.zero_le 1) rfl
theorem resetBoot : Statement .resetBoot := one (Nat.zero_le 1) rfl
theorem attest : ∀ x0 x1, Statement (.attest x0 x1) := fun _ _ => one (Nat.zero_le 1) rfl
theorem keyLoad : ∀ x0 x1, Statement (.keyLoad x0 x1) := fun _ _ => one (Nat.zero_le 1) rfl
theorem remoteRequest : ∀ x0, Statement (.remoteRequest x0) := fun _ => one (Nat.zero_le 1) rfl
theorem remoteAck : ∀ x0, Statement (.remoteAck x0) := fun _ => one (Nat.zero_le 1) rfl
theorem requestAbandon : ∀ x0, Statement (.requestAbandon x0) := fun _ => one (Nat.zero_le 1) rfl
theorem remoteAtomic : ∀ x0 x1 x2 x3 x4, Statement (.remoteAtomic x0 x1 x2 x3 x4) := fun _ _ _ _ _ => one (Nat.zero_le 1) rfl
theorem flowTableWrite : ∀ x0 x1 x2, Statement (.flowTableWrite x0 x1 x2) := fun _ _ _ => one (Nat.zero_le 1) rfl
theorem routeTableWrite : ∀ x0 x1, Statement (.routeTableWrite x0 x1) := fun _ _ => one (Nat.zero_le 1) rfl
theorem routeEpochSwitch : Statement .routeEpochSwitch := one (Nat.zero_le 1) rfl
theorem routeEpochFree : Statement .routeEpochFree := one (Nat.zero_le 1) rfl
theorem portRetire : ∀ x0, Statement (.portRetire x0) := fun _ => one (Nat.zero_le 1) rfl
theorem elevatorRetire : ∀ x0 x1, Statement (.elevatorRetire x0 x1) := fun _ _ => one (Nat.zero_le 1) rfl
theorem unassignedOpcodeIssue : ∀ x0 x1, Statement (.unassignedOpcodeIssue x0 x1) := fun _ _ => one (Nat.zero_le 1) rfl
theorem thermalThrottleRelease : ∀ x0, Statement (.thermalThrottleRelease x0) := fun _ => one (Nat.zero_le 1) rfl
theorem sharedMemoryWriteBack : ∀ x0, Statement (.sharedMemoryWriteBack x0) := fun _ => one (Nat.zero_le 1) rfl
theorem linkReplay : ∀ x0, Statement (.linkReplay x0) := fun _ => one (Nat.zero_le 1) rfl

end Sys2Proof.Laws.WordCount
end

