-- ==== Sys2Proof/Tests/Bench.lean ====
section
/-! SUPPORT. The small states of the tests and witnesses: one group, or two, in a block of a placed object. -/

namespace Sys2Proof.Bench

open Sys2Proof Sys2Proof.Machine

/-- One group of 32 lanes on core 0, in a block of two words, before its first. -/
def one : State := State.reset.withFetchWord 64 0
/-- The same with no turn left in the schedule. -/
def s0 : State := { one with schedule := [] }
/-- The same with words at the agent's PC, and the next turn its own. -/
def at_ (w : Nat) : State := State.reset.withFetchWord 64 w
/-- Changes of the issuing agent's group, agent, team and launch. -/
def grp (s : State) (f : Group → Group) : State := s.modCurGroup f
def agt (s : State) (f : Agent → Agent) : State := s.modCur f
def tm (s : State) (f : Team → Team) : State := s.modCurTeam f
def lch (s : State) (f : Launch → Launch) : State := s.modLaunch s.curTeam.launch f
/-- The next state of an outcome, or the old one. -/
def after (s : State) (o : Host.Outcome State Fault Refusal) : State := match o with | .next t => t | _ => s
/-- A register's lane 0, a scalar and a set register of the host group. -/
def setV (s : State) (r : Nat) (x : Word) : State := grp s fun g => { g with v := cellSet 0 g.v (32 * r) x }
def setS (s : State) (n : Nat) (x : DWord) : State := grp s fun g => { g with s := cellSet 0 g.s n x }
def setKd (s : State) (n : Nat) (x : DWord) : State := grp s fun g => { g with k := cellSet 0 g.k n x }
/-- One step from a state that fetches a word, changed first. -/
def ran (w : Nat) (f : State → State) : State := after (f (at_ w)) (step (f (at_ w)))

/-- A second group, with an agent of its own. -/
def two : State := tm s0 fun t =>
  { t with
    groupsN := 2
    groups := t.groups ++ [(1, placedGroup)]
    agents := t.agents ++ [(1, { placedAgent with host := 1, lanes := BitVec.ofNat 1024 ((2 ^ 32 - 1) * 2 ^ 32), k0 := localDesc 1 (2 ^ 32 - 1) })] }
/-- A record of one or two extents: space, type code, base, extents and strides (R144). -/
def record (space ty base e0 e1 s0 s1 : Nat) : BitVec 256 :=
  BitVec.ofNat 256 (base + (if e1 = 0 then 0 else 2 ^ 55) + ty * 2 ^ 57 + space * 2 ^ 62 + (e0 + e1 * 2 ^ 16) * 2 ^ 64 + (s0 + s1 * 2 ^ 32) * 2 ^ 128)
/-- One group with handle 1 for 64 words of shared memory from 0, handle 2 for 32 by 8 words from 0x400, handle 3 for main memory. -/
def mem : State := tm s0 fun t => { t with layouts := [(1, record 0 1 0 64 0 1 0), (2, record 0 1 0x400 32 8 1 32), (3, record 3 1 0x100000 4096 0 1 0)] }

/-- A header word: length, live mask 0xFFFF, continuation (R30). -/
def header (len cont : Nat) : DWord := BitVec.ofNat 64 (0x1FF * 2 ^ 55 + len * 2 ^ 45 + 0xFFFF * 2 ^ 29 + cont * 2 ^ 13)
/-- A state with other words in the placed object, and its kernel of their length with a handler. -/
def prog (s : State) (handler : Option Nat) (ws : List DWord) : State :=
  { s with
    main := ws.zipIdx.foldl (fun m w => writeBytes m (placedAt + 8 * w.2) (wordBytes w.1.toNat 8)) s.main
    objects := cellMod CodeObject.blank s.objects s.curLaunch.object fun o =>
      { o with words := ws.length, kernels := [{ placedKernel with words := ws.length, handler := handler }] } }
/-- Blocks: the agent's own at 0; at 3 and 5, both with the continuation 7. -/
def blocks : List DWord := [header 2 0, 2 ^ 55, 2 ^ 55, header 1 4, 2 ^ 55, header 1 2, 2 ^ 55, header 1 0, 2 ^ 55]
/-- One group, and two, in those blocks; k1 and k2 hold lanes of group 0, k4 lanes of both groups. -/
def blk : State := setKd (setKd (prog s0 none blocks) 1 (localDesc 0 3)) 2 (localDesc 0 0xC)
def both : LaneSet := BitVec.ofNat 1024 (1 + 2 ^ 32)
def blk2 : State := setKd (tm (setKd (setKd (prog two none blocks) 1 (localDesc 0 3)) 2 (localDesc 1 0xC)) fun t => { t with handles := [(7, both)] }) 4
  (teamDesc 2 7)

/-- A command of a full gang, led by group 0: its slots, and what its members named. -/
def cmd0 : Cmd :=
  { id := 5, leader := 0, gang := ⟨1, [0, 1, 2, 3], none⟩, state := .waiting, order := 1, fmt := .f32, n := 2, ranges := [(0, 32, 0)], pids := [], preds := [],
    layout := 2, arec := 0, coords := [0, 0, 0, 0], elem := 0, part := [], met := none, queued := false, recheck := false, pc := 1, fault := none, waited := [], views := [],
    obs := Obs.blank, clocks := [] }

end Sys2Proof.Bench
end

