-- ==== Sys2Proof/Tests/Published.lean ====
section
/-! SUPPORT. The two published functions against values that their standards publish: a byte of the substitution and a column of AES (FIPS 197), and SHAKE256
of the empty message (FIPS 202). -/

namespace Sys2Proof.Published

open Sys2Proof Sys2Proof.Machine

theorem test_subByte : subByte 0x53 = 0xED ∧ unsubByte 0xED = 0x53 := by decide +kernel
theorem test_mixColumns : (mixColumns [2, 3, 1, 1] ([0xDB, 0x13, 0x53, 0x45] ++ List.replicate 12 1)).take 4 = [0x8E, 0x4D, 0xA1, 0xBC] := by decide +kernel
theorem test_shake256 : (shake256 []).take 16 = [0x46, 0xB9, 0xDD, 0x2B, 0x0B, 0xA8, 0x8D, 0x13, 0x23, 0x3B, 0x3F, 0xEB, 0x74, 0x3E, 0xEB, 0x24] ∧
    (shake256 []).length = 64 := by decide +kernel

end Sys2Proof.Published
end

