-- ==== Sys2Proof/Tests/Slice0.lean ====
section
/-! SUPPORT. Tests: words written out from the encodings of the spec, what the decoder and WellFormed refuse, and single steps with results from the
spec's examples or worked out by hand. -/

namespace Sys2Proof.Tests

open Sys2Proof Sys2Proof.Machine Sys2Proof.Bench

set_option Elab.async false

/-- Each word, with its size, decodes to its instruction. -/
def reads (l : List (Nat × Nat × Instr)) : Bool := l.all fun p => decodeTableWord p.1 p.2.1 == some p.2.2
/-- Each word is refused with its cause (R36). -/
def refuses (l : List (Nat × Reject)) : Bool := l.all fun p => match decode (BitVec.ofNat 64 p.1) (some 0) with
  | .error c => c == p.2
  | .ok _ => false
/-- Each term is ill-formed. -/
def illFormed (l : List Instr) : Bool := l.all fun i => !i.wf
/-- Each term is well-formed. -/
def wellFormed (l : List Instr) : Bool := l.all fun i => i.wf

-- Decoding.
/-- Control flow (R26, R27, R33). -/
theorem test_decode_control : reads
  [(64, 0x0080000000000000, .nop),
   (64, 0x01000B807FF88000, .br 0 23 (-15)),
   (64, 0x018020207FFE8000, .bnz 1 4 (-3)),
   (64, 0x0200003800020000, .bz 0 7 4),
   (64, 0x0280000000048000, .call 9),
   (64, 0x0300000000000000, .ret),
   (64, 0x0380001800008000, .apply 3 1),
   (64, 0x0400203800008000, .applyT 1 7 1),
   (64, 0x0480001280037FFE, .apply2 2 5 6 (-2)),
   (64, 0x0500000000000000, .join),
   (64, 0x0598000000000000, .exit 3),
   (64, 0x060003007FFFFFFF, .await 6 0x7FFFFFFF),
   (64, 0x0680000000000000, .yield),
   (64, 0x071000000000ABCD, .trap 2 0xABCD),
   (64, 0x0780000000000000, .tret),
   (64, 0x0780000000000001, .tretSkip),
   (64, 0x0780000000000002, .tretComplete),
   (64, 0x0800000000000000, .tkill),
   (64, 0x0880000000000000, .tpass),
   (64, 0x0918000000000001, .bkpt 3 1)] = true := by decide +kernel

/-- Set instructions (R33, R99 to R104). -/
theorem test_decode_sets : reads
  [(64, 0x1480418040000002, .test .lt .n32 0 6 1 (.imm 2)),
   (64, 0x1B8800C101800000, .test .ge .f64 1 3 4 (.v 6)),
   (64, 0x120800C102400040, .test .ne .s32 1 3 4 (.s 9)),
   (64, 0x1C00010000000000, .kall 4),
   (64, 0x1C80010040800000, .kunion 4 1 2),
   (64, 0x1D00010040800000, .kinter 4 1 2),
   (64, 0x1D8003C383400000, .kdiff 15 14 13),
   (64, 0x1E000F4140000000, .kcount 61 5),
   (64, 0x1E80004240000000, .kfirst 1 9),
   (64, 0x1F3000C480000001, .kmatch 6 3 18 true),
   (64, 0x1F8001C0C0000000, .kgatherT 7 3),
   (64, 0x2000020000000000, .kmov 8 0),
   (64, 0x208102CA0C131200, .kld 5 ⟨2, .s 20, 1, .s 4, .lit 9, .v 0⟩),
   (64, 0x21000283D7FC0000, .kst 5 ⟨0, .handle 7, 10, .lit 127, .v 0, .v 0⟩)] = true := by decide +kernel

/-- Integer lane and scalar forms (R33, R79, R81). -/
theorem test_decode_integer_1 : reads
  [(64, 0x2800320002400040, .iadd (.lane 0 200 0 (.s 9))),
   (64, 0x3800000FC0400000, .iadd (.scalar 0 63 (.s 1))),
   (64, 0x288831C042800000, .isub (.lane 1 199 1 (.v 10))),
   (64, 0x3880404F80000001, .isub (.scalar 1 62 (.imm 1))),
   (64, 0x291071808FFFFFFE, .imul (.lane 2 198 2 (.imm (-2)))),
   (64, 0x3900008F40C00000, .imul (.scalar 2 61 (.s 3))),
   (64, 0x29983140C3000040, .imulhiS (.lane 3 197 3 (.s 12))),
   (64, 0x398040CF00000003, .imulhiS (.scalar 3 60 (.imm 3))),
   (64, 0x2A20310103400000, .imulhiN (.lane 4 196 4 (.v 13))),
   (64, 0x3A00010EC1400000, .imulhiN (.scalar 4 59 (.s 5))),
   (64, 0x2AA830C14181C020, .imad (.lane 5 195 5 (.v 6) (.s 7))),
   (64, 0x3A80014E8181C000, .imad (.scalar 5 58 6 7)),
   (64, 0x2B30308183C00040, .iminS (.lane 6 194 6 (.s 15))),
   (64, 0x3B00018E41C00000, .iminS (.scalar 6 57 (.s 7))),
   (64, 0x2BB83041C4000000, .iminN (.lane 7 193 7 (.v 16))),
   (64, 0x3B8041CE00000007, .iminN (.scalar 7 56 (.imm 7))),
   (64, 0x2C4070020FFFFFF8, .imaxS (.lane 8 192 8 (.imm (-8)))),
   (64, 0x3C00020DC2400000, .imaxS (.scalar 8 55 (.s 9))),
   (64, 0x2CC82FC244800040, .imaxN (.lane 9 191 9 (.s 18))),
   (64, 0x3C80424D80000009, .imaxN (.scalar 9 54 (.imm 9))),
   (64, 0x2D502F8340000000, .iabs (.lane 10 190 (.v 13))),
   (64, 0x3D00028D40000000, .iabs (.scalar 10 (.s 53))),
   (64, 0x2DD82F4380000000, .ineg (.lane 11 189 (.v 14))),
   (64, 0x3D8002CD00000000, .ineg (.scalar 11 (.s 52)))] = true := by decide +kernel

/-- Integer lane and scalar forms (R33, R79, R81). -/
theorem test_decode_integer_2 : reads
  [(64, 0x2E602F0305400040, .and (.lane 12 188 12 (.s 21))),
   (64, 0x3E00030CC3400000, .and (.scalar 12 51 (.s 13))),
   (64, 0x2EE82EC345800000, .or (.lane 13 187 13 (.v 22))),
   (64, 0x3E80434C8000000D, .or (.scalar 13 50 (.imm 13))),
   (64, 0x2F706E838FFFFFF2, .xor (.lane 14 186 14 (.imm (-14)))),
   (64, 0x3F00038C43C00000, .xor (.scalar 14 49 (.s 15))),
   (64, 0x2F802E4480000000, .not (.lane 0 185 (.v 18))),
   (64, 0x3F8003CC00000000, .not (.scalar 15 (.s 48))),
   (64, 0x30082E0406400000, .shl (.lane 1 184 16 (.v 25))),
   (64, 0x4000040BC4400000, .shl (.scalar 16 47 (.s 17))),
   (64, 0x30906DC44FFFFFEF, .shr (.lane 2 183 17 (.imm (-17)))),
   (64, 0x4080444B80000011, .shr (.scalar 17 46 (.imm 17))),
   (64, 0x31182D8486C00040, .sar (.lane 3 182 18 (.s 27))),
   (64, 0x4100048B44C00000, .sar (.scalar 18 45 (.s 19))),
   (64, 0x31A02D44C7000000, .rotl (.lane 4 181 19 (.v 28))),
   (64, 0x418044CB00000013, .rotl (.scalar 19 44 (.imm 19))),
   (64, 0x32282D05C0000000, .popc (.lane 5 180 (.v 23))),
   (64, 0x4200050AC0000000, .popc (.scalar 20 (.s 43))),
   (64, 0x32B02CC600000000, .clz (.lane 6 179 (.v 24))),
   (64, 0x4280054A80000000, .clz (.scalar 21 (.s 42))),
   (64, 0x33382C8640000000, .brev (.lane 7 178 (.v 25))),
   (64, 0x4300058A40000000, .brev (.scalar 22 (.s 41))),
   (64, 0x33C06C45CFFFFFE9, .bfxS (.lane 8 177 23 (.imm (-23)))),
   (64, 0x438045CA00000017, .bfxS (.scalar 23 40 (.imm 23)))] = true := by decide +kernel

/-- Integer lane and scalar forms (R33, R79, R81). -/
theorem test_decode_integer_3 : reads
  [(64, 0x34482C0608400040, .bfxN (.lane 9 176 24 (.s 33))),
   (64, 0x44000609C6400000, .bfxN (.scalar 24 39 (.s 25))),
   (64, 0x34D02BC64686C020, .bfi (.lane 10 175 25 (.v 26) (.s 27))),
   (64, 0x448006498686C000, .bfi (.scalar 25 38 26 27)),
   (64, 0x35080080C1014040, .prm (.lane 1 2 3 (.s 4) (.v 5))),
   (64, 0x35084080C8000000, .prm (.laneImm 1 2 3 0x8000000)),
   (64, 0x45000080C1014000, .prm (.scalar 2 3 4 5)),
   (64, 0x45004080C000004D, .prm (.scalarImm 2 3 77)),
   (64, 0x35E02B46C7074020, .sel (.lane 12 173 27 (.v 28) (.s 29))),
   (64, 0x458006C907074000, .sel (.scalar 27 36 28 29))] = true := by decide +kernel

/-- Floating point, conversions, draws and dot products (R33, R82 to R90). -/
theorem test_decode_floats_1 : reads
  [(64, 0x481000C101401000, .fadd (.lane 2 3 4 (.v 5) 1)),
   (64, 0x500040C133FC0000, .fadd (.scalar 3 4 (.imm 0x3FC0000) 3)),
   (64, 0x489000C101402040, .fsub (.lane 2 3 4 (.s 5) 2)),
   (64, 0x508040C123FC0000, .fsub (.scalar 3 4 (.imm 0x3FC0000) 2)),
   (64, 0x491000C101403000, .fmul (.lane 2 3 4 (.v 5) 3)),
   (64, 0x510040C113FC0000, .fmul (.scalar 3 4 (.imm 0x3FC0000) 1)),
   (64, 0x499000C10141A060, .ffma (.lane 2 3 4 (.s 5) (.s 6) 2)),
   (64, 0x518000C101419000, .ffma (.scalar 3 4 5 6 1)),
   (64, 0x4A1040C100000009, .fmin (.lane 2 3 4 (.imm 9))),
   (64, 0x520000C102000000, .fmin (.scalar 3 4 (.s 8))),
   (64, 0x4A9040C100000009, .fmax (.lane 2 3 4 (.imm 9))),
   (64, 0x528000C102000000, .fmax (.scalar 3 4 (.s 8))),
   (64, 0x4B0801C200000000, .frcp ⟨1, 0, 7, .v 8, 0⟩),
   (64, 0x4B88C1C010000001, .frsq ⟨1, 1, 7, .imm 1, 1⟩),
   (64, 0x4C0901C280002000, .fsqrt ⟨1, 2, 7, .v 10, 2⟩),
   (64, 0x4C89C1C030000003, .fexp2 ⟨1, 3, 7, .imm 3, 3⟩),
   (64, 0x4D0A01C300000000, .flog2 ⟨1, 4, 7, .v 12, 0⟩),
   (64, 0x4D8AC1C010000005, .fsin ⟨1, 5, 7, .imm 5, 1⟩),
   (64, 0x4E0B01C380002000, .fcos ⟨1, 6, 7, .v 14, 2⟩),
   (64, 0x4E880080C1003040, .fscale 1 2 3 (.s 4) 3),
   (64, 0x4F080080C0000000, .fclass 1 2 (.v 3)),
   (64, 0x581A808101802040, .dadd ⟨3, 5, 2, 4, .s 6, 2⟩),
   (64, 0x589A808101802040, .dmul ⟨3, 5, 2, 4, .s 6, 2⟩),
   (64, 0x591A808101822020, .dfma ⟨3, 5, 2, 4, .v 6, .s 8, 2⟩)] = true := by decide +kernel

/-- Floating point, conversions, draws and dot products (R33, R82 to R90). -/
theorem test_decode_floats_2 : reads
  [(64, 0x599A808101800040, .dmin ⟨3, 5, 2, 4, .s 6, 0⟩),
   (64, 0x5A1A808101800040, .dmax ⟨3, 5, 2, 4, .s 6, 0⟩),
   (64, 0x5A98008101802040, .hadd2 ⟨3, 0, 2, 4, .s 6, 2⟩),
   (64, 0x5B18008101802040, .hmul2 ⟨3, 0, 2, 4, .s 6, 2⟩),
   (64, 0x5B98008101822020, .hfma2 ⟨3, 0, 2, 4, .v 6, .s 8, 2⟩),
   (64, 0x5C18008101802040, .badd2 ⟨3, 0, 2, 4, .s 6, 2⟩),
   (64, 0x5C98008101822020, .bfma2 ⟨3, 0, 2, 4, .v 6, .s 8, 2⟩),
   (64, 0x660000C080000082, .cvt 0 .f8e4 .f32 0 3 2 2 0),
   (64, 0x628800C080401300, .cvt 1 .n32 .s16 1 3 2 0 1),
   (64, 0x68A000C082400049, .cvtSr 4 .h16 true 3 2 (.s 9) true 1),
   (64, 0x6BA000C082400087, .cvtSr 4 .f4e2m1 false 3 2 (.v 9) false 7),
   (64, 0x6C080080C1000040, .rnd 1 2 3 4),
   (64, 0x7018004080C11040, .dot2H16 ⟨3, 0, 1, 2, .s 3, .v 4, 1⟩),
   (64, 0x7098004080C11040, .dot2B16 ⟨3, 0, 1, 2, .s 3, .v 4, 1⟩),
   (64, 0x7118004080C10040, .dot4S8 ⟨3, 0, 1, 2, .s 3, .v 4, 0⟩),
   (64, 0x7198004080C10040, .dot4N8 ⟨3, 0, 1, 2, .s 3, .v 4, 0⟩),
   (64, 0x7218004080C11040, .dot4F8E4 ⟨3, 0, 1, 2, .s 3, .v 4, 1⟩),
   (64, 0x7298004080C11040, .dot4F8E5 ⟨3, 0, 1, 2, .s 3, .v 4, 1⟩),
   (64, 0x7318004080C10040, .dot8S4 ⟨3, 0, 1, 2, .s 3, .v 4, 0⟩),
   (64, 0x7398004080C10040, .dot8N4 ⟨3, 0, 1, 2, .s 3, .v 4, 0⟩),
   (64, 0x7418004080C11040, .dot8F4E2M1 ⟨3, 0, 1, 2, .s 3, .v 4, 1⟩)] = true := by decide +kernel

/-- Cross-lane instructions (R33, R91 to R95). -/
theorem test_decode_cross_1 : reads
  [(64, 0x78080080C1000040, .shflIdx 1 2 3 (.s 4)),
   (64, 0x78884080C0000001, .shflUp 1 2 3 (.imm 1)),
   (64, 0x79080080C1000000, .shflDown 1 2 3 (.v 4)),
   (64, 0x79884080C000001F, .shflXor 1 2 3 (.imm 31)),
   (64, 0x7A18010080000000, .shflNx 3 4 2),
   (64, 0x7A98010080000000, .shflPv 3 4 2),
   (64, 0x7B1801008000001F, .bcast 3 4 2 (.lit 31)),
   (64, 0x7B98010082400040, .bcastScalar 3 4 2 (.s 9)),
   (64, 0x7C180280C0000000, .red .add 0 3 (.v 10) 3),
   (64, 0x88180280C0000001, .scan .add true 0 3 10 3),
   (64, 0x7C980280C0002001, .red .addF32 2 3 (.s 10) 3),
   (64, 0x88980280C0002000, .scan .addF32 false 2 3 10 3),
   (64, 0x7D180280C0000000, .red .minS32 0 3 (.v 10) 3),
   (64, 0x89180280C0000001, .scan .minS32 true 0 3 10 3),
   (64, 0x7D980280C0000001, .red .minN32 0 3 (.s 10) 3),
   (64, 0x89980280C0000000, .scan .minN32 false 0 3 10 3),
   (64, 0x7E180280C0000000, .red .minF32 0 3 (.v 10) 3),
   (64, 0x8A180280C0000001, .scan .minF32 true 0 3 10 3),
   (64, 0x7E980280C0000001, .red .maxS32 0 3 (.s 10) 3),
   (64, 0x8A980280C0000000, .scan .maxS32 false 0 3 10 3),
   (64, 0x7F180280C0000000, .red .maxN32 0 3 (.v 10) 3),
   (64, 0x8B180280C0000001, .scan .maxN32 true 0 3 10 3),
   (64, 0x7F980280C0000001, .red .maxF32 0 3 (.s 10) 3),
   (64, 0x8B980280C0000000, .scan .maxF32 false 0 3 10 3)] = true := by decide +kernel

/-- Cross-lane instructions (R33, R91 to R95). -/
theorem test_decode_cross_2 : reads
  [(64, 0x80180280C0000000, .red .and 0 3 (.v 10) 3),
   (64, 0x8C180280C0000001, .scan .and true 0 3 10 3),
   (64, 0x80980280C0000001, .red .or 0 3 (.s 10) 3),
   (64, 0x8C980280C0000000, .scan .or false 0 3 10 3),
   (64, 0x81180280C0000000, .red .xor 0 3 (.v 10) 3),
   (64, 0x8D180280C0000001, .scan .xor true 0 3 10 3),
   (64, 0x8190020182400000, .redx .minS32 2 (.v 8 9) 6),
   (64, 0x8210020182400001, .redx .minN32 2 (.s 8 9) 6),
   (64, 0x8290020182400000, .redx .minF32 2 (.v 8 9) 6),
   (64, 0x8310020182400001, .redx .maxS32 2 (.s 8 9) 6),
   (64, 0x8390020182400000, .redx .maxN32 2 (.v 8 9) 6),
   (64, 0x8410020182400001, .redx .maxF32 2 (.s 8 9) 6)] = true := by decide +kernel

/-- Lane memory instructions, fences and barriers (R25, R33, R158 to R170). -/
theorem test_decode_memory_1 : reads
  [(64, 0x9038840118060583, .ld .s8 7 8 ⟨1, .handle 2, 3, .v 1, .s 2, .lit 3⟩),
   (64, 0x90B8840118060583, .ld .n8 7 8 ⟨1, .handle 2, 3, .v 1, .s 2, .lit 3⟩),
   (64, 0x9138840118060583, .ld .s16 7 8 ⟨1, .handle 2, 3, .v 1, .s 2, .lit 3⟩),
   (64, 0x91B8840118060583, .ld .n16 7 8 ⟨1, .handle 2, 3, .v 1, .s 2, .lit 3⟩),
   (64, 0x9238840118060583, .ld .w32 7 8 ⟨1, .handle 2, 3, .v 1, .s 2, .lit 3⟩),
   (64, 0x92B8840118060583, .ld .w64 7 8 ⟨1, .handle 2, 3, .v 1, .s 2, .lit 3⟩),
   (64, 0x93B8840118060583, .ldFe .n8 7 8 ⟨1, .handle 2, 3, .v 1, .s 2, .lit 3⟩),
   (64, 0x94B8840118060583, .ldFe .n16 7 8 ⟨1, .handle 2, 3, .v 1, .s 2, .lit 3⟩),
   (64, 0x95B8840118060583, .ldFe .w64 7 8 ⟨1, .handle 2, 3, .v 1, .s 2, .lit 3⟩),
   (64, 0x9638840118060583, .ldTake .s8 7 8 ⟨1, .handle 2, 3, .v 1, .s 2, .lit 3⟩),
   (64, 0x9738840118060583, .ldTake .s16 7 8 ⟨1, .handle 2, 3, .v 1, .s 2, .lit 3⟩),
   (64, 0x9838840118060583, .ldTake .w32 7 8 ⟨1, .handle 2, 3, .v 1, .s 2, .lit 3⟩),
   (64, 0x9928050204200000, .st .w8 5 10 ⟨0, .handle 4, 0, .s 8, .v 0, .v 0⟩),
   (64, 0x99A8050244200000, .st .w16 5 10 ⟨0, .handle 4, 8, .s 8, .v 0, .v 0⟩),
   (64, 0x9A28050244200000, .st .w32 5 10 ⟨0, .handle 4, 8, .s 8, .v 0, .v 0⟩),
   (64, 0x9AA8050244200000, .st .w64 5 10 ⟨0, .handle 4, 8, .s 8, .v 0, .v 0⟩),
   (64, 0x9B098244D80B0A00, .atom .add ⟨1, 3, 4, .s 9, 11, .v 2, .lit 5, false, 0⟩),
   (64, 0x9B898244E00B0A00, .atom .addF32 ⟨1, 3, 4, .s 9, 12, .v 2, .lit 5, false, 0⟩),
   (64, 0x9C098244E80B0A00, .atom .minS ⟨1, 3, 4, .s 9, 13, .v 2, .lit 5, false, 0⟩),
   (64, 0x9C898244F00B0B00, .atom .minN ⟨1, 3, 4, .s 9, 14, .v 2, .lit 5, true, 0⟩),
   (64, 0x9D098244F80B0A00, .atom .maxS ⟨1, 3, 4, .s 9, 15, .v 2, .lit 5, false, 0⟩),
   (64, 0x9D898244D80B0B00, .atom .maxN ⟨1, 3, 4, .s 9, 11, .v 2, .lit 5, true, 0⟩),
   (64, 0x9E098244E00B0A00, .atom .and ⟨1, 3, 4, .s 9, 12, .v 2, .lit 5, false, 0⟩),
   (64, 0x9E898244E80B0B00, .atom .or ⟨1, 3, 4, .s 9, 13, .v 2, .lit 5, true, 0⟩)] = true := by decide +kernel

/-- Lane memory instructions, fences and barriers (R25, R33, R158 to R170). -/
theorem test_decode_memory_2 : reads
  [(64, 0x9F098244F00B0A00, .atom .xor ⟨1, 3, 4, .s 9, 14, .v 2, .lit 5, false, 0⟩),
   (64, 0x9F898244F80B0B00, .atom .xchg ⟨1, 3, 4, .s 9, 15, .v 2, .lit 5, true, 0⟩),
   (64, 0xA0098244D80B0A06, .atom .cas ⟨1, 3, 4, .s 9, 11, .v 2, .lit 5, false, 6⟩),
   (64, 0xA400200000000004, .push .vector 64 4),
   (64, 0xA48001810000000D, .pop .set 3 13),
   (64, 0xA4001F0080000002, .push .scalar 62 2),
   (64, 0xA8000A0000000009, .lrec 20 9),
   (64, 0xA880000000000000, .lfence),
   (64, 0xA900000000000000, .fence .team),
   (64, 0xA980000000000000, .fence .cluster),
   (64, 0xAA00000000000000, .fence .tower),
   (64, 0xAA80000000000000, .fence .module),
   (64, 0xAB00000000000000, .fence .domain),
   (64, 0xAB80000000000000, .bar),
   (64, 0xAC00000000000000, .cbar),
   (64, 0xAC810280BE000000, .pbarArrive 5 ⟨2, .handle 1, 7, .lit 0, .v 0, .v 0⟩),
   (64, 0xAD000280840C0000, .pbarWait 5 ⟨0, .handle 1, 0, .s 3, .v 0, .v 0⟩)] = true := by decide +kernel

/-- Format X and the matrix instructions (R28, R33, R175, R187, R190). -/
theorem test_decode_wide_1 : reads
  [(128, 0x0503800000000000A081900000000010, .lld ⟨3, 32, 16, ⟨.handle 5, .lit 0, .s 24, .lit 0, .lit 0⟩⟩),
   (128, 0x0503A00000000000A100200000000020, .lst ⟨0, 64, 32, ⟨.handle 5, .lit 0, .s 26, .lit 0, .lit 0⟩⟩),
   (128, 0x870420C400000000A189050A00000003, .gather ⟨1, 2, 10, 20, ⟨.s 7, .lit 1, .lit 2, .lit 3, .lit 4⟩, 3⟩),
   (128, 0x070420C400000000A209050A00000003, .scatter ⟨1, 2, 10, 20, ⟨.handle 7, .lit 1, .lit 2, .lit 3, .lit 4⟩, 3⟩),
   (128, 0x0200000000000000A298050000000008, .tld ⟨3, 0, 10, ⟨.handle 2, .lit 0, .lit 0, .lit 0, .lit 0⟩, 8⟩),
   (128, 0x0214000003180000A3188000000001FF, .ttr ⟨3, 1, 511, ⟨.handle 2, .lit 5, .lit 0, .lit 0, .lit 0⟩, ⟨.handle 3, .lit 6, .lit 0, .lit 0, .lit 0⟩⟩),
   (128, 0x0200000000000000A398050000000008, .tred ⟨3, 0, 10, ⟨.handle 2, .lit 0, .lit 0, .lit 0, .lit 0⟩, 8⟩),
   (128, 0x0000000100000000AD80030200000000, .bmwait 0 6 (.handle 4) (.lit 0) 1),
   (128, 0x8E00000002000000B0008002A2000200, .cpy ⟨1, .handle 5, .s 2, 1, ⟨.s 14, .lit 0, .lit 0, .lit 0, .lit 0⟩, ⟨.handle 2, .lit 0, .lit 0, .lit 0, .lit 0⟩⟩),
   (128, 0x0100000000000000B080000100120200, .cpym ⟨0, .handle 2, .lit 0, 1, ⟨.handle 1, .lit 0, .lit 0, .lit 0, .lit 0⟩, ⟨.handle 0, .lit 0, .lit 0, .lit 0, .lit 0⟩⟩ 9),
   (128, 0x0100000000000000B100000100000000, .cpyx ⟨0, .handle 2, .lit 0, 0, ⟨.handle 1, .lit 0, .lit 0, .lit 0, .lit 0⟩, ⟨.handle 0, .lit 0, .lit 0, .lit 0, .lit 0⟩⟩),
   (64, 0xB800048000118820, .gang ⟨some 1, 1, 0, 1, 2, 3⟩),
   (64, 0xB800000000000000, .gang ⟨none, 0, 0, 0, 0, 0⟩),
   (128, 0x0502900000000000B880201000A9F801, .mma ⟨0, .f32, 64, 32, none, some 20, 63, 1, ⟨.handle 5, .lit 0, .s 9, .lit 0, .lit 0⟩⟩),
   (128, 0x0502900000000000B900A0104101F002, .mma ⟨1, .b16, 64, 32, some 1, none, 62, 2, ⟨.handle 5, .lit 0, .s 9, .lit 0, .lit 0⟩⟩),
   (128, 0x0502900000000000B98120100001E803, .mma ⟨2, .h16, 64, 32, none, none, 61, 3, ⟨.handle 5, .lit 0, .s 9, .lit 0, .lit 0⟩⟩),
   (128, 0x0502900000000000BA01A01043AFE004, .mma ⟨3, .f8e4, 64, 32, some 3, some 23, 60, 4, ⟨.handle 5, .lit 0, .s 9, .lit 0, .lit 0⟩⟩),
   (128, 0x0502900000000000BA8220100001D805, .mma ⟨4, .f8e5, 64, 32, none, none, 59, 5, ⟨.handle 5, .lit 0, .s 9, .lit 0, .lit 0⟩⟩),
   (128, 0x0502900000000000BB02A0104501D006, .mma ⟨5, .f6e3m2, 64, 32, some 5, none, 58, 6, ⟨.handle 5, .lit 0, .s 9, .lit 0, .lit 0⟩⟩),
   (128, 0x0502900000000000BB83201000B5C807, .mma ⟨6, .f6e2m3, 64, 32, none, some 26, 57, 7, ⟨.handle 5, .lit 0, .s 9, .lit 0, .lit 0⟩⟩),
   (128, 0x0502900000000000BC03A0104701C008, .mma ⟨7, .f4e2m1, 64, 32, some 7, none, 56, 8, ⟨.handle 5, .lit 0, .s 9, .lit 0, .lit 0⟩⟩),
   (128, 0x0502900000000000BC8420100001B809, .mma ⟨8, .s8, 64, 32, none, none, 55, 9, ⟨.handle 5, .lit 0, .s 9, .lit 0, .lit 0⟩⟩),
   (128, 0x0502900000000000BD04A01049BBB00A, .mma ⟨9, .n8, 64, 32, some 9, some 29, 54, 10, ⟨.handle 5, .lit 0, .s 9, .lit 0, .lit 0⟩⟩),
   (128, 0x0502900000000000BD8520100001A80B, .mma ⟨10, .s4, 64, 32, none, none, 53, 11, ⟨.handle 5, .lit 0, .s 9, .lit 0, .lit 0⟩⟩)] = true := by decide +kernel

/-- Format X and the matrix instructions (R28, R33, R175, R187, R190). -/
theorem test_decode_wide_2 : reads
  [(128, 0x0502900000000000BE05A0104B01A00C, .mma ⟨11, .n4, 64, 32, some 11, none, 52, 12, ⟨.handle 5, .lit 0, .s 9, .lit 0, .lit 0⟩⟩),
   (64, 0xBE80000000000000, .mfenceOpr),
   (64, 0xBF00000000000005, .mwait 5),
   (64, 0xBF00060080000040, .mwaitPop 12 1),
   (64, 0xBF00000000000080, .mwaitAll)] = true := by decide +kernel

/-- Emit, roles, special registers and trace (R33, R41, R43, R278, R294, R295, R340). -/
theorem test_decode_system : reads
  [(64, 0xC000080500000000, .emit (.scalar 16 2)),
   (64, 0xC018100080000000, .emit (.lane 3 32 1)),
   (64, 0xC080000000000002, .rolesw 2),
   (64, 0xC100008000000000, .rsr (.lane 0 1 false 0)),
   (64, 0xC128048100000009, .rsr (.lane 5 9 true 9)),
   (64, 0xC10004808000000D, .rsr (.scalar 9 13)),
   (64, 0xC180028000000008, .wsr 5 8),
   (64, 0xC200000000000002, .rmode 2),
   (64, 0xC280028000000007, .trec 5 7)] = true := by decide +kernel

/-- The spec's own worked words (02, 03, 05, 06, 09 to 11, 14, 17, 18, 22). -/
theorem test_decode_worked_1 : reads
  [(64, 0x2818010141800000, .iadd (.lane 3 4 5 (.v 6))),
   (64, 0x2E00428040000000, .and (.lane 0 10 1 (.imm 0))),
   (64, 0x2D80008080000000, .ineg (.lane 0 2 (.v 2))),
   (64, 0x3800450500000001, .iadd (.scalar 20 20 (.imm 1))),
   (64, 0x480040C103FC0000, .fadd (.lane 0 3 4 (.imm 0x3FC0000) 0)),
   (64, 0x4880018102800040, .fsub (.lane 0 6 4 (.s 10) 0)),
   (64, 0x3218028280000000, .popc (.lane 3 10 (.v 10))),
   (64, 0x7C00024080000000, .red .add 0 0 (.v 9) 2),
   (64, 0x7C980280C0000001, .red .addF32 0 3 (.s 10) 3),
   (64, 0x8190020182400000, .redx .minS32 2 (.v 8 9) 6),
   (64, 0x8218038203C00001, .redx .minN32 3 (.s 14 15) 8),
   (64, 0x7A18010080000000, .shflNx 3 4 2),
   (64, 0x660000C080000082, .cvt 0 .f8e4 .f32 0 3 2 2 0),
   (64, 0x1C80010040800000, .kunion 4 1 2),
   (64, 0x1F8001C0C0000000, .kgatherT 7 3),
   (64, 0x1480418040000002, .test .lt .n32 0 6 1 (.imm 2)),
   (64, 0x1480018040000000, .test .lt .n32 0 6 1 (.v 0)),
   (64, 0x0380001800008000, .apply 3 1),
   (64, 0x0400203800008000, .applyT 1 7 1),
   (64, 0x018020207FFE8000, .bnz 1 4 (-3)),
   (64, 0x018000387FFC8000, .bnz 0 7 (-7)),
   (64, 0x0200003800020000, .bz 0 7 4),
   (64, 0x01000B807FF88000, .br 0 23 (-15)),
   (64, 0x0600030000000000, .await 6 0)] = true := by decide +kernel

/-- The spec's own worked words (02, 03, 05, 06, 09 to 11, 14, 17, 18, 22). -/
theorem test_decode_worked_2 : reads
  [(64, 0x0700000000000007, .trap 0 7),
   (64, 0x0918000000000001, .bkpt 3 1),
   (64, 0x0780000000000000, .tret),
   (64, 0x0780000000000001, .tretSkip),
   (64, 0x0780000000000002, .tretComplete),
   (64, 0x0800000000000000, .tkill),
   (64, 0x0880000000000000, .tpass),
   (64, 0x9100810080040000, .ld .s16 0 2 ⟨1, .handle 1, 0, .v 1, .v 0, .v 0⟩),
   (64, 0x9A30050200040000, .st .w32 6 10 ⟨0, .handle 4, 0, .v 1, .v 0, .v 0⟩),
   (64, 0x9A28048144200000, .st .w32 5 9 ⟨0, .handle 2, 8, .s 8, .v 0, .v 0⟩),
   (64, 0x9238040118040000, .ld .w32 7 8 ⟨0, .handle 2, 3, .v 1, .v 0, .v 0⟩),
   (64, 0xA400200000000004, .push .vector 64 4),
   (64, 0xA8000A0000000009, .lrec 20 9),
   (64, 0xA980000000000000, .fence .cluster),
   (64, 0xAC00000000000000, .cbar),
   (64, 0xBE80000000000000, .mfenceOpr),
   (64, 0xBF00000000000005, .mwait 5),
   (64, 0xBF00060080000040, .mwaitPop 12 1),
   (64, 0xB800048000118820, .gang ⟨some 1, 1, 0, 1, 2, 3⟩),
   (64, 0xC000080500000000, .emit (.scalar 16 2)),
   (64, 0xC018100080000000, .emit (.lane 3 32 1)),
   (64, 0xC080000000000002, .rolesw 2),
   (64, 0xC100008000000000, .rsr (.lane 0 1 false 0)),
   (64, 0xC180028000000008, .wsr 5 8)] = true := by decide +kernel

/-- The spec's own worked words (02, 03, 05, 06, 09 to 11, 14, 17, 18, 22). -/
theorem test_decode_worked_3 : reads
  [(64, 0xC200000000000002, .rmode 2),
   (64, 0xC280028000000007, .trec 5 7),
   (128, 0x0000000100000000AD80030200000000, .bmwait 0 6 (.handle 4) (.lit 0) 1),
   (128, 0x0100000000000000B100000100000000, .cpyx ⟨0, .handle 2, .lit 0, 0, ⟨.handle 1, .lit 0, .lit 0, .lit 0, .lit 0⟩, ⟨.handle 0, .lit 0, .lit 0, .lit 0, .lit 0⟩⟩),
   (128, 0x0100000000000000B080000100120200, .cpym ⟨0, .handle 2, .lit 0, 1, ⟨.handle 1, .lit 0, .lit 0, .lit 0, .lit 0⟩, ⟨.handle 0, .lit 0, .lit 0, .lit 0, .lit 0⟩⟩ 9),
   (128, 0x0502900000000000B900201042001820, .mma ⟨0, .b16, 64, 32, some 2, none, 3, 32, ⟨.handle 5, .lit 0, .s 9, .lit 0, .lit 0⟩⟩),
   (128, 0x0503800000000000A080100000000010, .lld ⟨0, 32, 16, ⟨.handle 5, .lit 0, .s 24, .lit 0, .lit 0⟩⟩),
   (128, 0x0503A00000000000A100200000000020, .lst ⟨0, 64, 32, ⟨.handle 5, .lit 0, .s 26, .lit 0, .lit 0⟩⟩)] = true := by decide +kernel

/-- What the decoder refuses, by cause (R20, R29, R35, R36 and the pages of the instructions). -/
theorem test_decode_refuses : refuses
  [(0x0000000000000000, .unassigned),
   (0x0980000000000000, .unassigned),
   (0xC300000000000000, .unassigned),
   (0xFF80000000000000, .blockStructure),
   (0x1480018040000002, .reserved),
   (0x0080000000000001, .reserved),
   (0x1C80050040800000, .reserved),
   (0x0380201800000000, .reserved),
   (0x0088000000000000, .kNotZero),
   (0x3810000000000000, .kNotZero),
   (0xC018080400000000, .kNotZero),
   (0x2800800000000000, .laNotZero),
   (0x0087800000000000, .laNotZero),
   (0x0400600800000000, .range),
   (0x6080000000000880, .range),
   (0x1C80000040800000, .range),
   (0x6C080080C0000000, .range),
   (0x5800004081000000, .range),
   (0xA8001E8000000001, .range),
   (0xA400000000000011, .range),
   (0xA480000100000001, .range),
   (0xC180008000000009, .range),
   (0x9B80000058000100, .range),
   (0xC100008080000000, .range),
   (0xC10000800000000E, .range),
   (0x7000400000000000, .range)] = true := by decide +kernel

-- WellFormed.
/-- One ill-formed term, or more, for each check. -/
theorem test_wf_refuses : illFormed
  [.applyT 3 1 0,
   .test .eq .s32 0 0 1 (.v 2),
   .test .eq .f64 0 1 1 (.v 2),
   .test .eq .f64 0 1 2 (.v 3),
   .test .eq .f64 0 1 2 (.imm 3),
   .kall 0,
   .kmatch 0 0 2 false,
   .kmatch 0 1 3 true,
   .kld 0 ⟨0, .handle 1, 0, .lit 0, .v 0, .v 0⟩,
   .kld 1 ⟨0, .handle 1, 6, .lit 0, .v 0, .v 0⟩,
   .kld 1 ⟨0, .handle 1, 0, .v 1, .v 0, .v 0⟩,
   .kst 1 ⟨0, .handle 1, 1, .lit 0, .v 0, .v 0⟩,
   .dadd ⟨0, 0, 1, 2, .v 4, 0⟩,
   .dmin ⟨0, 0, 2, 2, .v 4, 1⟩,
   .dfma ⟨0, 0, 2, 2, .v 4, .v 5, 0⟩,
   .hadd2 ⟨0, 1, 2, 2, .v 4, 0⟩,
   .dot4S8 ⟨0, 0, 2, 2, .v 4, .v 5, 1⟩,
   .dot2H16 ⟨0, 2, 2, 2, .v 4, .v 5, 1⟩,
   .cvt 0 .f64 .f32 0 3 2 0 0,
   .cvt 0 .f32 .f32 0 3 2 1 0,
   .cvt 0 .s16 .f32 0 3 2 2 0,
   .cvtSr 0 .f32 false 3 2 (.v 1) false 0,
   .cvtSr 0 .h16 false 3 2 (.v 1) false 2,
   .cvtSr 0 .h16 true 3 1 (.v 1) false 0,
   .red .add 1 0 (.v 1) 2,
   .scan .maxF32 false 1 0 1 2,
   .ld .w64 0 1 ⟨0, .handle 1, 0, .v 1, .v 0, .v 0⟩,
   .ld .w32 0 1 ⟨0, .handle 1, 6, .v 1, .v 0, .v 0⟩,
   .st .w32 0 1 ⟨0, .handle 1, 5, .v 1, .v 0, .v 0⟩,
   .atom .add ⟨0, 0, 1, .handle 1, 0, .v 0, .v 0, false, 1⟩,
   .atom .addF32 ⟨0, 0, 2, .handle 1, 0, .v 0, .v 0, true, 0⟩,
   .atom .cas ⟨0, 0, 2, .handle 1, 0, .v 0, .v 0, true, 3⟩,
   .tld ⟨0, 0, 250, ⟨.handle 2, .lit 0, .lit 0, .lit 0, .lit 0⟩, 7⟩,
   .tred ⟨0, 0, 250, ⟨.handle 2, .lit 0, .lit 0, .lit 0, .lit 0⟩, 0⟩,
   .gather ⟨0, 0, 1, 250, ⟨.handle 2, .lit 0, .lit 0, .lit 0, .lit 0⟩, 7⟩,
   .lld ⟨0, 250, 7, ⟨.handle 2, .lit 0, .lit 0, .lit 0, .lit 0⟩⟩,
   .push .vector 255 2,
   .push .scalar 63 2,
   .push .set 1 0,
   .pop .set 0 1,
   .lrec 61 0,
   .pbarArrive 1 ⟨0, .handle 1, 1, .lit 0, .v 0, .v 0⟩,
   .pbarWait 1 ⟨0, .handle 1, 6, .lit 0, .v 0, .v 0⟩,
   .gang ⟨none, 1, 1, 1, 2, 3⟩,
   .gang ⟨none, 2, 0, 1, 2, 0⟩,
   .gang ⟨some 1, 0, 0, 0, 0, 0⟩,
   .mma ⟨0, .f32, 225, 0, none, none, 1, 1, ⟨.handle 2, .lit 0, .lit 0, .lit 0, .lit 0⟩⟩,
   .mma ⟨0, .f32, 0, 0, some 1, none, 1, 1, ⟨.handle 2, .lit 0, .lit 0, .lit 0, .lit 0⟩⟩,
   .mma ⟨0, .f32, 0, 0, none, none, 1, 0, ⟨.handle 2, .lit 0, .lit 0, .lit 0, .lit 0⟩⟩,
   .emit (.lane 0 241 1),
   .emit (.scalar 57 1),
   .rsr (.lane 0 1 false 14),
   .rsr (.scalar 1 0),
   .wsr 1 9,
   .clockChange 6,
   .sliceStart 512,
   .registerFill 1 32 0,
   .registerFill 1 0 264,
   .priorityBoost 1 32,
   .pageWalk 128 0,
   .pageWalk 0 0x1000000000000,
   .doorbell 128 0,
   .mtCounterWrite 0 7,
   .moveStart 4 0 1,
   .moveStart 0 48 1,
   .moveRowCopy 4,
   .portRetire 24,
   .elevatorRetire 0 8,
   .unassignedOpcodeIssue 7 0,
   .unassignedOpcodeIssue 0 0] = true := by decide +kernel

/-- Terms at the limits of the checks are well-formed. -/
theorem test_wf_accepts : wellFormed
  [.applyT 2 1 0,
   .test .eq .f64 0 1 2 (.v 4),
   .kld 1 ⟨0, .handle 1, 5, .lit 0, .v 0, .v 0⟩,
   .dfma ⟨0, 0, 2, 2, .v 4, .v 6, 3⟩,
   .cvt 0 .f4e2m1 .s8 0 3 1 7 3,
   .ld .w64 0 254 ⟨0, .handle 1, 5, .v 1, .v 0, .v 0⟩,
   .tld ⟨0, 0, 250, ⟨.handle 2, .lit 0, .lit 0, .lit 0, .lit 0⟩, 6⟩,
   .push .vector 240 16,
   .pop .set 1 15,
   .lrec 60 0,
   .gang ⟨some 1, 3, 0, 0, 6, 31⟩,
   .mma ⟨0, .f32, 224, 0, some 1, some 1, 2, 511, ⟨.handle 2, .lit 0, .lit 0, .lit 0, .lit 0⟩⟩,
   .emit (.lane 0 240 1),
   .pageWalk 127 0xFFFFFFFFFFFF,
   .clockChange 509] = true := by decide +kernel

-- Single steps.
/-- A nop only advances the PC (R119). -/
theorem test_nop_advances : let t := ran 0x0080000000000000 id; t.curAgent.pc = 2 ∧ t.curAgent.rest = 1 := by decide +kernel
/-- 2^32 − 1 plus 1 is 0, in lane 0; lane 1 adds zeros (R79). -/
theorem test_iadd_wraps : let t := ran 0x2800010141800000 (fun s => setV (setV s 5 0xFFFFFFFF) 6 1); t.vreg 0 4 = 0 ∧ t.vreg 1 4 = 0 ∧ t.vreg 0 5 = 0xFFFFFFFF := by decide +kernel
/-- A scalar form works on 64 bits (R79): 0 − 1. -/
theorem test_isub_scalar : (ran 0x388040C100000001 id).sreg 3 = 0xFFFFFFFFFFFFFFFF := by decide +kernel
/-- The high word of (−2)·3, signed (R79). -/
theorem test_imulhi_s : (ran 0x2980004080C00000 (fun s => setV (setV s 2 0xFFFFFFFE) 3 3)).vreg 0 1 = 0xFFFFFFFF := by decide +kernel
/-- The spec's example of bfx.s (R80). -/
theorem test_bfx_s : (ran 0x338041C0C0000C04 (fun s => setV s 3 0xABCD)).vreg 0 7 = 0xFFFFFABC := by decide +kernel
/-- The spec's example of dot4.s8 (R90). -/
theorem test_dot4_s8 : (ran 0x7100004080C10000 (fun s => setV (setV (setV s 2 0x030201FF) 3 0x04040404) 4 10)).vreg 0 1 = 30 := by decide +kernel
/-- The spec's example of cvt (R87). -/
theorem test_cvt_f8e4 : (ran 0x660000C080000082 (fun s => setV (setV s 2 0x3FA80000) 3 0x11223344)).vreg 0 3 = 0x113A3344 := by decide +kernel
/-- 470 to F8E4 under RN saturates to 448 and sets the flag; under RZ it does not (R62). -/
theorem test_cvt_saturates : let f := fun s => setV s 2 0x43EB0000; let t := ran 0x660000C080000080 f; let u := ran 0x660000C080001080 f; t.vreg 0 3 = 0x7E ∧ t.curGroup.sat = 1 ∧ u.vreg 0 3 = 0x7E ∧ u.curGroup.sat = 0 := by decide +kernel
/-- 1.0 + 1.5 in the F32 immediate form (R82). -/
theorem test_fadd_half : (ran 0x480040C103FC0000 (fun s => setV s 4 0x3F800000)).vreg 0 3 = 0x40200000 := by decide +kernel
/-- frcp of −0 is −∞ (R83). -/
theorem test_frcp_zero : (ran 0x4B0000C100000000 (fun s => setV s 4 0x80000000)).vreg 0 3 = 0xFF800000 := by decide +kernel
/-- A scalar red.min.s32 over the empty set gives the sign-extended identity (R93). -/
theorem test_red_empty : (ran 0x7D18034180000001 id).sreg 13 = 0x7FFFFFFF := by decide +kernel
/-- A scalar redx without members gives the identity and 0xFFFFFFFF (R94). -/
theorem test_redx_empty : let t := ran 0x8218038203C00001 id; t.sreg 14 = 0xFFFFFFFF ∧ t.sreg 15 = 0xFFFFFFFF := by decide +kernel
/-- shfl.up by 1: lane 1 receives lane 0, lane 0 keeps its own (R91). -/
theorem test_shfl_up : let t := ran 0x78804080C0000001 (fun s => setV s 3 7); t.vreg 1 2 = 7 ∧ t.vreg 0 2 = 7 ∧ t.vreg 2 2 = 0 := by decide +kernel
/-- The spec's word for test.lt.n32 k6, v1, 2: the lanes below 2 (R99). -/
theorem test_test_lt : let t := ran 0x1480418040000002 (fun s => setV s 1 2); cellGet 0 t.curGroup.k 6 = localDesc 0 0xFFFFFFFE := by decide +kernel
/-- kcount of the entry set (R100). -/
theorem test_kcount : (ran 0x1E00014000000000 id).sreg 5 = 32 := by decide +kernel
/-- A branch to the next word, which is no header, is an illegal-instruction fault (R32). -/
theorem test_branch_needs_header : let t := ran 0x0100008000008000 (fun s => setS s 1 1); ((t.curTeam.agents.filterMap fun a => a.2.info).map fun i => (i.kind, i.cause, i.pc)) = [(1, 7, 1)] := by decide +kernel
/-- A branch back to the header enters its block (R31, R119). -/
theorem test_branch_back : let t := ran 0x010000807FFF8000 (fun s => setS s 1 1); t.curAgent.pc = 1 ∧ t.curAgent.rest = 2 := by decide +kernel
/-- call lowers sr.sp by 8 and writes its record (R121). -/
theorem test_call_record : let t := ran 0x028000007FFF8000 id; t.curGroup.sp = 0xBFF8 ∧ readBytes t.curGroup.spill 0xBFF8 8 = [2, 0, 0, 0, 1, 0, 0, 0] ∧ t.curAgent.pc = 1 := by decide +kernel
/-- An apply over an empty set to a header without a continuation still faults (R32, R107). -/
theorem test_apply_empty : let t := ran 0x038000187FFF8000 id; ((t.curTeam.agents.filterMap fun a => a.2.info).map fun i => (i.kind, i.cause)) = [(1, 7)] := by decide +kernel
/-- join without an open region is region fault 1 (R98). -/
theorem test_join_outside : let t := ran 0x0500000000000000 id; ((t.curTeam.agents.filterMap fun a => a.2.info).map fun i => (i.kind, i.cause)) = [(3, 1)] := by decide +kernel
/-- A zero word is an illegal-instruction fault with cause 1 (R35, R36). -/
theorem test_unassigned : let t := ran 0 id; ((t.curTeam.agents.filterMap fun a => a.2.info).map fun i => (i.kind, i.cause, i.word)) = [(1, 1, 0)] := by decide +kernel
/-- exit over the entry set ends the group (R109). -/
theorem test_exit_ends : let t := ran 0x0580000000000000 id; (t.team 1).liveSet = 0 := by decide +kernel
/-- await without a watch returns 2 (R172). -/
theorem test_await_no_watch : (ran 0x0600030000000000 id).sreg 6 = 2 := by decide +kernel
/-- push k0 stores the image of the entry set (R51, R164). -/
theorem test_push_set : let t := ran 0xA400000100000001 id; t.curGroup.sp = 0xBF80 ∧ readBytes t.curGroup.spill 0xBF80 5 = [0xFF, 0xFF, 0xFF, 0xFF, 0] := by decide +kernel
/-- pop above 0xC000 is the spill-stack fault (R47). -/
theorem test_pop_past_end : let t := ran 0xA480048080000001 id; ((t.curTeam.agents.filterMap fun a => a.2.info).map fun i => (i.kind, i.d0)) = [(2, 0xC000)] := by decide +kernel
/-- All lanes store to word 3: the highest lane wins (R159). -/
theorem test_st_ascending : let t := ran 0x9A000500860C0000 (fun s => grp (tm s fun t => { t with layouts := mem.curTeam.layouts }) fun g => { g with v := [(32 * 10 + 31, 0x11223344)] }); readBytes t.curTeam.shared 8 12 = [0, 0, 0, 0, 0x44, 0x33, 0x22, 0x11, 0, 0, 0, 0] := by decide +kernel
/-- ld.s8 sign-extends (R159). -/
theorem test_ld_sign : (ran 0x9000010086000000 (fun s => tm (tm s fun t => { t with layouts := [(1, record 0 8 0 64 0 1 0)] }) fun t => { t with shared := [(0, 0x80)] })).vreg 5 2 = 0xFFFFFF80 := by decide +kernel
/-- Lanes of one atom.add on one element: each receives what its own step read (R160). -/
theorem test_atom_add : let t := ran 0x9B000200DE000000 (fun s => grp (tm s fun t => { t with layouts := mem.curTeam.layouts }) fun g => { g with v := (List.range 32).map fun l => (32 * 4 + l, 1) }); readBytes t.curTeam.shared 0 4 = [32, 0, 0, 0] ∧ t.vreg 0 4 = 0 ∧ t.vreg 31 4 = 31 := by decide +kernel
/-- A lane access through a main-space record is layout fault cause 3 (R148, R158). -/
theorem test_layout_main : let t := ran 0x9200010186000000 (fun s => tm s fun t => { t with layouts := mem.curTeam.layouts }); ((t.curTeam.agents.filterMap fun a => a.2.info).map fun i => (i.kind, i.cause)) = [(10, 3)] := by decide +kernel
/-- The last arrival reloads the count and advances the phase; it returns the phase read (R170). -/
theorem test_pbar_arrive : let t := ran 0xAC80028086000000 (fun s => tm (tm s fun t => { t with layouts := mem.curTeam.layouts }) fun t => { t with shared := [(0, 2), (4, 1), (8, 9)] }); t.sreg 5 = 9 ∧ readBytes t.curTeam.shared 0 12 = [2, 0, 0, 0, 2, 0, 0, 0, 10, 0, 0, 0] := by decide +kernel
/-- A team of one group passes bar at once (R103). -/
theorem test_bar_alone : (ran 0xAB80000000000000 id).curAgent.pc = 2 := by decide +kernel
/-- bar with sr.sat = 3 is the saturation fault (R65). -/
theorem test_bar_saturated : let t := ran 0xAB80000000000000 (fun s => grp s fun g => { g with sat := 3 }); ((t.curTeam.agents.filterMap fun a => a.2.info).map fun i => (i.kind, i.d0)) = [(9, 3)] := by decide +kernel
/-- trap strikes its members with its code, and its PC (R117, R306). -/
theorem test_trap_pc : let t := ran 0x0700000000000007 id; ((t.curTeam.agents.filterMap fun a => a.2.info).map fun i => (i.kind, i.d0, i.pc)) = [(25, 7, 1)] := by decide +kernel
/-- tret outside a handler is handler fault 1 (R313). -/
theorem test_tret_outside : let t := ran 0x0780000000000000 id; ((t.curTeam.agents.filterMap fun a => a.2.info).map fun i => (i.kind, i.cause)) = [(24, 1)] := by decide +kernel
/-- rsr of sr.lane (R41). -/
theorem test_rsr_lane : let t := ran 0xC100008000000000 id; t.vreg 0 1 = 0 ∧ t.vreg 31 1 = 31 := by decide +kernel
/-- wsr of sr.sat keeps the low two bits (R43). -/
theorem test_wsr_sat : (ran 0xC180028000000008 (fun s => setS s 5 0xFE)).curGroup.sat = 2 := by decide +kernel
/-- rmode trap in a launch of mode off is an illegal instruction with cause 6 (R278). -/
theorem test_rmode_off : let t := ran 0xC200000000000002 id; ((t.curTeam.agents.filterMap fun a => a.2.info).map fun i => (i.kind, i.cause)) = [(1, 6)] := by decide +kernel
/-- emit on an unbound queue is emit fault 1 (R294). -/
theorem test_emit_unbound : let t := ran 0xC000080500000000 id; ((t.curTeam.agents.filterMap fun a => a.2.info).map fun i => (i.kind, i.cause, i.d0)) = [(21, 1, 2)] := by decide +kernel
/-- gang naming a slot that the team lacks is gang fault 7 (R176). -/
theorem test_gang_small_team : let t := ran 0xB800048000118820 id; ((t.curTeam.agents.filterMap fun a => a.2.info).map fun i => (i.kind, i.cause)) = [(18, 7)] := by decide +kernel
/-- mwait without a command in use returns at once (R191). -/
theorem test_mwait_idle : (ran 0xBF00000000000005 id).curAgent.pc = 2 := by decide +kernel
/-- lrec writes the record that the agent itself reads next (R165, R166). -/
theorem test_lrec_writes : let t := ran 0xA8000A0000000009 (fun s => setS s 20 5); (t.curTeam.record (.lane 0) 9).raw = 5 := by decide +kernel
/-- Behind the last word of a block the next word, no header, is cause 2 (R31). -/
theorem test_fall_through : let s := ({ at_ 0 with cur := ⟨1, 0⟩ } : State); let t := after s (step (agt s fun x => { x with rest := 0 })); ((t.curTeam.agents.filterMap fun a => a.2.info).map fun i => (i.kind, i.cause, i.pc)) = [(1, 2, 1)] := by decide +kernel
/-- A doorbell without a ring sets the interrupt bit and logs (R279). -/
theorem test_doorbell : let t := after s0 (exec (.doorbell 0 1) s0); ((t.vi 0).irq).getLsbD 2 = true ∧ t.errorLog = [(1, 0)] := by decide +kernel
/-- A key slot holds what was loaded (R330). -/
theorem test_key_load : let t := after s0 (exec (.keyLoad 5 7) s0); t.keyOf 5 = 7 ∧ t.keyOf 4 = s0.keyOf 4 := by decide +kernel

end Sys2Proof.Tests
end

