-- ==== Sys2Proof/Tests/Witness.lean ====
section
/-! SUPPORT. For the statements about encodings, the step, and lane, scalar and set instructions: states and operands that meet their hypotheses, one
set for each clause. -/

namespace Sys2Proof.Witness

open Sys2Proof Sys2Proof.Machine Sys2Proof.Bench Sys2Proof.Claims

set_option Elab.async false

-- Encodings.
theorem witness_DecodeOfEncode : (Instr.mma ⟨15, .n4, 224, 255, some 63, none, 0, 511, ⟨.s 63, .lit 31, .s 31, .lit 0, .lit 0⟩⟩).wf = true ∧
    encode (.mma ⟨15, .n4, 224, 255, some 63, none, 0, 511, ⟨.s 63, .lit 31, .s 31, .lit 0, .lit 0⟩⟩) ≠ [] ∧
    (Instr.iadd (.lane 15 255 255 (.imm 0x8000000))).wf = true ∧ encode (.iadd (.lane 15 255 255 (.imm 0x8000000))) ≠ [] := by decide +kernel
theorem witness_EncodeOfDecode : decode 0x1480418040000002 (some 0) = .ok (.test .lt .n32 0 6 1 (.imm 2)) ∧
    decode 0xB100000100000000 (some 0x0100000000000000) = .ok (.cpyx ⟨0, .handle 2, .lit 0, 0, ⟨.handle 1, .lit 0, .lit 0, .lit 0, .lit 0⟩,
      ⟨.handle 0, .lit 0, .lit 0, .lit 0, .lit 0⟩⟩) := by decide +kernel

-- The step.
/-- One word, in the last word of a block. -/
theorem witness_StepRunsTurns_word : let s := agt (at_ (2 ^ 55)) fun x => { x with rest := 1 }
    let u : State := { s with schedule := [], tick := s.tick + 0, cur := ⟨1, 0⟩ }
    s.schedule = [⟨0, .agent ⟨1, 0⟩⟩] ∧ u.mayMove = true ∧ u.atPcStop = false ∧ u.curAgent.rest ≠ 0 ∧ u.codeWord u.curTeam u.curAgent.pc = .ok (2 ^ 55) ∧
      Instr.nop.words = 1 ∧ decode (2 ^ 55) none = .ok .nop ∧ u.curLaunch.determinate = false := by decide +kernel
/-- Two words. -/
theorem witness_StepRunsTurns_pair : let i : Instr := .bmwait 0 6 (.handle 4) (.lit 0) 1
    let s := at_ (0xAD80030200000000 + 2 ^ 96)
    let u : State := { s with schedule := [], tick := s.tick + 0, cur := ⟨1, 0⟩ }
    s.schedule = [⟨0, .agent ⟨1, 0⟩⟩] ∧ u.mayMove = true ∧ u.atPcStop = false ∧ u.codeWord u.curTeam u.curAgent.pc = .ok 0xAD80030200000000 ∧ i.words = 2 ∧
      2 ≤ u.curAgent.rest ∧ u.codeWord u.curTeam (u.curAgent.pc + 1) = .ok (2 ^ 32) ∧ decode 0xAD80030200000000 (some (2 ^ 32)) = .ok i := by decide +kernel
/-- A determinate launch, with an instruction that ends no leg. -/
theorem witness_StepRunsTurns_determinate : let s := lch (at_ (2 ^ 55)) fun l => { l with determinate := true }
    let u : State := { s with schedule := [], tick := s.tick + 0, cur := ⟨1, 0⟩ }
    s.schedule = [⟨0, .agent ⟨1, 0⟩⟩] ∧ u.mayMove = true ∧ u.atPcStop = false ∧ u.codeWord u.curTeam u.curAgent.pc = .ok (2 ^ 55) ∧
      u.curLaunch.determinate = true ∧ u.endsLeg .nop = false := by decide +kernel
theorem witness_StepRunsTurns_event : isEvent (.sliceStart 0) = true ∧ ({ s0 with schedule := [⟨3, .event (.sliceStart 0)⟩] } : State).schedule =
    [⟨3, .event (.sliceStart 0)⟩] := by decide +kernel
/-- A header, in a kernel that goes on; the end of the kernel; a word that is no header. -/
theorem witness_FallThroughConsumesHeader :
    let u (w : Nat) (pc : Nat) : State := agt { at_ w with schedule := [] } fun x => { x with rest := 0, pc := pc }
    let h := 0x1FF * 2 ^ 55 + 1023 * 2 ^ 45
    (u h 1).mayMove = true ∧ (u h 1).atPcStop = false ∧ (u h 1).curAgent.rest = 0 ∧ (u h 1).kernelEnds (u h 1).curTeam 1 = false ∧
      (u h 1).headerAt (u h 1).curTeam 1 = some (BitVec.ofNat 64 h) ∧ hdrLength (BitVec.ofNat 64 h) ≠ 0 ∧
    (u 0 3).mayMove = true ∧ (u 0 3).kernelEnds (u 0 3).curTeam 3 = true ∧
    (u 5 1).mayMove = true ∧ (u 5 1).kernelEnds (u 5 1).curTeam 1 = false ∧ (u 5 1).codeWord (u 5 1).curTeam 1 = .ok 5 ∧
      (u 5 1).headerAt (u 5 1).curTeam 1 = none := by decide +kernel

-- Invariants: a state with memory, spilled registers and a column, and a step of it.
theorem witness_invariants : let s := grp (at_ 0xA400200000000001) fun g => { g with v := [(32 * 64 + 31, 5)] }
    s.main.wf = true ∧ s.teamMemoryOk = true ∧ s.spillPointersOk = true ∧ s.agentsOk = true ∧
      (∃ t, step s = .next t ∧ t.curTeam.groups.any fun g => !g.2.spill.isEmpty) := by
  refine ⟨by decide +kernel, by decide +kernel, by decide +kernel, by decide +kernel, ?_⟩
  have h : (match step (grp (at_ 0xA400200000000001) fun g => { g with v := [(32 * 64 + 31, 5)] }) with
    | .next t => t.curTeam.groups.any fun g => !g.2.spill.isEmpty
    | _ => false) = true := by decide +kernel
  revert h
  cases step (grp (at_ 0xA400200000000001) fun g => { g with v := [(32 * 64 + 31, 5)] }) with
  | next t => intro h; exact ⟨t, rfl, h⟩
  | fault f => intro h; cases h
  | refused r => intro h; cases h

-- Issue checks.
/-- A register at the budget; a register outside the live mask, as destination and as source; a scalar destination in a region; a pending operand, in
and outside a region. -/
theorem witness_RegisterFaultsInOrder :
    let small := grp s0 fun g => { g with budget := 16 }
    let region (m : BitVec 16) : State := agt s0 fun x => { x with live := some (m, 256) }
    let cmd : Cmd := cmd0
    let busy (s : State) : State := tm s fun t => { t with cmds := [cmd] }
    small.canIssue = true ∧ ¬(16 < small.budgetOf small.cur) ∧ 15 < small.budgetOf small.cur ∧
    (region 2).curAgent.live = some (2, 256) ∧ (2 : BitVec 16).getLsbD (15 / 16) = false ∧ (2 : BitVec 16).getLsbD (31 / 16) = true ∧
      31 < (region 2).budgetOf (region 2).cur ∧
    (busy s0).curAgent.live = none ∧ ((busy s0).curTeam.pendingOn (busy s0).curAgent.host [32, 40]).isSome = true ∧
    (busy (region 4)).canIssue = true ∧ (4 : BitVec 16).getLsbD (32 / 16) = true ∧
      ((busy (region 4)).curTeam.pendingOn (busy (region 4)).curAgent.host [32, 40]).isSome = true := by decide +kernel

-- Integers, floats, conversions.
/-- The checks of lane instructions with every operand kind at its last register, of pairs, of both scalar kinds, and with a scalar destination. -/
theorem witness_ready : (s0.ready [255, 255, 255] false ∧ s0.ready (pairRegs 254 ++ pairRegs 254) false ∧ s0.ready [255] true ∧ s0.canIssue = true) ∧
    int1Table.length ≠ 0 ∧ int2Table.length ≠ 0 ∧ int3Table.length ≠ 0 ∧ flt2Table.length ≠ 0 ∧ fltMMTable.length ≠ 0 ∧ fltUnTable.length ≠ 0 ∧
    wide2Table.length ≠ 0 ∧ packed2Table.length ≠ 0 ∧ packed3Table.length ≠ 0 ∧ shuffleTable.length ≠ 0 := by
  refine ⟨⟨⟨by decide +kernel, by decide +kernel⟩, ⟨by decide +kernel, by decide +kernel⟩, ⟨by decide +kernel, by decide +kernel⟩, by decide +kernel⟩, ?_⟩
  decide +kernel
/-- Widths and a bit, and the checks of bfx and bfi. -/
theorem witness_BitFieldBits : (32 = 32 ∨ 32 = 64) ∧ 31 < 32 ∧ (64 = 32 ∨ 64 = 64) ∧ 63 < 64 ∧
    s0.ready ((255 : VReg).toNat :: (0 : VReg).toNat :: (.imm 0xC04 : LaneSrc).regs) false :=
  ⟨by decide, by decide, by decide, by decide, by decide +kernel, by decide +kernel⟩
/-- NaN, both zeros, both infinities, a value below −0, an integer, and an odd multiple of a half. -/
theorem witness_SpecialFloatOperands : (∀ t ∈ [Ty.f64, .f32, .h16, .b16], decodeFloat t (canonNan t) = .nan) ∧
    decodeFloat .f32 0x7F800001 = .nan ∧ (∃ e, decodeFloat .f32 0 = .fin false 0 e) ∧ (∃ e, decodeFloat .f32 0x80000000 = .fin true 0 e) ∧
    decodeFloat .f32 0x7F800000 = .inf false ∧ decodeFloat .f32 0xFF800000 = .inf true ∧
    (∃ m e, m ≠ 0 ∧ decodeFloat .f32 0xBF800000 = .fin true m e ∧ 2 ^ (-e).toNat ∣ m) ∧
    (∃ m e, decodeFloat .f32 0x3FC00000 = .fin false m e ∧ e < 0 ∧ m = (2 * 1 + 1) * 2 ^ ((-e).toNat - 1)) := by
  refine ⟨by decide +kernel, by decide +kernel, ⟨-149, by decide +kernel⟩, ⟨-149, by decide +kernel⟩, by decide +kernel, by decide +kernel,
    ⟨0x800000, -23, by decide, by decide +kernel, by decide +kernel⟩, ⟨0xC00000, -23, by decide +kernel, by decide +kernel, by decide +kernel⟩⟩
/-- Every format, a tie between two values and a value of the format, the largest and the smallest. -/
theorem witness_Rounding : isFloat .h16 = true ∧ 0 < 4097 ∧ (∃ m e, 0x7BFF < 2 ^ Ty.h16.bits ∧ decodeFloat .h16 0x7BFF = .fin false m e) ∧
    ∃ m e, 0x8001 < 2 ^ Ty.h16.bits ∧ decodeFloat .h16 0x8001 = .fin true m e :=
  ⟨by decide, by decide, ⟨0x7FF, 5, by decide, by decide +kernel⟩, ⟨1, -24, by decide, by decide +kernel⟩⟩
/-- A pair and a narrow element, and a stochastic conversion from a pair. -/
theorem witness_ConversionResults : (Instr.cvt 0 .f64 .f4e2m1 3 254 255 0 7).wf = true ∧ s0.ready (typedRegs .f64 254 ++ typedRegs .f4e2m1 255) false ∧
    (Instr.cvtSr 0 .f4e2m1 true 255 254 (.v 0) true 7).wf = true ∧
    s0.ready ((255 : VReg).toNat :: (typedRegs .f64 254 ++ (.v 0 : RegSrc).regs)) false :=
  ⟨by decide +kernel, ⟨by decide +kernel, by decide +kernel⟩, by decide +kernel, ⟨by decide +kernel, by decide +kernel⟩⟩
/-- A finite value that saturates, and the ends of an integer range. -/
theorem witness_ConversionEnds : isFloat .f8e4 = true ∧ (convNum .f8e4 0 (.fin true 470 0)).sat = true ∧ isFloat .s8 = false ∧
    -(2 : Int) ^ (Ty.s8.bits - 1) ≤ -128 ∧ (-128 : Int) < 2 ^ Ty.s8.bits ∧ (255 : Int) < 2 ^ Ty.n8.bits := by decide +kernel

-- Sets.
theorem witness_Sets : ((15 : KReg) ≠ 0) ∧ s0.ready [(255 : VReg).toNat] false ∧ s0.ready [(254 : VReg).toNat, (254 : VReg).toNat + 1] false ∧ s0.canIssue = true :=
  ⟨by decide, ⟨by decide +kernel, by decide +kernel⟩, ⟨by decide +kernel, by decide +kernel⟩, by decide +kernel⟩

-- Control flow.
/-- The placed block's header is a target one word back; the next word is none. -/
theorem witness_BranchesGoWhereTheySay : s0.canIssue = true ∧ (s0.headerAt s0.curTeam 2).isSome = false ∧ (s0.headerAt s0.curTeam 0).isSome = true ∧
    (((s0.curAgent.pc : Int) + (1 : BitVec 16).toInt) % 2 ^ 32).toNat = 2 ∧ (((s0.curAgent.pc : Int) + (-1 : BitVec 16).toInt) % 2 ^ 32).toNat = 0 := by
  decide +kernel
/-- The stack with no room, and with just enough; records that fail each check of ret in turn, and one that passes. -/
theorem witness_CallAndReturn :
    let stack (sp : BitVec 16) (bs : List Byte) : State := grp s0 fun g => { g with sp := sp, spill := writeBytes [] sp.toNat bs }
    let f (s : State) : Nat := bytesWord (readBytes s.curGroup.spill s.sp 8)
    let bad := stack 0xBFF8 [1, 0, 0, 0, 1, 0, 0, 0x80]
    let far := stack 0xBFF8 [3, 0, 0, 0, 1, 0, 0, 0]
    let deep := stack 0xBFF8 [1, 0, 0, 0, 1, 4, 0, 0]
    let good := stack 0xBFF8 [1, 0, 0, 0, 1, 0, 0, 0]
    (stack 0x8407 []).sp < 0x8400 + 8 ∧ 0x8400 + 8 ≤ (stack 0x8408 []).sp ∧ 0xC000 < s0.sp + 8 ∧
    bad.sp + 8 ≤ 0xC000 ∧ f bad / 2 ^ 53 ≠ 0 ∧ (far.objectOf far.curTeam).words ≤ f far % 2 ^ 32 ∧
    deep.canIssue = true ∧ f deep / 2 ^ 53 = 0 ∧ f deep % 2 ^ 32 < (deep.objectOf deep.curTeam).words ∧ f deep / 2 ^ 42 % 2 ^ 11 ≠ deep.swdOf deep.cur ∧
    good.canIssue = true ∧ f good / 2 ^ 53 = 0 ∧ f good % 2 ^ 32 < (good.objectOf good.curTeam).words ∧ f good / 2 ^ 42 % 2 ^ 11 = good.swdOf good.cur := by
  decide +kernel

end Sys2Proof.Witness
end

