-- ==== Sys2Proof/Tests/Witness3.lean ====
section
/-! SUPPORT. For the statements about memory accesses: states and operands that meet their hypotheses, one set for each clause. -/

namespace Sys2Proof.Witness

open Sys2Proof Sys2Proof.Machine Sys2Proof.Bench

set_option Elab.async false

-- From what can be evaluated to the hypotheses as they are stated.
theorem recorded_of_fresh {s : State} {p : Place} {a n : Nat} (h : ∀ i < n, s.histAt p (a + i) = []) : s.recorded p a n :=
  fun i hi w l e => by simp [h i hi] at e
theorem swept_of_none {s : State} {n : Nat} (h : s.metaLines = []) : s.swept n := fun team g k _ _ p hp => by simp [h] at hp
/-- The accesses of k's members stand alone, in places without records of earlier writes and without a mirror, where no line holds metadata. -/
def fresh (s : State) (m : MemOp) (read write : Bool) (k : KReg) : Prop :=
  let spot := s.laneSpot (s.laneLayout m.l) m.size m.slots
  s.metaLines = [] ∧ ∀ gl ∈ s.lanes k, s.unopposed (m.acc s (s.laneLayout m.l) gl read write) ∧ (∀ i < m.size, s.histAt (spot gl).1 ((spot gl).2 + i) = []) ∧
    s.mirrorOf (spot gl).1 = none
theorem accessFree_of_fresh {s : State} {m : MemOp} {r w : Bool} {k : KReg} (h : fresh s m r w k) : s.accessFree m r w k :=
  ⟨swept_of_none h.1, fun gl hg => ⟨(h.2 gl hg).1, recorded_of_fresh (h.2 gl hg).2.1, fun q e => by simp [(h.2 gl hg).2.2] at e⟩⟩
/-- An agent that is to issue meets the checks of a format-M lane instruction. -/
def issueReady (s : State) (l : LayoutRef) (slots : List MSlot) (spaces : List Nat) (size : Nat) (k : KReg) (regs : List Nat) : Prop :=
  let r := s.laneLayout l
  s.canIssue = true ∧ s.curTeam.own s.cur.agent (s.curTeam.k0Set s.cur.agent) ≠ 0 ∧ s.curAgent.issued = none ∧
    mCheck r (s.handleOf l) slots spaces (fun x => x.size == size) size = none ∧ s.regFault (regs ++ mRegs r slots) false = none ∧
    (∀ gl ∈ s.lanes k, s.boundsFail s.curTeam r size (s.mCoords r slots gl) = none) ∧ s.stopArmed s.cur 2 = false
theorem accessReady_of_issue {s : State} {l : LayoutRef} {sl : List MSlot} {sp : List Nat} {n : Nat} {k : KReg} {r : List Nat}
    (h : issueReady s l sl sp n k r) : s.accessReady l sl sp n k r := by
  obtain ⟨h1, h2, h3, h4⟩ := h
  refine ⟨h1, h2, ?_⟩
  rw [h3]
  exact h4
theorem accessReady_of_issued {s : State} {l : LayoutRef} {sl : List MSlot} {sp : List Nat} {n : Nat} {k : KReg} {r : List Nat} {i : Issued}
    (h1 : s.canIssue = true) (h2 : s.curTeam.own s.cur.agent (s.curTeam.k0Set s.cur.agent) ≠ 0) (h3 : s.curAgent.issued = some i)
    (h4 : i.done = [] ∧ i.lines = [] ∧ i.wrote = false ∧ s.curAgent.struck = []) : s.accessReady l sl sp n k r := by
  refine ⟨h1, h2, ?_⟩
  rw [h3]
  exact h4

/-- Handles 4, 5 and 6 for 8-, 16- and 64-bit elements of shared memory; register 8 holds the lane's own number. -/
def mem2 : State := grp (tm mem fun t => { t with layouts := t.layouts ++ [(4, record 0 9 0 64 0 1 0), (5, record 0 6 0 64 0 1 0), (6, record 0 0 0 64 0 1 0)] })
  fun g => { g with v := (List.range 32).foldl (fun v i => cellSet 0 v (32 * 8 + i) (BitVec.ofNat 32 i)) g.v }
/-- An access through handle h at the lane's own number, and at the last element. -/
def own (h : BitVec 7) : MArgs := ⟨0, .handle h, 0, .v 8, .v 0, .v 0⟩
def last (h : BitVec 7) : MArgs := ⟨0, .handle h, 0, .lit 63, .v 0, .v 0⟩

/-- Loads of each width at own and at last elements; the full/empty forms with granules empty and full, at issue and while they wait. -/
theorem witness_LoadsReadMemory :
    let waiting := agt mem2 fun x => { x with issued := some ⟨[(1, 0)], [], [], [], false⟩ }
    let full := tm mem2 fun t => { t with full := (List.range 16).map fun i => (i, (⟨0, false, 0, ⟨0, 0, 0⟩, [], []⟩ : Fill)) }
    (∀ x ∈ [(1, LdW.n8, (4 : BitVec 7)), (2, .s16, 5), (4, .w32, 1), (8, .w64, 6)], ∀ m ∈ [own x.2.2, last x.2.2],
      mem2.accessReady m.l m.slots [0, 1, 2] x.1 0 (dataRegs (x.2.1 == .w64) 2) ∧ mem2.accessFree (mOp m x.1 false) true false 0) ∧
    mem2.accessReady (own 1).l (own 1).slots [0] 4 0 (dataRegs false 2) ∧
      ((mem2.lanes 0).all fun gl => cellHas mem2.curTeam.full ((mem2.laneSpot (mem2.laneLayout (own 1).l) 4 (own 1).slots gl).2 / 16)) = false ∧
    full.accessReady (own 1).l (own 1).slots [0] 4 0 (dataRegs false 2) ∧
      ((full.lanes 0).all fun gl => cellHas full.curTeam.full ((full.laneSpot (full.laneLayout (own 1).l) 4 (own 1).slots gl).2 / 16)) = true ∧
      full.accessFree (mOp (own 1) 4 true) true false 0 ∧
    waiting.accessReady (own 1).l (own 1).slots [0] 4 0 (dataRegs false 2) := by
  intro waiting full
  refine ⟨fun x hx m hm => ⟨accessReady_of_issue ?_, accessFree_of_fresh ?_⟩, accessReady_of_issue ?_, ?_, accessReady_of_issue ?_, ?_,
    accessFree_of_fresh ?_, accessReady_of_issued (i := ⟨[(1, 0)], [], [], [], false⟩) ?_ ?_ ?_ ?_⟩
  · revert x m; unfold issueReady; decide +kernel
  · revert x m; unfold fresh; unfold State.unopposed State.raceFree; decide +kernel
  · unfold issueReady; decide +kernel
  · decide +kernel
  · unfold issueReady; decide +kernel
  · decide +kernel
  · unfold fresh; unfold State.unopposed State.raceFree; decide +kernel
  · decide +kernel
  · decide +kernel
  · decide +kernel
  · decide +kernel

/-- Stores of each width at once, one of them marked in a determinate launch, and one held there. -/
theorem witness_StoresWriteMemory :
    let det := lch mem2 fun l => { l with determinate := true }
    let rel : MArgs := { own 1 with os := 6 }
    (∀ x ∈ [(1, StW.w8, (4 : BitVec 7)), (2, .w16, 5), (4, .w32, 1), (8, .w64, 6)], ∀ m ∈ [own x.2.2, last x.2.2],
      mem2.accessReady m.l m.slots [0, 1, 2] x.1 0 (dataRegs (x.2.1 == .w64) 2) ∧ mem2.curLaunch.determinate = false ∧
        mem2.accessFree (mOp m x.1 false) false true 0) ∧
    det.accessReady rel.l rel.slots [0, 1, 2] 4 0 (dataRegs false 2) ∧ det.curLaunch.determinate = true ∧ rel.os ≠ 0 ∧
      det.accessFree (mOp rel 4 false) false true 0 ∧
    det.accessReady (own 1).l (own 1).slots [0, 1, 2] 4 0 (dataRegs false 2) ∧ (own 1).os = 0 := by
  intro det rel
  refine ⟨fun x hx m hm => ⟨accessReady_of_issue ?_, ?_, accessFree_of_fresh ?_⟩, accessReady_of_issue ?_, ?_, ?_, accessFree_of_fresh ?_,
    accessReady_of_issue ?_, rfl⟩
  · revert x m; unfold issueReady; decide +kernel
  · decide +kernel
  · revert x m; unfold fresh; unfold State.unopposed State.raceFree; decide +kernel
  · unfold issueReady; decide +kernel
  · decide +kernel
  · decide +kernel
  · unfold fresh; unfold State.unopposed State.raceFree; decide +kernel
  · unfold issueReady; decide +kernel

/-- Every operation on 32-bit elements and each that has one on 64-bit elements, all members at one element and each at its own. -/
theorem witness_AtomicsUpdateMemory :
    let f (wide : Bool) (h : BitVec 7) (m : MArgs) : AtomArgs := ⟨0, 0, 2, .handle h, 0, m.c0, .v 0, wide, 4⟩
    let g (wide : Bool) (h : BitVec 7) (m : MArgs) : AtomArgs := { f wide h m with c := 0 }
    (∀ x ∈ [(false, (1 : BitVec 7)), (true, 6)], ∀ m ∈ [own x.2, last x.2], ∀ op ∈ [AtomOp.add, .minS, .minN, .maxS, .maxN, .and, .or, .xor, .xchg],
      (Instr.atom op (g x.1 x.2 m)).wf = true ∧
        mem2.accessReady (g x.1 x.2 m).l [(g x.1 x.2 m).c0, (g x.1 x.2 m).c1] [0, 1, 2] (if x.1 then 8 else 4) 0 (atomRegs op (g x.1 x.2 m))) ∧
    (∀ x ∈ [(false, (1 : BitVec 7)), (true, 6)], ∀ m ∈ [own x.2, last x.2], (Instr.atom .cas (f x.1 x.2 m)).wf = true ∧
      mem2.accessReady (f x.1 x.2 m).l [(f x.1 x.2 m).c0, (f x.1 x.2 m).c1] [0, 1, 2] (if x.1 then 8 else 4) 0 (atomRegs .cas (f x.1 x.2 m)) ∧
      mem2.accessFree (atomMem (f x.1 x.2 m)) true true 0 ∧ mem2.accessFree (atomMem (g x.1 x.2 m)) true true 0) ∧
    (Instr.atom .addF32 (g false 1 (own 1))).wf = true ∧
      mem2.accessReady (g false 1 (own 1)).l [(g false 1 (own 1)).c0, (g false 1 (own 1)).c1] [0, 1, 2] 4 0 (atomRegs .addF32 (g false 1 (own 1))) := by
  intro f g
  refine ⟨fun x hx m hm op ho => ⟨?_, accessReady_of_issue ?_⟩, fun x hx m hm => ⟨?_, accessReady_of_issue ?_, accessFree_of_fresh ?_, accessFree_of_fresh ?_⟩,
    ?_, accessReady_of_issue ?_⟩
  · revert x m op; decide +kernel
  · revert x m op; unfold issueReady; decide +kernel
  · revert x m; decide +kernel
  · revert x m; unfold issueReady; decide +kernel
  · revert x m; unfold fresh; unfold State.unopposed State.raceFree; decide +kernel
  · revert x m; unfold fresh; unfold State.unopposed State.raceFree; decide +kernel
  · decide +kernel
  · unfold issueReady; decide +kernel

/-- The checks of an agent's own access, with bytes without records of earlier writes. -/
def ownFresh (s : State) (m : MArgs) (o : Ord) (n : Nat) (spaces : List Nat) (read write : Bool) : Prop :=
  let l := s.laneLayout m.l
  let c := s.ownAcc m o n read write
  s.canIssue = true ∧ mCheck l (s.handleOf m.l) m.slots spaces (fun _ => true) l.size = none ∧ mRegs l m.slots = [] ∧ s.ownAddr m % n = 0 ∧
    s.blockBounds l (s.mCoords l m.slots 0) n = none ∧ s.stopArmed s.cur 2 = false ∧ s.metaLines = [] ∧ s.unopposed c ∧
      ∀ i < n, s.histAt c.place (c.addr + i) = []
theorem ownReady_of_fresh {s : State} {m : MArgs} {o : Ord} {n : Nat} {sp : List Nat} {r w : Bool} (h : ownFresh s m o n sp r w) :
    s.ownReady m o n sp r w :=
  ⟨h.1, h.2.1, h.2.2.1, h.2.2.2.1, h.2.2.2.2.1, h.2.2.2.2.2.1, swept_of_none h.2.2.2.2.2.2.1, h.2.2.2.2.2.2.2.1, recorded_of_fresh h.2.2.2.2.2.2.2.2⟩
/-- An access through handle h at element n. -/
def elem (h n : BitVec 7) : MArgs := ⟨0, .handle h, 0, .lit n, .v 0, .v 0⟩

/-- An image at 0 and one in the last 128 bytes; one with no lane beyond the shape, and one whose lowest is group 1's lane 0; a set stored at once,
marked in a determinate launch, and held. -/
theorem witness_SetImagesInMemory :
    let far := tm mem2 fun t => { t with shared := [(0, 0x0F), (4, 1)] }
    let det := lch mem2 fun l => { l with determinate := true }
    let outside (s : State) (i : Nat) : Bool := (bytesWord (s.ownBytes (elem 1 0) 128)).testBit i &&
      (decide (s.curTeam.groupsN ≤ i / 32) || decide (s.curTeam.lanesN ≤ i % 32))
    let rel : MArgs := { elem 1 0 with os := 6 }
    (∀ m ∈ [elem 1 0, elem 1 32], mem2.ownReady m (ordOf m.os) 128 [0, 1, 2] true false ∧ mem2.ownReady m (ordOf m.os) 128 [0, 1, 2] false true) ∧
    far.ownReady (elem 1 0) (ordOf 0) 128 [0, 1, 2] true false ∧ (∀ i < 1024, outside mem2 i = false) ∧ outside far 32 = true ∧ (∀ j < 32, outside far j = false) ∧
    mem2.curLaunch.determinate = false ∧ det.curLaunch.determinate = true ∧ det.ownReady (elem 1 0) (ordOf 0) 128 [0, 1, 2] false true ∧
      rel.os ≠ 0 ∧ det.ownReady rel (ordOf rel.os) 128 [0, 1, 2] false true := by
  intro far det outside rel
  refine ⟨fun m hm => ⟨ownReady_of_fresh ?_, ownReady_of_fresh ?_⟩, ownReady_of_fresh ?_, ?_, ?_, ?_, ?_, ?_, ownReady_of_fresh ?_, ?_, ownReady_of_fresh ?_⟩
  · revert m; unfold ownFresh; unfold State.unopposed State.raceFree; decide +kernel
  · revert m; unfold ownFresh; unfold State.unopposed State.raceFree; decide +kernel
  · unfold ownFresh; unfold State.unopposed State.raceFree; decide +kernel
  · decide +kernel
  · decide +kernel
  · decide +kernel
  · decide +kernel
  · decide +kernel
  · unfold ownFresh; unfold State.unopposed State.raceFree; decide +kernel
  · decide
  · unfold ownFresh; unfold State.unopposed State.raceFree; decide +kernel

/-- Granules of each cause, one whose last arrival is due and one with two to come; a saturated group, and a partial set; waits for a phase that is
still the one given and for one that is not. -/
theorem witness_PhaseBarriers :
    let gran (bytes : Cells Byte) : State := tm mem2 fun t => { t with shared := bytes }
    let ok := gran [(0, 2), (4, 1), (8, 9)]
    let two := gran [(0, 2), (4, 2), (8, 9)]
    let sat := grp ok fun g => { g with sat := 3 }
    let part := agt ok fun x => { x with k0 := localDesc 0 3 }
    let arrive : Ord := ⟨none, some 0, 1⟩
    let wait : Ord := ⟨some 0, none, 1⟩
    let field (s : State) (i n : Nat) : Nat := bytesWord ((List.range n).map fun j => let p := s.ownSpot (elem 1 0) (i + j); s.peek p.1 p.2)
    let cause (s : State) : Nat := if field s 0 2 = 0 then 1 else if field s 4 4 = 0 ∨ field s 0 2 < field s 4 4 then 2
      else if field s 2 2 ≠ 0 ∨ field s 12 4 ≠ 0 then 3 else 0
    (∀ s ∈ [mem2, gran [(0, 2)], gran [(0, 2), (4, 3)], gran [(0, 2), (2, 1), (4, 1)], gran [(0, 2), (4, 1), (15, 1)], ok, two, sat, part],
      s.ownReady (elem 1 0) arrive 16 [0] true true ∧ s.ownReady (elem 1 0) wait 16 [0] true false) ∧
    mem2.ownReady (elem 1 60) arrive 16 [0] true true ∧
    ok.ownReady { elem 1 0 with os := 2 } (ordOf 2) 16 [0] true false ∧ ok.ownReady { elem 1 0 with os := 7 } (ordOf 7) 16 [0] true true ∧
    sat.curGroup.sat = 3 ∧ part.curGroup.sat ≠ 3 ∧ part.fullSet = false ∧ ok.curGroup.sat ≠ 3 ∧ ok.fullSet = true ∧ two.fullSet = true ∧
    cause mem2 = 1 ∧ cause (gran [(0, 2)]) = 2 ∧ cause (gran [(0, 2), (4, 3)]) = 2 ∧ cause (gran [(0, 2), (2, 1), (4, 1)]) = 3 ∧
      cause (gran [(0, 2), (4, 1), (15, 1)]) = 3 ∧ cause ok = 0 ∧ field ok 4 4 = 1 ∧ cause two = 0 ∧ field two 4 4 ≠ 1 ∧
    field ok 8 4 ≠ (ok.sreg 5).toNat % 2 ^ 32 ∧ field (gran [(0, 2), (4, 1)]) 8 4 = ((gran [(0, 2), (4, 1)]).sreg 5).toNat % 2 ^ 32 := by
  intro gran ok two sat part arrive wait field cause
  refine ⟨fun s hs => ⟨ownReady_of_fresh ?_, ownReady_of_fresh ?_⟩, ownReady_of_fresh ?_, ownReady_of_fresh ?_, ownReady_of_fresh ?_, ?_⟩
  · revert s; unfold ownFresh; unfold State.unopposed State.raceFree; decide +kernel
  · revert s; unfold ownFresh; unfold State.unopposed State.raceFree; decide +kernel
  · unfold ownFresh; unfold State.unopposed State.raceFree; decide +kernel
  · unfold ownFresh; unfold State.unopposed State.raceFree; decide +kernel
  · unfold ownFresh; unfold State.unopposed State.raceFree; decide +kernel
  · decide +kernel

end Sys2Proof.Witness
end

