-- ==== Sys2Proof/Tests/Witness4.lean ====
section
/-! SUPPORT. For the statements about milestone instructions, layout records and fences: states and operands that meet their hypotheses, one set for
each clause. -/

namespace Sys2Proof.Witness

open Sys2Proof Sys2Proof.Machine Sys2Proof.Bench

set_option Elab.async false

/-- A milestone step begins, or goes on. -/
def begins (T : Tile) (s : State) (i : Nat) (recs : List (Nat × BitVec 256)) : Prop :=
  s.canIssue = true ∧ i < T.n ∧ (s.curAgent.progress = some (i, recs) ∧ s.issuedNow.done = [] ∨ s.curAgent.progress = none ∧ s.curAgent.issued = none ∧
    recs = T.descs.map (fun d => (s.handleOf d.l, (s.curTeam.record T.reader (s.handleOf d.l)).raw)) ∧
    firstFault [s.msFault T.op T.n recs, T.check s (recs.map fun p => ⟨p.2⟩), s.regFault T.regs false] = none ∧ s.stopArmed s.cur 2 = false ∧ i = s.msStart)
theorem at_of_begins {T : Tile} {s : State} {i : Nat} {recs : List (Nat × BitVec 256)} (h : begins T s i recs) : T.at s i recs := by
  obtain ⟨h1, h2, h | ⟨h, h'⟩⟩ := h
  · exact ⟨h1, h2, by rw [h.1]; exact ⟨rfl, h.2⟩⟩
  · exact ⟨h1, h2, by rw [h]; exact h'⟩
/-- Its accesses stand alone, in bytes without records of earlier writes. -/
def tileFresh (T : Tile) (s : State) (i : Nat) (recs : List (Nat × BitVec 256)) (read write : Bool) : Prop :=
  ∀ gl ∈ T.members s recs, ∀ p ∈ T.spots s (recs.map fun p => ⟨p.2⟩) i gl,
    let c := s.tileAcc p.1 p.2.1 p.2.2.1 p.2.2.2 i gl read write
    s.unopposed c ∧ (∀ j < c.size, s.histAt c.place (c.addr + j) = []) ∧ s.boundsFail s.curTeam p.1 p.1.size p.2.2.1 = none
theorem free_of_fresh {T : Tile} {s : State} {i : Nat} {recs : List (Nat × BitVec 256)} {r w : Bool} (h : tileFresh T s i recs r w) :
    T.free s i recs r w :=
  fun gl hg p hp => ⟨(h gl hg p hp).1, recorded_of_fresh (h gl hg p hp).2.1, (h gl hg p hp).2.2⟩

/-- Handle 7 for 32 by 8 words of the local column, 8 for 8 by 32 words of shared memory. -/
def mem3 : State :=
  let s := tm mem2 fun t => { t with layouts := t.layouts ++ [(7, record 1 1 0 32 8 1 32), (8, record 0 1 0x800 8 32 1 8)] }
  (lch s fun l => { l with overpass := true }).modCluster s.curTeam.cluster fun c => { c with binding := [⟨0, 0, 1⟩] }
def zero (h : BitVec 7) : Desc := ⟨.handle h, .lit 0, .lit 0, .lit 0, .lit 0⟩
def rec_ (h : Nat) : Nat × BitVec 256 := (h, cellGet 0 mem3.curTeam.layouts h)
/-- Before element i, with the records given. -/
def before (i : Nat) (recs : List (Nat × BitVec 256)) : State := agt mem3 fun x => { x with progress := some (i, recs) }
/-- The states of a first, a middle and a last step, each with its element. -/
def steps (recs : List (Nat × BitVec 256)) : List (State × Nat) := [(mem3, 0), (before 0 recs, 0), (before 3 recs, 3), (before 7 recs, 7)]
/-- Layer rows of handle 7, a transposition from handle 2 to handle 8, and elements of handle 2 by number and by index register. -/
def lf : LayerArgs := ⟨0, 16, 8, zero 7⟩
def tf : TtrArgs := ⟨0, 0, 8, zero 8, zero 2⟩
def ef : TileArgs := ⟨0, 0, 16, zero 2, 8⟩
def gf : GatherArgs := ⟨0, 0, 16, 24, zero 2, 8⟩
/-- A step that is not its instruction's last, or that can retire. -/
theorem witness_TileLoads :
    (∀ p ∈ steps [rec_ 2], (tldTile ef p.1).at p.1 p.2 [rec_ 2] ∧ (tldTile ef p.1).clear p.1 p.2 [rec_ 2] ∧ (tldTile ef p.1).free p.1 p.2 [rec_ 2] true false) ∧
    (∀ p ∈ steps [rec_ 2], (tredTile ef p.1).at p.1 p.2 [rec_ 2] ∧ (tredTile ef p.1).clear p.1 p.2 [rec_ 2] ∧ (tredTile ef p.1).free p.1 p.2 [rec_ 2] true false) ∧
    (∀ p ∈ steps [rec_ 2], (gatherTile gf p.1).at p.1 p.2 [rec_ 2] ∧ (gatherTile gf p.1).clear p.1 p.2 [rec_ 2] ∧
      (gatherTile gf p.1).free p.1 p.2 [rec_ 2] true false) ∧
    (∀ p ∈ steps [rec_ 7], (lldTile lf p.1).at p.1 p.2 [rec_ 7] ∧ (lldTile lf p.1).clear p.1 p.2 [rec_ 7] ∧ ∀ l h, [rec_ 7] = [(h, l)] →
      ∀ gl ∈ (lldTile lf p.1).members p.1 [rec_ 7], p.1.unopposed (layerAcc lf p.1 ⟨l⟩ p.2 gl true false) ∧
        let spot := p.1.placeAt p.1.cur.team ⟨l⟩ (((⟨l⟩ : Layout).addr (⟨l⟩ : Layout).size (rowCoords lf p.1 ⟨l⟩ p.2)).toNat + 4 * (gl % 32))
        p.1.recorded spot.1 spot.2 4) := by
  refine ⟨fun p hp => ⟨at_of_begins ?_, ?_, free_of_fresh ?_⟩, fun p hp => ⟨at_of_begins ?_, ?_, free_of_fresh ?_⟩,
    fun p hp => ⟨at_of_begins ?_, ?_, free_of_fresh ?_⟩, fun p hp => ⟨at_of_begins ?_, ?_, ?_⟩⟩
  · revert p; unfold begins; decide +kernel
  · revert p; unfold Tile.clear; decide +kernel
  · revert p; unfold tileFresh; unfold State.unopposed State.raceFree; decide +kernel
  · revert p; unfold begins; decide +kernel
  · revert p; unfold Tile.clear; decide +kernel
  · revert p; unfold tileFresh; unfold State.unopposed State.raceFree; decide +kernel
  · revert p; unfold begins; decide +kernel
  · revert p; unfold Tile.clear; decide +kernel
  · revert p; unfold tileFresh; unfold State.unopposed State.raceFree; decide +kernel
  · revert p; unfold begins; decide +kernel
  · revert p; unfold Tile.clear; decide +kernel
  · intro l h e
    obtain rfl : (rec_ 7).2 = l := congrArg Prod.snd (List.cons.inj e).1
    refine fun gl hg => ⟨?_, recorded_of_fresh ?_⟩
    · revert p gl; unfold State.unopposed State.raceFree; decide +kernel
    · revert p gl; decide +kernel

/-- No plane copies a column, so that no place is mirrored. -/
theorem plainView_of_still {s : State} (h : s.curLaunch.determinate = true ∨ s.curGroup.held = []) (hm : s.towers = []) (lanes : List Nat)
    (src dst : Nat → Place × Nat) : s.plainView lanes src dst := by
  refine ⟨h, fun gl _ q e => ?_⟩
  have : s.mirrorOf (dst gl).1 = none := by
    unfold State.mirrorOf
    split
    · have : ∀ t, (s.tower t).move = none := by intro t; simp [State.tower, hm]; rfl
      simp [this]
    · rfl
  simp [this] at e
/-- The same for stores, at once and, in a determinate launch, held. -/
theorem witness_TileStores :
    let det (s : State) : State := lch s fun l => { l with determinate := true }
    let all (recs : List (Nat × BitVec 256)) : List (State × Nat) := steps recs ++ (steps recs).map fun p => (det p.1, p.2)
    let plain (s : State) : Prop := ∀ lanes src dst, s.plainView lanes src dst
    (∀ p ∈ all [rec_ 8, rec_ 2], let T := ttrTile tf p.1
      T.at p.1 p.2 [rec_ 8, rec_ 2] ∧ T.clear p.1 p.2 [rec_ 8, rec_ 2] ∧ plain p.1 ∧
      ∀ ld lsrc hd hs, [rec_ 8, rec_ 2] = [(hd, ld), (hs, lsrc)] →
        let cs := tileCoords ⟨lsrc⟩ (p.1.dCoords ⟨lsrc⟩ tf.src)
        let cd := tileCoords ⟨ld⟩ (p.1.dCoords ⟨ld⟩ tf.dst)
        let src (gl : Nat) := p.1.elemAt p.1.cur.team ⟨lsrc⟩ ((⟨lsrc⟩ : Layout).addr 4 (cs (gl % 32) p.2 0)).toNat 4
        (⟨lsrc⟩ : Layout).size = (⟨ld⟩ : Layout).size ∧ (⟨ld⟩ : Layout).size = 4 ∧ ∀ gl ∈ T.members p.1 [rec_ 8, rec_ 2],
          p.1.unopposed (p.1.tileAcc ⟨lsrc⟩ (p.1.handleOf tf.src.l) (cs (gl % 32) p.2 0) 4 p.2 gl true false) ∧
          p.1.unopposed (p.1.tileAcc ⟨ld⟩ (p.1.handleOf tf.dst.l) (cd p.2 (gl % 32) 0) 4 p.2 gl false true) ∧ p.1.recorded (src gl).1 (src gl).2.1 4) ∧
    (∀ p ∈ all [rec_ 2], let T := scatterTile gf p.1
      T.at p.1 p.2 [rec_ 2] ∧ T.clear p.1 p.2 [rec_ 2] ∧ T.free p.1 p.2 [rec_ 2] false true ∧ plain p.1 ∧ (⟨(rec_ 2).2⟩ : Layout).size = 4) ∧
    (∀ p ∈ all [rec_ 7], let T := lstTile lf p.1
      T.at p.1 p.2 [rec_ 7] ∧ T.clear p.1 p.2 [rec_ 7] ∧ plain p.1 ∧
      ∀ gl ∈ T.members p.1 [rec_ 7], p.1.unopposed (layerAcc lf p.1 ⟨(rec_ 7).2⟩ p.2 gl false true)) := by
  intro det all plain
  refine ⟨fun p hp => ⟨at_of_begins ?_, ?_, ?_, ?_⟩, fun p hp => ⟨at_of_begins ?_, ?_, free_of_fresh ?_, ?_, ?_⟩, fun p hp => ⟨at_of_begins ?_, ?_, ?_, ?_⟩⟩
  · revert p; unfold begins; decide +kernel
  · revert p; unfold Tile.clear; decide +kernel
  · refine plainView_of_still ?_ ?_ <;> (revert p; decide +kernel)
  · intro ld lsrc hd hs e
    obtain rfl : (rec_ 8).2 = ld := congrArg Prod.snd (List.cons.inj e).1
    obtain rfl : (rec_ 2).2 = lsrc := congrArg Prod.snd (List.cons.inj (List.cons.inj e).2).1
    refine ⟨by decide +kernel, by decide +kernel, fun gl hg => ⟨?_, ?_, recorded_of_fresh ?_⟩⟩
    · revert p gl; unfold State.unopposed State.raceFree; decide +kernel
    · revert p gl; unfold State.unopposed State.raceFree; decide +kernel
    · revert p gl; decide +kernel
  · revert p; unfold begins; decide +kernel
  · revert p; unfold Tile.clear; decide +kernel
  · revert p; unfold tileFresh; unfold State.unopposed State.raceFree; decide +kernel
  · refine plainView_of_still ?_ ?_ <;> (revert p; decide +kernel)
  · decide +kernel
  · revert p; unfold begins; decide +kernel
  · revert p; unfold Tile.clear; decide +kernel
  · refine plainView_of_still ?_ ?_ <;> (revert p; decide +kernel)
  · revert p; unfold State.unopposed State.raceFree; decide +kernel

/-- The issuing agents of lrec, lfence and fence, and the team whose cache is filled. -/
theorem witness_LayoutRecordsAndFences : mem3.canIssue = true ∧ cellHas mem3.teams mem3.cur.team = true ∧ mem3.curTeam.readers ≠ [] := by decide +kernel

end Sys2Proof.Witness
end

