-- ==== Sys2Proof/Tests/Witness5.lean ====
section
/-! SUPPORT. For the statements about the streamer: states and operands that meet their hypotheses, one set for each clause. -/

namespace Sys2Proof.Witness

open Sys2Proof Sys2Proof.Machine Sys2Proof.Bench

set_option Elab.async false

/-- Handle 9 for a bitmap at 0xC00, 10 for 64 words at 0xD00, 11 and 12 for four words at 0xE00 and 0xE40, 13 for tagged blocks of main memory. -/
def str : State := tm mem3 fun t => { t with layouts := t.layouts ++ [(9, record 0 5 0xC00 16 0 1 0), (10, record 0 1 0xD00 64 0 1 0),
  (11, record 0 1 0xE00 4 0 1 0), (12, record 0 1 0xE40 4 0 1 0), (13, record 3 1 0x100000 16 0 1 0)] }
/-- A copy from one handle to another with its bit in word n of the bitmap. -/
def copy (d s : BitVec 7) (n : BitVec 5) (cls : BitVec 2) : CpyArgs := ⟨0, .handle 9, .lit n, cls, zero d, zero s⟩
/-- The bitmap's word 0, which cpyx reads before its run: exponent 127 and span code n. -/
def expand (n : Nat) : State := tm str fun t => { t with shared := [(0xC00, 127), (0xC01, BitVec.ofNat 8 n)] }
/-- As many accepted copies as a team may have. -/
def fullRoom (s : State) : State := tm s fun t => { t with copies := (List.range 32).map fun i => (i, { Copy.blank with accepted := true }), nextCopy := 32 }
/-- An accepted copy of four words, one of an expand copy, and one of cpym to the team itself. -/
def cp : State := after str (exec (.cpy (copy 11 12 0 3)) str)
def cpx : State := after (expand 0) (exec (.cpyx (copy 11 13 0 3)) (expand 0))
def cpm : State := let s := setS str 5 1; after s (exec (.cpym (copy 11 12 0 3) 5) s)
/-- The agent waits with a copy. -/
def accepting : State :=
  let s := after (fullRoom str) (exec (.cpy (copy 11 12 0 0)) (fullRoom str))
  tm s fun t => { t with copies := t.copies.filter fun p => p.1 == 32 }
/-- Checks failed and passed, with room and without; an expand word with a reserved bit, one with span code 3, and one in form; an agent that waits with
room and without; waits with a bit missing, with an empty mask, on a word of no run, on the word of a landed chunk, on one whose outcome is an error,
and on one marked lost. -/
theorem witness_CopiesAreAcceptedAndAwaited :
    let bad := copy 1 0 0 3
    let good := copy 11 12 0 3
    let ex := copy 11 13 0 3
    let high := tm str fun t => { t with shared := [(0xC01, 4)] }
    let drawn (s : State) : Copy := s.draftCopy .cpyx ex 0
    let acc (s : State) := s.laneAcc ⟨(drawn s).hb, [(drawn s).run - 1], 0, Ord.plain, false⟩ (.shared s.cur.team) 0xC00 4 s.agentLane true false
    let masked := setS str 5 1
    let done := after (after cp (exec (.sliceStart 0) cp)) (exec (.chunkLand 1 0 0) (after cp (exec (.sliceStart 0) cp)))
    let c := (done.curTeam.namedCopy 0x300).getD Copy.blank
    let failed := tm done fun t => { t with store := [⟨0x300, 0, 0, c.order, ⟨4, false, 0, 0⟩⟩] }
    let lost := tm done fun t => { t with lost := [0x300] }
    str.canIssue = true ∧ str.stopArmed str.cur 2 = false ∧ (str.copyChecks (str.draftCopy .cpy bad 0) bad).isSome = true ∧
      str.copyChecks (str.draftCopy .cpy good 0) good = none ∧ str.copyRoom str.cur.team = true ∧ (fullRoom str).copyRoom str.cur.team = false ∧
      (fullRoom str).canIssue = true ∧ (fullRoom str).copyChecks ((fullRoom str).draftCopy .cpy good 0) good = none ∧ (fullRoom str).stopArmed str.cur 2 = false ∧
    masked.canIssue = true ∧ (masked.copyChecks (masked.draftCopy .cpym bad 1) bad).isSome = true ∧ masked.copyChecks (masked.draftCopy .cpym good 1) good = none ∧
      (masked.sreg 5).toNat = 1 ∧ masked.copyTargets (masked.draftCopy .cpym good 1) 1 = none ∧ (fullRoom masked).copyRoom masked.cur.team = false ∧
      (fullRoom masked).copyChecks ((fullRoom masked).draftCopy .cpym good 1) good = none ∧
      (fullRoom masked).copyTargets ((fullRoom masked).draftCopy .cpym good 1) 1 = none ∧
    (∀ s ∈ [expand 0, expand 3, high], s.canIssue = true ∧ s.stopArmed s.cur 2 = false ∧ s.copyChecks (drawn s) ex = none ∧
      wordAddr (drawn s).bl ((drawn s).run - 1) = 0xC00 ∧ s.unopposed (acc s) ∧ (∀ i < 4, s.histAt (acc s).place (0xC00 + i) = []) ∧ s.copyRoom s.cur.team = true) ∧
    bytesWord ((expand 0).sees (.shared 1) 0xC00 4) = 127 ∧ bytesWord ((expand 3).sees (.shared 1) 0xC00 4) / 2 ^ 8 % 4 = 3 ∧
      bytesWord (high.sees (.shared 1) 0xC00 4) / 2 ^ 10 ≠ 0 ∧
    (∀ s ∈ [accepting, fullRoom accepting], (s.agent ⟨1, 0⟩).status = .accept 32 ∧ s.runs 1 = true ∧ cellHas (s.team 1).agents 0 = true ∧
      (s.launch (s.team 1).launch).determinate = false ∧ (s.agent ⟨1, 0⟩).info = none) ∧
      (fullRoom accepting).copyRoom 1 = false ∧ accepting.copyRoom 1 = true ∧ (cellGet Copy.blank (accepting.team 1).copies 32).kind ≠ .cpym ∧
    (∀ s ∈ [str, cp, done, failed, lost], s.canIssue = true ∧
      recordCheck (s.curTeam.record .streamer 9) 9 [0] (fun l => l.size == 4) 4 [.lit 0] = none ∧ s.blockBounds (s.curTeam.record .streamer 9) [0] 4 = none ∧
      wordAddr (s.curTeam.record .streamer 9) 0 = 0xC00) ∧
    Nat.land (readLE cp.curTeam.shared 0xC00 4) 1 ≠ 1 ∧ Nat.land (readLE cp.curTeam.shared 0xC00 4) 0 = 0 ∧
      Nat.land (readLE (expand 0).curTeam.shared 0xC00 4) 1 = 1 ∧ (expand 0).curTeam.namedCopy 0x300 = none ∧
    (∀ s ∈ [done, failed, lost], Nat.land (readLE s.curTeam.shared 0xC00 4) 1 = 1 ∧ s.curTeam.namedCopy 0x300 = some c ∧ c.owned 0x300 1 = [0] ∧
      s.curGroup.rmode.toNat < 2) ∧
    (done.curTeam.outcomeOf c 0).code = 0 ∧ done.curTeam.lost.contains 0x300 = false ∧ (failed.curTeam.outcomeOf c 0).code = 4 ∧
      lost.curTeam.lost.contains 0x300 = true := by
  intro bad good ex high drawn acc masked done c failed lost
  and_intros <;> first | decide +kernel | (unfold State.unopposed State.raceFree; decide +kernel)
/-- A bmwait that waits goes on with the record it issued with. -/
theorem witness_CopiesAreAcceptedAndAwaited_waiting :
    str.swept 1 ∧ let s := agt cp fun x => { x with issued := some ⟨[(9, (cp.curTeam.record .streamer 9).raw)], [], [], [], false⟩ }
    s.canIssue = true ∧ (∃ i x, s.curAgent.issued = some i ∧ i.recs.head? = some (x, (s.curTeam.record .streamer 9).raw)) ∧
      Nat.land (readLE s.curTeam.shared 0xC00 4) 1 ≠ 1 :=
  ⟨swept_of_none (by decide +kernel), by decide +kernel, ⟨⟨[(9, (cp.curTeam.record .streamer 9).raw)], [], [], [], false⟩, 9, by decide +kernel, by decide +kernel⟩, by decide +kernel⟩

/-- An engine's reads and writes that stand alone, in bytes without records of earlier writes and places without mirrors. -/
def writesFresh (s : State) (team id : Nat) (c : Copy) (i : Nat) (dst : List Spot) (bits : List Nat) (view : View) : Prop :=
  (∀ p ∈ dst, s.raceFree (s.copyAcc c team id p 1 true view) ∧
    (∀ b ∈ bits, s.covers (.shared b, c.bitWord i) 4 p.place p.addr = false) ∧ s.mirrorOf p.place = none ∧
    ∀ q ∈ dst, p.place = .main → q.place = .main → p.addr / 64 = q.addr / 64 → p.key = q.key) ∧
  (dst.map fun p => (placeKey p.place, p.addr)).Nodup ∧ bits.Nodup ∧ ∀ b ∈ bits, s.raceFree (c.bitAcc team id b i c.view)
theorem writesFreely_of_fresh {s : State} {team id : Nat} {c : Copy} {i : Nat} {dst : List Spot} {bits : List Nat} {v : View}
    (h : writesFresh s team id c i dst bits v) : s.writesFreely team id c i dst bits v :=
  ⟨fun p hp => let x := h.1 p hp; ⟨x.1, x.2.1, fun m e => by simp [x.2.2.1] at e, x.2.2.2⟩, h.2.1, h.2.2.1, h.2.2.2⟩
/-- A chunk whose turn it is, where no request is under way. -/
theorem chunkReady_of_quiet {s : State} {team id i : Nat} (hq : s.requests = [])
    (h : let c := cellGet Copy.blank (s.team team).copies id
      (s.copyLives team id = true ∧ c.remote = none ∧ i < c.started ∧ i < c.chunks ∧ i ∉ c.landed ∧ s.inOrder team c i = true ∧
        s.mustWait team c (s.chunkReads team c i) (if c.kind = .cpym then [] else s.chunkWrites team c i) = false ∧ cellHas c.fetched i = false) ∧
      (s.team team).status ≠ .draining) :
    s.chunkReady team id i :=
  ⟨⟨h.1.1, h.1.2.1, h.1.2.2.1, h.1.2.2.2.1, h.1.2.2.2.2.1, h.1.2.2.2.2.2.1, h.1.2.2.2.2.2.2.1, h.1.2.2.2.2.2.2.2, by simp [State.requestsOf, hq]⟩, h.2⟩

def cut (s : State) : State := after s (exec (.sliceStart 0) s)
def srcL (s : State) : List Spot := let c := cellGet Copy.blank (s.team 1).copies 0; (s.allSpots (s.team 1) false (s.srcParts 1 c (c.range 0).1 (c.range 0).2)).1
def dstL (s : State) : List Spot := let c := cellGet Copy.blank (s.team 1).copies 0; (s.allSpots (s.team 1) true (s.dstParts 1 c (c.range 0).1 (c.range 0).2)).1
/-- Tagged blocks of format F8E4 in main memory: a first byte with the format's code, then the scale, then elements. -/
def tagged (s : State) : State := { s with main := writeBytes s.main 0x100000 [12, 127, 0x38] }
/-- The chunk of a cpym, fetched; with the generation of its team as it was, and another. -/
def fetched : State := after (cut cpm) (exec (.chunkLand 1 0 0) (cut cpm))
def ended : State := fetched.modTeam 1 fun t => { t with gen := t.gen + 1 }

/-- A slice from the queue visited, and from one behind an empty queue; a chunk of a copy; a delivery to the team itself, and one to a team that has ended
since. -/
theorem witness_EnginesMoveBytes :
    let next := cp.modCore 0 fun k => { k with visit := 0, paid := true }
    (cp.core 0).visit = 3 ∧ cp.queueOf 0 3 = [(1, 0)] ∧ min (512 * (cp.copyOf (1, 0)).started + 2048) (cp.copyOf (1, 0)).tileBytes ≤ 2048 * 2 ^ 3 ∧
      (next.core 0).visit = 0 ∧ next.queueOf 0 0 = [] ∧ next.queueOf 0 3 = [(1, 0)] ∧ (0 + 4 - 1) % 4 = 3 ∧
    (let s := cut cp
     let c := cellGet Copy.blank (s.team 1).copies 0
     let view := c.view ||| s.overlapView 1 c (s.chunkReads 1 c 0) []
     s.chunkReady 1 0 0 ∧ s.srcSpots 1 c 0 (srcL s) ∧ s.dstSpots 1 1 c 0 (dstL s) ∧ s.readsFreely 1 0 c (srcL s) view ∧
       s.writesFreely 1 0 c 0 (dstL s) [1] (s.landView 1 1 c 0) ∧ c.kind = .cpy ∧ (dstL s).length = 16 ∧ (srcL s).length = 16) ∧
    (let s := cut (tagged cpx)
     let c := cellGet Copy.blank (s.team 1).copies 0
     let view := c.view ||| s.overlapView 1 c (s.chunkReads 1 c 0) []
     s.chunkReady 1 0 0 ∧ s.srcSpots 1 c 0 (srcL s) ∧ s.dstSpots 1 1 c 0 (dstL s) ∧ s.readsFreely 1 0 c (srcL s) view ∧
       s.writesFreely 1 0 c 0 (dstL s) [1] (s.landView 1 1 c 0) ∧ c.kind = .cpyx ∧ 0 < c.span ∧
       (∀ n ∈ c.blocks (c.range 0).1 (c.range 0).2, (blockFormat (s.blockBytes 1 c n) c.span).isSome = true) ∧ c.blocks (c.range 0).1 (c.range 0).2 ≠ []) ∧
    (∀ s ∈ [fetched, ended], let t := s.team 1
     let c := cellGet Copy.blank t.copies 0
     s.copyLives 1 0 = true ∧ c.remote = none ∧ c.kind = .cpym ∧ 0 < c.chunks ∧ 0 ∉ c.landed ∧ t.status ≠ .draining ∧ s.teamAt t.cluster 0 = some 1 ∧
       c.targets.find? (fun p => p.1 == 0) = some (0, 0) ∧ cellHas c.fetched 0 = true ∧ c.deliveryAt 0 0 = none ∧ s.inOrder 1 c 0 = true ∧
       s.mustWait 1 c [] (s.chunkWrites 1 c 0) = false) ∧
    (ended.team 1).gen ≠ 0 ∧
    (let s := fetched
     let c := cellGet Copy.blank (s.team 1).copies 0
     let f := cellGet Fetch.blank c.fetched 0
     (s.team 1).status ≠ .ended ∧ (s.team 1).gen = 0 ∧ f.out = Outcome.none ∧ f.near = false ∧ f.bytes = (List.replicate 16 (0 : Byte)).map some ∧ (dstL s).length = 16 ∧
       s.dstSpots 1 1 c 0 (dstL s) ∧ s.writesFreely 1 0 c 0 (dstL s) [1] (s.landView 1 1 c 0)) := by
  intro next
  refine ⟨by decide +kernel, by decide +kernel, by decide +kernel, by decide +kernel, by decide +kernel, by decide +kernel, by decide, ?_, ?_, ?_, ?_, ?_⟩
  · refine ⟨chunkReady_of_quiet (by decide +kernel) (by decide +kernel), ?_, ?_, ?_, writesFreely_of_fresh ?_, ?_⟩
    · unfold State.srcSpots; decide +kernel
    · unfold State.dstSpots; decide +kernel
    · unfold State.readsFreely State.raceFree; decide +kernel
    · unfold writesFresh State.raceFree; decide +kernel
    · decide +kernel
  · refine ⟨chunkReady_of_quiet (by decide +kernel) (by decide +kernel), ?_, ?_, ?_, writesFreely_of_fresh ?_, ?_⟩
    · unfold State.srcSpots; decide +kernel
    · unfold State.dstSpots; decide +kernel
    · unfold State.readsFreely State.raceFree; decide +kernel
    · unfold writesFresh State.raceFree; decide +kernel
    · decide +kernel
  · refine fun s hs => ⟨?_, ?_, ?_, ?_, ?_, ?_, ?_, ?_, ?_, ?_, ?_, ?_⟩ <;> (revert s; decide +kernel)
  · decide +kernel
  · refine ⟨by decide +kernel, by decide +kernel, by decide +kernel, by decide +kernel, by decide +kernel, by decide +kernel, ?_, writesFreely_of_fresh ?_⟩
    · unfold State.dstSpots; decide +kernel
    · unfold writesFresh State.raceFree; decide +kernel

/-- A move of column 0 to column 1: a cluster's entry bound and the target free; a row without an error and one with; every row copied. -/
theorem witness_ColumnMoves :
    let moving (row : Nat) : State := mem3.modTower 0 fun x => { x with move := some (0, 1, row) }
    (mem3.tower 0).move = none ∧ (mem3.clusters.any fun c => c.2.tower == 0 && c.2.binding.any fun e => e.col == 0 && e.state == 1) = true ∧
      (mem3.clusters.all fun c => !c.2.holds 0 1) = true ∧
    (∀ row ∈ [0, 32767, 32768], ((moving row).tower 0).move = some (0, 1, row)) ∧
      (∀ row ∈ [0, 32767], (moving row).badAt (.column 0 0) (128 * row) 128 = false) ∧
    ({ moving 5 with badLines := [(.column 0 0, 5)] } : State).badAt (.column 0 0) (128 * 5) 128 = true := by decide +kernel

end Sys2Proof.Witness
end

