-- ==== Sys2Proof/Tests/Witness6.lean ====
section
/-! SUPPORT. For the statements about the matrix engine: states and operands that meet their hypotheses, one set for each clause. -/

namespace Sys2Proof.Witness

open Sys2Proof Sys2Proof.Machine Sys2Proof.Bench

set_option Elab.async false

/-- Two groups in a half gang with tokens in q3, and handle 14 for A: 2 by 32 words of shared memory. -/
def half : Gang := ⟨2, [0, 1], some 3⟩
def gang2 : State := tm two fun t =>
  { t with layouts := [(14, record 0 1 0 2 32 1 2)], groups := t.groups.map fun g => (g.1, { g.2 with gang := some half, q := [(3, 2 ^ 9)] }) }
def mm : MmaArgs := ⟨0, .f32, 0, 32, none, none, 5, 2, zero 14⟩
/-- The first member has arrived; both have, and the command is checked, accepted, started, and its arrays have read n of their four pieces. -/
def latched : State := let s := after gang2 (exec (.mma mm) gang2); { s with cur := ⟨1, 1⟩ }
def checked : State := after latched (exec (.mma mm) latched)
def accepted : State := after checked (exec (.commandAccept 1 0 5) checked)
def started : State := after accepted (exec (.commandStart 1 0 5) accepted)
def readRows : Nat → State
  | 0 => started
  | n + 1 => let s := readRows n; after s (exec (.matrixARead 1 0 ⟨5, n % 2, n / 2, 0⟩) s)
def theCmd (s : State) : Cmd := ((s.team 1).cmd 0 5).getD cmd0

/-- A partial set; gang with commands in use, release, a bad slot, a queue that is bound, and bindings with a queue and without. -/
theorem witness_MatrixCommandsIssue_gang :
    let part := agt gang2 fun x => { x with k0 := localDesc 0 3 }
    let free := tm gang2 fun t => { t with groups := two.curTeam.groups }
    let bound := grp free fun g => { g with q := [(4, 2 ^ 8)] }
    let bad (s : State) (g : GangArgs) : Bool := decide (s.curTeam.lanesN < 32) || (gangSlots g).any (fun n => decide (s.curTeam.groupsN ≤ n)) ||
      !(gangSlots g).contains s.curAgent.host
    part.canIssue = true ∧ part.fullSet = false ∧
    (∀ s ∈ [gang2, free, bound], s.canIssue = true ∧ s.fullSet = true ∧ s.curTeam.cmdsOf s.curAgent.host = [] ∧ s.curAgent.host = 0) ∧
    (let s := { accepted with cur := ⟨1, 0⟩ }
     s.canIssue = true ∧ s.fullSet = true ∧ s.curTeam.cmdsOf 0 ≠ []) ∧
    bad free ⟨none, 2, 0, 2, 0, 0⟩ = true ∧ bad free ⟨none, 1, 0, 1, 2, 3⟩ = true ∧ bad free ⟨none, 3, 0, 0, 1, 1⟩ = true ∧
      bad bound ⟨some 4, 2, 0, 1, 0, 0⟩ = false ∧ cellGet 0 bound.curGroup.unbindGang.q 4 ≠ 0 ∧
      bad gang2 ⟨some 3, 2, 1, 0, 0, 0⟩ = false ∧ cellGet 0 gang2.curGroup.unbindGang.q 3 = 0 ∧ bad free ⟨none, 3, 0, 0, 1, 0⟩ = false := by decide +kernel

/-- An arrival without a gang, the first of two, and the last with its checks passed. -/
theorem witness_MatrixCommandsIssue_mma :
    let free := tm gang2 fun t => { t with groups := two.curTeam.groups }
    let arrived (s : State) := ((s.curTeam.latchOf half).map fun l => l.arrived).getD [] ++ [(s.curAgent.host, mm.c.toNat, mm.b.toNat)]
    let all (s : State) : Bool := half.slots.all fun n => (arrived s).any fun m => m.1 == n
    (free.mmaArrival mm).isSome = true ∧ free.canIssue = true ∧ free.fullSet = true ∧
    (∀ s ∈ [gang2, latched], s.canIssue = true ∧ s.fullSet = true ∧ s.mmaArrival mm = none ∧ s.curGroup.gang = some half) ∧ all gang2 = false ∧
    all latched = true ∧ latched.curLaunch.determinate = false ∧ (∃ x, latched.curTeam.latchOf half = some x ∧
      latched.latchFault { x with arrived := arrived latched } = none) := by
  refine ⟨by decide +kernel, by decide +kernel, by decide +kernel, by decide +kernel, by decide +kernel, by decide +kernel, by decide +kernel,
    (latched.curTeam.latchOf half).get (by decide +kernel), by decide +kernel, by decide +kernel⟩

/-- A stopped command; waits with commands executing and complete; a queue that is not the gang's, one without a token, and one with. -/
theorem witness_MatrixCommandsIssue_wait :
    let here (s : State) : State := { s with cur := ⟨1, 0⟩ }
    let stopped := tm (here accepted) fun t => { t with cmds := t.cmds.map fun c => { c with state := .stopped, fault := some (2, 0) } }
    let run := here started
    let done := tm run fun t =>
      { t with cmds := t.cmds.map fun c => { c with state := .complete }, groups := t.groups.map fun g => (g.1, { g.2 with tokens := [(3, [517])] }) }
    let mine (s : State) := s.curTeam.unwaited s.curAgent.host
    (∀ s ∈ [stopped, run, done], s.canIssue = true ∧ s.fullSet = true) ∧ (stopped.curTeam.stoppedFor 0).isSome = true ∧
    (∀ s ∈ [run, done], s.curTeam.stoppedFor 0 = none ∧ (s.curTeam.cmds.map fun c => (c.leader, c.id)).Nodup ∧ s.curGroup.gang = some half ∧
      (mine s).length = 1) ∧
    (∃ c ∈ mine run, c.state ≠ .complete) ∧ (∀ c ∈ mine done, c.state = .complete) ∧ half.queue ≠ some 4 ∧ half.queue = some 3 ∧
      cellGet [] run.curGroup.tokens 3 = [] ∧ cellGet [] done.curGroup.tokens 3 = [517] ∧
      ((mine done).filter fun c => c.state == .complete && c.token == 517).length = 1 := by decide +kernel

/-- A checked command with room and without; a ready one; executing ones before a first, a middle and a last read, and with every read made. -/
theorem witness_MatrixEngineRuns :
    let busy (s : State) := ((s.coreCmds (s.team 1).core).filter fun d => d.state == .waiting || d.state == .executing || d.state == .stopped).length
    let crowd := tm checked fun t => { t with cmds := t.cmds ++ (List.range 64).map fun i => { cmd0 with leader := 2, id := BitVec.ofNat 6 i } }
    (∀ s ∈ [checked, crowd], s.runs 1 = true ∧ ((s.team 1).cmd 0 5).isSome = true ∧ (theCmd s).state = .checked ∧
      (s.launch (s.team 1).launch).determinate = false) ∧ busy crowd = 64 ∧ busy checked < 64 ∧ ((theCmd checked).ranges.map fun m => m.1).Nodup ∧
      (∀ m ∈ (theCmd checked).ranges, cellHas (checked.team 1).agents m.1 = true ∧ ((checked.team 1).agent m.1).info = none) ∧
    (accepted.runs 1 = true ∧ (theCmd accepted).ready (accepted.team 1) = true ∧ accepted.cmdTurn 1 (theCmd accepted) = true ∧
      (∀ e ∈ accepted.coreCmds (accepted.team 1).core, e.state ≠ .executing) ∧
      ∀ p ∈ accepted.teams, ∀ d ∈ p.2.cmds, d.ready p.2 = true → (theCmd accepted).order ≤ d.order) ∧
    (∀ n ∈ [0, 1, 2, 3], let s := readRows n
     let c := theCmd s
     s.runs 1 = true ∧ c.state = .executing ∧ c.queued = false ∧ (s.team 1).mismatched c = false ∧ s.cmdTurn 1 c = true ∧ (c.ranges.map fun m => m.1).Nodup ∧
       n % 2 < c.gang.slots.length ∧ c.elem = n / 2 ∧ n / 2 < c.n ∧ c.met = none ∧ s.pieceTurn 1 c (n % 2) (n / 2) 0 = true ∧
       (s.stepReads 1 (theCmd (readRows (n + 1)))).isSome = (n == 3)) ∧
    (let s := readRows 4
     s.cmdTurn 1 (theCmd s) = true ∧ (theCmd s).elem + 1 = (theCmd s).n ∧ (s.stepReads 1 (theCmd s)).isSome = true ∧ (theCmd s).gang.slots.Nodup) := by decide +kernel

/-- A record with another layout than the one the command was created with stops it at its start. -/
theorem witness_MatrixEngineRuns_recheck :
    let s := tm accepted fun t => { t with cmds := t.cmds.map fun c => { c with recheck := true, arec := 0 } }
    s.runs 1 = true ∧ (theCmd s).ready (s.team 1) = true ∧ s.cmdTurn 1 (theCmd s) = true ∧ ((s.team 1).record .matrix (theCmd s).layout).raw ≠ (theCmd s).arec ∧
      ∀ m ∈ (theCmd s).ranges, ∀ r < 256, s.lineHere 1 m.1 r = true := by decide +kernel

/-- The reads of A stand alone; the piece read is one 128-byte line's part of the row, and completes it. -/
theorem witness_MatrixEngineRuns_reads : ∀ n ∈ [0, 1, 2, 3], let s := readRows n
    s.aReadsFreely 1 (theCmd s) (n % 2) (n / 2) 0 ∧ ((theCmd s).piece (n % 2) (n / 2) (s.aSpots 1 (theCmd s) (n % 2) (n / 2)) 0).length = 64 := by
  intro n hn s
  have : ∀ sp ∈ (theCmd s).piece (n % 2) (n / 2) (s.aSpots 1 (theCmd s) (n % 2) (n / 2)) 0,
      (let a := s.aAcc 1 (theCmd s) (((theCmd s).gang.slots[n % 2]?).getD 0) (n / 2) sp 1; s.unorderedWrite a a.granules = false ∧ a.write = false) ∧
        s.badAt sp.place sp.addr 1 = false := by
    revert n; decide +kernel
  refine ⟨fun sp hs => ⟨⟨(this sp hs).1.1, fun h => absurd h (by rw [(this sp hs).1.2]; decide)⟩, (this sp hs).2⟩, ?_⟩
  revert n; decide +kernel

end Sys2Proof.Witness
end

