-- ==== Sys2Proof/Tests/Witness7.lean ====
section
/-! SUPPORT. For the statements about traps, special registers, roles, records of work and trace: states and operands that meet their hypotheses, one
set for each clause. -/

namespace Sys2Proof.Witness

open Sys2Proof Sys2Proof.Machine Sys2Proof.Bench

set_option Elab.async false

/-- The kernel's handler is its first block. -/
def handled (s : State) : State :=
  { s with objects := cellMod CodeObject.blank s.objects s.curLaunch.object fun o => { o with kernels := o.kernels.map fun k => { k with handler := some 0 } } }
/-- One group before a word, with a handler; k1 holds lanes 0 and 1, k2 lanes 2 and 3. -/
def before_ (w : Nat) : State := setKd (setKd (handled { at_ w with cur := ⟨1, 0⟩, schedule := [] }) 1 (localDesc 0 3)) 2 (localDesc 0 0xC)
/-- The fragment of a trap of lanes 0 and 1, delivered, and issuing; the fragment of a fault before a word. -/
def softly (w : Nat) : State := let s := before_ w; { after s (exec (.trap 1 7) s) with cur := ⟨1, 32⟩ }
def wholly (w : Nat) (f : Raise) : State := { after (before_ w) (.next ((before_ w).raise f)) with cur := ⟨1, 32⟩ }
def nopWord : Nat := 2 ^ 55
def trapWord : Nat := 0x0700000000000007
/-- A word of trap, with members and without; inside a region too; a stop on bkpt; a fault of lanes 0 and 1 that finds another fragment, its turn come and
not; a pending fragment that can be delivered, and one that cannot. -/
theorem witness_TrapsFormFragments :
    let s := before_ trapWord
    let inside := agt s fun x => { x with stack := [⟨localDesc 0 3, 0, 1, 0, 0⟩] }
    let second := { softly trapWord with cur := ⟨1, 0⟩ }
    let twice := after (agt second fun x => { x with status := .ready }) (exec (.trap 2 7) (agt second fun x => { x with status := .ready }))
    let alone := tm twice fun t => { t with agents := t.agents.filter fun a => a.1 != 32 }
    let full := alone.modTeam 1 fun t => t.modGroup 0 fun g => { g with sp := 0x8400 + 255 }
    let stop := s.modVi (s.viOf s.curTeam) fun v => { v with wmCtl := 8, wmStop := 3, wmSarg := 0xFFFFFFFFFFFFFFFF }
    (∀ u ∈ [s, inside, before_ nopWord], u.canIssue = true ∧ u.agentsOk = true ∧ u.curTeam.takesTrap ∧ u.reissues = false) ∧
    s.lanes 1 = [0, 1] ∧ s.lanes 3 = [] ∧ s.curTeam.own s.cur.agent (s.curTeam.k0Set s.cur.agent) ≠ 0 ∧ s.stopArmed s.cur 3 = false ∧ stop.canIssue = true ∧
      stop.stopArmed stop.cur 3 = true ∧
    (∀ s ∈ [twice, alone, full], s.runs 1 = true ∧ cellHas (s.team 1).agents 33 = true ∧ (s.agent ⟨1, 33⟩).status = .pending ∧
      (s.agent ⟨1, 33⟩).info.map (·.lanes) = some (s.agent ⟨1, 33⟩).lanes) ∧
    (twice.team 1).turnOf 33 (twice.agent ⟨1, 33⟩) = false ∧ (alone.team 1).turnOf 33 (alone.agent ⟨1, 33⟩) = true ∧ alone.canDeliver 1 0 1 ∧
      (full.team 1).turnOf 33 (full.agent ⟨1, 33⟩) = true ∧ ¬full.canDeliver 1 0 1 := by
  intro s inside second twice alone full stop
  refine ⟨?_, ?_, ?_, ?_, ?_, ?_, ?_, ?_, ?_, ?_, ?_, ?_, ?_⟩ 
  · unfold Team.takesTrap Team.noneHeld; decide +kernel
  all_goals first | decide +kernel | (unfold State.canDeliver; decide +kernel)
/-- A command's fault, delivered; the store of lanes 0 and 1 in a race, the other lanes' done; and fragments of a region. -/
def cmdFault : State :=
  let s := handled (tm (agt { accepted with cur := ⟨1, 0⟩, schedule := [] } fun x => { x with pc := 1, rest := 2 }) fun t =>
    { t with cmds := t.cmds.map fun c => { c with state := .stopped, fault := some (2, 0) } })
  { after s (.next (s.raise (theCmd s).raise)) with cur := ⟨1, 32⟩ }
def stWord : Nat := 0x9A000500860C0000
def raced : State := grp (agt (wholly stWord { kind := 13 }) fun x => { x with info := x.info.map fun i => { i with retired := true } }) fun g => { g with rmode := 3 }
def regional (s : State) : State := agt s fun x => { x with inRegion := true }
/-- The fragment alone has left its group's agent, outside every region. -/
def lone (s : State) : Prop := s.curAgent.inRegion = false ∧ 0 ≠ s.cur.agent ∧ cellHas s.curTeam.agents 0 = true ∧ (s.curTeam.agent 0).kind = .group ∧
  ∀ q ∈ s.curTeam.children 0, q.1 = s.cur.agent
def fragment (s : State) : Prop := s.canIssue = true ∧ s.curAgent.inHandler = true ∧ s.curAgent.kind = .trap 0 0 ∧ s.sp + 256 ≤ 0xC000 ∧ s.frameGood = true ∧
  s.curAgent.info.any fun i => !i.redo
/-- No handler; a stack one byte short; frames that do not fit, of a race and not; a fragment of a region and one outside, behind trap words and
others, retired and not; a stopped command's; a race's. -/
theorem witness_ReturnsFromTraps :
    let short := grp (softly nopWord) fun g => { g with sp := 0xC000 - 255 }
    let bad (s : State) : State := grp s fun g => { g with spill := cellSet 0 g.spill (s.sp + 0xD8) 1 }
    let w (s : State) := isSoftTrap (s.wordAt s.cur s.framePc)
    let retired (s : State) := s.curAgent.info.map (·.retired)
    (before_ nopWord).canIssue = true ∧ (before_ nopWord).curAgent.inHandler = false ∧
    (short.canIssue = true ∧ short.curAgent.inHandler = true ∧ 0xC000 < short.sp + 256) ∧
    (∀ s ∈ [bad (softly nopWord), bad raced], s.canIssue = true ∧ s.curAgent.inHandler = true ∧ s.sp + 256 ≤ 0xC000 ∧ s.frameGood = false) ∧
      (bad raced).frameKind = 13 ∧ (bad raced).curGroup.rmode = 3 ∧
    (∀ s ∈ [softly nopWord, softly trapWord, wholly nopWord { kind := 10, cause := 1 }, regional (softly nopWord), regional (softly trapWord), cmdFault,
      regional cmdFault, raced], fragment s) ∧
    (∀ s ∈ [softly nopWord, softly trapWord, wholly nopWord { kind := 10, cause := 1 }, cmdFault, raced], lone s) ∧
    (∀ s ∈ [softly nopWord, softly trapWord, wholly nopWord { kind := 10, cause := 1 }, regional (softly nopWord), regional (softly trapWord)],
      s.frameKind ≠ 19 ∧ s.frameKind ≠ 13) ∧
    w (softly nopWord) = false ∧ retired (softly nopWord) = some true ∧ w (softly trapWord) = true ∧ retired (softly trapWord) = some true ∧
      w (wholly nopWord { kind := 10, cause := 1 }) = false ∧ retired (wholly nopWord { kind := 10, cause := 1 }) = some false ∧
      (regional (softly nopWord)).curAgent.inRegion = true ∧ w (regional (softly nopWord)) = false ∧ w (regional (softly trapWord)) = true ∧
    (∀ s ∈ [cmdFault, regional cmdFault], s.frameKind = 19 ∧ (s.curTeam.stoppedAt ((s.curAgent.info.bind fun i => i.owner).getD s.curAgent.host) (BitVec.ofNat 64 (s.frameWord 0xC8))).isSome = true ∧
      (s.curTeam.cmds.map fun c => (c.leader, c.id)).Nodup) ∧
    raced.frameKind = 13 ∧ raced.curGroup.rmode = 3 ∧ raced.curAgent.inRegion = false ∧ retired raced = some true ∧
      (∃ v k r m, decode (raced.wordAt raced.cur raced.framePc) none = .ok (.st v k r m)) := by
  intro short bad w retired
  refine ⟨?_, ?_, ?_, ?_, ?_, ?_, ?_, ?_, ?_, ?_, ?_, ?_, ?_, ?_, ?_, ?_, ?_, ?_, ?_, ?_, ?_, ?_, ?_, ?_⟩
  case refine_24 => exact ⟨.w32, 0, 10, ⟨0, .handle 1, 0, .lit 3, .v 0, .v 0⟩, by decide +kernel⟩
  all_goals first | decide +kernel | (unfold fragment; decide +kernel) | (unfold lone; decide +kernel)
/-- The fragments of a software trap, of a command's fault, of a region, and of a race, inside a region and not, each with its frame. -/
theorem witness_TrapReturnsComplete :
    (∀ s ∈ [softly nopWord, softly trapWord, cmdFault, regional (softly nopWord), raced, regional raced],
      s.canIssue = true ∧ s.curAgent.inHandler = true ∧ s.reissues = false ∧ s.sp + 256 ≤ 0xC000 ∧ s.frameGood = true) ∧
    (softly nopWord).frameKind ≠ 19 ∧ cmdFault.frameKind = 19 ∧ (∀ s ∈ [raced, regional raced], s.frameKind = 13 ∧ s.curGroup.rmode = 3) ∧
    (regional raced).curAgent.inRegion = true ∧ (∃ q ∈ (raced.cluster raced.curTeam.cluster).teams, (raced.team q).status = .resident) := by
  and_intros <;> decide +kernel

/-- A cached translation of the first gigabyte onto itself. -/
def cached (s : State) : State := s.modVi (s.viOf s.curTeam) fun v => { v with tlb := [(0, 30, 0xF)] }
theorem leaf_of_cached {s : State} {vi a : Nat} (h : (s.vi vi).tlb = [(0, 30, 0xF)]) (ha : a < 2 ^ 30) : s.leafOf vi a = .ok (30, 15) := by
  unfold State.leafOf
  have h1 : a / 2 ^ 48 = 0 := Nat.div_eq_of_lt (by omega)
  have h2 : (0 == a / 2 ^ 30) = true := by simp; omega
  rw [h1, h, List.find?_cons_of_pos (by exact h2)]
  rfl
theorem translate_of_cached {s : State} {vi a : Nat} (h : (s.vi vi).tlb = [(0, 30, 0xF)]) (ha : a < 2 ^ 30) (w : Bool) : s.translate vi a w = .ok (a, 0) := by
  have hl := leaf_of_cached h ha
  have hp : s.populated a = true := by
    have h1 : a < tierBase := Nat.lt_trans ha (by decide)
    have h2 : a % 2 ^ 37 < hbmBytes := Nat.lt_of_le_of_lt (Nat.mod_le _ _) (Nat.lt_trans ha (by decide))
    unfold State.populated
    rw [if_pos h1]
    exact decide_eq_true h2
  have he : fld 15 12 36 * 4096 + a % 2 ^ 30 = a := by rw [Nat.mod_eq_of_lt ha]; exact Nat.zero_add a
  unfold State.translate
  rw [hl]
  cases w <;> simp only [he, hp] <;> simp [fld]
theorem reaches_of_cached {s : State} {vi a : Nat} (h : (s.vi vi).tlb = [(0, 30, 0xF)]) (ha : a < 2 ^ 30) (w : Bool) : s.reaches vi a w :=
  have hm : bitsOf (0xF : DWord) 12 36 * 2 ^ 12 + a % 2 ^ 30 = a := by rw [Nat.mod_eq_of_lt ha]; exact Nat.zero_add a
  have h2 : a % 2 ^ 37 < hbmBytes := Nat.lt_of_le_of_lt (Nat.mod_le _ _) (Nat.lt_trans ha (by decide))
  have hp : s.populated a = true := by
    unfold State.populated
    rw [if_pos (Nat.lt_trans ha (by decide : 2 ^ 30 < tierBase))]
    exact decide_eq_true h2
  ⟨Nat.lt_trans ha (by decide), (0, 30, 0xF), by rw [h]; exact List.find?_cons_of_pos (by simp; omega), by decide, by cases w <;> decide,
    by rw [hm]; exact ⟨Nat.lt_trans ha (by decide), hp⟩⟩
/-- An address outside every loaded object holds no code word. -/
theorem inCode_of_outside {s : State} {a : Nat} (h : ∀ o ∈ s.objects, (s.vi o.2.vi).tlb = [(0, 30, 0xF)] ∧ o.2.placement + 8 * o.2.words ≤ 2 ^ 30 ∧
    (a < o.2.placement ∨ o.2.placement + 8 * o.2.words ≤ a)) : s.inCode a 1 = false := by
  unfold State.inCode
  rw [List.any_eq_false]
  intro o ho
  obtain ⟨ht, hb, hx⟩ := h o ho
  unfold State.rangeHas
  rw [Bool.not_eq_true, List.any_eq_false]
  intro k _
  simp only []
  by_cases hlt : max o.2.placement (65536 * (o.2.placement / 65536 + k)) < min (o.2.placement + 8 * o.2.words) (65536 * (o.2.placement / 65536 + k) + 65536)
  · have hl : max o.2.placement (65536 * (o.2.placement / 65536 + k)) < 2 ^ 30 := by omega
    rw [leaf_of_cached ht hl]
    have hf : fld 15 12 36 = 0 := by decide
    simp only [hf, Nat.zero_mul, Nat.zero_add, Nat.mod_eq_of_lt hl]
    simp only [Bool.and_eq_true, decide_eq_true_eq]
    omega
  · split <;> simp [hlt]
/-- Bytes at distinct addresses of the first gigabyte that hold no code word can be written. -/
theorem writable_of_cached {s : State} {vi : Nat} {l : List (Nat × Byte)} (h : (s.vi vi).tlb = [(0, 30, 0xF)]) (ha : ∀ x ∈ l, x.1 < 2 ^ 30)
    (hd : (l.map fun x => x.1).Nodup) (hc : ∀ x ∈ l, s.inCode x.1 1 = false) : s.writable vi l := by
  have hp : ∀ x ∈ l, s.phys vi x.1 = (x.1, 0) := fun x hx => by simp [State.phys, translate_of_cached h (ha x hx)]
  refine ⟨fun x hx => ⟨reaches_of_cached h (ha x hx) _, by rw [hp x hx]; exact hc x hx⟩, ?_, fun x hx y hy _ => by rw [hp x hx, hp y hy]⟩
  have : (l.map fun x => (s.phys vi x.1).1) = l.map fun x => x.1 := List.map_congr_left fun x hx => by rw [hp x hx]
  rw [this]; exact hd

/-- The issuing agent reads and writes registers; a launch in race mode 0 and one in mode 3. -/
theorem witness_SpecialRegisters : s0.canIssue = true ∧ s0.ready [255] false ∧ s0.curLaunch.mode = 0 ∧ (lch s0 fun l => { l with mode := 3 }).canIssue = true ∧
    (lch s0 fun l => { l with mode := 3 }).curLaunch.mode ≠ 0 := by
  unfold State.ready; decide +kernel

/-- A queue bound to a bin of 33 records that already holds one, and its object with a role for each row. -/
def bin : State :=
  let s := cached (lch (grp s0 fun g => { g with q := [(2, 2 ^ 8)] }) fun l => { l with bins := 0x8000, queues := [⟨[⟨0, 0, [], none⟩], 1, 0⟩] })
  { s with objects := cellMod CodeObject.blank s.objects s.curLaunch.object fun o =>
      { o with nodes := o.nodes.map fun n => { n with cap := 33, roles := [⟨0, 256, 0, 0, 1⟩, ⟨0, 32, 3, 0, 1⟩] } } }
/-- An unbound queue; more records than the bin holds; none; as many as fill it, with room and without. -/
theorem witness_EmitAndRolesw_emit :
    let small := { bin with objects := cellMod CodeObject.blank bin.objects bin.curLaunch.object fun o => { o with nodes := o.nodes.map fun n => { n with cap := 31 } } }
    let full := lch bin fun l => { l with queues := [⟨[⟨0, 0, [], none⟩, ⟨0, 0, [], none⟩], 2, 0⟩] }
    let cap (s : State) := (((s.objectOf s.curTeam).nodes[0]?).getD Node.blank).cap
    let writes (n : Nat) := (List.range n).flatMap fun r => bytesFrom (binAddr bin.curLaunch (bin.objectOf bin.curTeam) 0 (1 + r)) (wordBytes 0 64)
    bin.canIssue = true ∧ bin.ready ((List.range 16).map fun j => 240 + j) false ∧ bin.ready [] false ∧ (cellGet 0 bin.curGroup.q 5).getLsbD 8 = false ∧
    (∀ s ∈ [bin, small, full], s.canIssue = true ∧ (cellGet 0 s.curGroup.q 2).getLsbD 8 = true ∧ bitsOf (cellGet 0 s.curGroup.q 2) 0 4 = 0 ∧
      (s.lanes 0).length = 32 ∧ s.lanes 3 = []) ∧
    cap small < 32 ∧ 32 ≤ cap bin ∧ cap full < (full.curLaunch.bin 0).recs.length + 32 ∧ (bin.curLaunch.bin 0).recs.length + 32 ≤ cap bin ∧
      0 < bin.curLaunch.queues.length ∧ bin.swept 1 ∧ bin.writable bin.curLaunch.vi (writes 1) ∧ (writes 32).length = 2048 := by
  intro small full cap writes
  refine ⟨?_, ?_, ?_, ?_, ?_, ?_, ?_, ?_, ?_, ?_, swept_of_none ?_, writable_of_cached ?_ ?_ ?_ ?_, ?_⟩
  all_goals first | decide +kernel | (unfold State.ready; decide +kernel)
/-- A partial set; a row beyond the roles; a budget too large; an open region; a copy of the group; commands stopped, executing and complete; none. -/
theorem witness_EmitAndRolesw_rolesw :
    let part := agt bin fun x => { x with k0 := localDesc 0 3 }
    let tight := grp bin fun g => { g with placed := 31 }
    let inside := agt bin fun x => { x with stack := [⟨localDesc 0 3, 0, 1, 0, 0⟩] }
    let copying := tm bin fun t => { t with copies := [(0, { Copy.blank with accepted := true })] }
    let cmd (s : CmdState) : State := tm bin fun t => { t with cmds := [{ cmd0 with gang := ⟨2, [0], none⟩, state := s, fault := some (2, 0) }] }
    let roles (s : State) := (s.nodeOf s.curTeam).roles
    let copies (s : State) := s.curTeam.ownCopies.filter fun p => p.2.group == s.curAgent.host
    (part.canIssue = true ∧ part.fullSet = false) ∧
    (∀ s ∈ [bin, tight, inside, copying, cmd .stopped, cmd .executing, cmd .complete], s.canIssue = true ∧ s.fullSet = true ∧ (roles s).length = 2) ∧
    (roles bin).length ≤ 7 ∧ tight.curGroup.placed < 32 ∧ (∀ s ∈ [bin, inside, copying, cmd .stopped, cmd .executing, cmd .complete], 32 ≤ s.curGroup.placed) ∧
    inside.swdOf inside.cur ≠ 0 ∧ (∀ s ∈ [bin, copying, cmd .stopped, cmd .executing, cmd .complete], s.swdOf s.cur = 0) ∧ copies copying ≠ [] ∧
    (∀ s ∈ [bin, cmd .stopped, cmd .executing, cmd .complete], copies s = []) ∧ ((cmd .stopped).curTeam.stoppedFor 0).isSome = true ∧
    (cmd .executing).curTeam.stoppedFor 0 = none ∧ (∃ c ∈ (cmd .executing).curTeam.unwaited 0, c.state ≠ .complete) ∧
    (cmd .complete).curTeam.stoppedFor 0 = none ∧ (∀ c ∈ (cmd .complete).curTeam.unwaited 0, c.state = .complete) ∧ bin.curTeam.stoppedFor 0 = none ∧
      bin.curTeam.unwaited 0 = [] := by decide +kernel

/-- A trace into a ring of 16 slots at 0x10000; with drops behind it; full; and none. -/
def traced (prod cons : Word) (dropped : Nat) : State := (cached s0).modVi (s0.viOf s0.curTeam) fun v =>
  { v with wmCtl := 1, wmRing := 0x10004, wmProd := prod, wmCons := cons, wmDropped := dropped }
theorem witness_TraceRecords :
    let writes (s : State) (n : Nat) := s.traceWrites s.curLaunch.vi (List.replicate n (List.replicate 64 0))
    ¬(s0.vi s0.curLaunch.vi).traces ∧ s0.canIssue = true ∧
    (∀ s ∈ [traced 15 0 0, traced 0xFFFFFFFF 0xFFFFFFF1 3, traced 16 0 0, traced 15 0 3], s.canIssue = true ∧ (s.vi s.curLaunch.vi).traces) ∧
    ((traced 15 0 0).vi s0.curLaunch.vi).takes ∧ (traced 15 0 0).writable s0.curLaunch.vi (writes (traced 15 0 0) 1) ∧
    ((traced 0xFFFFFFFF 0xFFFFFFF1 3).vi s0.curLaunch.vi).takes ∧ (traced 0xFFFFFFFF 0xFFFFFFF1 3).writable s0.curLaunch.vi (writes (traced 0xFFFFFFFF 0xFFFFFFF1 3) 2) ∧
    ¬((traced 16 0 0).vi s0.curLaunch.vi).takes ∧ ¬((traced 15 0 3).vi s0.curLaunch.vi).takes := by
  intro writes
  refine ⟨?_, ?_, ?_, ?_, writable_of_cached ?_ ?_ ?_ ?_, ?_, writable_of_cached ?_ ?_ ?_ ?_, ?_, ?_⟩
  all_goals first | decide +kernel | (unfold Vi.traces; decide +kernel) | (unfold Vi.takes; decide +kernel)

end Sys2Proof.Witness
end

