-- ==== Sys2Proof/Tests/Witness8.lean ====
section
/-! SUPPORT. For the statements about packets, launches and residency: states and operands that meet their hypotheses, one set for each clause. -/

namespace Sys2Proof.Witness

open Sys2Proof Sys2Proof.Machine Sys2Proof.Bench

set_option Elab.async false

def zeros (n : Nat) : List Byte := List.replicate n 0
/-- An image of two code words, one kernel and one node of one group. -/
def image : List Byte :=
  let sect (t o n : Nat) := wordBytes t 8 ++ wordBytes o 8 ++ wordBytes n 8 ++ zeros 8
  wordBytes 0x30534C57 4 ++ wordBytes 1 2 ++ wordBytes 4 2 ++ wordBytes 496 8 ++ wordBytes 0x10000 8 ++ wordBytes 2 4 ++ wordBytes 1 2 ++ wordBytes 1 2 ++
    zeros 32 ++ sect 1 192 16 ++ sect 2 208 32 ++ sect 3 240 0 ++ sect 4 240 256 ++
    wordBytes (header 1 0).toNat 8 ++ wordBytes 0x0580000000000000 8 ++
    wordBytes 0 4 ++ wordBytes 2 4 ++ wordBytes 0xFFFFFFFF 4 ++ zeros 20 ++
    [0, 0, 1, 32, 0, 0, 1, 0x11] ++ wordBytes 1 4 ++ wordBytes 1 2 ++ zeros 18 ++ [3, 16, 0, 1] ++ wordBytes 0 4 ++ wordBytes 1 4 ++ zeros 212
/-- A launch packet with some flags for an object, a load packet of n bytes at 0x60000 for placement at 0x50000, and an unload packet. -/
def launchP (flags object : Nat) : List Byte := [1, BitVec.ofNat 8 flags, 0] ++ zeros 5 ++ wordBytes object 8 ++ wordBytes 4 8 ++ wordBytes 0x100000 8 ++ wordBytes 1 8 ++
  wordBytes 0x30000 8 ++ zeros 16 ++ wordBytes 0x40000 8 ++ wordBytes 77 8 ++ zeros 48
def loadP (flags at_ n : Nat) : List Byte := [2, BitVec.ofNat 8 flags] ++ zeros 6 ++ wordBytes at_ 8 ++ wordBytes n 8 ++ wordBytes 0x50000 8 ++ zeros 32 ++ wordBytes 0x40000 8 ++
  wordBytes 77 8 ++ zeros 48
def unloadP (flags object : Nat) : List Byte := [3, BitVec.ofNat 8 flags] ++ zeros 6 ++ wordBytes object 8 ++ zeros 48 ++ wordBytes 0x40000 8 ++ wordBytes 77 8 ++ zeros 48
/-- An interface with a ring of eight slots at 0x20000 and one packet in it, and for a load packet the image at 0x60000. -/
def ringed (bs : List Byte) : State :=
  ({ cached s0 with main := let m := writeBytes s0.main 0x20000 bs; if bs.headD 0 = 2 then writeBytes m 0x60000 image else m, objects := cellPut s0.objects 9 { CodeObject.blank with words := 1 } } : State).modVi 0
    fun v => { v with ringbase := 0x20000, ringsize := 3, doorbell := 1 }
/-- The state after the interface's ring has been read as these bytes. -/
def readsRing (s : State) (bs : List Byte) : Prop :=
  (s.vi 0).ringsize ≠ 0 ∧ (s.vi 0).consumer ≠ (s.vi 0).doorbell ∧ (match s.readVirt 0 0x20000 128 with | .ok x => decide (x = bs) | .error _ => false) = true
/-- No ring, doorbells in and out of range; an empty ring, an unreadable one, a packet that waits; launch packets rejected and started, in order and
determinate; load packets malformed, unreadable, unsound and sound; unload packets malformed, of an unknown, a used and a free handle. -/
theorem witness_PacketsAreTaken_doorbell :
    let far := (ringed (launchP 0 1)).modVi 0 fun v => { v with ringbase := 0x7FFFFFFF0000 }
    cellHas s0.vis 1 = false ∧ cellHas s0.vis 0 = true ∧ cellHas (ringed (launchP 0 1)).vis 0 = true ∧ (s0.vi 0).ringsize = 0 ∧ ((1 : Word) - ((ringed (launchP 0 1)).vi 0).doorbell).toNat < 2 ^ 31 ∧
      ((8 : Word) - ((ringed (launchP 0 1)).vi 0).consumer).toNat ≤ 2 ^ ((ringed (launchP 0 1)).vi 0).ringsize.toNat ∧
      2 ^ 31 ≤ ((0 : Word) - ((ringed (launchP 0 1)).vi 0).doorbell).toNat ∧
      2 ^ ((ringed (launchP 0 1)).vi 0).ringsize.toNat < ((9 : Word) - ((ringed (launchP 0 1)).vi 0).consumer).toNat ∧
    ((ringed (launchP 0 1)).modVi 0 fun v => { v with doorbell := 0 }).vi 0 = { (ringed (launchP 0 1)).vi 0 with doorbell := 0 } ∧
    ((far.vi 0).ringsize ≠ 0 ∧ (far.vi 0).consumer ≠ (far.vi 0).doorbell ∧
      (match far.readVirt 0 0x7FFFFFFF0000 128 with | .ok _ => false | .error _ => true) = true) := by decide +kernel
theorem witness_PacketsAreTaken_ring :
    let serial := lch (ringed (launchP 1 1)) fun l => { l with number := 0xFFFFFFFF }
    readsRing serial (launchP 1 1) ∧ (serial.launches.any fun l => l.2.vi == 0 && l.2.number == (serial.vi 0).consumer - 1) = true ∧
    (∀ bs ∈ [launchP 0 1, launchP 2 1, launchP 0x80 1, launchP 0 5, launchP 4 1, launchP 0x10 1, loadP 1 0x60000 496, loadP 0 0x7FFFFFFF0000 496, loadP 0 0x60000 495,
      loadP 0 0x60000 496, unloadP 1 1, unloadP 0 5, unloadP 0 1, unloadP 0 9], readsRing (ringed bs) bs) := by
  unfold readsRing; decide +kernel
theorem witness_PacketsAreTaken :
    let cause (bs : List Byte) := (ringed bs).launchCause 0 bs ((ringed bs).draftLaunch 0 bs)
    cause (launchP 0 1) = none ∧ cause (launchP 2 1) = none ∧ cause (launchP 0x80 1) = some 1 ∧ cause (launchP 0 5) = some 2 ∧ cause (launchP 4 1) = some 5 ∧
      cause (launchP 0x10 1) = some 4 ∧
    (match (ringed (loadP 0 0x7FFFFFFF0000 496)).readVirt 0 0x7FFFFFFF0000 496 with | .ok _ => false | .error _ => true) = true ∧
    (match (ringed (loadP 0 0x60000 495)).readVirt 0 0x60000 495 with | .ok img => !imageOk img 495 | .error _ => false) = true ∧
    (match (ringed (loadP 0 0x60000 496)).readVirt 0 0x60000 496 with | .ok img => decide (img = image) | .error _ => false) = true ∧ imageOk image 496 = true ∧
      (ringed (loadP 0 0x60000 496)).mapped 0 0x50000 0x10000 = true ∧ (ringed (loadP 0 0x60000 496)).overCode 0 0x50000 0x10000 = false ∧
    ((ringed (unloadP 0 1)).launches.any fun l => l.2.object == 1) = true ∧ cellHas s0.objects 5 = false ∧ cellHas (ringed (unloadP 0 9)).objects 9 = true ∧
      ((ringed (unloadP 0 9)).launches.any fun l => l.2.object == 9) = false ∧
    (ringed (launchP 0x80 1)).writable 0 (bytesFrom 0x40000 (zeros 128)) ∧
      (ringed (loadP 0 0x60000 496)).writable 0 (bytesFrom 0x50000 (sectionBytes image 1) ++ bytesFrom 0x40000 (zeros 128)) := by
  intro cause
  refine ⟨?_, ?_, ?_, ?_, ?_, ?_, ?_, ?_, ?_, ?_, ?_, ?_, ?_, ?_, ?_, ?_, writable_of_cached ?_ ?_ ?_ ?_, writable_of_cached ?_ ?_ ?_ ?_⟩ <;> decide +kernel

end Sys2Proof.Witness
end

