-- ==== Sys2Proof/Tests/Witness9.lean ====
section
/-! SUPPORT. For the statements about launches and residency: states and operands that meet their hypotheses, one set for each clause. -/

namespace Sys2Proof.Witness

open Sys2Proof Sys2Proof.Machine Sys2Proof.Bench

set_option Elab.async false

/-- A partition of two cores with a save pool at 0x60000. -/
def gridded (s : State) : State := { s with partitions := cellPut s.partitions 0 { Partition.blank with grid := [0, 1], poolBase := 0x60000, poolSize := 0x4000 } }
/-- A launch with room for two teams and one record in its bin, after its last entry record but n. -/
def queued (n : Nat) : State := lch (gridded bin) fun l => { l with grid := 3, nextEntry := 3 - n, slots := 2, context := 0x100000 }
/-- Its team is evicted. -/
def evicted : State := (queued 1).modTeam 1 fun t => { t with status := .evicted }
/-- Bytes of any value at the addresses of a list. -/
theorem writable_at {s : State} {vi : Nat} {l : List (Nat × Byte)} (as : List Nat) (hm : l.map (fun x => x.1) = as) (h : (s.vi vi).tlb = [(0, 30, 0xF)])
    (ha : ∀ a ∈ as, a < 2 ^ 30) (hd : as.Nodup) (hc : ∀ a ∈ as, s.inCode a 1 = false) : s.writable vi l :=
  writable_of_cached h (fun x hx => ha x.1 (hm ▸ List.mem_map_of_mem hx)) (hm ▸ hd) fun x hx => hc x.1 (hm ▸ List.mem_map_of_mem hx)
/-- Addresses outside every object of a state whose objects are cached. -/
theorem inCode_of_range {s : State} {lo hi : Nat} (h : ∀ o ∈ s.objects, (s.vi o.2.vi).tlb = [(0, 30, 0xF)] ∧ o.2.placement + 8 * o.2.words ≤ 2 ^ 30 ∧
    (hi ≤ o.2.placement ∨ o.2.placement + 8 * o.2.words ≤ lo)) {a : Nat} (hl : lo ≤ a) (hh : a < hi) : s.inCode a 1 = false :=
  inCode_of_outside fun o ho => ⟨(h o ho).1, (h o ho).2.1, by have := (h o ho).2.2; omega⟩
theorem map_bytesFrom (a : Nat) (bs : List Byte) : (bytesFrom a bs).map (fun x => x.1) = List.range' a bs.length := by
  have : (bytesFrom a bs).map (fun x => x.1) = (bs.zipIdx.map Prod.snd).map (a + ·) := by unfold bytesFrom; rw [List.map_map, List.map_map]; rfl
  rw [this, List.zipIdx_map_snd, List.map_add_range']; rfl

/-- A cluster that fits on some core returns to one of them. -/
theorem evicted_returns : (evicted.placeEvicted 1).isSome = true := by
  unfold State.placeEvicted
  rw [List.findSome?_isSome_iff]
  refine ⟨(1, evicted.cluster 1), by decide +kernel, ?_⟩
  have : evicted.returnPlaces (evicted.cluster 1) = [[0], [1]] := by decide +kernel
  have h : Config.freeChoice evicted.freeCount % [[0], [1]].length < [[0], [1]].length := Nat.mod_lt _ (by decide)
  simp only [this, pick, Option.isSome_map]
  rw [List.getElem?_eq_getElem h]; rfl
/-- Entry records with room and without; an evicted cluster placed first, a new one, and none; timers expired and not; a launch held, killed, and
determinate; the commit of a leg; a launch that goes on, one that is over, and one killed. -/
theorem witness_LaunchesRun :
    let s := queued 1
    let timed (t n : Nat) : State := { s with tick := t, objects := cellMod CodeObject.blank s.objects s.curLaunch.object fun o =>
      { o with nodes := o.nodes.map fun x => { x with timer := n } } }
    let none_ := lch s fun l => { l with queues := [⟨[], 0, 0⟩] }
    let leg := grp (lch s fun l => { l with determinate := true }) fun g => { g with legEnded := true }
    (cellHas s.launches 1 && (s.launch 1).kill == none) = true ∧ (s.launch 1).determinate = false ∧ (s.launch 1).held = false ∧ (s.launch 1).entry < (s.launch 1).queues.length ∧
    (decide ((s.launch 1).nextEntry < (s.launch 1).grid) && decide (((s.launch 1).bin 0).recs.length < 33)) = true ∧
      (((s.object (s.launch 1).object).nodes[0]?).getD Node.blank).cap = 33 ∧ ¬((queued 0).launch 1).nextEntry < ((queued 0).launch 1).grid ∧
    keysRise evicted.clusters = true ∧ s.placeEvicted 1 = none ∧ none_.placeEvicted 1 = none ∧
      ((s.readyNodes 1).findSome? fun n => (s.placeFor 1 n).map fun r => (n, r)) = some (0, [0]) ∧
      ((none_.readyNodes 1).findSome? fun n => (none_.placeFor 1 n).map fun r => (n, r)) = none ∧
    (∀ p ∈ [((5 : Nat), (5 : Nat)), (4, 5)], (((timed p.1 p.2).launch 1).bin 0).recs.head?.map (·.since) = some 0 ∧
      ((((timed p.1 p.2).object 1).nodes[0]?).getD Node.blank).timer = 5) ∧ (timed 5 5).tick = 5 ∧ (timed 4 5).tick < 5 ∧
    (leg.launch 1).determinate = true ∧ leg.legsEnded 1 = true ∧ leg.openCopies 1 = [] ∧ leg.openCmds 1 = [] ∧ leg.saving 1 = false ∧ leg.filling 1 = false ∧ leg.legGroups 1 ≠ [] := by
  decide +kernel
theorem witness_LaunchesRun_entry (bs : List Byte) (h : bs.length = 64) : (queued 1).writable 0 (bytesFrom 0x8040 bs) ∧
    binAddr ((queued 1).launch 1) ((queued 1).object 1) 0 (((queued 1).launch 1).bin 0).appended = 0x8040 := by
  refine ⟨writable_at _ (map_bytesFrom _ _) (by decide +kernel) ?_ ?_ ?_, by decide +kernel⟩ <;> (rw [h]; decide +kernel)
/-- A launch that is over: with a counter at 0x70018 and no trace, and with a trace. -/
def over_ (s : State) : State :=
  let t := { s with teams := [] }.modVi 0 fun v => { v with counters := [(3, 5)], wmCbase := 0x70000 }
  t.modLaunch 1 fun l => { l with grid := 3, nextEntry := 3, completion := 0x40000 }
theorem witness_LaunchesRun_complete (old record trace prod : List Byte) (ho : old.length = 8) (hr : record.length = 128) (ht : trace.length = 64) (hp : prod.length = 8) :
    let done (s : State) : Bool := decide ((s.launch 1).grid ≤ (s.launch 1).nextEntry) && ((s.launch 1).queues.all fun b => b.recs.isEmpty) &&
      s.teams.all fun t => t.2.launch != 1
    let dead := (over_ (cached s0)).modLaunch 1 fun l => { l with kill := some ⟨1, 0, 0, 0, 0, 0⟩ }
    let plain := dead.modVi 0 fun v => { v with counters := [] }
    done s0 = false ∧ done (over_ (cached s0)) = true ∧ done (over_ (traced 15 0 0)) = true ∧ ¬((over_ (cached s0)).vi 0).traces ∧
    ((over_ (traced 15 0 0)).vi 0).traces ∧ ((over_ (traced 15 0 0)).vi 0).takes ∧
    (over_ (cached s0)).writable 0 (bytesFrom 0x70018 old ++ bytesFrom 0x40000 record) ∧
    (over_ (traced 15 0 0)).writable 0 (bytesFrom 0x70018 old ++ bytesFrom 0x40000 record ++ (bytesFrom 0x103C0 trace ++ bytesFrom 0xFFF0 prod)) ∧
    (∀ i < 8, (over_ (cached s0)).reaches 0 (0x70018 + i) false ∧ (over_ (traced 15 0 0)).reaches 0 (0x70018 + i) false) ∧
    cellHas dead.launches 1 = true ∧ (dead.launch 1).kill = some ⟨1, 0, 0, 0, 0, 0⟩ ∧ (plain.vi 0).counters = [] ∧ ¬(plain.vi 0).traces ∧
      plain.writable 0 (bytesFrom 0x40000 record) := by
  intro done dead plain
  have app (a b : List (Nat × Byte)) : (a ++ b).map (fun x => x.1) = a.map (fun x => x.1) ++ b.map (fun x => x.1) := List.map_append
  refine ⟨by decide +kernel, by decide +kernel, by decide +kernel, ?_, ?_, ?_, writable_at _ (by rw [app, map_bytesFrom, map_bytesFrom, ho, hr]) ?_ ?_ ?_ ?_,
    writable_at _ (by rw [app, app, app, map_bytesFrom, map_bytesFrom, map_bytesFrom, map_bytesFrom, ho, hr, ht, hp]) ?_ ?_ ?_ ?_,
    fun i hi => ⟨reaches_of_cached ?_ (by omega) _, reaches_of_cached ?_ (by omega) _⟩, by decide +kernel, by decide +kernel, by decide +kernel, ?_,
    writable_at _ (map_bytesFrom _ _) ?_ (by rw [hr]; decide +kernel) (by rw [hr]; decide +kernel) (by rw [hr]; decide +kernel)⟩
  all_goals first | decide +kernel | (unfold Vi.traces; decide +kernel) | (unfold Vi.takes; decide +kernel)

/-- A team to be pre-empted, with an instruction in progress; it stopped, with its shared memory to save, and saved; evicted; and one that came back. -/
def asked : State := tm (agt (queued 1) fun x => { x with progress := some (3, []) }) fun t => { t with preempt := true }
def stopped (saved : Bool) : State := tm (queued 1) fun t => { t with status := .stopped, sharedSaved := saved }
def returned : State := (queued 1).modTeam 1 fun t => { t with writeBack := true }
/-- A resident team before a push of v64 to v67, of which v65 is missing, and no spill line is present; its image lies as that of the others. -/
def refilled : State := lch (cached (grp { at_ 0xA400200000000004 with cur := ⟨1, 0⟩, schedule := [], cores := [] } fun g => { g with missing := [0, 65] })) fun l => { l with slots := 2, context := 0x100000 }
/-- A team that may be stopped only later: a lane of its agent has been struck. -/
def struckNow : State := tm (agt (queued 1) fun x => { x with progress := some (3, []), struck := [(0, { kind := 13 })] }) fun t => { t with preempt := true }
/-- Two teams of 16 groups on a core, of which only one has room, the other evicted. -/
def crowded : State :=
  let t := { (queued 1).team 1 with groups := (List.range 16).map fun g => (g, { placedGroup with placed := 192 }) }
  { (queued 1) with
    teams := [(1, t), (2, { t with status := .evicted, cluster := 2, ctxSlot := 1, evictedAt := 5 })]
    clusters := (queued 1).clusters ++ [(2, { Cluster.blank with launch := 1, teams := [2] })]
    cores := [(0, { (queued 1).core 0 with stall := 4096 })] }
/-- The swap of the evicted team is under way: the other team is still there, or has stopped and is saved. -/
def swapping (gone : Bool) : State :=
  let s : State := { crowded with cores := [(0, { (queued 1).core 0 with stall := 4096, swap := some (2, 0) })], clusters := crowded.clusters.map fun c => (c.1, { c.2 with teams := [c.1] }) }
  if gone then s.modTeam 1 fun t => { t with status := .stopped, sharedSaved := true } else s
/-- Page tables from 0x1000 down to a page of 64 KiB at 0x50000, for virtual addresses from 0x234560000. -/
def paged : State := { (s0.modVi 0 fun v => { v with root := 0x10000 }) with
  main := [(0x10000, 0x2001), (0x2040, 0x3001), (0x3D10, 0x4001), (0x40B0, 0x5000F)].foldl (fun m e => writeBytes m e.1 (wordBytes e.2 8)) s0.main }

theorem witness_ResidencyIsKept :
    let ready1 (s : State) : Bool := cellHas s.teams 1 && (s.team 1).status == .stopped && !(s.team 1).sharedSaved && s.quiet 1
    let tight : State := { stopped false with partitions := [(0, { (stopped false).partition 0 with poolSize := 4895 })] }
    let waited (n : Nat) : State := { queued 1 with tick := n }
    let due (s : State) : Bool := s.runs 1 && decide (64 ≤ (s.tick - max ((s.team 1).group 0).issuedAt ((s.team 1).group 0).idleAt) * (s.core (s.team 1).core).mhz / 250) && (s.team 1).agents.any fun a => a.2.host == 0 && s.eligible ⟨1, a.1⟩
    let bad : State := { refilled with badLines := [(.main, (0x182000 + 128 * 65) / 64)] }
    let ready2 (s : State) : Bool := cellHas s.teams 1 && (s.team 1).status == .stopped && (s.team 1).sharedSaved && s.quiet 1 && cellHas s.launches 1 &&
      (s.launch 1).kill == none
    let passed (s : State) := (s.team 1).agents.filter fun a => a.2.status == .passed
    let pass := agt (stopped true) fun x => { x with status := .passed }
    let dead := (queued 1).modTeam 1 fun t => t.modGroup 0 fun g => { g with live := 0 }
    (asked.runs 1 = true ∧ (asked.launch 1).determinate = false ∧ asked.stoppable 1 = true ∧ (asked.core (asked.team 1).core).swap = none ∧ (∃ q ∈ asked.clusterOf 1, (asked.team q).preempt = true) ∧
      (asked.agent ⟨1, 0⟩).progress = some (3, [])) ∧ struckNow.stoppable 1 = false ∧ (∀ q ∈ (queued 1).clusterOf 1, ((queued 1).team q).preempt = false) ∧
    ready1 (queued 1) = false ∧ ready1 (stopped false) = true ∧ (stopped false).poolGap 0 4896 = some 0 ∧ tight.poolGap 0 4896 = none ∧
      ((stopped false).team 1).sharedSize = 4096 ∧ ((stopped false).core 0).swap = none ∧ (queued 1).runs 1 = true ∧ ((queued 1).team 1).writeBack = false ∧ returned.runs 1 = true ∧
      (returned.team 1).writeBack = true ∧
    ready2 (stopped false) = false ∧ ready2 (stopped true) = true ∧ passed (stopped true) = [] ∧ ready2 pass = true ∧ passed pass ≠ [] ∧ (pass.team 1).escalated = false ∧
    cellHas evicted.teams 1 = true ∧ (evicted.team 1).status = .evicted ∧ ((queued 1).team 1).status ≠ .evicted ∧ 0 < (evicted.team 1).groupsN ∧
    refilled.runs 1 = true ∧ refilled.wanted 1 0 65 = true ∧ refilled.wanted 1 0 0 = false ∧ refilled.wanted 1 0 383 = true ∧ bad.wanted 1 0 65 = true ∧
      (∀ n ∈ [65, 383], refilled.badAt .main (0x182000 + 128 * n) 128 = false) ∧ bad.badAt .main (0x182000 + 128 * 65) 128 = true ∧
    due (waited 13) = false ∧ due (waited 14) = true ∧
    (((queued 1).team 1).group 0).live ≠ 0 ∧ ((dead.team 1).group 0).live = 0 ∧
    ((queued 1).core 0).stall < 4096 ∧ 4096 ≤ (crowded.core 0).stall ∧ (crowded.core 0).swap = none ∧ crowded.gridOf 0 = some 0 ∧
      (crowded.partition 0).logicalOf 0 = some 0 ∧ (crowded.swapCandidates crowded.cycleCounted 0 0).map (·.1) = [2] ∧ keysRise crowded.teams = true ∧
      2 ∈ (crowded.cluster 2).teams ∧ (crowded.team 2).position = 0 ∧
      ((List.range 2).find? fun n => crowded.fits 0 0 (crowded.needOf (crowded.team 2)) (2 :: ((crowded.victims 0 0 1).take n).map fun v => v.1) false) = some 1 ∧
      (crowded.victims 0 0 1).map (·.1) = [1] ∧ 1 ∈ crowded.clusterOf 1 ∧ crowded.stoppable 1 = true ∧
    (∀ s ∈ [swapping false, swapping true], 4096 ≤ (s.core 0).stall ∧ (s.core 0).swap = some (2, 0) ∧ (s.team 2).status = .evicted ∧ (s.team 2).held = false ∧
      (s.team 2).escalated = false ∧ s.mayPlace (s.team 2).launch = true ∧ 2 ∈ s.clusterOf 2 ∧ (s.team 2).position = 0) ∧
    (swapping false).fits 0 0 ((swapping false).needOf ((swapping false).team 2)) [2] false = false ∧
      (swapping true).fits 0 0 ((swapping true).needOf ((swapping true).team 2)) [2] false = true := by
  intro ready1 tight waited due bad ready2 passed pass dead
  and_intros <;> decide +kernel

-- The images of an evicted team's memory.
theorem length_wordBytes (x n : Nat) : (wordBytes x n).length = n := by simp [wordBytes]
theorem length_flatMap_const {α β : Type} (l : List α) (f : α → List β) (n : Nat) (h : ∀ x ∈ l, (f x).length = n) : (l.flatMap f).length = l.length * n := by
  rw [List.length_flatMap, List.map_congr_left h]; simp
theorem length_tablePiece (t : Team) (j : Nat) : (tablePiece t j).length = 128 := by
  unfold tablePiece
  split
  · rw [length_flatMap_const _ _ 32 fun x _ => length_wordBytes _ _]; rfl
  · exact length_wordBytes _ _
theorem length_sectionImage (s : State) (t g : Nat) : (s.sectionImage t g).length = 0x10000 := by
  unfold State.sectionImage
  have hc : (((s.team t).spilled g).take 1024).length ≤ 1024 := by rw [List.length_take]; omega
  simp only [List.length_append, readBytes_length, List.length_replicate]
  rw [length_flatMap_const _ _ 128 fun x _ => length_flatMap_const (List.range 32) _ 4 fun y _ => length_wordBytes _ _,
    length_flatMap_const _ _ 8 fun x _ => length_wordBytes _ _, length_flatMap_const _ _ 8 fun x _ => length_wordBytes _ _,
    length_flatMap_const _ _ 8 fun x _ => length_wordBytes _ _, length_flatMap_const _ _ 8 fun x _ => length_wordBytes _ _,
    length_flatMap_const (((s.team t).spilled g).take 1024) _ 16 fun x _ => length_wordBytes _ _]
  simp only [List.length_range]
  omega
theorem length_lineImage (s : State) (t g n : Nat) (h : n < 512) : (s.lineImage t g n).length = 128 := by
  unfold State.lineImage
  rw [List.length_take, List.length_drop, length_sectionImage]; omega
/-- Neighbouring pieces make one range. -/
theorem flatMap_range' (a n : Nat) : ∀ k, (List.range k).flatMap (fun j => List.range' (a + n * j) n) = List.range' a (n * k)
  | 0 => by simp
  | k + 1 => by
    rw [List.range_succ, List.flatMap_append, flatMap_range' a n k, List.flatMap_singleton, Nat.mul_succ]
    exact List.range'_append_1

theorem map_tables (t : Team) (base c k : Nat) : (((List.range k).map fun j => (c + 128 * j, tablePiece t j)).flatMap fun p => bytesFrom (base + p.1) p.2).map
    (fun x => x.1) = List.range' (base + c) (128 * k) := by
  rw [← flatMap_range', List.flatMap_map, List.map_flatMap]
  refine congrArg (List.flatMap · _) (funext fun j => ?_)
  rw [map_bytesFrom, length_tablePiece, ← Nat.add_assoc]
theorem reads_of_cached {s : State} {vi : Nat} (h : (s.vi vi).tlb = [(0, 30, 0xF)]) : ∀ (n a : Nat), a + n ≤ 2 ^ 30 → ∃ bs, s.readVirt vi a n = .ok bs
  | 0, _, _ => ⟨[], rfl⟩
  | n + 1, a, ha => by
    obtain ⟨bs, e⟩ := reads_of_cached h n (a + 1) (by omega)
    refine ⟨s.readKeyed 0 a :: bs, ?_⟩
    have ht : s.translateOwn vi a false = .ok (a, 0) := by
      unfold State.translateOwn
      rw [translate_of_cached h (by omega)]
      have : ¬apertureBase ≤ a := by unfold apertureBase; omega
      simp only [if_neg this]
    unfold State.readVirt
    rw [ht, e]

/-- A stopped team whose spill line 383 is in the open pool, never saved before. -/
def pooled : State := (stopped true).modCore 0 fun k => { k with pool := [⟨1, 0, 383⟩] }
theorem pooled_saves : pooled.saves 1 = (List.range 4128).map (fun j => (0x1000 + 128 * j, tablePiece (pooled.team 1) j)) ++ [(lineAt 0 383, pooled.lineImage 1 0 383)] := by
  unfold State.saves
  have hp : (pooled.core (pooled.team 1).core).pool.filter (fun p => p.team == 1) = [⟨1, 0, 383⟩] := by decide +kernel
  simp only [hp, List.map_cons, List.map_nil]
  refine List.filter_eq_self.mpr fun x _ => ?_
  unfold State.dirty
  have hs : (pooled.team 1).linesSaved = false := by decide +kernel
  have hr : ((pooled.team 1).status != .evicted) = true := by decide +kernel
  show ((pooled.team 1).status != .evicted && (!(pooled.team 1).linesSaved || _)) = true
  rw [hs, hr]; rfl

/-- The save pool is reached, or not; every line of a register section is reached; the tables and lines of a team to be evicted, and any piece of an
image, can be written. -/
theorem witness_ResidencyIsKept_images :
    let lost : State := { returned with partitions := [(0, { returned.partition 0 with poolBase := 2 ^ 47 })] }
    (∀ bs, bs.length = 4896 → (stopped false).writable 0 (bytesFrom 0x60000 bs)) ∧ ((stopped false).partition 0).poolBase = 0x60000 ∧
    (∃ bs, returned.readVirt 0 0x60000 4896 = .ok bs) ∧
    (match lost.readVirt 0 (2 ^ 47) 4896 with | .ok _ => false | .error _ => true) = true ∧
    refilled.imageBase (refilled.team 1) = 0x100000 ∧ (∀ n, n < 0x10000 → refilled.reaches 0 (0x182000 + n) false) ∧
    pooled.imageBase (pooled.team 1) = 0x100000 ∧ (∃ bs, evicted.readVirt 0 0x101000 (0x81000 + 0x10000 * 1) = .ok bs) ∧
    pooled.writable 0 ((pooled.saves 1).flatMap fun p => bytesFrom (0x100000 + p.1) p.2) ∧
    ∀ o bs, o + bs.length ≤ 0x92000 → evicted.writable 0 (bytesFrom (0x100000 + o) bs) := by
  intro lost
  have h (t : State) (e : (t.vi 0).tlb = [(0, 30, 0xF)]) {a : Nat} (ha : a < 2 ^ 30) (w : Bool) : t.reaches 0 a w := reaches_of_cached e ha w
  have hr : (refilled.vi 0).tlb = [(0, 30, 0xF)] := by decide +kernel
  refine ⟨fun bs hb => writable_at _ (map_bytesFrom _ _) (by decide +kernel) ?_ List.nodup_range' fun a ha => inCode_of_range (lo := 0x60000) (hi := 0x62000) (by decide +kernel) ?_ ?_, by decide +kernel, reads_of_cached (by decide +kernel) _ _ (by omega), by decide +kernel,
    by decide +kernel, fun n hn => h _ hr (by omega) _, by decide +kernel, reads_of_cached (by decide +kernel) _ _ (by omega), ?_, fun o bs ho => writable_at _ (map_bytesFrom _ _) (by decide +kernel) ?_ List.nodup_range' fun a ha =>
      inCode_of_range (lo := 0x100000) (hi := 0x192000) (by decide +kernel) ?_ ?_⟩
  · intro a ha
    have := List.mem_range'_1.mp ha
    omega
  · have := List.mem_range'_1.mp ha
    omega
  · have := List.mem_range'_1.mp ha
    omega
  · refine writable_at (List.range' 0x101000 (128 * 4128) ++ List.range' (0x100000 + lineAt 0 383) 128) ?_ (by decide +kernel) ?_ ?_ fun a ha =>
      inCode_of_range (lo := 0x101000) (hi := 0x192000) (by decide +kernel) ?_ ?_
    · rw [pooled_saves, List.flatMap_append, List.map_append, List.flatMap_singleton, map_bytesFrom, length_lineImage _ _ _ _ (by omega), map_tables]
    · intro a ha
      unfold lineAt at ha
      rcases List.mem_append.mp ha with ha | ha <;> (have := List.mem_range'_1.mp ha; omega)
    · refine List.nodup_append.mpr ⟨List.nodup_range', List.nodup_range', fun a ha b hb => ?_⟩
      unfold lineAt at hb
      have := List.mem_range'_1.mp ha
      have := List.mem_range'_1.mp hb
      omega
    · unfold lineAt at ha
      rcases List.mem_append.mp ha with ha | ha <;> (have := List.mem_range'_1.mp ha; omega)
    · unfold lineAt at ha
      rcases List.mem_append.mp ha with ha | ha <;> (have := List.mem_range'_1.mp ha; omega)
  · intro a ha
    have := List.mem_range'_1.mp ha
    omega
  · have := List.mem_range'_1.mp ha
    omega
  · have := List.mem_range'_1.mp ha
    omega

/-- An address beyond 48 bits, one that is cached, one that fails, one of a gigabyte page, and one of a 64 KiB page. -/
theorem witness_ResidencyIsKept_walk :
    let walk (s : State) (va : Nat) := s.walk va walkLevels (s.vi 0).root.toNat
    let entry (t i : Nat) : Nat := readLE paged.main (t + 8 * i) 8
    (((cached s0).vi 0).tlb.any fun y => y.1 == 5 / 2 ^ y.2.1) = true ∧ ((s0.vi 0).tlb.any fun y => y.1 == 5 / 2 ^ y.2.1) = false ∧
    walk s0 (2 ^ 30) = .error 1 ∧ walk s0 5 = .ok (30, 15) ∧ walk paged 0x234560000 = .ok (16, 0x5000F) ∧
    entry 0x10000 (0x234560000 / 2 ^ 39 % 2 ^ 9) = 0x2001 ∧ entry 0x2000 (0x234560000 / 2 ^ 30 % 2 ^ 9) = 0x3001 ∧
      entry 0x3000 (0x234560000 / 2 ^ 21 % 2 ^ 9) = 0x4001 ∧ entry 0x4000 (0x234560000 / 2 ^ 16 % 2 ^ 5) = 0x5000F := by decide +kernel

end Sys2Proof.Witness
end

