-- ==== Sys2Proof/Tests/Witness10.lean ====
section
/-! SUPPORT. For the statements about the module and the fabric: states and operands that meet their hypotheses, one set for each clause. -/

namespace Sys2Proof.Witness

open Sys2Proof Sys2Proof.Machine Sys2Proof.Bench

set_option Elab.async false

/-- A control request of interface 0. -/
def asks (code : Nat) (arg : DWord) (result : Option Nat) (s : State) : State := { s with controls := cellPut s.controls 0 ⟨code, arg, result⟩ }
/-- Interfaces with and without a live launch, each end of the ring sizes, a control register busy and idle; entries of a column table; logical cores and
remap targets in and out of range; windows in and out of range. -/
theorem witness_InterfacesAnswer :
    let live (s : State) : Bool := s.launches.any fun l => l.2.vi == 0 && l.2.kill == none
    let busy := s0.modVi 0 fun v => { v with ctl := 0x8000000000000001 }
    let bad (e : ColEntry) (x : DWord) : Bool := e.state == 2 || bitsOf x 12 2 == 3 || decide (48 ≤ bitsOf x 0 6) ||
      (bitsOf x 12 2 == 2 && !(e.state == 1 && bitsOf x 0 6 == e.col && mem3.canMove (mem3.cluster 1).tower e.col (bitsOf x 6 6)))
    live s0 = true ∧ live State.reset = false ∧ (∀ n ∈ [0, 4, 16], (n % 256 = 0 ∨ (4 ≤ n % 256 ∧ n % 256 ≤ 16))) ∧
      (∀ n ∈ [1, 3, 17, 255], n % 256 ≠ 0 ∧ (n % 256 < 4 ∨ 16 < n % 256)) ∧ (busy.vi 0).ctl.getLsbD 63 = true ∧
      (s0.vi 0).ctl.getLsbD 63 = false ∧
    cellHas mem3.clusters 1 = true ∧ cellHas mem3.clusters 2 = false ∧ (mem3.cluster 1).binding[0]? = some ⟨0, 0, 1⟩ ∧ (mem3.cluster 1).binding[1]? = none ∧
      bad ⟨0, 0, 1⟩ 0x102F = false ∧ bad ⟨0, 0, 1⟩ 0x3000 = true ∧ bad ⟨0, 0, 1⟩ 48 = true ∧ bitsOf (0x102F : DWord) 12 2 ≠ 2 ∧
    ((gridded s0).partition 0).grid.length = 2 ∧ 1 ∈ ((gridded s0).partition 0).grid ∧ 2 ∉ ((gridded s0).partition 0).grid ∧
      ((gridded s0).partition 0).physical 0 ≠ 1 ∧ keysRise (gridded s0).teams = true ∧ (gridded s0).partitionOf ((gridded s0).team 1) = 0 ∧
      ((gridded s0).team 1).logical = 0 ∧ ((gridded s0).team 1).status = .resident ∧ 1 ∈ (gridded s0).clusterOf 1 := by decide +kernel
/-- Every request by its code, before its effect; and completions: none asked, of no code, of each kind, with a team still to stop, with a launch still
alive, and with none. -/
theorem witness_InterfacesAnswer_requests :
    let mine (s : State) : Bool := cellHas s.launches 1 && (s.launch 1).vi == 0 && (s.launch 1).kill == none
    let asked (s : State) := s.modTeam 1 fun t => { t with preempt := true }
    let gone (s : State) : State := { s with launches := [], teams := [] }
    (∀ c ∈ [1, 2, 3, 4, 5, 6, 7, 8], let s := asks c 0 none s0
      cellGet ⟨0, 0, some 0⟩ s.controls 0 = ⟨c, 0, none⟩ ∧ keysRise s.launches = true ∧ keysRise s.teams = true ∧ mine s = true ∧ (s.launch 1).tag = 0 ∧
        cellHas s.teams 1 = true ∧ (s.team 1).index.toNat = 0 ∧ (s.team 1).node = 0 ∧ (s.team 1).status = .resident) ∧
    cellHas s0.controls 0 = false ∧ cellHas (asks 0 0 none s0).controls 0 = true ∧ cellHas (asks 9 0 none s0).controls 0 = true ∧
    (∀ c ∈ [1, 2, 3], let s := asked (asks c 0 (some 0) s0)
      cellHas s.controls 0 = true ∧ s.runs 1 = true ∧ (s.team 1).preempt = true ∧ mine s = true ∧ (s.launch 1).nextEntry < (s.launch 1).grid) ∧
    (∀ c ∈ [1, 2, 3], let s := asks c 0 (some 0) s0
      s.teams.map (·.1) = [1] ∧ (s.team 1).preempt = false ∧ mine s = true ∧ (s.launch 1).nextEntry < (s.launch 1).grid) ∧
    (∀ c ∈ [1, 2, 3], (gone (asks c 0 (some 0) s0)).launches = [] ∧ (gone (asks c 0 (some 0) s0)).teams = []) := by decide +kernel

/-- Throttle readings of every kind; a clock mode to change, with a launch and without; a core idle long enough and not; a bank in rebuild; metadata old and
young, cached and not; a system call that a stop names, and one that it does not; a boot with no firmware record; a module that runs, and one that does not. -/
theorem witness_ModuleKeepsItself :
    let tower (f : Tower → Tower) : State := ({ gridded s0 with tick := 250 } : State).modTower 0 f
    let warm (n : Nat) : State := tower fun w => { w with thermal := true, die := n, dieLimit := 90, outlet := 40, outletLimit := 45 }
    let low := (gridded s0).modCore 0 fun k => { k with ceiling := 1300 }
    let want (s : State) : State := { s with partitions := s.partitions.map fun p => (p.1, { p.2 with wantLocked := some true }) }
    let idle := ({ s0 with tick := 16384, teams := [] } : State).modCore 0 fun k => { k with idleSince := 0, asleep := false }
    let bank : State := { s0 with banks := [(.metadata 2, { Banks.blank with retired := [7], rebuilding := true })] }
    let held := s0.modCluster 1 fun c => { c with slot := some 3 }
    let m : LineMeta := { LineMeta.reset with writer := held.ident 1 0, wgclk := 1, reader0 := ⟨3, 5⟩ }
    let old := (held.putMeta .main 9 m).modTeam 1 fun t => t.modGroup 0 fun g => { g with clock := 1 + 2 ^ 18 }
    let cachedL := lch old fun l => { l with cached := true }
    let stop := s0.modVi 0 fun v => { v with wmCtl := 8, wmStop := 4, wmSarg := 0x200000001 }
    let running : State := { gridded s0 with boot := .running }
    (tower id).tick < ((tower fun w => { w with stepped := 1 }).tower 0).stepped + 250 ∧ ((tower id).tower 0).stepped + 250 ≤ (tower id).tick ∧
      0 / 128 = 0 ∧ 0 % 8 < 6 ∧ (((gridded s0).gridOf 0).any fun p => ((gridded s0).partition p).locked) = false ∧
      ((tower id).tower 0).powerLimit < ((tower fun w => { w with watts := 800 }).tower 0).watts ∧ ((tower id).tower 0).watts < ((tower id).tower 0).powerLimit ∧
      ((tower fun w => { w with watts := 750 }).tower 0).watts = 750 ∧ ((tower id).tower 0).powerLimit = 750 ∧ (low.core 0).ceiling < 1350 ∧
      (∀ c ∈ [0, 1], 1350 ≤ ((tower id).core c).ceiling) ∧ ((warm 0).tower 0).dieLimit < ((warm 91).tower 0).die ∧ ((tower id).tower 0).thermal = false ∧
      ((tower id).tower 0).die ≤ ((tower id).tower 0).dieLimit ∧ ((tower id).tower 0).outlet ≤ ((tower id).tower 0).outletLimit ∧
      ((warm 85).tower 0).die + 5 ≤ ((warm 85).tower 0).dieLimit ∧ ((warm 85).tower 0).outlet + 5 ≤ ((warm 85).tower 0).outletLimit ∧
      ((warm 85).tower 0).thermal = true ∧ ¬((warm 86).tower 0).die + 5 ≤ ((warm 86).tower 0).dieLimit ∧ keysRise (tower id).launches = true ∧
    ((want (gridded s0)).partition 0).wantLocked = some true ∧ ((want (gridded s0)).launches.any fun l => ((want (gridded s0)).vi l.2.vi).partition == 0) = true ∧
      ((gridded s0).partition 0).wantLocked = none ∧ (({ want (gridded s0) with launches := [] } : State).launches.any fun _ => true) = false ∧
    (!(idle.core 0).asleep && decide ((idle.core 0).idleSince + 16384 ≤ idle.tick) && !(idle.teams.any fun t => t.2.core == 0 && t.2.status == .resident)) = true ∧
      (s0.teams.any fun t => t.2.core == 0 && t.2.status == .resident) = true ∧ (bank.bank (.metadata 2)).rebuilding = true ∧ (s0.bank (.metadata 2)).rebuilding = false ∧
    (old.metaAt .main 9).reader1.token = 0x7FF ∧ (old.metaAt .main 9).reader0.token ≠ (old.metaAt .main 9).reader1.token ∧
      old.holder m.writer = some (1, 0) ∧ 2 ^ 18 ≤ ((((old.team 1).group 0).clock - 1).toNat) ∧ (old.launch 1).cached = false ∧ (cachedL.launch 1).cached = true ∧
    ((stop.vi 0).wmCtl.getLsbD 3 && bitsOf (stop.vi 0).wmStop 0 3 == 4 && (stop.vi 0).wmSarg == ((2 : Word) ++ (1 : Word) : DWord) &&
      !(stop.vi 0).halted.contains ((2 : Word) ++ (1 : Word) : DWord)) = true ∧ (s0.vi 0).wmCtl.getLsbD 3 = false ∧
    (s0.flash.any fun r => r.type == 0) = false ∧ running.boot = .running ∧ cellHas running.partitions 0 = true ∧ cellHas running.partitions 1 = false ∧ s0.boot ≠ .running := by
  intro tower warm low want idle bank held m old cachedL stop running
  and_intros <;> decide +kernel
/-- A firmware record with a good signature, one behind it whose version is rolled back, and all of them good; signatures are free values. -/
theorem witness_ModuleKeepsItself_boot (a b : List Byte) (ha : Config.signatureGood (shake256 a) a = true) (hb : Config.signatureGood (shake256 b) b = true) :
    let good (r : FlashRec) : Bool := Config.signatureGood (shake256 r.bytes) r.signature && decide (2 ≤ r.version)
    let firmware (l : List FlashRec) : Bool := (l.any fun r => r.type == 0) && l.all fun r => r.type != 0 || good r
    firmware [⟨0, 2, a, a⟩, ⟨1, 1, b, b⟩] = true ∧ good ⟨1, 1, b, b⟩ = false ∧ firmware [⟨0, 2, a, a⟩, ⟨1, 3, b, b⟩] = true ∧
      (∀ r ∈ [⟨0, 2, a, a⟩, ⟨1, 3, b, b⟩], good r = true) := by
  simp [ha, hb]
/-- Coolant lost, a die and an outlet past their second limits, and none of these. -/
theorem witness_ModuleKeepsItself_coolant :
    let overheats (s : State) : Prop := s.coolant = false ∨ ∃ w ∈ s.towers, w.2.dieStop < w.2.die ∨ w.2.outletStop < w.2.outlet
    ¬overheats s0 ∧ overheats { s0 with coolant := false } ∧ overheats (s0.modTower 0 fun w => { w with die := 9, dieStop := 8 }) ∧
      overheats (s0.modTower 0 fun w => { w with outlet := 9, outletStop := 8 }) := by decide +kernel

/-- A request to peer 2 or to this module: one byte at an address, read or written. -/
def ask (dest : Nat) (write : Bool) (at_ : Nat) : Request :=
  { Request.blank with
    source := if dest = s0.module then 2 else s0.module, dest := dest, led := [(write, 2 ^ 47 + at_, at_)], reads := if write then [] else [(at_, 0)]
    writes := if write then [(at_, 0)] else [], bytes := if write then [some 7] else [], state := .held }
/-- A peer and a partition that admit addresses below 0x1000 from each other, without a launch and its areas. -/
def joined (r : Request) : State :=
  { gridded s0 with
    launches := []
    peers := [(2, { Peer.blank with size := 0x800, reach := [⟨s0.module, 0, 0x1000, true, true⟩], linkUp := true })]
    partitions := [(0, { Partition.blank with grid := [0], ranges := [(0, 0x2000)], reach := [⟨2, 0, 0x1000, true, true⟩], apertures := [(0, 0x107)] })]
    requests := [(1, r)] }
/-- A destination takes the bytes of a request. -/
def accepts (s : State) (r : Request) : Bool :=
  let within (l : List Reach) (a : Nat) (write : Bool) : Bool :=
    l.any fun y => y.source == r.source && decide (y.base ≤ a ∧ a < y.base + y.size) && if write then y.write else y.read
  let takes (a : Nat) (write : Bool) : Bool :=
    if r.dest = s.module then decide (a < 2 ^ 47) && s.populated a && s.partitions.any fun p => within p.2.reach a write &&
      (p.2.ranges.any fun y => decide (y.1 ≤ a ∧ a < y.1 + y.2)) && !s.forbidden p.1 a 1 write
    else cellHas s.peers r.dest && within (s.peer r.dest).reach a write && decide (a < (s.peer r.dest).size)
  (r.dest == s.module || cellHas s.peers r.dest) && (r.reads.all fun x => takes x.1 false) && r.writes.all fun x => takes x.1 true
/-- Requests that wait, and one that another precedes; admitted ones and refused ones at a peer and here; acknowledged, late; links up and down; remote atomics
in and out of reach; a busy flow; routing tables at every stage; ports in use and not. -/
theorem witness_FabricCarriesRequests :
    let m := s0.module
    let waiting (s : State) : Bool := cellHas s.requests 1 && (s.request 1).state == .held && (s.request 1).transit
    let go (s : State) : Bool := s.requests.all fun q => !q.2.precedes (s.request 1)
    let blocked : State := let s := joined { ask 2 true 5 with flows := [⟨3, 1, 4, [], []⟩] }; { s with requests := s.requests ++ [(2, { ask 2 true 5 with flows := [⟨3, 1, 3, [], []⟩] })] }
    let here (s : State) (a : Nat) : Bool := decide (a < 2 ^ 47) && s.populated a && s.partitions.any fun p => (p.2.ranges.any fun y => decide (y.1 ≤ a ∧ a < y.1 + y.2)) &&
      [true, false].all fun w => !s.forbidden p.1 a 1 w && p.2.reach.any fun y => y.source == 2 && decide (y.base ≤ a ∧ a < y.base + y.size) && if w then y.write else y.read
    let busy (s : State) (flow : Nat) : Bool := (s.partition 0).apertures.any fun w => bitsOf w.2 0 1 == 1 && bitsOf w.2 1 6 == flow && s.requests.any fun r =>
      r.2.source == s.module && r.2.partition == 0 && r.2.state != .acked && r.2.led.any fun y => (y.2.1 - 2 ^ 47) / 2 ^ 35 == w.1
    let st (x : ReqState) : State := joined { ask 2 true 5 with state := x, answer := x }
    let late := { joined (ask 2 true 5) with tick := 2 ^ 20 }
    let own : State := (joined { ask 2 true 5 with chunk := some (1, 0, 0) }).modTeam 1 fun t => { t with copies := [(0, Copy.blank)] }
    let routed : State := { joined (ask 2 true 5) with nextRoutes := [(m, [(2, 1)]), (2, [])] }
    let switched : State := { joined { ask 2 true 5 with epoch := 1 } with switched := true, epoch := 1 }
    m ≠ 2 ∧ (∀ w ∈ [true, false], ∀ a ∈ [0, 0x7FF, 0x800, 0x1000], waiting (joined (ask 2 w a)) = true ∧ go (joined (ask 2 w a)) = true ∧
      waiting (joined (ask m w a)) = true ∧ go (joined (ask m w a)) = true) ∧ waiting blocked = true ∧ go blocked = false ∧
    (∀ w ∈ [true, false], accepts (joined (ask 2 w 0x7FF)) (ask 2 w 0x7FF) = true ∧ accepts (joined (ask 2 w 0x800)) (ask 2 w 0x800) = false ∧
      accepts (joined (ask m w 0xFFF)) (ask m w 0xFFF) = true ∧ accepts (joined (ask m w 0x1000)) (ask m w 0x1000) = false ∧ (ask m w 0xFFF).chunk = none ∧
      (∀ x ∈ (ask m w 0xFFF).reads, ∀ j < 16, (joined (ask m w 0xFFF)).histAt .main (x.1 / 16 * 16 + j) = [])) ∧
    (∀ x ∈ [ReqState.performed, .refused, .raced], ((st x).request 1).state = x ∧ ((st x).request 1).transit = true) ∧ ((st .acked).request 1).state = .acked ∧
    (late.request 1).source = m ∧ (late.request 1).state ≠ .acked ∧ (late.request 1).sentAt + 2 ^ 20 ≤ late.tick ∧ (joined (ask 2 true 5)).tick < 2 ^ 20 ∧
    ((st .held).peer 2).linkUp = true ∧ (({ st .held with peers := [(2, { Peer.blank with linkUp := false })] } : State).peer 2).linkUp = false ∧
    here (joined (ask m true 0)) 0xFFF = true ∧ here (joined (ask m true 0)) 0x1000 = false ∧
    ((joined (ask m true 0)).peer 2).linkUp = true ∧ (∀ i < 8, here (joined (ask m true 0)) (0xFF8 + i) = true) ∧ here (joined (ask m true 0)) (0xFF9 + 7) = false ∧
    0x7F8 + 8 ≤ ((joined (ask 2 true 0)).peer 2).size ∧ (∀ i < 8, (⟨m, 0, 0x1000, true, true⟩ : Reach).base ≤ 0x7F8 + i ∧ 0x7F8 + i < 0x1000) ∧
      ¬0x7F9 + 8 ≤ ((joined (ask 2 true 0)).peer 2).size ∧
    (busy (joined (ask 2 true 5)) 3 = true ∧ busy (joined (ask 2 true 5)) 4 = false ∧ busy (st .acked) 3 = false) ∧
    ((joined (ask 2 true 5)).request 1).chunk = none ∧ ((own : State).request 1).chunk = some (1, 0, 0) ∧
      (cellHas own.teams 1 && cellHas (own.team 1).copies 0) = true ∧ (cellHas own.teams 1 && cellHas (own.team 1).copies 1) = false ∧
    ((ask m true 5).writes.map fun x => x.1).Nodup ∧ (ask m true 5).bytes.length = (ask m true 5).writes.length ∧
    routed.switched = false ∧ ((m :: routed.peers.map fun p => p.1).all fun x => cellHas routed.nextRoutes x) = true ∧
      ((m :: (st .held).peers.map fun p => p.1).all fun x => cellHas (st .held).nextRoutes x) = false ∧ switched.switched = true ∧
      (switched.requests.all fun r => r.2.state == .acked || decide (switched.epoch ≤ r.2.epoch)) = true ∧
      (({ st .held with switched := true, epoch := 1 } : State).requests.all fun r => r.2.state == .acked || decide (1 ≤ r.2.epoch)) = false ∧
    (∃ t ∈ routed.nextRoutes, t.1 = m ∧ ∃ x ∈ t.2, x.2 = 1) ∧ (∀ t ∈ routed.nextRoutes, t.1 = m → ∀ x ∈ t.2, x.2 ≠ 2) ∧ routed.routes = [] := by
  intro m waiting go blocked here busy st late own routed switched
  and_intros <;> decide +kernel
/-- Elevators: a tower whose mesh routes use one and not another, routes written without it, a chunk of the old epoch under way, and none; the only one left. -/
theorem witness_FabricCarriesRequests_elevators :
    let s := cut cp
    let next := s.modTower 0 fun w => { w with meshNext := some [1, 2] }
    let busy (team copy i : Nat) : Prop := ∃ t ∈ s.teams, t.1 = team ∧ (s.cluster t.2.cluster).tower = 0 ∧ ∃ c ∈ t.2.copies, c.1 = copy ∧ i < c.2.started ∧ i ∉ c.2.landed
    (s.tower 0).meshNext = none ∧ 3 ∈ (s.tower 0).meshRoutes ∧ 9 ∉ (s.tower 0).meshRoutes ∧ (s.tower 0).meshTraffic = [] ∧
      (s.tower 0).meshRoutes.filter (fun x => x != 3) ≠ [] ∧ ([3].filter fun x => x != 3) = [] ∧ (next.tower 0).meshNext = some [1, 2] ∧ busy 1 0 0 ∧ ¬busy 1 0 1 := by
  decide +kernel
/-- A chunk of a copy from shared memory through a window to peer 2: sent, its request is the last of the chunk, and the destination takes it; with a second
one behind another request, it is not. -/
def outward : State :=
  let s : State := { joined Request.blank with launches := mem3.launches, teams := mem3.teams, clusters := mem3.clusters, requests := [] }
  let s := tm s fun t => { t with layouts := t.layouts ++ [(9, record 0 5 0xC00 16 0 1 0), (12, record 0 1 0xE40 4 0 1 0), (14, record 3 1 0x40000100 4 0 1 0)] }
  (cached s).modVi 0 fun v => { v with tlb := v.tlb ++ [(1, 30, 0x80000000000F)] }
def sent : State :=
  let s := cut (after outward (exec (.cpy (copy 14 12 0 3)) outward))
  after s (exec (.chunkLand 1 0 0) s)
def srcO : List Spot := let c := cellGet Copy.blank (sent.team 1).copies 0; (sent.allSpots (sent.team 1) false (sent.srcParts 1 c (c.range 0).1 (c.range 0).2)).1
def dstO : List Spot := let c := cellGet Copy.blank (sent.team 1).copies 0; (sent.allSpots (sent.team 1) true (sent.dstParts 1 c (c.range 0).1 (c.range 0).2)).1
def behind : State :=
  { sent with requests := sent.requests ++ [(2, { sent.request 1 with dest := 3 }), (3, { sent.request 1 with dest := 3, order := 0, chunk := none })] }
theorem witness_FabricCarriesRequests_chunk :
    let rs := sent.requests.map fun q => q.2
    let c := cellGet Copy.blank (sent.team 1).copies 0
    let at_ (write : Bool) (l : List Spot) : List Spot := l.map fun p => (sent.reach rs write p).getD p
    let last (s : State) : Prop := ∀ q ∈ s.requests, q.2.chunk = some (1, 0, 0) →
      q.2.state ≠ .held ∨ ((q.1 = 1 ∨ q.2.arrived = true) ∧ (s.requests.all fun p => !p.2.precedes q.2) = true)
    (∀ s ∈ [sent, behind], cellHas s.requests 1 = true ∧ (s.requests.all fun p => !p.2.precedes (s.request 1)) = true ∧ accepts s (s.request 1) = true ∧
      keysRise s.requests = true ∧ (s.request 1).chunk = some (1, 0, 0) ∧ (s.request 1).state = .held ∧ (s.request 1).transit = true) ∧ last sent ∧ ¬last behind ∧
    sent.copyLives 1 0 = true ∧ c.kind = .cpy ∧ (sent.allSpots (sent.team 1) false (sent.srcParts 1 c (c.range 0).1 (c.range 0).2)) = (srcO, none) ∧
    (sent.allSpots (sent.team 1) true (sent.dstParts 1 c (c.range 0).1 (c.range 0).2)) = (dstO, none) ∧ srcO.length = 16 ∧ dstO.length = 16 ∧
    (∀ p ∈ srcO, (sent.reach rs false p).isSome = true) ∧ (∀ p ∈ dstO, (sent.reach rs true p).isSome = true) ∧ (∀ p ∈ at_ true dstO, p.far = false) ∧
    (∃ p ∈ at_ true dstO, p.place = .peer 2) ∧ c.ident = 0x3FFFF ∧
    sent.readsFreely 1 0 c (at_ false srcO) (c.view ||| sent.overlapView 1 c (sent.chunkReads 1 c 0) []) ∧
    sent.writesFreely 1 0 c 0 (at_ true dstO) [] (sent.landView 1 1 c 0) := by
  intro rs c at_ last
  refine ⟨?_, ?_, ?_, ?_, ?_, ?_, ?_, ?_, ?_, ?_, ?_, ?_, ?_, ?_, ?_, writesFreely_of_fresh ?_⟩
  all_goals first | decide +kernel | (unfold State.readsFreely State.raceFree; decide +kernel) | (unfold writesFresh State.raceFree; decide +kernel)

end Sys2Proof.Witness
end

