-- ==== Sys2Proof/Tests/Witness11.lean ====
section
/-! SUPPORT. For the clauses about fragments, faults and races of the statements about regions, traps and accesses: states and operands that meet their
hypotheses, one set for each clause. -/

namespace Sys2Proof.Witness

open Sys2Proof Sys2Proof.Machine Sys2Proof.Bench

set_option Elab.async false

/-- A full stack, and the last entry set taken, before a local apply2 with one half and with two. -/
theorem witness_LocalRegionsOpen_apply2 :
    let full := agt blk fun x => { x with stack := List.replicate 1032 ⟨0, 0, 1, 0, 0⟩ }
    let last := agt blk fun x => { x with stack := List.replicate 1031 ⟨0, 0, 1, 0, 0⟩ }
    let wide : State := agt (tm blk2 fun t => { t with regions := [(0, { Region.blank with handles := List.range 16 })] }) fun x =>
      { x with lanes := BitVec.ofNat 1024 (2 ^ 64 - 1) }
    (∀ s ∈ [full, last], s.canIssue = true ∧ s.contOf s.curTeam 3 = some 7 ∧ s.contOf s.curTeam 5 = some 7 ∧ s.kset 1 &&& s.kset 2 = 0 ∧
      (s.kset 1 ||| s.kset 2) &&& ~~~s.curAgent.lanes = 0 ∧ s.kset 1 ≠ 0 ∧ s.kset 2 ≠ 0 ∧ s.kset 3 = 0 ∧ 1032 < s.swdOf s.cur + 2) ∧
      1032 < full.swdOf full.cur + 1 ∧ last.swdOf last.cur + 1 ≤ 1032 ∧
    wide.canIssue = true ∧ wide.contOf wide.curTeam 3 = some 7 ∧ wide.contOf wide.curTeam 5 = some 7 ∧ wide.kset 4 &&& wide.kset 2 = 0 ∧
      (wide.kset 4 ||| wide.kset 2) &&& ~~~wide.curAgent.lanes = 0 ∧ 1 < (groupsOf (wide.kset 4)).length ∧ wide.kset 2 ≠ 0 ∧ wide.kset 3 = 0 ∧
      wide.swdOf wide.cur + 2 ≤ 1032 ∧ 16 < wide.curTeam.entrySets + 1 := by decide +kernel

/-- Agent 0 a fragment of region 0 with the given other fragments and plans, beside the participant of group 1. -/
def fragged (others : List Nat) (waiting : List FragPlan) : State :=
  tm (agt blk2 fun x => { x with kind := .fragment 0 }) fun t =>
    { t with
      nextAgent := 34
      agents := t.agents ++ others.map fun n => (n, { placedAgent with kind := .fragment 0, host := 1 })
      regions := [(0, { Region.blank with cont := 7, parts := [1], handles := [3], frags := 0 :: others, waiting := waiting })] }
/-- Agent 0 a trap fragment that agent 1 left in its innermost region, of which agent 1 waits at join or still runs. -/
def strayed (st : Status) : State :=
  let s := tm (agt blk2 fun x => { x with kind := .trap 1 1, inRegion := true }) fun t =>
    { t with agents := t.agents.map fun p => if p.1 = 1 then (1, { p.2 with stack := [⟨localDesc 1 1, 7, 1, 0, 0⟩], status := st }) else p }
  s
/-- Joins of a fragment with a trap fragment pending, with another fragment, with one that waits for a host, and of the last; and those of a trap fragment
outside every region, before its agent's own join, and as the last that the join waits for. -/
theorem witness_JoinLeavesRegion_fragments :
    let plan : FragPlan := ⟨0, [0], BitVec.ofNat 1024 3, false⟩
    let trap := tm (fragged [33] []) fun t => { t with agents := t.agents ++ [(32, { placedAgent with kind := .trap 0 0, status := .pending })] }
    let dead (s : State) : Prop := s.curTeam.noneDead s.cur.agent s.curTeam.liveSet
    let last (s : State) : Prop := let x := s.curTeam.agent 1
      x.status = .join ∧ x.stack.length = 1 ∧ ∀ q ∈ s.curTeam.traps 1 1, q.1 = s.cur.agent
    (∀ s ∈ [trap, fragged [33] [], fragged [33] [plan], fragged [] []], s.canIssue = true ∧ s.curAgent.kind = .fragment 0 ∧ s.curAgent.stack = [] ∧
      s.reissues = false ∧ dead s) ∧ trap.curTeam.traps 0 0 ≠ [] ∧
    (∀ s ∈ [fragged [33] [], fragged [33] [plan]], s.curTeam.traps 0 0 = [] ∧ (s.curTeam.region 0).frags.filter (· ≠ s.cur.agent) = [33]) ∧
      ((fragged [33] []).curTeam.region 0).waiting = [] ∧ ((fragged [33] [plan]).curTeam.region 0).waiting = [plan] ∧
      (plan.hosts.find? fun h => !([33].map fun f => ((fragged [33] [plan]).curTeam.agent f).host).contains h) = some 0 ∧
      plan.lanes &&& (fragged [33] [plan]).curTeam.liveSet ≠ 0 ∧ (fragged [33] [plan]).curTeam.agentsOk = true ∧
    (let s := fragged [] []
     (s.curTeam.region 0).frags.filter (· ≠ s.cur.agent) = [] ∧ (s.curTeam.region 0).waiting = [] ∧ (s.curTeam.region 0).parts.Nodup ∧ s.metaLines = [] ∧
       ∀ p ∈ (s.curTeam.region 0).parts, p ≠ s.cur.agent ∧ cellHas s.curTeam.agents p = true ∧ (s.curTeam.agent p).kind = .group) ∧
    (∀ s ∈ [strayed .ready, strayed .join], s.canIssue = true ∧ s.curAgent.kind = .trap 1 1 ∧ s.curAgent.stack = [] ∧ s.reissues = false ∧
      s.curAgent.inRegion = true ∧ 1 ≠ s.cur.agent ∧ cellHas s.curTeam.agents 1 = true ∧ s.curTeam.noneHeld ∧ dead s) ∧
    ¬last (strayed .ready) ∧ last (strayed .join) ∧ ((strayed .join).curTeam.agent 1).stack = [⟨localDesc 1 1, 7, 1, 0, 0⟩] ∧
    (agt (strayed .ready) fun x => { x with inRegion := false }).curAgent.inRegion = false := by
  unfold Team.noneDead Team.noneHeld
  decide +kernel

end Sys2Proof.Witness
end

