-- ==== Sys2Proof/Tests/Witness12.lean ====
section
/-! SUPPORT. For the clauses about faults, races and coverage losses of the statements about accesses: states and operands that meet their hypotheses. -/

namespace Sys2Proof.Witness

open Sys2Proof Sys2Proof.Machine Sys2Proof.Bench

set_option Elab.async false
set_option synthInstance.maxSize 2000

-- From what can be evaluated to the hypotheses as they are stated.
/-- Every coordinate lies in its extent, and the element in shared memory. -/
def within (s : State) (l : Layout) (n : Nat) (cs : List Nat) : Prop :=
  (∀ j < cs.length, (cs[j]?).getD 0 < bitsOf l.raw (64 + 16 * j) 16) ∧ bitsOf l.raw 62 2 = 0 ∧ 0 ≤ l.addr n cs ∧ l.addr n cs + n ≤ s.curTeam.sharedSize
theorem not_fails {s : State} {l : Layout} {n d : Nat} {cs : List Nat} (h : within s l n cs) : ¬s.fails l n cs d := by
  rintro (⟨⟨c, hc, hb⟩, _⟩ | ⟨_, _, hr⟩)
  · have hl := (List.getElem?_eq_some_iff.mp hc).1
    have := h.1 d hl
    rw [hc] at this
    simp only [Option.getD_some] at this
    omega
  · refine hr ⟨fun _ => h.2.2, fun e => ?_, fun e => ?_⟩ <;> (rw [h.2.1] at e; cases e)
theorem fails_first {s : State} {l : Layout} {n c : Nat} {cs : List Nat} (h : cs[0]? = some c ∧ bitsOf l.raw 64 16 ≤ c) : s.fails l n cs 0 :=
  .inl ⟨⟨c, h.1, h.2⟩, fun j hj => absurd hj (by omega)⟩
/-- What lanesPass asks, where each member is within its bounds, or its first coordinate is beyond its extent. -/
def passes (s : State) (m : MemOp) (spaces : List Nat) (k : KReg) (regs : List Nat) (out : Nat → Bool) : Prop :=
  let l := s.laneLayout m.l
  s.begins ∧ recordFault l.raw (s.handleOf m.l) spaces (codeSize (bitsOf l.raw 57 5) == m.size) m.size (m.slots.map zeroM) = none ∧
    s.regFault (regs ++ mRegs l m.slots) false = none ∧
    ∀ gl ∈ s.lanes k, (out gl = true ∧ (s.mCoords l m.slots gl)[0]? = some 1000 ∧ bitsOf l.raw 64 16 ≤ 1000) ∨
      (out gl = false ∧ within s l m.size (s.mCoords l m.slots gl))
theorem lanesPass_of {s : State} {m : MemOp} {sp : List Nat} {k : KReg} {r : List Nat} {out : Nat → Bool} (h : passes s m sp k r out) :
    s.lanesPass m sp k r out := by
  refine ⟨h.1, h.2.1, h.2.2.1, fun gl hg => ?_⟩
  rcases h.2.2.2 gl hg with ⟨ho, hf⟩ | ⟨ho, hw⟩
  · exact ⟨fun _ => ⟨0, fails_first hf⟩, fun _ => ho⟩
  · exact ⟨fun e => absurd e (by simp [ho]), fun ⟨_, hf⟩ => absurd hf (not_fails hw)⟩
/-- What finds asks of the line's writer, and of its first reader epoch. -/
def findsWriter (s : State) (c : Acc) (a : Nat) : Prop :=
  let x := (s.metaAt c.place (c.addr / 64)).stored
  c.checked (a / 16) x ∧ s.unordered c x ∧ ∃ w ∈ s.histAt c.place a, c.meets x w.ev w.marked w.who
theorem finds_of_writer {s : State} {c : Acc} (a kind : Nat) (h : kind = (if c.read then 0 else 1) ∧ findsWriter s c a) : ∃ x, s.finds c kind x := by
  obtain ⟨hk, h1, h2, w, hw, hm⟩ := h
  exact ⟨_, a / 16, h1, h2, .inl ⟨rfl, hk, a, w, rfl, hw, hm⟩⟩
def findsReader (s : State) (c : Acc) (x : Stored) : Prop :=
  let m := s.metaAt c.place (c.addr / 64)
  let g := c.addr / 16
  c.checked g x ∧ s.unordered c x ∧ c.write = true ∧ (∀ h < (c.addr + c.size - 1) / 16 + 1, c.granule h → m.wmask.toNat.testBit (h % 4) = false) ∧
    ∃ r ∈ s.readsAt c.place g, c.meets x r.ev r.marked r.who
theorem finds_of_reader {s : State} {c : Acc} 
    (h : ∃ x ∈ (s.storedReader (s.placeTower c.place (c.addr / 64 * 64)) (s.metaAt c.place (c.addr / 64)).reader0).toList, findsReader s c x) :
    ∃ x, s.finds c 2 x := by
  obtain ⟨_, h5, h1, h2, h3, h4, r, hr, hm⟩ := h
  exact ⟨_, c.addr / 16, h1, h2, .inr ⟨h3, rfl, fun g hg => h4 g (Nat.lt_succ_of_le hg.2.1) hg, Option.mem_toList.mp h5, r, hr, hm⟩⟩
theorem boundsPart_first {s : State} {m : MemOp} {k : KReg} {out : Nat → Bool} (low : Nat)
    (h : let bad := (s.lanes k).filter out
      low ∈ bad ∧ (∀ gl ∈ bad, low ≤ gl) ∧ (s.mCoords (s.laneLayout m.l) m.slots low)[0]? = some 1000 ∧ bitsOf (s.laneLayout m.l).raw 64 16 ≤ 1000) :
    s.boundsPart m k out [(laneUnion ((s.lanes k).filter out), boundsRaise 0 0)] :=
  .inr ⟨low, 0, h.1, h.2.1, fails_first h.2.2, rfl⟩
theorem lanesFree_of_fresh {s : State} {m : MemOp} {r w : Bool} {l : List Nat}
    (h : let spot := s.laneSpot (s.laneLayout m.l) m.size m.slots
      s.metaLines = [] ∧ ∀ gl ∈ l, s.unopposed (m.acc s (s.laneLayout m.l) gl r w) ∧ (∀ i < m.size, s.histAt (spot gl).1 ((spot gl).2 + i) = []) ∧
        s.mirrorOf (spot gl).1 = none) : s.lanesFree m r w l :=
  ⟨swept_of_none h.1, fun gl hg => ⟨(h.2 gl hg).1, recorded_of_fresh (h.2 gl hg).2.1, fun q e => by simp [(h.2 gl hg).2.2] at e⟩⟩
theorem boundsPart_none {s : State} {m : MemOp} {k : KReg} {out : Nat → Bool} (h : (s.lanes k).filter out = []) : s.boundsPart m k out [] := .inl ⟨h, rfl⟩

-- Two groups in a cluster with a metadata slot: k1 holds lanes 0 and 1 of group 0, of which lane 1 is out of bounds in v8, k2 lane 0 alone.
def duo (mode : BitVec 2) : State :=
  let s := (lch two fun l => { l with overpass := true }).modCluster 1 fun c => { c with slot := some 3, binding := [⟨0, 0, 1⟩] }
  let s := tm s fun t =>
    { t with
      layouts := mem3.curTeam.layouts ++ [(15, record 0 1 4096 64 0 1 0)]
      groups := t.groups.map fun g => (g.1, { g.2 with v := cellSet 0 mem2.curGroup.v (32 * 8 + 1) 1000, rmode := mode }) }
  setKd (setKd s 1 (localDesc 0 3)) 2 (localDesc 0 1)
/-- Group 1's agent performs an instruction first. -/
def after1 (i : Instr) (s : State) : State := { after { s with cur := ⟨1, 1⟩ } (exec i { s with cur := ⟨1, 1⟩ }) with cur := ⟨1, 0⟩ }
/-- Group 1's lane 0, through v9, has stored to the first element, and has loaded it. -/
def at9 : MArgs := ⟨0, .handle 1, 0, .v 9, .v 0, .v 0⟩
def wrote1 (mode : BitVec 2) : State := after1 (.st .w32 3 10 at9) (setK1 (duo mode))
where setK1 (s : State) : State := tm s fun t => t.modGroup 1 fun g => { g with k := cellSet 0 g.k 3 (localDesc 1 1) }
def read1 (mode : BitVec 2) : State := after1 (.ld .w32 3 10 at9) (wrote1.setK1 (duo mode))
def unreadable (s : State) : State := { s with badLines := [(.shared 1, 0)] }
/-- An access of lane 0, and its bounds. -/
def accOf (s : State) (r w fe : Bool) : Acc := (mOp (own 1) 4 fe).acc s (s.laneLayout (own 1).l) 0 r w
def lane1 (gl : Nat) : Bool := gl == 1
def none_ (_ : Nat) : Bool := false

def filled (s : State) : State := tm s fun t => { t with full := [(0, (⟨0, false, 0, ⟨0, 0, 0⟩, [], []⟩ : Fill))] }
/-- ld, ld.fe, ld.take and st with a member out of bounds and one member within, and with the one alone. -/
theorem witness_LoadsAndStoresFault_lanes (s : State) (hs : s ∈ [duo 2, filled (duo 2), wrote1 2, read1 2, unreadable (duo 2)]) (fe : Bool) (hf : fe ∈ [true, false]) :
    s.lanesPass (mOp (own 1) 4 fe) (if fe then [0] else [0, 1, 2]) 1 (dataRegs false 2) lane1 ∧
      s.lanesPass (mOp (own 1) 4 fe) (if fe then [0] else [0, 1, 2]) 2 (dataRegs false 2) none_ ∧
      s.boundsPart (mOp (own 1) 4 fe) 1 lane1 [(laneUnion ((s.lanes 1).filter lane1), boundsRaise 0 0)] ∧ s.boundsPart (mOp (own 1) 4 fe) 2 none_ [] ∧
      (s.lanes 1).filter (fun gl => !lane1 gl) = [0] ∧ (s.lanes 2).filter (fun gl => !none_ gl) = [0] ∧ cellHas s.launches s.curTeam.launch = true := by
  have h : ∀ s ∈ [duo 2, filled (duo 2), wrote1 2, read1 2, unreadable (duo 2)], ∀ fe ∈ [true, false], passes s (mOp (own 1) 4 fe) (if fe then [0] else [0, 1, 2]) 1 (dataRegs false 2) lane1 ∧
      passes s (mOp (own 1) 4 fe) (if fe then [0] else [0, 1, 2]) 2 (dataRegs false 2) none_ := by
    unfold passes State.begins State.takesFaults Team.takesTraps Team.noneHeld within; decide +kernel
  refine ⟨lanesPass_of (h s hs fe hf).1, lanesPass_of (h s hs fe hf).2, boundsPart_first 1 ?_, boundsPart_none ?_, ?_, ?_, ?_⟩ <;> (revert s fe; decide +kernel)
/-- Members without a race; a race of a load, of a store after a store and after a load; and a row that cannot be read. -/
theorem witness_LoadsAndStoresFault :
    (duo 2).lanesFree (mOp (own 1) 4 false) true false [0] ∧ (duo 2).lanesFree (mOp (own 1) 4 false) false true [0] ∧
      (filled (duo 2)).lanesFree (mOp (own 1) 4 true) true false [0] ∧
      (∀ gl ∈ [0], cellHas (filled (duo 2)).curTeam.full (((filled (duo 2)).laneSpot ((filled (duo 2)).laneLayout (own 1).l) 4 (own 1).slots gl).2 / 16) = true) ∧
    (∃ x, (wrote1 2).finds (accOf (wrote1 2) true false false) 0 x) ∧ (∃ x, (wrote1 2).finds (accOf (wrote1 2) false true false) 1 x) ∧
    (∃ x, (read1 2).finds (accOf (read1 2) false true false) 2 x) ∧ 2 ≤ ((wrote1 2).curTeam.group 0).rmode.toNat ∧
    (∀ fe ∈ [true, false], (unreadable (duo 2)).raceFree (accOf (unreadable (duo 2)) true false fe) ∧
      (unreadable (duo 2)).badAt (accOf (unreadable (duo 2)) true false fe).place (accOf (unreadable (duo 2)) true false fe).addr 4 = true) := by
  refine ⟨lanesFree_of_fresh ?_, lanesFree_of_fresh ?_, lanesFree_of_fresh ?_, ?_, finds_of_writer 0 0 ?_, finds_of_writer 0 1 ?_,
    finds_of_reader ?_, ?_, ?_⟩
  · unfold State.unopposed State.raceFree; decide +kernel
  · unfold State.unopposed State.raceFree; decide +kernel
  · unfold State.unopposed State.raceFree; decide +kernel
  · decide +kernel
  · unfold findsWriter Acc.checked Acc.granule State.unordered State.compares Acc.meets; decide +kernel
  · unfold findsWriter Acc.checked Acc.granule State.unordered State.compares Acc.meets; decide +kernel
  · unfold findsReader Acc.checked Acc.granule State.unordered State.compares Acc.meets; decide +kernel
  · decide +kernel
  · unfold State.raceFree; decide +kernel

/-- A mapped race log ring of one record at 0x50000, with room and full. -/
def logged (full : Bool) (s : State) : State :=
  lch (cached { s with main := if full then writeBytes s.main 0x50000 [1] else s.main }) fun l => { l with ring := 0x50000 }
def ringOf (s : State) : Option (Nat × Nat × State) := match s.devRead 0 0x50000 16 with
  | .ok (u, idx) => some (bytesWord (idx.take 8), bytesWord (idx.drop 8), u)
  | .error _ => none
/-- Report mode: what reports asks of an access, with the ring's indices. -/
def reporting (s : State) (p : Nat) (r w : Bool) : Prop :=
  (s.curTeam.group 0).rmode = 1 ∧ cellHas s.launches s.curTeam.launch = true ∧ s.curLaunch.ring = 0x50000 ∧ s.curLaunch.vi = 0 ∧ s.curLaunch.ringLog = 0 ∧
    s.badAt (accOf s r w false).place (accOf s r w false).addr 4 = false ∧ (ringOf s).map (fun x => (x.1, x.2.1)) = some (p, 0) ∧
    (ringOf s).any (fun x => match x.2.2.devWrite 0 0x50080 (List.replicate 128 0) with
      | .ok v => (v.devWrite 0 0x50000 (wordBytes 1 8)).isOk
      | .error _ => false) = true ∧
    s.lanes 2 = [0] ∧ s.canIssue = true
theorem witness_LoadsAndStoresFault_report :
    (∀ full ∈ [false, true], reporting (logged full (wrote1 1)) (if full then 1 else 0) true false ∧ reporting (logged full (wrote1 1)) (if full then 1 else 0) false true) ∧
    (∀ full ∈ [false, true], ∃ x, (logged full (wrote1 1)).finds (accOf (logged full (wrote1 1)) true false false) 0 x) ∧
    ∀ full ∈ [false, true], ∃ x, (logged full (wrote1 1)).finds (accOf (logged full (wrote1 1)) false true false) 1 x := by
  refine ⟨?_, fun full hf => finds_of_writer 0 0 ?_, fun full hf => finds_of_writer 0 1 ?_⟩
  · unfold reporting; decide +kernel
  · revert full; unfold findsWriter Acc.checked Acc.granule State.unordered State.compares Acc.meets; decide +kernel
  · revert full; unfold findsWriter Acc.checked Acc.granule State.unordered State.compares Acc.meets; decide +kernel

/-- A set overflow bit; a store beside another group's granule; and loads after a store: ordered by the clock window alone, by another agent of the group, and
by the clock of another team. -/
def crossed : State :=
  let s := wrote1 1
  let x := s.ident 1 0 + 32
  let at1 (w : ByteWrite) : ByteWrite := { w with who := { w.who with team := 2, ident := x } }
  let s := tm s fun t =>
    { t with
      tvec := cellPut t.tvec 1 1
      metas := t.metas.map fun m => (m.1, { m.2 with writer := x, wtclk := 1 })
      hist := t.hist.map fun h => (h.1, h.2.map at1) }
  ({ s with teams := s.teams ++ [(2, { s.team 1 with position := 1 })] } : State).modCluster 1 fun c => { c with teams := [1, 2] }
def wrapped : State :=
  let s := wrote1.setK1 (duo 1)
  after1 (.st .w32 3 10 at9) (tm s fun t => t.modGroup 1 fun g => { g with clock := 0xFFFFF })
def split_ : State :=
  let s := wrote1.setK1 (duo 1)
  let s := tm s fun t => { t with agents := t.agents ++ [(2, { placedAgent with k0 := localDesc 0 1 })] }
  { after { s with cur := ⟨1, 2⟩ } (exec (.st .w32 0 10 at9) { s with cur := ⟨1, 2⟩ }) with cur := ⟨1, 0⟩ }
def others (s : State) (c : Acc) : Prop :=
  let x := (s.metaAt c.place (c.addr / 64)).stored
  ∃ a ∈ [0], a / 64 = c.addr / 64 ∧ c.granule (a / 16) ∧ x.mask.testBit (a / 16 % 4) = true ∧ ∃ w ∈ s.histAt c.place a, w.who.ident = x.ident ∧
    w.who.clock = x.gclk ∧ w.who.engine.isSome = x.engine ∧ ¬(w.who.team = c.team ∧ w.who.agent = c.agent)
theorem witness_LoadsAndStoresFault_losses :
    let noted := tm (duo 1) fun t => { t with metas := [(0, { LineMeta.reset with overflow := true })] }
    let beside := after1 (.st .w32 3 10 at9) (tm (wrote1.setK1 (duo 1)) fun t => t.modGroup 1 fun g => { g with v := cellSet 0 g.v (32 * 9) 4 })
    let c (s : State) : Acc := accOf s false true false
    let r (s : State) : Acc := accOf s true false false
    let x (s : State) : Stored := (s.metaAt (r s).place ((r s).addr / 64)).stored
    let clock (s : State) : BitVec 20 := (x s).clockFor (r s)
    let v (s : State) : BitVec 20 := s.viewEntry (r s) (x s).ident
    (∀ s ∈ [noted, beside], (c s).ident ≠ 0x3FFFF ∧ s.raceFree (c s) ∧ cellHas s.launches s.curTeam.launch = true) ∧ (noted.metaAt (c noted).place 0).overflow = true ∧
    (let m := beside.metaAt (c beside).place 0
     m.overflow = false ∧ ¬(m.writer = (c beside).ident ∧ m.wgclk = (c beside).clocks.group) ∧ beside.unordered (c beside) m.stored ∧
       m.wmask.toNat.testBit 1 = true ∧ ∀ g < 2, (c beside).granule g → g % 4 ≠ 1) ∧
    (∀ s ∈ [wrapped, split_, crossed], (r s).checked 0 (x s) ∧ s.badAt (r s).place (r s).addr 4 = false) ∧
    (∀ s ∈ [wrapped, crossed], others s (r s) ∧ s.compares (r s) (x s) ∧ (v s - clock s).toNat < 2 ^ 19) ∧ (v wrapped).toNat < (clock wrapped).toNat ∧
    ((x split_).ident = (r split_).ident ∧ (x split_).ident ≠ 0x3FFFF ∧ (x split_).engine = false ∧
      ∃ w ∈ split_.histAt (r split_).place 0, (r split_).meets (x split_) w.ev w.marked w.who) ∧
    bitsOf (x crossed).ident 5 13 ≠ bitsOf (r crossed).ident 5 13 ∧ (crossed.holder (x crossed).ident).any fun h => ((crossed.team h.1).group h.2).wide.isNone := by
  intro noted beside c r x clock v
  and_intros <;> (try unfold State.raceFree) <;> (try unfold others) <;> (try unfold State.compares) <;>
    (try unfold Acc.checked) <;> (try unfold Acc.granule) <;> (try unfold Acc.meets) <;> decide +kernel

/-- Atomic operations of each kind of check: a member out of bounds and one within, races under a trap mode and in report mode, and a row that cannot be read. -/
def fa (k : KReg) : AtomArgs := ⟨k, 0, 2, .handle 1, 0, .v 8, .v 0, false, 4⟩
theorem witness_AtomicsFault :
    let acc (s : State) : Acc := (atomMem (fa 2)).acc s (s.laneLayout (fa 2).l) 0 true true
    (∀ s ∈ [duo 2, wrote1 2, unreadable (duo 2)], ∀ op ∈ [AtomOp.add, .cas],
      s.lanesPass (atomMem (fa 1)) [0, 1, 2] 1 (atomRegs op (fa 1)) lane1 ∧ s.lanesPass (atomMem (fa 2)) [0, 1, 2] 2 (atomRegs op (fa 2)) none_) ∧
    (duo 2).boundsPart (atomMem (fa 1)) 1 lane1 [(laneUnion (((duo 2).lanes 1).filter lane1), boundsRaise 0 0)] ∧
    (duo 2).lanesFree (atomMem (fa 1)) true true [0] ∧ (∃ x, (wrote1 2).finds (acc (wrote1 2)) 0 x) ∧ (∃ x, (logged false (wrote1 1)).finds (acc (logged false (wrote1 1))) 0 x) ∧
    (unreadable (duo 2)).raceFree (acc (unreadable (duo 2))) ∧ (unreadable (duo 2)).badAt (acc (unreadable (duo 2))).place (acc (unreadable (duo 2))).addr 4 = true := by
  intro acc
  refine ⟨fun s hs op ho => ⟨lanesPass_of ?_, lanesPass_of ?_⟩, boundsPart_first 1 ?_, lanesFree_of_fresh ?_, finds_of_writer 0 0 ?_, finds_of_writer 0 0 ?_, ?_, ?_⟩
  · revert s op; unfold passes State.begins State.takesFaults Team.takesTraps Team.noneHeld within; decide +kernel
  · revert s op; unfold passes State.begins State.takesFaults Team.takesTraps Team.noneHeld within; decide +kernel
  · decide +kernel
  · unfold State.unopposed State.raceFree; decide +kernel
  · unfold findsWriter Acc.checked Acc.granule State.unordered State.compares Acc.meets; decide +kernel
  · unfold findsWriter Acc.checked Acc.granule State.unordered State.compares Acc.meets; decide +kernel
  · unfold State.raceFree; decide +kernel
  · decide +kernel

/-- The whole checks of format M, each failing in turn: no record, a register at the budget. -/
theorem witness_LoadsAndStoresFault_checks :
    let named (s : State) (m : MArgs) (n : Nat) : Option Raise := let l := s.laneLayout m.l
      recordFault l.raw (s.handleOf m.l) [0, 1, 2] (codeSize (bitsOf l.raw 57 5) == n) n (m.slots.map zeroM)
    let small := grp (duo 2) fun g => { g with budget := 2 }
    (duo 2).canIssue = true ∧ (duo 2).curAgent.issued = none ∧ (named (duo 2) (own 20) 4).isSome = true ∧ (named (duo 2) (own 4) 4).isSome = true ∧
    small.canIssue = true ∧ small.curAgent.issued = none ∧ named small (own 1) 4 = none ∧ small.stopArmed small.cur 2 = false ∧
      (small.regFault (dataRegs false 2 ++ mRegs (small.laneLayout (own 1).l) (own 1).slots) false).isSome = true := by decide +kernel

/-- An agent's own access: with no record, a vector register as a coordinate, a bad alignment, a coordinate and an address out of bounds. -/
theorem witness_OwnAccessesFault :
    let s := duo 2
    let named (m : MArgs) : Option Raise := let l := s.laneLayout m.l
      recordFault l.raw (s.handleOf m.l) [0, 1, 2] true (codeSize (bitsOf l.raw 57 5)) (m.slots.map zeroM)
    let coords (m : MArgs) := s.mCoords (s.laneLayout m.l) m.slots 0
    s.canIssue = true ∧ s.curAgent.issued = none ∧ s.stopArmed s.cur 2 = false ∧ (named (elem 20 0)).isSome = true ∧
    (∀ m ∈ [own 1, elem 1 1, elem 1 64, elem 15 0], named m = none) ∧ mRegs (s.laneLayout (own 1).l) (own 1).slots ≠ [] ∧
    (∀ m ∈ [elem 1 1, elem 1 64, elem 15 0], mRegs (s.laneLayout m.l) m.slots = []) ∧
    (∀ n ∈ [16, 128], s.ownAddr (elem 1 1) % n ≠ 0 ∧ (∀ m ∈ [elem 1 64, elem 15 0], s.ownAddr m % n = 0)) ∧
    coords (elem 1 64) = [64] ∧ bitsOf (s.laneLayout (elem 1 64).l).raw 64 16 = 64 ∧ coords (elem 15 0) = [0] ∧
      bitsOf (s.laneLayout (elem 15 0).l).raw 62 2 = 0 ∧ (∀ n ∈ [16, 128], ¬(s.ownAddr (elem 15 0) + n ≤ s.curTeam.sharedSize)) := by decide +kernel

/-- A granule in form, whose expected count group 1 has stored; and one in a row that cannot be read. -/
def barred (mode : BitVec 2) : State :=
  after1 (.st .w32 3 10 at9)
    (tm (wrote1.setK1 (duo mode)) fun t => { (t.modGroup 1 fun g => { g with v := cellSet 0 g.v (32 * 10) 2 }) with shared := [(4, 1), (8, 9)] })
/-- Own accesses that race under a trap mode, or cannot be read. -/
theorem witness_OwnAccessesFault_races :
    let arrive : Ord := ⟨none, some 0, 1⟩
    let wait : Ord := ⟨some 0, none, 1⟩
    let forms : List (Ord × Nat × Bool × Bool) := [(ordOf 0, 128, true, false), (ordOf 0, 128, false, true), (arrive, 16, true, true), (wait, 16, true, false)]
    let m := elem 1 0
    let acc (s : State) (f : Ord × Nat × Bool × Bool) : Acc := s.ownAcc m f.1 f.2.1 f.2.2.1 f.2.2.2
    (∀ s ∈ [barred 2, unreadable (duo 2)], s.canIssue = true ∧ s.curAgent.issued = none ∧ s.stopArmed s.cur 2 = false ∧ s.fullSet = true ∧ s.curGroup.sat ≠ 3 ∧
      cellHas s.launches s.curTeam.launch = true ∧ mRegs (s.laneLayout m.l) m.slots = [] ∧
      (∀ sp ∈ [[0], [0, 1, 2]], mCheck (s.laneLayout m.l) (s.handleOf m.l) m.slots sp (fun _ => true) (s.laneLayout m.l).size = none) ∧
      ∀ n ∈ ([16, 128] : List Nat), s.ownAddr m % n = 0 ∧ s.blockBounds (s.laneLayout m.l) (s.mCoords (s.laneLayout m.l) m.slots 0) n = none) ∧
    (∀ f ∈ forms, (2 ≤ ((barred 2).curTeam.group (acc (barred 2) f).group).rmode.toNat) ∧
      ∃ x, (barred 2).finds (acc (barred 2) f) (if f.2.2.1 then 0 else 1) x) ∧
    (∀ f ∈ forms, (acc (unreadable (duo 2)) f).read = true → (unreadable (duo 2)).raceFree (acc (unreadable (duo 2)) f) ∧
      (unreadable (duo 2)).badAt (acc (unreadable (duo 2)) f).place (acc (unreadable (duo 2)) f).addr (acc (unreadable (duo 2)) f).size = true) ∧
    (let field (i n : Nat) : Nat := bytesWord ((List.range n).map fun j => let p := (barred 2).ownSpot m (i + j); (barred 2).peek p.1 p.2)
     field 0 2 = 2 ∧ field 4 4 = 1 ∧ field 2 2 = 0 ∧ field 12 4 = 0 ∧ field 8 4 ≠ ((barred 2).sreg 5).toNat % 2 ^ 32) := by
  intro arrive wait forms m acc
  refine ⟨by decide +kernel, fun f hf => ⟨?_, finds_of_writer 0 _ ?_⟩, ?_, by decide +kernel⟩
  · revert f; decide +kernel
  · revert f; unfold findsWriter Acc.checked Acc.granule State.unordered State.compares Acc.meets; decide +kernel
  · unfold State.raceFree; decide +kernel

end Sys2Proof.Witness
end

