-- ==== Sys2Proof/Tests/Witness13.lean ====
section
/-! SUPPORT. For the clauses about faults and races of the statements about tile instructions and about tret.complete: states and operands that meet their
hypotheses. -/

namespace Sys2Proof.Witness

open Sys2Proof Sys2Proof.Machine Sys2Proof.Bench

set_option Elab.async false
set_option synthInstance.maxSize 2000

/-- Lane 0 alone, behind a store of group 1 to the first element of handle 2 or 7. -/
def tiled (mode : BitVec 2) (h : BitVec 7) : State := after1 (.st .w32 3 10 ⟨0, .handle h, 0, .v 9, .v 9, .v 0⟩) (agt (wrote1.setK1 (duo mode)) fun x => { x with k0 := localDesc 0 1 })
def rec2 (h : Nat) : Nat × BitVec 256 := (h, cellGet 0 (duo 2).curTeam.layouts h)
/-- A tile instruction as it begins, and as it goes on from element 0. -/
def tileStates (h : BitVec 7) (recs : List (Nat × BitVec 256)) : List State := [tiled 2 h, agt (tiled 2 h) fun x => { x with progress := some (0, recs) }]
/-- What strikes asks of a tile instruction before element 0, and the access of its lane. -/
def tileReady (T : Tile) (s : State) (recs : List (Nat × BitVec 256)) : Prop :=
  s.takesFaults ∧ s.curAgent.struck = [] ∧ s.curAgent.before = [] ∧ begins T s 0 recs ∧ s.lanes T.k = [0] ∧ T.out s recs 0 = false ∧
    cellHas s.launches s.curTeam.launch = true ∧ (s.curTeam.group 0).rmode = 2
/-- The first access of an element's lane races. -/
def spotRaces (T : Tile) (s : State) (recs : List (Nat × BitVec 256)) (r w : Bool) : Prop :=
  ∃ p ∈ (T.spots s (recs.map fun p => ⟨p.2⟩) 0 0).head?.toList, findsWriter s (s.tileAcc p.1 p.2.1 p.2.2.1 p.2.2.2 0 0 r w) (s.tileAcc p.1 p.2.1 p.2.2.1 p.2.2.2 0 0 r w).addr
theorem witness_TilesFault_races :
    (∀ s ∈ tileStates 2 [rec2 2], tileReady (tldTile ef s) s [rec2 2] ∧ tileReady (tredTile ef s) s [rec2 2] ∧ tileReady (gatherTile gf s) s [rec2 2] ∧
      tileReady (scatterTile gf s) s [rec2 2] ∧ s.curLaunch.determinate = false) ∧
    (∀ s ∈ tileStates 2 [rec2 2], spotRaces (tldTile ef s) s [rec2 2] true false ∧ spotRaces (tredTile ef s) s [rec2 2] true false ∧
      spotRaces (gatherTile gf s) s [rec2 2] true false ∧ spotRaces (scatterTile gf s) s [rec2 2] false true) ∧
    (∀ s ∈ tileStates 2 [rec2 8, rec2 2], tileReady (ttrTile tf s) s [rec2 8, rec2 2] ∧ spotRaces (ttrTile tf s) s [rec2 8, rec2 2] true false) ∧
    ∀ s ∈ tileStates 7 [rec2 7], tileReady (lldTile lf s) s [rec2 7] ∧ tileReady (lstTile lf s) s [rec2 7] ∧
      findsWriter s (layerAcc lf s ⟨(rec2 7).2⟩ 0 0 true false) 0 ∧ findsWriter s (layerAcc lf s ⟨(rec2 7).2⟩ 0 0 false true) 0 := by
  refine ⟨?_, ?_, ?_, ?_⟩
  · unfold tileReady State.takesFaults Team.takesTraps Team.noneHeld begins; decide +kernel
  · unfold spotRaces findsWriter Acc.checked Acc.granule State.unordered State.compares Acc.meets; decide +kernel
  · unfold tileReady State.takesFaults Team.takesTraps Team.noneHeld begins spotRaces findsWriter Acc.checked Acc.granule State.unordered State.compares Acc.meets; decide +kernel
  · unfold tileReady State.takesFaults Team.takesTraps Team.noneHeld begins findsWriter Acc.checked Acc.granule State.unordered State.compares Acc.meets; decide +kernel

/-- Rows that cannot be read, before a tile read of each kind. -/
def badAt (p : Place) (l : Nat) : State := { agt (duo 2) (fun x => { x with k0 := localDesc 0 1 }) with badLines := [(p, l)] }
theorem witness_TilesFault_storage :
    let s := badAt (.shared 1) 8
    let t := badAt (.column 0 0) 0
    let spot (T : Tile) (recs : List (Nat × BitVec 256)) : Prop := ∃ p ∈ (T.spots s (recs.map fun p => ⟨p.2⟩) 0 0).head?.toList,
      let c := s.tileAcc p.1 p.2.1 p.2.2.1 p.2.2.2 0 0 true false
      s.raceFree c ∧ s.badAt c.place c.addr c.size = true
    let row := layerAcc lf t ⟨(rec2 7).2⟩ 0 0 true false
    (tileReady (tldTile ef s) s [rec2 2] ∧ tileReady (tredTile ef s) s [rec2 2] ∧ tileReady (gatherTile gf s) s [rec2 2] ∧
      tileReady (ttrTile tf s) s [rec2 8, rec2 2] ∧ tileReady (lldTile lf t) t [rec2 7]) ∧
    (spot (tldTile ef s) [rec2 2] ∧ spot (tredTile ef s) [rec2 2] ∧ spot (gatherTile gf s) [rec2 2] ∧ spot (ttrTile tf s) [rec2 8, rec2 2]) ∧
      t.raceFree row ∧ t.badAt row.place row.addr row.size = true := by
  unfold tileReady State.takesFaults Team.takesTraps Team.noneHeld begins State.raceFree
  intro s t spot row
  and_intros <;> decide +kernel

/-- Column 8 of handle 2, which has eight, and the first transposed. -/
def far (d : Desc) : Desc := { d with c1 := .lit 8 }
def efFar : TileArgs := { ef with desc := far ef.desc }
def gfFar : GatherArgs := { gf with desc := far gf.desc }
def tfFar : TtrArgs := { tf with src := far tf.src }
/-- Every member fails by its first access of element 0, in dimension 1. -/
def allFail (T : Tile) (s : State) (recs : List (Nat × BitVec 256)) : Prop :=
  s.begins ∧ T.perLane = true ∧ s.curAgent.progress = none ∧ s.curGroup.ms = 0 ∧ T.check s (recs.map fun p => ⟨p.2⟩) = none ∧ s.regFault T.regs false = none ∧
    0 < T.n ∧ s.lanes T.k ≠ [] ∧ (∀ gl ∈ s.lanes T.k, 0 ≤ gl) ∧ 0 ∈ s.lanes T.k ∧
    ∀ gl ∈ s.lanes T.k, ∃ p ∈ (T.spots s (recs.map fun p => ⟨p.2⟩) 0 gl).head?.toList, ∃ c0 ∈ p.2.2.1.head?.toList, (p.2.2.1[1]?).getD 0 = 8 ∧
      p.2.2.1.length = 2 ∧ c0 < bitsOf p.1.raw 64 16 ∧ bitsOf p.1.raw 80 16 ≤ 8
theorem first_of_allFail {T : Tile} {s : State} {recs : List (Nat × BitVec 256)} (h : allFail T s recs) : ∀ gl ∈ s.lanes T.k, 0 < T.n ∧
    (∃ (j : Nat) (p : Layout × Nat × List Nat × Nat), (T.spots s (recs.map fun p => ⟨p.2⟩) 0 gl)[j]? = some p ∧ s.fails p.1 p.1.size p.2.2.1 1 ∧
      ∀ h < j, ∀ q : Layout × Nat × List Nat × Nat, (T.spots s (recs.map fun p => ⟨p.2⟩) 0 gl)[h]? = some q → ∀ d, ¬s.fails q.1 q.1.size q.2.2.1 d) := by
  intro gl hg
  obtain ⟨p, hp, c0, hc, h1, hl, h0, h8⟩ := h.2.2.2.2.2.2.2.2.2.2 gl hg
  rw [Option.mem_toList, List.head?_eq_getElem?] at hp hc
  refine ⟨h.2.2.2.2.2.2.1, 0, p, hp, .inl ⟨⟨8, ?_, h8⟩, fun j hj => ?_⟩, fun h hh => absurd hh (by omega)⟩
  · have : p.2.2.1[1]? = some (p.2.2.1[1]'(by omega)) := List.getElem?_eq_getElem (by omega)
    rw [this] at h1 ⊢
    exact congrArg some h1
  · obtain rfl : j = 0 := by omega
    rintro ⟨c, hc', hb⟩
    rw [hc] at hc'
    cases hc'
    have : bitsOf p.1.raw 64 16 ≤ c0 := hb
    omega
theorem witness_TilesFault_bounds :
    allFail (tldTile efFar (duo 2)) (duo 2) [rec2 2] ∧ allFail (tredTile efFar (duo 2)) (duo 2) [rec2 2] ∧ allFail (gatherTile gfFar (duo 2)) (duo 2) [rec2 2] ∧
      allFail (scatterTile gfFar (duo 2)) (duo 2) [rec2 2] ∧ allFail (ttrTile tfFar (duo 2)) (duo 2) [rec2 8, rec2 2] := by
  unfold allFail State.begins State.takesFaults Team.takesTraps Team.noneHeld; decide +kernel

/-- The whole checks of tile instructions, each failing: no record, a register at the budget, a bad alignment of a row, and rows beyond an extent. -/
theorem witness_TilesFault_checks :
    let s := duo 2
    let small := grp s fun g => { g with budget := 20 }
    let lane := Reader.lane s.cur.agent
    let layer := Reader.layer s.cur.agent
    let row (d : Desc) : Int := let x := s.curTeam.record layer (s.handleOf d.l)
      let f : LayerArgs := { lf with desc := d }
      x.addr x.size (rowCoords f s x 0) % 128
    let beyond : LayerArgs := { lf with n := 9 }
    (∀ u ∈ [s, small], u.canIssue = true ∧ u.curAgent.progress = none ∧ u.curGroup.ms = 0 ∧ u.stopArmed u.cur 2 = false) ∧
    (descFault s lane (zero 20) [0, 1, 2] fun _ => true).isSome = true ∧ (descFault s layer (zero 2) [1, 2] fun y => bitsOf y 128 32 == 1).isSome = true ∧
    (descFault small lane (zero 2) [0, 1, 2] fun _ => true) = none ∧ (descFault s lane (zero 8) [0, 1, 2] fun _ => true) = none ∧
    (descFault s layer (zero 7) [1, 2] fun y => bitsOf y 128 32 == 1) = none ∧
    (small.regFault ((List.range 8).map (16 + ·)) false).isSome = true ∧ (s.regFault ((List.range 8).map (16 + ·)) false).isSome = false ∧
    row { zero 7 with c0 := .lit 1 } ≠ 0 ∧ row (zero 7) = 0 ∧ rowsFail beyond s (s.curTeam.record layer 7) 1 := by
  intro s small lane layer row beyond
  refine ⟨?_, ?_, ?_, ?_, ?_, ?_, ?_, ?_, ?_, ?_, .inl ⟨.inr (.inl ?_), ?_⟩⟩ <;> decide +kernel

-- tret.complete.
/-- The fragment of some lanes of an instruction that raced, delivered in a group of mode 3, with a milestone and its records, and the rest retired or not. -/
def struckAs (k0 : BitVec 64) (retired : Bool) (i : Instr) (ms : Nat) (recs : List (Nat × BitVec 256)) (shared : Cells Byte) : State :=
  let ws := encodeNat i
  let s := handled { State.reset.withFetchWord (64 * ws.length) (ws.zipIdx.map fun w => w.1 * 2 ^ (64 * w.2)).sum with cur := ⟨1, 0⟩, schedule := [] }
  let s := (lch s fun l => { l with overpass := true }).modCluster 1 fun c => { c with binding := [⟨0, 0, 1⟩] }
  let s := grp (tm s fun t => { t with layouts := mem3.curTeam.layouts, shared := shared }) fun g => { g with v := mem2.curGroup.v, rmode := 3 }
  let s := agt s fun x => { x with k0 := k0 }
  let s := { after s (.next (s.raise { kind := 13, ms := BitVec.ofNat 64 ms, records := recs })) with cur := ⟨1, 32⟩ }
  agt s fun x => { x with info := x.info.map fun i => { i with retired := retired } }
/-- The fragment of lane 0 alone. -/
def completing : Instr → Nat → List (Nat × BitVec 256) → Cells Byte → State := struckAs (localDesc 0 1) true
/-- An atomic operation that compares nothing. -/
def fa0 : AtomArgs := { fa 0 with c := 0 }
/-- The races of lanes: a store, a load and an atomic operation through the lane's own number. -/
theorem witness_ReturnsFromTraps_lanes :
    let st := completing (.st .w32 0 10 (own 1)) 0 [] []
    let ld := completing (.ld .w32 0 10 (own 1)) 0 [] []
    let at_ := completing (.atom .add fa0) 0 [] []
    let c (s : State) (m : MemOp) (r w : Bool) : Acc := m.acc s.atRace (s.atRace.laneLayout m.l) 0 r w
    let alone (s : State) (c : Acc) : Prop := s.atRace.raceFree c ∧ s.atRace.badAt c.place c.addr c.size = false ∧ (∀ i < c.size, s.atRace.histAt c.place (c.addr + i) = []) ∧
      s.atRace.metaLines = [] ∧ s.atRace.lanes 0 = [0] ∧ s.atRace.curAgent.issued = none
    (∀ s ∈ [st, ld, at_], fragment s ∧ s.curTeam.noneHeld ∧ s.frameKind = 13 ∧ s.curGroup.rmode = 3) ∧
    st.instrAt st.framePc = some (.st .w32 0 10 (own 1)) ∧ ld.instrAt ld.framePc = some (.ld .w32 0 10 (own 1)) ∧ at_.instrAt at_.framePc = some (.atom .add fa0) ∧
    (∀ s ∈ [st, ld], issueReady s.atRace (own 1).l (own 1).slots [0, 1, 2] 4 0 (dataRegs false 10)) ∧
      issueReady at_.atRace fa0.l [fa0.c0, fa0.c1] [0, 1, 2] 4 0 (atomRegs .add fa0) ∧
    alone st (c st (mOp (own 1) 4 false) false true) ∧ alone ld (c ld (mOp (own 1) 4 false) true false) ∧ alone at_ (c at_ (atomMem fa0) true true) := by
  unfold fragment Team.noneHeld issueReady State.raceFree
  intro st ld at_ c alone
  and_intros <;> decide +kernel
/-- A predicate of every entry of a map and of its default holds of what the map reads as. -/
theorem cellGet_all {β : Type} {P : β → Prop} {d : β} {c : Cells β} (hd : P d) (h : ∀ p ∈ c, P p.2) (k : Nat) : P (cellGet d c k) := by
  induction c with
  | nil => exact hd
  | cons x c ih =>
    rw [cellGet_cons]
    split
    · exact h x (.head _)
    · exact ih fun p hp => h p (.tail _ hp)
theorem swept_of_young {s : State} (h : ∀ t ∈ s.teams, ∀ g ∈ t.2.groups, g.2.clock.toNat < 1024)
    (hm : ∀ p ∈ s.metaLines, p.2.2.wgclk = 1 ∧ s.readersOf (s.placeTower p.1 (64 * p.2.1)) p.2.2 = []) : s.swept 1024 := by
  intro team g k h0 hk p hp
  have hc : (s.clocks team g).group.toNat < 1024 :=
    cellGet_all (P := fun t : Team => ∀ g ∈ t.groups, g.2.clock.toNat < 1024) (by decide) h team |> fun h =>
      cellGet_all (P := fun g : Group => g.clock.toNat < 1024) (by decide) h g
  have hlt : ¬2 ^ 19 ≤ ((s.clocks team g).group + BitVec.ofNat 20 k - 1).toNat := by
    rw [BitVec.toNat_sub, BitVec.toNat_add]
    simp
    omega
  simp only [State.outrun, (hm p hp).1, (hm p hp).2, List.any_nil, Bool.or_false, hlt, decide_false, Bool.and_false]
/-- The race that the handler completes is found again: group 1 has written the element. -/
def met (i : Instr) : State :=
  (tm (completing i 0 [] []) fun t => { t with metas := (wrote1 2).curTeam.metas, hist := (wrote1 2).curTeam.hist }).modCluster 1 fun c => { c with slot := some 3 }
theorem witness_ReturnsFromTraps_raced :
    let st := met (.st .w32 0 10 (own 1))
    let ld := met (.ld .w32 0 10 (own 1))
    let c (s : State) (r w : Bool) : Acc := (mOp (own 1) 4 false).acc s.atRace (s.atRace.laneLayout (own 1).l) 0 r w
    (∀ s ∈ [st, ld], fragment s ∧ s.curTeam.noneHeld ∧ s.frameKind = 13 ∧ s.curGroup.rmode = 3 ∧ s.atRace.lanes 0 = [0] ∧ s.atRace.curAgent.issued = none ∧
      issueReady s.atRace (own 1).l (own 1).slots [0, 1, 2] 4 0 (dataRegs false 10)) ∧
    (∀ s ∈ [st, ld], s.atRace.swept 1024) ∧
    (st.atRace.raceOf (c st false true)).isSome = true ∧ (ld.atRace.raceOf (c ld true false)).isSome = true ∧
      ld.atRace.badAt (c ld true false).place (c ld true false).addr 4 = false ∧
    ∀ s ∈ [st, ld], ∀ i < 4, ((s.atRace.histAt (.shared 1) i).head?.all fun w => w.val == s.atRace.peek (.shared 1) i) = true := by
  intro st ld c
  refine ⟨?_, fun s hs => swept_of_young ?_ ?_, ?_, ?_, ?_, ?_⟩
  · unfold fragment Team.noneHeld issueReady; decide +kernel
  · revert s; decide +kernel
  · revert s; decide +kernel
  all_goals decide +kernel

/-- What tret.complete finds of an access of the agent's own: its checks pass, and no other access meets it. -/
def ownAgain (s : State) (o : Ord) (n : Nat) (spaces : List Nat) (r w : Bool) : Prop :=
  let v := s.atRace
  let m := elem 1 0
  let l := v.laneLayout m.l
  let c := v.ownAcc m o n r w
  v.canIssue = true ∧ v.curAgent.issued = none ∧ mCheck l (v.handleOf m.l) m.slots spaces (fun _ => true) l.size = none ∧ mRegs l m.slots = [] ∧
    v.ownAddr m % n = 0 ∧ v.blockBounds l (v.mCoords l m.slots 0) n = none ∧ v.stopArmed v.cur 2 = false ∧ v.metaLines = [] ∧ v.raceFree c ∧
    v.badAt c.place c.addr c.size = false ∧ ∀ i < c.size, v.histAt c.place (c.addr + i) = []
/-- The races of the agent's own accesses: an image read and written, and a barrier at which the last agent arrives or that an agent awaits. -/
theorem witness_ReturnsFromTraps_own :
    let kld := completing (.kld 2 (elem 1 0)) 0 [] [(0, 0x0F)]
    let kst := completing (.kst 2 (elem 1 0)) 0 [] []
    let arrive := struckAs (agt (duo 2) id).curAgent.k0 false (.pbarArrive 3 (elem 1 0)) 0 [] [(0, 2), (4, 1), (8, 9)]
    let wait := completing (.pbarWait 3 (elem 1 0)) 0 [] [(0, 2), (4, 1), (8, 9)]
    let field (v : State) (j n : Nat) : Nat := bytesWord ((List.range n).map fun b => let q := v.ownSpot (elem 1 0) (j + b); v.peek q.1 q.2)
    (∀ s ∈ [kld, kst, arrive, wait], fragment s ∧ s.curTeam.noneHeld ∧ s.frameKind = 13 ∧ s.curGroup.rmode = 3 ∧ s.atRace.curLaunch.determinate = false) ∧
    kld.instrAt kld.framePc = some (.kld 2 (elem 1 0)) ∧ kst.instrAt kst.framePc = some (.kst 2 (elem 1 0)) ∧
      arrive.instrAt arrive.framePc = some (.pbarArrive 3 (elem 1 0)) ∧ wait.instrAt wait.framePc = some (.pbarWait 3 (elem 1 0)) ∧
    ownAgain kld (ordOf 0) 128 [0, 1, 2] true false ∧ ownAgain kst (ordOf 0) 128 [0, 1, 2] false true ∧ ownAgain arrive ⟨none, some 0, 1⟩ 16 [0] true true ∧
      ownAgain wait ⟨some 0, none, 1⟩ 16 [0] true false ∧
    (bytesWord (kld.atRace.ownBytes (elem 1 0) 128) = 0x0F ∧ 4 ≤ kld.atRace.curTeam.lanesN ∧ 0 < kld.atRace.curTeam.groupsN) ∧
    arrive.atRace.curGroup.sat ≠ 3 ∧ arrive.atRace.fullSet = true ∧
    (∀ s ∈ [arrive, wait], field s.atRace 0 2 = 2 ∧ field s.atRace 4 4 = 1 ∧ field s.atRace 2 2 = 0 ∧ field s.atRace 12 4 = 0 ∧ field s.atRace 8 4 = 9) ∧
      (wait.atRace.sreg 3).toNat % 2 ^ 32 ≠ 9 := by
  unfold fragment Team.noneHeld ownAgain State.raceFree
  intro kld kst arrive wait field
  and_intros <;> decide +kernel

/-- The element of a tile instruction that raced, with the instruction's records and milestone: its checks pass, and no other access meets it. -/
def struckAt (i : Instr) (op e : Nat) (recs : List (Nat × BitVec 256)) : State := completing i (0x80 + (op - 0x140) + e * 2 ^ 40) recs []
def reopens (T : Tile) (s : State) (e : Nat) (recs : List (Nat × BitVec 256)) : Prop :=
  let v := s.atRace
  let ms := s.frameWord 0xC8
  fragment s ∧ s.curTeam.noneHeld ∧ s.frameKind = 13 ∧ s.curGroup.rmode = 3 ∧
    ms % 2 ^ 8 = 0x80 + (T.op - 0x140) ∧ ms / 2 ^ 40 = e ∧ e < T.n ∧ v.curGroup.msRecords = recs ∧
    recs = T.descs.map (fun d => (v.handleOf d.l, (v.curTeam.record T.reader (v.handleOf d.l)).raw)) ∧
    T.check v (recs.map fun p => ⟨p.2⟩) = none ∧ v.regFault T.regs false = none ∧ v.lanes T.k = [0] ∧
    (T.perLane = true → T.bounds v (recs.map fun p => ⟨p.2⟩) 0 0 T.n = none) ∧ v.metaLines = [] ∧ v.badLines = [] ∧ v.curTeam.hist = [] ∧ v.columns = []
theorem witness_ReturnsFromTraps_tiles :
    let two := [rec2 2]
    let seven := [rec2 7]
    let ttr := struckAt (.ttr tf) 0x146 1 [rec2 8, rec2 2]
    reopens (tldTile ef (struckAt (.tld ef) 0x145 1 two).atRace) (struckAt (.tld ef) 0x145 1 two) 1 two ∧
      reopens (tredTile ef (struckAt (.tred ef) 0x147 1 two).atRace) (struckAt (.tred ef) 0x147 1 two) 1 two ∧
      reopens (gatherTile gf (struckAt (.gather gf) 0x143 1 two).atRace) (struckAt (.gather gf) 0x143 1 two) 1 two ∧
      reopens (scatterTile gf (struckAt (.scatter gf) 0x144 1 two).atRace) (struckAt (.scatter gf) 0x144 1 two) 1 two ∧
      reopens (ttrTile tf ttr.atRace) ttr 1 [rec2 8, rec2 2] ∧
      reopens (lldTile lf (struckAt (.lld lf) 0x141 1 seven).atRace) (struckAt (.lld lf) 0x141 1 seven) 1 seven ∧
      reopens (lstTile lf (struckAt (.lst lf) 0x142 1 seven).atRace) (struckAt (.lst lf) 0x142 1 seven) 1 seven := by
  unfold reopens fragment Team.noneHeld
  and_intros <;> decide +kernel

end Sys2Proof.Witness
end

