-- ==== Sys2Proof/Tests/Witness14.lean ====
section
/-! SUPPORT. For the clauses about waiting copies, credit, draining teams and the checks of a closed latch: states and operands that meet their hypotheses. -/

namespace Sys2Proof.Witness

open Sys2Proof Sys2Proof.Machine Sys2Proof.Bench

set_option Elab.async false

/-- An agent that waits with a cpym to its own team, with room and without. -/
def waitsMasked : State :=
  let s := fullRoom (setS str 5 1)
  tm (after s (exec (.cpym (copy 11 12 0 3) 5) s)) fun t => { t with copies := t.copies.filter fun p => p.1 == 32 }
/-- A copy onto its own source, an expand copy without room, and bmwait on a row that cannot be read and on an outcome with a race under a trap mode. -/
theorem witness_CopiesAreAcceptedAndAwaited_edges :
    let same := copy 11 11 0 3
    let ex := copy 11 13 0 3
    let c := str.draftCopy .cpy same 0
    let full := fullRoom (expand 0)
    let d := full.draftCopy .cpyx ex 0
    let acc := full.laneAcc ⟨d.hb, [d.run - 1], 0, Ord.plain, false⟩ (.shared full.cur.team) 0xC00 4 full.agentLane true false
    let bad : State := { str with badLines := [(.shared 1, 24)] }
    let done := after (after cp (exec (.sliceStart 0) cp)) (exec (.chunkLand 1 0 0) (after cp (exec (.sliceStart 0) cp)))
    let n := (done.curTeam.namedCopy 0x300).getD Copy.blank
    let race := grp (tm done fun t => { t with store := [⟨0x300, 0, 0, n.order, ⟨6, false, 0, 77⟩⟩] }) fun g => { g with rmode := 2 }
    (str.copyFaults c same = none ∧ str.copyOverlap c = some (copyFaultOf 5 0)) ∧
    (full.canIssue = true ∧ full.stopArmed full.cur 2 = false ∧ full.copyChecks d ex = none ∧ wordAddr d.bl (d.run - 1) = 0xC00 ∧ full.unopposed acc ∧
      (∀ i < 4, full.histAt acc.place (0xC00 + i) = []) ∧ full.copyRoom full.cur.team = false ∧ bytesWord (full.sees (.shared 1) 0xC00 4) = 127) ∧
    (∀ s ∈ [waitsMasked, fullRoom waitsMasked], (s.agent ⟨1, 0⟩).status = .accept 32 ∧ s.runs 1 = true ∧ cellHas (s.team 1).agents 0 = true ∧
      (s.launch (s.team 1).launch).determinate = false ∧ (s.agent ⟨1, 0⟩).info = none) ∧
      (fullRoom waitsMasked).copyRoom 1 = false ∧ waitsMasked.copyRoom 1 = true ∧ (cellGet Copy.blank (waitsMasked.team 1).copies 32).kind = .cpym ∧
    (bad.canIssue = true ∧ bad.badAt (.shared 1) 0xC00 4 = true ∧ bad.curAgent.issued = none) ∧
    (race.canIssue = true ∧ race.curGroup.rmode = 2 ∧ race.curTeam.namedCopy 0x300 = some n ∧
      ((n.owned 0x300 1).filter fun j => (race.curTeam.outcomeOf n j).code != 0).find? (fun j => (race.curTeam.outcomeOf n j).code == 6) = some 0) := by
  unfold State.unopposed State.raceFree
  intro same ex c full d acc bad done n race
  and_intros <;> decide +kernel

/-- A team drains: its last chunk, and one that another copy of the team follows. -/
def drains (s : State) : State := s.modTeam 1 fun t => { t with status := .draining, groups := t.groups.map fun g => (g.1, { g.2 with live := 0 }) }
def lastChunk : State := drains (cut cp)
def oneOfTwo : State := lastChunk.modTeam 1 fun t => { t with copies := t.copies ++ [(40, { Copy.blank with accepted := true, order := 99 })] }
def chunkOf (s : State) : Copy := cellGet Copy.blank (s.team 1).copies 0
theorem chunk_drains : ∀ s ∈ [lastChunk, oneOfTwo],
    s.requests = [] ∧ s.copyLives 1 0 = true ∧ (chunkOf s).remote = none ∧ 0 < (chunkOf s).started ∧ (chunkOf s).chunks = 1 ∧ (chunkOf s).landed = [] ∧
      s.inOrder 1 (chunkOf s) 0 = true ∧ s.mustWait 1 (chunkOf s) (s.chunkReads 1 (chunkOf s) 0) (s.chunkWrites 1 (chunkOf s) 0) = false ∧
      cellHas (chunkOf s).fetched 0 = false ∧ (s.team 1).status = .draining ∧ (∀ g ∈ (s.team 1).groups, g.2.live = 0) ∧ (chunkOf s).kind = .cpy := by decide +kernel
theorem chunk_spots : ∀ s ∈ [lastChunk, oneOfTwo], s.srcSpots 1 (chunkOf s) 0 (srcL s) ∧ s.dstSpots 1 1 (chunkOf s) 0 (dstL s) := by
  unfold State.srcSpots State.dstSpots; decide +kernel
theorem chunk_reads : ∀ s ∈ [lastChunk, oneOfTwo], s.readsFreely 1 0 (chunkOf s) (srcL s)
    ((chunkOf s).view ||| s.overlapView 1 (chunkOf s) (s.chunkReads 1 (chunkOf s) 0) []) := by
  unfold State.readsFreely State.raceFree; decide +kernel
theorem chunk_writes : ∀ s ∈ [lastChunk, oneOfTwo], writesFresh s 1 0 (chunkOf s) 0 (dstL s) [1] (s.landView 1 1 (chunkOf s) 0) := by
  unfold writesFresh State.raceFree; decide +kernel

/-- A queue visited whose credit is spent; the last chunk of a draining team, and one that another copy of the team follows. -/
theorem witness_EnginesMoveBytes_edges :
    let spent := cp.modCore 0 fun k => { k with paid := true, deficits := [] }
    let size (s : State) (r : Nat × Nat) : Nat := let x := s.copyOf r
                                                  min (512 * x.started + 2048) x.tileBytes - 512 * x.started
    ((spent.core 0).visit = 3 ∧ (spent.core 0).paid = true ∧ spent.queueOf 0 3 = [(1, 0)] ∧ cellGet 0 (spent.core 0).deficits 3 < size spent (1, 0) ∧
      ∀ i < 4, 1 ≤ i → spent.queueOf 0 ((3 + 4 - i) % 4) = []) ∧
    (∀ s ∈ [lastChunk, oneOfTwo], let c := chunkOf s
      let view := c.view ||| s.overlapView 1 c (s.chunkReads 1 c 0) []
      s.chunkTurn 1 0 0 ∧ (s.team 1).status = .draining ∧ (∀ g ∈ (s.team 1).groups, g.2.live = 0) ∧ c.kind = .cpy ∧ s.srcSpots 1 c 0 (srcL s) ∧
        s.dstSpots 1 1 c 0 (dstL s) ∧ s.readsFreely 1 0 c (srcL s) view ∧ s.writesFreely 1 0 c 0 (dstL s) [1] (s.landView 1 1 c 0)) ∧
    (∀ p ∈ (lastChunk.team 1).ownCopies, p.1 = 0) ∧ ¬∀ p ∈ (oneOfTwo.team 1).ownCopies, p.1 = 0 := by
  refine ⟨by decide +kernel, fun s hs => ?_, by decide +kernel, by decide +kernel⟩
  obtain ⟨hq, h1, h2, h3, h4, h5, h6, h7, h8, h9, h10, h11⟩ := chunk_drains s hs
  refine ⟨⟨h1, h2, h3, ?_, ?_, h6, ?_, h8, ?_⟩, h9, h10, h11, (chunk_spots s hs).1, (chunk_spots s hs).2, chunk_reads s hs,
    writesFreely_of_fresh (chunk_writes s hs)⟩
  · exact h4.symm ▸ Nat.one_pos
  · exact h5.symm ▸ List.not_mem_nil
  · have h11' : (cellGet Copy.blank (s.team 1).copies 0).kind = .cpy := h11
    simpa [h11', chunkOf] using h7
  · simp [State.requestsOf, hq]

/-- A closed latch whose record is wrong, one with a register that no fence has passed, one with a register that a command pends, and one with its id in use. -/
theorem witness_MatrixCommandsIssue_latch :
    let g := (latched.curTeam.latchOf half).get (by decide +kernel)
    let l : Latch := { g with arrived := g.arrived ++ [(1, 5, 2)] }
    let wrong := tm latched fun t => { t with layouts := [] }
    let behind := tm latched fun t => t.modGroup 1 fun g => { g with unfenced := 2 ^ 6 }
    let pended := tm latched fun t => { t with cmds := [{ cmd0 with leader := 0, id := 9, gang := half, ranges := [(0, 5, 40), (1, 5, 40)], n := 2 }] }
    let used := tm latched fun t => { t with cmds := [{ cmd0 with leader := 0, id := l.args.id, gang := half, ranges := [(0, 100, 200), (1, 100, 200)], n := 2 }] }
    (wrong.latchRecordFaults l).isSome = true ∧ (∀ s ∈ [latched, behind, pended, used], s.latchRecordFaults l = none) ∧
    (∃ m r, behind.unfencedIn l m r) ∧ (∀ s ∈ [latched, pended, used], ∀ m r, ¬s.unfencedIn l m r) ∧ (∃ m r id, pended.pendingIn l m r id) ∧
    (∀ s ∈ [latched, used], ∀ m r id, ¬s.pendingIn l m r id) ∧
    ∃ c ∈ used.curTeam.cmds, l.leader ∈ c.gang.slots ∧ c.id = l.args.id ∧ c.leader = l.leader := by
  intro g l wrong behind pended used
  have ha : l.arrived.map (·.1) = [0, 1] := by decide +kernel
  refine ⟨by decide +kernel, by decide +kernel, ⟨(1, 5, 2), 6, ?_⟩, ?_, ⟨(0, (l.arrived.headD (0, 0, 0)).2), 5, 9, ?_⟩, ?_, by decide +kernel⟩
  · unfold State.unfencedIn; decide +kernel
  · rintro s hs m r ⟨hm, -, -, hu⟩
    have : ∀ s ∈ [latched, pended, used], ∀ m ∈ l.arrived, (s.curTeam.group m.1).unfenced = 0 := by decide +kernel
    rw [this s hs m hm] at hu
    simp at hu
  · unfold State.pendingIn; decide +kernel
  · rintro s hs m r id ⟨hm, hn, c, hc, -, -, hr, -⟩
    have : ∀ s ∈ [latched, used], ∀ m ∈ l.arrived, ∀ c ∈ s.curTeam.cmds, ∀ r ∈ c.regsOf m.1, l.names m r = false := by decide +kernel
    rw [this s hs m hm c hc r hr] at hn
    cases hn

end Sys2Proof.Witness
end

