-- ==== Sys2Proof/Tests/Witness2.lean ====
section
/-! SUPPORT. For the statements about regions, rendezvous, exits, waits and the spill stack: states and operands that meet their hypotheses, one set for
each clause. -/

namespace Sys2Proof.Witness

open Sys2Proof Sys2Proof.Machine Sys2Proof.Bench

set_option Elab.async false

/-- A target without a continuation and one with; an empty set; a full stack; a wide set with the last entry set taken; and sets for each half of
apply2: overlapping, both empty, one empty, both with members. -/
theorem witness_LocalRegionsOpen :
    let full := agt blk fun x => { x with stack := List.replicate 1032 ⟨0, 0, 1, 0, 0⟩ }
    let wide (n : Nat) : State := agt (tm blk2 fun t => { t with regions := [(0, { Region.blank with handles := List.range n })] }) fun x =>
      { x with lanes := BitVec.ofNat 1024 (2 ^ 64 - 1) }
    blk.canIssue = true ∧ (((blk.curAgent.pc : Int) + (2 : BitVec 16).toInt) % 2 ^ 32).toNat = 3 ∧
      (((blk.curAgent.pc : Int) + (4 : BitVec 15).toInt) % 2 ^ 32).toNat = 5 ∧
    blk.contOf blk.curTeam 7 = none ∧ blk.contOf blk.curTeam 2 = none ∧ blk.contOf blk.curTeam 3 = some 7 ∧ blk.contOf blk.curTeam 5 = some 7 ∧
      blk.contOf blk.curTeam 7 ≠ some 7 ∧
    blk.members 3 = 0 ∧ blk.members 1 ≠ 0 ∧ blk.swdOf blk.cur + 1 ≤ 1032 ∧ (groupsOf (blk.members 1)).length ≤ 1 ∧
    full.canIssue = true ∧ full.contOf full.curTeam 3 = some 7 ∧ full.members 1 ≠ 0 ∧ 1032 < full.swdOf full.cur + 1 ∧
    (wide 16).canIssue = true ∧ (wide 16).contOf (wide 16).curTeam 3 = some 7 ∧ (wide 16).swdOf (wide 16).cur + 1 ≤ 1032 ∧
      1 < (groupsOf ((wide 16).members 4)).length ∧ 16 < (wide 16).curTeam.entrySets + 1 ∧ (wide 15).curTeam.entrySets + 1 ≤ 16 ∧
    blk.kset 1 &&& blk.kset 0 ≠ 0 ∧ blk.kset 3 = 0 ∧ blk.kset 5 = 0 ∧ blk.kset 1 &&& blk.kset 2 = 0 ∧ blk.kset 2 ≠ 0 ∧
      (blk.kset 1 ||| blk.kset 2) &&& ~~~blk.curAgent.lanes = 0 ∧ blk.swdOf blk.cur + 2 ≤ 1032 ∧ blk.curTeam.entrySets ≤ 16 := by decide +kernel
/-- No region; a reserved entry kind; a trap fragment of the region pending; a kind-1 entry; a pending half with members, and one without. -/
theorem witness_JoinLeavesRegion :
    let st (l : List Switch) : State := agt blk fun x => { x with stack := l }
    let one : Switch := ⟨localDesc 0 0xF, 7, 1, 0, 0⟩
    let half : Switch := ⟨localDesc 0 0xC, 5, 3, 0, 0⟩
    let gone : Switch := ⟨localDesc 1 0xC, 5, 3, 0, 0⟩
    let trap := tm (st [one]) fun t => { t with agents := t.agents ++ [(32, { placedAgent with kind := .trap 0 1, status := .pending })] }
    blk.curAgent.stack = [] ∧ blk.curAgent.kind = .group ∧ (st [⟨0, 0, 4, 0, 0⟩]).canIssue = true ∧
    trap.canIssue = true ∧ trap.reissues = false ∧ trap.curTeam.traps trap.cur.agent ([] : List Switch).length.succ ≠ [] ∧
    (st [one]).reissues = false ∧ (st [one]).curTeam.traps (st [one]).cur.agent 1 = [] ∧
    handlesApart half.set (st [half, one]).curAgent.k0 ∧ (st [half, one]).curTeam.resolve half.set &&& (st [half, one]).curAgent.lanes ≠ 0 ∧
      (st [half, one]).curTeam.traps 0 2 = [] ∧
    handlesApart gone.set (st [gone, one]).curAgent.k0 ∧ (st [gone, one]).curTeam.resolve gone.set &&& (st [gone, one]).curAgent.lanes = 0 := by
  unfold handlesApart; decide +kernel

/-- A saturated group; a partial set; another rendezvous open; the first arrival of two groups; the last arrival of one group, and of two. -/
theorem witness_TeamRendezvous :
    let sat := grp two fun g => { g with sat := 3 }
    let part := agt two fun x => { x with k0 := localDesc 0 3 }
    let open_ (k : RdvKind) : State := agt (tm two fun t => { t with rdvs := [⟨k, 1, 0, 0, localDesc 1 (2 ^ 32 - 1), 0, 1, 0, [(1, 0)]⟩] }) id
    let same (s : State) (k : RdvKind) (r : Rdv) : Bool := r.kind == k && r.pc == s.curAgent.pc
    let r (s : State) (k : RdvKind) : Rdv := s.arrival ⟨k, 1, 0, 0, s.curAgent.k0, 0, 1, 0, []⟩ (same s k) 0
    (1 : KReg) ≠ 0 ∧ sat.canIssue = true ∧ sat.curGroup.sat = 3 ∧ part.canIssue = true ∧ part.fullSet = false ∧ part.curGroup.sat ≠ 3 ∧
    two.fullSet = true ∧ two.curGroup.sat ≠ 3 ∧ two.oneCore = true ∧ (open_ .gather).fullSet = true ∧
      ((open_ .gather).rdvFault (same two .bar) false).isSome = true ∧ ((open_ .bar).rdvFault (same two .gather) false).isSome = true ∧
    two.rdvFault (same two .bar) false = none ∧ two.curTeam.complete (r two .bar) = false ∧ two.rdvFault (same two .cbar) false = none ∧
      two.curTeam.complete (r two .cbar) = false ∧ two.rdvFault (same two .gather) false = none ∧ two.curTeam.complete (r two .gather) = false ∧
    (∀ k ∈ [RdvKind.bar, .cbar, .gather], (open_ k).rdvFault (same two k) false = none ∧ (open_ k).curTeam.complete (r (open_ k) k) = true ∧
      ((r (open_ k) k).arrived.map (·.1)).Nodup ∧ (∀ p ∈ (r (open_ k) k).arrived, cellHas (open_ k).curTeam.agents p.1 = true ∧
        ((open_ k).curTeam.agent p.1).info = none) ∧ (open_ k).fullSet = true ∧ (open_ k).oneCore = true) := by decide +kernel
/-- apply.t over a set of both groups and the team apply2: another rendezvous open; the first arrival; the last one, with a slot and entry sets left. -/
theorem witness_TeamRegionsOpen :
    let kt := blk2.kset 4
    let same (r : Rdv) : Bool := r.kind == .applyT && r.pc == 1 && (r.setA &&& blk2.curTeam.liveSet) == kt
    let new : Rdv := ⟨.applyT, 1, kt, 0, teamDesc 2 7, 1, 3, 0, []⟩
    let last := tm blk2 fun t => { t with rdvs := [{ new with arrived := [(1, 0)] }] }
    let r := last.arrival new same 0
    let same2 (r : Rdv) : Bool := r.kind == .apply2 && r.pc == 1 && (r.setA &&& blk2.curTeam.liveSet) == blk2.kset 1 && (r.setB &&& blk2.curTeam.liveSet) == blk2.kset 2
    let new2 : Rdv := ⟨.apply2, 1, blk2.kset 1, blk2.kset 2, localDesc 0 3, 0, 3, 5, []⟩
    let last2 := tm blk2 fun t => { t with rdvs := [{ new2 with arrived := [(1, 0)] }] }
    let r2 := last2.arrival new2 same2 0
    let free (s : State) (r : Rdv) (n : Nat) : Bool := s.curTeam.freeSlot != 16 && decide (s.curTeam.entrySets + n ≤ 16) && r.arrived.all fun p =>
      (s.curTeam.pendingOn (s.curTeam.agent p.1).host (List.range 256)).isNone
    blk2.canIssue = true ∧ blk2.curTeam.agentsOk = true ∧ blk2.contOf blk2.curTeam 3 = some 7 ∧ blk2.contOf blk2.curTeam 5 = some 7 ∧
      blk2.swdOf blk2.cur + 1 ≤ 1032 ∧ blk2.members 4 ≠ 0 ∧
    (last2.rdvFault same false).isSome = true ∧ (last.rdvFault same2 false).isSome = true ∧
    blk2.rdvFault same false = none ∧ blk2.curTeam.complete (blk2.arrival new same 0) = false ∧
    blk2.rdvFault same2 false = none ∧ blk2.curTeam.complete (blk2.arrival new2 same2 0) = false ∧
    last.canIssue = true ∧ last.curTeam.agentsOk = true ∧ last.contOf last.curTeam 3 = some 7 ∧ last.rdvFault same false = none ∧
      last.curTeam.complete r = true ∧ r.blockA = 3 ∧ (r.arrived.map (·.1)).Nodup ∧
      (∀ p ∈ r.arrived, cellHas last.curTeam.agents p.1 = true ∧ (last.curTeam.agent p.1).info = none) ∧ free last r 1 = true ∧
    blk2.kset 1 &&& blk2.kset 2 = 0 ∧ (blk2.kset 1 ||| blk2.kset 2) &&& blk2.curAgent.lanes ≠ 0 ∧
      (blk2.kset 1 ||| blk2.kset 2) &&& ~~~blk2.curAgent.lanes ≠ 0 ∧
    last2.rdvFault same2 false = none ∧ last2.curTeam.complete r2 = true ∧ r2.blockA = 3 ∧ r2.blockB = 5 ∧ (r2.arrived.map (·.1)).Nodup ∧
      (∀ p ∈ r2.arrived, cellHas last2.curTeam.agents p.1 = true ∧ (last2.curTeam.agent p.1).info = none) ∧ free last2 r2 2 = true ∧
      blk2.kset 1 ≠ 0 ∧ blk2.kset 2 ≠ 0 := by decide +kernel
/-- A cluster of two cores with two groups live, one group still to come, and with none. -/
theorem witness_ClusterRendezvous :
    let two' := two.modCluster two.curTeam.cluster fun c => { c with w := 2, h := 1 }
    let last := two'.modCluster two.curTeam.cluster fun c => { c with arrived := [(two.cur.team, 1, 0)], rdv := some ⟨.cbar, 1, 0, 0, 0, 0, 0, 0, []⟩ }
    let covered (s : State) : Bool := let all := (s.cluster s.curTeam.cluster).arrived ++ [(s.cur.team, s.cur.agent, s.tick)]
      (s.cluster s.curTeam.cluster).teams.all fun t =>
        ((s.team t).liveSet &&& ~~~(all.foldl (fun (l : LaneSet) p => if p.1 = t then l ||| ((s.team t).agent p.2.1).lanes else l) 0)) == 0
    (∀ s ∈ [two', last], s.canIssue = true ∧ s.oneCore = false ∧ s.curGroup.sat ≠ 3 ∧ s.fullSet = true ∧
      s.rdvFault (fun r => r.kind == .cbar && r.pc == s.curAgent.pc) true = none) ∧
    covered two' = false ∧ covered last = true ∧
      (((last.cluster last.curTeam.cluster).arrived ++ [(last.cur.team, last.cur.agent, last.tick)]).map fun p => (p.1, p.2.1)).Nodup ∧
      ∀ p ∈ (last.cluster last.curTeam.cluster).arrived ++ [(last.cur.team, last.cur.agent, last.tick)],
        cellHas (last.team p.1).agents p.2.1 = true ∧ ((last.team p.1).agent p.2.1).info = none := by decide +kernel
/-- An empty set; a group that would end with a stopped command, with a completed one, and with none; lanes 0 and 1 of a group that goes on. -/
theorem witness_ExitEndsLanes :
    let cmd (c : Cmd) : State := tm blk fun t => { t with cmds := [c] }
    let stopped := cmd { cmd0 with state := .stopped, fault := some (2, 0) }
    let done := cmd { cmd0 with state := .complete }
    blk.canIssue = true ∧ blk.members 3 = 0 ∧
    ((stopped.curTeam.ending (stopped.members 0)).findSome? stopped.curTeam.stoppedFor).isSome = true ∧
    (done.curTeam.ending (done.members 0)).findSome? done.curTeam.stoppedFor = none ∧ done.curTeam.ending (done.members 0) ≠ [] ∧
      (∀ g ∈ done.curTeam.ending (done.members 0), ∀ c ∈ done.curTeam.unwaited g, c.state = .complete) ∧
    blk.members 1 ≠ 0 ∧ blk.curTeam.ending (blk.members 1) = [] ∧ blk.curTeam.rdvs = [] ∧ (blk.cluster blk.curTeam.cluster).rdv = none ∧
      blk.reissues = false ∧ blk.curTeam.k0Set blk.cur.agent &&& blk.curAgent.lanes &&& ~~~(blk.members 1) ≠ 0 := by decide +kernel
/-- No watch; a hit; waits that have and have not passed, in ticks and in commits; the first issue. -/
theorem witness_AwaitAnswers :
    let w (hit : Bool) (st : Status) (s : State) : State := agt s fun x => { x with watch := some ⟨[(.main, 1)], hit⟩, status := st }
    let wait := w false (.await 10 2) { at_ 0x0600030000000064 with schedule := [], tick := 110 }
    let det := w false (.await 10 2) (lch s0 fun l => { l with determinate := true, commits := 101 })
    s0.canIssue = true ∧ s0.curAgent.info = none ∧ s0.curAgent.watch = none ∧ (w true .ready s0).curAgent.watch = some ⟨[(.main, 1)], true⟩ ∧
    wait.canIssue = true ∧ wait.curAgent.info = none ∧ wait.curAgent.watch = some ⟨[(.main, 1)], false⟩ ∧ wait.curAgent.status = .await 10 2 ∧
      (100 : BitVec 31) ≠ 0 ∧ (100 : BitVec 31).toNat ≤ wait.tick - 10 ∧ wait.curLaunch.determinate = false ∧
      (wait.wordAt wait.cur wait.curAgent.pc).toNat = wC 0x00C 0 (6 : SReg).toNat 0 (100 : BitVec 31).toNat ∧ wait.tick - 10 < (101 : BitVec 31).toNat ∧
    det.curLaunch.determinate = true ∧ det.curAgent.status = .await 10 2 ∧ (99 : BitVec 31).toNat ≤ det.curLaunch.commits - 2 ∧
      det.curLaunch.commits - 2 < (100 : BitVec 31).toNat ∧
    (w false .ready s0).curAgent.status = .ready ∧ (w false .ready s0).curAgent.watch = some ⟨[(.main, 1)], false⟩ := by decide +kernel
/-- A push one byte short of room and one with just enough, of each kind. -/
theorem witness_PushStoresRegisters :
    let sp (n : BitVec 16) : State := grp s0 fun g => { g with sp := n }
    (∀ k ∈ [RegKind.vector, .scalar, .set], pushPopOk false k 0 16 = true ∧ s0.canIssue = true ∧ s0.regFault (stackRegs k 0 16) false = none) ∧
      pushPopOk false .vector 240 16 = true ∧ s0.regFault (stackRegs .vector 240 16) false = none ∧
    (sp (0x8400 + 2047)).sp < 0x8400 + 128 * 16 ∧ 0x8400 + 128 * 16 ≤ (sp (0x8400 + 2048)).sp ∧ 0x8400 + 8 * 16 ≤ (sp (0x8400 + 128)).sp ∧
      (sp 0x8400).canIssue = true := by decide +kernel
/-- A pop one byte beyond the stack and one up to its end, of each kind; registers of sets that do not share handles. -/
theorem witness_PopLoadsRegisters :
    let sp (n : BitVec 16) : State := grp s0 fun g => { g with sp := n }
    (∀ k ∈ [RegKind.vector, .scalar, .set], pushPopOk true k 1 15 = true ∧ s0.canIssue = true ∧ s0.regFault (stackRegs k 1 15) false = none) ∧
    0xC000 < (sp (0xC000 - 1919)).sp + 128 * 15 ∧ (sp (0xC000 - 1920)).sp + 128 * 15 ≤ 0xC000 ∧ (sp (0xC000 - 120)).sp + 8 * 15 ≤ 0xC000 := by decide +kernel

end Sys2Proof.Witness
end

