-- ==== Sys2Proof/Proofs/Formats.lean ====
section
/-! SUPPORT. The formats of code words and the fields of operands: what a composed word reads as, and a word composed again of what is read in it (02 R19 to R28). -/

namespace Sys2Proof.Encoding
open Sys2Proof

/-! ### The formats: the fields of a composed word, and a word composed of its fields (02 R20 to R28) -/

/-- What lies below bit `n` of a word. -/
def below (w n : Nat) : Nat := w % 2 ^ n

theorem below_add (w lo n : Nat) : below w (lo + n) = fld w lo n * 2 ^ lo + below w lo := by
  unfold below fld
  rw [Nat.pow_add, Nat.mod_mul]
  ring
theorem below_zero (w : Nat) : below w 0 = 0 := Nat.mod_one w
theorem below_of_lt {w : Nat} (hw : w < 2 ^ 64) : below w 64 = w := Nat.mod_eq_of_lt hw

section Formats
variable {w op k la d a b c rm ty bs cs sub imm : Nat}

theorem fields_of_wV3 (h : wV3 op k la d a b c rm ty bs cs sub = w) (hop : op < 512) (hk : k < 16) (hla : la < 16) (hd : d < 256)
    (ha : a < 256) (hb : b < 256) (hc : c < 256) (hrm : rm < 4) (hty : ty < 32) (hbs : bs < 2) (hcs : cs < 2) (hsub : sub < 32) :
    w < 2 ^ 64 ∧ fOp w = op ∧ fld w 51 4 = k ∧ fld w 47 4 = la ∧ fI w = 0 ∧ fD w = d ∧ fA w = a ∧ fB w = b ∧ fC w = c ∧ fRm w = rm ∧
      fTy w = ty ∧ fBs w = bs ∧ fCs w = cs ∧ fSub w = sub := by
  subst h
  unfold wV3 wHead fOp fI fD fA fB fC fRm fTy fBs fCs fSub fld
  refine ⟨?_, ?_, ?_, ?_, ?_, ?_, ?_, ?_, ?_, ?_, ?_, ?_, ?_, ?_⟩ <;> omega

theorem wV3_of_fields (hw : w < 2 ^ 64) (hI : fI w = 0) :
    wV3 (fOp w) (fld w 51 4) (fld w 47 4) (fD w) (fA w) (fB w) (fC w) (fRm w) (fTy w) (fBs w) (fCs w) (fSub w) = w := by
  unfold wV3 wHead fOp fD fA fB fC fRm fTy fBs fCs fSub
  unfold fI at hI
  linarith [below_add w 0 5, below_add w 5 1, below_add w 6 1, below_add w 7 5, below_add w 12 2, below_add w 14 8, below_add w 22 8, below_add w 30 8, below_add w 38 8, below_add w 46 1, below_add w 47 4, below_add w 51 4, below_add w 55 9, below_zero w, below_of_lt hw]

theorem fields_of_wVI (h : wVI op k la d a rm imm = w) (hop : op < 512) (hk : k < 16) (hla : la < 16) (hd : d < 256)
    (ha : a < 256) (hrm : rm < 4) (himm : imm < 2 ^ 28) :
    w < 2 ^ 64 ∧ fOp w = op ∧ fld w 51 4 = k ∧ fld w 47 4 = la ∧ fI w = 1 ∧ fD w = d ∧ fA w = a ∧ fImRm w = rm ∧ fld w 0 28 = imm := by
  subst h
  unfold wVI wHead fOp fI fD fA fImRm fld
  refine ⟨?_, ?_, ?_, ?_, ?_, ?_, ?_, ?_, ?_⟩ <;> omega

theorem wVI_of_fields (hw : w < 2 ^ 64) (hI : fI w = 1) :
    wVI (fOp w) (fld w 51 4) (fld w 47 4) (fD w) (fA w) (fImRm w) (fld w 0 28) = w := by
  unfold wVI wHead fOp fD fA fImRm
  unfold fI at hI
  linarith [below_add w 0 28, below_add w 28 2, below_add w 30 8, below_add w 38 8, below_add w 46 1, below_add w 47 4, below_add w 51 4, below_add w 55 9, below_zero w, below_of_lt hw]

theorem fields_of_wC (h : wC op k a b imm = w) (hop : op < 512) (hk : k < 16) (ha : a < 256) (hb : b < 256) (himm : imm < 2 ^ 31) :
    w < 2 ^ 64 ∧ fOp w = op ∧ fld w 51 4 = k ∧ fld w 47 4 = 0 ∧ fCa w = a ∧ fCb w = b ∧ fCi w = imm := by
  subst h
  unfold wC wHead fOp fCa fCb fCi fld
  refine ⟨?_, ?_, ?_, ?_, ?_, ?_, ?_⟩ <;> omega

theorem wC_of_fields (hw : w < 2 ^ 64) (hla : fld w 47 4 = 0) : wC (fOp w) (fld w 51 4) (fCa w) (fCb w) (fCi w) = w := by
  unfold wC wHead fOp fCa fCb fCi
  linarith [below_add w 0 31, below_add w 31 8, below_add w 39 8, below_add w 47 4, below_add w 51 4, below_add w 55 9, below_zero w, below_of_lt hw]

theorem fields_of_wB {hint s ka kb off0 off1 : Nat} (h : wB op hint s ka kb off0 off1 = w) (hop : op < 512) (hh : hint < 4) (hs : s < 64)
    (hka : ka < 16) (hkb : kb < 16) (h0 : off0 < 2 ^ 16) (h1 : off1 < 2 ^ 15) :
    w < 2 ^ 64 ∧ fOp w = op ∧ fld w 51 4 = 0 ∧ fld w 47 4 = 0 ∧ fld w 45 2 = hint ∧ bS w = s ∧ bKa w = ka ∧ bKb w = kb ∧
      fld w 15 16 = off0 ∧ fld w 0 15 = off1 := by
  subst h
  unfold wB wHead fOp bS bKa bKb fld
  refine ⟨?_, ?_, ?_, ?_, ?_, ?_, ?_, ?_, ?_, ?_⟩ <;> omega

theorem wB_of_fields (hw : w < 2 ^ 64) (hk : fld w 51 4 = 0) (hla : fld w 47 4 = 0) :
    wB (fOp w) (fld w 45 2) (bS w) (bKa w) (bKb w) (fld w 15 16) (fld w 0 15) = w := by
  unfold wB wHead fOp bS bKa bKb
  linarith [below_add w 0 15, below_add w 15 16, below_add w 31 4, below_add w 35 4, below_add w 39 6, below_add w 45 2, below_add w 47 4, below_add w 51 4, below_add w 55 9, below_zero w, below_of_lt hw]

theorem fields_of_wM {l os c0 c1 c2 : Nat} (h : wM op k la d l os c0 c1 c2 = w) (hop : op < 512) (hk : k < 16) (hla : la < 16) (hd : d < 256)
    (hl : l < 256) (hos : os < 16) (h0 : c0 < 512) (h1 : c1 < 512) (h2 : c2 < 512) :
    w < 2 ^ 64 ∧ fOp w = op ∧ fld w 51 4 = k ∧ fld w 47 4 = la ∧ fCa w = d ∧ fCb w = l ∧ fld w 27 4 = os ∧ fld w 18 9 = c0 ∧ fld w 9 9 = c1 ∧
      fld w 0 9 = c2 := by
  subst h
  unfold wM wHead fOp fCa fCb fld
  refine ⟨?_, ?_, ?_, ?_, ?_, ?_, ?_, ?_, ?_, ?_⟩ <;> omega

theorem wM_of_fields (hw : w < 2 ^ 64) :
    wM (fOp w) (fld w 51 4) (fld w 47 4) (fCa w) (fCb w) (fld w 27 4) (fld w 18 9) (fld w 9 9) (fld w 0 9) = w := by
  unfold wM wHead fOp fCa fCb
  linarith [below_add w 0 9, below_add w 9 9, below_add w 18 9, below_add w 27 4, below_add w 31 8, below_add w 39 8, below_add w 47 4, below_add w 51 4, below_add w 55 9, below_zero w, below_of_lt hw]

theorem fields_of_wX {e f g id cls n : Nat} (h : wX op k la d e f g id cls n = w) (hop : op < 512) (hk : k < 16) (hla : la < 16) (hd : d < 256)
    (he : e < 256) (hf : f < 128) (hg : g < 128) (hid : id < 64) (hcls : cls < 4) (hn : n < 512) :
    w < 2 ^ 64 ∧ fOp w = op ∧ fld w 51 4 = k ∧ fld w 47 4 = la ∧ fCa w = d ∧ fCb w = e ∧ xf w = f ∧ xg w = g ∧ xid w = id ∧ xcls w = cls ∧
      xn w = n := by
  subst h
  unfold wX wHead fOp fCa fCb xf xg xid xcls xn fld
  refine ⟨?_, ?_, ?_, ?_, ?_, ?_, ?_, ?_, ?_, ?_, ?_⟩ <;> omega

theorem wX_of_fields (hw : w < 2 ^ 64) :
    wX (fOp w) (fld w 51 4) (fld w 47 4) (fCa w) (fCb w) (xf w) (xg w) (xid w) (xcls w) (xn w) = w := by
  unfold wX wHead fOp fCa fCb xf xg xid xcls xn
  linarith [below_add w 0 9, below_add w 9 2, below_add w 11 6, below_add w 17 7, below_add w 24 7, below_add w 31 8, below_add w 39 8, below_add w 47 4, below_add w 51 4, below_add w 55 9, below_zero w, below_of_lt hw]

/-- The two descriptors of an extension word (R28). -/
theorem extension_of_descriptors (hw : w < 2 ^ 64) : xD0 w * 2 ^ 32 + xD1 w = w := by
  unfold xD0 xD1 fld
  omega
end Formats

/-! ### Numbers of fields -/

theorem fld_lt (w lo n : Nat) : fld w lo n < 2 ^ n := Nat.mod_lt _ (by positivity)
theorem fD_lt (w : Nat) : fD w < 256 := fld_lt w 38 8
theorem fA_lt (w : Nat) : fA w < 256 := fld_lt w 30 8
theorem fB_lt (w : Nat) : fB w < 256 := fld_lt w 22 8
theorem fC_lt (w : Nat) : fC w < 256 := fld_lt w 14 8
theorem fCa_lt (w : Nat) : fCa w < 256 := fld_lt w 39 8
theorem fCb_lt (w : Nat) : fCb w < 256 := fld_lt w 31 8
theorem fBs_lt (w : Nat) : fBs w < 2 := fld_lt w 6 1
theorem fCs_lt (w : Nat) : fCs w < 2 := fld_lt w 5 1

/-- A field read into a bit vector of its width has its own number. -/
@[simp] theorem toNat_ofNat_fld (w lo n : Nat) : (BitVec.ofNat n (fld w lo n)).toNat = fld w lo n := by
  rw [BitVec.toNat_ofNat, Nat.mod_eq_of_lt (fld_lt w lo n)]

@[simp] theorem vreg_toNat (r : VReg) : vreg r.toNat = r := BitVec.ofNat_toNat ..  |>.trans (BitVec.setWidth_eq r)
@[simp] theorem sreg_toNat (r : SReg) : sreg r.toNat = r := BitVec.ofNat_toNat ..  |>.trans (BitVec.setWidth_eq r)
@[simp] theorem kreg_toNat (r : KReg) : kreg r.toNat = r := BitVec.ofNat_toNat ..  |>.trans (BitVec.setWidth_eq r)

theorem toNat_vreg {n : Nat} (h : n < 256) : (vreg n).toNat = n := by rw [vreg, BitVec.toNat_ofNat, Nat.mod_eq_of_lt h]
theorem toNat_sreg {n : Nat} (h : n < 64) : (sreg n).toNat = n := by rw [sreg, BitVec.toNat_ofNat, Nat.mod_eq_of_lt h]
theorem toNat_kreg {n : Nat} (h : n < 16) : (kreg n).toNat = n := by rw [kreg, BitVec.toNat_ofNat, Nat.mod_eq_of_lt h]

/-! ### Operand fields: each is the code of what it is read as, and the code of an operand reads back -/

theorem regSrc_num_lt : ∀ b : RegSrc, b.num < 256
  | .v r => r.isLt
  | .s r => r.isLt.trans (by decide)
theorem regSrc_bit_lt : ∀ b : RegSrc, b.bit < 2
  | .v _ => Nat.zero_lt_two
  | .s _ => Nat.one_lt_two
@[simp] theorem v3Src_num_bit : ∀ b : RegSrc, v3Src b.num b.bit = (true, b)
  | .v r => by simp [v3Src, RegSrc.num, RegSrc.bit]
  | .s r => by simp [v3Src, RegSrc.num, RegSrc.bit, r.isLt]
theorem num_bit_of_v3Src {r bit : Nat} (hr : r < 256) (hbit : bit < 2) (h : (v3Src r bit).1 = true) :
    (v3Src r bit).2.num = r ∧ (v3Src r bit).2.bit = bit := by
  obtain rfl | rfl : bit = 0 ∨ bit = 1 := by omega
  · exact ⟨toNat_vreg hr, rfl⟩
  · exact ⟨toNat_sreg (of_decide_eq_true h), rfl⟩

theorem layout_code_lt : ∀ l : LayoutRef, l.code < 256
  | .handle h => by have := h.isLt; simp only [LayoutRef.code]; omega
  | .s r => by have := r.isLt; simp only [LayoutRef.code]; omega
@[simp] theorem layoutOf_code : ∀ l : LayoutRef, layoutOf l.code = (true, l)
  | .handle h => by simp [layoutOf, LayoutRef.code, h.isLt]
  | .s r => by
    have h128 : (128 + r.toNat) % 128 = r.toNat := by omega
    have h64 : (128 + r.toNat) % 64 = r.toNat := by omega
    simp [layoutOf, LayoutRef.code, h128, h64, r.isLt]
theorem code_of_layoutOf {n : Nat} (hn : n < 256) (h : (layoutOf n).1 = true) : (layoutOf n).2.code = n := by
  unfold layoutOf at h ⊢
  split at h
  case isTrue hl => simp [LayoutRef.code, hl, Nat.mod_eq_of_lt hl]
  case isFalse hl =>
    have := of_decide_eq_true h
    simp only [hl, if_false, LayoutRef.code, BitVec.toNat_ofNat]
    omega

theorem mslot_code_lt : ∀ c : MSlot, c.code < 512
  | .v r => by have := r.isLt; simp only [MSlot.code]; omega
  | .s r => by have := r.isLt; simp only [MSlot.code]; omega
  | .lit n => by have := n.isLt; simp only [MSlot.code]; omega
@[simp] theorem mslotOf_code : ∀ c : MSlot, mslotOf c.code = (true, c)
  | .v r => by simp [mslotOf, MSlot.code, r.isLt]
  | .s r => by
    have h384 : 256 + r.toNat < 384 := by omega
    have h128 : (256 + r.toNat) % 128 = r.toNat := by omega
    have h64 : (256 + r.toNat) % 64 = r.toNat := by omega
    simp [mslotOf, MSlot.code, h384, h128, h64, r.isLt]
  | .lit n => by
    have h256 : ¬ 384 + n.toNat < 256 := by omega
    have h128 : (384 + n.toNat) % 128 = n.toNat := by omega
    simp [mslotOf, MSlot.code, h256, h128]
theorem code_of_mslotOf {n : Nat} (hn : n < 512) (h : (mslotOf n).1 = true) : (mslotOf n).2.code = n := by
  unfold mslotOf at h ⊢
  split_ifs at h ⊢ with hv hs
  · exact toNat_vreg hv
  · have := of_decide_eq_true h
    simp only [MSlot.code, BitVec.toNat_ofNat]
    omega
  · simp only [MSlot.code, BitVec.toNat_ofNat]
    omega

theorem dslot_code_lt : ∀ c : DSlot, c.code < 64
  | .lit n => by have := n.isLt; simp only [DSlot.code]; omega
  | .s r => by have := r.isLt; simp only [DSlot.code]; omega
@[simp] theorem dslotOf_code : ∀ c : DSlot, dslotOf c.code = c
  | .lit n => by simp [dslotOf, DSlot.code, n.isLt]
  | .s r => by
    have h32 : (32 + r.toNat) % 32 = r.toNat := by omega
    simp [dslotOf, DSlot.code, h32]
theorem code_of_dslotOf {n : Nat} (hn : n < 64) : (dslotOf n).code = n := by
  unfold dslotOf
  split_ifs <;> simp only [DSlot.code, BitVec.toNat_ofNat] <;> omega

theorem desc_code_lt (x : Desc) : x.code < 2 ^ 32 := by
  have := layout_code_lt x.l
  have := dslot_code_lt x.c0
  have := dslot_code_lt x.c1
  have := dslot_code_lt x.c2
  have := dslot_code_lt x.c3
  unfold Desc.code
  omega
@[simp] theorem descOf_code (x : Desc) : descOf x.code = (true, x) := by
  have := layout_code_lt x.l
  have := dslot_code_lt x.c0
  have := dslot_code_lt x.c1
  have := dslot_code_lt x.c2
  have := dslot_code_lt x.c3
  have hl : fld x.code 24 8 = x.l.code := by unfold Desc.code fld; omega
  have h0 : fld x.code 18 6 = x.c0.code := by unfold Desc.code fld; omega
  have h1 : fld x.code 12 6 = x.c1.code := by unfold Desc.code fld; omega
  have h2 : fld x.code 6 6 = x.c2.code := by unfold Desc.code fld; omega
  have h3 : fld x.code 0 6 = x.c3.code := by unfold Desc.code fld; omega
  simp [descOf, hl, h0, h1, h2, h3]
theorem code_of_descOf {n : Nat} (hn : n < 2 ^ 32) (h : (descOf n).1 = true) : (descOf n).2.code = n := by
  simp only [Desc.code, descOf] at h ⊢
  rw [code_of_layoutOf (fld_lt n 24 8) h, code_of_dslotOf (fld_lt n 18 6), code_of_dslotOf (fld_lt n 12 6), code_of_dslotOf (fld_lt n 6 6),
    code_of_dslotOf (fld_lt n 0 6)]
  linarith [below_add n 0 6, below_add n 6 6, below_add n 12 6, below_add n 18 6, below_add n 24 8, below_zero n,
    show below n 32 = n from Nat.mod_eq_of_lt hn]

theorem predCode_lt : ∀ p, predCode p < 128
  | none => by decide
  | some i => by have := i.isLt; simp only [predCode]; omega
@[simp] theorem predOf_predCode : ∀ p, predOf (predCode p) = (true, p)
  | none => rfl
  | some i => by
    have h64 : (64 + i.toNat) % 64 = i.toNat := by omega
    simp [predOf, predCode, h64]
theorem predCode_of_predOf {n : Nat} (hn : n < 128) (h : (predOf n).1 = true) : predCode (predOf n).2 = n := by
  unfold predOf at h ⊢
  split_ifs at h ⊢
  · exact (eq_of_beq h).symm
  · simp only [predCode, BitVec.toNat_ofNat]
    omega

/-! ### Enumerations: code orders and codes agree (R24, R33) -/

/-- An entry of a list that stands in the order of its codes stands at its code. -/
theorem code_of_getElem? {α : Type} (code : α → Nat) (l : List α) (hl : l.map code = List.range l.length) {n : Nat} {x : α}
    (h : l[n]? = some x) : code x = n := by
  have hc : (l.map code)[n]? = some (code x) := by rw [List.getElem?_map, h]; rfl
  rw [hl] at hc
  exact (List.getElem?_eq_some_iff.1 hc).2 ▸ (by simp)

theorem ty_code_of_ofCode {n : Nat} {t : Ty} (h : Ty.ofCode n = some t) : t.code = n := code_of_getElem? Ty.code _ rfl h
theorem cmp_code_of_ofCode {n : Nat} {c : Cmp} (h : Cmp.ofCode n = some c) : c.code = n := code_of_getElem? Cmp.code _ rfl h
theorem redOp_code_of_ofCode {n : Nat} {o : RedOp} (h : RedOp.ofCode n = some o) : o.code = n := code_of_getElem? RedOp.code _ rfl h
theorem redxOp_code_of_ofCode {n : Nat} {o : RedxOp} (h : RedxOp.ofCode n = some o) : o.code = n := code_of_getElem? RedxOp.code _ rfl h
theorem ldW_code_of_ofCode {n : Nat} {x : LdW} (h : LdW.ofCode n = some x) : x.code = n := code_of_getElem? LdW.code _ rfl h
theorem stW_code_of_ofCode {n : Nat} {x : StW} (h : StW.ofCode n = some x) : x.code = n := code_of_getElem? StW.code _ rfl h
theorem atomOp_code_of_ofCode {n : Nat} {o : AtomOp} (h : AtomOp.ofCode n = some o) : o.code = n := code_of_getElem? AtomOp.code _ rfl h
theorem mmaFmt_code_of_ofCode {n : Nat} {f : MmaFmt} (h : MmaFmt.ofCode n = some f) : f.code = n := code_of_getElem? MmaFmt.code _ rfl h
theorem ty_srIndex_of_srDst {n : Nat} {t : Ty} (h : srDst n = some t) : t.srIndex = n := code_of_getElem? Ty.srIndex _ rfl h
theorem testTy_code_of_ofCode {n : Nat} (hn : n < 4) : (TestTy.ofCode n).code = n := by
  interval_cases n <;> rfl

@[simp] theorem ty_ofCode_code (t : Ty) : Ty.ofCode t.code = some t := by cases t <;> rfl
@[simp] theorem cmp_ofCode_code (c : Cmp) : Cmp.ofCode c.code = some c := by cases c <;> rfl
@[simp] theorem testTy_ofCode_code (t : TestTy) : TestTy.ofCode t.code = t := by cases t <;> rfl
@[simp] theorem redOp_ofCode_code (o : RedOp) : RedOp.ofCode o.code = some o := by cases o <;> rfl
@[simp] theorem redxOp_ofCode_code (o : RedxOp) : RedxOp.ofCode o.code = some o := by cases o <;> rfl
@[simp] theorem ldW_ofCode_code (x : LdW) : LdW.ofCode x.code = some x := by cases x <;> rfl
@[simp] theorem stW_ofCode_code (x : StW) : StW.ofCode x.code = some x := by cases x <;> rfl
@[simp] theorem atomOp_ofCode_code (o : AtomOp) : AtomOp.ofCode o.code = some o := by cases o <;> rfl
@[simp] theorem mmaFmt_ofCode_code (f : MmaFmt) : MmaFmt.ofCode f.code = some f := by cases f <;> rfl

theorem ty_code_lt (t : Ty) : t.code < 17 := by cases t <;> decide
theorem cmp_code_lt (c : Cmp) : c.code < 6 := by cases c <;> decide
theorem testTy_code_lt (t : TestTy) : t.code < 4 := by cases t <;> decide
theorem redOp_code_lt (o : RedOp) : o.code < 11 := by cases o <;> decide
theorem redxOp_code_lt (o : RedxOp) : o.code < 6 := by cases o <;> decide
theorem ldW_code_lt (x : LdW) : x.code < 6 := by cases x <;> decide
theorem stW_code_lt (x : StW) : x.code < 4 := by cases x <;> decide
theorem atomOp_code_lt (o : AtomOp) : o.code < 11 := by cases o <;> decide
theorem mmaFmt_code_lt (f : MmaFmt) : f.code < 12 := by cases f <;> decide
theorem ty_srIndex_lt (t : Ty) : t.srIndex < 7 := by cases t <;> decide

end Sys2Proof.Encoding
end

