-- ==== Sys2Proof/Proofs/DecodeSound.lean ====
section
/-! SUPPORT. What the decoder accepts is well-formed and is the only code word, or pair of code words, of its instruction: one lemma for each part of the opcode map (02 R33 to R36). -/

namespace Sys2Proof.Encoding
open Sys2Proof

/-! ### What the decoder's parts read -/

@[simp] theorem toNat_fK (w : Nat) : (fK w).toNat = fld w 51 4 := toNat_ofNat_fld w 51 4
@[simp] theorem toNat_fLa (w : Nat) : (fLa w).toNat = fld w 47 4 := toNat_ofNat_fld w 47 4
@[simp] theorem toNat_fIm (w : Nat) : (fIm w).toNat = fld w 0 28 := toNat_ofNat_fld w 0 28
@[simp] theorem toNat_vreg_fD (w : Nat) : (vreg (fD w)).toNat = fD w := toNat_vreg (fD_lt w)
@[simp] theorem toNat_vreg_fA (w : Nat) : (vreg (fA w)).toNat = fA w := toNat_vreg (fA_lt w)
@[simp] theorem toNat_vreg_fB (w : Nat) : (vreg (fB w)).toNat = fB w := toNat_vreg (fB_lt w)
@[simp] theorem toNat_vreg_fCa (w : Nat) : (vreg (fCa w)).toNat = fCa w := toNat_vreg (fCa_lt w)
@[simp] theorem toNat_vreg_fCb (w : Nat) : (vreg (fCb w)).toNat = fCb w := toNat_vreg (fCb_lt w)
@[simp] theorem fld_mod_4 (w lo : Nat) : fld w lo 2 % 4 = fld w lo 2 := Nat.mod_eq_of_lt (fld_lt w lo 2)
@[simp] theorem fld_mod_16 (w lo : Nat) : fld w lo 4 % 16 = fld w lo 4 := Nat.mod_eq_of_lt (fld_lt w lo 4)
@[simp] theorem fld_mod_512 (w lo : Nat) : fld w lo 9 % 512 = fld w lo 9 := Nat.mod_eq_of_lt (fld_lt w lo 9)
@[simp] theorem fRm_mod (w : Nat) : fRm w % 4 = fRm w := fld_mod_4 w 12
@[simp] theorem fImRm_mod (w : Nat) : fImRm w % 4 = fImRm w := fld_mod_4 w 28
theorem fI_cases (w : Nat) : fI w = 0 ∨ fI w = 1 := by
  have : fI w < 2 := fld_lt w 46 1
  omega

@[simp] theorem v3Tail_iff {w : Nat} {rm ty sub : Bool} :
    v3Tail w rm ty sub = true ↔ (rm = true ∨ fRm w = 0) ∧ (ty = true ∨ fTy w = 0) ∧ (sub = true ∨ fSub w = 0) := by
  simp [v3Tail, and_assoc]
@[simp] theorem noB_iff {w : Nat} : noB w = true ↔ fB w = 0 ∧ fBs w = 0 := by simp [noB]
@[simp] theorem noC_iff {w : Nat} : noC w = true ↔ fC w = 0 ∧ fCs w = 0 := by simp [noC]
@[simp] theorem evenField_eq (n : Nat) : evenField n = (n % 2 == 0) := rfl

/-! ### A word composed again of the operands that the decoder reads in it -/

theorem encLane2_toLane (op : Nat) (k : KReg) (d : Nat) (a : VReg) (b : RegSrc) (rm : Nat) :
    encLane2 op k d a b.toLane rm = wV3 op k.toNat 0 d a.toNat b.num 0 rm 0 b.bit 0 0 := by
  cases b <;> rfl

section Recompose
variable {w : Nat} {r : Bool} (hw : w < 2 ^ 64)
include hw

/-- A word whose reserved fields are clear, from the operands of its V3 lane form with two sources. -/
theorem encLane2_of_fields (hla : fld w 47 4 = 0) (hc : (laneSrc2 w r).1 = true) :
    encLane2 (fOp w) (fK w) (fD w) (vreg (fA w)) (laneSrc2 w r).2 (if r then (rmOf w).toNat else 0) = w := by
  rcases fI_cases w with hI | hI <;> simp [laneSrc2, rmOf, hI] at hc ⊢
  · obtain ⟨⟨hb, hC, hCs⟩, hrm, hty, hsub⟩ := hc
    obtain ⟨hnum, hbit⟩ := num_bit_of_v3Src (fB_lt w) (fBs_lt w) hb
    have hr : (if r = true then fRm w else 0) = fRm w := by rcases hrm with h | h <;> simp [h]
    refine Eq.trans ?_ (wV3_of_fields hw hI)
    simp [encLane2_toLane, *]
  · have hr : (if r = true then fImRm w else 0) = fImRm w := by rcases hc with h | h <;> simp [h]
    refine Eq.trans ?_ (wVI_of_fields hw hI)
    simp [encLane2, *]

theorem encUn_of_fields (hc : (laneSrc1 w r).1 = true) :
    encUn (fOp w) (fK w) (fld w 47 4) (vreg (fD w)) (laneSrc1 w r).2 (if r then (rmOf w).toNat else 0) = w := by
  rcases fI_cases w with hI | hI <;> simp [laneSrc1, rmOf, hI] at hc ⊢
  · obtain ⟨⟨⟨hB, hBs⟩, hC, hCs⟩, hrm, hty, hsub⟩ := hc
    have hr : (if r = true then fRm w else 0) = fRm w := by rcases hrm with h | h <;> simp [h]
    refine Eq.trans ?_ (wV3_of_fields hw hI)
    simp [encUn, *]
  · obtain ⟨hA, hrm⟩ := hc
    have hr : (if r = true then fImRm w else 0) = fImRm w := by rcases hrm with h | h <;> simp [h]
    refine Eq.trans ?_ (wVI_of_fields hw hI)
    simp [encUn, *]

theorem encScal2_of_fields (hk : fld w 51 4 = 0) (hla : fld w 47 4 = 0) (hc : (scalSrc2 w r).1 = true) :
    encScal2 (fOp w) (sreg (fD w)) (sreg (fA w)) (scalSrc2 w r).2 (if r then (rmOf w).toNat else 0) = w := by
  rcases fI_cases w with hI | hI <;> simp [scalSrc2, rmOf, hI] at hc ⊢
  · obtain ⟨⟨⟨⟨⟨hA, hD⟩, hB⟩, hBs⟩, hC, hCs⟩, hrm, hty, hsub⟩ := hc
    have hr : (if r = true then fRm w else 0) = fRm w := by rcases hrm with h | h <;> simp [h]
    refine Eq.trans ?_ (wV3_of_fields hw hI)
    simp [encScal2, toNat_sreg, *]
  · obtain ⟨⟨hA, hD⟩, hrm⟩ := hc
    have hr : (if r = true then fImRm w else 0) = fImRm w := by rcases hrm with h | h <;> simp [h]
    refine Eq.trans ?_ (wVI_of_fields hw hI)
    simp [encScal2, toNat_sreg, *]

theorem encV3_of_fields (hI : fI w = 0) (hb : (v3Src (fB w) (fBs w)).1 = true) (hc : (v3Src (fC w) (fCs w)).1 = true) (hty : fTy w = 0)
    (hsub : fSub w = 0) :
    encV3 (fOp w) (fK w) (fld w 47 4) (vreg (fD w)) (vreg (fA w)) (v3Src (fB w) (fBs w)).2 (v3Src (fC w) (fCs w)).2 (fRm w) = w := by
  obtain ⟨hbn, hbb⟩ := num_bit_of_v3Src (fB_lt w) (fBs_lt w) hb
  obtain ⟨hcn, hcb⟩ := num_bit_of_v3Src (fC_lt w) (fCs_lt w) hc
  refine Eq.trans ?_ (wV3_of_fields hw hI)
  simp [encV3, *]

theorem encM_of_fields (hc : (mArgsOf w).1 = true) : encM (fOp w) (fld w 51 4) (fCa w) (mArgsOf w).2 = w := by
  simp [mArgsOf] at hc
  obtain ⟨⟨⟨hl, h0⟩, h1⟩, h2⟩ := hc
  refine Eq.trans ?_ (wM_of_fields hw)
  simp [encM, mArgsOf, code_of_layoutOf (fCb_lt w) hl, code_of_mslotOf (fld_lt w 18 9) h0, code_of_mslotOf (fld_lt w 9 9) h1,
    code_of_mslotOf (fld_lt w 0 9) h2]

end Recompose
end Sys2Proof.Encoding

namespace Sys2Proof.Encoding
open Sys2Proof

/-! ### What the decoder accepts is well-formed and composed of its fields: one lemma for each part of the opcode map (R33) -/

theorem verdict_eq_ok_iff {j : Judged} {w : Nat} {x : Instr} : j.verdict w = .ok x ↔
    j.clean = true ∧ (j.kZero = true → fld w 51 4 = 0) ∧ (j.short = true → fld w 47 4 = 0) ∧ j.ok = true ∧ j.instr = x := by
  unfold Judged.verdict
  split_ifs <;> simp_all

/-- An instruction is well-formed, and its code words are `w` alone or `w` and `e`. -/
def EncodedBy (w e : Nat) (x : Instr) : Prop := x.wf = true ∧ encodeNat x = [w, e].take x.words

/-- Every instruction that a judgment accepts is well-formed and has the judged code words. -/
def SoundAt (w e : Nat) (o : Option Judged) : Prop := ∀ j, o = some j → ∀ x, j.verdict w = .ok x → EncodedBy w e x

theorem soundAt_none {w e : Nat} : SoundAt w e none := fun _ h => nomatch h
theorem soundAt_some {w e : Nat} {c kz s ok : Bool} {x : Instr}
    (h : c = true → (kz = true → fld w 51 4 = 0) → (s = true → fld w 47 4 = 0) → ok = true → EncodedBy w e x) :
    SoundAt w e (some ⟨c, kz, s, ok, x⟩) := by
  rintro j ⟨⟩ y hv
  obtain ⟨hc, hk, hs, ho, rfl⟩ := verdict_eq_ok_iff.1 hv
  exact h hc hk hs ho
theorem soundAt_map {α : Type} {w e : Nat} {o : Option α} {f : α → Judged} (h : ∀ a, o = some a → SoundAt w e (some (f a))) :
    SoundAt w e (o.map f) := by
  cases o with
  | none => exact soundAt_none
  | some a => exact h a rfl

theorem encodedBy_one {w e n : Nat} {x : Instr} (hwords : x.words = 1) (henc : encodeNat x = [n]) (hwf : x.wf = true) (hn : n = w) :
    EncodedBy w e x := ⟨hwf, by rw [henc, hwords, hn]; rfl⟩
theorem encodedBy_two {w e n m : Nat} {x : Instr} (hwords : x.words = 2) (henc : encodeNat x = [n, m]) (hwf : x.wf = true) (hn : n = w)
    (hm : m = e) : EncodedBy w e x := ⟨hwf, by rw [henc, hwords, hn, hm]; rfl⟩

theorem int2Of_encode {i : Nat} {f : Int2} {x : Instr} (h : int2Of i f = some x) :
    x.wf = true ∧ x.words = 1 ∧ encodeNat x = [encInt2 i f] := by
  unfold int2Of at h
  split at h <;> cases h <;> exact ⟨rfl, rfl, rfl⟩
theorem int1Of_encode {i : Nat} {f : Int1} {x : Instr} (h : int1Of i f = some x) :
    x.wf = true ∧ x.words = 1 ∧ encodeNat x = [encInt1 i f] := by
  unfold int1Of at h
  split at h <;> cases h <;> exact ⟨rfl, rfl, rfl⟩
theorem int3Of_encode {i : Nat} {f : Int3} {x : Instr} (h : int3Of i f = some x) :
    x.wf = true ∧ x.words = 1 ∧ encodeNat x = [encInt3 i f] := by
  unfold int3Of at h
  split at h <;> cases h <;> exact ⟨rfl, rfl, rfl⟩

section Sound
variable {w e i : Nat} (hw : w < 2 ^ 64)
include hw

theorem eq_of_wV3 {n : Nat} (hI : fI w = 0)
    (h : n = wV3 (fOp w) (fld w 51 4) (fld w 47 4) (fD w) (fA w) (fB w) (fC w) (fRm w) (fTy w) (fBs w) (fCs w) (fSub w)) : n = w :=
  h.trans (wV3_of_fields hw hI)
theorem eq_of_wVI {n : Nat} (hI : fI w = 1)
    (h : n = wVI (fOp w) (fld w 51 4) (fld w 47 4) (fD w) (fA w) (fImRm w) (fld w 0 28)) : n = w := h.trans (wVI_of_fields hw hI)

theorem judgeIntLane_sound (hop : fOp w = 0x50 + i) : SoundAt w e (judgeIntLane w i) := by
  simp only [judgeIntLane]
  split
  case isTrue h26 =>
    obtain rfl : i = 26 := eq_of_beq h26
    split
    case isTrue hI =>
      refine soundAt_some fun hc _ hl _ => encodedBy_one rfl rfl rfl ?_
      simp at hI hc hl
      have := encV3_of_fields hw hI hc.1.1 hc.1.2 hc.2.2.1 hc.2.2.2
      simp_all [encPrm]
    case isFalse hI =>
      refine soundAt_some fun hc _ hl _ => encodedBy_one rfl rfl rfl ?_
      have hI : fI w = 1 := (fI_cases w).resolve_left (by simpa using hI)
      simp at hc hl
      exact eq_of_wVI hw hI (by simp [encPrm, *])
  case isFalse h26 =>
    split
    case h_1 x hx =>
      obtain ⟨hwf, hwords, henc⟩ := int2Of_encode hx
      refine soundAt_some fun hc _ hl _ => encodedBy_one hwords henc hwf ?_
      have := encLane2_of_fields hw (hl rfl) hc
      simp_all [encInt2]
    case h_2 =>
      split
      case h_1 x hx =>
        obtain ⟨hwf, hwords, henc⟩ := int1Of_encode hx
        refine soundAt_some fun hc _ hl _ => encodedBy_one hwords henc hwf ?_
        have := encUn_of_fields hw hc
        simp_all [encInt1]
      case h_2 =>
        split
        case h_1 x hx =>
          obtain ⟨hwf, hwords, henc⟩ := int3Of_encode hx
          refine soundAt_some fun hc _ hl hI => encodedBy_one hwords henc hwf ?_
          simp at hI hc hl
          have := encV3_of_fields hw hI hc.1.1 hc.1.2 hc.2.2.1 hc.2.2.2
          simp_all [encInt3]
        case h_2 => exact soundAt_none

end Sound
end Sys2Proof.Encoding

namespace Sys2Proof.Encoding
open Sys2Proof
section Sound
variable {w e i : Nat} (hw : w < 2 ^ 64)
include hw

theorem encInt1_scalar_of_fields (hop : fOp w = 0x70 + i) (hk : fld w 51 4 = 0) (hla : fld w 47 4 = 0) (hc : (scalSrc1 w).1 = true) :
    encInt1 i (.scalar (sreg (fD w)) (scalSrc1 w).2) = w := by
  rcases fI_cases w with hI | hI <;> simp [scalSrc1, hI] at hc ⊢
  · exact eq_of_wV3 hw hI (by simp [encInt1, toNat_sreg, *])
  · exact eq_of_wVI hw hI (by simp [encInt1, toNat_sreg, *])

theorem judgeIntScalar_sound (hop : fOp w = 0x70 + i) : SoundAt w e (judgeIntScalar w i) := by
  simp only [judgeIntScalar]
  split
  case isTrue h26 =>
    obtain rfl : i = 26 := eq_of_beq h26
    split
    case isTrue hI =>
      refine soundAt_some fun hc hk hl _ => encodedBy_one rfl rfl rfl ?_
      simp at hI hc hk hl
      exact eq_of_wV3 hw hI (by simp [encPrm, toNat_sreg, *])
    case isFalse hI =>
      refine soundAt_some fun hc hk hl _ => encodedBy_one rfl rfl rfl ?_
      have hI : fI w = 1 := (fI_cases w).resolve_left (by simpa using hI)
      simp at hc hk hl
      exact eq_of_wVI hw hI (by simp [encPrm, toNat_sreg, *])
  case isFalse h26 =>
    split
    case h_1 x hx =>
      obtain ⟨hwf, hwords, henc⟩ := int2Of_encode hx
      refine soundAt_some fun hc hk hl _ => encodedBy_one hwords henc hwf ?_
      have := encScal2_of_fields hw (hk rfl) (hl rfl) hc
      simp_all [encInt2]
    case h_2 =>
      split
      case h_1 x hx =>
        obtain ⟨hwf, hwords, henc⟩ := int1Of_encode hx
        exact soundAt_some fun hc hk hl _ => encodedBy_one hwords henc hwf (encInt1_scalar_of_fields hw hop (hk rfl) (hl rfl) hc)
      case h_2 =>
        split
        case h_1 x hx =>
          obtain ⟨hwf, hwords, henc⟩ := int3Of_encode hx
          refine soundAt_some fun hc hk hl hI => encodedBy_one hwords henc hwf ?_
          simp at hI hc hk hl
          exact eq_of_wV3 hw hI (by simp [encInt3, toNat_sreg, *])
        case h_2 => exact soundAt_none

theorem encFlt2_lane_of_fields (hop : fOp w = 0x90 + i) (hla : fld w 47 4 = 0) (hc : (laneSrc2 w true).1 = true) :
    encFlt2 i (.lane (fK w) (vreg (fD w)) (vreg (fA w)) (laneSrc2 w true).2 (rmOf w)) = w := by
  have := encLane2_of_fields hw hla hc
  simp_all [encFlt2]
theorem encFltMM_lane_of_fields (hop : fOp w = 0x90 + i) (hla : fld w 47 4 = 0) (hc : (laneSrc2 w false).1 = true) :
    encFltMM i (.lane (fK w) (vreg (fD w)) (vreg (fA w)) (laneSrc2 w false).2) = w := by
  have := encLane2_of_fields hw hla hc
  simp_all [encFltMM]
theorem encFltUn_of_fields (hop : fOp w = 0x90 + i) (hc : (laneSrc1 w true).1 = true) :
    encFltUn i ⟨fK w, fLa w, vreg (fD w), (laneSrc1 w true).2, rmOf w⟩ = w := by
  have := encUn_of_fields hw hc
  simp_all [encFltUn]

theorem judgeFloatLane_sound (hop : fOp w = 0x90 + i) : SoundAt w e (judgeFloatLane w i) := by
  simp only [judgeFloatLane]
  split
  case h_1 | h_2 | h_3 =>
    exact soundAt_some fun hc _ hl _ => encodedBy_one rfl rfl rfl (encFlt2_lane_of_fields hw hop (hl rfl) hc)
  case h_4 =>
    refine soundAt_some fun hc _ hl hI => encodedBy_one rfl rfl rfl ?_
    simp at hI hc hl
    have := encV3_of_fields hw hI hc.1.1 hc.1.2 hc.2.1 hc.2.2
    simp_all [encFlt3]
  case h_5 | h_6 =>
    exact soundAt_some fun hc _ hl _ => encodedBy_one rfl rfl rfl (encFltMM_lane_of_fields hw hop (hl rfl) hc)
  case h_7 | h_8 | h_9 | h_10 | h_11 | h_12 | h_13 =>
    exact soundAt_some fun hc _ _ _ => encodedBy_one rfl rfl rfl (encFltUn_of_fields hw hop hc)
  case h_14 =>
    refine soundAt_some fun hc _ hl _ => encodedBy_one rfl rfl rfl ?_
    have := encLane2_of_fields hw (hl rfl) hc
    simp_all
  case h_15 =>
    refine soundAt_some fun hc _ hl _ => encodedBy_one rfl rfl rfl ?_
    have := encUn_of_fields hw hc
    simp_all
  case h_16 => exact soundAt_none

theorem encFlt2_scalar_of_fields (hop : fOp w = 0xA0 + i) (hk : fld w 51 4 = 0) (hla : fld w 47 4 = 0) (hc : (scalSrc2 w true).1 = true) :
    encFlt2 i (.scalar (sreg (fD w)) (sreg (fA w)) (scalSrc2 w true).2 (rmOf w)) = w := by
  have := encScal2_of_fields hw hk hla hc
  simp_all [encFlt2]
theorem encFltMM_scalar_of_fields (hop : fOp w = 0xA0 + i) (hk : fld w 51 4 = 0) (hla : fld w 47 4 = 0) (hc : (scalSrc2 w false).1 = true) :
    encFltMM i (.scalar (sreg (fD w)) (sreg (fA w)) (scalSrc2 w false).2) = w := by
  have := encScal2_of_fields hw hk hla hc
  simp_all [encFltMM]

theorem judgeFloatScalar_sound (hop : fOp w = 0xA0 + i) : SoundAt w e (judgeFloatScalar w i) := by
  simp only [judgeFloatScalar]
  split
  case h_1 | h_2 | h_3 =>
    exact soundAt_some fun hc hk hl _ => encodedBy_one rfl rfl rfl (encFlt2_scalar_of_fields hw hop (hk rfl) (hl rfl) hc)
  case h_4 =>
    refine soundAt_some fun hc hk hl hI => encodedBy_one rfl rfl rfl ?_
    simp at hI hc hk hl
    exact eq_of_wV3 hw hI (by simp [encFlt3, toNat_sreg, *])
  case h_5 | h_6 =>
    exact soundAt_some fun hc hk hl _ => encodedBy_one rfl rfl rfl (encFltMM_scalar_of_fields hw hop (hk rfl) (hl rfl) hc)
  case h_7 => exact soundAt_none

/-- The two-source instructions on doubles and packed halves. -/
theorem encW2_of_fields (hop : fOp w = 0xB0 + i) (hI : fI w = 0) (hb : (v3Src (fB w) (fBs w)).1 = true) (hC : noC w = true)
    (hty : fTy w = 0) (hsub : fSub w = 0) :
    encW2 i ⟨fK w, fLa w, vreg (fD w), vreg (fA w), (v3Src (fB w) (fBs w)).2, BitVec.ofNat 2 (fRm w)⟩ = w := by
  obtain ⟨hnum, hbit⟩ := num_bit_of_v3Src (fB_lt w) (fBs_lt w) hb
  obtain ⟨hC, hCs⟩ := noC_iff.1 hC
  exact eq_of_wV3 hw hI (by simp [encW2, *])
/-- The three-source instructions on doubles and packed halves, and the dot products. -/
theorem encW3_of_fields {op : Nat} {la : BitVec 4} (hop : fOp w = op) (hla : la.toNat = fld w 47 4) (hI : fI w = 0) (hb : (v3Src (fB w) (fBs w)).1 = true)
    (hc : (v3Src (fC w) (fCs w)).1 = true) (hty : fTy w = 0) (hsub : fSub w = 0) :
    encW3 op ⟨fK w, la, vreg (fD w), vreg (fA w), (v3Src (fB w) (fBs w)).2, (v3Src (fC w) (fCs w)).2, BitVec.ofNat 2 (fRm w)⟩ = w := by
  have := encV3_of_fields hw hI hb hc hty hsub
  simp_all [encW3]

omit hw in
theorem evenReg_vreg {n : Nat} (h : n < 256) : evenReg (vreg n) = evenField n := by rw [evenReg, toNat_vreg h, evenField]
omit hw in
theorem fLa_eq_zero (h : fld w 47 4 = 0) : fLa w = 0 := by simp [fLa, h]

theorem judgeWide_sound (hop : fOp w = 0xB0 + i) : SoundAt w e (judgeWide w i) := by
  have hD := evenReg_vreg (fD_lt w)
  have hA := evenReg_vreg (fA_lt w)
  simp only [judgeWide]
  split
  case h_1 | h_2 =>
    refine soundAt_some fun hc _ _ ho => ?_
    simp at hc ho
    refine encodedBy_one rfl rfl ?_ (encW2_of_fields hw hop ho.1.1.1 hc.1.1 (by simp [hc]) hc.2.1 hc.2.2)
    simp [Instr.wf, Lane2.evenOk, *]
  case h_3 =>
    refine soundAt_some fun hc _ _ ho => ?_
    simp at hc ho
    refine encodedBy_one rfl rfl ?_ (encW3_of_fields hw hop (toNat_fLa w) ho.1.1.1.1 hc.1.1 hc.1.2 hc.2.1 hc.2.2)
    simp [Instr.wf, Lane3.evenOk, *]
  case h_4 | h_5 =>
    refine soundAt_some fun hc _ _ ho => ?_
    simp at hc ho
    refine encodedBy_one rfl rfl ?_ (encW2_of_fields hw hop ho.1.1.1 hc.1.1 (by simp [hc]) hc.2.2.1 hc.2.2.2)
    simp [Instr.wf, Lane2.evenOk, *]
  case h_6 | h_7 | h_9 =>
    refine soundAt_some fun hc _ hl ho => ?_
    simp at hc ho
    exact encodedBy_one rfl rfl (beq_iff_eq.2 (fLa_eq_zero (hl rfl))) (encW2_of_fields hw hop ho hc.1.1 (by simp [hc]) hc.2.1 hc.2.2)
  case h_8 | h_10 =>
    refine soundAt_some fun hc _ hl ho => ?_
    simp at hc ho
    exact encodedBy_one rfl rfl (beq_iff_eq.2 (fLa_eq_zero (hl rfl)))
      (encW3_of_fields hw hop (toNat_fLa w) ho hc.1.1 hc.1.2 hc.2.1 hc.2.2)
  case h_11 => exact soundAt_none

theorem judgeDot_sound (hop : fOp w = 0xE0 + i) : SoundAt w e (judgeDot w i) := by
  simp only [judgeDot]
  split
  case h_1 | h_2 | h_5 | h_6 | h_9 =>
    refine soundAt_some fun hc _ hl hI => ?_
    simp at hc hl hI
    exact encodedBy_one rfl rfl rfl (encW3_of_fields hw hop hl.symm hI hc.1.1 hc.1.2 hc.2.1 hc.2.2)
  case h_3 | h_4 | h_7 | h_8 =>
    refine soundAt_some fun hc _ hl hI => ?_
    simp at hc hl hI
    exact encodedBy_one rfl rfl (by simp [Instr.wf, hc]) (encW3_of_fields hw hop hl.symm hI hc.1.1 hc.1.2 hc.2.2.1 hc.2.2.2)
  case h_10 => exact soundAt_none

end Sound
end Sys2Proof.Encoding

namespace Sys2Proof.Encoding
open Sys2Proof
section Sound
variable {w e i : Nat} (hw : w < 2 ^ 64)

theorem pairOk_vreg {n : Nat} (h : n < 256) (t : Ty) : t.pairOk (vreg n) = (t.bits != 64 || evenField n) := by
  rw [Ty.pairOk, evenReg_vreg h]

theorem indexOk_ofNat {t : Ty} {j : Nat} (hj : j < 8) (hn : (t.narrow || j == 0) = true) (hr : (!t.narrow || decide (j < t.perReg)) = true) :
    t.indexOk (BitVec.ofNat 3 j) = true := by
  unfold Ty.indexOk
  cases ht : t.narrow <;> simp_all [Nat.mod_eq_of_lt]

theorem cvtSr_wf {dst : Ty} (hdst : srDst i = some dst) (k : KReg) {wide : Bool} (d : VReg) {a : VReg} (b : RegSrc) (hi : Bool) {jd : BitVec 3}
    (hjd : jd.toNat < dst.perReg) (heven : wide = false ∨ evenReg a = true) : (Instr.cvtSr k dst wide d a b hi jd).wf = true := by
  have hmem := List.mem_of_getElem? hdst
  have ha : (!wide || evenReg a) = true := by simpa using heven
  simp only [Instr.wf, ha, hjd, decide_true, Bool.and_true]
  simpa [or_assoc] using hmem

theorem fBs_cases (w : Nat) : fBs w = 0 ∨ fBs w = 1 := by
  have := fBs_lt w
  omega
@[simp] theorem fSub_mod (w : Nat) : fSub w % 32 = fSub w := Nat.mod_eq_of_lt (fld_lt w 0 5)

include hw

theorem judgeCvt_sound {dst : Ty} (hop : fOp w = 0xC0 + dst.code) : SoundAt w e (some (judgeCvt w dst)) := by
  cases hsrc : Ty.ofCode (fTy w) with
  | none => exact soundAt_some fun _ _ _ ho => absurd ho (by simp [hsrc])
  | some src =>
    simp only [judgeCvt, hsrc, Option.getD_some, Option.isSome_some, Bool.and_true]
    have hty : src.code = fTy w := ty_code_of_ofCode hsrc
    refine soundAt_some fun hc _ hl ho => encodedBy_one rfl rfl ?_ ?_
    · simp only [Bool.and_eq_true, decide_eq_true_eq] at hc ho
      obtain ⟨⟨⟨⟨_, hjs⟩, hjd⟩, hs⟩, hd⟩ := hc
      obtain ⟨⟨⟨⟨_, hsr⟩, hdr⟩, hsp⟩, hdp⟩ := ho
      simp only [Instr.wf, pairOk_vreg (fD_lt w), pairOk_vreg (fA_lt w), indexOk_ofNat hjs hs hsr, indexOk_ofNat hjd hd hdr, hsp, hdp, Bool.and_self]
    · simp only [Bool.and_eq_true, decide_eq_true_eq, noC_iff, beq_iff_eq] at hc ho
      obtain ⟨⟨⟨⟨⟨hBs, hC, hCs⟩, hjs⟩, hjd⟩, _⟩, _⟩ := hc
      exact eq_of_wV3 hw ho.1.1.1.1 (by simp [Nat.mod_eq_of_lt, *])

theorem judgeCvtSr_sound {dst : Ty} (hdst : srDst i = some dst) (hop : fOp w = 0xD1 + i) : SoundAt w e (some (judgeCvtSr w dst)) := by
  refine soundAt_some fun hc _ hl ho => ?_
  simp at hc hl ho
  obtain ⟨⟨⟨hb, hC, hCs⟩, hrm⟩, hsub⟩ := hc
  obtain ⟨⟨⟨hI, hty⟩, hjd⟩, heven⟩ := ho
  obtain ⟨hnum, hbit⟩ := num_bit_of_v3Src (fB_lt w) (fBs_lt w) hb
  refine encodedBy_one rfl rfl ?_ (eq_of_wV3 hw hI ?_)
  · refine cvtSr_wf hdst _ _ _ _ (by simpa [Nat.mod_eq_of_lt] using hjd) ?_
    rw [evenReg_vreg (fA_lt w), beq_eq_false_iff_ne]
    rcases heven with h | h
    · exact .inl (by omega)
    · exact .inr (by simp [h])
  · have hty' : (if fTy w = 0 then 0 else 1) = fTy w := by split_ifs <;> omega
    have hsub' : fSub w % 8 + (if 8 ≤ fSub w then 8 else 0) = fSub w := by split_ifs <;> omega
    simp [ty_srIndex_of_srDst hdst, *]

theorem judgeRnd_sound (hop : fOp w = 0xD8) : SoundAt w e (some (judgeRnd w)) := by
  refine soundAt_some fun hc _ hl ho => encodedBy_one rfl rfl rfl ?_
  simp at hc hl ho
  obtain ⟨⟨⟨hC, hCs⟩, hrm, hty, hsub⟩, hB⟩ := hc
  obtain ⟨hI, hBs⟩ := ho
  have hB : fB w < 64 := hB.resolve_left (by omega)
  exact eq_of_wV3 hw hI (by simp [toNat_sreg, *])

theorem judgeCross_sound (hop : fOp w = 0xF0 + i) : SoundAt w e (judgeCross w i) := by
  simp only [judgeCross]
  split
  case h_1 | h_2 | h_3 | h_4 =>
    refine soundAt_some fun hc _ hl _ => encodedBy_one rfl rfl rfl ?_
    have := encLane2_of_fields hw (hl rfl) hc
    simp_all
  case h_5 | h_6 =>
    refine soundAt_some fun hc _ hl hI => encodedBy_one rfl rfl rfl ?_
    simp at hc hl hI
    exact eq_of_wV3 hw hI (by simp [*])
  case h_7 | h_8 =>
    rcases fBs_cases w with hBs | hBs
    · rw [if_neg (by simp [hBs])]
      refine soundAt_some fun hc _ hl hI => encodedBy_one rfl rfl rfl ?_
      simp at hc hl hI
      exact eq_of_wV3 hw hI (by simp [toNat_sreg, *])
    · rw [if_pos (by simp [hBs])]
      refine soundAt_some fun hc _ hl hI => encodedBy_one rfl rfl rfl ?_
      simp at hc hl hI
      exact eq_of_wV3 hw hI (by simp [toNat_sreg, *])
  case h_9 => exact soundAt_none

omit hw in
/-- Only an F32 sum has a rounding mode (R93, R95). -/
theorem rm_free_or_zero {op : RedOp} (h : op = .addF32 ∨ fRm w = 0) : (op == .addF32 || BitVec.ofNat 2 (fRm w) == 0) = true := by
  rcases h with h | h <;> simp [h]

theorem judgeRed_sound {op : RedOp} (hop : fOp w = 0xF8 + op.code) : SoundAt w e (some (judgeRed w op)) := by
  rcases eq_or_ne (fSub w) 1 with hs | hs
  · simp only [judgeRed, hs, beq_self_eq_true, if_true]
    refine soundAt_some fun hc _ hl hI => ?_
    simp at hc hl hI
    exact encodedBy_one rfl rfl (rm_free_or_zero hc.1.2) (eq_of_wV3 hw hI (by simp [toNat_sreg, *]))
  · simp only [judgeRed, beq_false_of_ne hs, if_neg Bool.false_ne_true]
    refine soundAt_some fun hc _ hl hI => ?_
    simp at hc hl hI
    have hsub : fSub w = 0 := by omega
    exact encodedBy_one rfl rfl (rm_free_or_zero hc.2) (eq_of_wV3 hw hI (by simp [*]))

theorem judgeRedx_sound {op : RedxOp} (hop : fOp w = 0x103 + op.code) : SoundAt w e (some (judgeRedx w op)) := by
  rcases eq_or_ne (fSub w) 1 with hs | hs
  · simp only [judgeRedx, hs, beq_self_eq_true, if_true]
    refine soundAt_some fun hc _ hl hI => encodedBy_one rfl rfl rfl ?_
    simp at hc hl hI
    exact eq_of_wV3 hw hI (by simp [toNat_sreg, *])
  · simp only [judgeRedx, beq_false_of_ne hs, if_neg Bool.false_ne_true]
    refine soundAt_some fun hc _ hl hI => encodedBy_one rfl rfl rfl ?_
    simp at hc hl hI
    have hsub : fSub w = 0 := by omega
    exact eq_of_wV3 hw hI (by simp [*])

omit hw in
/-- A one-bit field from the flag that it is read as. -/
theorem bit_of_flag {n : Nat} (h : n < 2) : (if (n == 1) = true then 1 else 0) = n := by
  obtain rfl | rfl : n = 0 ∨ n = 1 := by omega
  all_goals rfl

theorem judgeScan_sound {op : RedOp} (hop : fOp w = 0x110 + op.code) : SoundAt w e (some (judgeScan w op)) := by
  refine soundAt_some fun hc _ hl hI => ?_
  simp only [noB_iff, noC_iff, Bool.and_eq_true, beq_iff_eq, decide_eq_true_eq, Bool.or_eq_true] at hc hI
  refine encodedBy_one rfl rfl (rm_free_or_zero hc.2) (eq_of_wV3 hw hI ?_)
  rw [bit_of_flag hc.1.2]
  simp [hl rfl, *]

omit hw in
theorem kreg_bne_zero {n : Nat} (hn : n < 16) (h : n ≠ 0) : (kreg n != 0) = true :=
  bne_iff_ne.2 fun he => h (by rw [← toNat_kreg hn, he]; rfl)

omit hw in
theorem test_f64_wf (c : Cmp) (k : KReg) {d : KReg} {a : VReg} {b : RegSrc} (hd : (d != 0) = true) (ha : evenReg a = true)
    (hb : b.pairOk = true) : (Instr.test c .f64 k d a b.toLane).wf = true := by
  cases b
  case v r =>
    have hr : evenReg r = true := hb
    simp only [Instr.wf, RegSrc.toLane, hd, ha, hr, Bool.or_true, Bool.and_self]
  case s r => simp only [Instr.wf, RegSrc.toLane, hd, ha, Bool.or_true, Bool.and_self]

theorem judgeTest_sound (hop : fOp w = 0x20 + i) : SoundAt w e (judgeTest w i) := by
  unfold judgeTest
  split
  case h_1 => exact soundAt_none
  case h_2 c hc =>
    replace hop : fOp w = 0x20 + 4 * c.code + (TestTy.ofCode (i % 4)).code := by
      rw [cmp_code_of_ofCode hc, testTy_code_of_ofCode (Nat.mod_lt i (by decide)), hop]
      omega
    generalize TestTy.ofCode (i % 4) = ty at hop
    rcases eq_or_ne ty .f64 with rfl | hty
    · refine soundAt_some fun hc _ hl ho => ?_
      simp only [beq_self_eq_true, if_true, Bool.and_eq_true, decide_eq_true_eq, bne_iff_ne, Bool.not_true, Bool.false_or, beq_iff_eq,
        noC_iff, v3Tail_iff, Bool.false_eq_true, false_or] at hc ho
      obtain ⟨⟨⟨hb, hC, hCs⟩, hrm, hty, hsub⟩, hD⟩ := hc
      obtain ⟨hD0, ⟨hI, hA⟩, hpair⟩ := ho
      obtain ⟨hnum, hbit⟩ := num_bit_of_v3Src (fB_lt w) (fBs_lt w) hb
      refine encodedBy_one rfl rfl (test_f64_wf c _ (kreg_bne_zero hD hD0) (by rw [evenReg_vreg (fA_lt w), hA]) hpair) (eq_of_wV3 hw hI ?_)
      simp [encLane2_toLane, toNat_kreg, hl rfl, *]
    · simp only [beq_false_of_ne hty, Bool.false_eq_true, if_false, Bool.not_false, Bool.true_or, Bool.and_true]
      refine soundAt_some fun hc _ hl ho => ?_
      simp only [Bool.and_eq_true, decide_eq_true_eq, bne_iff_ne] at hc ho
      refine encodedBy_one rfl rfl (by simp only [Instr.wf, bne_iff_ne.2 hty, kreg_bne_zero hc.2 ho, Bool.true_or, Bool.and_self]) ?_
      have := encLane2_of_fields hw (hl rfl) hc.1
      simpa [hop, toNat_kreg hc.2] using this

theorem judgeSet_sound (hop : fOp w = 0x38 + i) : SoundAt w e (judgeSet w i) := by
  simp only [judgeSet]
  split
  case h_1 | h_2 | h_3 | h_4 | h_6 | h_8 | h_9 =>
    refine soundAt_some fun hc hk hl ho => ?_
    simp only [Bool.and_eq_true, decide_eq_true_eq, bne_iff_ne, noC_iff, beq_iff_eq] at hc ho
    refine encodedBy_one rfl rfl (kreg_bne_zero (by simp [hc]) ho.2) (eq_of_wV3 hw ho.1 ?_)
    simp [toNat_kreg, hk rfl, hl rfl, *]
  case h_5 =>
    refine soundAt_some fun hc hk hl hI => encodedBy_one rfl rfl rfl ?_
    simp at hc hk hl hI
    exact eq_of_wV3 hw hI (by simp [toNat_kreg, toNat_sreg, *])
  case h_7 =>
    refine soundAt_some fun hc _ hl ho => ?_
    simp only [Bool.and_eq_true, decide_eq_true_eq, bne_iff_ne, noC_iff, beq_iff_eq] at hc ho
    obtain ⟨⟨⟨⟨⟨⟨hC, hBs⟩, hrm⟩, hty⟩, hD⟩, hB⟩, hsub⟩ := hc
    obtain ⟨⟨hI, hnz⟩, heven⟩ := ho
    refine encodedBy_one rfl rfl ?_ (eq_of_wV3 hw hI ?_)
    · have ha : (!(fSub w == 1) || evenReg (vreg (fA w))) = true := by
        rw [evenReg_vreg (fA_lt w)]
        rcases Bool.or_eq_true _ _ ▸ heven with h | h
        · simp [eq_of_beq h]
        · simp only [h, Bool.or_true]
      simp only [Instr.wf, kreg_bne_zero hD hnz, ha, Bool.and_self]
    · rw [bit_of_flag hsub]
      simp [toNat_kreg, hl rfl, *]
  case h_10 => exact soundAt_none

theorem judgeKMem_load_sound (hop : fOp w = 0x41) : SoundAt w e (some (judgeKMem w true)) := by
  refine soundAt_some fun hc hk _ ho => ?_
  simp only [Bool.and_eq_true, decide_eq_true_eq, bne_iff_ne] at hc ho
  refine encodedBy_one rfl rfl (by simp only [Instr.wf, kreg_bne_zero hc.2 ho.1.1, ho, Bool.and_self]) ?_
  rw [toNat_kreg hc.2, ← hk rfl, ← hop]
  exact encM_of_fields hw hc.1

theorem judgeKMem_store_sound (hop : fOp w = 0x42) : SoundAt w e (some (judgeKMem w false)) := by
  refine soundAt_some fun hc hk _ ho => ?_
  simp only [Bool.and_eq_true, decide_eq_true_eq] at hc ho
  refine encodedBy_one rfl rfl (by simp only [Instr.wf, ho, Bool.and_self]) ?_
  rw [toNat_kreg hc.2, ← hk rfl, ← hop]
  exact encM_of_fields hw hc.1

theorem encM_vreg_of_fields {op : Nat} (hop : fOp w = op) (hc : (mArgsOf w).1 = true) :
    encM op (fK w).toNat (vreg (fCa w)).toNat (mArgsOf w).2 = w := by
  rw [toNat_fK, toNat_vreg_fCa, ← hop, encM_of_fields hw hc]

theorem judgeLd_sound (hop : fOp w = 0x120 + i) : SoundAt w e (judgeLd w i) := by
  unfold judgeLd
  split
  case h_1 => exact soundAt_none
  case h_2 x hx =>
    have hcode := ldW_code_of_ofCode hx
    have hD := evenReg_vreg (fCa_lt w)
    dsimp only
    split
    case h_1 h6 | h_2 h6 | h_3 h6 =>
      exact soundAt_some fun hc _ _ ho => encodedBy_one rfl rfl (by rw [Instr.wf, hD]; exact ho) (encM_vreg_of_fields hw (by omega) hc)
    case h_4 => exact soundAt_none

theorem judgeSt_sound {x : StW} (hop : fOp w = 0x132 + x.code) : SoundAt w e (some (judgeSt w x)) := by
  have hD := evenReg_vreg (fCa_lt w)
  exact soundAt_some fun hc _ _ ho => encodedBy_one rfl rfl (by rw [Instr.wf, hD]; exact ho) (encM_vreg_of_fields hw hop hc)

omit hw in
/-- The atomic control of slot c2: the width and the second operand (R161). -/
theorem atomic_control (w : Nat) : fld w 0 8 + (if (fld w 8 1 == 1) = true then 256 else 0) = fld w 0 9 := by
  have h9 : fld w 0 9 = fld w 0 8 + 256 * fld w 8 1 := by
    unfold fld
    omega
  have := bit_of_flag (n := fld w 8 1) (fld_lt w 8 1)
  split_ifs at this ⊢ <;> omega

theorem judgeAtom_sound {op : AtomOp} (hop : fOp w = 0x136 + op.code) : SoundAt w e (some (judgeAtom w op)) := by
  have hD := evenReg_vreg (fCa_lt w)
  have h8 : fld w 0 8 < 256 := fld_lt w 0 8
  have hC := evenReg_vreg h8
  refine soundAt_some fun hc _ _ ho => ?_
  simp only [Bool.and_eq_true, Bool.or_eq_true, beq_iff_eq] at hc
  obtain ⟨⟨⟨hl, h0⟩, h1⟩, hcas⟩ := hc
  refine encodedBy_one rfl rfl ?_ ((?_ : _ = wM _ _ _ _ _ _ _ _ _).trans (wM_of_fields hw))
  · have hz : (op == .cas || vreg (fld w 0 8) == 0) = true := by rcases hcas with h | h <;> simp [h, vreg]
    simp only [Instr.wf, hz, hD, hC, Bool.true_and]
    exact ho
  · rw [toNat_vreg h8, atomic_control w]
    simp [code_of_layoutOf (fCb_lt w) hl, code_of_mslotOf (fld_lt w 18 9) h0, code_of_mslotOf (fld_lt w 9 9) h1, hop]

end Sound
end Sys2Proof.Encoding

namespace Sys2Proof.Encoding
open Sys2Proof
/-- Registers of each kind (R38 to R40). -/
def regLimit : RegKind → Nat
  | .vector => 256
  | .scalar => 64
  | .set => 16

section Sound
variable {w e i : Nat} (hw : w < 2 ^ 64) (he : e < 2 ^ 64)

theorem xD0_lt (e : Nat) : xD0 e < 2 ^ 32 := fld_lt e 32 32
theorem xD1_lt (e : Nat) : xD1 e < 2 ^ 32 := fld_lt e 0 32
theorem xf_lt (w : Nat) : xf w < 128 := fld_lt w 24 7
theorem xg_lt (w : Nat) : xg w < 128 := fld_lt w 17 7
@[simp] theorem xn_mod (w : Nat) : xn w % 512 = xn w := fld_mod_512 w 0
@[simp] theorem xcls_mod (w : Nat) : xcls w % 4 = xcls w := fld_mod_4 w 9
@[simp] theorem xid_mod (w : Nat) : xid w % 64 = xid w := Nat.mod_eq_of_lt (fld_lt w 11 6)

theorem ofNat_xn_bne_zero (w : Nat) : (BitVec.ofNat 9 (xn w) != 0) = (xn w != 0) := by
  rw [Bool.eq_iff_iff, bne_iff_ne, bne_iff_ne, not_iff_not, ← BitVec.toNat_inj]
  simp
theorem spanOk_vreg_xn {r : Nat} (hr : r < 256) : spanOk (vreg r) (BitVec.ofNat 9 (xn w)) = (xn w != 0 && decide (r + xn w ≤ 256)) := by
  rw [spanOk, toNat_vreg hr, ofNat_xn_bne_zero, BitVec.toNat_ofNat, xn_mod]

@[simp] theorem toNat_bHint (w : Nat) : (bHint w).toNat = fld w 45 2 := toNat_ofNat_fld w 45 2
@[simp] theorem toNat_bOff0 (w : Nat) : (bOff0 w).toNat = fld w 15 16 := toNat_ofNat_fld w 15 16
@[simp] theorem toNat_bOff1 (w : Nat) : (bOff1 w).toNat = fld w 0 15 := toNat_ofNat_fld w 0 15
@[simp] theorem toNat_sreg_bS (w : Nat) : (sreg (bS w)).toNat = bS w := toNat_sreg (fld_lt w 39 6)
@[simp] theorem toNat_kreg_bKa (w : Nat) : (kreg (bKa w)).toNat = bKa w := toNat_kreg (fld_lt w 35 4)
@[simp] theorem toNat_kreg_bKb (w : Nat) : (kreg (bKb w)).toNat = bKb w := toNat_kreg (fld_lt w 31 4)
@[simp] theorem fCi_mod (w : Nat) : fCi w % 2147483648 = fCi w := Nat.mod_eq_of_lt (fld_lt w 0 31)

include he in
/-- The extension word of an instruction with one descriptor. -/
theorem descriptor_of_fields (h0 : (descOf (xD0 e)).1 = true) (h1 : xD1 e = 0) : (descOf (xD0 e)).2.code * 2 ^ 32 = e := by
  rw [code_of_descOf (xD0_lt e) h0]
  simpa [h1] using extension_of_descriptors he
include he in
theorem descriptors_of_fields (h0 : (descOf (xD0 e)).1 = true) (h1 : (descOf (xD1 e)).1 = true) :
    (descOf (xD0 e)).2.code * 2 ^ 32 + (descOf (xD1 e)).2.code = e := by
  rw [code_of_descOf (xD0_lt e) h0, code_of_descOf (xD1_lt e) h1, extension_of_descriptors he]

include hw in
theorem eq_of_wX {n : Nat}
    (h : n = wX (fOp w) (fld w 51 4) (fld w 47 4) (fCa w) (fCb w) (xf w) (xg w) (xid w) (xcls w) (xn w)) : n = w :=
  h.trans (wX_of_fields hw)
include hw in
theorem eq_of_wC {n : Nat} (hla : fld w 47 4 = 0) (h : n = wC (fOp w) (fld w 51 4) (fCa w) (fCb w) (fCi w)) : n = w :=
  h.trans (wC_of_fields hw hla)
include hw in
theorem eq_of_wB {n : Nat} (hk : fld w 51 4 = 0) (hla : fld w 47 4 = 0)
    (h : n = wB (fOp w) (fld w 45 2) (bS w) (bKa w) (bKb w) (fld w 15 16) (fld w 0 15)) : n = w := h.trans (wB_of_fields hw hk hla)

include hw he

theorem judgeTile_sound (hop : fOp w = 0x141 + i) : SoundAt w e (judgeTile w e i) := by
  have hspan := spanOk_vreg_xn (w := w) (fCa_lt w)
  have hspan' := spanOk_vreg_xn (w := w) (fCb_lt w)
  simp only [judgeTile]
  split
  case h_1 | h_2 =>
    refine soundAt_some fun hc hk _ ho => ?_
    simp only [Bool.and_eq_true, beq_iff_eq] at hc
    refine encodedBy_two rfl rfl (hspan.trans ho) (eq_of_wX hw ?_) (descriptor_of_fields he hc.1.2 hc.2)
    simp [hk rfl, *]
  case h_3 | h_4 =>
    refine soundAt_some fun hc _ _ ho => ?_
    simp only [Bool.and_eq_true, beq_iff_eq] at hc
    refine encodedBy_two rfl rfl ?_ (eq_of_wX hw ?_) (descriptor_of_fields he hc.1.2 hc.2)
    · rw [Instr.wf, hspan, hspan']
      exact ho
    · simp [*]
  case h_5 =>
    refine soundAt_some fun hc _ _ ho => ?_
    simp only [Bool.and_eq_true, beq_iff_eq] at hc
    refine encodedBy_two rfl rfl (hspan.trans ho) (eq_of_wX hw ?_) (descriptor_of_fields he hc.1.2 hc.2)
    simp [*]
  case h_6 =>
    refine soundAt_some fun hc _ _ ho => ?_
    simp only [Bool.and_eq_true, beq_iff_eq] at hc
    refine encodedBy_two rfl rfl ((ofNat_xn_bne_zero w).trans ho) (eq_of_wX hw ?_) (descriptors_of_fields he hc.1.2 hc.2)
    simp [*]
  case h_7 =>
    refine soundAt_some fun hc _ _ ho => ?_
    simp only [Bool.and_eq_true, beq_iff_eq] at hc
    refine encodedBy_two rfl rfl ((ofNat_xn_bne_zero w).trans ho) (eq_of_wX hw ?_) (descriptor_of_fields he hc.1.2 hc.2)
    simp [*]
  case h_8 => exact soundAt_none

theorem judgeCpy_sound (hop : fOp w = 0x160 + i) : SoundAt w e (judgeCpy w e i) := by
  simp only [judgeCpy]
  split
  case h_1 | h_2 | h_3 =>
    refine soundAt_some fun hc hk _ _ => ?_
    simp only [Bool.and_eq_true, beq_iff_eq, decide_eq_true_eq] at hc
    obtain ⟨⟨⟨⟨⟨⟨⟨hCa, hbm⟩, hf⟩, hid⟩, hn⟩, h0⟩, h1⟩, hg⟩ := hc
    refine encodedBy_two rfl rfl rfl (eq_of_wX hw ?_) (descriptors_of_fields he h0 h1)
    simp [hk rfl, code_of_layoutOf (fCb_lt w) hbm, Nat.mod_eq_of_lt hf, code_of_dslotOf hf, toNat_sreg, *]
  case h_4 => exact soundAt_none

theorem judgeBmwait_sound (hop : fOp w = 0x15B) : SoundAt w e (some (judgeBmwait w e)) := by
  refine soundAt_some fun hc hk _ _ => ?_
  simp only [Bool.and_eq_true, beq_iff_eq, decide_eq_true_eq] at hc
  obtain ⟨⟨⟨⟨⟨⟨⟨hCa, hbm⟩, hf⟩, hg⟩, hid⟩, hcls⟩, hn⟩, h1⟩ := hc
  refine encodedBy_two rfl rfl rfl (eq_of_wX hw ?_) ?_
  · simp [hk rfl, code_of_layoutOf (fCb_lt w) hbm, Nat.mod_eq_of_lt hf, code_of_dslotOf hf, toNat_sreg, *]
  · rw [BitVec.toNat_ofNat, Nat.mod_eq_of_lt (xD0_lt e)]
    simpa [h1] using extension_of_descriptors he

theorem judgeMma_sound {fmt : MmaFmt} (hop : fOp w = 0x171 + fmt.code) : SoundAt w e (some (judgeMma w e fmt)) := by
  refine soundAt_some fun hc hk _ ho => ?_
  simp only [Bool.and_eq_true, beq_iff_eq] at hc
  obtain ⟨⟨⟨⟨hp0, hp1⟩, hcls⟩, h0⟩, h1⟩ := hc
  refine encodedBy_two rfl rfl ?_ (eq_of_wX hw ?_) (descriptor_of_fields he h0 h1)
  · simp only [Instr.wf, ofNat_xn_bne_zero, toNat_vreg_fCa]
    exact ho
  · simp [hk rfl, predCode_of_predOf (xf_lt w) hp0, predCode_of_predOf (xg_lt w) hp1, *]

omit he

theorem judgeControl_sound (hop : fOp w = i) : SoundAt w e (judgeControl w i) := by
  simp only [judgeControl]
  split
  case h_1 | h_6 | h_10 | h_13 | h_16 | h_17 =>
    refine soundAt_some fun hc hk hl _ => encodedBy_one rfl rfl rfl (eq_of_wC hw (hl rfl) ?_)
    simp at hc hk
    simp [*]
  case h_2 | h_3 | h_4 | h_5 | h_7 | h_9 =>
    refine soundAt_some fun hc hk hl _ => encodedBy_one rfl rfl rfl (eq_of_wB hw (hk rfl) (hl rfl) ?_)
    simp at hc
    simp [*]
  case h_8 =>
    refine soundAt_some fun hc hk hl ho => encodedBy_one rfl rfl ?_ (eq_of_wB hw (hk rfl) (hl rfl) ?_)
    · refine bne_iff_ne.2 fun he => bne_iff_ne.1 ho ?_
      rw [← toNat_bHint, he]
      rfl
    · simp at hc
      simp [*]
  case h_11 =>
    refine soundAt_some fun hc _ hl _ => encodedBy_one rfl rfl rfl (eq_of_wC hw (hl rfl) ?_)
    simp at hc
    simp [*]
  case h_12 =>
    refine soundAt_some fun hc hk hl _ => encodedBy_one rfl rfl rfl (eq_of_wC hw (hl rfl) ?_)
    simp at hc hk
    simp [toNat_sreg, *]
  case h_14 | h_18 =>
    refine soundAt_some fun hc _ hl _ => encodedBy_one rfl rfl rfl (eq_of_wC hw (hl rfl) ?_)
    simp at hc
    simp [Nat.mod_eq_of_lt, *]
  case h_15 =>
    refine soundAt_some fun hc hk hl ho => ?_
    simp at hc hk ho
    have hform : fCi w = 0 ∨ fCi w = 1 ∨ fCi w = 2 := by omega
    rcases hform with h | h | h <;> rw [h] <;> exact encodedBy_one rfl rfl rfl (eq_of_wC hw (hl rfl) (by simp [*]))
  case h_19 => exact soundAt_none

omit hw in
theorem vreg_bne_zero {n : Nat} (h : n < 256) : (vreg n != 0) = (n != 0) := by
  rw [Bool.eq_iff_iff, bne_iff_ne, bne_iff_ne, not_iff_not, ← BitVec.toNat_inj, toNat_vreg h]
  rfl

omit hw in
theorem pushPopOk_iff {isPop : Bool} {kd : RegKind} {a : VReg} {n : BitVec 5} : pushPopOk isPop kd a n = true ↔
    (1 ≤ n.toNat ∧ n.toNat ≤ 16) ∧ a.toNat + n.toNat ≤ regLimit kd ∧ (isPop = true → kd = .set → a.toNat ≠ 0) := by
  cases kd <;> cases isPop <;> simp [pushPopOk, regLimit, and_assoc, ← BitVec.toNat_inj]

omit hw in
/-- The kind field of push and pop, its kind and its limit as the decoder finds them. -/
theorem regKind_of_field {b : Nat} (hb : b < 4) (h3 : b % 4 ≠ 3) : ∃ kd : RegKind, kd.code = b ∧
    (if (b % 4 == 0) = true then RegKind.vector else if (b % 4 == 1) = true then .scalar else .set) = kd ∧
    (if (b % 4 == 0) = true then 256 else if (b % 4 == 1) = true then 64 else 16) = regLimit kd ∧ (kd = .set → b % 4 = 2) := by
  have hb : b = 0 ∨ b = 1 ∨ b = 2 := by omega
  rcases hb with rfl | rfl | rfl
  · exact ⟨.vector, rfl, rfl, rfl, nofun⟩
  · exact ⟨.scalar, rfl, rfl, rfl, nofun⟩
  · exact ⟨.set, rfl, rfl, rfl, fun _ => rfl⟩

theorem judgePushPop_sound {isPush : Bool} (hop : fOp w = if isPush then 0x148 else 0x149) : SoundAt w e (some (judgePushPop w isPush)) := by
  refine soundAt_some fun hc hk hl ho => ?_
  simp only [Bool.and_eq_true, Bool.or_eq_true, decide_eq_true_eq, bne_iff_ne] at hc ho
  obtain ⟨⟨⟨h3, hn⟩, hlim⟩, hpop⟩ := ho
  obtain ⟨kd, hcode, hkind, hlimit, hset⟩ := regKind_of_field hc.1 h3
  rw [hlimit] at hlim
  rw [hkind]
  have hn' : (BitVec.ofNat 5 (fCi w)).toNat = fCi w := by rw [BitVec.toNat_ofNat, Nat.mod_eq_of_lt (by omega)]
  have hok (isPop : Bool) (h : isPop = !isPush) : pushPopOk isPop kd (vreg (fCa w)) (BitVec.ofNat 5 (fCi w)) = true := by
    refine pushPopOk_iff.2 ⟨hn'.symm ▸ hn, ?_, fun hp hkd h0 => ?_⟩
    · rwa [hn', toNat_vreg_fCa]
    · rw [toNat_vreg_fCa] at h0
      simp [hset hkd, h0, hp ▸ h] at hpop
  cases isPush
  · exact encodedBy_one rfl rfl (hok true rfl) (eq_of_wC hw (hl rfl) (by rw [hn', hcode, hk rfl, hop, toNat_vreg_fCa]; rfl))
  · exact encodedBy_one rfl rfl (hok false rfl) (eq_of_wC hw (hl rfl) (by rw [hn', hcode, hk rfl, hop, toNat_vreg_fCa]; rfl))

omit hw in
theorem gang_immediate {n : Nat} (h : n < 2 ^ 22) :
    fld n 0 5 + fld n 5 5 * 2 ^ 5 + fld n 10 5 * 2 ^ 10 + fld n 15 5 * 2 ^ 15 + fld n 20 2 * 2 ^ 20 = n := by
  linarith [below_add n 0 5, below_add n 5 5, below_add n 10 5, below_add n 15 5, below_add n 20 2, below_zero n,
    show below n 22 = n from Nat.mod_eq_of_lt h]

theorem judgeGang_sound (hop : fOp w = 0x170) : SoundAt w e (some (judgeGang w)) := by
  refine soundAt_some fun hc hk hl ho => ?_
  simp only [Bool.and_eq_true, Bool.or_eq_true, beq_iff_eq, decide_eq_true_eq] at hc ho
  obtain ⟨⟨⟨⟨ha, hbind⟩, hb⟩, hlo⟩, hhi⟩ := hc
  obtain ⟨⟨⟨him, hlo'⟩, hhi'⟩, hsh⟩ := ho
  refine encodedBy_one rfl rfl ?_ (eq_of_wC hw (hl rfl) ?_)
  · simp [Instr.wf, GangArgs.wf, ← BitVec.toNat_inj, -BitVec.toNat_ofNat]
    simp at hlo' hhi' hsh
    refine ⟨⟨?_, ?_⟩, hsh⟩
    · split_ifs with h
      · exact hlo'.resolve_left (by omega)
      · exact hlo.resolve_left h
    · split_ifs with h
      · exact hhi'.resolve_left (by omega)
      · exact hhi.resolve_left h
  · simp only [toNat_ofNat_fld, gang_immediate him, hop, hk rfl, hb]
    rcases hbind with h8 | h0
    · have : 8 + fCa w % 8 % 2 ^ 3 = fCa w := by omega
      simp only [h8, decide_true, if_true, BitVec.toNat_ofNat, this]
    · simp [h0]

theorem judgeMwait_sound (hop : fOp w = 0x17E) : SoundAt w e (some (judgeMwait w)) := by
  refine soundAt_some fun hc hk hl ho => ?_
  simp only [Bool.and_eq_true, decide_eq_true_eq, bne_iff_ne] at ho
  obtain ⟨hform, him⟩ := ho
  have hi : fCi w % 64 + fld (fCi w) 6 2 * 64 = fCi w := by
    unfold fld
    omega
  have hform : fld (fCi w) 6 2 = 0 ∨ fld (fCi w) 6 2 = 1 ∨ fld (fCi w) 6 2 = 2 := by
    have : fld (fCi w) 6 2 < 4 := fld_lt _ 6 2
    omega
  rcases hform with h | h | h <;> rw [h] at hi <;> simp [h] at hc ⊢ <;> refine encodedBy_one rfl rfl rfl (eq_of_wC hw (hl rfl) ?_)
  · rw [Nat.zero_mul, Nat.add_zero] at hi
    simp [hop, hk rfl, hc, hi]
  · rw [hc.2] at hi
    simp [toNat_sreg, hop, hk rfl, hc, Nat.mod_eq_of_lt, ← hi]
  · rw [hc.2] at hi
    simp [hop, hk rfl, hc, ← hi]

theorem judgeEmit_sound (hop : fOp w = 0x180) : SoundAt w e (some (judgeEmit w)) := by
  refine soundAt_some fun hc hk hl ho => ?_
  have hb : fld (fCb w) 3 1 = fCb w / 8 % 2 := rfl
  have hb2 : fld (fCb w) 3 1 = 0 ∨ fld (fCb w) 3 1 = 1 := by omega
  rcases hb2 with h | h <;> simp [h] at hc hk ho ⊢ <;> refine encodedBy_one rfl rfl ?_ (eq_of_wC hw (hl rfl) ?_)
  · simpa [Instr.wf] using ho
  · have : fCb w % 8 = fCb w := by omega
    simp [*]
  · simpa [Instr.wf, toNat_sreg hc.2] using ho
  · have : 8 + fCb w % 8 = fCb w := by omega
    simp [toNat_sreg, *]

theorem judgeRsr_sound (hop : fOp w = 0x182) : SoundAt w e (some (judgeRsr w)) := by
  refine soundAt_some fun hc hk hl ho => ?_
  have hb : fCb w % 2 = 0 ∨ fCb w % 2 = 1 := by omega
  rcases hb with h | h <;> simp [h] at hc hk ho ⊢ <;> refine encodedBy_one rfl rfl ?_ (eq_of_wC hw (hl rfl) ?_)
  all_goals have hn : fCi w % 16 = fCi w := by omega
  · simpa [Instr.wf, hn] using ho
  · have : (if 2 ≤ fCb w then 2 else 0) = fCb w := by split_ifs <;> omega
    simp [*]
  · simpa [Instr.wf, hn, ← BitVec.toNat_inj] using ho
  · have : fCb w = 1 := by omega
    simp [toNat_sreg, *]

theorem judgeC_sound (hop : fOp w = i) : SoundAt w e (judgeC w i) := by
  simp only [judgeC]
  split
  case h_1 => exact judgePushPop_sound hw hop
  case h_2 => exact judgePushPop_sound hw hop
  case h_3 =>
    refine soundAt_some fun hc hk hl ho => ?_
    simp at hc hk hl ho
    refine encodedBy_one rfl rfl (decide_eq_true ?_) (eq_of_wC hw hl ?_)
    · rw [toNat_sreg hc.1]
      exact ho.1
    · simp [toNat_sreg, Nat.mod_eq_of_lt (Nat.lt_succ_of_le ho.2), *]
  case h_4 | h_5 | h_6 | h_7 | h_8 | h_9 | h_10 | h_11 | h_15 =>
    refine soundAt_some fun hc hk hl _ => encodedBy_one rfl rfl rfl (eq_of_wC hw (hl rfl) ?_)
    simp at hc hk
    simp [Scope.code, *]
  case h_12 | h_13 =>
    refine soundAt_some fun hc hk _ ho => ?_
    simp only [Bool.and_eq_true, decide_eq_true_eq] at hc
    refine encodedBy_one rfl rfl ho ?_
    rw [toNat_sreg hc.2, ← hk rfl, show _ = fOp w from hop.symm]
    exact encM_of_fields hw hc.1
  case h_14 => exact judgeGang_sound hw hop
  case h_16 => exact judgeMwait_sound hw hop
  case h_17 => exact judgeEmit_sound hw hop
  case h_18 =>
    refine soundAt_some fun hc hk hl _ => encodedBy_one rfl rfl rfl (eq_of_wC hw (hl rfl) ?_)
    simp at hc hk
    simp [Nat.mod_eq_of_lt, *]
  case h_19 => exact judgeRsr_sound hw hop
  case h_20 =>
    refine soundAt_some fun hc hk hl ho => ?_
    simp at hc hk hl ho
    rcases ho with h | h <;> exact encodedBy_one rfl rfl (by simp [Instr.wf, h]) (eq_of_wC hw hl (by simp [toNat_sreg, *]))
  case h_21 | h_22 =>
    refine soundAt_some fun _ hk hl ho => encodedBy_one rfl rfl rfl (eq_of_wC hw (hl rfl) ?_)
    simp at hk ho
    simp [toNat_sreg, Nat.mod_eq_of_lt, *]
  case h_23 => exact soundAt_none

end Sound
end Sys2Proof.Encoding

namespace Sys2Proof.Encoding
open Sys2Proof

/-- Whatever the opcode, an accepted judgment is of a well-formed instruction with the judged words (R33). -/
theorem soundAt_ite {w e : Nat} {c : Prop} [Decidable c] {a b : Option Judged} (ha : c → SoundAt w e a) (hb : ¬c → SoundAt w e b) :
    SoundAt w e (if c then a else b) := by
  split
  case isTrue h => exact ha h
  case isFalse h => exact hb h

theorem judge_sound {w e : Nat} (hw : w < 2 ^ 64) (he : e < 2 ^ 64) : SoundAt w e (judge w e) := by
  unfold judge
  refine soundAt_ite (fun _ => judgeControl_sound hw rfl) fun _ => ?_
  refine soundAt_ite (fun _ => judgeTest_sound hw (by omega)) fun _ => ?_
  refine soundAt_ite (fun _ => judgeSet_sound hw (by omega)) fun _ => ?_
  refine soundAt_ite (fun h => judgeKMem_load_sound hw (eq_of_beq h)) fun _ => ?_
  refine soundAt_ite (fun h => judgeKMem_store_sound hw (eq_of_beq h)) fun _ => ?_
  refine soundAt_ite (fun _ => soundAt_none) fun _ => ?_
  refine soundAt_ite (fun _ => judgeIntLane_sound hw (by omega)) fun _ => ?_
  refine soundAt_ite (fun _ => soundAt_none) fun _ => ?_
  refine soundAt_ite (fun _ => judgeIntScalar_sound hw (by omega)) fun _ => ?_
  refine soundAt_ite (fun _ => soundAt_none) fun _ => ?_
  refine soundAt_ite (fun _ => judgeFloatLane_sound hw (by omega)) fun _ => ?_
  refine soundAt_ite (fun _ => judgeFloatScalar_sound hw (by omega)) fun _ => ?_
  refine soundAt_ite (fun _ => judgeWide_sound hw (by omega)) fun _ => ?_
  refine soundAt_ite (fun _ => soundAt_map fun _ h => judgeCvt_sound hw (by rw [ty_code_of_ofCode h]; omega)) fun _ => ?_
  refine soundAt_ite (fun _ => soundAt_map fun _ h => judgeCvtSr_sound hw h (by omega)) fun _ => ?_
  refine soundAt_ite (fun h => judgeRnd_sound hw (eq_of_beq h)) fun _ => ?_
  refine soundAt_ite (fun _ => soundAt_none) fun _ => ?_
  refine soundAt_ite (fun _ => judgeDot_sound hw (by omega)) fun _ => ?_
  refine soundAt_ite (fun _ => judgeCross_sound hw (by omega)) fun _ => ?_
  refine soundAt_ite (fun _ => soundAt_map fun _ h => judgeRed_sound hw (by rw [redOp_code_of_ofCode h]; omega)) fun _ => ?_
  refine soundAt_ite (fun _ => soundAt_map fun _ h => judgeRedx_sound hw (by rw [redxOp_code_of_ofCode h]; omega)) fun _ => ?_
  refine soundAt_ite (fun _ => soundAt_map fun _ h => judgeScan_sound hw (by rw [redOp_code_of_ofCode h]; omega)) fun _ => ?_
  refine soundAt_ite (fun _ => judgeLd_sound hw (by omega)) fun _ => ?_
  refine soundAt_ite (fun _ => soundAt_map fun _ h => judgeSt_sound hw (by rw [stW_code_of_ofCode h]; omega)) fun _ => ?_
  refine soundAt_ite (fun _ => soundAt_map fun _ h => judgeAtom_sound hw (by rw [atomOp_code_of_ofCode h]; omega)) fun _ => ?_
  refine soundAt_ite (fun _ => judgeTile_sound hw he (by omega)) fun _ => ?_
  refine soundAt_ite (fun h => judgeBmwait_sound hw he (eq_of_beq h)) fun _ => ?_
  refine soundAt_ite (fun _ => judgeC_sound hw rfl) fun _ => ?_
  refine soundAt_ite (fun _ => judgeCpy_sound hw he (by omega)) fun _ => ?_
  refine soundAt_ite (fun _ => soundAt_map fun _ h => judgeMma_sound hw he (by rw [mmaFmt_code_of_ofCode h]; omega)) fun _ => ?_
  exact judgeC_sound hw rfl

theorem judge_of_decode {w : DWord} {ext : Option DWord} {x : Instr} (h : decode w ext = .ok x) :
    ∃ j, judge w.toNat (ext.getD 0).toNat = some j ∧ j.verdict w.toNat = .ok x := by
  dsimp only [decode] at h
  split at h
  case isFalse =>
    split at h
    case h_2 j hj =>
      split at h
      case isFalse => exact ⟨j, hj, h⟩
      case isTrue => cases h
    case h_1 => cases h
  case isTrue => cases h

/-- Settles O2: every part of the opcode map accepts only words that are composed of the fields it read. -/
theorem encodeOfDecode : Obligations.EncodeOfDecode := by
  intro w e i h
  obtain ⟨j, hj, hv⟩ := judge_of_decode h
  obtain ⟨hwf, henc⟩ := judge_sound w.isLt e.isLt j hj i hv
  refine ⟨hwf, ?_⟩
  rw [Sys2Proof.encode, henc, List.map_take]
  simp

end Sys2Proof.Encoding
end

