-- ==== Sys2Proof/Proofs/DecodeComplete.lean ====
section
/-! SUPPORT. The decoder reads every well-formed instruction back from its code words: one lemma for each shape of encoding (02 R19 to R33). -/

namespace Sys2Proof.Encoding
open Sys2Proof

/-! ### The part of the opcode map that judges an opcode (R33) -/

section Ranges
variable {w e op i : Nat}

theorem judge_control (h : fOp w = op) (hop : op < 0x20) : judge w e = judgeControl w op := by
  simp (disch := omega) only [judge, h, if_pos]
theorem judge_test (h : fOp w = 0x20 + i) (hi : i < 24) : judge w e = judgeTest w i := by
  simp (disch := omega) only [judge, h, if_pos, if_neg, Nat.add_sub_cancel_left]
theorem judge_set (h : fOp w = 0x38 + i) (hi : i < 9) : judge w e = judgeSet w i := by
  simp (disch := omega) only [judge, h, if_pos, if_neg, Nat.add_sub_cancel_left]
theorem judge_kld (h : fOp w = 0x41) : judge w e = some (judgeKMem w true) := by
  simp (disch := omega) only [judge, h, beq_iff_eq, if_true, if_neg]
theorem judge_kst (h : fOp w = 0x42) : judge w e = some (judgeKMem w false) := by
  simp (disch := omega) only [judge, h, beq_iff_eq, if_true, if_neg]
theorem judge_intLane (h : fOp w = 0x50 + i) (hi : i < 28) : judge w e = judgeIntLane w i := by
  simp (disch := omega) only [judge, h, beq_iff_eq, if_pos, if_neg, Nat.add_sub_cancel_left]
theorem judge_intScalar (h : fOp w = 0x70 + i) (hi : i < 28) : judge w e = judgeIntScalar w i := by
  simp (disch := omega) only [judge, h, beq_iff_eq, if_pos, if_neg, Nat.add_sub_cancel_left]
theorem judge_floatLane (h : fOp w = 0x90 + i) (hi : i < 16) : judge w e = judgeFloatLane w i := by
  simp (disch := omega) only [judge, h, beq_iff_eq, if_pos, if_neg, Nat.add_sub_cancel_left]
theorem judge_floatScalar (h : fOp w = 0xA0 + i) (hi : i < 16) : judge w e = judgeFloatScalar w i := by
  simp (disch := omega) only [judge, h, beq_iff_eq, if_pos, if_neg, Nat.add_sub_cancel_left]
theorem judge_wide (h : fOp w = 0xB0 + i) (hi : i < 16) : judge w e = judgeWide w i := by
  simp (disch := omega) only [judge, h, beq_iff_eq, if_pos, if_neg, Nat.add_sub_cancel_left]
theorem judge_cvt {t : Ty} (h : fOp w = 0xC0 + t.code) : judge w e = some (judgeCvt w t) := by
  have := ty_code_lt t
  simp (disch := omega) only [judge, h, beq_iff_eq, if_pos, if_neg, Nat.add_sub_cancel_left, ty_ofCode_code, Option.map_some]
theorem judge_cvtSr {t : Ty} (h : fOp w = 0xD1 + t.srIndex) (ht : srDst t.srIndex = some t) : judge w e = some (judgeCvtSr w t) := by
  have := ty_srIndex_lt t
  simp (disch := omega) only [judge, h, beq_iff_eq, if_pos, if_neg, Nat.add_sub_cancel_left, ht, Option.map_some]
theorem judge_rnd (h : fOp w = 0xD8) : judge w e = some (judgeRnd w) := by
  simp (disch := omega) only [judge, h, beq_iff_eq, if_true, if_neg]
theorem judge_dot (h : fOp w = 0xE0 + i) (hi : i < 16) : judge w e = judgeDot w i := by
  simp (disch := omega) only [judge, h, beq_iff_eq, if_pos, if_neg, Nat.add_sub_cancel_left]
theorem judge_cross (h : fOp w = 0xF0 + i) (hi : i < 8) : judge w e = judgeCross w i := by
  simp (disch := omega) only [judge, h, beq_iff_eq, if_pos, if_neg, Nat.add_sub_cancel_left]
theorem judge_red {o : RedOp} (h : fOp w = 0xF8 + o.code) : judge w e = some (judgeRed w o) := by
  have := redOp_code_lt o
  simp (disch := omega) only [judge, h, beq_iff_eq, if_pos, if_neg, Nat.add_sub_cancel_left, redOp_ofCode_code, Option.map_some]
theorem judge_redx {o : RedxOp} (h : fOp w = 0x103 + o.code) : judge w e = some (judgeRedx w o) := by
  have := redxOp_code_lt o
  simp (disch := omega) only [judge, h, beq_iff_eq, if_pos, if_neg, Nat.add_sub_cancel_left, redxOp_ofCode_code, Option.map_some]
theorem judge_scan {o : RedOp} (h : fOp w = 0x110 + o.code) : judge w e = some (judgeScan w o) := by
  have := redOp_code_lt o
  simp (disch := omega) only [judge, h, beq_iff_eq, if_pos, if_neg, Nat.add_sub_cancel_left, redOp_ofCode_code, Option.map_some]
theorem judge_ld (h : fOp w = 0x120 + i) (hi : i < 18) : judge w e = judgeLd w i := by
  simp (disch := omega) only [judge, h, beq_iff_eq, if_pos, if_neg, Nat.add_sub_cancel_left]
theorem judge_st {x : StW} (h : fOp w = 0x132 + x.code) : judge w e = some (judgeSt w x) := by
  have := stW_code_lt x
  simp (disch := omega) only [judge, h, beq_iff_eq, if_pos, if_neg, Nat.add_sub_cancel_left, stW_ofCode_code, Option.map_some]
theorem judge_atom {o : AtomOp} (h : fOp w = 0x136 + o.code) : judge w e = some (judgeAtom w o) := by
  have := atomOp_code_lt o
  simp (disch := omega) only [judge, h, beq_iff_eq, if_pos, if_neg, Nat.add_sub_cancel_left, atomOp_ofCode_code, Option.map_some]
theorem judge_tile (h : fOp w = 0x141 + i) (hi : i < 7) : judge w e = judgeTile w e i := by
  simp (disch := omega) only [judge, h, beq_iff_eq, if_pos, if_neg, Nat.add_sub_cancel_left]
theorem judge_bmwait (h : fOp w = 0x15B) : judge w e = some (judgeBmwait w e) := by
  simp (disch := omega) only [judge, h, beq_iff_eq, if_true, if_neg]
theorem judge_lowC (h : fOp w = op) (hlo : 0x148 ≤ op) (hhi : op < 0x15B) : judge w e = judgeC w op := by
  simp (disch := omega) only [judge, h, beq_iff_eq, if_pos, if_neg]
theorem judge_cpy (h : fOp w = 0x160 + i) (hi : i < 3) : judge w e = judgeCpy w e i := by
  simp (disch := omega) only [judge, h, beq_iff_eq, if_pos, if_neg, Nat.add_sub_cancel_left]
theorem judge_mma {f : MmaFmt} (h : fOp w = 0x171 + f.code) : judge w e = some (judgeMma w e f) := by
  have := mmaFmt_code_lt f
  simp (disch := omega) only [judge, h, beq_iff_eq, if_pos, if_neg, Nat.add_sub_cancel_left, mmaFmt_ofCode_code, Option.map_some]
theorem judge_highC (h : fOp w = op) (hop : op = 0x170 ∨ 0x17D ≤ op) : judge w e = judgeC w op := by
  simp (disch := omega) only [judge, h, beq_iff_eq, if_neg]

end Ranges

/-- No instruction has the marker of a header word (R30). -/
theorem judge_header {w e : Nat} (h : fOp w = 0x1FF) : judge w e = none := by
  rw [judge_highC h (by decide)]
  rfl

/-! ### A word that the decoder judges good reads back -/

/-- The decoder reads an instruction back from its code words. -/
def ReadBack (x : Instr) : Prop := (encode x).length = x.words ∧ decode ((encode x).headD 0) (encode x)[1]? = .ok x

/-- A word, with the one behind it, is judged to be an instruction. -/
def JudgedAs (w e : Nat) (x : Instr) : Prop := ∃ j, judge w e = some j ∧ j.clean = true ∧ (j.kZero = true → fld w 51 4 = 0) ∧
  (j.short = true → fld w 47 4 = 0) ∧ j.ok = true ∧ j.instr = x

theorem decode_of_judgedAs {w : DWord} {ext : Option DWord} {x : Instr} (hX : isX (fOp w.toNat) = true → ext.isSome = true)
    (h : JudgedAs w.toNat (ext.getD 0).toNat x) : decode w ext = .ok x := by
  obtain ⟨j, hj, hv⟩ := h
  have hhead : (fOp w.toNat == 0x1FF) = false := beq_false_of_ne fun h => by simp [judge_header h] at hj
  have hext : (isX (fOp w.toNat) && ext.isNone) = false := by
    cases hx : isX (fOp w.toNat)
    · rfl
    · simp [hX hx]
  simp only [decode, hhead, hj, hext, Bool.false_eq_true, if_false]
  exact verdict_eq_ok_iff.2 hv

theorem readBack_one {x : Instr} {w : Nat} (hwords : x.words = 1) (henc : encodeNat x = [w]) (hw : w < 2 ^ 64) (hX : isX (fOp w) = false)
    (h : JudgedAs w 0 x) : ReadBack x := by
  have he : encode x = [BitVec.ofNat 64 w] := by rw [encode, henc]; rfl
  have hn : (BitVec.ofNat 64 w).toNat = w := by rw [BitVec.toNat_ofNat, Nat.mod_eq_of_lt hw]
  rw [ReadBack, he, hwords]
  refine ⟨rfl, decode_of_judgedAs (w := BitVec.ofNat 64 w) (ext := none) (fun hx => ?_) ?_⟩
  · rw [hn, hX] at hx
    cases hx
  · rw [hn]
    exact h

theorem readBack_two {x : Instr} {w e : Nat} (hwords : x.words = 2) (henc : encodeNat x = [w, e]) (hw : w < 2 ^ 64) (he : e < 2 ^ 64)
    (h : JudgedAs w e x) : ReadBack x := by
  have henc' : encode x = [BitVec.ofNat 64 w, BitVec.ofNat 64 e] := by rw [encode, henc]; rfl
  have hn : (BitVec.ofNat 64 w).toNat = w := by rw [BitVec.toNat_ofNat, Nat.mod_eq_of_lt hw]
  have hm : (BitVec.ofNat 64 e).toNat = e := by rw [BitVec.toNat_ofNat, Nat.mod_eq_of_lt he]
  rw [ReadBack, henc', hwords]
  refine ⟨rfl, decode_of_judgedAs (w := BitVec.ofNat 64 w) (ext := some (BitVec.ofNat 64 e)) (fun _ => rfl) ?_⟩
  rw [hn, Option.getD_some, hm]
  exact h

section Formats
variable {x : Instr} {op k la d a b c rm ty bs cs sub imm : Nat}

theorem readBack_V3 (hwords : x.words = 1) (henc : encodeNat x = [wV3 op k la d a b c rm ty bs cs sub]) (hX : isX op = false)
    (hfit : op < 512 ∧ k < 16 ∧ la < 16 ∧ d < 256 ∧ a < 256 ∧ b < 256 ∧ c < 256 ∧ rm < 4 ∧ ty < 32 ∧ bs < 2 ∧ cs < 2 ∧ sub < 32)
    (h : ∀ w, fOp w = op → fld w 51 4 = k → fld w 47 4 = la → fI w = 0 → fD w = d → fA w = a → fB w = b → fC w = c → fRm w = rm → fTy w = ty →
      fBs w = bs → fCs w = cs → fSub w = sub → JudgedAs w 0 x) : ReadBack x := by
  obtain ⟨hop, hk, hla, hd, ha, hb, hc, hrm, hty, hbs, hcs, hsub⟩ := hfit
  generalize hw : wV3 op k la d a b c rm ty bs cs sub = w at henc
  obtain ⟨hlt, h1, h2, h3, h4, h5, h6, h7, h8, h9, h10, h11, h12, h13⟩ := fields_of_wV3 hw hop hk hla hd ha hb hc hrm hty hbs hcs hsub
  exact readBack_one hwords henc hlt (h1 ▸ hX) (h w h1 h2 h3 h4 h5 h6 h7 h8 h9 h10 h11 h12 h13)

theorem readBack_VI (hwords : x.words = 1) (henc : encodeNat x = [wVI op k la d a rm imm]) (hX : isX op = false)
    (hfit : op < 512 ∧ k < 16 ∧ la < 16 ∧ d < 256 ∧ a < 256 ∧ rm < 4 ∧ imm < 2 ^ 28)
    (h : ∀ w, fOp w = op → fld w 51 4 = k → fld w 47 4 = la → fI w = 1 → fD w = d → fA w = a → fImRm w = rm → fld w 0 28 = imm → JudgedAs w 0 x)
      : ReadBack x := by
  obtain ⟨hop, hk, hla, hd, ha, hrm, himm⟩ := hfit
  generalize hw : wVI op k la d a rm imm = w at henc
  obtain ⟨hlt, h1, h2, h3, h4, h5, h6, h7, h8⟩ := fields_of_wVI hw hop hk hla hd ha hrm himm
  exact readBack_one hwords henc hlt (h1 ▸ hX) (h w h1 h2 h3 h4 h5 h6 h7 h8)

theorem readBack_C (hwords : x.words = 1) (henc : encodeNat x = [wC op k a b imm]) (hX : isX op = false)
    (hfit : op < 512 ∧ k < 16 ∧ a < 256 ∧ b < 256 ∧ imm < 2 ^ 31)
    (h : ∀ w, fOp w = op → fld w 51 4 = k → fld w 47 4 = 0 → fCa w = a → fCb w = b → fCi w = imm → JudgedAs w 0 x) : ReadBack x := by
  obtain ⟨hop, hk, ha, hb, himm⟩ := hfit
  generalize hw : wC op k a b imm = w at henc
  obtain ⟨hlt, h1, h2, h3, h4, h5, h6⟩ := fields_of_wC hw hop hk ha hb himm
  exact readBack_one hwords henc hlt (h1 ▸ hX) (h w h1 h2 h3 h4 h5 h6)

theorem readBack_B {hint s ka kb off0 off1 : Nat} (hwords : x.words = 1) (henc : encodeNat x = [wB op hint s ka kb off0 off1]) (hX : isX op = false)
    (hfit : op < 512 ∧ hint < 4 ∧ s < 64 ∧ ka < 16 ∧ kb < 16 ∧ off0 < 2 ^ 16 ∧ off1 < 2 ^ 15)
    (h : ∀ w, fOp w = op → fld w 51 4 = 0 → fld w 47 4 = 0 → fld w 45 2 = hint → bS w = s → bKa w = ka → bKb w = kb → fld w 15 16 = off0 →
      fld w 0 15 = off1 → JudgedAs w 0 x) : ReadBack x := by
  obtain ⟨hop, hh, hs, hka, hkb, h0, h1⟩ := hfit
  generalize hw : wB op hint s ka kb off0 off1 = w at henc
  obtain ⟨hlt, f1, f2, f3, f4, f5, f6, f7, f8, f9⟩ := fields_of_wB hw hop hh hs hka hkb h0 h1
  exact readBack_one hwords henc hlt (f1 ▸ hX) (h w f1 f2 f3 f4 f5 f6 f7 f8 f9)

theorem readBack_M {m : MArgs} (hwords : x.words = 1) (henc : encodeNat x = [encM op k d m]) (hX : isX op = false)
    (hfit : op < 512 ∧ k < 16 ∧ d < 256)
    (h : ∀ w, fOp w = op → fld w 51 4 = k → fCa w = d → mArgsOf w = (true, m) → JudgedAs w 0 x) : ReadBack x := by
  obtain ⟨hop, hk, hd⟩ := hfit
  rw [encM] at henc
  generalize hw : wM op k m.la.toNat d m.l.code m.os.toNat m.c0.code m.c1.code m.c2.code = w at henc
  obtain ⟨hlt, h1, h2, h3, h4, h5, h6, h7, h8, h9⟩ := fields_of_wM hw hop hk m.la.isLt hd (layout_code_lt m.l) m.os.isLt (mslot_code_lt m.c0)
    (mslot_code_lt m.c1) (mslot_code_lt m.c2)
  exact readBack_one hwords henc hlt (h1 ▸ hX) (h w h1 h2 h4 (by simp [mArgsOf, fLa, *]))

theorem readBack_X {e f g id cls n m : Nat} (hwords : x.words = 2) (henc : encodeNat x = [wX op k la d e f g id cls n, m]) (hm : m < 2 ^ 64)
    (hfit : e < 256 ∧ f < 128 ∧ g < 128 ∧ op < 512 ∧ k < 16 ∧ la < 16 ∧ d < 256 ∧ id < 64 ∧ cls < 4 ∧ n < 512)
    (h : ∀ w, fOp w = op → fld w 51 4 = k → fld w 47 4 = la → fCa w = d → fCb w = e → xf w = f → xg w = g → xid w = id → xcls w = cls → xn w = n →
      JudgedAs w m x) : ReadBack x := by
  obtain ⟨he, hf, hg, hop, hk, hla, hd, hid, hcls, hn⟩ := hfit
  generalize hw : wX op k la d e f g id cls n = w at henc
  obtain ⟨hlt, h1, h2, h3, h4, h5, h6, h7, h8, h9, h10⟩ := fields_of_wX hw hop hk hla hd he hf hg hid hcls hn
  exact readBack_two hwords henc hlt hm (h w h1 h2 h3 h4 h5 h6 h7 h8 h9 h10)

end Formats

@[simp] theorem sreg_isLt (r : SReg) : r.toNat < 64 := r.isLt
@[simp] theorem kreg_isLt (r : KReg) : r.toNat < 16 := r.isLt

end Sys2Proof.Encoding

namespace Sys2Proof.Encoding
open Sys2Proof

theorem fK_of_fld {w : Nat} {k : KReg} (h : fld w 51 4 = k.toNat) : fK w = k := by simp [fK, h]
theorem fLa_of_fld {w : Nat} {la : BitVec 4} (h : fld w 47 4 = la.toNat) : fLa w = la := by simp [fLa, h]
@[simp] theorem toLane_v (r : VReg) : (RegSrc.v r).toLane = .v r := rfl
@[simp] theorem toLane_s (r : SReg) : (RegSrc.s r).toLane = .s r := rfl

section Shapes
variable {x : Instr} {op : Nat}

/-- A lane form with two sources reads as its operands, in V3 or VI; `r` says whether it has a rounding mode. -/
theorem readBack_lane2 {k : KReg} {d rm : Nat} {a : VReg} {b : LaneSrc} (r : Bool) (hwords : x.words = 1)
    (henc : encodeNat x = [encLane2 op k d a b rm]) (hr : r = true ∨ rm = 0) (hX : isX op = false)
    (hfit : op < 512 ∧ d < 256 ∧ rm < 4)
    (h : ∀ w, fOp w = op → fK w = k → fld w 47 4 = 0 → fD w = d → vreg (fA w) = a → laneSrc2 w r = (true, b) → rmOf w = BitVec.ofNat 2 rm →
      JudgedAs w 0 x) : ReadBack x := by
  obtain ⟨hop, hd, hrm⟩ := hfit
  cases b
  case v s =>
    refine readBack_V3 hwords henc hX (by omega) (fun w hop hk hl hI hD hA hB hC hRm hTy hBs hCs hSub => ?_)
    exact h w hop (fK_of_fld hk) hl hD (by simp [hA]) (by simp [laneSrc2, v3Src, *]) (by simp [rmOf, hI, hRm])
  case s s =>
    refine readBack_V3 hwords henc hX (by omega) (fun w hop hk hl hI hD hA hB hC hRm hTy hBs hCs hSub => ?_)
    exact h w hop (fK_of_fld hk) hl hD (by simp [hA]) (by simp [laneSrc2, v3Src, *]) (by simp [rmOf, hI, hRm])
  case imm y =>
    refine readBack_VI hwords henc hX (by omega) (fun w hop hk hl hI hD hA hRm hIm => ?_)
    exact h w hop (fK_of_fld hk) hl hD (by simp [hA]) (by simp [laneSrc2, fIm, *]) (by simp [rmOf, hI, hRm])

theorem readBack_un {k : KReg} {la rm : Nat} {d : VReg} {a : UnSrc} (r : Bool) (hwords : x.words = 1)
    (henc : encodeNat x = [encUn op k la d a rm]) (hr : r = true ∨ rm = 0) (hX : isX op = false)
    (hfit : op < 512 ∧ la < 16 ∧ rm < 4)
    (h : ∀ w, fOp w = op → fK w = k → fld w 47 4 = la → vreg (fD w) = d → laneSrc1 w r = (true, a) → rmOf w = BitVec.ofNat 2 rm → JudgedAs w 0 x)
      : ReadBack x := by
  obtain ⟨hop, hla, hrm⟩ := hfit
  cases a
  case v s =>
    refine readBack_V3 hwords henc hX (by omega) (fun w hop hk hl hI hD hA hB hC hRm hTy hBs hCs hSub => ?_)
    exact h w hop (fK_of_fld hk) hl (by simp [hD]) (by simp [laneSrc1, *]) (by simp [rmOf, hI, hRm])
  case imm y =>
    refine readBack_VI hwords henc hX (by omega) (fun w hop hk hl hI hD hA hRm hIm => ?_)
    exact h w hop (fK_of_fld hk) hl (by simp [hD]) (by simp [laneSrc1, fIm, *]) (by simp [rmOf, hI, hRm])

theorem readBack_scal2 {rm : Nat} {d a : SReg} {b : ScalSrc} (r : Bool) (hwords : x.words = 1)
    (henc : encodeNat x = [encScal2 op d a b rm]) (hr : r = true ∨ rm = 0) (hX : isX op = false)
    (hfit : op < 512 ∧ rm < 4)
    (h : ∀ w, fOp w = op → fld w 51 4 = 0 → fld w 47 4 = 0 → sreg (fD w) = d → sreg (fA w) = a → scalSrc2 w r = (true, b) →
      rmOf w = BitVec.ofNat 2 rm → JudgedAs w 0 x) : ReadBack x := by
  obtain ⟨hop, hrm⟩ := hfit
  cases b
  case s s =>
    refine readBack_V3 hwords henc hX (by omega) (fun w hop hk hl hI hD hA hB hC hRm hTy hBs hCs hSub => ?_)
    exact h w hop hk hl (by simp [hD]) (by simp [hA]) (by simp [scalSrc2, *]) (by simp [rmOf, hI, hRm])
  case imm y =>
    refine readBack_VI hwords henc hX (by omega) (fun w hop hk hl hI hD hA hRm hIm => ?_)
    exact h w hop hk hl (by simp [hD]) (by simp [hA]) (by simp [scalSrc2, fIm, *]) (by simp [rmOf, hI, hRm])

theorem readBack_encV3 {k : KReg} {la rm : Nat} {d a : VReg} {b c : RegSrc} (hwords : x.words = 1)
    (henc : encodeNat x = [encV3 op k la d a b c rm]) (hX : isX op = false)
    (hfit : op < 512 ∧ la < 16 ∧ rm < 4)
    (h : ∀ w, fOp w = op → fK w = k → fld w 47 4 = la → fI w = 0 → vreg (fD w) = d → vreg (fA w) = a → v3Src (fB w) (fBs w) = (true, b) →
      v3Src (fC w) (fCs w) = (true, c) → fRm w = rm → fTy w = 0 → fSub w = 0 → JudgedAs w 0 x) : ReadBack x :=
  readBack_V3 hwords henc hX (by have := regSrc_num_lt b; have := regSrc_num_lt c; have := regSrc_bit_lt b; have := regSrc_bit_lt c; omega)
    (fun w hop hk hl hI hD hA hB hC hRm hTy hBs hCs hSub =>
    h w hop (fK_of_fld hk) hl hI (by simp [hD]) (by simp [hA]) (by simp [hB, hBs]) (by simp [hC, hCs]) hRm hTy hSub)

/-- The reading of an instruction word of format V3, VI, C, B or M does not depend on what follows. -/
theorem isX_of_lt {n : Nat} (h : n < 0x141) : isX n = false := by
  simp [isX]
  omega

theorem index_of_int2Of {i : Nat} {f : Int2} (h : int2Of i f = some x) : i < 28 ∧ i ≠ 26 := by
  unfold int2Of at h
  split at h
  case h_19 => cases h
  all_goals decide
theorem index_of_int1Of {i : Nat} {f : Int1} (h : int1Of i f = some x) : i < 28 ∧ i ≠ 26 ∧ ∀ g, int2Of i g = none := by
  unfold int1Of at h
  split at h
  case h_7 => cases h
  all_goals exact ⟨by decide, by decide, fun _ => rfl⟩
theorem index_of_int3Of {i : Nat} {f : Int3} (h : int3Of i f = some x) :
    i < 28 ∧ i ≠ 26 ∧ (∀ g, int2Of i g = none) ∧ ∀ g, int1Of i g = none := by
  unfold int3Of at h
  split at h
  case h_4 => cases h
  all_goals exact ⟨by decide, by decide, fun _ => rfl, fun _ => rfl⟩

theorem int2_readBack {i : Nat} {f : Int2} (h : int2Of i f = some x) : ReadBack x := by
  obtain ⟨_, hwords, henc⟩ := int2Of_encode h
  obtain ⟨hi, h26⟩ := index_of_int2Of h
  cases f
  case lane k d a b =>
    refine readBack_lane2 false hwords henc (.inr rfl) (isX_of_lt (by omega)) (by omega) (fun w hop hk hl hD hA hsrc _ => ?_)
    have hj : judgeIntLane w i = some ⟨true, false, true, true, x⟩ := by simp [judgeIntLane, *]
    exact ⟨_, (judge_intLane hop hi).trans hj, rfl, nofun, fun _ => hl, rfl, rfl⟩
  case scalar d a b =>
    refine readBack_scal2 false hwords henc (.inr rfl) (isX_of_lt (by omega)) (by omega) (fun w hop hk hl hD hA hsrc _ => ?_)
    have hj : judgeIntScalar w i = some ⟨true, true, true, true, x⟩ := by simp [judgeIntScalar, *]
    exact ⟨_, (judge_intScalar hop hi).trans hj, rfl, fun _ => hk, fun _ => hl, rfl, rfl⟩

theorem int1_readBack {i : Nat} {f : Int1} (h : int1Of i f = some x) : ReadBack x := by
  obtain ⟨_, hwords, henc⟩ := int1Of_encode h
  obtain ⟨hi, h26, hno⟩ := index_of_int1Of h
  cases f
  case lane k d a =>
    refine readBack_un false hwords henc (.inr rfl) (isX_of_lt (by omega)) (by omega) (fun w hop hk hl hD hsrc _ => ?_)
    have hj : judgeIntLane w i = some ⟨true, false, true, true, x⟩ := by simp [judgeIntLane, *]
    exact ⟨_, (judge_intLane hop hi).trans hj, rfl, nofun, fun _ => hl, rfl, rfl⟩
  case scalar d a =>
    cases a
    case s r =>
      refine readBack_V3 hwords henc (isX_of_lt (by omega)) (by omega) (fun w hop hk hl hI hD hA hB hC hRm hTy hBs hCs hSub => ?_)
      have hsrc : scalSrc1 w = (true, .s r) := by simp [scalSrc1, *]
      have hj : judgeIntScalar w i = some ⟨true, true, true, true, x⟩ := by simp [judgeIntScalar, *]
      exact ⟨_, (judge_intScalar hop hi).trans hj, rfl, fun _ => hk, fun _ => hl, rfl, rfl⟩
    case imm y =>
      refine readBack_VI hwords henc (isX_of_lt (by omega)) (by omega) (fun w hop hk hl hI hD hA hRm hIm => ?_)
      have hsrc : scalSrc1 w = (true, .imm y) := by simp [scalSrc1, fIm, *]
      have hj : judgeIntScalar w i = some ⟨true, true, true, true, x⟩ := by simp [judgeIntScalar, *]
      exact ⟨_, (judge_intScalar hop hi).trans hj, rfl, fun _ => hk, fun _ => hl, rfl, rfl⟩

theorem int3_readBack {i : Nat} {f : Int3} (h : int3Of i f = some x) : ReadBack x := by
  obtain ⟨_, hwords, henc⟩ := int3Of_encode h
  obtain ⟨hi, h26, hno2, hno1⟩ := index_of_int3Of h
  cases f
  case lane k d a b c =>
    refine readBack_encV3 hwords henc (isX_of_lt (by omega)) (by omega) (fun w hop hk hl hI hD hA hb hc hRm hTy hSub => ?_)
    have hj : judgeIntLane w i = some ⟨true, false, true, true, x⟩ := by simp [judgeIntLane, *]
    exact ⟨_, (judge_intLane hop hi).trans hj, rfl, nofun, fun _ => hl, rfl, rfl⟩
  case scalar d a b c =>
    refine readBack_V3 hwords henc (isX_of_lt (by omega)) (by omega) (fun w hop hk hl hI hD hA hB hC hRm hTy hBs hCs hSub => ?_)
    have hj : judgeIntScalar w i = some ⟨true, true, true, true, x⟩ := by simp [judgeIntScalar, *]
    exact ⟨_, (judge_intScalar hop hi).trans hj, rfl, fun _ => hk, fun _ => hl, rfl, rfl⟩

theorem prm_readBack : ∀ f, ReadBack (.prm f)
  | .lane k d a b c => readBack_encV3 rfl rfl rfl (by omega) fun w hop hk hl hI hD hA hb hc hRm hTy hSub =>
    ⟨⟨true, false, true, true, .prm (.lane k d a b c)⟩, (judge_intLane (i := 26) hop (by decide)).trans (by simp [judgeIntLane, *]),
      rfl, nofun, fun _ => hl, rfl, rfl⟩
  | .laneImm k d a y => readBack_VI rfl rfl rfl (by omega) fun w hop hk hl hI hD hA hRm hIm =>
    ⟨⟨true, false, true, true, .prm (.laneImm k d a y)⟩, (judge_intLane (i := 26) hop (by decide)).trans (by simp [judgeIntLane, fK, fIm, *]),
      rfl, nofun, fun _ => hl, rfl, rfl⟩
  | .scalar d a b c => readBack_V3 rfl rfl rfl (by omega) fun w hop hk hl hI hD hA hB hC hRm hTy hBs hCs hSub =>
    ⟨⟨true, true, true, true, .prm (.scalar d a b c)⟩, (judge_intScalar (i := 26) hop (by decide)).trans (by simp [judgeIntScalar, *]),
      rfl, fun _ => hk, fun _ => hl, rfl, rfl⟩
  | .scalarImm d a y => readBack_VI rfl rfl rfl (by omega) fun w hop hk hl hI hD hA hRm hIm =>
    ⟨⟨true, true, true, true, .prm (.scalarImm d a y)⟩, (judge_intScalar (i := 26) hop (by decide)).trans (by simp [judgeIntScalar, fIm, *]),
      rfl, fun _ => hk, fun _ => hl, rfl, rfl⟩

end Shapes
end Sys2Proof.Encoding

namespace Sys2Proof.Encoding
open Sys2Proof

/-! ### Floating point, conversions and draws, dot products (R82 to R90) -/

/-- Of a judgment of a two-source instruction with rounding in both register files, at its index in the two parts of the map. -/
theorem flt2_readBack {x : Flt2 → Instr} {i : Nat} (hi : i < 16)
    (hlane : ∀ w, judgeFloatLane w i = some ⟨(laneSrc2 w true).1, false, true, true,
      x (.lane (fK w) (vreg (fD w)) (vreg (fA w)) (laneSrc2 w true).2 (rmOf w))⟩)
    (hscalar : ∀ w, judgeFloatScalar w i = some ⟨(scalSrc2 w true).1, true, true, true,
      x (.scalar (sreg (fD w)) (sreg (fA w)) (scalSrc2 w true).2 (rmOf w))⟩)
    (hwords : ∀ f, (x f).words = 1) (henc : ∀ f, encodeNat (x f) = [encFlt2 i f]) : ∀ f, ReadBack (x f)
  | .lane k d a b rm =>
    readBack_lane2 true (hwords _) (henc _) (.inl rfl) (isX_of_lt (by omega)) (by omega) (fun w hop hk hl hD hA hsrc hrm =>
      ⟨_, (judge_floatLane hop hi).trans (hlane w), by simp [*]⟩)
  | .scalar d a b rm =>
    readBack_scal2 true (hwords _) (henc _) (.inl rfl) (isX_of_lt (by omega)) (by omega) (fun w hop hk hl hD hA hsrc hrm =>
      ⟨_, (judge_floatScalar hop hi).trans (hscalar w), by simp [*]⟩)

theorem fltMM_readBack {x : FltMM → Instr} {i : Nat} (hi : i < 16)
    (hlane : ∀ w, judgeFloatLane w i = some ⟨(laneSrc2 w false).1, false, true, true,
      x (.lane (fK w) (vreg (fD w)) (vreg (fA w)) (laneSrc2 w false).2)⟩)
    (hscalar : ∀ w, judgeFloatScalar w i = some ⟨(scalSrc2 w false).1, true, true, true,
      x (.scalar (sreg (fD w)) (sreg (fA w)) (scalSrc2 w false).2)⟩)
    (hwords : ∀ f, (x f).words = 1) (henc : ∀ f, encodeNat (x f) = [encFltMM i f]) : ∀ f, ReadBack (x f)
  | .lane k d a b =>
    readBack_lane2 false (hwords _) (henc _) (.inr rfl) (isX_of_lt (by omega)) (by omega) (fun w hop hk hl hD hA hsrc _ =>
      ⟨_, (judge_floatLane hop hi).trans (hlane w), by simp [*]⟩)
  | .scalar d a b =>
    readBack_scal2 false (hwords _) (henc _) (.inr rfl) (isX_of_lt (by omega)) (by omega) (fun w hop hk hl hD hA hsrc _ =>
      ⟨_, (judge_floatScalar hop hi).trans (hscalar w), by simp [*]⟩)

theorem fltUn_readBack {x : FltUn → Instr} {i : Nat} (hi : i < 16)
    (hlane : ∀ w, judgeFloatLane w i = some ⟨(laneSrc1 w true).1, false, false, true,
      x ⟨fK w, fLa w, vreg (fD w), (laneSrc1 w true).2, rmOf w⟩⟩)
    (hwords : ∀ f, (x f).words = 1) (henc : ∀ f, encodeNat (x f) = [encFltUn i f]) (f : FltUn) : ReadBack (x f) :=
  readBack_un true (hwords _) (henc _) (.inl rfl) (isX_of_lt (by omega)) (by omega) (fun w hop hk hl hD hsrc hrm =>
    ⟨_, (judge_floatLane hop hi).trans (hlane w), by simp [fLa_of_fld hl, *]⟩)

theorem ffma_readBack : ∀ f, ReadBack (.ffma f)
  | .lane k d a b c rm =>
    readBack_encV3 rfl rfl rfl (by omega) fun w hop hk hl hI hD hA hb hc hRm hTy hSub => ⟨_, judge_floatLane (i := 3) hop (by decide), by simp [*]⟩
  | .scalar d a b c rm =>
    readBack_V3 rfl rfl rfl (by omega) fun w hop hk hl hI hD hA hB hC hRm hTy hBs hCs hSub =>
      ⟨_, judge_floatScalar (i := 3) hop (by decide), by simp [*]⟩
theorem fscale_readBack (k : KReg) (d a : VReg) (b : LaneSrc) (rm : Rm) : ReadBack (.fscale k d a b rm) :=
  readBack_lane2 true rfl rfl (.inl rfl) rfl (by omega) fun w hop hk hl hD hA hsrc hrm => ⟨_, judge_floatLane (i := 13) hop (by decide), by simp [*]⟩
theorem fclass_readBack (k : KReg) (d : VReg) (a : UnSrc) : ReadBack (.fclass k d a) :=
  readBack_un false rfl rfl (.inr rfl) rfl (by omega) fun w hop hk hl hD hsrc hrm => ⟨_, judge_floatLane (i := 14) hop (by decide), by simp [*]⟩

section Wide
variable {x : Instr} {i op : Nat}

theorem readBack_W2 {f : Lane2} (hwords : x.words = 1) (henc : encodeNat x = [encW2 i f]) (hi : i < 16)
    (h : ∀ w, fK w = f.k → fld w 47 4 = f.la.toNat → fLa w = f.la → fI w = 0 → fD w = f.d.toNat → fA w = f.a.toNat →
      v3Src (fB w) (fBs w) = (true, f.b) → fC w = 0 → fCs w = 0 → fRm w = f.rm.toNat → fTy w = 0 → fSub w = 0 →
      ∃ j, judgeWide w i = some j ∧ j.clean = true ∧ (j.kZero = true → fld w 51 4 = 0) ∧ (j.short = true → fld w 47 4 = 0) ∧ j.ok = true ∧
        j.instr = x) : ReadBack x :=
  readBack_V3 hwords henc (isX_of_lt (by omega)) (by have := regSrc_num_lt f.b; have := regSrc_bit_lt f.b; omega)
    (fun w hop hk hl hI hD hA hB hC hRm hTy hBs hCs hSub => by
    obtain ⟨j, hj, hv⟩ := h w (fK_of_fld hk) hl (fLa_of_fld hl) hI hD hA (by simp [hB, hBs]) hC hCs hRm hTy hSub
    exact ⟨j, (judge_wide hop hi).trans hj, hv⟩)

theorem readBack_W3 {f : Lane3} (hwords : x.words = 1) (henc : encodeNat x = [encW3 op f]) (hX : isX op = false)
    (hfit : op < 512)
    (h : ∀ w, fOp w = op → fK w = f.k → fld w 47 4 = f.la.toNat → fLa w = f.la → fI w = 0 → fD w = f.d.toNat → fA w = f.a.toNat →
      v3Src (fB w) (fBs w) = (true, f.b) → v3Src (fC w) (fCs w) = (true, f.c) → fRm w = f.rm.toNat → fTy w = 0 → fSub w = 0 → JudgedAs w 0 x)
        : ReadBack x :=
  readBack_V3 hwords henc hX (by have := regSrc_num_lt f.b; have := regSrc_num_lt f.c; have := regSrc_bit_lt f.b; have := regSrc_bit_lt f.c; omega)
    (fun w hop hk hl hI hD hA hB hC hRm hTy hBs hCs hSub =>
    h w hop (fK_of_fld hk) hl (fLa_of_fld hl) hI hD hA (by simp [hB, hBs]) (by simp [hC, hCs]) hRm hTy hSub)

theorem lane2_evenOk_iff {f : Lane2} : f.evenOk = true ↔ f.d.toNat % 2 = 0 ∧ f.a.toNat % 2 = 0 ∧ f.b.pairOk = true := by
  simp [Lane2.evenOk, evenReg, and_assoc]
theorem lane3_evenOk_iff {f : Lane3} :
    f.evenOk = true ↔ f.d.toNat % 2 = 0 ∧ f.a.toNat % 2 = 0 ∧ f.b.pairOk = true ∧ f.c.pairOk = true := by
  simp [Lane3.evenOk, evenReg, and_assoc]

theorem dadd_readBack {f : Lane2} (hf : f.evenOk = true) : ReadBack (.dadd f) := by
  obtain ⟨hd, ha, hb⟩ := lane2_evenOk_iff.1 hf
  exact readBack_W2 (i := 0) rfl rfl (by decide) fun w hk hl hla hI hD hA hb hC hCs hRm hTy hSub => ⟨_, rfl, by simp [*]⟩
theorem dmul_readBack {f : Lane2} (hf : f.evenOk = true) : ReadBack (.dmul f) := by
  obtain ⟨hd, ha, hb⟩ := lane2_evenOk_iff.1 hf
  exact readBack_W2 (i := 1) rfl rfl (by decide) fun w hk hl hla hI hD hA hb hC hCs hRm hTy hSub => ⟨_, rfl, by simp [*]⟩
theorem dmin_readBack {f : Lane2} (hf : f.evenOk = true) (hrm : f.rm = 0) : ReadBack (.dmin f) := by
  obtain ⟨hd, ha, hb⟩ := lane2_evenOk_iff.1 hf
  obtain ⟨k, la, d, a, b, rm⟩ := f
  subst hrm
  exact readBack_W2 (i := 3) rfl rfl (by decide) fun w hk hl hla hI hD hA hb hC hCs hRm hTy hSub => ⟨_, rfl, by simp_all⟩
theorem dmax_readBack {f : Lane2} (hf : f.evenOk = true) (hrm : f.rm = 0) : ReadBack (.dmax f) := by
  obtain ⟨hd, ha, hb⟩ := lane2_evenOk_iff.1 hf
  obtain ⟨k, la, d, a, b, rm⟩ := f
  subst hrm
  exact readBack_W2 (i := 4) rfl rfl (by decide) fun w hk hl hla hI hD hA hb hC hCs hRm hTy hSub => ⟨_, rfl, by simp_all⟩
theorem dfma_readBack {f : Lane3} (hf : f.evenOk = true) : ReadBack (.dfma f) := by
  obtain ⟨hd, ha, hb, hc⟩ := lane3_evenOk_iff.1 hf
  exact readBack_W3 rfl rfl rfl (by omega) fun w hop hk hl hla hI hD hA hb hc hRm hTy hSub => ⟨_, judge_wide (i := 2) hop (by decide), by simp [*]⟩

/-- A packed two-source instruction at its index in its part of the map. -/
theorem packed2_readBack {x : Lane2 → Instr} {i : Nat} (hi : i < 16)
    (hj : ∀ w, judgeWide w i = some ⟨(v3Src (fB w) (fBs w)).1 && noC w && v3Tail w true false false, false, true, fI w == 0,
      x ⟨fK w, fLa w, vreg (fD w), vreg (fA w), (v3Src (fB w) (fBs w)).2, BitVec.ofNat 2 (fRm w)⟩⟩)
    (hwords : ∀ f, (x f).words = 1) (henc : ∀ f, encodeNat (x f) = [encW2 i f]) {f : Lane2} (hla : f.la = 0) : ReadBack (x f) := by
  obtain ⟨k, la, d, a, b, rm⟩ := f
  subst hla
  exact readBack_W2 (hwords _) (henc _) hi fun w hk hl hla' hI hD hA hb hC hCs hRm hTy hSub => ⟨_, hj w, by simp_all⟩

theorem packed3_readBack {x : Lane3 → Instr} {i : Nat} (hi : i < 16)
    (hj : ∀ w, judgeWide w i = some ⟨(v3Src (fB w) (fBs w)).1 && (v3Src (fC w) (fCs w)).1 && v3Tail w true false false, false, true, fI w == 0,
      x ⟨fK w, fLa w, vreg (fD w), vreg (fA w), (v3Src (fB w) (fBs w)).2, (v3Src (fC w) (fCs w)).2, BitVec.ofNat 2 (fRm w)⟩⟩)
    (hwords : ∀ f, (x f).words = 1) (henc : ∀ f, encodeNat (x f) = [encW3 (0xB0 + i) f]) {f : Lane3} (hla : f.la = 0) : ReadBack (x f) := by
  obtain ⟨k, la, d, a, b, c, rm⟩ := f
  subst hla
  exact readBack_W3 (hwords _) (henc _) (isX_of_lt (by omega)) (by omega) (fun w hop hk hl hla' hI hD hA hb hc hRm hTy hSub =>
    ⟨_, (judge_wide hop hi).trans (hj w), by simp_all⟩)

/-- A dot product at its index in its part of the map; `flt` says whether it has a rounding mode. -/
theorem dot_readBack {x : Lane3 → Instr} {i : Nat} (flt : Bool) (hi : i < 16)
    (hj : ∀ w, judgeDot w i = some ⟨(v3Src (fB w) (fBs w)).1 && (v3Src (fC w) (fCs w)).1 && v3Tail w flt false false, false, true, fI w == 0,
      x ⟨fK w, 0, vreg (fD w), vreg (fA w), (v3Src (fB w) (fBs w)).2, (v3Src (fC w) (fCs w)).2, BitVec.ofNat 2 (fRm w)⟩⟩)
    (hwords : ∀ f, (x f).words = 1) (henc : ∀ f, encodeNat (x f) = [encW3 (0xE0 + i) f]) {f : Lane3} (hla : f.la = 0)
    (hrm : flt = true ∨ f.rm = 0) : ReadBack (x f) := by
  obtain ⟨k, la, d, a, b, c, rm⟩ := f
  subst hla
  have hrm' : flt = true ∨ rm.toNat = 0 := hrm.imp id (congrArg BitVec.toNat)
  exact readBack_W3 (hwords _) (henc _) (isX_of_lt (by omega)) (by omega) (fun w hop hk hl hla' hI hD hA hb hc hRm hTy hSub =>
    ⟨_, (judge_dot hop hi).trans (hj w), by simp_all⟩)
end Wide

theorem pairOk_eq (t : Ty) (r : VReg) : (t.bits != 64 || evenField r.toNat) = t.pairOk r := rfl
/-- What the limits of an element index give for its field, where the type takes one and where it takes none (R87). -/
theorem index_of_indexOk {t : Ty} {j : BitVec 3} (h : t.indexOk j = true) :
    (t.narrow || j.toNat == 0) = true ∧ (!t.narrow || decide (j.toNat < t.perReg)) = true := by
  unfold Ty.indexOk at h
  cases ht : t.narrow <;> simp_all

theorem cvt_readBack {k : KReg} {dst src : Ty} {rm : Rm} {d a : VReg} {jd js : BitVec 3} (hd : dst.pairOk d = true) (hs : src.pairOk a = true)
    (hjd : dst.indexOk jd = true) (hjs : src.indexOk js = true) : ReadBack (.cvt k dst src rm d a jd js) := by
  have := ty_code_lt dst
  have := ty_code_lt src
  obtain ⟨hjd0, hjdr⟩ := index_of_indexOk hjd
  obtain ⟨hjs0, hjsr⟩ := index_of_indexOk hjs
  refine readBack_V3 rfl rfl (isX_of_lt (by omega)) (by omega) (fun w hop hk hl hI hD hA hB hC hRm hTy hBs hCs hSub => ⟨_, judge_cvt hop, ?_⟩)
  simp only [judgeCvt, fK_of_fld hk, hl, hI, hD, hA, hB, hRm, hTy, hBs, hSub, ty_ofCode_code, Option.getD_some, Option.isSome_some, hjd0, hjdr,
    hjs0, hjsr, pairOk_eq, hd, hs, noC_iff.2 ⟨hC, hCs⟩, js.isLt, jd.isLt, decide_true, beq_self_eq_true, Bool.and_self, vreg_toNat]
  simp

/-- The destinations of a stochastic conversion are the narrow types in opcode order (R88). -/
theorem srDst_srIndex {t : Ty} (h : t = .h16 ∨ t = .b16 ∨ t = .f8e4 ∨ t = .f8e5 ∨ t = .f6e3m2 ∨ t = .f6e2m3 ∨ t = .f4e2m1) :
    srDst t.srIndex = some t := by
  rcases h with rfl | rfl | rfl | rfl | rfl | rfl | rfl <;> rfl

theorem cvtSr_readBack {k : KReg} {dst : Ty} {wide : Bool} {d a : VReg} {b : RegSrc} {hi : Bool} {jd : BitVec 3}
    (h : (Instr.cvtSr k dst wide d a b hi jd).wf = true) : ReadBack (.cvtSr k dst wide d a b hi jd) := by
  simp only [Instr.wf, Bool.and_eq_true, Bool.or_eq_true, beq_iff_eq, decide_eq_true_eq, or_assoc, Bool.not_eq_true'] at h
  obtain ⟨⟨hdst, hjd⟩, heven⟩ := h
  have := ty_srIndex_lt dst
  refine readBack_V3 rfl rfl (isX_of_lt (by omega)) (by
    have := regSrc_num_lt b
    have := regSrc_bit_lt b
    split_ifs <;> omega) (fun w hop hk hl hI hD hA hB hC hRm hTy hBs hCs hSub => ⟨_, judge_cvtSr hop (srDst_srIndex hdst), ?_⟩)
  have hb : v3Src (fB w) (fBs w) = (true, b) := by simp [hB, hBs]
  have hjd8 := jd.isLt
  have hsub8 : fSub w % 8 = jd.toNat := by rw [hSub]; split_ifs <;> omega
  have hsub16 : fSub w < 16 := by rw [hSub]; split_ifs <;> omega
  have hhi : decide (8 ≤ fSub w) = hi := by
    rw [hSub]
    cases hi <;> simp
    omega
  have heven : wide = false ∨ a.toNat % 2 = 0 := heven.imp id eq_of_beq
  cases wide <;> simp_all [judgeCvtSr, fK_of_fld hk]

theorem rnd_readBack (k : KReg) (d a : VReg) (b : SReg) : ReadBack (.rnd k d a b) :=
  readBack_V3 rfl rfl rfl (by omega) fun w hop hk hl hI hD hA hB hC hRm hTy hBs hCs hSub => ⟨_, judge_rnd hop, by simp [judgeRnd, fK_of_fld hk, *]⟩

/-! ### Cross-lane and set instructions (R91 to R104) -/

theorem bcast_readBack (k : KReg) (d a : VReg) : ∀ src, ReadBack (.bcast k d a src)
  | .lit l => readBack_V3 rfl rfl rfl (by omega) fun w hop hk hl hI hD hA hB hC hRm hTy hBs hCs hSub =>
    ⟨_, judge_cross (i := 6) hop (by decide), by simp [fK_of_fld hk, *]⟩
  | .s r => readBack_V3 rfl rfl rfl (by omega) fun w hop hk hl hI hD hA hB hC hRm hTy hBs hCs hSub =>
    ⟨_, judge_cross (i := 6) hop (by decide), by simp [fK_of_fld hk, *]⟩
theorem bcastScalar_readBack (k : KReg) (d : SReg) (a : VReg) : ∀ src, ReadBack (.bcastScalar k d a src)
  | .lit l => readBack_V3 rfl rfl rfl (by omega) fun w hop hk hl hI hD hA hB hC hRm hTy hBs hCs hSub =>
    ⟨_, judge_cross (i := 7) hop (by decide), by simp [fK_of_fld hk, *]⟩
  | .s r => readBack_V3 rfl rfl rfl (by omega) fun w hop hk hl hI hD hA hB hC hRm hTy hBs hCs hSub =>
    ⟨_, judge_cross (i := 7) hop (by decide), by simp [fK_of_fld hk, *]⟩
theorem shflNx_readBack (k : KReg) (d a : VReg) : ReadBack (.shflNx k d a) :=
  readBack_V3 rfl rfl rfl (by omega) fun w hop hk hl hI hD hA hB hC hRm hTy hBs hCs hSub =>
    ⟨_, judge_cross (i := 4) hop (by decide), by simp [fK_of_fld hk, *]⟩
theorem shflPv_readBack (k : KReg) (d a : VReg) : ReadBack (.shflPv k d a) :=
  readBack_V3 rfl rfl rfl (by omega) fun w hop hk hl hI hD hA hB hC hRm hTy hBs hCs hSub =>
    ⟨_, judge_cross (i := 5) hop (by decide), by simp [fK_of_fld hk, *]⟩

/-- A shuffle by a lane source at its index in its part of the map. -/
theorem shfl_readBack {x : KReg → VReg → VReg → LaneSrc → Instr} {i : Nat} (hi : i < 8)
    (hj : ∀ w, judgeCross w i = some ⟨(laneSrc2 w false).1, false, true, true, x (fK w) (vreg (fD w)) (vreg (fA w)) (laneSrc2 w false).2⟩)
    (hwords : ∀ k d a b, (x k d a b).words = 1) (henc : ∀ k d a b, encodeNat (x k d a b) = [encLane2 (0xF0 + i) k d.toNat a b 0])
    (k : KReg) (d a : VReg) (b : LaneSrc) : ReadBack (x k d a b) :=
  readBack_lane2 false (hwords ..) (henc ..) (.inr rfl) (isX_of_lt (by omega)) (by omega) (fun w hop hk hl hD hA hsrc _ =>
    ⟨_, (judge_cross hop hi).trans (hj w), by simp [*]⟩)

/-- Only an F32 sum has a rounding mode (R93, R95). -/
theorem rm_toNat_free_or_zero {op : RedOp} {rm : Rm} (h : (op == .addF32 || rm == 0) = true) : op = .addF32 ∨ rm.toNat = 0 := by
  rcases Bool.or_eq_true _ _ ▸ h with h | h
  · exact .inl (eq_of_beq h)
  · exact .inr (congrArg BitVec.toNat (eq_of_beq h))

theorem red_readBack {op : RedOp} {rm : Rm} {k : KReg} {a : VReg} (h : (op == .addF32 || rm == 0) = true) :
    ∀ d, ReadBack (.red op rm k d a)
  | .v r => by
    have := redOp_code_lt op
    have := rm_toNat_free_or_zero h
    exact readBack_V3 rfl rfl (isX_of_lt (by omega)) (by omega) (fun w hop hk hl hI hD hA hB hC hRm hTy hBs hCs hSub =>
      ⟨_, judge_red hop, by simp [judgeRed, fK_of_fld hk, *]⟩)
  | .s r => by
    have := redOp_code_lt op
    have := rm_toNat_free_or_zero h
    exact readBack_V3 rfl rfl (isX_of_lt (by omega)) (by omega) (fun w hop hk hl hI hD hA hB hC hRm hTy hBs hCs hSub =>
      ⟨_, judge_red hop, by simp [judgeRed, fK_of_fld hk, *]⟩)
theorem redx_readBack (op : RedxOp) (k : KReg) (a : VReg) : ∀ d, ReadBack (.redx op k d a)
  | .v r y => by
    have := redxOp_code_lt op
    exact readBack_V3 rfl rfl (isX_of_lt (by omega)) (by omega) (fun w hop hk hl hI hD hA hB hC hRm hTy hBs hCs hSub =>
      ⟨_, judge_redx hop, by simp [judgeRedx, fK_of_fld hk, *]⟩)
  | .s r y => by
    have := redxOp_code_lt op
    exact readBack_V3 rfl rfl (isX_of_lt (by omega)) (by omega) (fun w hop hk hl hI hD hA hB hC hRm hTy hBs hCs hSub =>
      ⟨_, judge_redx hop, by simp [judgeRedx, fK_of_fld hk, *]⟩)
theorem scan_readBack {op : RedOp} (ex : Bool) {rm : Rm} {k : KReg} {d a : VReg} (h : (op == .addF32 || rm == 0) = true) :
    ReadBack (.scan op ex rm k d a) := by
  have := redOp_code_lt op
  have := rm_toNat_free_or_zero h
  refine readBack_V3 rfl rfl (isX_of_lt (by omega)) (by split_ifs <;> omega) (fun w hop hk hl hI hD hA hB hC hRm hTy hBs hCs hSub =>
    ⟨_, judge_scan hop, ?_⟩)
  cases ex <;> simp_all [judgeScan, fK_of_fld hk]

theorem kreg_toNat_ne_zero {k : KReg} (h : (k != 0) = true) : k.toNat ≠ 0 := fun h0 => bne_iff_ne.1 h (BitVec.eq_of_toNat_eq h0)

theorem test_readBack {c : Cmp} {ty : TestTy} {k d : KReg} {a : VReg} {b : LaneSrc} (h : (Instr.test c ty k d a b).wf = true) :
    ReadBack (.test c ty k d a b) := by
  obtain ⟨hd, hty⟩ := Bool.and_eq_true _ _ ▸ h
  have hd := kreg_toNat_ne_zero hd
  have := cmp_code_lt c
  have := testTy_code_lt ty
  have hdiv : (4 * c.code + ty.code) / 4 = c.code := by omega
  have hmod : (4 * c.code + ty.code) % 4 = ty.code := by omega
  have hop {w : Nat} (hop : fOp w = 0x20 + 4 * c.code + ty.code) : judge w 0 = judgeTest w (4 * c.code + ty.code) :=
    judge_test (by rw [hop, Nat.add_assoc]) (by omega)
  rcases eq_or_ne ty .f64 with rfl | hf
  · obtain ⟨ha, hb⟩ := Bool.and_eq_true _ _ ▸ (Bool.or_eq_true _ _ ▸ hty).resolve_left (by decide)
    have ha : a.toNat % 2 = 0 := eq_of_beq ha
    cases b
    case v r =>
      have hr : r.toNat % 2 = 0 := eq_of_beq hb
      refine readBack_V3 rfl rfl (isX_of_lt (by omega)) (by omega) (fun w hw hk hl hI hD hA hB hC hRm hTy hBs hCs hSub => ?_)
      refine ⟨⟨true, false, true, true, _⟩, (hop hw).trans ?_, rfl, nofun, fun _ => hl, rfl, rfl⟩
      simp [judgeTest, fK_of_fld hk, RegSrc.pairOk, v3Src, *]
    case s r =>
      refine readBack_V3 rfl rfl (isX_of_lt (by omega)) (by omega) (fun w hw hk hl hI hD hA hB hC hRm hTy hBs hCs hSub => ?_)
      refine ⟨⟨true, false, true, true, _⟩, (hop hw).trans ?_, rfl, nofun, fun _ => hl, rfl, rfl⟩
      simp [judgeTest, fK_of_fld hk, RegSrc.pairOk, v3Src, *]
    case imm y => cases hb
  · refine readBack_lane2 false rfl rfl (.inr rfl) (isX_of_lt (by omega)) (by omega) (fun w hw hk hl hD hA hsrc _ => ?_)
    refine ⟨⟨true, false, true, true, _⟩, (hop hw).trans ?_, rfl, nofun, fun _ => hl, rfl, rfl⟩
    simp [judgeTest, *]

/-- The operations on two sets, at their index in their part of the map. -/
theorem kset2_readBack {x : KReg → KReg → KReg → Instr} {i : Nat} (hi : i < 9)
    (hj : ∀ w, judgeSet w i = some ⟨noC w && fBs w == 0 && fRm w == 0 && fTy w == 0 && fSub w == 0 && decide (fD w < 16) && decide (fA w < 16) &&
      decide (fB w < 16), true, true, fI w == 0 && fD w != 0, x (kreg (fD w)) (kreg (fA w)) (kreg (fB w))⟩)
    (hwords : ∀ d a b, (x d a b).words = 1) (henc : ∀ d a b, encodeNat (x d a b) = [wV3 (0x38 + i) 0 0 d.toNat a.toNat b.toNat 0 0 0 0 0 0])
    {d a b : KReg} (hd : (d != 0) = true) : ReadBack (x d a b) :=
  readBack_V3 (hwords ..) (henc ..) (isX_of_lt (by omega)) (by omega) (fun w hop hk hl hI hD hA hB hC hRm hTy hBs hCs hSub =>
    ⟨_, (judge_set hop hi).trans (hj w), by simp [kreg_toNat_ne_zero hd, *]⟩)

/-- The operations on one set, at their index in their part of the map. -/
theorem kset1_readBack {x : KReg → KReg → Instr} {i : Nat} (hi : i < 9)
    (hj : ∀ w, judgeSet w i = some ⟨noC w && fBs w == 0 && fRm w == 0 && fTy w == 0 && fSub w == 0 && decide (fD w < 16) && decide (fA w < 16) &&
      fB w == 0, true, true, fI w == 0 && fD w != 0, x (kreg (fD w)) (kreg (fA w))⟩)
    (hwords : ∀ d a, (x d a).words = 1) (henc : ∀ d a, encodeNat (x d a) = [wV3 (0x38 + i) 0 0 d.toNat a.toNat 0 0 0 0 0 0 0])
    {d a : KReg} (hd : (d != 0) = true) : ReadBack (x d a) :=
  readBack_V3 (hwords ..) (henc ..) (isX_of_lt (by omega)) (by omega) (fun w hop hk hl hI hD hA hB hC hRm hTy hBs hCs hSub =>
    ⟨_, (judge_set hop hi).trans (hj w), by simp [kreg_toNat_ne_zero hd, *]⟩)

theorem kall_readBack {d : KReg} (hd : (d != 0) = true) : ReadBack (.kall d) :=
  readBack_V3 rfl rfl rfl (by omega) fun w hop hk hl hI hD hA hB hC hRm hTy hBs hCs hSub =>
    ⟨_, judge_set (i := 0) hop (by decide), by simp [kreg_toNat_ne_zero hd, *]⟩
theorem kcount_readBack (d : SReg) (a : KReg) : ReadBack (.kcount d a) :=
  readBack_V3 rfl rfl rfl (by omega) fun w hop hk hl hI hD hA hB hC hRm hTy hBs hCs hSub => ⟨_, judge_set (i := 4) hop (by decide), by simp [*]⟩
theorem kmatch_readBack {k d : KReg} {a : VReg} {wide : Bool} (hd : (d != 0) = true) (ha : (!wide || evenReg a) = true) :
    ReadBack (.kmatch k d a wide) := by
  refine readBack_V3 rfl rfl rfl (by split_ifs <;> omega) (fun w hop hk hl hI hD hA hB hC hRm hTy hBs hCs hSub =>
    ⟨_, judge_set (i := 6) hop (by decide), ?_⟩)
  cases wide <;> simp_all [fK_of_fld hk, kreg_toNat_ne_zero hd, evenReg]

end Sys2Proof.Encoding

namespace Sys2Proof.Encoding
open Sys2Proof

/-! ### Memory instructions (R158 to R170) -/

theorem kld_readBack {d : KReg} {m : MArgs} (hd : (d != 0) = true) (ho : osAcq m = true) (hm : m.perAgent = true) : ReadBack (.kld d m) :=
  readBack_M rfl rfl rfl (by omega) fun w hop hk hd' ha => ⟨_, judge_kld hop, by simp [judgeKMem, kreg_toNat_ne_zero hd, *]⟩
theorem kst_readBack {d : KReg} {m : MArgs} (ho : osRel m = true) (hm : m.perAgent = true) : ReadBack (.kst d m) :=
  readBack_M rfl rfl rfl (by omega) fun w hop hk hd' ha => ⟨_, judge_kst hop, by simp [judgeKMem, *]⟩

/-- A 64-bit datum is in an even register. -/
theorem even_of_wide {α : Type} [BEq α] [LawfulBEq α] {x y : α} {r : VReg} (h : (x != y || evenReg r) = true) : x ≠ y ∨ r.toNat % 2 = 0 := by
  simpa [evenReg] using h

theorem judgeLd_code {w n : Nat} (x : LdW) : judgeLd w (6 * n + x.code) =
    let ok := osAcq (mArgsOf w).2 && (x != .w64 || evenField (fCa w))
    match n with
    | 0 => some ⟨(mArgsOf w).1, false, false, ok, .ld x (fK w) (vreg (fCa w)) (mArgsOf w).2⟩
    | 1 => some ⟨(mArgsOf w).1, false, false, ok, .ldFe x (fK w) (vreg (fCa w)) (mArgsOf w).2⟩
    | 2 => some ⟨(mArgsOf w).1, false, false, ok, .ldTake x (fK w) (vreg (fCa w)) (mArgsOf w).2⟩
    | _ => none := by
  have := ldW_code_lt x
  have hdiv : (6 * n + x.code) / 6 = n := by omega
  have hmod : (6 * n + x.code) % 6 = x.code := by omega
  simp only [judgeLd, hdiv, hmod, ldW_ofCode_code] <;> rfl

theorem ld_readBack {x : LdW} {k : KReg} {d : VReg} {m : MArgs} (ho : osAcq m = true) (hd : (x != .w64 || evenReg d) = true) :
    ReadBack (.ld x k d m) := by
  have := ldW_code_lt x
  have := even_of_wide hd
  exact readBack_M rfl rfl (isX_of_lt (by omega)) (by omega) (fun w hop hk hd' ha =>
    ⟨_, (judge_ld (i := 6 * 0 + x.code) (by omega) (by omega)).trans (judgeLd_code x), by simp [fK_of_fld hk, *]⟩)
theorem ldFe_readBack {x : LdW} {k : KReg} {d : VReg} {m : MArgs} (ho : osAcq m = true) (hd : (x != .w64 || evenReg d) = true) :
    ReadBack (.ldFe x k d m) := by
  have := ldW_code_lt x
  have := even_of_wide hd
  exact readBack_M rfl rfl (isX_of_lt (by omega)) (by omega) (fun w hop hk hd' ha =>
    ⟨_, (judge_ld (i := 6 * 1 + x.code) (by omega) (by omega)).trans (judgeLd_code x), by simp [fK_of_fld hk, *]⟩)
theorem ldTake_readBack {x : LdW} {k : KReg} {d : VReg} {m : MArgs} (ho : osAcq m = true) (hd : (x != .w64 || evenReg d) = true) :
    ReadBack (.ldTake x k d m) := by
  have := ldW_code_lt x
  have := even_of_wide hd
  exact readBack_M rfl rfl (isX_of_lt (by omega)) (by omega) (fun w hop hk hd' ha =>
    ⟨_, (judge_ld (i := 6 * 2 + x.code) (by omega) (by omega)).trans (judgeLd_code x), by simp [fK_of_fld hk, *]⟩)
theorem st_readBack {x : StW} {k : KReg} {d : VReg} {m : MArgs} (ho : osRel m = true) (hd : (x != .w64 || evenReg d) = true) :
    ReadBack (.st x k d m) := by
  have := stW_code_lt x
  have := even_of_wide hd
  exact readBack_M rfl rfl (isX_of_lt (by omega)) (by omega) (fun w hop hk hd' ha => ⟨_, judge_st hop, by simp [judgeSt, fK_of_fld hk, *]⟩)

theorem atom_readBack {op : AtomOp} {f : AtomArgs} (h : (Instr.atom op f).wf = true) : ReadBack (.atom op f) := by
  obtain ⟨k, la, d, l, os, c0, c1, wide, c⟩ := f
  have := atomOp_code_lt op
  simp only [Instr.wf, Bool.and_eq_true, Bool.or_eq_true, beq_iff_eq, Bool.not_eq_true', bne_iff_ne, evenReg] at h
  obtain ⟨hcas, hwide⟩ := h
  have hc2 : c.toNat + (if wide = true then 256 else 0) < 512 := by split_ifs <;> omega
  generalize hw : wM (0x136 + op.code) k.toNat la.toNat d.toNat l.code os.toNat c0.code c1.code (c.toNat + if wide = true then 256 else 0) = w
  obtain ⟨hlt, hop, hk, hl, hCa, hCb, hos, h0, h1, h2⟩ := fields_of_wM hw (by omega) k.isLt la.isLt d.isLt (layout_code_lt l) os.isLt
    (mslot_code_lt c0) (mslot_code_lt c1) hc2
  have hc : fld w 0 8 = c.toNat := by
    have : fld w 0 8 = fld w 0 9 % 256 := by unfold fld; omega
    rw [this, h2]
    split_ifs <;> omega
  have hwd : fld w 8 1 = if wide = true then 1 else 0 := by
    have : fld w 8 1 = fld w 0 9 / 256 := by unfold fld; omega
    rw [this, h2]
    split_ifs <;> omega
  refine readBack_one rfl (congrArg (fun n => [n]) hw) hlt (hop ▸ isX_of_lt (by omega)) ⟨_, judge_atom hop, ?_⟩
  have hcas : op = .cas ∨ c.toNat = 0 := hcas.imp id (congrArg BitVec.toNat)
  cases wide <;> simp_all [judgeAtom, fK_of_fld hk, fLa_of_fld hl]

/-! ### Two-word instructions (R28) -/

theorem xD0_descriptors {d0 d1 : Nat} (h1 : d1 < 2 ^ 32) (h0 : d0 < 2 ^ 32) : xD0 (d0 * 2 ^ 32 + d1) = d0 ∧ xD1 (d0 * 2 ^ 32 + d1) = d1 := by
  unfold xD0 xD1 fld
  omega
section
variable {x : Instr} {op k la d e f g id cls n : Nat}

/-- A two-word instruction with one descriptor reads as its fields. -/
theorem readBack_X1 {y : Desc} (hwords : x.words = 2) (henc : encodeNat x = [wX op k la d e f g id cls n, y.code * 2 ^ 32])
    (hfit : e < 256 ∧ f < 128 ∧ g < 128 ∧ op < 512 ∧ k < 16 ∧ la < 16 ∧ d < 256 ∧ id < 64 ∧ cls < 4 ∧ n < 512)
    (h : ∀ w m, fOp w = op → fld w 51 4 = k → fld w 47 4 = la → fCa w = d → fCb w = e → xf w = f → xg w = g → xid w = id → xcls w = cls → xn w = n →
      descOf (xD0 m) = (true, y) → xD1 m = 0 → JudgedAs w m x) : ReadBack x := by
  have hy := desc_code_lt y
  obtain ⟨h0, h1⟩ := xD0_descriptors (d1 := 0) (by omega) hy
  rw [Nat.add_zero] at h0 h1
  exact readBack_X hwords henc (by omega) hfit (fun w h1' h2 h3 h4 h5 h6 h7 h8 h9 h10 => h w _ h1' h2 h3 h4 h5 h6 h7 h8 h9 h10 (by rw [h0, descOf_code]) h1)

theorem readBack_X2 {y z : Desc} (hwords : x.words = 2) (henc : encodeNat x = [wX op k la d e f g id cls n, y.code * 2 ^ 32 + z.code])
    (hfit : e < 256 ∧ f < 128 ∧ g < 128 ∧ op < 512 ∧ k < 16 ∧ la < 16 ∧ d < 256 ∧ id < 64 ∧ cls < 4 ∧ n < 512)
    (h : ∀ w m, fOp w = op → fld w 51 4 = k → fld w 47 4 = la → fCa w = d → fCb w = e → xf w = f → xg w = g → xid w = id → xcls w = cls → xn w = n →
      descOf (xD0 m) = (true, y) → descOf (xD1 m) = (true, z) → JudgedAs w m x) : ReadBack x := by
  have hy := desc_code_lt y
  have hz := desc_code_lt z
  obtain ⟨h0, h1⟩ := xD0_descriptors hz hy
  exact readBack_X hwords henc (by omega) hfit (fun w h1' h2 h3 h4 h5 h6 h7 h8 h9 h10 => h w _ h1' h2 h3 h4 h5 h6 h7 h8 h9 h10 (by rw [h0, descOf_code])
    (by rw [h1, descOf_code]))
end

theorem spanOk_iff {r : VReg} {n : BitVec 9} : spanOk r n = true ↔ n.toNat ≠ 0 ∧ r.toNat + n.toNat ≤ 256 := by
  simp [spanOk, ← BitVec.toNat_inj]
theorem toNat_ne_zero_of_bne {n : Nat} {x : BitVec n} (h : (x != 0) = true) : x.toNat ≠ 0 :=
  fun h0 => bne_iff_ne.1 h (BitVec.eq_of_toNat_eq (by simpa using h0))

/-- A layer instruction at its index in its part of the map. -/
theorem layer_readBack {x : LayerArgs → Instr} {i : Nat} (hi : i < 7)
    (hj : ∀ w e, judgeTile w e i = some ⟨xf w == 0 && xg w == 0 && xid w == 0 && xcls w == 0 && fCb w == 0 && (descOf (xD0 e)).1 && xD1 e == 0,
      true, false, xn w != 0 && decide (fCa w + xn w ≤ 256), x ⟨fLa w, vreg (fCa w), BitVec.ofNat 9 (xn w), (descOf (xD0 e)).2⟩⟩)
    (hwords : ∀ f, (x f).words = 2) (henc : ∀ f, encodeNat (x f) = encLayer (0x141 + i) f) {f : LayerArgs} (h : spanOk f.d f.n = true) :
    ReadBack (x f) := by
  obtain ⟨hn, hspan⟩ := spanOk_iff.1 h
  exact readBack_X1 (hwords f) (henc f) (by omega) (fun w m hop hk hl hCa hCb hf hg hid hcls hxn hD0 hD1 =>
    ⟨_, (judge_tile hop hi).trans (hj w m), by simp [fLa_of_fld hl, *]⟩)

theorem gather_readBack {x : GatherArgs → Instr} {i : Nat} (hi : i < 7)
    (hj : ∀ w e, judgeTile w e i = some ⟨xf w == 0 && xg w == 0 && xid w == 0 && xcls w == 0 && (descOf (xD0 e)).1 && xD1 e == 0, false, false,
      (xn w != 0 && decide (fCa w + xn w ≤ 256)) && (xn w != 0 && decide (fCb w + xn w ≤ 256)),
      x ⟨fK w, fLa w, vreg (fCa w), vreg (fCb w), (descOf (xD0 e)).2, BitVec.ofNat 9 (xn w)⟩⟩)
    (hwords : ∀ f, (x f).words = 2) (henc : ∀ f, encodeNat (x f) = encGather (0x141 + i) f) {f : GatherArgs}
    (h : (spanOk f.d f.n && spanOk f.e f.n) = true) : ReadBack (x f) := by
  obtain ⟨hd, he'⟩ := Bool.and_eq_true _ _ ▸ h
  obtain ⟨hn, hspan⟩ := spanOk_iff.1 hd
  obtain ⟨_, hspan'⟩ := spanOk_iff.1 he'
  exact readBack_X1 (hwords f) (henc f) (by omega) (fun w m hop hk hl hCa hCb hf hg hid hcls hxn hD0 hD1 =>
    ⟨_, (judge_tile hop hi).trans (hj w m), by simp [fK_of_fld hk, fLa_of_fld hl, *]⟩)

theorem tld_readBack {f : TileArgs} (h : spanOk f.d f.n = true) : ReadBack (.tld f) := by
  obtain ⟨hn, hspan⟩ := spanOk_iff.1 h
  exact readBack_X1 rfl rfl (by omega) (fun w m hop hk hl hCa hCb hf hg hid hcls hxn hD0 hD1 =>
    ⟨_, judge_tile (i := 4) hop (by decide), by simp [fK_of_fld hk, fLa_of_fld hl, *]⟩)
theorem tred_readBack {f : TileArgs} (h : (f.n != 0) = true) : ReadBack (.tred f) := by
  have hn := toNat_ne_zero_of_bne h
  exact readBack_X1 rfl rfl (by omega) (fun w m hop hk hl hCa hCb hf hg hid hcls hxn hD0 hD1 =>
    ⟨_, judge_tile (i := 6) hop (by decide), by simp [fK_of_fld hk, fLa_of_fld hl, *]⟩)
theorem ttr_readBack {f : TtrArgs} (h : (f.n != 0) = true) : ReadBack (.ttr f) := by
  have hn := toNat_ne_zero_of_bne h
  exact readBack_X2 rfl rfl (by omega) (fun w m hop hk hl hCa hCb hf hg hid hcls hxn hD0 hD1 =>
    ⟨_, judge_tile (i := 5) hop (by decide), by simp [fK_of_fld hk, fLa_of_fld hl, *]⟩)

/-- A copy whose field g is zero, at its index in its part of the map. -/
theorem cpy_readBack {x : CpyArgs → Instr} {i : Nat} (hi : i < 3)
    (hj : ∀ w e, judgeCpy w e i = some ⟨fCa w == 0 && (layoutOf (fCb w)).1 && decide (xf w < 64) && xid w == 0 && xn w == 0 &&
      (descOf (xD0 e)).1 && (descOf (xD1 e)).1 && xg w == 0, true, false, true,
      x ⟨fLa w, (layoutOf (fCb w)).2, dslotOf (xf w % 64), BitVec.ofNat 2 (xcls w), (descOf (xD0 e)).2, (descOf (xD1 e)).2⟩⟩)
    (hwords : ∀ f, (x f).words = 2) (henc : ∀ f, encodeNat (x f) = encCpy (0x160 + i) 0 f) (f : CpyArgs) : ReadBack (x f) := by
  have hs := dslot_code_lt f.slot
  exact readBack_X2 (hwords f) (henc f) (by have := layout_code_lt f.bm; omega) (fun w m hop hk hl hCa hCb hf hg hid hcls hxn hD0 hD1 =>
    ⟨_, (judge_cpy hop hi).trans (hj w m), by simp [fLa_of_fld hl, Nat.mod_eq_of_lt hs, *]⟩)
theorem cpym_readBack (f : CpyArgs) (m : SReg) : ReadBack (.cpym f m) := by
  have hs := dslot_code_lt f.slot
  exact readBack_X2 rfl rfl (by have := layout_code_lt f.bm; omega) (fun w m hop hk hl hCa hCb hf hg hid hcls hxn hD0 hD1 =>
    ⟨_, judge_cpy (i := 1) hop (by decide), by simp [fLa_of_fld hl, Nat.mod_eq_of_lt hs, *]⟩)
theorem bmwait_readBack (la : BitVec 4) (d : SReg) (bm : LayoutRef) (slot : DSlot) (mask : Word) : ReadBack (.bmwait la d bm slot mask) := by
  obtain ⟨hD0, hD1⟩ := xD0_descriptors (d1 := 0) (by omega) mask.isLt
  rw [Nat.add_zero] at hD0 hD1
  have hs := dslot_code_lt slot
  have hm : mask.toNat * 2 ^ 32 < 2 ^ 64 := by omega
  generalize he : mask.toNat * 2 ^ 32 = e at hD0 hD1 hm
  exact readBack_X rfl (congrArg (fun e => [_, e]) he) hm (by have := layout_code_lt bm; omega) (fun w hop hk hl hCa hCb hf hg hid hcls hxn =>
    ⟨_, judge_bmwait hop, by simp [judgeBmwait, fLa_of_fld hl, Nat.mod_eq_of_lt hs, *]⟩)
theorem mma_readBack {f : MmaArgs} (h : (Instr.mma f).wf = true) : ReadBack (.mma f) := by
  have := mmaFmt_code_lt f.fmt
  obtain ⟨⟨⟨hn, hp0⟩, hp1⟩, hc⟩ : (((f.n != 0) = true ∧ (f.p0 != some f.id) = true) ∧ (f.p1 != some f.id) = true) ∧
    decide (f.c.toNat ≤ 224) = true := by simpa only [Instr.wf, Bool.and_eq_true] using h
  have hn := toNat_ne_zero_of_bne hn
  exact readBack_X1 rfl rfl (by have := predCode_lt f.p0; have := predCode_lt f.p1; omega) (fun w m hop hk hl hCa hCb hf hg hid hcls hxn hD0 hD1 =>
    ⟨_, judge_mma hop, by
    simp only [bne_iff_ne, decide_eq_true_eq] at hp0 hp1 hc
    simp [judgeMma, fLa_of_fld hl, *]⟩)

/-! ### Control flow, and the rest of format C (R26, R27) -/

theorem br_readBack (h : BitVec 2) (r : SReg) (o : BitVec 16) : ReadBack (.br h r o) :=
  readBack_B rfl rfl rfl (by omega) fun w hop hk hl hh hs hka hkb h0 h1 => ⟨_, judge_control hop (by decide), by simp [bHint, bOff0, *]⟩
theorem bnz_readBack (h : BitVec 2) (k : KReg) (o : BitVec 16) : ReadBack (.bnz h k o) :=
  readBack_B rfl rfl rfl (by omega) fun w hop hk hl hh hs hka hkb h0 h1 => ⟨_, judge_control hop (by decide), by simp [bHint, bOff0, *]⟩
theorem bz_readBack (h : BitVec 2) (k : KReg) (o : BitVec 16) : ReadBack (.bz h k o) :=
  readBack_B rfl rfl rfl (by omega) fun w hop hk hl hh hs hka hkb h0 h1 => ⟨_, judge_control hop (by decide), by simp [bHint, bOff0, *]⟩
theorem call_readBack (o : BitVec 16) : ReadBack (.call o) :=
  readBack_B rfl rfl rfl (by omega) fun w hop hk hl hh hs hka hkb h0 h1 => ⟨_, judge_control hop (by decide), by simp [bOff0, *]⟩
theorem apply_readBack (k : KReg) (o : BitVec 16) : ReadBack (.apply k o) :=
  readBack_B rfl rfl rfl (by omega) fun w hop hk hl hh hs hka hkb h0 h1 => ⟨_, judge_control hop (by decide), by simp [bOff0, *]⟩
theorem applyT_readBack {p : BitVec 2} {k : KReg} {o : BitVec 16} (h : (p != 3) = true) : ReadBack (.applyT p k o) := by
  have hp : p.toNat ≠ 3 := fun h3 => bne_iff_ne.1 h (BitVec.eq_of_toNat_eq h3)
  exact readBack_B rfl rfl rfl (by omega) fun w hop hk hl hh hs hka hkb h0 h1 => ⟨_, judge_control hop (by decide), by simp [bHint, bOff0, *]⟩
theorem apply2_readBack (a b : KReg) (o : BitVec 16) (p : BitVec 15) : ReadBack (.apply2 a b o p) :=
  readBack_B rfl rfl rfl (by omega) fun w hop hk hl hh hs hka hkb h0 h1 => ⟨_, judge_control hop (by decide), by simp [bOff0, bOff1, *]⟩
theorem exit_readBack (k : KReg) : ReadBack (.exit k) :=
  readBack_C rfl rfl rfl (by omega) fun w hop hk hl ha hb hi => ⟨_, judge_control hop (by decide), by simp [fK_of_fld hk, *]⟩
theorem await_readBack (d : SReg) (t : BitVec 31) : ReadBack (.await d t) :=
  readBack_C rfl rfl rfl (by omega) fun w hop hk hl ha hb hi => ⟨_, judge_control hop (by decide), by simp [*]⟩
theorem trap_readBack (k : KReg) (c : BitVec 16) : ReadBack (.trap k c) :=
  readBack_C rfl rfl rfl (by omega) fun w hop hk hl ha hb hi => ⟨_, judge_control hop (by decide), by simp [fK_of_fld hk, c.isLt, *]⟩
theorem bkpt_readBack (k : KReg) (c : BitVec 16) : ReadBack (.bkpt k c) :=
  readBack_C rfl rfl rfl (by omega) fun w hop hk hl ha hb hi => ⟨_, judge_control hop (by decide), by simp [fK_of_fld hk, c.isLt, *]⟩
theorem tret_readBack : ReadBack .tret :=
  readBack_C rfl rfl rfl (by omega) fun w hop hk hl ha hb hi => ⟨_, judge_control hop (by decide), by simp [*]⟩
theorem tretSkip_readBack : ReadBack .tretSkip :=
  readBack_C rfl rfl rfl (by omega) fun w hop hk hl ha hb hi => ⟨_, judge_control hop (by decide), by simp [*]⟩
theorem tretComplete_readBack : ReadBack .tretComplete :=
  readBack_C rfl rfl rfl (by omega) fun w hop hk hl ha hb hi => ⟨_, judge_control hop (by decide), by simp [*]⟩

/-- An instruction of the control part without operands. -/
theorem bareControl_readBack {x : Instr} {op : Nat} (hop : op < 0x20)
    (hj : ∀ w, judgeControl w op = some ⟨fCa w == 0 && fCb w == 0 && fCi w == 0, true, true, true, x⟩) (hwords : x.words = 1)
    (henc : encodeNat x = [wC op 0 0 0 0]) : ReadBack x :=
  readBack_C hwords henc (isX_of_lt (by omega)) (by omega) (fun w hw hk hl ha hb hi => ⟨_, (judge_control hw hop).trans (hj w), by simp [*]⟩)

/-- An instruction of format C without operands. -/
theorem bareC_readBack {x : Instr} {op : Nat} (hop : 0x148 ≤ op ∧ op < 0x15B ∨ op = 0x17D)
    (hj : ∀ w, judgeC w op = some ⟨fCa w == 0 && fCb w == 0 && fCi w == 0, true, true, true, x⟩) (hwords : x.words = 1)
    (henc : encodeNat x = [wC op 0 0 0 0]) : ReadBack x := by
  refine readBack_C hwords henc ?_ (by omega) (fun w hw hk hl ha hb hi => ⟨_, Eq.trans ?_ (hj w), by simp [*]⟩)
  · simp [isX]
    omega
  · rcases hop with h | h
    · exact judge_lowC hw h.1 h.2
    · exact judge_highC hw (by omega)

theorem fence_readBack (sc : Scope) : ReadBack (.fence sc) := by
  cases sc <;> exact bareC_readBack (by decide) (fun _ => rfl) rfl rfl

theorem accepts_pushPop {w : Nat} {kd : RegKind} {a : VReg} {n : BitVec 5} {isPush : Bool} (h : pushPopOk (!isPush) kd a n = true)
    (hk : fld w 51 4 = 0) (hl : fld w 47 4 = 0) (ha : fCa w = a.toNat) (hb : fCb w = kd.code) (hi : fCi w = n.toNat) :
    (judgePushPop w isPush).clean = true ∧ ((judgePushPop w isPush).kZero = true → fld w 51 4 = 0) ∧
      ((judgePushPop w isPush).short = true → fld w 47 4 = 0) ∧ (judgePushPop w isPush).ok = true ∧
      (judgePushPop w isPush).instr = if isPush then .push kd a n else .pop kd a n := by
  obtain ⟨hn, hlim, hpop⟩ := pushPopOk_iff.1 h
  cases kd
  case vector =>
    have : a.toNat < 256 := a.isLt
    simp_all [judgePushPop, RegKind.code, regLimit]
  case scalar =>
    have : a.toNat < 64 := by simp only [regLimit] at hlim; omega
    simp_all [judgePushPop, RegKind.code, regLimit]
  case set =>
    have : a.toNat < 16 := by simp only [regLimit] at hlim; omega
    cases isPush <;> simp_all [judgePushPop, RegKind.code, regLimit]

theorem regKind_code_lt (kd : RegKind) : kd.code < 3 := by cases kd <;> decide
theorem push_readBack {kd : RegKind} {a : VReg} {n : BitVec 5} (h : pushPopOk false kd a n = true) : ReadBack (.push kd a n) := by
  have := regKind_code_lt kd
  exact readBack_C rfl rfl rfl (by omega) fun w hop hk hl ha hb hi =>
    ⟨_, judge_lowC hop (by decide) (by decide), accepts_pushPop (isPush := true) h hk hl ha hb hi⟩
theorem pop_readBack {kd : RegKind} {a : VReg} {n : BitVec 5} (h : pushPopOk true kd a n = true) : ReadBack (.pop kd a n) := by
  have := regKind_code_lt kd
  exact readBack_C rfl rfl rfl (by omega) fun w hop hk hl ha hb hi =>
    ⟨_, judge_lowC hop (by decide) (by decide), accepts_pushPop (isPush := false) h hk hl ha hb hi⟩

theorem lrec_readBack {a : SReg} {h : BitVec 7} (ha : decide (a.toNat ≤ 60) = true) : ReadBack (.lrec a h) :=
  readBack_C rfl rfl rfl (by omega) fun w hop hk hl ha' hb hi => ⟨_, judge_lowC hop (by decide) (by decide), by
    have := of_decide_eq_true ha
    have := Nat.le_of_lt_succ h.isLt
    simp [*]⟩
theorem pbarArrive_readBack {d : SReg} {m : MArgs} (ho : osRel m = true) (hm : m.perAgent = true) : ReadBack (.pbarArrive d m) :=
  readBack_M rfl rfl rfl (by omega) fun w hop hk hd ha => ⟨_, judge_lowC hop (by decide) (by decide), by simp [*]⟩
theorem pbarWait_readBack {d : SReg} {m : MArgs} (ho : osAcq m = true) (hm : m.perAgent = true) : ReadBack (.pbarWait d m) :=
  readBack_M rfl rfl rfl (by omega) fun w hop hk hd ha => ⟨_, judge_lowC hop (by decide) (by decide), by simp [*]⟩

/-- The fields of the immediate of gang (R175). -/
theorem gang_fields {s0 s1 s2 s3 sh n : Nat} (h : s0 + s1 * 2 ^ 5 + s2 * 2 ^ 10 + s3 * 2 ^ 15 + sh * 2 ^ 20 = n) (h0 : s0 < 32) (h1 : s1 < 32)
    (h2 : s2 < 32) (h3 : s3 < 32) (hs : sh < 4) :
    n < 2 ^ 22 ∧ fld n 0 5 = s0 ∧ fld n 5 5 = s1 ∧ fld n 10 5 = s2 ∧ fld n 15 5 = s3 ∧ fld n 20 2 = sh := by
  unfold fld
  omega

/-- A condition that decides between two facts, as what holds in each case. -/
theorem or_of_ite {c p q : Prop} [Decidable c] (h : if c then p else q) : (c ∨ q) ∧ (¬c ∨ p) := by
  split_ifs at h with hc
  · exact ⟨.inl hc, .inr h⟩
  · exact ⟨.inr h, .inl hc⟩

theorem gang_readBack {g : GangArgs} (h : g.wf = true) : ReadBack (.gang g) := by
  obtain ⟨q, sh, s0, s1, s2, s3⟩ := g
  generalize him : s0.toNat + s1.toNat * 2 ^ 5 + s2.toNat * 2 ^ 10 + s3.toNat * 2 ^ 15 + sh.toNat * 2 ^ 20 = im
  obtain ⟨hlt, f0, f1, f2, f3, fs⟩ := gang_fields him s0.isLt s1.isLt s2.isLt s3.isLt sh.isLt
  simp [GangArgs.wf, ← BitVec.toNat_inj] at h
  obtain ⟨⟨hlo, hhi⟩, hq⟩ := h
  obtain ⟨hlo0, hlo1⟩ := or_of_ite hlo
  obtain ⟨hhi0, hhi1⟩ := or_of_ite hhi
  rw [not_or] at hlo1 hhi1
  cases q
  case none =>
    refine readBack_C rfl (congrArg (fun n => [wC 0x170 0 0 0 n]) him) rfl (by omega) fun w hop hk hl ha hb hi => ⟨_, judge_highC hop (by decide), ?_⟩
    simp [judgeGang, hi, f0, f1, f2, f3, fs, ha, hb, hk, hl]
    exact ⟨⟨hlo0, hhi0⟩, ⟨hlt, hlo1⟩, hhi1⟩
  case some q =>
    refine readBack_C rfl (congrArg (fun n => [wC 0x170 0 (8 + q.toNat) 0 n]) him) rfl (by omega) fun w hop hk hl ha hb hi =>
      ⟨_, judge_highC hop (by decide), ?_⟩
    have : q.toNat < 8 := q.isLt
    simp [judgeGang, hi, f0, f1, f2, f3, fs, ha, hb, hk, hl]
    exact ⟨⟨⟨by omega, hlo0⟩, hhi0⟩, ⟨⟨⟨hlt, hlo1⟩, hhi1⟩, hq.resolve_right nofun⟩, by simp [Nat.mod_eq_of_lt this]⟩

theorem mwait_readBack (id : BitVec 6) : ReadBack (.mwait id) :=
  readBack_C rfl rfl rfl (by omega) fun w hop hk hl ha hb hi => ⟨_, judge_highC hop (by decide), by
    have hform : fld id.toNat 6 2 = 0 := by unfold fld; omega
    have hid : id.toNat % 64 = id.toNat := by omega
    have : id.toNat < 256 := by omega
    simp [judgeMwait, *]⟩
theorem mwaitPop_readBack (d : SReg) (q : QReg) : ReadBack (.mwaitPop d q) :=
  readBack_C rfl rfl rfl (by omega) fun w hop hk hl ha hb hi => ⟨_, judge_highC hop (by decide), by
    have hform : fld 64 6 2 = 1 := rfl
    have : q.toNat < 8 := q.isLt
    simp [judgeMwait, *]⟩
theorem mwaitAll_readBack : ReadBack .mwaitAll :=
  readBack_C rfl rfl rfl (by omega) fun w hop hk hl ha hb hi => ⟨_, judge_highC hop (by decide), by
    have hform : fld 128 6 2 = 2 := rfl
    simp [judgeMwait, *]⟩

theorem emit_readBack : ∀ {f : EmitForm}, (Instr.emit f).wf = true → ReadBack (.emit f)
  | .lane k a q, h => readBack_C rfl rfl rfl (by omega) fun w hop hk hl ha hb hi => ⟨_, judge_highC hop (by decide), by
    have hform : fld q.toNat 3 1 = 0 := by unfold fld; omega
    have hq : q.toNat % 8 = q.toNat ∧ q.toNat < 16 := by omega
    have ha' : a.toNat ≤ 240 := of_decide_eq_true h
    simp [judgeEmit, fK_of_fld hk, *]⟩
  | .scalar a q, h => readBack_C rfl rfl rfl (by omega) fun w hop hk hl ha hb hi => ⟨_, judge_highC hop (by decide), by
    have hform : fld (8 + q.toNat) 3 1 = 1 := by unfold fld; omega
    have hq : q.toNat % 8 = q.toNat ∧ 8 + q.toNat < 16 := by omega
    have ha' : a.toNat ≤ 56 := of_decide_eq_true h
    simp [judgeEmit, *]⟩
theorem rsr_readBack : ∀ {f : RsrForm}, (Instr.rsr f).wf = true → ReadBack (.rsr f)
  | .lane k d upper n, h => by
    have hn : n.toNat ≤ 13 := of_decide_eq_true h
    refine readBack_C rfl rfl rfl (by split_ifs <;> omega) fun w hop hk hl ha hb hi => ⟨_, judge_highC hop (by decide), ?_⟩
    cases upper <;> simp [judgeRsr, fK_of_fld hk, *]
  | .scalar d n, h => readBack_C rfl rfl rfl (by omega) fun w hop hk hl ha hb hi => ⟨_, judge_highC hop (by decide), by
    obtain ⟨hn, hn0⟩ := Bool.and_eq_true _ _ ▸ h
    have hn : n.toNat ≤ 13 := of_decide_eq_true hn
    have hn0 := toNat_ne_zero_of_bne hn0
    simp [judgeRsr, *]⟩
theorem rolesw_readBack (r : BitVec 3) : ReadBack (.rolesw r) :=
  readBack_C rfl rfl rfl (by omega) fun w hop hk hl ha hb hi => ⟨_, judge_highC hop (by decide), by simp [r.isLt, *]⟩
theorem wsr_readBack {a : SReg} {n : BitVec 4} (h : (n == 8 || n == 12) = true) : ReadBack (.wsr a n) := by
  have hn : n.toNat = 8 ∨ n.toNat = 12 := (Bool.or_eq_true _ _ ▸ h).imp (fun h => by rw [eq_of_beq h]; rfl) fun h => by rw [eq_of_beq h]; rfl
  exact readBack_C rfl rfl rfl (by omega) fun w hop hk hl ha hb hi => ⟨_, judge_highC hop (by decide), by simp [*]⟩
theorem rmode_readBack (m : BitVec 2) : ReadBack (.rmode m) :=
  readBack_C rfl rfl rfl (by omega) fun w hop hk hl ha hb hi => ⟨_, judge_highC hop (by decide), by simp [m.isLt, *]⟩
theorem trec_readBack (a : SReg) (c : BitVec 16) : ReadBack (.trec a c) :=
  readBack_C rfl rfl rfl (by omega) fun w hop hk hl ha hb hi => ⟨_, judge_highC hop (by decide), by simp [c.isLt, *]⟩

end Sys2Proof.Encoding

namespace Sys2Proof.Encoding
open Sys2Proof

theorem readBack_of_wf (x : Instr) (h : x.wf = true) (he : encode x ≠ []) : ReadBack x := by
  cases x with
  | nop => exact bareControl_readBack (by decide) (fun _ => rfl) rfl rfl
  | br _ _ _ => exact br_readBack ..
  | bnz _ _ _ => exact bnz_readBack ..
  | bz _ _ _ => exact bz_readBack ..
  | call _ => exact call_readBack ..
  | ret => exact bareControl_readBack (by decide) (fun _ => rfl) rfl rfl
  | apply _ _ => exact apply_readBack ..
  | applyT _ _ _ => exact applyT_readBack h
  | apply2 _ _ _ _ => exact apply2_readBack ..
  | join => exact bareControl_readBack (by decide) (fun _ => rfl) rfl rfl
  | exit _ => exact exit_readBack ..
  | await _ _ => exact await_readBack ..
  | yield => exact bareControl_readBack (by decide) (fun _ => rfl) rfl rfl
  | trap _ _ => exact trap_readBack ..
  | bkpt _ _ => exact bkpt_readBack ..
  | tret => exact tret_readBack
  | tretSkip => exact tretSkip_readBack
  | tretComplete => exact tretComplete_readBack
  | tkill => exact bareControl_readBack (by decide) (fun _ => rfl) rfl rfl
  | tpass => exact bareControl_readBack (by decide) (fun _ => rfl) rfl rfl
  | test _ _ _ _ _ _ => exact test_readBack h
  | kall _ => exact kall_readBack h
  | kunion _ _ _ => exact kset2_readBack (i := 1) (by decide) (fun _ => rfl) (fun _ _ _ => rfl) (fun _ _ _ => rfl) h
  | kinter _ _ _ => exact kset2_readBack (i := 2) (by decide) (fun _ => rfl) (fun _ _ _ => rfl) (fun _ _ _ => rfl) h
  | kdiff _ _ _ => exact kset2_readBack (i := 3) (by decide) (fun _ => rfl) (fun _ _ _ => rfl) (fun _ _ _ => rfl) h
  | kcount _ _ => exact kcount_readBack ..
  | kfirst _ _ => exact kset1_readBack (i := 5) (by decide) (fun _ => rfl) (fun _ _ => rfl) (fun _ _ => rfl) h
  | kmatch _ _ _ _ =>
    obtain ⟨hd, ha⟩ := Bool.and_eq_true _ _ ▸ h
    exact kmatch_readBack hd ha
  | kgatherT _ _ => exact kset1_readBack (i := 7) (by decide) (fun _ => rfl) (fun _ _ => rfl) (fun _ _ => rfl) h
  | kmov _ _ => exact kset1_readBack (i := 8) (by decide) (fun _ => rfl) (fun _ _ => rfl) (fun _ _ => rfl) h
  | kld _ _ => 
    simp only [Instr.wf, Bool.and_eq_true] at h
    exact kld_readBack h.1.1 h.1.2 h.2
  | kst _ _ => 
    obtain ⟨ho, hm⟩ := Bool.and_eq_true _ _ ▸ h
    exact kst_readBack ho hm
  | iadd f => exact int2_readBack (i := 0) (f := f) rfl
  | isub f => exact int2_readBack (i := 1) (f := f) rfl
  | imul f => exact int2_readBack (i := 2) (f := f) rfl
  | imulhiS f => exact int2_readBack (i := 3) (f := f) rfl
  | imulhiN f => exact int2_readBack (i := 4) (f := f) rfl
  | imad f => exact int3_readBack (i := 5) (f := f) rfl
  | iminS f => exact int2_readBack (i := 6) (f := f) rfl
  | iminN f => exact int2_readBack (i := 7) (f := f) rfl
  | imaxS f => exact int2_readBack (i := 8) (f := f) rfl
  | imaxN f => exact int2_readBack (i := 9) (f := f) rfl
  | iabs f => exact int1_readBack (i := 10) (f := f) rfl
  | ineg f => exact int1_readBack (i := 11) (f := f) rfl
  | and f => exact int2_readBack (i := 12) (f := f) rfl
  | or f => exact int2_readBack (i := 13) (f := f) rfl
  | xor f => exact int2_readBack (i := 14) (f := f) rfl
  | not f => exact int1_readBack (i := 15) (f := f) rfl
  | shl f => exact int2_readBack (i := 16) (f := f) rfl
  | shr f => exact int2_readBack (i := 17) (f := f) rfl
  | sar f => exact int2_readBack (i := 18) (f := f) rfl
  | rotl f => exact int2_readBack (i := 19) (f := f) rfl
  | popc f => exact int1_readBack (i := 20) (f := f) rfl
  | clz f => exact int1_readBack (i := 21) (f := f) rfl
  | brev f => exact int1_readBack (i := 22) (f := f) rfl
  | bfxS f => exact int2_readBack (i := 23) (f := f) rfl
  | bfxN f => exact int2_readBack (i := 24) (f := f) rfl
  | bfi f => exact int3_readBack (i := 25) (f := f) rfl
  | prm f => exact prm_readBack f
  | sel f => exact int3_readBack (i := 27) (f := f) rfl
  | fadd f => exact flt2_readBack (i := 0) (by decide) (fun _ => rfl) (fun _ => rfl) (fun _ => rfl) (fun _ => rfl) f
  | fsub f => exact flt2_readBack (i := 1) (by decide) (fun _ => rfl) (fun _ => rfl) (fun _ => rfl) (fun _ => rfl) f
  | fmul f => exact flt2_readBack (i := 2) (by decide) (fun _ => rfl) (fun _ => rfl) (fun _ => rfl) (fun _ => rfl) f
  | ffma f => exact ffma_readBack f
  | fmin f => exact fltMM_readBack (i := 4) (by decide) (fun _ => rfl) (fun _ => rfl) (fun _ => rfl) (fun _ => rfl) f
  | fmax f => exact fltMM_readBack (i := 5) (by decide) (fun _ => rfl) (fun _ => rfl) (fun _ => rfl) (fun _ => rfl) f
  | frcp f => exact fltUn_readBack (i := 6) (by decide) (fun _ => rfl) (fun _ => rfl) (fun _ => rfl) f
  | frsq f => exact fltUn_readBack (i := 7) (by decide) (fun _ => rfl) (fun _ => rfl) (fun _ => rfl) f
  | fsqrt f => exact fltUn_readBack (i := 8) (by decide) (fun _ => rfl) (fun _ => rfl) (fun _ => rfl) f
  | fexp2 f => exact fltUn_readBack (i := 9) (by decide) (fun _ => rfl) (fun _ => rfl) (fun _ => rfl) f
  | flog2 f => exact fltUn_readBack (i := 10) (by decide) (fun _ => rfl) (fun _ => rfl) (fun _ => rfl) f
  | fsin f => exact fltUn_readBack (i := 11) (by decide) (fun _ => rfl) (fun _ => rfl) (fun _ => rfl) f
  | fcos f => exact fltUn_readBack (i := 12) (by decide) (fun _ => rfl) (fun _ => rfl) (fun _ => rfl) f
  | fscale _ _ _ _ _ => exact fscale_readBack ..
  | fclass _ _ _ => exact fclass_readBack ..
  | dadd f => exact dadd_readBack h
  | dmul f => exact dmul_readBack h
  | dfma f => exact dfma_readBack h
  | dmin f =>
    obtain ⟨hf, hrm⟩ := Bool.and_eq_true _ _ ▸ h
    exact dmin_readBack hf (eq_of_beq hrm)
  | dmax f =>
    obtain ⟨hf, hrm⟩ := Bool.and_eq_true _ _ ▸ h
    exact dmax_readBack hf (eq_of_beq hrm)
  | hadd2 f => exact packed2_readBack (i := 5) (by decide) (fun _ => rfl) (fun _ => rfl) (fun _ => rfl) (eq_of_beq h)
  | hmul2 f => exact packed2_readBack (i := 6) (by decide) (fun _ => rfl) (fun _ => rfl) (fun _ => rfl) (eq_of_beq h)
  | badd2 f => exact packed2_readBack (i := 8) (by decide) (fun _ => rfl) (fun _ => rfl) (fun _ => rfl) (eq_of_beq h)
  | hfma2 f => exact packed3_readBack (i := 7) (by decide) (fun _ => rfl) (fun _ => rfl) (fun _ => rfl) (eq_of_beq h)
  | bfma2 f => exact packed3_readBack (i := 9) (by decide) (fun _ => rfl) (fun _ => rfl) (fun _ => rfl) (eq_of_beq h)
  | cvt _ _ _ _ _ _ _ _ =>
    simp only [Instr.wf, Bool.and_eq_true] at h
    obtain ⟨⟨⟨hd, hs⟩, hjd⟩, hjs⟩ := h
    exact cvt_readBack hd hs hjd hjs
  | cvtSr _ _ _ _ _ _ _ _ => exact cvtSr_readBack h
  | rnd _ _ _ _ => exact rnd_readBack ..
  | dot2H16 f => exact dot_readBack (i := 0) true (by decide) (fun _ => rfl) (fun _ => rfl) (fun _ => rfl) (eq_of_beq h) (.inl rfl)
  | dot2B16 f => exact dot_readBack (i := 1) true (by decide) (fun _ => rfl) (fun _ => rfl) (fun _ => rfl) (eq_of_beq h) (.inl rfl)
  | dot4F8E4 f => exact dot_readBack (i := 4) true (by decide) (fun _ => rfl) (fun _ => rfl) (fun _ => rfl) (eq_of_beq h) (.inl rfl)
  | dot4F8E5 f => exact dot_readBack (i := 5) true (by decide) (fun _ => rfl) (fun _ => rfl) (fun _ => rfl) (eq_of_beq h) (.inl rfl)
  | dot8F4E2M1 f => exact dot_readBack (i := 8) true (by decide) (fun _ => rfl) (fun _ => rfl) (fun _ => rfl) (eq_of_beq h) (.inl rfl)
  | dot4S8 f =>
    obtain ⟨hla, hrm⟩ := Bool.and_eq_true _ _ ▸ h
    exact dot_readBack (i := 2) false (by decide) (fun _ => rfl) (fun _ => rfl) (fun _ => rfl) (eq_of_beq hla) (.inr (eq_of_beq hrm))
  | dot4N8 f =>
    obtain ⟨hla, hrm⟩ := Bool.and_eq_true _ _ ▸ h
    exact dot_readBack (i := 3) false (by decide) (fun _ => rfl) (fun _ => rfl) (fun _ => rfl) (eq_of_beq hla) (.inr (eq_of_beq hrm))
  | dot8S4 f =>
    obtain ⟨hla, hrm⟩ := Bool.and_eq_true _ _ ▸ h
    exact dot_readBack (i := 6) false (by decide) (fun _ => rfl) (fun _ => rfl) (fun _ => rfl) (eq_of_beq hla) (.inr (eq_of_beq hrm))
  | dot8N4 f =>
    obtain ⟨hla, hrm⟩ := Bool.and_eq_true _ _ ▸ h
    exact dot_readBack (i := 7) false (by decide) (fun _ => rfl) (fun _ => rfl) (fun _ => rfl) (eq_of_beq hla) (.inr (eq_of_beq hrm))
  | shflIdx _ _ _ _ => exact shfl_readBack (i := 0) (by decide) (fun _ => rfl) (fun _ _ _ _ => rfl) (fun _ _ _ _ => rfl) ..
  | shflUp _ _ _ _ => exact shfl_readBack (i := 1) (by decide) (fun _ => rfl) (fun _ _ _ _ => rfl) (fun _ _ _ _ => rfl) ..
  | shflDown _ _ _ _ => exact shfl_readBack (i := 2) (by decide) (fun _ => rfl) (fun _ _ _ _ => rfl) (fun _ _ _ _ => rfl) ..
  | shflXor _ _ _ _ => exact shfl_readBack (i := 3) (by decide) (fun _ => rfl) (fun _ _ _ _ => rfl) (fun _ _ _ _ => rfl) ..
  | shflNx _ _ _ => exact shflNx_readBack ..
  | shflPv _ _ _ => exact shflPv_readBack ..
  | bcast _ _ _ _ => exact bcast_readBack ..
  | bcastScalar _ _ _ _ => exact bcastScalar_readBack ..
  | red _ _ _ _ _ => exact red_readBack h _
  | redx _ _ _ _ => exact redx_readBack ..
  | scan _ _ _ _ _ _ => exact scan_readBack _ h
  | ld _ _ _ _ =>
    obtain ⟨ho, hd⟩ := Bool.and_eq_true _ _ ▸ h
    exact ld_readBack ho hd
  | ldFe _ _ _ _ =>
    obtain ⟨ho, hd⟩ := Bool.and_eq_true _ _ ▸ h
    exact ldFe_readBack ho hd
  | ldTake _ _ _ _ =>
    obtain ⟨ho, hd⟩ := Bool.and_eq_true _ _ ▸ h
    exact ldTake_readBack ho hd
  | st _ _ _ _ =>
    obtain ⟨ho, hd⟩ := Bool.and_eq_true _ _ ▸ h
    exact st_readBack ho hd
  | atom _ _ => exact atom_readBack h
  | tld _ => exact tld_readBack h
  | tred _ => exact tred_readBack h
  | ttr _ => exact ttr_readBack h
  | gather _ => exact gather_readBack (i := 2) (by decide) (fun _ _ => rfl) (fun _ => rfl) (fun _ => rfl) h
  | scatter _ => exact gather_readBack (i := 3) (by decide) (fun _ _ => rfl) (fun _ => rfl) (fun _ => rfl) h
  | lld _ => exact layer_readBack (i := 0) (by decide) (fun _ _ => rfl) (fun _ => rfl) (fun _ => rfl) h
  | lst _ => exact layer_readBack (i := 1) (by decide) (fun _ _ => rfl) (fun _ => rfl) (fun _ => rfl) h
  | push _ _ _ => exact push_readBack h
  | pop _ _ _ => exact pop_readBack h
  | lrec _ _ => exact lrec_readBack h
  | lfence => exact bareC_readBack (by decide) (fun _ => rfl) rfl rfl
  | fence sc => exact fence_readBack sc
  | bar => exact bareC_readBack (by decide) (fun _ => rfl) rfl rfl
  | cbar => exact bareC_readBack (by decide) (fun _ => rfl) rfl rfl
  | pbarArrive _ _ =>
    obtain ⟨ho, hm⟩ := Bool.and_eq_true _ _ ▸ h
    exact pbarArrive_readBack ho hm
  | pbarWait _ _ =>
    obtain ⟨ho, hm⟩ := Bool.and_eq_true _ _ ▸ h
    exact pbarWait_readBack ho hm
  | bmwait _ _ _ _ _ => exact bmwait_readBack ..
  | cpy f => exact cpy_readBack (i := 0) (by decide) (fun _ _ => rfl) (fun _ => rfl) (fun _ => rfl) f
  | cpyx f => exact cpy_readBack (i := 2) (by decide) (fun _ _ => rfl) (fun _ => rfl) (fun _ => rfl) f
  | cpym _ _ => exact cpym_readBack ..
  | gang _ => exact gang_readBack h
  | mma _ => exact mma_readBack h
  | mfenceOpr => exact bareC_readBack (by decide) (fun _ => rfl) rfl rfl
  | mwait _ => exact mwait_readBack ..
  | mwaitAll => exact mwaitAll_readBack
  | mwaitPop _ _ => exact mwaitPop_readBack ..
  | emit _ => exact emit_readBack h
  | rolesw _ => exact rolesw_readBack ..
  | rsr _ => exact rsr_readBack h
  | wsr _ _ => exact wsr_readBack h
  | rmode _ => exact rmode_readBack ..
  | trec _ _ => exact trec_readBack ..
  | _ => exact absurd rfl he

/-- Settles O1: each instruction's words have the fields of its operands, and its part of the opcode map reads them back. -/
theorem decodeOfEncode : Obligations.DecodeOfEncode := readBack_of_wf

end Sys2Proof.Encoding
end

