-- ==== Sys2Proof/Proofs/WorkedEncodings.lean ====
section
/-! SUPPORT. The worked encodings of chapter 02. -/

namespace Sys2Proof.Encoding
open Sys2Proof

/-- Settles O9: the words and headers are closed, so the decoder and the header's fields are evaluated. -/
theorem workedEncodings : Obligations.WorkedEncodings := by
  unfold Obligations.WorkedEncodings
  refine ⟨?_, ?_, ?_, ?_⟩
  · rfl
  · rfl
  · rfl
  · decide
end Sys2Proof.Encoding
end

