-- ==== Sys2Proof/Proofs/Turns.lean ====
section
/-! SUPPORT. What a turn comes to: the fetch of one word or two, the step of each mover, the notes of idle groups, and fall-through (02 R31, R36, 08 R136). -/

namespace Sys2Proof.Turns
open Sys2Proof Sys2Proof.Machine

/-! ### The second word plays no part in the decoding of a one-word instruction (R20, R36) -/

theorem judgeCpy_of_not_X {w e e' i : Nat} (h : ¬ i < 3) : judgeCpy w e i = judgeCpy w e' i := by
  match i, h with
  | 0, h | 1, h | 2, h => exact absurd (by decide) h
  | _ + 3, _ => rfl

theorem isX_of_ge {op : Nat} (h : isX op = false) :
    ¬ (0x141 ≤ op ∧ op < 0x148) ∧ op ≠ 0x15B ∧ ¬ (0x160 ≤ op ∧ op < 0x163) ∧ ¬ (0x171 ≤ op ∧ op ≤ 0x17C) := by
  simp only [isX, Bool.or_eq_false_iff, decide_eq_false_iff_not, beq_eq_false_iff_ne] at h
  omega

/-- Outside format X the extension word is not looked at. -/
theorem judge_ext_irrelevant {w e e' : Nat} (h : isX (fOp w) = false) : judge w e = judge w e' := by
  obtain ⟨htile, hbm, hcpy, hmma⟩ := isX_of_ge h
  unfold judge
  iterate 25 refine ite_congr rfl (fun _ => rfl) fun _ => ?_
  refine ite_congr rfl (fun _ => by exfalso; omega) fun _ => ?_
  refine ite_congr rfl (fun h => absurd (eq_of_beq h) hbm) fun _ => ?_
  refine ite_congr rfl (fun _ => rfl) fun _ => ?_
  refine ite_congr rfl (fun _ => judgeCpy_of_not_X (by omega)) fun _ => ?_
  exact ite_congr rfl (fun h => absurd h hmma) fun _ => rfl

/-- A word that decodes alone is of no format with a second word. -/
theorem isX_of_decode_none {w : DWord} {i : Instr} (h : decode w none = .ok i) : isX (fOp w.toNat) = false := by
  by_contra hx
  rw [Bool.not_eq_false] at hx
  simp only [decode, hx] at h
  split at h <;> [cases h; (split at h <;> cases h)]

theorem decode_of_decode_none {w : DWord} {i : Instr} (ext : Option DWord) (h : decode w none = .ok i) : decode w ext = .ok i := by
  have hx := isX_of_decode_none h
  simp only [decode, hx, Bool.false_and] at h ⊢
  rwa [judge_ext_irrelevant hx]

/-! ### What is fetched (R31, R36) -/

theorem fetch_one {s : State} {a : AgentRef} {w : DWord} {i : Instr} (hw : s.codeWord (s.team a.team) (s.agent a).pc = .ok w)
    (hd : decode w none = .ok i) : s.fetch a = .instr i := by
  simp [State.fetch, hw, wordCount, isX_of_decode_none hd, decode_of_decode_none _ hd]

theorem fetch_two {s : State} {a : AgentRef} {w e : DWord} {i : Instr} (hrest : 2 ≤ (s.agent a).rest)
    (hw : s.codeWord (s.team a.team) (s.agent a).pc = .ok w) (he : s.codeWord (s.team a.team) ((s.agent a).pc + 1) = .ok e)
    (hd : decode w (some e) = .ok i) : s.fetch a = .instr i := by
  have hlen : ¬ (s.agent a).rest < 2 := by omega
  simp only [State.fetch, hw, he, if_neg hlen, hd]
  simp

/-! ### The turn (R31, R36, R136) -/

theorem step_agent {s : State} {ticks : Nat} {a : AgentRef} {rest : List Turn} (h : s.schedule = ⟨ticks, .agent a⟩ :: rest) :
    step s = match (s.pass ticks rest).agentMove a with
      | .done s' => .next s'
      | .issue i s' => exec i s' := by
  simp only [step, State.takeTurn, h] <;> rfl

theorem agentMove_past {u : State} {a : AgentRef} (hmove : ({ u with cur := a } : State).mayMove = true)
    (hstop : ({ u with cur := a } : State).atPcStop = false) (hrest : ({ u with cur := a } : State).curAgent.rest = 0) :
    u.agentMove a = .done ({ u with cur := a } : State).fallThrough := by
  simp [State.agentMove, hmove, hstop, hrest]

theorem agentMove_instr {u : State} {a : AgentRef} {i : Instr} (hmove : ({ u with cur := a } : State).mayMove = true)
    (hstop : ({ u with cur := a } : State).atPcStop = false) (hrest : ({ u with cur := a } : State).curAgent.rest ≠ 0)
    (hfetch : ({ u with cur := a } : State).fetch a = .instr i)
    (hleg : ({ u with cur := a } : State).curLaunch.determinate = true →
      ({ u with cur := a } : State).curAgent.progress.isSome = true ∨ ({ u with cur := a } : State).endsLeg i = false) :
    u.agentMove a = .issue i (({ u with cur := a } : State).useLines a i) := by
  have hgo : (({ u with cur := a } : State).curLaunch.determinate && ({ u with cur := a } : State).curAgent.progress.isNone &&
      ({ u with cur := a } : State).endsLeg i) = false := by
    by_contra h
    simp only [Bool.not_eq_false, Bool.and_eq_true] at h
    obtain ⟨⟨hdet, hnone⟩, hends⟩ := h
    rcases hleg hdet with h | h <;> simp_all
  simp [State.agentMove, hmove, hstop, hrest, hfetch, hgo]

theorem step_lane {s : State} {ticks : Nat} {a : AgentRef} {gl : Nat} {rest : List Turn} (h : s.schedule = ⟨ticks, .lane a gl⟩ :: rest) :
    step s = .next ((s.pass ticks rest).laneMove a gl) := by
  simp only [step, State.takeTurn, h]

theorem step_event {s : State} {ticks : Nat} {i : Instr} {rest : List Turn} (hi : isEvent i = true)
    (h : s.schedule = ⟨ticks, .event i⟩ :: rest) : step s = exec i (s.pass ticks rest) := by
  simp only [step, State.takeTurn, h, hi, if_true]

theorem step_world {s : State} {ticks : Nat} {w : World} {rest : List Turn} (h : s.schedule = ⟨ticks, .world w⟩ :: rest) :
    step s = .next ((s.pass ticks rest).world w) := by
  simp only [step, State.takeTurn, h]

/-! ### The idle notes touch nothing but `idleAt` (R136) -/

/-- The note of one group. -/
def idleGroup (s : State) (id : Nat) (t : Team) (g : Nat × Group) : Nat × Group :=
  if s.groupEligible id t g.1 then g else (g.1, { g.2 with idleAt := s.tick })
/-- The note of one team. -/
def idleTeam (s : State) (t : Nat × Team) : Nat × Team :=
  if t.2.status == .resident then (t.1, { t.2 with groups := t.2.groups.map (idleGroup s t.1 t.2) }) else t

theorem noteIdle_teams (s : State) : s.noteIdle.teams = s.teams.map (idleTeam s) := rfl

theorem idleGroup_fst (s : State) (id : Nat) (t : Team) (g : Nat × Group) : (idleGroup s id t g).1 = g.1 := by
  unfold idleGroup; split <;> rfl
theorem idleGroup_snd (s : State) (id : Nat) (t : Team) (g : Nat × Group) :
    { (idleGroup s id t g).2 with idleAt := 0 } = { g.2 with idleAt := 0 } := by
  unfold idleGroup; split <;> rfl
theorem idleTeam_fst (s : State) (t : Nat × Team) : (idleTeam s t).1 = t.1 := by
  unfold idleTeam; split <;> rfl
theorem idleTeam_snd (s : State) (t : Nat × Team) : { (idleTeam s t).2 with groups := [] } = { t.2 with groups := [] } := by
  unfold idleTeam; split <;> rfl

/-- What a map that keeps the keys, and a view of the values, leaves of the lookups. -/
theorem view_cellGet_map {α β : Type} (d : α) (view : α → β) (f : Nat × α → Nat × α) (hkey : ∀ p, (f p).1 = p.1)
    (hview : ∀ p, view (f p).2 = view p.2) (m : Cells α) (k : Nat) : view (cellGet d (m.map f) k) = view (cellGet d m k) := by
  induction m with
  | nil => rfl
  | cons p m ih =>
    simp only [List.map_cons, cellGet, hkey]
    split <;> simp [hview, ih]

theorem idleTeam_group (s : State) (t : Nat × Team) (g : Nat) :
    { (idleTeam s t).2.group g with idleAt := 0 } = { t.2.group g with idleAt := 0 } := by
  unfold idleTeam
  split
  case isTrue => exact view_cellGet_map Group.blank (fun g => { g with idleAt := 0 }) _ (idleGroup_fst s t.1 t.2) (idleGroup_snd s t.1 t.2) _ _
  case isFalse => rfl

theorem pass_teams_keys (s : State) (ticks : Nat) (rest : List Turn) : (s.pass ticks rest).teams.map (·.1) = s.teams.map (·.1) := by
  simp only [State.pass, noteIdle_teams, List.map_map]
  exact List.map_congr_left fun t _ => idleTeam_fst _ t

theorem pass_team (s : State) (ticks : Nat) (rest : List Turn) (id : Nat) :
    { (s.pass ticks rest).team id with groups := [] } = { s.team id with groups := [] } :=
  view_cellGet_map Team.blank (fun t => { t with groups := [] }) _ (idleTeam_fst _) (idleTeam_snd _) _ _

theorem pass_group (s : State) (ticks : Nat) (rest : List Turn) (id g : Nat) :
    { ((s.pass ticks rest).team id).group g with idleAt := 0 } = { (s.team id).group g with idleAt := 0 } :=
  view_cellGet_map Team.blank (fun t => { t.group g with idleAt := 0 }) _ (idleTeam_fst _) (fun t => idleTeam_group _ t g) _ _

/-- Settles O3: a turn is a match on its mover, an agent's turn goes through the fetch of its words, and the notes of a turn keep the keys and the other fields
of every team and group. -/
theorem stepRunsTurns : Obligations.StepRunsTurns := by
  refine ⟨?_, fun s ticks rest => ⟨fun a gl => step_lane, fun i => step_event, fun w => step_world, rfl, pass_teams_keys s ticks rest,
    fun id => ⟨pass_team s ticks rest id, pass_group s ticks rest id⟩⟩⟩
  intro s ticks a rest i hs u hmove hstop hrest ⟨w, hw, hi⟩ hleg
  have hfetch : u.fetch a = .instr i := by
    rcases hi with ⟨-, hd⟩ | ⟨-, hlen, e, he, hd⟩
    · exact fetch_one hw hd
    · exact fetch_two hlen hw he hd
  rw [step_agent hs, agentMove_instr hmove hstop hrest hfetch hleg]

end Sys2Proof.Turns

namespace Sys2Proof.Turns
open Sys2Proof Sys2Proof.Machine

/-! ### Fall-through into the next block (R31) -/

theorem codeWord_of_headerAt {s : State} {t : Team} {pc : Nat} {h : DWord} (hh : s.headerAt t pc = some h) : s.codeWord t pc = .ok h := by
  unfold State.headerAt at hh
  split at hh
  case isFalse => cases hh
  case isTrue =>
    split at hh
    case h_1 w hw =>
      split at hh <;> cases hh
      exact hw
    case h_2 => cases hh

theorem fallThrough_header {u : State} {h : DWord} (hend : u.kernelEnds u.curTeam u.curAgent.pc = false)
    (hh : u.headerAt u.curTeam u.curAgent.pc = some h) (hlen : hdrLength h ≠ 0) :
    u.fallThrough = u.enterBlock u.cur u.curAgent.pc := by
  simp [State.fallThrough, hend, codeWord_of_headerAt hh, hh, hlen]

theorem fallThrough_illegal {u : State} (h : u.kernelEnds u.curTeam u.curAgent.pc = true ∨ (∃ w, u.codeWord u.curTeam u.curAgent.pc = .ok w) ∧
      ∀ h, u.headerAt u.curTeam u.curAgent.pc = some h → hdrLength h = 0) :
    u.fallThrough = u.raiseAt u.cur (illegal 2) true := by
  cases hend : u.kernelEnds u.curTeam u.curAgent.pc with
  | true => simp [State.fallThrough, hend]
  | false =>
    obtain ⟨⟨w, hw⟩, hlen⟩ := h.resolve_left (by simp [hend])
    cases hh : u.headerAt u.curTeam u.curAgent.pc with
    | none => simp [State.fallThrough, hend, hw, hh]
    | some v => simp [State.fallThrough, hend, hw, hh, hlen v hh]

/-- The state with a header of nonzero length consumed. -/
theorem enterBlock_header {s : State} {a : AgentRef} {pc : Nat} {h : DWord} (ha : cellHas (s.team a.team).agents a.agent = true)
    (hh : s.headerAt (s.team a.team) pc = some h) (hlen : hdrLength h ≠ 0) :
    s.enterBlock a pc = (s.countBlock (s.team a.team) h).modAgent a fun x => { x with pc := pc + 1, rest := hdrLength h } := by
  simp [State.enterBlock, ha, hh, hlen]

@[simp] theorem countBlock_teams (s : State) (t : Team) (h : DWord) : (s.countBlock t h).teams = s.teams := by
  unfold State.countBlock; dsimp only; split <;> rfl
@[simp] theorem countBlock_cur (s : State) (t : Team) (h : DWord) : (s.countBlock t h).cur = s.cur := by
  unfold State.countBlock; dsimp only; split <;> rfl
@[simp] theorem countBlock_main (s : State) (t : Team) (h : DWord) : (s.countBlock t h).main = s.main := by
  unfold State.countBlock; dsimp only; split <;> rfl
@[simp] theorem countBlock_team (s : State) (t : Team) (h : DWord) (id : Nat) : (s.countBlock t h).team id = s.team id := by
  simp only [State.team, countBlock_teams]

/-- A header adds 1 to its counter of its interface when it counts and wm.ctl lets it. -/
theorem countBlock_counters (s : State) (t : Team) (h : DWord) (v : Nat) : ((s.countBlock t h).vi v).counters =
    if v = s.viOf t ∧ hdrCen h = true ∧ bitsOf (s.vi v).wmCtl 1 1 = 1 then
      cellSet 0 (s.vi v).counters (hdrCidx h) (cellGet 0 (s.vi v).counters (hdrCidx h) + 1) else (s.vi v).counters := by
  unfold State.countBlock
  by_cases hc : (hdrCen h && bitsOf (s.vi (s.viOf t)).wmCtl 1 1 == 1) = true
  · rw [if_pos hc, State.vi_modVi]
    simp only [Bool.and_eq_true, beq_iff_eq] at hc
    by_cases hv : v = s.viOf t
    · subst hv; rw [if_pos rfl, if_pos ⟨rfl, hc⟩]
    · rw [if_neg hv, if_neg fun h => hv h.1]
  · rw [if_neg hc, if_neg]
    rintro ⟨rfl, hcen, hbit⟩
    simp [hcen, hbit] at hc

theorem curAgent_modAgent {s : State} {a : AgentRef} {f : Agent → Agent} (hcur : s.cur = a)
    (ha : cellHas (s.team a.team).agents a.agent = true) : (s.modAgent a f).curAgent = f (s.agent a) := by
  subst hcur
  show ((s.modTeam s.cur.team fun t => t.modAgent s.cur.agent f).team s.cur.team).agent s.cur.agent = _
  rw [State.team_modTeam_same, Team.agent_modAgent_same _ _ _ ha]
  rfl

theorem cellHas_of_canIssue {s : State} (h : s.canIssue = true) : cellHas s.curTeam.agents s.cur.agent = true := by
  unfold State.canIssue at h
  exact (Bool.and_eq_true _ _ ▸ h).2

theorem canIssue_of_mayMove {s : State} (h : s.mayMove = true) : s.canIssue = true := by
  simp only [State.mayMove, Bool.and_eq_true] at h
  obtain ⟨⟨⟨⟨⟨hissue, -⟩, -⟩, -⟩, -⟩, -⟩ := h
  exact hissue

/-- Settles O4: past its block an agent's turn is `fallThrough`, which enters the block of a header it can consume and otherwise raises. -/
theorem fallThroughConsumesHeader : Obligations.FallThroughConsumesHeader := by
  intro s ticks a rest hs u pc hmove hstop hrest
  have hstep : step s = .next u.fallThrough := by rw [step_agent hs, agentMove_past hmove hstop hrest]
  refine ⟨fun h hend hh hlen => ?_, fun hbad => by rw [hstep, fallThrough_illegal hbad]⟩
  have ha : cellHas (u.team u.cur.team).agents u.cur.agent = true := cellHas_of_canIssue (canIssue_of_mayMove hmove)
  refine ⟨_, hstep, ?_⟩
  rw [fallThrough_header hend hh hlen, enterBlock_header ha hh hlen]
  refine ⟨?_, countBlock_main _ _ _, countBlock_counters u u.curTeam h⟩
  rw [curAgent_modAgent (countBlock_cur _ _ _) (by rw [countBlock_team]; exact ha), State.agent, countBlock_team]
  rfl

end Sys2Proof.Turns
end

