-- ==== Sys2Proof/Proofs/CanonicalSets.lean ====
section
/-! SUPPORT. Sets of lanes by their groups, and the canonical form of a set: what its descriptor names, and what it leaves of the other handles (06 R49, R52, R97). -/

namespace Sys2Proof.CanonicalSets
open Sys2Proof Sys2Proof.Machine

/-! ### A set and its parts of the groups (R49, R97) -/

theorem testBit_groupPart (x : LaneSet) (g i : Nat) : (groupPart x g).testBit i = (decide (i < 32) && x.getLsbD (32 * g + i)) := by
  rw [groupPart, fld, Nat.testBit_mod_two_pow, Nat.testBit_div_two_pow, BitVec.getLsbD, Nat.add_comm]

theorem getLsbD_groupLanes {g i : Nat} (hi : i < 1024) : (groupLanes g).getLsbD i = (decide (32 * g ≤ i) && decide (i < 32 * g + 32)) := by
  rw [groupLanes, BitVec.getLsbD_ofNat, ← Nat.shiftLeft_eq, Nat.testBit_shiftLeft, Nat.testBit_two_pow_sub_one]
  by_cases h : 32 * g ≤ i
  · simp [h, hi, Nat.sub_lt_iff_lt_add h, Nat.add_comm]
  · simp [h]

theorem eq_zero_of_groupPart {x : LaneSet} (h : ∀ g < 32, groupPart x g = 0) : x = 0 := by
  refine BitVec.eq_of_getLsbD_eq fun i hi => ?_
  have hbit := testBit_groupPart x (i / 32) (i % 32)
  rw [h _ (by omega), Nat.zero_testBit, Nat.div_add_mod] at hbit
  simpa [Nat.mod_lt] using hbit.symm

/-- A set lies in one group when every other group's part is empty. -/
theorem groupLanes_and_of_groupPart {x : LaneSet} {g : Nat} (h : ∀ g' < 32, g' ≠ g → groupPart x g' = 0) : groupLanes g &&& x = x := by
  refine BitVec.eq_of_getLsbD_eq fun i hi => ?_
  rw [BitVec.getLsbD_and, getLsbD_groupLanes hi]
  by_cases hg : i / 32 = g
  · have : 32 * g ≤ i ∧ i < 32 * g + 32 := by omega
    simp [this]
  · have hbit := testBit_groupPart x (i / 32) (i % 32)
    rw [h _ (by omega) hg, Nat.zero_testBit, Nat.div_add_mod] at hbit
    have hx : x.getLsbD i = false := by simpa [Nat.mod_lt] using hbit.symm
    simp [hx]

theorem groupPart_of_groupLanes_and {x : LaneSet} {g g' : Nat} (h : groupLanes g &&& x = x) (hg' : g' < 32) (hne : g' ≠ g) :
    groupPart x g' = 0 := by
  refine Nat.eq_of_testBit_eq fun i => ?_
  rw [testBit_groupPart, Nat.zero_testBit, ← h, BitVec.getLsbD_and]
  by_cases hi : i < 32
  · rw [getLsbD_groupLanes (by omega)]
    have : ¬ (32 * g ≤ 32 * g' + i ∧ 32 * g' + i < 32 * g + 32) := by omega
    simp only [Bool.and_eq_false_iff, decide_eq_false_iff_not]
    tauto
  · simp [hi]

theorem ofNat_groupPart (x : LaneSet) {g : Nat} : BitVec.ofNat 1024 (groupPart x g * 2 ^ (32 * g)) = groupLanes g &&& x := by
  refine BitVec.eq_of_getLsbD_eq fun i hi => ?_
  rw [BitVec.getLsbD_and, getLsbD_groupLanes hi, BitVec.getLsbD_ofNat, ← Nat.shiftLeft_eq, Nat.testBit_shiftLeft, testBit_groupPart]
  by_cases h : 32 * g ≤ i
  · simp [h, hi, Nat.sub_lt_iff_lt_add h, Nat.add_comm]
  · simp [h]

theorem mem_groupsOf {x : LaneSet} {g : Nat} : g ∈ groupsOf x ↔ g < 32 ∧ groupPart x g ≠ 0 := by
  simp [groupsOf]

theorem groupPart_eq_zero {x : LaneSet} {g : Nat} (hg : g < 32) (h : g ∉ groupsOf x) : groupPart x g = 0 := by
  by_contra hne
  exact h (mem_groupsOf.2 ⟨hg, hne⟩)

theorem eq_zero_of_groupsOf {x : LaneSet} (h : groupsOf x = []) : x = 0 :=
  eq_zero_of_groupPart fun _ hg => groupPart_eq_zero hg (by simp [h])

theorem groupLanes_and_of_groupsOf {x : LaneSet} {g : Nat} (h : groupsOf x = [g]) : groupLanes g &&& x = x :=
  groupLanes_and_of_groupPart fun _ hg' hne => groupPart_eq_zero hg' (by simp [h, hne])

theorem not_groupLanes_and_of_groupsOf {x : LaneSet} {a b : Nat} {l : List Nat} (h : groupsOf x = a :: b :: l) (g : Nat) :
    groupLanes g &&& x ≠ x := by
  intro hx
  have hab : a ≠ b := by
    have : (groupsOf x).Nodup := List.nodup_range.filter _
    rw [h] at this
    simp only [List.nodup_cons, List.mem_cons, not_or] at this
    exact this.1.1
  have hall : ∀ g' ∈ groupsOf x, g' = g := fun g' hg' => by
    obtain ⟨hlt, hpart⟩ := mem_groupsOf.1 hg'
    by_contra hne
    exact hpart (groupPart_of_groupLanes_and hx hlt hne)
  exact hab ((hall a (by simp [h])).trans (hall b (by simp [h])).symm)

theorem several_eq_false_iff {x : LaneSet} : several x = false ↔ groupsOf x = [] ∨ ∃ g, groupsOf x = [g] := by
  rw [several, decide_eq_false_iff_not]
  match groupsOf x with
  | [] | [_] | _ :: _ :: _ => simp

/-! ### The members of a set are as many as its population -/

theorem countBits_eq_length (x n : Nat) : countBits x n = ((List.range n).filter fun l => x / 2 ^ l % 2 == 1).length := by
  induction n with
  | zero => rfl
  | succ n ih =>
    rw [countBits, ih, List.range_succ, List.filter_append, List.length_append, Nat.add_comm]
    rcases Nat.mod_two_eq_zero_or_one (x / 2 ^ n) with h | h <;> simp [h]

theorem length_laneList (x : LaneSet) : (laneList x).length = population x := by
  rw [laneList, population, List.length_flatMap]
  refine congrArg List.sum (List.map_congr_left fun g _ => ?_)
  change List.length (if (groupPart x g == 0) = true then [] else
    ((List.range 32).filter fun l => groupPart x g / 2 ^ l % 2 == 1).map fun l => 32 * g + l) = _
  rw [apply_ite List.length, List.length_map, ← countBits_eq_length]
  rfl

/-! ### The canonical form (R97) -/

theorem freeHandle_lt (h : Cells LaneSet) : freeHandle h < 4096 := by
  unfold freeHandle
  cases hf : (List.range 4096).find? fun i => !cellHas h i with
  | none => simp
  | some i => simpa using List.mem_range.1 (List.mem_of_find?_eq_some hf)

theorem canonical_none {t : Team} {host : Nat} {x : LaneSet} (h : groupsOf x = []) : t.canonical host x = (t, localDesc host 0) := by
  simp only [Team.canonical, h]
theorem canonical_one {t : Team} {host g : Nat} {x : LaneSet} (h : groupsOf x = [g]) :
    t.canonical host x = (t, localDesc g (groupPart x g)) := by
  simp only [Team.canonical, h]
theorem canonical_many {t : Team} {host a b : Nat} {x : LaneSet} {l : List Nat} (h : groupsOf x = a :: b :: l) : t.canonical host x =
    ({ t with handles := cellPut t.handles (freeHandle t.handles) x }, teamDesc (population x) (freeHandle t.handles)) := by
  simp only [Team.canonical, h]

theorem resolve_putHandle (t : Team) (h p : Nat) (x : LaneSet) (hp : p ≤ 1024) (hh : h < 4096) :
    Team.resolve { t with handles := cellPut t.handles h x } (teamDesc p h) = x &&& t.liveSet := by
  obtain ⟨hform, hbits⟩ := teamDesc_form p h hp hh
  rw [Team.resolve_team _ _ hform, hbits, cellGet_put_same]
  rfl

theorem resolve_localDesc {t : Team} {x : LaneSet} {g : Nat} (hg : g < 32) (h : groupLanes g &&& x = x) :
    t.resolve (localDesc g (groupPart x g)) = x &&& t.liveSet := by
  obtain ⟨hform, hmask, hgroup⟩ := localDesc_form g (groupPart x g) hg (groupPart_lt x g)
  rw [Team.resolve_local _ _ hform, hmask, hgroup, ofNat_groupPart, h]

theorem resolve_canonical {t : Team} {host : Nat} {x : LaneSet} (h0 : x ≠ 0) :
    (t.canonical host x).1.resolve (t.canonical host x).2 = x &&& t.liveSet := by
  match hg : groupsOf x with
  | [] => exact absurd (eq_zero_of_groupsOf hg) h0
  | [g] =>
    rw [canonical_one hg]
    exact resolve_localDesc (mem_groupsOf.1 (hg ▸ List.mem_singleton_self g)).1 (groupLanes_and_of_groupsOf hg)
  | _ :: _ :: _ =>
    rw [canonical_many hg]
    exact resolve_putHandle _ _ _ _ (population_le x) (freeHandle_lt _)

/-- The canonical form of live lanes is one (R97). -/
theorem canonicalFor_canonical {t : Team} {host : Nat} {x : LaneSet} (hx : x &&& t.liveSet = x) (h0 : x ≠ 0) :
    (t.canonical host x).1.canonicalFor host (t.canonical host x).2 x := by
  refine ⟨(resolve_canonical h0).trans hx, fun h => absurd h h0, fun g hlt _ hone => ?_, fun hmany => ?_⟩
  · match hg : groupsOf x with
    | [] => exact absurd (eq_zero_of_groupsOf hg) h0
    | [g'] =>
      obtain ⟨hlt', hpart⟩ := mem_groupsOf.1 (hg ▸ List.mem_singleton_self g')
      have : g' = g := by
        by_contra hne
        exact hpart (groupPart_of_groupLanes_and hone hlt' hne)
      rw [canonical_one hg, this]
    | _ :: _ :: _ => exact absurd hone (not_groupLanes_and_of_groupsOf hg g)
  · match hg : groupsOf x with
    | [] => exact absurd (eq_zero_of_groupsOf hg) h0
    | [g] => exact absurd (groupLanes_and_of_groupsOf hg) (hmany g (mem_groupsOf.1 (hg ▸ List.mem_singleton_self g)).1)
    | _ :: _ :: _ =>
      rw [canonical_many hg, length_laneList]
      exact ⟨_, freeHandle_lt _, rfl⟩

/-- A canonical form is one in every team in which its descriptor names the same set. -/
theorem canonicalFor_congr {t u : Team} {host : Nat} {d : DWord} {x : LaneSet} (h : u.resolve d = t.resolve d) (ht : t.canonicalFor host d x) :
    u.canonicalFor host d x := ⟨h.trans ht.1, ht.2⟩

/-- The canonical form takes one handle at most: a descriptor apart from it names what it named. -/
theorem resolve_canonical_apart {t : Team} {host : Nat} {x : LaneSet} {d : DWord} (h : handlesApart d (t.canonical host x).2) :
    (t.canonical host x).1.resolve d = t.resolve d := by
  match hg : groupsOf x with
  | [] => rw [canonical_none hg]
  | [g] => rw [canonical_one hg]
  | _ :: _ :: _ =>
    rw [canonical_many hg] at h ⊢
    obtain ⟨hform, hbits⟩ := teamDesc_form (population x) (freeHandle t.handles) (population_le x) (freeHandle_lt _)
    cases hd : isTeamForm d with
    | false => rw [Team.resolve_local _ _ hd, Team.resolve_local _ _ hd]; rfl
    | true =>
      rw [Team.resolve_team _ _ hd, Team.resolve_team _ _ hd, cellGet_put_other _ _ _ (hbits ▸ h hd hform)]
      rfl

theorem agents_canonical (t : Team) (host : Nat) (x : LaneSet) : (t.canonical host x).1.agents = t.agents := by
  unfold Team.canonical
  split <;> rfl
theorem agent_canonical (t : Team) (host : Nat) (x : LaneSet) (a : Nat) : (t.canonical host x).1.agent a = t.agent a := by
  unfold Team.agent; rw [agents_canonical]

end Sys2Proof.CanonicalSets
end

