-- ==== Sys2Proof/Proofs/Blocks.lean ====
section
/-! SUPPORT. Code words fetched alike, the step into a block, and the frames of what retires and enters one (02 R31, 17 R285). -/

namespace Sys2Proof.Regions
open Sys2Proof Sys2Proof.Machine Sys2Proof.CanonicalSets Sys2Proof.Turns

/-! ### Code words are fetched alike in states that agree on the memory and tables they come from (R285, R317) -/

/-- Two states agree on what a fetch of code words reads. -/
structure SameCode (s u : State) : Prop where
  main : u.main = s.main
  tier : u.tier = s.tier
  keys : u.keys = s.keys
  lineKeys : u.lineKeys = s.lineKeys
  tlb : ∀ v, (u.vi v).tlb = (s.vi v).tlb
  root : ∀ v, (u.vi v).root = (s.vi v).root
  objects : u.objects = s.objects
  object : ∀ l, (u.launch l).object = (s.launch l).object

theorem walk_congr {s u : State} (h : u.main = s.main) (va : Nat) (l : List (Nat × Nat × Nat)) (table : Nat) :
    u.walk va l table = s.walk va l table := by
  induction l generalizing table with
  | nil => rfl
  | cons p l ih => simp only [State.walk, h, ih]

theorem SameCode.leafOf {s u : State} (h : SameCode s u) (vi va : Nat) : u.leafOf vi va = s.leafOf vi va := by
  simp only [State.leafOf, walk_congr h.main, h.tlb, h.root]

theorem SameCode.populated {s u : State} (h : SameCode s u) : u.populated = s.populated := by
  funext pa
  rw [State.populated, State.populated, h.tier]

theorem SameCode.translateOwn {s u : State} (h : SameCode s u) (vi va : Nat) (write : Bool) :
    u.translateOwn vi va write = s.translateOwn vi va write := by
  rw [State.translateOwn, State.translateOwn, State.translate, State.translate, h.leafOf, h.populated]

theorem SameCode.readKeyed {s u : State} (h : SameCode s u) (slot pa : Nat) : u.readKeyed slot pa = s.readKeyed slot pa := by
  rw [State.readKeyed, State.readKeyed, State.keyed, State.keyed, State.keyOf, State.keyOf, h.main, h.keys, h.lineKeys]

theorem SameCode.objectOf {s u : State} (h : SameCode s u) {t t' : Team} (hl : t'.launch = t.launch) : u.objectOf t' = s.objectOf t := by
  simp only [State.objectOf, State.object, h.objects, h.object, hl]

theorem SameCode.codeWord {s u : State} (h : SameCode s u) {t t' : Team} (hl : t'.launch = t.launch) (pc : Nat) :
    u.codeWord t' pc = s.codeWord t pc := by
  simp only [State.codeWord, State.objectWord, h.objectOf hl, h.translateOwn, h.readKeyed]

theorem SameCode.headerAt {s u : State} (h : SameCode s u) {t t' : Team} (hl : t'.launch = t.launch) (pc : Nat) :
    u.headerAt t' pc = s.headerAt t pc := by
  simp only [State.headerAt, h.objectOf hl, h.codeWord hl]

/-! ### Entering a block (R31) -/

theorem countBlock_frame (s : State) (t : Team) (h : DWord) : { s.countBlock t h with vis := s.vis } = s := by
  unfold State.countBlock; dsimp only; split <;> rfl
theorem countBlock_vi (s : State) (t : Team) (h : DWord) (v : Nat) :
    { (s.countBlock t h).vi v with counters := [] } = { s.vi v with counters := [] } := by
  unfold State.countBlock
  dsimp only
  split
  · rw [State.vi_modVi]
    split
    · next hv => rw [hv]
    · rfl
  · rfl

theorem cellHas_modAgent (t : Team) (a : Nat) (f : Agent → Agent) (h : cellHas t.agents a = true) : cellHas (t.modAgent a f).agents a = true := by
  rw [Team.modAgent, if_pos h]; exact cellHas_put _ _ _

/-- From u to t the issuing agent has moved to another word, and counters of interfaces may have counted. -/
structure Moved (u t : State) : Prop where
  frame : { t with teams := u.teams, vis := u.vis } = u
  others : ∀ id, id ≠ u.cur.team → t.team id = u.team id
  team : ∃ p n, t.curTeam = u.curTeam.modAgent u.cur.agent fun x => { x with pc := p, rest := n }
  counters : ∀ v, { t.vi v with counters := [] } = { u.vi v with counters := [] }

theorem Moved.cur {u t : State} (h : Moved u t) : t.cur = u.cur := by have := congrArg State.cur h.frame; exact this

theorem moved_modAgent {u w : State} (hframe : { w with vis := u.vis } = u) (hvi : ∀ v, { w.vi v with counters := [] } = { u.vi v with counters := [] })
    (p n : Nat) : Moved u (w.modAgent u.cur fun x => { x with pc := p, rest := n }) := by
  have hteams : w.teams = u.teams := by have := congrArg State.teams hframe; exact this
  have hcur : w.cur = u.cur := by have := congrArg State.cur hframe; exact this
  have hteam (id : Nat) : w.team id = u.team id := by simp only [State.team, hteams]
  refine ⟨?_, fun id hid => ?_, ⟨p, n, ?_⟩, fun v => hvi v⟩
  · exact congrArg (fun z : State => { z with teams := u.teams }) hframe
  · exact (State.team_modTeam w _ id _).trans (by rw [if_neg hid, hteam])
  · show (State.modTeam w u.cur.team _).team w.cur.team = _
    rw [hcur, State.team_modTeam_same, hteam]
    rfl

theorem moved_enterBlock (u : State) (pc : Nat) : Moved u (u.enterBlock u.cur pc) := by
  unfold State.enterBlock
  dsimp only
  split
  case isTrue h =>
    have habsent : cellHas u.curTeam.agents u.cur.agent = false := by
      rwa [Bool.not_eq_true'] at h
    exact ⟨rfl, fun _ _ => rfl, ⟨0, 0, by rw [Team.modAgent, if_neg (by simp [habsent])]⟩, fun _ => rfl⟩
  case isFalse =>
    split
    · split
      · exact moved_modAgent rfl (fun _ => rfl) _ _
      · exact moved_modAgent (countBlock_frame _ _ _) (countBlock_vi _ _ _) _ _
    · exact moved_modAgent rfl (fun _ => rfl) _ _

/-- A header that cannot be consumed is left to the issue of the next word. -/
theorem enterBlock_before {u : State} {a : AgentRef} {pc : Nat} (ha : cellHas (u.team a.team).agents a.agent = true)
    (h : ∀ h, u.headerAt (u.team a.team) pc = some h → hdrLength h = 0) :
    u.enterBlock a pc = u.modAgent a fun x => { x with pc := pc, rest := 0 } := by
  cases hh : u.headerAt (u.team a.team) pc with
  | none => simp [State.enterBlock, ha, hh]
  | some v => simp [State.enterBlock, ha, hh, h v hh]

theorem curAgent_enterBlock_before {u : State} {pc : Nat} (ha : cellHas u.curTeam.agents u.cur.agent = true)
    (h : ∀ h, u.headerAt u.curTeam pc = some h → hdrLength h = 0) :
    let t := u.enterBlock u.cur pc
    t.curAgent.pc = pc ∧ t.curAgent.rest = 0 ∧ t.vis = u.vis := by
  intro t
  have ht : t = u.modAgent u.cur fun x => { x with pc := pc, rest := 0 } := enterBlock_before ha h
  rw [ht, curAgent_modAgent rfl ha]
  exact ⟨rfl, rfl, rfl⟩

theorem enters_enterBlock {u : State} (pc : Nat) (ha : cellHas u.curTeam.agents u.cur.agent = true) : enters u (u.enterBlock u.cur pc) pc := by
  unfold enters
  cases hh : u.headerAt u.curTeam pc with
  | none => exact curAgent_enterBlock_before ha fun v hv => by simp [hh] at hv
  | some h =>
    by_cases hlen : hdrLength h = 0
    · simp only [hlen, if_true]
      exact curAgent_enterBlock_before ha fun v hv => by rw [hh] at hv; cases hv; exact hlen
    · simp only [hlen, if_false]
      have ha' : cellHas ((u.countBlock (u.team u.cur.team) h).team u.cur.team).agents u.cur.agent = true := by rw [countBlock_team]; exact ha
      rw [enterBlock_header ha hh hlen, curAgent_modAgent (countBlock_cur _ _ _) ha']
      exact ⟨rfl, rfl, countBlock_counters u u.curTeam h⟩

/-- Where an agent enters a block depends on the fetch of the header and on the interfaces alone. -/
theorem enters_congr {s u t : State} (hcode : SameCode s u) (hlaunch : u.curTeam.launch = s.curTeam.launch) (hvis : u.vis = s.vis)
    (hvi : ∀ l, (u.launch l).vi = (s.launch l).vi) {pc : Nat} (h : enters u t pc) : enters s t pc := by
  have hviOf : u.viOf u.curTeam = s.viOf s.curTeam := by rw [State.viOf, State.viOf, hvi, hlaunch]
  have hv : u.vi = s.vi := by funext v; rw [State.vi, State.vi, hvis]
  unfold enters at h ⊢
  rwa [hcode.headerAt hlaunch, hviOf, hv, hvis] at h

/-! ### Frames: from a state to one that has changed registers, agents and handles alone, and on into a block -/

/-- From s to u only registers, agents and handles change, and no vector, scalar or saturation register. -/
structure Settles (s u : State) : Prop where
  only : onlyRegisters s u
  values : sameValues s u

theorem Settles.trans {s u w : State} (h : Settles s u) (k : Settles u w) : Settles s w := by
  obtain ⟨hv, hs, hsat⟩ := h.values
  obtain ⟨kv, ks, ksat⟩ := k.values
  exact ⟨onlyRegisters_trans h.only k.only, fun gl r => (kv gl r).trans (hv gl r), fun g n => (ks g n).trans (hs g n), fun g => (ksat g).trans (hsat g)⟩

theorem Settles.cur {s u : State} (h : Settles s u) : u.cur = s.cur := onlyTeam_cur h.only.1

/-- A state outside its teams and cores is the other. -/
theorem eq_of_onlyTeam {s u : State} (h : onlyTeam s u) : u = { s with teams := u.teams, cores := u.cores } := by
  conv_rhs => rw [← h.1]

theorem Settles.sameCode {s u : State} (h : Settles s u) : SameCode s u := by
  rw [eq_of_onlyTeam h.only.1]
  exact ⟨rfl, rfl, rfl, rfl, fun _ => rfl, fun _ => rfl, rfl, fun _ => rfl⟩

theorem Settles.launch {s u : State} (h : Settles s u) : u.curTeam.launch = s.curTeam.launch := by
  have := congrArg Team.launch h.only.2.1; exact this

theorem Settles.enters {s u t : State} (h : Settles s u) {pc : Nat} (he : enters u t pc) : enters s t pc := by
  refine enters_congr h.sameCode h.launch ?_ ?_ he <;> rw [eq_of_onlyTeam h.only.1]
  exact fun _ => rfl

theorem settles_calm {s t : State} (h : s.calm t) : Settles s t :=
  ⟨calm_registers h, calm_vreg h, fun g n => by obtain ⟨-, hs, -⟩ := calm_group h g; rw [hs],
    fun g => by obtain ⟨-, -, -, hsat, -⟩ := calm_group h g; exact hsat⟩

theorem settles_retire (s : State) (r : Ret) : Settles s (s.retire r) := settles_calm (retire_calm s r)

theorem settles_near (s : State) {f : Team → Team} (h : s.curTeam.near (f s.curTeam)) : Settles s (s.modCurTeam f) :=
  settles_calm (State.calm_modCurTeam s f (Team.calm_near h))

theorem settles_clearK (s : State) (k : Nat) : Settles s (s.clearK k) := by
  obtain ⟨hquiet, hv, hs⟩ := quiet_clearK s k
  exact ⟨hquiet.only, hv, fun g n => by rw [hs], hquiet.sat⟩

/-- The step into a block after a settled change: registers, agents, handles and counters alone have changed. -/
theorem Settles.moved {s u t : State} (h : Settles s u) (hm : Moved u t) : registersAndCounters s t ∧ sameValues s t := by
  obtain ⟨⟨⟨hframe, hothers⟩, hteam, hgroups⟩, hv, hs, hsat⟩ := h
  obtain ⟨p, n, htc⟩ := hm.team
  have hcur : u.cur = s.cur := by have := congrArg State.cur hframe; exact this
  have hvis : u.vis = s.vis := by have := congrArg State.vis hframe; exact this
  have hgroup (g : Nat) : t.curTeam.group g = u.curTeam.group g := by rw [htc]; exact Team.near_group (Team.near_modAgent _ _ _) g
  have hcur' : ({ t with vis := s.vis } : State).curTeam = t.curTeam := rfl
  refine ⟨⟨⟨⟨?_, fun id hid => (hm.others id (by rwa [hcur])).trans (hothers id hid)⟩, ?_, fun g => ?_⟩, fun v => ?_⟩, fun gl r => ?_, fun g n => ?_,
    fun g => ?_⟩
  · rw [← hvis]
    exact (congrArg (fun z : State => { z with teams := s.teams, cores := s.cores }) hm.frame).trans hframe
  · rw [hcur', htc]
    exact hteam
  · rw [hcur', hgroup]; exact hgroups g
  · rw [hm.counters, State.vi, State.vi, hvis]
  · rw [← hv, State.vreg, State.vreg, Team.vreg, Team.vreg, hgroup]
  · rw [hgroup, hs]
  · rw [hgroup, hsat]

end Sys2Proof.Regions
end

