-- ==== Sys2Proof/Proofs/Regions.lean ====
section
/-! SUPPORT. The local regions: the clearing of sets before they are read, the entries pushed, and the checks of apply and apply2 (06 R105 to R107, R114, R116). -/

namespace Sys2Proof.Regions
open Sys2Proof Sys2Proof.Machine Sys2Proof.CanonicalSets Sys2Proof.Turns

/-! ### The clearing of set registers before they are read (R51) -/

theorem resolve_modAgent (t : Team) (a : Nat) (f : Agent → Agent) (d : DWord) : (t.modAgent a f).resolve d = t.resolve d := rfl
theorem liveSet_modAgent (t : Team) (a : Nat) (f : Agent → Agent) : (t.modAgent a f).liveSet = t.liveSet := rfl
theorem liveSet_near {t u : Team} (h : t.near u) : u.liveSet = t.liveSet := Team.liveSet_groups (Team.near_groups h)

/-- A descriptor with exited members cleared keeps its form and its handle. -/
theorem handlesApart_clearDesc {t : Team} {d e : DWord} (h : handlesApart d e) : handlesApart (t.clearDesc d).2 e := by
  cases hd : isTeamForm d with
  | true =>
    obtain ⟨-, hbits⟩ := teamDesc_form (population (t.resolve d)) (bitsOf d 0 12) (population_le _) (bitsOf_lt _ _ _)
    rw [Team.clearDesc_team _ _ hd]
    intro _ he
    rw [hbits]
    exact h hd he
  | false =>
    obtain ⟨hform, -⟩ := localDesc_form (bitsOf d 32 5) (groupPart (t.resolve d) (bitsOf d 32 5)) (bitsOf_lt _ _ _) (groupPart_lt _ _)
    rw [Team.clearDesc_local _ _ hd]
    exact fun h' => absurd h' (by simp [hform])

/-- From s to r exited members have been cleared from set registers or the image of the entry set, and nothing else has changed. -/
structure Cleared (s r : State) : Prop where
  quiet : Quiet s r
  settles : Settles s r
  resolve : ∀ d, r.curTeam.resolve d = s.curTeam.resolve d
  liveSet : r.curTeam.liveSet = s.curTeam.liveSet
  apart : ∀ g n e, handlesApart (s.kreg g n) e → handlesApart (r.kreg g n) e

theorem Cleared.trans {s r u : State} (h : Cleared s r) (k : Cleared r u) : Cleared s u :=
  ⟨h.quiet.trans k.quiet, h.settles.trans k.settles, fun d => (k.resolve d).trans (h.resolve d), k.liveSet.trans h.liveSet,
    fun g n e he => k.apart g n e (h.apart g n e he)⟩

theorem cleared_clearK (s : State) (k : Nat) : Cleared s (s.clearK k) := by
  obtain ⟨hquiet, hv, hs⟩ := quiet_clearK s k
  have hsettles : Settles s (s.clearK k) := ⟨hquiet.only, hv, fun g n => by rw [hs], hquiet.sat⟩
  rcases State.clearK_cases s k with h | h | h
  · rw [h] at hquiet hsettles ⊢
    exact ⟨hquiet, hsettles, fun _ => rfl, rfl, fun _ _ _ he => he⟩
  · rw [h] at hquiet hsettles ⊢
    have hteam : (s.modTeam s.cur.team fun t => t.clearEntry s.cur.agent).curTeam = s.curTeam.clearEntry s.cur.agent := State.curTeam_modCurTeam s _
    refine ⟨hquiet, hsettles, fun d => ?_, ?_, fun g n e he => ?_⟩
    · rw [hteam]; exact Team.resolve_clearEntry _ _ _
    · rw [hteam]; exact liveSet_near (Team.clearEntry_near _ _)
    · rwa [State.kreg, hteam, Team.near_group (Team.clearEntry_near _ _)]
  · rw [h] at hquiet hsettles ⊢
    let d := cellGet 0 s.curGroup.k k
    let c := s.curTeam.clearDesc d
    let put (g : Group) : Group := { g with k := cellSet 0 g.k k c.2 }
    have hteam : _ = c.1.modGroup s.curAgent.host put :=
      State.curTeam_modCurTeam s fun t => (t.clearDesc d).1.modGroup s.curAgent.host fun g => { g with k := cellSet 0 g.k k (t.clearDesc d).2 }
    change State.curTeam (State.modTeam _ _ _) = _ at hteam
    have hlive : (c.1.modGroup s.curAgent.host put).liveSet = s.curTeam.liveSet :=
      (Team.liveSet_modGroup _ _ _ rfl).trans (liveSet_near (Team.clearDesc_near _ _))
    refine ⟨hquiet, hsettles, fun d' => ?_, hteam ▸ hlive, fun g n e he => ?_⟩
    · rw [hteam, ← Team.resolve_clearDesc s.curTeam d d']
      exact Team.resolve_congr (t := c.1) (u := c.1.modGroup s.curAgent.host put) rfl (Team.liveSet_modGroup _ _ _ rfl) d'
    · rw [State.kreg, hteam, Team.group_modGroup, Team.near_group (Team.clearDesc_near _ _), Team.near_group (Team.clearDesc_near _ _)]
      split
      case isTrue hg =>
        subst hg
        show handlesApart (cellGet 0 (cellSet 0 _ k _) n) e
        rw [cellGet_set]
        split
        case isTrue hn => subst hn; exact handlesApart_clearDesc he
        case isFalse => exact he
      case isFalse => exact he

theorem Cleared.cur {s r : State} (h : Cleared s r) : r.cur = s.cur := h.quiet.cur
theorem Cleared.curAgent {s r : State} (h : Cleared s r) : r.curAgent = s.curAgent := h.quiet.curAgent
theorem Cleared.reissues {s r : State} (h : Cleared s r) : r.reissues = s.reissues := by
  rw [State.reissues, State.reissues, h.curAgent]

theorem Cleared.k0Set {s r : State} (h : Cleared s r) (a : Nat) : r.curTeam.k0Set a = s.curTeam.k0Set a := by
  have hagent : r.curTeam.agent a = s.curTeam.agent a := by rw [Team.agent, Team.agent, h.quiet.agents]
  rw [Team.k0Set, Team.k0Set, h.resolve, Team.away, Team.away, h.quiet.agents, hagent]

/-- A register that is read names the set it named before. -/
theorem Cleared.kset {s r : State} (h : Cleared s r) (k : Nat) : r.kset k = s.kset k := by
  unfold State.kset
  split
  · rw [h.cur, h.k0Set]
  · rw [State.curGroup, State.curGroup, h.curAgent]; exact h.quiet.sets _ _

theorem Cleared.members {s r : State} (h : Cleared s r) (k : Nat) : r.members k = s.members k := by
  rw [State.members, State.members, h.kset, h.curAgent, h.liveSet]

theorem resolve_and_liveSet (t : Team) (d : DWord) : t.resolve d &&& t.liveSet = t.resolve d := by
  rw [Team.resolve, BitVec.and_assoc, BitVec.and_self]

theorem kset_and_liveSet (s : State) (k : Nat) : s.kset k &&& s.curTeam.liveSet = s.kset k := by
  unfold State.kset
  split
  · rw [Team.k0Set, BitVec.and_assoc, BitVec.and_comm (~~~_), ← BitVec.and_assoc, resolve_and_liveSet]
  · exact resolve_and_liveSet _ _

theorem members_and_liveSet (s : State) (k : Nat) : s.members k &&& s.curTeam.liveSet = s.members k := by
  rw [State.members, BitVec.and_assoc, BitVec.and_self]

/-! ### Retiring, and then entering a block (R31) -/

section Retired
variable {s r : State} (hr : Cleared s r) (hissue : s.canIssue = true)
include hr hissue

theorem Cleared.listed : cellHas r.curTeam.agents r.cur.agent = true := by
  rw [hr.quiet.agents, hr.cur]; exact cellHas_of_canIssue hissue

theorem Cleared.retire_team (hre : s.reissues = false) : ∃ sp det : Bool, (r.retire {}).curTeam =
    (r.curTeam.modGroup s.curAgent.host fun g => g.retireIn r.tick sp det {}).modAgent s.cur.agent fun x => x.retireIn {} := by
  rw [← hr.curAgent, ← hr.cur]
  exact retire_curTeam r {} (hr.listed hissue) (hr.reissues.trans hre)

theorem Cleared.retire_listed (hre : s.reissues = false) : cellHas (r.retire {}).curTeam.agents s.cur.agent = true := by
  obtain ⟨sp, det, hteam⟩ := hr.retire_team hissue hre
  have hlisted := hr.listed hissue
  rw [hr.cur] at hlisted
  rw [hteam]
  exact cellHas_modAgent _ _ _ hlisted

theorem Cleared.retire_agent_same (hre : s.reissues = false) : (r.retire {}).curTeam.agent s.cur.agent = s.curAgent.retireIn {} := by
  obtain ⟨sp, det, hteam⟩ := hr.retire_team hissue hre
  have hlisted := hr.listed hissue
  rw [hr.cur] at hlisted
  rw [hteam, Team.agent_modAgent_same (Team.modGroup _ _ _) _ _ hlisted, agent_modGroup, ← hr.cur, ← hr.curAgent]
  rfl

theorem Cleared.retire_agent_other (hre : s.reissues = false) {n : Nat} (hn : n ≠ s.cur.agent) :
    (r.retire {}).curTeam.agent n = s.curTeam.agent n := by
  obtain ⟨sp, det, hteam⟩ := hr.retire_team hissue hre
  rw [hteam, Team.agent_modAgent, if_neg fun h => hn h.1, agent_modGroup, Team.agent, Team.agent, hr.quiet.agents]

theorem Cleared.retire_liveSet (hre : s.reissues = false) : (r.retire {}).curTeam.liveSet = s.curTeam.liveSet := by
  obtain ⟨sp, det, hteam⟩ := hr.retire_team hissue hre
  rw [hteam, liveSet_modAgent, Team.liveSet_modGroup _ _ _ (by rfl), hr.liveSet]

theorem Cleared.retire_resolve (hre : s.reissues = false) (d : DWord) : (r.retire {}).curTeam.resolve d = s.curTeam.resolve d := by
  rw [← hr.resolve]
  exact Team.resolve_congr (retire_handles r {} (hr.listed hissue) (hr.reissues.trans hre)) ((hr.retire_liveSet hissue hre).trans hr.liveSet.symm) d

theorem Cleared.retire_sameSets (hre : s.reissues = false) : sameSets s (r.retire {}) := fun g n =>
  (retire_sets r {} (hr.listed hissue) (hr.reissues.trans hre) g n).trans (hr.quiet.sets g n)

theorem Cleared.retire_sameAgents (hre : s.reissues = false) : sameAgents s (r.retire {}) := fun n =>
  (retire_agents r {} (hr.listed hissue) (hr.reissues.trans hre) n).trans (by rw [Team.agent, Team.agent, hr.quiet.agents])

end Retired

theorem Settles.registersAndCounters {s u : State} (h : Settles s u) : registersAndCounters s u := by
  have hvis : u.vis = s.vis := by have := congrArg State.vis h.only.1.1; exact this
  refine ⟨?_, fun v => by rw [State.vi, State.vi, hvis]⟩
  rw [← hvis]
  exact h.only

theorem Moved.sameSets {u t : State} (h : Moved u t) : sameSets u t := by
  obtain ⟨p, n, hteam⟩ := h.team
  intro g k
  rw [hteam, resolve_modAgent, Team.near_group (Team.near_modAgent _ _ _)]

theorem Moved.sameAgents {u t : State} (h : Moved u t) : sameAgents u t := by
  obtain ⟨p, n, hteam⟩ := h.team
  intro a
  rw [hteam, Team.agent_modAgent]
  split
  · next ha => rw [ha.1]; rfl
  · rfl

/-- An instruction that retires and enters a block transfers there. -/
theorem transfers_jump {i : Instr} {s r : State} {c : Nat} (hr : Cleared s r) (hissue : s.canIssue = true) (he : exec i s = .next (r.jump c)) :
    transfers i s (some c) := by
  have hsettles : Settles s (r.retire {}) := hr.settles.trans (settles_retire r {})
  have hjump : r.jump c = (r.retire {}).enterBlock (r.retire {}).cur c := by rw [hsettles.cur, ← hr.cur]; rfl
  have hmoved : Moved (r.retire {}) (r.jump c) := hjump ▸ moved_enterBlock _ c
  obtain ⟨hframe, hvalues⟩ := hsettles.moved hmoved
  refine ⟨_, he, hframe, hvalues, fun hre => ⟨fun g n => ?_, fun n => ?_, ?_⟩⟩
  · exact (hmoved.sameSets g n).trans (hr.retire_sameSets hissue hre g n)
  · exact (hmoved.sameAgents n).trans (hr.retire_sameAgents hissue hre n)
  · have hlisted := hr.retire_listed hissue hre
    rw [← hsettles.cur] at hlisted
    exact hsettles.enters (hjump ▸ enters_enterBlock c hlisted)

/-! ### A region opens (R106, R116) -/

/-- From team t to u an agent's new entries have been pushed, and its entry set is the canonical form of e. -/
structure Opens (t u : Team) (a : Nat) (entries : List Switch) (e : LaneSet) : Prop where
  listed : cellHas u.agents a = true
  others : ∀ n, n ≠ a → u.agent n = t.agent n
  agent : ∃ d, u.agent a = { t.agent a with stack := entries ++ (t.agent a).stack, k0 := d }
  canonical : u.canonicalFor (t.agent a).host (u.agent a).k0 e
  apart : ∀ d, handlesApart d (u.agent a).k0 → (∀ x ∈ entries, x.kind = 3 → handlesApart d x.set) → u.resolve d = t.resolve d

/-- The retired state with entries pushed, in the block of the region; an agent that ended with the retiring does nothing more. -/
def openWith (s : State) (push : Team → Team) (pc : Nat) : State :=
  s.retireThen {} fun s => (s.modCurTeam push).enterBlock s.cur pc

theorem openWith_frame {s r : State} (hr : Cleared s r) {push : Team → Team} (hnear : ∀ t : Team, t.near (push t)) (pc : Nat) :
    registersAndCounters s (openWith r push pc) ∧ sameValues s (openWith r push pc) := by
  have hsettles : Settles s (r.retire {}) := hr.settles.trans (settles_retire r {})
  unfold openWith State.retireThen
  dsimp only
  split
  · exact (hsettles.trans (settles_near _ (hnear _))).moved (moved_enterBlock ((r.retire {}).modCurTeam push) pc)
  · exact ⟨hsettles.registersAndCounters, hsettles.values⟩

section OpenWith
variable {s r : State} (hr : Cleared s r) (hissue : s.canIssue = true) (hre : s.reissues = false) {push : Team → Team}
  (hnear : ∀ t : Team, t.near (push t)) (pc : Nat)
include hr hissue hre hnear

/-- What `openWith` makes of the issuing team: entries pushed, and the agent moved to the block; and where the agent stands. -/
theorem openWith_team (hlisted : cellHas (push (r.retire {}).curTeam).agents s.cur.agent = true) :
    (openWith r push pc).cur = s.cur ∧ enters s (openWith r push pc) pc ∧
    ∃ p n, (openWith r push pc).curTeam = (push (r.retire {}).curTeam).modAgent s.cur.agent fun x => { x with pc := p, rest := n } := by
  have hsettles : Settles s (r.retire {}) := hr.settles.trans (settles_retire r {})
  have hretired := hr.retire_listed hissue hre
  rw [← hsettles.cur] at hretired
  have hopened : openWith r push pc = ((r.retire {}).modCurTeam push).enterBlock ((r.retire {}).modCurTeam push).cur pc := by
    unfold openWith State.retireThen
    exact if_pos hretired
  have hsettles' : Settles s ((r.retire {}).modCurTeam push) := hsettles.trans (settles_near _ (hnear _))
  have hteam : ((r.retire {}).modCurTeam push).curTeam = push (r.retire {}).curTeam := State.curTeam_modCurTeam _ _
  have hmoved := moved_enterBlock ((r.retire {}).modCurTeam push) pc
  have henters := hsettles'.enters (enters_enterBlock pc (by rwa [hsettles'.cur, hteam]))
  rw [← hopened] at hmoved henters
  obtain ⟨p, n, hmoved'⟩ := hmoved.team
  rw [hteam, hsettles'.cur] at hmoved'
  exact ⟨hmoved.cur.trans hsettles'.cur, henters, p, n, hmoved'⟩

theorem openWith_k0 (hlisted : cellHas (push (r.retire {}).curTeam).agents s.cur.agent = true) :
    (openWith r push pc).curAgent.k0 = ((push (r.retire {}).curTeam).agent s.cur.agent).k0 := by
  obtain ⟨hcur, -, p, n, hteam⟩ := openWith_team hr hissue hre hnear pc hlisted
  rw [State.curAgent, hcur, hteam, Team.agent_modAgent_same _ _ _ hlisted]

theorem openWith_opensRegion {entries : List Switch} {e : LaneSet}
    (hopen : Opens (r.retire {}).curTeam (push (r.retire {}).curTeam) s.cur.agent entries e) :
    opensRegion s (openWith r push pc) entries e pc := by
  have hk0 := openWith_k0 hr hissue hre hnear pc hopen.listed
  obtain ⟨hcur, henters, p, n, hteam⟩ := openWith_team hr hissue hre hnear pc hopen.listed
  generalize openWith r push pc = t at *
  obtain ⟨d, hagent⟩ := hopen.agent
  have hretired := hr.retire_agent_same hissue hre
  have hnow : t.curAgent = { s.curAgent.retireIn {} with stack := entries ++ s.curAgent.stack, k0 := d, pc := p, rest := n } := by
    rw [State.curAgent, hcur, hteam, Team.agent_modAgent_same _ _ _ hopen.listed, hagent, hretired]
    rfl
  refine ⟨by rw [hnow]; rfl, fun m hm => ?_, by rw [hnow], ?_, henters, fun g m hap hhalf => ?_⟩
  · rw [hteam, Team.agent_modAgent, if_neg fun h => hm h.1, hopen.others m hm, hr.retire_agent_other hissue hre hm]
  · have hcanon := hopen.canonical
    rw [hretired, ← hk0] at hcanon
    exact canonicalFor_congr (by rw [hteam, resolve_modAgent]) hcanon
  · have hkreg : t.kreg g m = r.kreg g m := by
      rw [State.kreg, State.kreg, hteam, Team.near_group (Team.near_modAgent _ _ _), Team.near_group (hnear _)]
      obtain ⟨-, -, hk, -, -⟩ := calm_group (retire_calm r {}) g
      rw [hk]
    rw [hkreg, hteam, resolve_modAgent, hopen.apart _ (hk0 ▸ hr.apart _ _ _ hap) fun x hx h3 => hr.apart _ _ _ (hhalf x hx h3),
      hr.retire_resolve hissue hre, ← hr.resolve]
    exact hr.quiet.sets g m

end OpenWith

end Sys2Proof.Regions

namespace Sys2Proof.Regions
open Sys2Proof Sys2Proof.Machine Sys2Proof.CanonicalSets Sys2Proof.Turns

/-! ### What the entries pushed make of a team -/

theorem near_pushLocal (t : Team) (a cont : Nat) (e : LaneSet) : t.near (t.pushLocal a cont e) :=
  Team.near_trans (Team.near_canonical t _ e) (Team.near_modAgent _ _ _)
theorem near_pushHalf (t : Team) (a pc : Nat) (e : LaneSet) : t.near (t.pushHalf a pc e) :=
  Team.near_trans (Team.near_canonical t _ e) (Team.near_modAgent _ _ _)

theorem opens_pushLocal {t : Team} {a : Nat} (cont : Nat) {e : LaneSet} (ha : cellHas t.agents a = true) (he : e &&& t.liveSet = e) (h0 : e ≠ 0) :
    Opens t (t.pushLocal a cont e) a [⟨(t.agent a).k0, cont, 1, 0, 0⟩] e := by
  have hlisted : cellHas (t.canonical (t.agent a).host e).1.agents a = true := by rwa [agents_canonical]
  have hagent : (t.pushLocal a cont e).agent a = { t.agent a with
      stack := ⟨(t.agent a).k0, cont, 1, 0, 0⟩ :: (t.agent a).stack, k0 := (t.canonical (t.agent a).host e).2 } := by
    rw [Team.pushLocal, Team.agent_modAgent_same _ _ _ hlisted, agent_canonical]
  refine ⟨cellHas_modAgent _ _ _ hlisted, fun n hn => ?_, ⟨_, hagent⟩, ?_, fun d hd _ => ?_⟩
  · rw [Team.pushLocal, Team.agent_modAgent, if_neg fun h => hn h.1, agent_canonical]
  · rw [hagent]; exact canonicalFor_canonical he h0
  · rw [hagent] at hd; exact resolve_canonical_apart hd

theorem agent_modAgent_other {t : Team} {a n : Nat} {f : Agent → Agent} (hn : n ≠ a) : (t.modAgent a f).agent n = t.agent n := by
  rw [Team.agent_modAgent, if_neg fun h => hn h.1]

/-- The entry that restores an agent's entry set. -/
def pushReturn (a cont : Nat) (t : Team) : Team := t.modAgent a fun y => { y with stack := ⟨(t.agent a).k0, cont, 1, 0, 0⟩ :: y.stack }
/-- An agent's entry set becomes the canonical form of a set. -/
def setEntry (a : Nat) (e : LaneSet) (t : Team) : Team :=
  let c := t.canonical (t.agent a).host e
  c.1.modAgent a fun y => { y with k0 := c.2 }
/-- Both halves of an apply2: the entry that restores k0, the one of the pending half, and the entry set of the half that runs (R116). -/
def pushHalves (a cont pc : Nat) (run pending : LaneSet) (t : Team) : Team := setEntry a run ((pushReturn a cont t).pushHalf a pc pending)

theorem near_pushReturn (t : Team) (a cont : Nat) : t.near (pushReturn a cont t) := Team.near_modAgent _ _ _
theorem near_setEntry (t : Team) (a : Nat) (e : LaneSet) : t.near (setEntry a e t) :=
  Team.near_trans (Team.near_canonical t _ e) (Team.near_modAgent _ _ _)
theorem near_pushHalves (t : Team) (a cont pc : Nat) (run pending : LaneSet) : t.near (pushHalves a cont pc run pending t) :=
  Team.near_trans (Team.near_trans (near_pushReturn t a cont) (near_pushHalf _ a pc pending)) (near_setEntry _ a run)

section Pushes
variable {t : Team} {a : Nat} (ha : cellHas t.agents a = true)
include ha

theorem listed_canonical (host : Nat) (x : LaneSet) : cellHas (t.canonical host x).1.agents a = true := by rwa [agents_canonical]
theorem listed_pushHalf (pc : Nat) (x : LaneSet) : cellHas (t.pushHalf a pc x).agents a = true := cellHas_modAgent _ _ _ (listed_canonical ha _ x)
theorem agent_pushReturn (cont : Nat) :
    (pushReturn a cont t).agent a = { t.agent a with stack := ⟨(t.agent a).k0, cont, 1, 0, 0⟩ :: (t.agent a).stack } :=
  Team.agent_modAgent_same _ _ _ ha
theorem agent_pushHalf (pc : Nat) (x : LaneSet) : (t.pushHalf a pc x).agent a =
    { t.agent a with stack := ⟨(t.canonical (t.agent a).host x).2, pc, 3, 0, 0⟩ :: (t.agent a).stack } := by
  rw [Team.pushHalf, Team.agent_modAgent_same _ _ _ (listed_canonical ha _ x), agent_canonical]
theorem agent_setEntry (e : LaneSet) : (setEntry a e t).agent a = { t.agent a with k0 := (t.canonical (t.agent a).host e).2 } := by
  rw [setEntry, Team.agent_modAgent_same _ _ _ (listed_canonical ha _ e), agent_canonical]

end Pushes

theorem agent_pushHalves_other {t : Team} {a n : Nat} (cont pc : Nat) (run pending : LaneSet) (hn : n ≠ a) :
    (pushHalves a cont pc run pending t).agent n = t.agent n := by
  rw [pushHalves, setEntry, agent_modAgent_other hn, agent_canonical, Team.pushHalf, agent_modAgent_other hn, agent_canonical, pushReturn,
    agent_modAgent_other hn]

theorem opens_pushHalves {t : Team} {a : Nat} (cont pc : Nat) {run pending : LaneSet} (ha : cellHas t.agents a = true)
    (hrun : run &&& t.liveSet = run) (hrun0 : run ≠ 0) (hpending : pending &&& t.liveSet = pending) (hpending0 : pending ≠ 0) : ∃ half,
    Opens t (pushHalves a cont pc run pending t) a [⟨half, pc, 3, 0, 0⟩, ⟨(t.agent a).k0, cont, 1, 0, 0⟩] run ∧
      (handlesApart half ((pushHalves a cont pc run pending t).agent a).k0 →
        (pushHalves a cont pc run pending t).canonicalFor (t.agent a).host half pending) := by
  have ha1 : cellHas (pushReturn a cont t).agents a = true := cellHas_modAgent _ _ _ ha
  have ha2 := listed_pushHalf ha1 pc pending
  have hagent1 := agent_pushReturn ha cont
  have hagent2 := agent_pushHalf ha1 pc pending
  have hagent : (pushHalves a cont pc run pending t).agent a = _ := agent_setEntry ha2 run
  have hhost : ((pushReturn a cont t).agent a).host = (t.agent a).host := by rw [hagent1]
  have hhost2 : (((pushReturn a cont t).pushHalf a pc pending).agent a).host = (t.agent a).host := by rw [hagent2, hhost]
  have hlive : ((pushReturn a cont t).pushHalf a pc pending).liveSet = t.liveSet :=
    liveSet_near (Team.near_trans (near_pushReturn t a cont) (near_pushHalf _ a pc pending))
  rw [hhost] at hagent2
  rw [hhost2] at hagent
  refine ⟨_, ⟨cellHas_modAgent _ _ _ (listed_canonical ha2 _ run), fun n => agent_pushHalves_other cont pc run pending,
    ⟨_, by rw [hagent, hagent2, hagent1]; rfl⟩, ?_, fun d hd hhalf => ?_⟩, fun h => ?_⟩
  · rw [hagent, pushHalves, setEntry, hhost2]
    exact canonicalFor_canonical (by rw [hlive, hrun]) hrun0
  · rw [hagent] at hd
    have hd' := hhalf _ List.mem_cons_self rfl
    rw [pushHalves, setEntry, hhost2, resolve_modAgent, resolve_canonical_apart hd, Team.pushHalf, hhost, resolve_modAgent, resolve_canonical_apart hd']
    rfl
  · rw [hagent] at h
    rw [pushHalves, setEntry, hhost2]
    refine canonicalFor_congr ?_ (canonicalFor_canonical (t := pushReturn a cont t) hpending hpending0)
    rw [resolve_modAgent, resolve_canonical_apart h, Team.pushHalf, hhost, resolve_modAgent]

end Sys2Proof.Regions

namespace Sys2Proof.Regions
open Sys2Proof Sys2Proof.Machine Sys2Proof.CanonicalSets Sys2Proof.Turns

/-! ### The checks of apply and apply2 (R32, R105, R107, R114) -/

theorem applyFault_none {s : State} {pc c : Nat} (h : s.contOf s.curTeam pc = some c) : s.applyFault pc = none := by
  simp [State.applyFault, h]
theorem applyFault_some {s : State} {pc : Nat} (h : s.contOf s.curTeam pc = none) : s.applyFault pc = some (illegal 7) := by
  simp [State.applyFault, h]
theorem contAt_eq {s : State} {pc c : Nat} (h : s.contOf s.curTeam pc = some c) : s.contAt pc = c := by
  simp [State.contAt, h]
theorem overflow_some {s : State} {n : Nat} (h : 1032 < s.swdOf s.cur + n) : s.overflow n = some { kind := 4, d0 := dw (s.swdOf s.cur) } := if_pos h
theorem overflow_none {s : State} {n : Nat} (h : s.swdOf s.cur + n ≤ 1032) : s.overflow n = none := if_neg (by omega)
theorem entryFault_some {s : State} {sets : List LaneSet} (h : sets.any several = true) (hheld : 16 < s.curTeam.entrySets + 1) :
    s.entryFault sets = some { kind := 5, d0 := dw s.curTeam.entrySets } := by
  simp only [State.entryFault, h, hheld, decide_true, Bool.and_self, if_true]
theorem entryFault_none {s : State} {sets : List LaneSet} (h : sets.any several = false ∨ s.curTeam.entrySets + 1 ≤ 16) :
    s.entryFault sets = none := by
  rcases h with h | h
  · simp [State.entryFault, h]
  · simp [State.entryFault, Nat.not_lt.2 h]

theorem several_zero : several 0 = false := by
  refine several_eq_false_iff.2 (.inl (List.filter_eq_nil_iff.2 fun g _ => ?_))
  have h : (0 : LaneSet).toNat = 0 := BitVec.toNat_zero
  rw [groupPart, fld, h, Nat.zero_div, Nat.zero_mod]
  simp

/-! ### The arms of exec for the three instructions -/

theorem exec_apply (ka : KReg) (off : BitVec 16) (s : State) : exec (.apply ka off) s = execApply ka off s := rfl
theorem exec_applyT (policy : BitVec 2) (ka : KReg) (off : BitVec 16) (s : State) : exec (.applyT policy ka off) s = execApplyT policy ka off s := rfl
theorem exec_apply2 (ka kb : KReg) (off0 : BitVec 16) (off1 : BitVec 15) (s : State) :
    exec (.apply2 ka kb off0 off1) s = execApply2 ka kb off0 off1 s := rfl

/-! ### apply (R106, R107) -/

section Apply
variable {s : State} {ka : KReg} {off : BitVec 16} {c : Nat} (hissue : s.canIssue = true)
include hissue

theorem apply_noTarget (h : s.contOf s.curTeam (s.goal off) = none) : exec (.apply ka off) s = .next (s.raise (illegal 7)) := by
  rw [exec_apply, execApply]
  refine issueChecked_fault hissue ?_ _
  dsimp only
  rw [applyFault_some h]
  rfl

theorem apply_overflow (h : s.contOf s.curTeam (s.goal off) = some c) (he : s.members ka.toNat ≠ 0) (hover : 1032 < s.swdOf s.cur + 1) :
    exec (.apply ka off) s = .next (s.raise { kind := 4, d0 := dw (s.swdOf s.cur) }) := by
  rw [exec_apply, execApply]
  refine issueChecked_fault hissue ?_ _
  dsimp only
  rw [applyFault_none h, if_neg he, overflow_some hover]
  rfl

theorem apply_entryFault (h : s.contOf s.curTeam (s.goal off) = some c) (he : s.members ka.toNat ≠ 0) (hroom : s.swdOf s.cur + 1 ≤ 1032)
    (hwide : several (s.members ka.toNat) = true) (hheld : 16 < s.curTeam.entrySets + 1) :
    exec (.apply ka off) s = .next (s.raise { kind := 5, d0 := dw s.curTeam.entrySets }) := by
  rw [exec_apply, execApply]
  refine issueChecked_fault hissue ?_ _
  dsimp only
  rw [applyFault_none h, if_neg he, overflow_none hroom, entryFault_some (by simp [hwide]) hheld]
  rfl

/-- Over an empty set apply goes on at the continuation of its block (R107). -/
theorem apply_empty (h : s.contOf s.curTeam (s.goal off) = some c) (he : s.members ka.toNat = 0) : transfers (.apply ka off) s (some c) := by
  refine transfers_jump (cleared_clearK s ka.toNat) hissue ?_
  rw [exec_apply, execApply]
  refine (issueChecked_ready hissue ?_ _).trans ?_
  · dsimp only
    rw [applyFault_none h, if_pos he, he, entryFault_none (.inl (by rw [List.any_cons, several_zero]; rfl))]
    rfl
  · dsimp only
    rw [if_pos he, contAt_eq h]

omit hissue in
/-- What retires and then pushes for the issuing agent is `openWith`. -/
theorem retireThen_eq_openWith {r : State} (push : Nat → Team → Team) (pc : Nat) :
    (r.retireThen {} fun u => (u.modCurTeam (push u.cur.agent)).enterBlock u.cur pc) = openWith r (push r.cur.agent) pc := by
  rw [openWith, State.retireThen, State.retireThen, onlyTeam_cur (retire_calm r {}).1]

theorem exec_apply_opens (h : s.contOf s.curTeam (s.goal off) = some c) (he : s.members ka.toNat ≠ 0) (hroom : s.swdOf s.cur + 1 ≤ 1032)
    (hheld : several (s.members ka.toNat) = false ∨ s.curTeam.entrySets + 1 ≤ 16) : exec (.apply ka off) s =
      .next (openWith (s.clearK ka.toNat) (fun t => t.pushLocal s.cur.agent c (s.members ka.toNat)) (s.goal off)) := by
  rw [exec_apply, execApply]
  refine (issueChecked_ready hissue ?_ _).trans ?_
  · dsimp only
    rw [applyFault_none h, if_neg he, overflow_none hroom, entryFault_none (by simpa using hheld)]
    rfl
  · dsimp only
    rw [if_neg he, contAt_eq h, retireThen_eq_openWith fun a t => t.pushLocal a c (s.members ka.toNat), (cleared_clearK s ka.toNat).cur]

/-- Entries pushed for a set of live lanes open a region. -/
theorem opens_local {r : State} (hr : Cleared s r) {e : LaneSet} (he : e &&& s.curTeam.liveSet = e) (h0 : e ≠ 0) (pc : Nat) :
    let t := openWith r (fun t => t.pushLocal s.cur.agent c e) pc
    registersAndCounters s t ∧ sameValues s t ∧ (s.reissues = false → opensRegion s t [⟨s.curAgent.k0, c, 1, 0, 0⟩] e pc) := by
  have hnear (t : Team) : t.near (t.pushLocal s.cur.agent c e) := near_pushLocal t _ _ _
  obtain ⟨hframe, hvalues⟩ := openWith_frame hr hnear pc
  refine ⟨hframe, hvalues, fun hre => openWith_opensRegion hr hissue hre hnear pc ?_⟩
  have hopen := opens_pushLocal c (hr.retire_listed hissue hre) (by rw [hr.retire_liveSet hissue hre, he]) h0
  rwa [hr.retire_agent_same hissue hre] at hopen

end Apply

/-! ### apply.t over an empty set (R107) -/

section ApplyT
variable {s : State} {policy : BitVec 2} {ka : KReg} {off : BitVec 16} {c : Nat} (hissue : s.canIssue = true)
include hissue

theorem applyT_noTarget (h : s.contOf s.curTeam (s.goal off) = none) : exec (.applyT policy ka off) s = .next (s.raise (illegal 7)) := by
  rw [exec_applyT, execApplyT]
  refine issueChecked_fault hissue ?_ _
  dsimp only
  rw [applyFault_some h]
  rfl

theorem applyT_empty (h : s.contOf s.curTeam (s.goal off) = some c) (he : s.members ka.toNat = 0) : transfers (.applyT policy ka off) s (some c) := by
  refine transfers_jump (cleared_clearK s ka.toNat) hissue ?_
  rw [exec_applyT, execApplyT]
  refine (issueChecked_ready hissue ?_ _).trans ?_
  · dsimp only
    rw [applyFault_none h, if_pos he]
    rfl
  · dsimp only
    rw [if_pos he, contAt_eq h]

end ApplyT

/-! ### The local apply2 (R116) -/

section Apply2
variable {s : State} {ka kb : KReg} {off0 : BitVec 16} {off1 : BitVec 15} {c : Nat} (hissue : s.canIssue = true)
include hissue

theorem apply2_noTarget (h : s.contOf s.curTeam (s.goal off0) = none) : exec (.apply2 ka kb off0 off1) s = .next (s.raise (illegal 7)) := by
  rw [exec_apply2, execApply2]
  refine issueChecked_fault hissue ?_ _
  dsimp only
  rw [applyFault_some h]
  rfl

variable (h0 : s.contOf s.curTeam (s.goal off0) = some c)
include h0

theorem apply2_otherTarget (h : s.contOf s.curTeam (s.goal off1) ≠ some c) : exec (.apply2 ka kb off0 off1) s = .next (s.raise (illegal 7)) := by
  rw [exec_apply2, execApply2]
  refine issueChecked_fault hissue ?_ _
  dsimp only
  rw [applyFault_none h0]
  cases h1 : s.contOf s.curTeam (s.goal off1) with
  | none => rw [applyFault_some h1]; rfl
  | some c' =>
    rw [h1] at h
    rw [applyFault_none h1, h0, if_neg (by simpa using h.symm)]
    rfl

variable (h1 : s.contOf s.curTeam (s.goal off1) = some c)
include h1

theorem apply2_overlap (h : s.kset ka.toNat &&& s.kset kb.toNat ≠ 0) : exec (.apply2 ka kb off0 off1) s = .next (s.raise (regionFault 4 0)) := by
  rw [exec_apply2, execApply2]
  refine issueChecked_fault hissue ?_ _
  dsimp only
  rw [applyFault_none h0, applyFault_none h1, h0, h1, if_pos (by simp), if_neg (by simpa using h)]
  rfl

/-- Over two empty sets apply2 goes on at the continuation of its blocks. -/
theorem apply2_empty (ht : s.kset ka.toNat = 0) (hf : s.kset kb.toNat = 0) : transfers (.apply2 ka kb off0 off1) s (some c) := by
  have hr := (cleared_clearK s ka.toNat).trans (cleared_clearK (s.clearK ka.toNat) kb.toNat)
  have hmine : (s.kset ka.toNat ||| s.kset kb.toNat) &&& s.curAgent.lanes = 0 := by simp [ht, hf]
  refine transfers_jump hr hissue ?_
  rw [exec_apply2, execApply2]
  refine (issueChecked_ready hissue ?_ _).trans ?_
  · dsimp only
    rw [applyFault_none h0, applyFault_none h1, h0, h1, if_pos (by simp), if_pos (by simp [ht]), if_pos hmine]
    rfl
  · dsimp only
    rw [if_pos (by rwa [hr.kset, hr.kset, hr.curAgent]), contAt_eq h0]

-- The halves of an apply2 are disjoint and belong to the issuing agent, and one of them has a member.
variable (hapart : s.kset ka.toNat &&& s.kset kb.toNat = 0) (hown : (s.kset ka.toNat ||| s.kset kb.toNat) &&& ~~~s.curAgent.lanes = 0)
  (hsome : s.kset ka.toNat ||| s.kset kb.toNat ≠ 0)

omit hissue h0 h1 in
theorem and_eq_self_of_and_not {x l : LaneSet} (h : x &&& ~~~l = 0) : x &&& l = x := by
  refine BitVec.eq_of_getLsbD_eq fun i hi => ?_
  have hbit : (x &&& ~~~l).getLsbD i = false := by rw [h]; exact BitVec.getLsbD_zero
  simp only [BitVec.getLsbD_and, BitVec.getLsbD_not, hi, decide_true, Bool.true_and] at hbit ⊢
  cases hx : x.getLsbD i <;> simp_all

include hapart hown hsome

theorem apply2_overflow (hover : 1032 < s.swdOf s.cur + if (s.kset ka.toNat != 0 && s.kset kb.toNat != 0) = true then 2 else 1) :
    exec (.apply2 ka kb off0 off1) s = .next (s.raise { kind := 4, d0 := dw (s.swdOf s.cur) }) := by
  rw [exec_apply2, execApply2]
  refine issueChecked_fault hissue ?_ _
  dsimp only
  rw [applyFault_none h0, applyFault_none h1, h0, h1, if_pos (by simp), if_pos (beq_iff_eq.2 hapart),
    if_neg (by rwa [and_eq_self_of_and_not hown]), if_pos (beq_iff_eq.2 hown), overflow_some hover]
  rfl

variable (hroom : (s.swdOf s.cur + if (s.kset ka.toNat != 0 && s.kset kb.toNat != 0) = true then 2 else 1) ≤ 1032)
include hroom

theorem apply2_entryFault (hwide : [s.kset ka.toNat, s.kset kb.toNat].any several = true) (hheld : 16 < s.curTeam.entrySets + 1) :
    exec (.apply2 ka kb off0 off1) s = .next (s.raise { kind := 5, d0 := dw s.curTeam.entrySets }) := by
  rw [exec_apply2, execApply2]
  refine issueChecked_fault hissue ?_ _
  dsimp only
  rw [applyFault_none h0, applyFault_none h1, h0, h1, if_pos (by simp), if_pos (beq_iff_eq.2 hapart),
    if_neg (by rwa [and_eq_self_of_and_not hown]), if_pos (beq_iff_eq.2 hown), overflow_none hroom, entryFault_some hwide hheld]
  rfl

/-- A local apply2 that passes its checks retires, pushes the entries of its halves, and enters the block of the half that runs. -/
theorem exec_apply2_opens (hheld : [s.kset ka.toNat, s.kset kb.toNat].any several = false ∨ s.curTeam.entrySets + 1 ≤ 16) :
    let r := (s.clearK ka.toNat).clearK kb.toNat
    exec (.apply2 ka kb off0 off1) s = .next
      (if s.kset ka.toNat = 0 then openWith r (fun t => t.pushLocal s.cur.agent c (s.kset kb.toNat)) (s.goal off1)
        else if s.kset kb.toNat = 0 then openWith r (fun t => t.pushLocal s.cur.agent c (s.kset ka.toNat)) (s.goal off0)
        else openWith r (pushHalves s.cur.agent c (s.goal off1) (s.kset ka.toNat) (s.kset kb.toNat)) (s.goal off0)) := by
  have hr := (cleared_clearK s ka.toNat).trans (cleared_clearK (s.clearK ka.toNat) kb.toNat)
  intro r
  rw [exec_apply2, execApply2]
  refine (issueChecked_ready hissue ?_ _).trans ?_
  · dsimp only
    rw [applyFault_none h0, applyFault_none h1, h0, h1, if_pos (by simp), if_pos (beq_iff_eq.2 hapart),
      if_neg (by rwa [and_eq_self_of_and_not hown]), if_pos (beq_iff_eq.2 hown), overflow_none hroom, entryFault_none hheld]
    rfl
  · dsimp only
    rw [if_neg (by rwa [hr.kset, hr.kset, hr.curAgent, and_eq_self_of_and_not hown]), if_pos (beq_iff_eq.2 (by rwa [hr.kset, hr.kset, hr.curAgent])),
      contAt_eq h0, hr.cur]
    split_ifs <;> rfl

end Apply2

/-- Both halves' entries open a region for the half that runs, with the other half pending. -/
theorem opens_halves {s r : State} (hissue : s.canIssue = true) (hr : Cleared s r) {c pc' : Nat} {run pending : LaneSet}
    (hrun : run &&& s.curTeam.liveSet = run) (hrun0 : run ≠ 0) (hpending : pending &&& s.curTeam.liveSet = pending) (hpending0 : pending ≠ 0) (pc : Nat) :
    let t := openWith r (pushHalves s.cur.agent c pc' run pending) pc
    ∃ half, registersAndCounters s t ∧ sameValues s t ∧ (s.reissues = false →
      opensRegion s t [⟨half, pc', 3, 0, 0⟩, ⟨s.curAgent.k0, c, 1, 0, 0⟩] run pc ∧
        (handlesApart half t.curAgent.k0 → t.curTeam.canonicalFor s.curAgent.host half pending)) := by
  have hnear (t : Team) : t.near (pushHalves s.cur.agent c pc' run pending t) := near_pushHalves t _ _ _ _ _
  obtain ⟨hframe, hvalues⟩ := openWith_frame hr hnear pc
  by_cases hre : s.reissues = false
  case neg => exact ⟨0, hframe, hvalues, fun h => absurd h hre⟩
  case pos =>
    have hlive := hr.retire_liveSet hissue hre
    obtain ⟨half, hopen, hcanon⟩ := opens_pushHalves c pc' (hr.retire_listed hissue hre) (by rwa [hlive]) hrun0 (by rwa [hlive]) hpending0
    rw [hr.retire_agent_same hissue hre] at hopen hcanon
    have hk0 := openWith_k0 hr hissue hre hnear pc hopen.listed
    obtain ⟨-, -, p, n, hteam⟩ := openWith_team hr hissue hre hnear pc hopen.listed
    exact ⟨half, hframe, hvalues, fun _ => ⟨openWith_opensRegion hr hissue hre hnear pc hopen, fun h =>
      canonicalFor_congr (by rw [hteam, resolve_modAgent]) (hcanon (hk0 ▸ h))⟩⟩

/-- The entries that two halves need. -/
theorem entriesNeeded (x y : LaneSet) : (if (x != 0 && y != 0) = true then 2 else 1) = if x ≠ 0 ∧ y ≠ 0 then 2 else 1 := by
  simp only [Bool.and_eq_true, bne_iff_ne]

/-- Settles O27: the checks are evaluated in their order, and what passes them retires, pushes its entries and enters its block, over the empty sets at the
continuation. -/
theorem localRegionsOpen : Obligations.LocalRegionsOpen := by
  intro s policy ka kb off0 off1 hissue p0 p1 e kt kf swd wide
  have hwide (x : LaneSet) : wide x ≠ 0 ↔ several x = true := by simp [wide, several]
  have hnarrow (x : LaneSet) : wide x = 0 ↔ several x = false := by rw [← Bool.not_eq_true, ← hwide, not_not]
  have hone (x : LaneSet) : wide x ≠ 0 → wide x = 1 := fun h => if_pos (by simpa [several] using (hwide x).1 h)
  have hr := (cleared_clearK s ka.toNat).trans (cleared_clearK (s.clearK ka.toNat) kb.toNat)
  refine ⟨fun h => ⟨apply_noTarget hissue h, applyT_noTarget hissue h, apply2_noTarget hissue h⟩, fun c h => ⟨fun he => ⟨apply_empty hissue h he,
    applyT_empty hissue h he⟩, fun he hover => apply_overflow hissue h he hover, fun he hroom hw hheld => ?_, fun he hroom hheld => ?_,
    fun h1 => apply2_otherTarget hissue h h1, fun h1 => ⟨fun hne => apply2_overlap hissue h h1 hne, fun ht hf => apply2_empty hissue h h1 ht hf,
    fun hapart hown hsome => ⟨fun hover => ?_, fun hroom hw hheld => ?_⟩, fun hapart hown hheld hroom => ?_⟩⟩⟩
  · exact apply_entryFault hissue h he hroom ((hwide _).1 hw) (hone _ hw ▸ hheld)
  · refine ⟨_, exec_apply_opens hissue h he hroom ?_, opens_local hissue (cleared_clearK s ka.toNat) (members_and_liveSet s _) he p0⟩
    by_cases hw : wide e = 0
    · exact .inl ((hnarrow e).1 hw)
    · exact .inr (hone e hw ▸ hheld.resolve_left hw)
  · exact apply2_overflow hissue h h1 hapart hown hsome (by rwa [entriesNeeded])
  · refine apply2_entryFault hissue h h1 hapart hown hsome (by rwa [entriesNeeded]) ?_ hheld
    simpa [hwide] using hw
  · have hopens (hsome : kt ||| kf ≠ 0) := exec_apply2_opens hissue h h1 hapart hown hsome (by rwa [entriesNeeded]) (by simpa [hnarrow] using hheld)
    refine ⟨fun ht hf => ?_, fun ht hf => ?_, fun ht hf => ?_⟩
    · exact ⟨_, (hopens (by simpa [ht] using hf)).trans (by rw [if_pos ht]; rfl), opens_local hissue hr (kset_and_liveSet s _) hf p1⟩
    · exact ⟨_, (hopens (by simpa [hf] using ht)).trans (by rw [if_neg ht, if_pos hf]; rfl), opens_local hissue hr (kset_and_liveSet s _) ht p0⟩
    · obtain ⟨half, hopen⟩ := opens_halves hissue hr (c := c) (pc' := p1) (kset_and_liveSet s ka.toNat) ht (kset_and_liveSet s kb.toNat) hf p0
      exact ⟨_, half, (hopens fun h0 => ht (BitVec.or_eq_zero_iff.1 h0).1).trans (by rw [if_neg ht, if_neg hf]; rfl), hopen⟩

end Sys2Proof.Regions
end

