-- ==== Sys2Proof/Proofs/Traps.lean ====
section
/-! SUPPORT. The state that refutes the statement on trap fragments: a fragment of a region that faults with all 4096 handles in use (06 R52, R117, R118). -/

namespace Sys2Proof.FullHandles
open Sys2Proof Sys2Proof.Machine Sys2Proof.CanonicalSets

/-! ### A map that lists every handle (R52) -/

theorem cellHas_of_mem {β : Type} {m : Cells β} {k : Nat} {x : β} (h : (k, x) ∈ m) : cellHas m k = true := by
  induction m with
  | nil => cases h
  | cons p m ih =>
    rcases List.mem_cons.1 h with rfl | h
    · simp [cellHas]
    · simp [cellHas, ih h]

/-- A listed key of a map whose values are all one reads as it. -/
theorem cellGet_of_const {β : Type} {d x : β} {m : Cells β} (hx : ∀ p ∈ m, p.2 = x) {k : Nat} (h : cellHas m k = true) : cellGet d m k = x := by
  induction m with
  | nil => cases h
  | cons p m ih =>
    rw [cellGet_cons]
    split
    case isTrue => exact hx p List.mem_cons_self
    case isFalse hk => exact ih (fun q hq => hx q (List.mem_cons_of_mem _ hq)) (by simpa [cellHas, hk] using h)

/-- With every handle in use, the last is given out again. -/
theorem freeHandle_full {h : Cells LaneSet} (hall : ∀ i < 4096, cellHas h i = true) : freeHandle h = 4095 := by
  have hnone : (List.range 4096).find? (fun i => !cellHas h i) = none := by
    refine List.find?_eq_none.2 fun i hi => ?_
    simp [hall i (List.mem_range.1 hi)]
  rw [freeHandle, hnone]
  rfl

/-! ### A fragment of a region, with every handle of its team in use -/

/-- Lane 0 of group 0 and lane 0 of group 1. -/
def pair : LaneSet := BitVec.ofNat 1024 (2 ^ 32 + 1)
/-- Every handle names the pair. -/
@[irreducible] def handles : Cells LaneSet := (List.range 4096).map fun h => (h, pair)
/-- The trap fragment of the pair in a region of depth 1 of agent 0: its entry set has handle 4095. -/
def fragment : Agent :=
  { Agent.blank with kind := .trap 0 1, lanes := pair, k0 := teamDesc 2 4095, depth := 1, inRegion := true }
/-- The agent of group 0, at the join of its region. -/
def parent : Agent := { Agent.blank with stack := [⟨localDesc 0 1, 0, 1, 0, 0⟩], k0 := localDesc 0 0, status := .join }
/-- A resident team of two groups with these agents. -/
def team : Team :=
  { Team.blank with
    status := .resident, groupsN := 2, groups := [(0, { Group.blank with live := 1 }), (1, { Group.blank with live := 1 })],
    agents := [(0, parent), (32, fragment)], nextAgent := 33, handles := handles }
/-- The fragment issues. -/
def state : State := { State.reset with cur := ⟨1, 32⟩, teams := [(1, team)] }

theorem mem_handles {p : Nat × LaneSet} : p ∈ handles ↔ p.1 < 4096 ∧ p.2 = pair := by
  unfold handles
  constructor
  · rintro h
    obtain ⟨i, hi, rfl⟩ := List.mem_map.1 h
    exact ⟨List.mem_range.1 hi, rfl⟩
  · rintro ⟨hi, hx⟩
    exact List.mem_map.2 ⟨p.1, List.mem_range.2 hi, by rw [← hx]⟩
theorem handles_listed : ∀ i < 4096, cellHas handles i = true := fun _ hi => cellHas_of_mem (mem_handles.2 ⟨hi, rfl⟩)
theorem handles_last : cellGet 0 handles 4095 = pair :=
  cellGet_of_const (fun _ hp => (mem_handles.1 hp).2) (handles_listed 4095 (by decide))

theorem pair_live : team.liveSet = pair := by
  show [(0, _), (1, _)].foldl _ _ = pair
  decide +kernel
theorem groupsOf_pair : groupsOf pair = [0, 1] := by decide +kernel
theorem population_pair : population pair = 2 := by decide +kernel
theorem pair_ne_zero : pair ≠ 0 := by decide +kernel

theorem handle_last : isTeamForm (teamDesc 2 4095) = true ∧ bitsOf (teamDesc 2 4095) 0 12 = 4095 := teamDesc_form 2 4095 (by decide) (by decide)

/-- The pair is the entry set of the fragment. -/
theorem k0Set_fragment : team.k0Set 32 &&& fragment.lanes = pair := by
  have hresolve : team.resolve (teamDesc 2 4095) = pair := by
    rw [Team.resolve_team _ _ handle_last.1, handle_last.2, pair_live]
    show cellGet 0 handles 4095 &&& pair = pair
    rw [handles_last, BitVec.and_self]
  show team.resolve (teamDesc 2 4095) &&& ~~~(team.away 32) &&& pair = pair
  rw [hresolve]
  show pair &&& ~~~0#1024 &&& pair = pair
  rw [BitVec.not_zero, BitVec.and_allOnes, BitVec.and_self]

theorem canonical_pair : team.canonical 0 pair = ({ team with handles := cellPut handles 4095 pair }, teamDesc 2 4095) := by
  rw [canonical_many groupsOf_pair, population_pair]
  show (({ team with handles := cellPut handles (freeHandle handles) pair } : Team), teamDesc 2 (freeHandle handles)) = _
  rw [freeHandle_full handles_listed]

/-- Without a held fragment no fragment becomes pending. -/
theorem admitTraps_of_noneHeld {t : Team} (h : t.noneHeld) : t.admitTraps = t := by
  unfold Team.admitTraps
  suffices hfold : ∀ l : List (Nat × Agent), (∀ p ∈ l, p.2.status ≠ .heldTrap) → l.foldl _ t = t from hfold _ h
  intro l hl
  induction l with
  | nil => rfl
  | cons p l ih =>
    have hp : (p.2.status == Status.heldTrap) = false := beq_eq_false_iff_ne.2 (hl p List.mem_cons_self)
    rw [List.foldl_cons, hp]
    exact ih fun q hq => hl q (List.mem_cons_of_mem _ hq)

theorem room : team.trapRoom (several pair) = true := by
  rw [several, groupsOf_pair]
  rfl

/-- The fragment that an illegal instruction of the pair forms: its entry set has handle 4095 too. -/
def struck (w : DWord) : Agent :=
  { Agent.blank with
    kind := .trap 0 1, lanes := pair, k0 := teamDesc 2 4095, status := .pending, depth := 1, inRegion := true
    info := some
      { kind := 1, cause := 0, pc := 0, rest := 0, word := w, lanes := pair, ms := 0, d0 := 0, d1 := 0, tick := state.teamTick team, record := 0,
        delivered := false, retired := false, redo := false, atHeader := false, records := [], owner := none } }
/-- The team with the fragment formed, and its maker without lanes. -/
def formed (w : DWord) : Team :=
  { team with agents := [(0, parent), (32, { fragment with lanes := pair &&& ~~~pair }), (33, struck w)], nextAgent := 34, handles := cellPut handles 4095 pair }

theorem setTeam_state (x y : Team) : (state.setTeam 1 x).setTeam 1 y = state.setTeam 1 y := rfl

theorem formTrap_state (w : DWord) : state.formTrap ⟨1, 32⟩ pair (illegal 0) w 0 0 false false = state.setTeam 1 (formed w) := by
  have hteam : state.team 1 = team := rfl
  have hhost : (state.agent ⟨1, 32⟩).host = 0 := rfl
  have hhome : (state.agent ⟨1, 32⟩).trapHome 32 = (0, 1, true) := rfl
  have hlaunch (x : Team) (f) : (((state.setTeam 1 x).modAgent ⟨1, 32⟩ f).launch team.launch).determinate = false := rfl
  unfold State.formTrap
  simp only [hteam, hhost, hhome, room, canonical_pair, hlaunch, Bool.true_or, if_true, if_false, Bool.false_eq_true]
  rw [State.modAgent, State.modTeam, State.team_setTeam_same, setTeam_state]
  refine congrArg (state.setTeam 1) ?_
  rfl

/-- The team when the maker, left without lanes, is gone: its entry set's handle, which the new fragment shares, is freed (R52, R118). -/
def dropped (w : DWord) : Team :=
  { formed w with agents := [(0, parent), (33, struck w)], handles := cellDel (cellPut handles 4095 pair) 4095 }

theorem own_formed (w : DWord) : (formed w).own 32 ((formed w).k0Set 32) = 0 := by
  have hlanes : ((formed w).agent 32).lanes = 0#1024 := by
    show pair &&& ~~~pair = 0#1024
    exact BitVec.and_not_self ..
  rw [Team.own, hlanes, BitVec.and_zero, BitVec.zero_and]
  rfl

theorem dropAgent_formed (w : DWord) : (formed w).dropAgent 32 = dropped w := by
  have hkind : ((formed w).agent 32).kind = .trap 0 1 := rfl
  have hk0 : ((formed w).agent 32).k0 = teamDesc 2 4095 := rfl
  have hrelease : (formed w).release (teamDesc 2 4095) = { formed w with handles := cellDel (cellPut handles 4095 pair) 4095 } := by
    rw [Team.release, handle_last.1, handle_last.2]
    rfl
  rw [Team.dropAgent, hkind, hk0, hrelease]
  exact admitTraps_of_noneHeld (t := dropped w) fun p hp => by
    simp only [dropped, List.mem_cons, List.not_mem_nil, or_false] at hp
    rcases hp with rfl | rfl <;> nofun

theorem idle_formed (w : DWord) : (state.setTeam 1 (formed w)).modAgent ⟨1, 32⟩ Agent.idle = state.setTeam 1 (formed w) := by
  rw [State.modAgent, State.modTeam, State.team_setTeam_same, setTeam_state]
  exact congrArg (state.setTeam 1) (show (formed w).modAgent 32 Agent.idle = formed w from rfl)

theorem waitEmpty_formed (w : DWord) : (state.setTeam 1 (formed w)).waitEmpty ⟨1, 32⟩ = state.setTeam 1 (dropped w) := by
  have hteam : (state.setTeam 1 (formed w)).team 1 = formed w := State.team_setTeam_same ..
  have hagent : (state.setTeam 1 (formed w)).agent ⟨1, 32⟩ = { fragment with lanes := pair &&& ~~~pair } := by
    rw [State.agent, hteam]
    rfl
  have hhome : (!(Agent.trapHome { fragment with lanes := pair &&& ~~~pair } 32).2.2) = false := rfl
  have hmod : ((state.setTeam 1 (formed w)).modTeam 1 fun t => t.dropAgent 32) = state.setTeam 1 (dropped w) := by
    rw [State.modTeam, hteam, setTeam_state, dropAgent_formed]
  rw [State.waitEmpty, hteam, hagent, own_formed, hhome, bne_self_eq_false, Bool.or_self, if_neg Bool.false_ne_true]
  exact hmod

theorem raise_state : (state.raise (illegal 0)).curTeam = dropped (state.wordAt state.cur 0) := by
  have hk0 : (state.team 1).k0Set 32 &&& (state.agent ⟨1, 32⟩).lanes = pair := k0Set_fragment
  have hpc : (state.agent ⟨1, 32⟩).pc = 0 := rfl
  have hrest : (state.agent ⟨1, 32⟩).rest = 0 := rfl
  have hroom : (state.team 1).trapRoom (several pair) = true := room
  have hcur : state.cur = ⟨1, 32⟩ := rfl
  rw [State.raise, State.raiseAt, State.raiseWord, hcur]
  simp only [hk0, hroom, hpc, hrest, Nat.zero_sub, formTrap_state, if_true, idle_formed, waitEmpty_formed]
  exact State.team_setTeam_same ..

theorem resolve_dropped (w : DWord) : (dropped w).resolve (teamDesc 2 4095) = 0 := by
  have hfree : cellGet 0 (dropped w).handles 4095 = 0 := cellGet_del_same ..
  rw [Team.resolve_team _ _ handle_last.1, handle_last.2, hfree]
  exact BitVec.zero_and

/-- What a trap's fragment holds is what its entry set names (R117). -/
theorem resolve_of_trapped {s t : State} {lanes : LaneSet} {f : Raise} {w : DWord} {pc rest : Nat} {retired : Bool}
    (h : trapped s t lanes f w pc rest retired) : t.curTeam.resolve (t.curTeam.agent s.curTeam.nextAgent).k0 = lanes := by
  obtain ⟨_, _, _, _, _, _, _, hresolve, _⟩ := h
  exact hresolve

theorem state_canIssue : state.canIssue = true := rfl
theorem state_agentsOk : state.agentsOk = true := rfl
theorem state_takesTrap : state.curTeam.takesTrap := by
  refine ⟨by decide, by decide, fun p hp => ?_⟩
  have hp : p ∈ [(0, parent), (32, fragment)] := hp
  simp only [List.mem_cons, List.not_mem_nil, or_false] at hp
  rcases hp with rfl | rfl <;> nofun

/-- Refutes O49: with all 4096 handles in use, the fragment that a whole fault forms in a region takes handle 4095, which its maker's entry set has; the maker,
a trap fragment left without lanes, is dropped and frees it, so that the new fragment's entry set is empty. -/
theorem not_trapsFormFragments : ¬ Obligations.TrapsFormFragments := by
  unfold Obligations.TrapsFormFragments
  intro h
  obtain ⟨-, hraise, -⟩ := (h state).1 state_canIssue state_agentsOk state_takesTrap rfl
  have hresolve : (state.raise (illegal 0)).curTeam.resolve ((state.raise (illegal 0)).curTeam.agent 33).k0 = pair :=
    (resolve_of_trapped (hraise (illegal 0))).trans k0Set_fragment
  have hk0 (w : DWord) : ((dropped w).agent 33).k0 = teamDesc 2 4095 := rfl
  rw [raise_state, hk0, resolve_dropped] at hresolve
  exact pair_ne_zero hresolve.symm

end Sys2Proof.FullHandles
end
